-- ==== Sys2Proof/Word.lean ====
section
/-! DEFINITION. The word types of the part (R3, R4), the value names of instruction fields (R30, R57, R66, R67, R409), and
the events of the part: one constructor per row of spec/opcode_table.json that has no encoding, with what selects it. -/

namespace Sys2Proof

/-- One byte (R4). -/
abbrev Byte := BitVec 8
/-- One 32-bit instruction word or register (R53, R123). -/
abbrev Word := BitVec 32
/-- One 64-bit pair, address or reference (R62). -/
abbrev DWord := BitVec 64

/-- Rounding mode of a format-A float instruction (R30, R66): nearest even, toward zero, down, up. -/
inductive RMode where
  | rn | rz | rd | ru
  deriving DecidableEq, Repr

/-- Integer condition of ISET and ISETI (R66). -/
inductive Cond where
  | eq | ne | lt | le | gt | ge | ltu | leu | gtu | geu
  deriving DecidableEq, Repr

/-- Float condition of FSET (R66). -/
inductive FCond where
  | eq | ne | lt | le | gt | ge | neu | un | ord
  deriving DecidableEq, Repr

/-- Access semantics of the M format (R57). -/
inductive Sem where
  | plain | acq | rel | sc
  deriving DecidableEq, Repr

/-- Scope of an access or fence (R57): no scope, team, cluster, die, package, system. -/
inductive Scope where
  | unscoped | team | clu | die | pkg | sys
  deriving DecidableEq, Repr

/-- Access width of the M format (R57). -/
inductive Width where
  | b | bs | h | hs | w | x | q
  deriving DecidableEq, Repr

/-- Atomic operation of the X format (R66). -/
inductive AOp where
  | add | minS | maxS | minU | maxU | and | or | xor | xchg | cas | incw | decw | fadd | addX
  deriving DecidableEq, Repr

/-- Element formats of TMMA and TCVT (R67): A and B operand. -/
inductive TFmt where
  | bf16 | f16 | e4m3 | e4m3e5m2 | e5m2e4m3 | e5m2 | e3m2 | e2m3 | cb4
  deriving DecidableEq, Repr

/-- Integer element formats of TMMAI (R67). -/
inductive TIFmt where
  | s8s8 | s8u8 | u8s8 | u8u8
  deriving DecidableEq, Repr

/-- The two 8-bit float formats of PK8 and UPK8. -/
inductive F8 where
  | e4m3 | e5m2
  deriving DecidableEq, Repr

/-- The two 6-bit float formats of PK6 and UPK6. -/
inductive F6 where
  | e3m2 | e2m3
  deriving DecidableEq, Repr

/-- Target formats of SCX and SCM. -/
inductive ScaleT where
  | e4m3 | e5m2 | e3m2 | e2m3 | exp
  deriving DecidableEq, Repr

/-- Operation of REDN (R66, R395). -/
inductive RedOp where
  | fadd | add | fmax | fmin | maxS | minS
  deriving DecidableEq, Repr

/-- Condition of the filter branch YBR (R409). -/
inductive YCond where
  | eq | ne | ltu | geu | lt | ge | al
  deriving DecidableEq, Repr

/-- Kind of the filter shift YSHI (R409). -/
inductive ShKind where
  | shl | shr | sar
  deriving DecidableEq, Repr

/-- AtomicOp of the host port (R220, R377). -/
inductive PcieOp where
  | fetchAdd | swap | cas
  deriving DecidableEq, Repr

/-- Why a word is no instruction (R68, rows 1 to 3). -/
inductive WordCause where
  | opcode | field | lit
  deriving DecidableEq, Repr

/-- What a lease is held for (LEASE_EXPIRY). -/
inductive LeaseKind where
  | stash | icache | proxy
  deriving DecidableEq, Repr

/-- An event of the part that has no instruction word: what the host, an engine, a timer or a link does next. -/
inductive Event where
  | regWrite (pf : Bool) (off : Nat) (v : BitVec 64)
  | modeCfgWrite (pf : Bool) (v : BitVec 32)
  | powerCapApply
  | mirrorRelease
  | leaseChangeSettle
  | railOvercurrent (die : Nat)
  | ctxBind (x : BitVec 12)
  | ctxSuspend (x : BitVec 12)
  | ctxResume (x : BitVec 12)
  | ctxClearf (x : BitVec 12)
  | ctxFence (x : BitVec 12)
  | ctxDestroy (x : BitVec 12)
  | sliceLengthExpiry (c : Nat)
  | sliceSwitch (c : Nat)
  | tileOwnershipTransfer (c : Nat) (x : BitVec 12)
  | debugResume (k : Nat)
  | sleepEnd (k : Nat) (i : Nat)
  | yieldTimeout (k : Nat) (i : Nat)
  | tholdPropagation (x : BitVec 12) (c : Nat)
  | threadWaitEnd (k : Nat) (i : Nat)
  | qBind (slot : BitVec 8)
  | qStart (slot : BitVec 8)
  | qDrain (slot : BitVec 8)
  | qClear (slot : BitVec 8)
  | qDestroy (slot : BitVec 8)
  | qQuery (slot : BitVec 8)
  | queueWatchFire (slot : BitVec 8)
  | queueRecordNop (slot : BitVec 8)
  | queueRecordLaunch (slot : BitVec 8)
  | queueRecordWait (slot : BitVec 8)
  | queueRecordSignal (slot : BitVec 8)
  | queueUnblock (slot : BitVec 8)
  | queueAgePromote (slot : BitVec 8)
  | gridDescriptorRead (x : BitVec 12) (g : BitVec 32)
  | gridTranslate (x : BitVec 12) (g : BitVec 32)
  | teamPlace (k : Nat)
  | placementReserve (k : Nat)
  | teamDone (k : Nat)
  | slabSpill (k : Nat) (i : Nat) (slab : Nat)
  | slabFill (k : Nat) (i : Nat) (slab : Nat)
  | binDraw (c : Nat) (n : Nat)
  | storeArrival (id : Nat) (die : Nat)
  | requestEnqueue (r : Nat)
  | requestAdvance (cluster : Nat)
  | requestHoldTimeout (r : Nat)
  | requestBackoffExpiry (r : Nat)
  | requestReissue (r : Nat)
  | loadCommit (r : Nat)
  | walkComplete (w : Nat)
  | instructionFetch (k : Nat) (i : Nat)
  | runAheadFetch (c : Nat) (x : BitVec 12) (va : BitVec 64)
  | frmTblWrite (pf : Bool) (v : BitVec 64)
  | pgInval (x : BitVec 12)
  | pgReside (x : BitVec 12)
  | pgMigpub (x : BitVec 12)
  | pgAssign (x : BitVec 12)
  | pgShare (x : BitVec 12)
  | pgFree (x : BitVec 12)
  | pgUnpoison (x : BitVec 12)
  | prqRidxWrite (pf : Bool) (v : BitVec 64)
  | mwaitWake (k : Nat) (i : Nat)
  | mwaitTimeout (k : Nat) (i : Nat)
  | hostWatchExpiry (k : Nat) (i : Nat)
  | tileOpStart (c : Nat)
  | tileOpComplete (c : Nat)
  | tileFillComplete (id : Nat)
  | selftestInject (c : Nat) (sub : Nat) (ok : Bool)
  | selftestForced (c : Nat) (sub : Nat) (ok : Bool)
  | requestEngineTake (k : Nat)
  | cmdNop (id : Nat)
  | cmdCpy (id : Nat)
  | cmdCpy2d (id : Nat)
  | cmdCpyt (id : Nat)
  | cmdCpyp (id : Nat)
  | cmdCpyr (id : Nat)
  | cmdFill (id : Nat)
  | cmdComplete (id : Nat)
  | mhDefine (x : BitVec 12) (region : BitVec 4)
  | mhBegin (x : BitVec 12) (region : BitVec 4)
  | mhEnd (x : BitVec 12) (region : BitVec 4)
  | mhUndefine (x : BitVec 12) (region : BitVec 4)
  | teaselTake (x : BitVec 12) (region : BitVec 4)
  | teaselRetry (x : BitVec 12) (region : BitVec 4)
  | hostWrite (pa : Nat) (bytes : List (BitVec 8))
  | hostRead (pa : Nat) (len : Nat)
  | hostAtomicop (pa : Nat) (op : PcieOp) (wide : Bool) (v : BitVec 64) (cmp : BitVec 64)
  | vfAccess (vf : Nat) (off : Nat) (write : Bool) (len : Nat) (bytes : List (BitVec 8))
  | hostConfigRequest (off : Nat)
  | hostCompletion (line : Nat) (bytes : List (BitVec 8))
  | vfBindWrite (pf : Bool) (vf : Nat) (v : BitVec 64)
  | doeDiscovery (index : Nat)
  | spdmRequest (secured : Bool) (msg : List (BitVec 8))
  | ideKmMessage (stream : Nat) (vf : Nat)
  | tdispLockInterface (vf : Nat)
  | tdispStartInterface (vf : Nat)
  | tdispStopInterface (vf : Nat)
  | ideIntegrityFailure (vf : Nat)
  | portSignalDetect (p : Nat)
  | portTrainingResult (p : Nat) (lanes : BitVec 8) (node : BitVec 12)
  | portLinkLoss (p : Nat)
  | bamlosResponse (line : Nat) (tagOk : Bool) (bytes : List (BitVec 8))
  | nodeTrigger (line : Nat)
  | bamlosMgmt (x : BitVec 12) (node : BitVec 12) (msg : List (BitVec 8))
  | nodeAttest (x : BitVec 12) (node : BitVec 12)
  | attestResult (x : BitVec 12) (node : BitVec 12) (result : BitVec 3) (digest : List (BitVec 8))
  | nodeRevoke (x : BitVec 12) (node : BitVec 12)
  | nodeFence (x : BitVec 12) (node : BitVec 12)
  | nodeUnfence (x : BitVec 12) (node : BitVec 12)
  | nodeRetrain (x : BitVec 12) (node : BitVec 12)
  | reduceRoundComplete (id : Nat)
  | ywLoad (die : Nat) (slot : BitVec 4)
  | ywUnload (die : Nat) (slot : BitVec 4)
  | ywDump (die : Nat) (slot : BitVec 4) (bank : BitVec 4)
  | ywClear (die : Nat) (slot : BitVec 4) (bank : BitVec 4)
  | ywBudget (die : Nat) (x : BitVec 12)
  | ywSample (die : Nat) (pos : BitVec 5) (x : BitVec 12)
  | yarrowRun (die : Nat)
  | yarrowWindow (die : Nat)
  | yarrowTimerEvent (die : Nat)
  | samplerTick (c : Nat)
  | scanRotationStart
  | coreScan (c : Nat) (ok : Bool)
  | scanDrainTimeout (c : Nat)
  | partReset (fail : BitVec 8) (badCores : List Nat)
  | partFatal
  | illegalOpcode (w : BitVec 32) (cause : WordCause)
  | leaseExpiry (kind : LeaseKind) (holder : Nat) (line : Nat)
  | caplimWindow
  | flowControlStopGo (p : Nat) (vc : Nat) (go : Bool)
  deriving DecidableEq, Repr

end Sys2Proof
end

