-- ==== Sys2Proof/Config.lean ====
section
/-! DEFINITION. The constants of the part that the spec leaves open: each has no value here, so no claim can rest on one. -/

namespace Sys2Proof.Config

/-- A value that the spec does not state, by the counter at its use: nothing constrains it. -/
opaque freeWord : Nat → DWord

/-- The slots of a shared queue of which the spec gives no number (R230): one more than this, by the number of the queue. -/
opaque queueSlots : Nat → Nat

/-- A message of a protocol that the manual names and does not define, by the counter at its use: neither its bytes nor their number is
known. -/
opaque freeMessage : Nat → List (BitVec 8)

/-- The SHA-256 digest of an index (R433) that a boot has measured, by the number of the boot. -/
opaque digest : Nat → Nat → List (BitVec 8)

/-- The part's answer to an SPDM request: of the digests that it has measured, the request, and the counter at its use. -/
opaque spdmAnswer : List (List (BitVec 8)) → List (BitVec 8) → Nat → List (BitVec 8)

end Sys2Proof.Config
end

