-- ==== Sys2Proof/Syntax.lean ====
section
/-! DEFINITION. The syntax: one constructor of Instr per row of spec/opcode_table.json. The rows with an encoding carry the
fields of their word (R55 to R67, R409); the rows without one are events of the part, with what selects the event. -/

namespace Sys2Proof

/-- The instructions and events of the part, one constructor per row of the opcode table: the encoded rows with operands,
the encoded rows without, then the events. -/
inductive Instr where
  | bra (off : BitVec 21)
  | brc (neg : Bool) (p : BitVec 3) (off : BitVec 21)
  | call (slide : BitVec 7) (off : BitVec 18)
  | callr (a : BitVec 7) (slide : BitVec 7)
  | jmpr (a : BitVec 7)
  | winbase (n : BitVec 18)
  | trap (code : BitVec 18)
  | srd (d : BitVec 7) (sr : BitVec 7)
  | swr (sr : BitVec 7) (a : BitVec 7)
  | rdcnt (d : BitVec 7) (n : BitVec 7)
  | tmark (code : BitVec 7) (a : BitVec 7)
  | sleep (a : BitVec 7)
  | launch (d : BitVec 7) (a : BitVec 7) (b : BitVec 7)
  | gwait (d : BitVec 7) (a : BitVec 7)
  | elect (d : BitVec 7) (p : BitVec 3)
  | electS (d : BitVec 7) (p : BitVec 3) (q : BitVec 3)
  | wakel (d : BitVec 7) (a : BitVec 7)
  | matchW (d : BitVec 7) (a : BitVec 7)
  | matchX (d : BitVec 7) (a : BitVec 7)
  | voteAny (d : BitVec 3) (a : BitVec 3)
  | voteAll (d : BitVec 3) (a : BitVec 3)
  | voteBal (d : BitVec 7) (p : BitVec 3)
  | actmask (d : BitVec 7)
  | shflIdx (d : BitVec 7) (a : BitVec 7) (b : BitVec 7)
  | shflUp (d : BitVec 7) (a : BitVec 7) (b : BitVec 7)
  | shflDown (d : BitVec 7) (a : BitVec 7) (b : BitVec 7)
  | shflXor (d : BitVec 7) (a : BitVec 7) (b : BitVec 7)
  | pand (d : BitVec 3) (a : BitVec 3) (b : BitVec 3)
  | por (d : BitVec 3) (a : BitVec 3) (b : BitVec 3)
  | pxor (d : BitVec 3) (a : BitVec 3) (b : BitVec 3)
  | pandn (d : BitVec 3) (a : BitVec 3) (b : BitVec 3)
  | pnot (d : BitVec 3) (a : BitVec 3)
  | pmov (d : BitVec 3) (a : BitVec 3)
  | pget (d : BitVec 7)
  | psetm (a : BitVec 7) (b : BitVec 7)
  | add (d : BitVec 7) (a : BitVec 7) (b : BitVec 7)
  | sub (d : BitVec 7) (a : BitVec 7) (b : BitVec 7)
  | and (d : BitVec 7) (a : BitVec 7) (b : BitVec 7)
  | or (d : BitVec 7) (a : BitVec 7) (b : BitVec 7)
  | xor (d : BitVec 7) (a : BitVec 7) (b : BitVec 7)
  | andn (d : BitVec 7) (a : BitVec 7) (b : BitVec 7)
  | shl (d : BitVec 7) (a : BitVec 7) (b : BitVec 7)
  | shr (d : BitVec 7) (a : BitVec 7) (b : BitVec 7)
  | sar (d : BitVec 7) (a : BitVec 7) (b : BitVec 7)
  | minS (d : BitVec 7) (a : BitVec 7) (b : BitVec 7)
  | minU (d : BitVec 7) (a : BitVec 7) (b : BitVec 7)
  | maxS (d : BitVec 7) (a : BitVec 7) (b : BitVec 7)
  | maxU (d : BitVec 7) (a : BitVec 7) (b : BitVec 7)
  | mul (d : BitVec 7) (a : BitVec 7) (b : BitVec 7)
  | mulhiS (d : BitVec 7) (a : BitVec 7) (b : BitVec 7)
  | mulhiU (d : BitVec 7) (a : BitVec 7) (b : BitVec 7)
  | mad (d : BitVec 7) (a : BitVec 7) (b : BitVec 7)
  | mulwS (d : BitVec 7) (a : BitVec 7) (b : BitVec 7)
  | mulwU (d : BitVec 7) (a : BitVec 7) (b : BitVec 7)
  | abs (d : BitVec 7) (a : BitVec 7)
  | clz (d : BitVec 7) (a : BitVec 7)
  | popc (d : BitVec 7) (a : BitVec 7)
  | brev (d : BitVec 7) (a : BitVec 7)
  | bfeS (d : BitVec 7) (a : BitVec 7) (b : BitVec 7)
  | bfeU (d : BitVec 7) (a : BitVec 7) (b : BitVec 7)
  | bfi (d : BitVec 7) (a : BitVec 7) (b : BitVec 7)
  | mov (d : BitVec 7) (a : BitVec 7)
  | extS (d : BitVec 7) (a : BitVec 7) (n : BitVec 5)
  | extU (d : BitVec 7) (a : BitVec 7) (n : BitVec 5)
  | sel (d : BitVec 7) (a : BitVec 7) (b : BitVec 7) (inv : Bool) (p : BitVec 3)
  | iset (c : Cond) (p : BitVec 3) (a : BitVec 7) (b : BitVec 7)
  | isetX (c : Cond) (p : BitVec 3) (a : BitVec 7) (b : BitVec 7)
  | iseti (c : Cond) (p : BitVec 3) (a : BitVec 7) (imm : BitVec 11)
  | addi (d : BitVec 7) (a : BitVec 7) (imm : BitVec 11)
  | andi (d : BitVec 7) (a : BitVec 7) (imm : BitVec 11)
  | ori (d : BitVec 7) (a : BitVec 7) (imm : BitVec 11)
  | xori (d : BitVec 7) (a : BitVec 7) (imm : BitVec 11)
  | shli (d : BitVec 7) (a : BitVec 7) (n : BitVec 5)
  | shri (d : BitVec 7) (a : BitVec 7) (n : BitVec 5)
  | sari (d : BitVec 7) (a : BitVec 7) (n : BitVec 5)
  | roli (d : BitVec 7) (a : BitVec 7) (n : BitVec 5)
  | muli (d : BitVec 7) (a : BitVec 7) (imm : BitVec 11)
  | movi (d : BitVec 7) (imm : BitVec 18)
  | addX (d : BitVec 7) (a : BitVec 7) (b : BitVec 7)
  | subX (d : BitVec 7) (a : BitVec 7) (b : BitVec 7)
  | shlX (d : BitVec 7) (a : BitVec 7) (b : BitVec 7)
  | shrX (d : BitVec 7) (a : BitVec 7) (b : BitVec 7)
  | sarX (d : BitVec 7) (a : BitVec 7) (b : BitVec 7)
  | movX (d : BitVec 7) (a : BitVec 7)
  | lea (d : BitVec 7) (a : BitVec 7) (b : BitVec 7) (k : BitVec 3)
  | addiX (d : BitVec 7) (a : BitVec 7) (imm : BitVec 11)
  | fadd (d : BitVec 7) (a : BitVec 7) (b : BitVec 7) (abs : Bool) (neg : Bool) (rm : RMode)
  | fsub (d : BitVec 7) (a : BitVec 7) (b : BitVec 7) (abs : Bool) (neg : Bool) (rm : RMode)
  | fmul (d : BitVec 7) (a : BitVec 7) (b : BitVec 7) (abs : Bool) (neg : Bool) (rm : RMode)
  | ffma (d : BitVec 7) (a : BitVec 7) (b : BitVec 7) (abs : Bool) (neg : Bool) (rm : RMode)
  | fmin (d : BitVec 7) (a : BitVec 7) (b : BitVec 7)
  | fmax (d : BitVec 7) (a : BitVec 7) (b : BitVec 7)
  | fset (c : FCond) (p : BitVec 3) (a : BitVec 7) (b : BitVec 7)
  | rcp (d : BitVec 7) (a : BitVec 7)
  | rsq (d : BitVec 7) (a : BitVec 7)
  | sqrt (d : BitVec 7) (a : BitVec 7)
  | exp2 (d : BitVec 7) (a : BitVec 7)
  | log2 (d : BitVec 7) (a : BitVec 7)
  | sinpi (d : BitVec 7) (a : BitVec 7)
  | cospi (d : BitVec 7) (a : BitVec 7)
  | rndn (d : BitVec 7) (a : BitVec 7)
  | rndz (d : BitVec 7) (a : BitVec 7)
  | rndd (d : BitVec 7) (a : BitVec 7)
  | rndu (d : BitVec 7) (a : BitVec 7)
  | fcvtF32I32 (d : BitVec 7) (a : BitVec 7) (rm : RMode)
  | fcvtF32Ui32 (d : BitVec 7) (a : BitVec 7) (rm : RMode)
  | fcvtI32F32 (d : BitVec 7) (a : BitVec 7) (rm : RMode)
  | fcvtUi32F32 (d : BitVec 7) (a : BitVec 7) (rm : RMode)
  | fcvtF32I64 (d : BitVec 7) (a : BitVec 7) (rm : RMode)
  | fcvtI64F32 (d : BitVec 7) (a : BitVec 7) (rm : RMode)
  | fcvtF16F32 (d : BitVec 7) (a : BitVec 7) (rm : RMode)
  | fcvtBf16F32 (d : BitVec 7) (a : BitVec 7) (rm : RMode)
  | fcvtF16hF32 (d : BitVec 7) (a : BitVec 7) (rm : RMode)
  | fcvtBf16hF32 (d : BitVec 7) (a : BitVec 7) (rm : RMode)
  | fcvtF32F16 (d : BitVec 7) (a : BitVec 7)
  | fcvtF32Bf16 (d : BitVec 7) (a : BitVec 7)
  | fcvtF32F16h (d : BitVec 7) (a : BitVec 7)
  | fcvtF32Bf16h (d : BitVec 7) (a : BitVec 7)
  | fcvtF32Ui64 (d : BitVec 7) (a : BitVec 7) (rm : RMode)
  | fcvtUi64F32 (d : BitVec 7) (a : BitVec 7) (rm : RMode)
  | pk8 (d : BitVec 7) (a : BitVec 7) (rm : RMode) (f : F8)
  | upk8 (d : BitVec 7) (a : BitVec 7) (f : F8)
  | pk6 (d : BitVec 7) (a : BitVec 7) (rm : RMode) (f : F6)
  | upk6 (d : BitVec 7) (a : BitVec 7) (f : F6)
  | hadd2Bf16 (d : BitVec 7) (a : BitVec 7) (b : BitVec 7)
  | hmul2Bf16 (d : BitVec 7) (a : BitVec 7) (b : BitVec 7)
  | hfma2Bf16 (d : BitVec 7) (a : BitVec 7) (b : BitVec 7)
  | hadd2F16 (d : BitVec 7) (a : BitVec 7) (b : BitVec 7)
  | hmul2F16 (d : BitVec 7) (a : BitVec 7) (b : BitVec 7)
  | hfma2F16 (d : BitVec 7) (a : BitVec 7) (b : BitVec 7)
  | hmin2 (d : BitVec 7) (a : BitVec 7) (b : BitVec 7)
  | hmax2 (d : BitVec 7) (a : BitVec 7) (b : BitVec 7)
  | scx (d : BitVec 7) (a : BitVec 7) (t : ScaleT)
  | sca (d : BitVec 7) (a : BitVec 7) (b : BitVec 7)
  | scm (d : BitVec 7) (a : BitVec 7) (t : ScaleT)
  | ldB (d : BitVec 7) (a : BitVec 7) (imm : BitVec 11)
  | ldBs (d : BitVec 7) (a : BitVec 7) (imm : BitVec 11)
  | ldH (d : BitVec 7) (a : BitVec 7) (imm : BitVec 11)
  | ldHs (d : BitVec 7) (a : BitVec 7) (imm : BitVec 11)
  | ldW (d : BitVec 7) (a : BitVec 7) (imm : BitVec 11)
  | ldX (d : BitVec 7) (a : BitVec 7) (imm : BitVec 11)
  | ldQ (d : BitVec 7) (a : BitVec 7) (imm : BitVec 11)
  | stB (d : BitVec 7) (a : BitVec 7) (imm : BitVec 11)
  | stH (d : BitVec 7) (a : BitVec 7) (imm : BitVec 11)
  | stW (d : BitVec 7) (a : BitVec 7) (imm : BitVec 11)
  | stX (d : BitVec 7) (a : BitVec 7) (imm : BitVec 11)
  | stQ (d : BitVec 7) (a : BitVec 7) (imm : BitVec 11)
  | ldm (d : BitVec 7) (a : BitVec 7) (sem : Sem) (sc : Scope) (w : Width) (hint : BitVec 3)
  | stm (d : BitVec 7) (a : BitVec 7) (sem : Sem) (sc : Scope) (w : Width) (hint : BitVec 3)
  | prefLlc (a : BitVec 7) (imm : BitVec 11)
  | prefStash (a : BitVec 7) (imm : BitVec 11)
  | pgreq (d : BitVec 7) (a : BitVec 7) (b : BitVec 7)
  | pgreqNp (d : BitVec 7) (a : BitVec 7) (b : BitVec 7)
  | atomT (d : BitVec 7) (a : BitVec 7) (b : BitVec 7) (op : AOp)
  | atomC (d : BitVec 7) (a : BitVec 7) (b : BitVec 7) (op : AOp)
  | atomD (d : BitVec 7) (a : BitVec 7) (b : BitVec 7) (op : AOp)
  | atomP (d : BitVec 7) (a : BitVec 7) (b : BitVec 7) (op : AOp)
  | atomS (d : BitVec 7) (a : BitVec 7) (b : BitVec 7) (op : AOp)
  | redD (a : BitVec 7) (b : BitVec 7) (op : AOp)
  | redP (a : BitVec 7) (b : BitVec 7) (op : AOp)
  | redS (a : BitVec 7) (b : BitVec 7) (op : AOp)
  | stfl (d : BitVec 7) (a : BitVec 7) (b : BitVec 7) (wide : Bool) (sc : Scope)
  | redn (d : BitVec 7) (a : BitVec 7) (b : BitVec 7) (op : RedOp)
  | smap (d : BitVec 7) (a : BitVec 7) (b : BitVec 7)
  | sunmap (d : BitVec 7) (a : BitVec 7)
  | sflush (a : BitVec 7) (b : BitVec 7)
  | sinv (a : BitVec 7) (b : BitVec 7)
  | pub (d : BitVec 7) (a : BitVec 7) (b : BitVec 7)
  | mwatch (d : BitVec 7) (a : BitVec 7)
  | mwait (d : BitVec 7) (b : BitVec 7)
  | fence (sc : Bool) (tile : Bool) (eng : Bool) (st : Bool) (ld : Bool) (scope : Scope)
  | barSync (n : BitVec 4)
  | barArrive (n : BitVec 4) (a : BitVec 7)
  | barWait (n : BitVec 4) (a : BitVec 7)
  | tbinit (a : BitVec 7) (b : BitVec 7)
  | tbexp (a : BitVec 7) (b : BitVec 7)
  | tbarr (d : BitVec 7) (a : BitVec 7)
  | tbwait (d : BitVec 7) (a : BitVec 7) (b : BitVec 7)
  | tbtest (d : BitVec 7) (a : BitVec 7) (b : BitVec 7)
  | tberr (d : BitVec 7) (a : BitVec 7)
  | waitc (ld : BitVec 5) (st : BitVec 5) (cp : BitVec 5) (tl : BitVec 5)
  | waitb (n : BitVec 3) (imm : BitVec 11)
  | ccset (n : BitVec 3) (a : BitVec 7)
  | ccadd (n : BitVec 3) (a : BitVec 7)
  | ccrd (d : BitVec 7) (n : BitVec 3)
  | mxacq (d : BitVec 7)
  | mxrel (d : BitVec 7)
  | tmma (acc : BitVec 6) (abuf : BitVec 3) (bslot : BitVec 9) (f : TFmt) (free : Bool) (zero : Bool) (all : Bool)
  | tmmai (acc : BitVec 6) (abuf : BitVec 3) (bslot : BitVec 9) (f : TIFmt) (free : Bool) (zero : Bool) (all : Bool)
  | tzero (acc : BitVec 6) (all : Bool)
  | trd (d : BitVec 7) (acc : BitVec 6) (b : BitVec 7)
  | twr (d : BitVec 7) (acc : BitVec 6) (b : BitVec 7)
  | trowsum (d : BitVec 7) (acc : BitVec 6)
  | trowssq (d : BitVec 7) (acc : BitVec 6)
  | trowmax (d : BitVec 7) (acc : BitVec 6)
  | trowmul (acc : BitVec 6) (b : BitVec 7)
  | trowadd (acc : BitVec 6) (b : BitVec 7)
  | tcvt (acc : BitVec 6) (abuf : BitVec 3) (q : BitVec 2) (f : TFmt) (all : Bool)
  | tscale (accD : BitVec 6) (accS : BitVec 6) (b : BitVec 7)
  | tlda (a : BitVec 7) (b : BitVec 7)
  | tstate (d : BitVec 7) (a : BitVec 7)
  | trel (a : BitVec 7)
  | cbld (cb : BitVec 3) (a : BitVec 7)
  | rldW (d : BitVec 7) (r : BitVec 4) (imm : BitVec 11)
  | rldX (d : BitVec 7) (r : BitVec 4) (imm : BitVec 11)
  | rstW (d : BitVec 7) (r : BitVec 4) (imm : BitVec 11)
  | rstX (d : BitVec 7) (r : BitVec 4) (imm : BitVec 11)
  | rldr (d : BitVec 4) (r : BitVec 4) (b : BitVec 7)
  | rstr (d : BitVec 4) (r : BitVec 4) (b : BitVec 7)
  | pin (d : BitVec 7) (r : BitVec 4)
  | unpin (d : BitVec 7) (r : BitVec 4)
  | refeq (p : BitVec 3) (r : BitVec 4) (q : BitVec 4)
  | rget (d : BitVec 7) (r : BitVec 4)
  | rput (r : BitVec 4) (a : BitVec 7)
  | rchk (d : BitVec 7) (r : BitVec 4)
  | rnull (r : BitVec 4)
  | lit (p : BitVec 25)
  | yadd (d : BitVec 4) (a : BitVec 4) (b : BitVec 4)
  | ysub (d : BitVec 4) (a : BitVec 4) (b : BitVec 4)
  | yand (d : BitVec 4) (a : BitVec 4) (b : BitVec 4)
  | yor (d : BitVec 4) (a : BitVec 4) (b : BitVec 4)
  | yxor (d : BitVec 4) (a : BitVec 4) (b : BitVec 4)
  | yshl (d : BitVec 4) (a : BitVec 4) (b : BitVec 4)
  | yshr (d : BitVec 4) (a : BitVec 4) (b : BitVec 4)
  | yminu (d : BitVec 4) (a : BitVec 4) (b : BitVec 4)
  | ymaxu (d : BitVec 4) (a : BitVec 4) (b : BitVec 4)
  | yaddi (d : BitVec 4) (a : BitVec 4) (imm : BitVec 15)
  | yandi (d : BitVec 4) (a : BitVec 4) (imm : BitVec 15)
  | yshi (d : BitVec 4) (a : BitVec 4) (k : ShKind) (n : BitVec 5)
  | ymovi (d : BitVec 4) (imm : BitVec 15)
  | yins (d : BitVec 4) (imm : BitVec 15)
  | yclz (d : BitVec 4) (a : BitVec 4)
  | yhash (d : BitVec 4) (a : BitVec 4) (r : BitVec 2)
  | ybr (c : YCond) (a : BitVec 4) (b : BitVec 4) (imm : BitVec 15)
  | yhist (n : BitVec 2) (a : BitVec 4) (b : BitVec 4)
  | ycms (n : BitVec 1) (a : BitVec 4) (b : BitVec 4)
  | ycmq (d : BitVec 4) (n : BitVec 1) (a : BitVec 4)
  | yldb (d : BitVec 4) (n : BitVec 2) (a : BitVec 4)
  | ytrigArm (a : BitVec 4)
  | yrds (d : BitVec 4) (n : BitVec 15)
  | nop
  | ret
  | exit
  | reform
  | rft
  | yield
  | brk
  | ytrigRecord
  | ytrigInterrupt
  | ytrigFreeze
  | yend
  | regWrite (pf : Bool) (off : Nat) (v : BitVec 64)
  | modeCfgWrite (pf : Bool) (v : BitVec 32)
  | powerCapApply
  | mirrorRelease
  | leaseChangeSettle
  | railOvercurrent (die : Nat)
  | ctxBind (x : BitVec 12)
  | ctxSuspend (x : BitVec 12)
  | ctxResume (x : BitVec 12)
  | ctxClearf (x : BitVec 12)
  | ctxFence (x : BitVec 12)
  | ctxDestroy (x : BitVec 12)
  | sliceLengthExpiry (c : Nat)
  | sliceSwitch (c : Nat)
  | tileOwnershipTransfer (c : Nat) (x : BitVec 12)
  | debugResume (k : Nat)
  | sleepEnd (k : Nat) (i : Nat)
  | yieldTimeout (k : Nat) (i : Nat)
  | tholdPropagation (x : BitVec 12) (c : Nat)
  | threadWaitEnd (k : Nat) (i : Nat)
  | qBind (slot : BitVec 8)
  | qStart (slot : BitVec 8)
  | qDrain (slot : BitVec 8)
  | qClear (slot : BitVec 8)
  | qDestroy (slot : BitVec 8)
  | qQuery (slot : BitVec 8)
  | queueWatchFire (slot : BitVec 8)
  | queueRecordNop (slot : BitVec 8)
  | queueRecordLaunch (slot : BitVec 8)
  | queueRecordWait (slot : BitVec 8)
  | queueRecordSignal (slot : BitVec 8)
  | queueUnblock (slot : BitVec 8)
  | queueAgePromote (slot : BitVec 8)
  | gridDescriptorRead (x : BitVec 12) (g : BitVec 32)
  | gridTranslate (x : BitVec 12) (g : BitVec 32)
  | teamPlace (k : Nat)
  | placementReserve (k : Nat)
  | teamDone (k : Nat)
  | slabSpill (k : Nat) (i : Nat) (slab : Nat)
  | slabFill (k : Nat) (i : Nat) (slab : Nat)
  | binDraw (c : Nat) (n : Nat)
  | storeArrival (id : Nat) (die : Nat)
  | requestEnqueue (r : Nat)
  | requestAdvance (cluster : Nat)
  | requestHoldTimeout (r : Nat)
  | requestBackoffExpiry (r : Nat)
  | requestReissue (r : Nat)
  | loadCommit (r : Nat)
  | walkComplete (w : Nat)
  | instructionFetch (k : Nat) (i : Nat)
  | runAheadFetch (c : Nat) (x : BitVec 12) (va : BitVec 64)
  | frmTblWrite (pf : Bool) (v : BitVec 64)
  | pgInval (x : BitVec 12)
  | pgReside (x : BitVec 12)
  | pgMigpub (x : BitVec 12)
  | pgAssign (x : BitVec 12)
  | pgShare (x : BitVec 12)
  | pgFree (x : BitVec 12)
  | pgUnpoison (x : BitVec 12)
  | prqRidxWrite (pf : Bool) (v : BitVec 64)
  | mwaitWake (k : Nat) (i : Nat)
  | mwaitTimeout (k : Nat) (i : Nat)
  | hostWatchExpiry (k : Nat) (i : Nat)
  | tileOpStart (c : Nat)
  | tileOpComplete (c : Nat)
  | tileFillComplete (id : Nat)
  | selftestInject (c : Nat) (sub : Nat) (ok : Bool)
  | selftestForced (c : Nat) (sub : Nat) (ok : Bool)
  | requestEngineTake (k : Nat)
  | cmdNop (id : Nat)
  | cmdCpy (id : Nat)
  | cmdCpy2d (id : Nat)
  | cmdCpyt (id : Nat)
  | cmdCpyp (id : Nat)
  | cmdCpyr (id : Nat)
  | cmdFill (id : Nat)
  | cmdComplete (id : Nat)
  | mhDefine (x : BitVec 12) (region : BitVec 4)
  | mhBegin (x : BitVec 12) (region : BitVec 4)
  | mhEnd (x : BitVec 12) (region : BitVec 4)
  | mhUndefine (x : BitVec 12) (region : BitVec 4)
  | teaselTake (x : BitVec 12) (region : BitVec 4)
  | teaselRetry (x : BitVec 12) (region : BitVec 4)
  | hostWrite (pa : Nat) (bytes : List (BitVec 8))
  | hostRead (pa : Nat) (len : Nat)
  | hostAtomicop (pa : Nat) (op : PcieOp) (wide : Bool) (v : BitVec 64) (cmp : BitVec 64)
  | vfAccess (vf : Nat) (off : Nat) (write : Bool) (len : Nat) (bytes : List (BitVec 8))
  | hostConfigRequest (off : Nat)
  | hostCompletion (line : Nat) (bytes : List (BitVec 8))
  | vfBindWrite (pf : Bool) (vf : Nat) (v : BitVec 64)
  | doeDiscovery (index : Nat)
  | spdmRequest (secured : Bool) (msg : List (BitVec 8))
  | ideKmMessage (stream : Nat) (vf : Nat)
  | tdispLockInterface (vf : Nat)
  | tdispStartInterface (vf : Nat)
  | tdispStopInterface (vf : Nat)
  | ideIntegrityFailure (vf : Nat)
  | portSignalDetect (p : Nat)
  | portTrainingResult (p : Nat) (lanes : BitVec 8) (node : BitVec 12)
  | portLinkLoss (p : Nat)
  | bamlosResponse (line : Nat) (tagOk : Bool) (bytes : List (BitVec 8))
  | nodeTrigger (line : Nat)
  | bamlosMgmt (x : BitVec 12) (node : BitVec 12) (msg : List (BitVec 8))
  | nodeAttest (x : BitVec 12) (node : BitVec 12)
  | attestResult (x : BitVec 12) (node : BitVec 12) (result : BitVec 3) (digest : List (BitVec 8))
  | nodeRevoke (x : BitVec 12) (node : BitVec 12)
  | nodeFence (x : BitVec 12) (node : BitVec 12)
  | nodeUnfence (x : BitVec 12) (node : BitVec 12)
  | nodeRetrain (x : BitVec 12) (node : BitVec 12)
  | reduceRoundComplete (id : Nat)
  | ywLoad (die : Nat) (slot : BitVec 4)
  | ywUnload (die : Nat) (slot : BitVec 4)
  | ywDump (die : Nat) (slot : BitVec 4) (bank : BitVec 4)
  | ywClear (die : Nat) (slot : BitVec 4) (bank : BitVec 4)
  | ywBudget (die : Nat) (x : BitVec 12)
  | ywSample (die : Nat) (pos : BitVec 5) (x : BitVec 12)
  | yarrowRun (die : Nat)
  | yarrowWindow (die : Nat)
  | yarrowTimerEvent (die : Nat)
  | samplerTick (c : Nat)
  | scanRotationStart
  | coreScan (c : Nat) (ok : Bool)
  | scanDrainTimeout (c : Nat)
  | partReset (fail : BitVec 8) (badCores : List Nat)
  | partFatal
  | illegalOpcode (w : BitVec 32) (cause : WordCause)
  | leaseExpiry (kind : LeaseKind) (holder : Nat) (line : Nat)
  | caplimWindow
  | flowControlStopGo (p : Nat) (vc : Nat) (go : Bool)
  deriving DecidableEq, Repr

end Sys2Proof
end

