-- ==== Sys2Proof/Machine/State.lean ====
section
/-! DEFINITION. The state of the part: plain data holding every piece of state the spec gives the machine, the reasons a
step stops, and the state right after part reset. The rule that names each piece stands beside it. -/

namespace Sys2Proof.Machine

/-- Values at positions: rising positions, no zero value; a position that is not listed reads zero. -/
abbrev Sparse (w : Nat) := List (Nat × BitVec w)
/-- Records by key: rising keys; a key that is not listed holds the record's initial value. -/
abbrev Table (α : Type) := List (Nat × α)

/-! ## Threads -/

/-- The tag of a register position that is not the team-start tag (R131, R132): the issue that set it. -/
inductive Tag where
  | untagged
  | uniform (issue : Nat)
  | affine (issue : Nat)
  deriving DecidableEq, Repr

/-- Where a value goes when it is committed (R237). -/
inductive Dest where
  | none
  | reg (pos count : Nat)
  | ref (r : BitVec 4)
  deriving DecidableEq, Repr

/-- What a WAITING thread awaits (R184). The thread issues the same instruction again when the wait ends, but for
barrier, counters, completion, phase, engine, fence and flags, whose instruction is complete but for the wait. -/
inductive Wait where
  /-- register positions, predicates and references whose writer has not committed (R237, R239) -/
  | operand (regs preds refs : List Nat)
  /-- in-flight writes to positions above this one (R128) -/
  | window (above : Nat)
  /-- a slab pinned by in-flight writes (R129) -/
  | slab
  /-- free entries of the partition, n for the instruction, and room in the class counters that it raises by these (R228) -/
  | entry (n ld st : Nat)
  /-- room in the package list of page requests (R271) -/
  | announce
  /-- cnt.cp below 30, for a write that kicks the request engine (R228, R337) -/
  | kick
  /-- a free walk slot of its cluster's walker (R240) -/
  | walker (cluster : Nat)
  /-- the end of a walk of its own (R240, R263) -/
  | walk (id : Nat)
  /-- the check of its request, which waits for a walk (R240) -/
  | check (req : Nat)
  /-- a tile of the core to leave FILLING, DRAINING or a pending fill (R308) -/
  | tile (n : Nat)
  /-- the transfer of the core's tiles to its context (R94) -/
  | transfer
  /-- a free place of the sequencer (R310) -/
  | sequencer
  /-- a generation of a team barrier (R283), and where its number goes -/
  | barrier (n : BitVec 4) (gen : Word)
  /-- a phase of the TBAR at this address (R288), and the position its result goes to -/
  | phase (ta : DWord) (ph : Word) (pos : Nat)
  /-- the class counters (R292) -/
  | counters (ld st cp tl : BitVec 5)
  /-- a completion counter below a threshold (R294) -/
  | completion (n : BitVec 3) (limit : Nat)
  /-- the end of a grid (R122) -/
  | grid (id : Word)
  /-- the matrix engine (R320), and the position its code goes to -/
  | engine (pos : Nat)
  /-- a FENCE (R223): requests, stores to acknowledge, kicks by their first index, tile operations; its clock, scope, kinds -/
  | fence (reqs stores cmds ops : List Nat) (since : Nat) (scope : Scope) (kinds : BitVec 4)
  /-- an SWR that clears team flags (R89): the tile operations accepted before it -/
  | flags (ops : List Nat) (clear : BitVec 3)
  /-- the thread's older accesses (R258, R300, R349) -/
  | older (ids : List Nat)
  deriving DecidableEq, Repr

/-- The state of a thread (R184). ISSUED lasts no longer than one step and is not stored. -/
inductive Status where
  | ready
  | waiting (w : Wait)
  /-- on a non-empty missing set (R270) -/
  | parked
  /-- in MWAIT (R300): where its code goes, the earliest clock of the timeout, the clock at parking -/
  | watching (pos : Nat) (deadline : Option Nat) (since : Nat)
  /-- asleep until the clock reaches the bound (R91) -/
  | sleeping (til : Nat)
  | exited
  deriving DecidableEq, Repr

/-- A thread's watch (R295): its physical line, and whether a table entry or node registration still serves it (R298,
R301, R388). -/
inductive Watch where
  | idle
  | armed (line : Nat) (reliable : Bool)
  | triggered
  deriving DecidableEq, Repr

/-- Why a page is in a missing set (R270): its bytes when it joined, whether the fetch waits on it, and the address that a PGREQ
checked there. -/
structure Miss where
  span : Nat := 65536
  fetch : Bool := false
  load : Option Nat := none
  deriving DecidableEq, Repr

/-- One thread (R123, R83). -/
structure Thread where
  pc : DWord
  /-- the address of the instruction last issued, or of the first LIT of its group, or of a parked fetch (R419) -/
  lastPc : DWord := 0
  /-- window base (R124) -/
  wb : Nat := 0
  /-- logical register stack (R124, R125) -/
  stack : Sparse 32 := []
  preds : BitVec 8 := 0
  refs : Vector DWord 16 := Vector.replicate 16 0
  /-- sr.fpflags [4:0]: NX UF OF DZ NV (R84) -/
  fpflags : BitVec 5 := 0
  resm : BitVec 4 := 0
  trapcause : Word := 0
  trappc : DWord := 0
  trapaddr : DWord := 0
  trapvec : DWord
  /-- sr.tstat.HANDLER -/
  handler : Bool := false
  /-- class counters (R228) -/
  cntLd : Nat := 0
  cntSt : Nat := 0
  cntCp : Nat := 0
  cntTl : Nat := 0
  status : Status := .ready
  /-- the READY thread's bundle (R170); bundles are numbered in the order they became READY (R178); none in a bin -/
  bundle : Option Nat := none
  /-- wake token (R193) -/
  wake : Bool := false
  /-- missing set: the bases of its pages, and the clock it parked at (R270) -/
  missing : List Nat := []
  parkedAt : Nat := 0
  /-- what waits on each page of the missing set besides requests -/
  misses : Table Miss := []
  watch : Watch := .idle
  /-- the store that triggered the watch: its line and its clock (R173, R300) -/
  trigBy : Nat × Nat := (0, 0)
  /-- held slabs, each with whether it was written since its fill (R126) -/
  slabs : Table Bool := []
  /-- slabs that occupy a block of the backing store (R126, R127) -/
  spilled : List Nat := []
  /-- spilled slabs whose block holds an uncorrectable error (R423), set from outside (log 13) -/
  badSpills : List Nat := []
  /-- tags that differ from the team-start tags (R131), and whether a move has taken those too (R132) -/
  tags : Table Tag := []
  moved : Bool := false
  /-- register positions, predicates and references whose writer has not committed, with the writer (R237, R239) -/
  pendRegs : Table Nat := []
  pendPreds : Table Nat := []
  pendRefs : Table Nat := []
  /-- register positions whose word has a parity error (R423), and whether the mirror is good -/
  parity : Table Bool := []
  /-- a YIELD in force: the clock at its issue and the bundles it lets go first (R92) -/
  yielded : Option (Nat × List Nat) := none
  /-- the addresses whose walks have ended for the instruction that issues again (R240) -/
  walked : List DWord := []
  /-- it waits for a walk of its fetch: no valid instruction is held (R419) -/
  fetching : Bool := false
  deriving DecidableEq, Repr

/-! ## Requests (R225 to R239) -/

/-- What an access does when it performs. -/
inductive AccOp where
  /-- a load of this many bytes, sign-extended or not; fresh as R208 states; with the fences of an SC access at a scope -/
  | load (bytes : Nat) (signed fresh : Bool) (sc : Scope)
  /-- a store of these bytes, lowest address first; a release at a scope, with the fences of an SC access or not -/
  | store (data : List Byte) (release : Scope) (sc : Bool)
  /-- a read-modify-write (R250) with its operand and, for CAS, the new value -/
  | atomic (op : AOp) (sc : Scope) (v new : DWord) (returns : Bool)
  /-- STFL (R253): the flag's address; whether the data part has performed -/
  | flagStore (data : List Byte) (flag : DWord) (sc : Scope) (dataDone : Bool)
  /-- MWATCH (R299) -/
  | watch
  /-- the units of one staging line of REDN (R397): the unit addresses and data, the control line, its fn, and whether the
  units have been written -/
  | reduce (units : List (DWord × List Byte)) (cl : DWord) (op : RedOp) (written : Bool)
  /-- a lane whose units of REDN another lane's request carries: it takes no entry, and ends with that request -/
  | share (of : Nat)
  /-- PUB (R349): the buffer, its shadow, the length -/
  | publish (b sh : DWord) (n : Nat)
  deriving DecidableEq, Repr

/-- An access of one lane as its instruction states it. -/
structure Acc where
  va : DWord
  op : AccOp
  dest : Dest := .none
  /-- 1 cnt.ld, 2 cnt.st (R228) -/
  counter : Nat
  ringOk : Bool := false
  region : BitVec 4 := 0
  obj : DWord := 0
  /-- the hint (R248) -/
  hint : BitVec 3 := 0
  /-- the instruction it belongs to: its lanes perform in ascending lane order (R244) -/
  group : Nat := 0
  /-- the number of the request that it has been, where its check has waited for a walk (R240), else 0 -/
  id : Nat := 0
  /-- the reference register that it goes through, to heal where it resolves again (R358) -/
  refn : Option (BitVec 4) := none
  deriving DecidableEq, Repr

/-- Where a request of the table stands (R227). -/
inductive Stage where
  /-- parked with no wake event: until this clock (R234) -/
  | backoff (til : Nat)
  /-- parked on a page of the thread's missing set (R243) -/
  | onPage (page : Nat)
  /-- parked until a publish (R231) -/
  | onPublish
  /-- parked until a walk ends (R234) -/
  | onWalk (id : Nat)
  /-- parked behind an older request of its thread (R236) -/
  | behind
  /-- in flight, translated, and in no queue -/
  | translated (pa : Nat)
  /-- in flight to a place of the core itself: the ring area at an offset (R334), or a publish step (R349) -/
  | atCore (o : Nat)
  /-- in a cluster request queue since a clock, waiting for a walk, with the T_hold in force then (R232, R240) -/
  | walking (id since hold : Nat)
  /-- in a shared queue since a clock, with the T_hold in force then (R229, R230, R232) -/
  | queued (q pa : Nat) (since hold : Nat)
  /-- outside a full shared queue, whose next free slot is for it (R230); with no address where its walk is still to start -/
  | atDoor (q : Nat) (pa : Option Nat) (since : Nat)
  /-- sent to the host or to a memory node: waits for its completion -/
  | outside (pa : Nat)
  /-- a load whose value has arrived, not yet committed (R237, R238); resident or not -/
  | arrived (pa : Nat) (resident : Bool) (value : List Byte)
  /-- its last part waits until these stores are acknowledged at .sys (R207, R397) -/
  | settling (stores : List Nat)
  deriving DecidableEq, Repr

/-- One entry of the outstanding-transaction table (R225 to R228). -/
structure Req where
  id : Nat
  tid : Nat
  va : DWord
  op : AccOp
  dest : Dest := .none
  /-- 0 no counter, 1 cnt.ld, 2 cnt.st (R228) -/
  counter : Nat
  /-- region of an access through a reference (R370), 0 for a raw access -/
  region : BitVec 4 := 0
  /-- the object of an access through a reference -/
  obj : DWord := 0
  /-- the reference register that named it (R358) -/
  refn : Option (BitVec 4) := none
  /-- the store of the data of an STFL, once it is made (R253) -/
  stored : Option Nat := none
  /-- the address of its instruction -/
  pc : DWord := 0
  stage : Stage
  /-- backoff reissues made (R234) -/
  k : Nat := 0
  /-- clock at which it parked -/
  parkedAt : Nat := 0
  hint : BitVec 3 := 0
  /-- the instruction it belongs to (R244) -/
  group : Nat := 0
  /-- its check is still to be decided (R240): the access, and the addresses that still need a walk -/
  unchecked : Option (Acc × List DWord) := none
  deriving DecidableEq, Repr

/-! ## Teams -/

/-- The state of a team (R180). -/
inductive Phase where
  | pending | resident | running | preempted | exiting | done
  deriving DecidableEq, Repr

/-- A team barrier (R282): its generation and the threads that have arrived in the open one. -/
structure Barrier where
  gen : Word := 0
  arrived : List Nat := []
  since : Nat := 0
  deriving DecidableEq, Repr

/-- A stash mapping (R254): virtual base, stash offset, length; the scratch mapping is marked. -/
structure StashMap where
  base : DWord
  offset : Nat
  len : Nat
  scratch : Bool := false
  deriving DecidableEq, Repr

/-- A stash line held under a mapping (R254): its virtual line, whether it is owned. -/
structure StashLine where
  line : Nat
  owned : Bool
  since : Nat
  /-- its physical line -/
  phys : Nat := 0
  /-- the lease length at its grant, in cycles (R18) -/
  lease : Nat := 0
  deriving DecidableEq, Repr

/-- A pin (R367): region, object address, size, and the addresses of the hold counts that it raised. -/
structure Pin where
  region : BitVec 4
  obj : DWord
  size : Nat
  holds : List Nat := []
  deriving DecidableEq, Repr

/-- An open tile stamp record (R417): the durations so far and the clocks they run from. -/
structure Stamp where
  seq : Word
  tile : BitVec 16
  opened : Nat
  restored : Bool := false
  fill : Nat := 0
  firstUse : Option Nat := none
  readyAt : Option Nat := none
  firstStart : Option Nat := none
  lastDone : Option Nat := none
  drainAt : Option Nat := none
  fillAt : Option Nat := none
  deriving DecidableEq, Repr

/-- One team (R180, R116). -/
structure Team where
  ctx : Nat
  gid : Word
  /-- sr.team -/
  index : Nat
  /-- 1,024 at most; tx × ty × tz -/
  size : Nat
  phase : Phase := .pending
  core : Nat := 0
  /-- R331 -/
  slot : Nat := 0
  placedAt : Nat := 0
  /-- killed rather than exited (R181); of a PREEMPTED team: to be killed at RESUME, for a held trap (R80) -/
  killed : Bool := false
  /-- mirror slabs held (R24) -/
  mirrored : Bool := false
  /-- physical base and count of the team's tiles (R116, R304) -/
  accBase : Nat := 0
  accs : Nat := 0
  abufBase : Nat := 0
  abufs : Nat := 0
  bslotBase : Nat := 0
  bslots : Nat := 0
  /-- slabs a thread holds: regs / 16 (R126) -/
  slabs : Nat := 1
  /-- spills and fills made so far (R126) -/
  slabOps : Nat := 0
  /-- stash bytes, the ring's offset and entries (R107) -/
  stash : Nat := 0
  ringOff : Nat := 0
  ringLen : Nat := 0
  /-- the ring area (R108, R334): entries, then the notify line -/
  ring : List Host.Cell := []
  /-- kicks whose commands have not all completed (R337): the first index that the kick made takable, the index after the
  last, the thread that wrote -/
  kicks : List (Nat × Nat × Nat) := []
  maps : List StashMap := []
  lines : List StashLine := []
  scratchBase : DWord := 0
  scratchLen : Nat := 0
  /-- team tile flags (R32, R84) -/
  tnv : Bool := false
  tof : Bool := false
  tuf : Bool := false
  bars : Vector Barrier 16 := Vector.replicate 16 {}
  cc : Vector Word 8 := Vector.replicate 8 0
  pins : List Pin := []
  /-- time counters (R415) -/
  timers : Vector DWord 16 := Vector.replicate 16 0
  stampBase : DWord := 0
  stampSeq : Word := 0
  stamps : Table Stamp := []
  /-- the partition (R226): requests in program order of each thread -/
  reqs : List Req := []
  /-- stopped for the debugger (R90), with the thread that stopped -/
  stopped : Option Nat := none
  threads : List Thread := []
  deriving DecidableEq, Repr

/-! ## Grids, queues and contexts -/

/-- A kernel descriptor (R107). -/
structure Kernel where
  code : DWord
  regs : Nat
  /-- the team's size in each dimension -/
  (tx ty tz : Nat)
  stash : Nat
  (nacc nabuf nbslot : Nat)
  (ringoff ringlen : Nat)
  /-- the flags THOLD, TILES and MIRROR -/
  (fThold fTiles fMirror : Bool)
  thold : Word
  argsize : Nat
  stamps : DWord
  scratch : Nat
  corepin : Nat
  exts : List Word
  deriving DecidableEq, Repr

/-- The state of a grid (R112). -/
inductive GridState where
  | queued | translating | placing | running | awaiting | retired | faulted | killed
  deriving DecidableEq, Repr

/-- One entry of a grid's extent table (R113, R115). -/
structure Extent where
  va : Nat
  len : Nat
  pa : Nat
  r : Bool
  w : Bool
  stores : Bool
  /-- the table blocks that the walks of its pages passed through (R275) -/
  path : List Nat := []
  deriving DecidableEq, Repr

/-- One grid (R107 to R114). -/
structure Grid where
  ctx : Nat
  gid : Word
  depth : Nat
  /-- the parent grid (R111) -/
  parent : Option Word
  /-- the queue slot it was launched from -/
  queue : Option Nat
  state : GridState
  /-- faulted from QUEUED (R112), for GWAIT's status 3 -/
  early : Bool := false
  x : Nat
  y : Nat
  z : Nat
  kaddr : DWord
  kernel : Option Kernel := none
  args : DWord
  complWord : DWord := 0
  complValue : DWord := 0
  intr : Bool := false
  extents : List Extent := []
  nextTeam : Nat := 0
  queuedAt : Nat := 0
  /-- finish time (R430) -/
  finish : Nat := 0
  /-- of a grid launched by LAUNCH: the requests of the launching thread that come before it (R121), and the die of that
  thread -/
  after : List Nat := []
  die : Nat := 0
  /-- the stores outside the package that its completion follows: those that the dies of its teams held when these ended (R102,
  R216) -/
  acks : List Nat := []
  deriving DecidableEq, Repr

/-- The state of a queue slot (R103). -/
inductive QState where
  | unbound | bound | watching | active | blocked | faulted | draining | destroyed
  deriving DecidableEq, Repr

/-- One queue slot (R98 to R105). -/
structure Queue where
  state : QState := .unbound
  fcode : BitVec 8 := 0
  ctx : Nat := 0
  prio : Nat := 0
  maxinfl : Nat := 0
  size : Nat := 0
  base : DWord := 0
  widxA : DWord := 0
  ridxA : DWord := 0
  vector : BitVec 16 := 0
  ridx : Nat := 0
  widx : Nat := 0
  /-- a record read and not started (R103): its 64 bytes -/
  kept : Option (List Byte) := none
  /-- the kernel descriptor of a kept launch record, read once (R107) -/
  keptKernel : Option Kernel := none
  /-- clock since which it waits for its turn (R105) -/
  waiting : Nat := 0
  aged : Bool := false
  /-- the physical line that the front end watches for the slot, of the write index while WATCHING and of the wait word while BLOCKED on
  one, and whether a store to it has come since (R103) -/
  watchLine : Option Nat := none
  fired : Bool := false
  deriving DecidableEq, Repr

/-- The state of a context (R78). -/
inductive CState where
  | created | bound | runnable | running | preempted | faulted | fenced | destroyed
  deriving DecidableEq, Repr

/-- A loaded context descriptor (R75). -/
structure CtxDesc where
  priv : Bool := false
  redpol : BitVec 2 := 0
  tiles : Bool := false
  dbg : Bool := false
  slice : Nat := 0
  ptroot : DWord := 0
  trapvec : DWord := 0
  tilesave : DWord := 0
  bsbase : DWord := 0
  bslimit : DWord := 0
  scrbase : DWord := 0
  scrsize : Word := 0
  trust : DWord := 0
  faultrec : DWord := 0
  fvector : BitVec 16 := 0xFFFF
  deriving DecidableEq, Repr

/-- The state of a managed region (R357). -/
inductive RState where
  | undefined | idle | relocating
  deriving DecidableEq, Repr

/-- A relocation entry in progress (R363, R364): the next pair, the counts so far, the attempt of the pair and the clock
from which it may be made; the pair once its first tests have passed; of an attempt in progress the state word that it read and the slot that
it claimed. -/
structure Job where
  list : DWord
  count : Nat
  done : DWord
  next : Nat := 0
  moved : Nat := 0
  kept : Nat := 0
  attempt : Nat := 1
  after : Nat := 0
  pair : Option (Nat × Nat) := none
  claimed : Option (Nat × Nat) := none
  deriving DecidableEq, Repr

/-- A managed region (R356), and its Teasel work (R363 to R365). -/
structure Region where
  state : RState := .undefined
  desc : DWord := 0
  base : Nat := 0
  size : Nat := 0
  ftab : DWord := 0
  ftlog2 : Nat := 0
  hold : DWord := 0
  ring : DWord := 0
  colour : BitVec 4 := 0
  moved : Word := 0
  kept : Word := 0
  /-- forwarding slots written in this cycle, zeroed at END (R365) -/
  slots : List Nat := []
  /-- END waits for Teasel (R365) -/
  ending : Bool := false
  job : Option Job := none
  /-- a store to the ring's control line, at this physical line, has kicked Teasel (R363) -/
  ringLine : Option Nat := none
  kicked : Bool := false
  /-- a change of its state is still to be written to its descriptor, whose page took no write (R356) -/
  owes : Bool := false
  deriving DecidableEq, Repr

/-- A pair of the swap table (R348). -/
structure Swap where
  b : Nat
  s : Nat
  len : Nat
  deriving DecidableEq, Repr

/-- The state of a (context, node) pair (R393), with the report of R390. -/
structure Pair where
  node : BitVec 12
  /-- 0 UP-UNTRUSTED, 1 ATTESTING, 2 UP-TRUSTED -/
  state : Nat := 0
  epoch : Word := 0
  clock : Nat := 0
  digest : List Byte := []
  /-- the reference digest of the attestation in progress (R391, R392) -/
  ref : List Byte := []
  entry : Nat := 0
  /-- it loses its trust when what its node has been sent has completed (R394) -/
  leaving : Bool := false
  deriving DecidableEq, Repr

/-- An unhandled trap as the fault record reports it (R445). -/
structure FaultRec where
  cause : BitVec 8
  core : Nat
  gid : Word
  team : Nat
  thread : Nat
  trappc : DWord
  trapaddr : DWord
  trapcause : Word
  clock : Nat
  more : Word := 0
  deriving DecidableEq, Repr

/-- One context (R72 to R80). -/
structure Context where
  state : CState := .created
  desc : CtxDesc := {}
  /-- sr.thold, and the last value that each core still has to see (R89) -/
  thold : Word := 0
  tholdAt : Table Word := []
  nextGrid : Nat := 1
  /-- the record of the stop in progress, and a trap held while PREEMPTED (R80, R445) -/
  fault : Option FaultRec := none
  held : Option FaultRec := none
  /-- blocks of the backing store in use (R127) -/
  blocks : Nat := 0
  regions : Table Region := []
  swaps : List Swap := []
  pairs : List Pair := []
  /-- the job session key that is installed, as its bytes were delivered: contexts of one job hold the same (R386, R392) -/
  jobKey : Option (List Byte) := none
  deriving DecidableEq, Repr

/-! ## Cores, clusters, dies -/

/-- A cached translation (R263): the leaf's base and size, its entry, and the table blocks it came through. -/
structure TlbEntry where
  ctx : Nat
  va : Nat
  size : Nat
  pa : Nat
  pte : DWord
  path : List Nat := []
  deriving DecidableEq, Repr

/-- A non-leaf entry that the walker of a cluster holds (R263): the shift of its level, the virtual address above that shift, the
table it names, and the table blocks it came through. -/
structure NonLeaf where
  cluster : Nat
  ctx : Nat
  shift : Nat
  index : Nat
  next : Nat
  path : List Nat
  deriving DecidableEq, Repr

/-- A bin (R175): its team, PC, threads with the clock each was filed at, and whether it closed. -/
structure Bin where
  team : Nat
  pc : DWord
  tids : List (Nat × Nat)
  closed : Bool := false
  deriving DecidableEq, Repr

/-- The state of a tile (R307). -/
inductive TState where
  | empty | filling | ready | draining | poisoned
  deriving DecidableEq, Repr

/-- One tile of a core (R305, R307, R309): contents as bytes, unlisted bytes zero. -/
structure Tile where
  state : TState := .empty
  dirty : Bool := false
  cb : Option (BitVec 3) := none
  /-- the fill that is pending or runs: a command or a TLDA (R308) -/
  fill : Option Nat := none
  /-- why it drains: 0 TREL, 1 TMMA fl2, 5 TLDA (R417) -/
  reason : Nat := 0
  /-- the team and thread whose TREL made it drain (R418) -/
  freedBy : Option (Nat × Nat) := none
  data : List Host.Cell := []
  /-- an uncorrectable error in its stored data (R316) -/
  bad : Bool := false
  /-- a single-bit error in its stored data, and an uncorrectable one in its entry of the tile table (R316) -/
  soft : Bool := false
  badEntry : Bool := false
  deriving DecidableEq, Repr

/-- What an accepted tile operation does (R310). -/
inductive TileOp where
  | mma (f : TFmt) (zero : Bool)
  | mmai (f : TIFmt) (zero : Bool)
  | zero
  | trd (cols : List (Nat × Nat))
  | twr (vals : List (Nat × Nat × List Word))
  | rowsum | rowssq | rowmax
  | rowmul (vals : List (Nat × Word))
  | rowadd (vals : List (Nat × Word))
  | cvt (f : TFmt) (q : Nat)
  | scale (sb : List Word) (sa : List (Nat × Word))
  | cbld (n : BitVec 3) (data : List Byte)
  deriving DecidableEq, Repr

/-- An accepted instruction of the sequencer (R310). Tiles are numbered on the core: acc n is n, abuf n is 64 + n,
bslot n is 72 + n. -/
structure SeqOp where
  id : Nat
  team : Nat
  /-- the lanes in active, as thread indices -/
  tids : List Nat
  rows : List Nat
  op : TileOp
  acc : Option Nat := none
  src : Option Nat := none
  abuf : Option Nat := none
  bslot : Option Nat := none
  /-- for CB4: the codebook slots bound to A and B at acceptance -/
  slots : Option (Nat × Nat) := none
  /-- register positions written at completion, by thread -/
  dest : List (Nat × Nat) := []
  free : Bool := false
  startedAt : Option Nat := none
  /-- operands as they stood at the start: A, B and the two codebooks -/
  opA : List Host.Cell := []
  opB : List Host.Cell := []
  cbA : List Byte := []
  cbB : List Byte := []
  /-- operands that held an uncorrectable error at the start (R316): 2 abuf, 3 bslot, 4 codebook -/
  errs : List Nat := []
  deriving DecidableEq, Repr

/-- A TLDA fill (R327) or the fill of a parked CPYT (R94): source, tile, and the team and thread that wait. -/
structure Fill where
  id : Nat
  team : Nat
  tid : Nat
  core : Nat
  tile : Nat
  src : DWord
  cb : Option (BitVec 3)
  /-- blocks that the check found resident (R327) -/
  blocks : List Bool
  /-- its reads of lines outside the package have been sent (R387, R443), and those of page tables that have come -/
  asked : Bool := false
  fetched : List Nat := []
  deriving DecidableEq, Repr

/-- A sampler (R419). -/
structure Sampler where
  count : Nat := 0
  log2 : Nat := 0
  ctx : Nat := 0
  last : Nat := 0
  next : Nat := 0
  deriving DecidableEq, Repr

/-- One core. -/
structure Core where
  /-- the context whose slice runs (R81), when it began, and the context of the last slice -/
  slice : Option Nat := none
  sliceAt : Nat := 0
  lastCtx : Nat := 0
  /-- the number that the next bundle was to take when that slice ended: what asks for the core since has a later one (R81, R281) -/
  freeSince : Nat := 0
  tlb : List TlbEntry := []
  bins : List Bin := []
  /-- sr.accown (R94) and whether a codebook was written since then -/
  accown : Nat := 0
  cbWritten : Bool := false
  tiles : Table Tile := []
  codebooks : Table (List Byte) := []
  cbBad : List Nat := []
  /-- engine owner and owner queue, as team keys, each queued with the clock of its entry (R312, R313) -/
  owner : Option Nat := none
  ownerQueue : List (Nat × Nat) := []
  seq : List SeqOp := []
  fills : List Fill := []
  /-- a tile instruction of this context awaits the transfer (R94) -/
  wants : Option Nat := none
  /-- sub-arrays fenced (R317), and each one's last passing test -/
  fencedSub : List Nat := []
  passes : Table Nat := []
  /-- (context, grid) pairs whose tile operations started on the core, with the clock of the last start (R428) -/
  tileGrids : List (Nat × Word × Nat) := []
  sampler : Sampler := {}
  /-- CORE_FENCE (R424) -/
  fenced : Bool := false
  /-- s_c (R426), the drain in progress, and the pairs that ran since the last pass (R428) -/
  scanPass : Nat := 0
  drainAt : Option Nat := none
  ran : List (Nat × Word) := []
  /-- the clock at which the scan patterns began, and the context whose tiles stand in its save area for the scan (R183, R426) -/
  scanAt : Option Nat := none
  setAside : Nat := 0
  ranOver : Bool := false
  /-- team for which the core is reserved (R118) -/
  reserved : Option Nat := none
  /-- the issue slots that each context has asked for, counted to withhold some under a power cap (R23) -/
  demand : Table Nat := []
  /-- cycles of issue withheld in this window of 1 µs (R405) -/
  held : Nat := 0
  deriving DecidableEq, Repr

/-- A walk in progress (R263): for a request at its issue or reissue, or for a fetch. -/
structure Walk where
  id : Nat
  cluster : Nat
  core : Nat
  ctx : Nat
  va : DWord
  /-- an INVAL began after its first read (R269) -/
  stale : Bool := false
  startedAt : Nat := 0
  /-- the team and thread that wait for it, where no request does -/
  who : Option (Nat × Nat) := none
  /-- it is for a fetch, whose line outside the package is read with it (R385, R443) -/
  code : Bool := false
  /-- the lines outside the package that have been read for it (R443) -/
  fetched : List Nat := []
  deriving DecidableEq, Repr

/-- A copy-engine or request-engine command taken from a ring (R338 to R346). -/
structure Cmd where
  id : Nat
  team : Nat
  core : Nat
  /-- ring index (R347) -/
  index : Nat
  kind : Nat
  flags : Byte
  /-- stash offset of its TBAR -/
  tbar : Nat
  chunk0 : Nat
  count : Nat
  src : DWord
  dst : DWord
  aux : DWord
  takenAt : Nat := 0
  /-- the thread whose write kicked it (R337) -/
  kicker : Nat := 0
  /-- its entry, while its checks still wait for a walk (R263, R341) -/
  unchecked : Option (List Byte) := none
  /-- earlier commands of the ring that must complete first (AFTER) -/
  after : List Nat := []
  /-- for CPYT: the tile; parked for a transfer (R344) -/
  tile : Option Nat := none
  parked : Bool := false
  /-- the copy engine of the die that runs it (R342) -/
  engine : Option Nat := none
  /-- the clock at which it came into the copy-engine queue of the die, where it stands there; the clock until which it is parked; how often it
  has come back (R17, R234, R342) -/
  since : Option Nat := none
  til : Nat := 0
  k : Nat := 0
  /-- its reads of lines outside the package have been sent (R387, R443) -/
  asked : Bool := false
  /-- the lines of page tables in host memory that have been read for its walks (R443) -/
  fetched : List Nat := []
  /-- its bytes have moved; its writes, as stores on their way -/
  moved : Bool := false
  stores : List Nat := []
  /-- failed with this code and detail (R347) -/
  err : Option (BitVec 16 × DWord) := none
  deriving DecidableEq, Repr

/-! ## Memory -/

/-- A store on its way to other dies (R199, R201): the die that made it, its bytes, the dies that hold it, and the older
stores that arrive no later than it does. -/
structure Flight where
  id : Nat
  die : Nat
  addr : Nat
  data : List Byte
  at_ : List Nat
  deps : List Nat
  /-- the clock at which it performed (R205) -/
  born : Nat := 0
  /-- still to be sent through the host port or acknowledged by its node (R207) -/
  outside : Bool := false
  /-- the write of an ATOM or RED of scope .pkg or .sys (R210) -/
  atom : Bool := false
  deriving DecidableEq, Repr

/-- Physical memory (R259): bytes that every die sees, in canonical form, and stores on their way, oldest first. -/
structure Mem where
  cells : List Host.Cell := []
  flights : List Flight := []
  deriving DecidableEq, Repr

/-- The state of a frame (R264). -/
inductive FState where
  | scrubbing | freeClean | assigned (ctx : Nat) | shared
  deriving DecidableEq, Repr

/-- A standing page request (R271). -/
structure PageReq where
  ctx : Nat
  kind : BitVec 8
  addr : DWord
  write : Bool
  denied : Bool
  clock : Nat
  /-- a record with the flags as they stand is in the ring -/
  written : Bool := false
  deriving DecidableEq, Repr

/-- A line that a proxy slice holds of host or node memory (R443, R385), and when it was read. -/
structure ProxyLine where
  line : Nat
  since : Nat
  /-- the lease length at its grant, in cycles (R18) -/
  lease : Nat := 0
  /-- the job session key that decrypted it, where it is a line of an encrypted half (R386) -/
  key : Option (List Byte) := none
  deriving DecidableEq, Repr

/-- A line that an LLC slice holds (R14, R444), with its priority: 0 lowest, 1 default, 2 highest (R248). -/
structure LlcLine where
  line : Nat
  prio : Nat := 1
  deriving DecidableEq, Repr

/-- A request to the host or a node that waits for its answer. -/
structure Outside where
  line : Nat
  req : Nat
  team : Nat
  deriving DecidableEq, Repr

/-! ## Yarrow (R400 to R414) -/

/-- An event (R405). -/
structure YEvent where
  source : Nat
  ctx : Nat
  core : Nat
  clock : Nat
  p0 : Word := 0
  p1 : Word := 0
  p2 : Word := 0
  p3 : Word := 0
  deriving DecidableEq, Repr

/-- A loaded filter program (R403, R404). -/
structure YProg where
  owner : Nat
  words : List Word
  ringlog2 : Nat
  hbins : List Nat
  nsketch : Nat
  vector : BitVec 16
  sources : BitVec 64
  ring : DWord
  /-- h0 to h3, then k0 and k1: bins or cells by position -/
  banks : Table (Sparse 32) := []
  /-- y12 to y15 from the last run (R408) -/
  keep : List Word := [0, 0, 0, 0]
  deriving DecidableEq, Repr

/-- A run in progress (R408). -/
structure YRun where
  slot : Nat
  pc : Nat
  event : YEvent
  regs : Vector Word 16
  deriving DecidableEq, Repr

/-- A record of which the writes are on their way (R412, R413): the agent request that carries them, its control line, widx after it, and
the writes. -/
structure YOut where
  id : Nat
  cl : Nat
  next : Nat
  writes : List (Nat × List Byte)
  deriving DecidableEq, Repr

/-- The Yarrow coprocessor of one die. -/
structure Yarrow where
  progs : Table YProg := []
  fifo : List (Nat × YEvent) := []
  budgets : Table Nat := []
  /-- window number, and what each owner has spent in it (R407) -/
  window : Nat := 0
  spent : Table Nat := []
  /-- drops by owner, and YW_DROPS (R406) -/
  drops : Table Nat := []
  refused : DWord := 0
  /-- the window in which each slot last raised an interrupt (R412) -/
  intrs : Table Nat := []
  /-- records written and not yet performed (R413) -/
  outs : List YOut := []
  /-- bytes written in this window (R413) -/
  written : Nat := 0
  /-- TIMER events raised so far (R405) -/
  timer : Nat := 0
  run : Option YRun := none
  /-- programs of the event at hand still to run, in slot order -/
  todo : List Nat := []
  deriving DecidableEq, Repr

/-- One compute die. -/
structure Die where
  yarrow : Yarrow := {}
  /-- an overcurrent warning is to withhold the next issue (R16, R23) -/
  warned : Bool := false
  /-- watch tables of the die's LLC slices (R298): line and context of each entry, oldest first -/
  watches : List (Nat × Nat) := []
  deriving DecidableEq, Repr

/-! ## Host interface and links -/

/-- Registers of BAR 0 (R20, R22, R73, R74, R96, R97, R266, R267, R355, R391, R401, R402, R424, R425). -/
structure HostRegs where
  cfgLease : BitVec 2 := 0
  cfgScan : BitVec 2 := 1
  cfgMirror : BitVec 2 := 1
  cfgPcap : BitVec 2 := 0
  badw : Bool := false
  lpend : Bool := false
  spend : Bool := false
  caplim : Bool := false
  lease : BitVec 2 := 0
  scan : BitVec 2 := 1
  mirror : BitVec 2 := 1
  pcap : BitVec 2 := 0
  ctxTbl : DWord := 0
  ctxResult : BitVec 3 := 0
  ctxCtx : BitVec 12 := 0
  qDesc : DWord := 0
  qResult : BitVec 3 := 0
  qState : BitVec 4 := 0
  qFcode : BitVec 8 := 0
  qSlot : BitVec 8 := 0
  frmTbl : DWord := 0
  frmSet : Bool := false
  pgArg0 : DWord := 0
  pgArg1 : DWord := 0
  pgResult : BitVec 3 := 0
  pgPoison : Bool := false
  pgCtx : BitVec 12 := 0
  prqBase : DWord := 0
  prqVector : BitVec 16 := 0
  prqLog2 : BitVec 5 := 8
  prqWidx : DWord := 0
  prqRidx : DWord := 0
  mhResult : BitVec 3 := 0
  mhArg : DWord := 0
  mhBusy : Bool := false
  nodeResult : BitVec 3 := 0
  nodeCtx : BitVec 12 := 0
  nodeArg : DWord := 0
  nodeBusy : Bool := false
  ywResult : BitVec 3 := 0
  ywWord : BitVec 8 := 0
  ywCtx : BitVec 12 := 0
  ywArg : DWord := 0
  bootReady : Bool := false
  bootFatal : Bool := false
  bootStep : BitVec 8 := 0
  bootFail : BitVec 8 := 0
  bootFenced : BitVec 8 := 0
  /-- GiB of host-reserved HBM (R424, R432) -/
  hostRsv : Word := 0
  confBase : DWord := 0
  susBase : DWord := 0
  susVector : BitVec 16 := 0
  susDrops : BitVec 8 := 0
  susLog2 : BitVec 5 := 8
  susWidx : DWord := 0
  susRidx : DWord := 0
  dumpBase : DWord := 0
  dumpVector : BitVec 16 := 0
  dumpDrops : BitVec 8 := 0
  dumpLog2 : BitVec 5 := 8
  dumpWidx : DWord := 0
  dumpRidx : DWord := 0
  deriving DecidableEq, Repr

/-- A TDISP interface state (R378, R379). -/
inductive Tdisp where
  | unlocked | locked | run | error
  deriving DecidableEq, Repr

/-- A virtual function (R377 to R379). -/
structure Vf where
  /-- VF_BIND VBASE, bits [63:16] of the window's base -/
  vbase : BitVec 48 := 0
  ctx : BitVec 12 := 0
  state : Tdisp := .unlocked
  /-- the selective IDE stream bound to it (R379) -/
  stream : Option Nat := none
  deriving DecidableEq, Repr

/-- The state of a Bamlos port (R383, R393). -/
inductive PState where
  | down | training | up
  deriving DecidableEq, Repr

/-- A Bamlos port. -/
structure Port where
  state : PState := .down
  lanes : BitVec 8 := 0
  node : BitVec 12 := 0
  /-- channels that flow control has stopped (R381) -/
  stopped : List Nat := []
  deriving DecidableEq, Repr

/-- A memory node: its route (R382), whether it is FENCED (R393), its watch entries (R388). -/
structure Node where
  en : Bool := false
  esc : BitVec 5 := 0
  mask : BitVec 24 := 0
  fenced : Bool := false
  watches : List Nat := []
  deriving DecidableEq, Repr

/-- What leaves the part: an interrupt of a function (0 the physical one), a debugger stop (R90), a completion at the
host port, or a message of a published protocol. -/
inductive Out where
  | interrupt (fn : Nat) (vector : BitVec 16)
  | debugStop (gid : Word) (team thread : Nat)
  | completion (data : List Byte)
  | unsupported
  | retryStatus
  | message (data : List Byte)
  deriving DecidableEq, Repr

/-- The scan rotation in progress (R426): the core it has reached, and the clock at which the last one began. -/
structure Scan where
  at_ : Option Nat := none
  last : Nat := 0
  /-- C, the confirmation time (R429) -/
  conf : Nat := 0
  deriving DecidableEq, Repr

/-- An access through a VF window that waits: a write for the publish of a MIGRATING page (R231, R377), or any for a node that
cannot be reached (R387). -/
structure VfWait where
  vf : Nat
  off : Nat
  write : Bool
  len : Nat
  data : List Byte
  /-- the number under which its read has asked for lines outside the package -/
  ask : Option Nat := none
  deriving DecidableEq, Repr

/-- A NODE_CMD that waits until what it must follow has completed at the node (R394): its OP, context and node. -/
structure NodePend where
  op : Nat
  ctx : BitVec 12
  node : BitVec 12
  deriving DecidableEq, Repr

/-- A PG_CMD in progress (R267, R269): its OP, context and arguments, and the requests and stores that must be over first. -/
structure PgPend where
  op : Nat
  ctx : Nat
  a : Nat
  n : Nat
  reqs : List Nat
  stores : List Nat
  since : Nat
  deriving DecidableEq, Repr

/-- A YW_CMD in progress (R402, R404, R413): its OP, die, slot and bank; of a DUMP the bytes still to be written, and where. -/
structure YwPend where
  op : Nat
  die : Nat
  slot : Nat
  bank : Nat
  addr : Nat := 0
  rest : List Byte := []
  deriving DecidableEq, Repr

/-- A BEGIN or UNDEFINE in progress (R355, R362): its OP, context and region, and the requests and stores that must be over first. -/
structure MhPend where
  op : Nat
  ctx : Nat
  region : BitVec 4
  reqs : List Nat
  stores : List Nat
  deriving DecidableEq, Repr

/-- A request of an agent that is not a thread (R229, R232): what it does when it performs, its owner, the shared queue it stands
in and since when, its T_hold; parked under backoff until a clock; or through the queues and ready to perform. -/
structure AgentReq where
  id : Nat
  owner : Nat
  event : Event
  q : Nat
  since : Nat
  hold : Nat
  parked : Option Nat := none
  k : Nat := 0
  ready : Bool := false
  /-- all the queues on its way, in their order (R229, R232) -/
  route : List Nat := []
  /-- it waits outside its queue, which was full (R230) -/
  door : Bool := false
  deriving DecidableEq, Repr

/-- How far the issue of this cycle has come (R184, R419): ISSUED lasts until the end of the cycle. -/
inductive IssueStage where
  | idle | fetching | issued
  deriving DecidableEq, Repr

/-- The bundle that issues: its team and its thread indices, lowest lane first (R170). -/
structure Issue where
  team : Nat := 0
  tids : List Nat := []
  stage : IssueStage := .idle
  deriving DecidableEq, Repr

/-- The LIT prefix in progress (R59, R61): the payloads so far and the address of the first LIT. -/
structure Lits where
  payloads : List (BitVec 25) := []
  pc0 : DWord := 0
  deriving DecidableEq, Repr

/-- A reduction round that a COUNT has filled (R398): the context and core that issued it, its control line, its fn. -/
structure Round where
  id : Nat
  ctx : Nat
  core : Nat
  cl : Nat
  op : RedOp
  /-- its staging areas have been asked of the node -/
  asked : Bool := false
  deriving DecidableEq, Repr

/-- The whole part. -/
structure State where
  /-- cycles since bring-up ended (R83, R432) -/
  clock : Nat := 0
  regs : HostRegs := {}
  contexts : Table Context := []
  queues : Table Queue := []
  grids : List Grid := []
  teams : Table Team := []
  cores : Table Core := []
  dies : Table Die := []
  walks : List Walk := []
  nonLeaf : List NonLeaf := []
  mem : Mem := {}
  frames : Table FState := []
  /-- poisoned 4 KiB blocks: of HBM (PMASK, R264, R422) and the list of host memory (R275) -/
  poison : List Nat := []
  hostPoison : List Nat := []
  /-- 8-byte words of memory whose storage holds an uncorrectable error (R275, R422), set from outside (log 13) -/
  badWords : List Nat := []
  /-- 8-byte words of HBM whose storage holds a single-bit error (R405, R422), set from outside -/
  softWords : List Nat := []
  pageReqs : List PageReq := []
  /-- requests waiting for room in the ring, oldest first (R271): positions in pageReqs by (context, address) -/
  prqList : List PageReq := []
  /-- announcements that found that list full and are made as soon as it has room (R268, R271, R275; log 91) -/
  prqOwed : List PageReq := []
  cmds : List Cmd := []
  proxies : List ProxyLine := []
  /-- the lines of each LLC slice, the one allocated longest ago first (R444) -/
  llc : Table (List LlcLine) := []
  outside : List Outside := []
  /-- requests of agents that are not threads, in the shared queues (R229) -/
  agents : List AgentReq := []
  rounds : List Round := []
  /-- the COUNTs of the open round of each control line (R399): offset and length of each, in the order of the node -/
  counts : Table (List (Nat × Nat)) := []
  vfs : Table Vf := []
  vfWaits : List VfWait := []
  nodePend : Option NodePend := none
  pgPend : Option PgPend := none
  mhPend : Option MhPend := none
  ywPend : Option YwPend := none
  /-- the context whose DESTROY is in progress (R79) -/
  ctxPend : Option Nat := none
  ports : Table Port := []
  nodes : Table Node := []
  /-- keys present by IDE stream (R379) -/
  ideStreams : List Nat := []
  /-- measurements extended (R433) -/
  measured : Bool := false
  /-- the number of the boot whose digests stand (R433), none before the firmware is verified -/
  boot : Option Nat := none
  scan : Scan := {}
  /-- the last CAPLIM window ended (R22) -/
  capWindow : Nat := 0
  out : List Out := []
  /-- the bundle issuing and the LIT group in progress -/
  issue : Issue := {}
  lits : Lits := {}
  /-- the next identifier of a bundle, request, walk, command, store or tile operation -/
  fresh : Nat := 1
  /-- round-robin positions of the launch front end (R105): for each priority the last queue of each context (key priority ×
  4,096 + context), and the last context -/
  lastQueue : Table Nat := []
  lastCtxQueue : Table Nat := []
  /-- the owner served last by each shared queue (R229) -/
  lastOwner : Table Nat := []
  /-- cycles after which a store arrives on a further die when nothing else brings it there (R204, R205): a timing
  choice of the model (log 3) -/
  arrivalDelay : Nat := 0
  /-- whether accesses pass through the shared queues (R229), or perform in the step of their issue where nothing holds them
  up: a timing choice of the model (log 3) -/
  viaQueues : Bool := false
  /-- cycles that a walk takes (R263), 0 for a walk made within the step that needs it: a timing choice of the model (log 3) -/
  walkDelay : Nat := 0
  /-- one issue slot in this many is withheld under a power cap below P8 (R23), none for 0 and 1: a timing choice of the model
  (log 69) -/
  capEvery : Nat := 0
  /-- the least die whose filter word may be at hand: each die with an open run has its turn in every cycle (R400) -/
  filterDie : Nat := 0
  /-- the size of host-reserved HBM that the signed configuration record of the image names, in GiB (R432), 0 where it names none: set
  from outside (log 13) -/
  hostRsvCfg : Nat := 0
  /-- outside inputs and timing choices that come next (assumption log 1) -/
  agenda : List Event := []
  deriving DecidableEq, Repr

/-! ## How a step can stop -/

/-- Why the machine stops. -/
inductive Fault where
  /-- Raised by step when bring-up has failed and nothing from outside is left to answer: the part halts at BOOT_STAT.STEP (R433).
  Safe: the spec says so. -/
  | bootHalted
  deriving DecidableEq, Repr

/-- Why the model gives no meaning. -/
inductive Refusal where
  /-- Raised by exec for an instruction of the opcode table that is not modelled yet. Safe: no claim follows from it. -/
  | notModelled (mnemonic : String)
  deriving DecidableEq, Repr

/-- The part right after part reset (R432): READY is 0, every register holds its reset value, nothing is bound, placed,
mapped or in flight, and every frame is still to be scrubbed. Registers the spec gives no reset value hold 0 (log 6). -/
def State.reset : State := {}

end Sys2Proof.Machine
end

