-- ==== Sys2Proof/Machine/Ops.lean ====
section
/-! DEFINITION. The named operations over tables, registers, memory and the parts of the state, the Yarrow taps, the kill
of a team, and taking an exception and returning from one, each once. -/

namespace Sys2Proof.Machine

/-! ## Tables -/

/-- The record at a key. -/
def tget? {α : Type} (k : Nat) : List (Nat × α) → Option α
  | [] => none
  | (j, v) :: r => if j = k then some v else tget? k r

/-- The record at a key, or the initial one. -/
def tget {α : Type} (d : α) (k : Nat) (l : List (Nat × α)) : α := (tget? k l).getD d

/-- Sets the record at a key; rising keys stay rising. -/
def tput {α : Type} (k : Nat) (v : α) : List (Nat × α) → List (Nat × α)
  | [] => [(k, v)]
  | (j, u) :: r => if k < j then (k, v) :: (j, u) :: r else if j = k then (k, v) :: r else (j, u) :: tput k v r

/-- Removes a key. -/
def tdel {α : Type} (k : Nat) (l : List (Nat × α)) : List (Nat × α) := l.filter fun x => x.1 != k

/-- The value at a position; zero where none is listed. -/
def sget {w : Nat} (k : Nat) (l : List (Nat × BitVec w)) : BitVec w := tget 0 k l

/-- Sets the value at a position; a zero is not listed. -/
def sput {w : Nat} (k : Nat) (v : BitVec w) (l : List (Nat × BitVec w)) : List (Nat × BitVec w) :=
  if v = 0 then tdel k l else tput k v l

/-- Keys rise strictly. -/
def rising {α : Type} : List (Nat × α) → Bool
  | [] => true
  | [_] => true
  | (j, _) :: (k, v) :: r => decide (j < k) && rising ((k, v) :: r)

/-- The canonical form of a sparse value list: rising positions, no zero. -/
def Sparse.wf {w : Nat} (l : List (Nat × BitVec w)) : Bool := rising l && l.all fun x => x.2 != 0

/-- The elements of a list that another does not hold, appended to it. -/
def addNew (l r : List Nat) : List Nat := l ++ r.filter fun x => !l.contains x

/-- The elements of a list, each once, in the order in which they first stand in it. -/
def distinct {α : Type} [DecidableEq α] (l : List α) : List α := l.foldl (fun acc x => if x ∈ acc then acc else acc ++ [x]) []

/-! ## Bytes -/

/-- The value of bytes, lowest first (R4). -/
def ofBytes : List Byte → Nat
  | [] => 0
  | b :: r => b.toNat + 256 * ofBytes r

/-- n bytes of a value, lowest first. -/
def toBytes : Nat → Nat → List Byte
  | 0, _ => []
  | n + 1, v => BitVec.ofNat 8 v :: toBytes n (v / 256)

/-- Bytes [o, o + n) of a list, as a value; bytes beyond the end read zero. -/
def field (l : List Byte) (o n : Nat) : Nat := ofBytes ((l.drop o).take n)

/-- Writes bytes at an address. -/
def putBytes (a : Nat) : List Byte → List Host.Cell → List Host.Cell
  | [], c => c
  | b :: r, c => putBytes (a + 1) r (sput a b c)

/-- Reads n bytes at an address. -/
def getBytes (c : List Host.Cell) (a n : Nat) : List Byte := (List.range n).map fun i => sget (a + i) c

/-! ## Places of the part (R11, R12, R259) -/

/-- Cycles of a microsecond (R14). -/
def oneUs : Nat := 1750
/-- The length in cycles of the leases granted now (R18, R20, R205): 8 µs or 64 µs. -/
def HostRegs.leaseLen (g : HostRegs) : Nat := if g.lease = 0 then 8 * oneUs else 64 * oneUs
/-- The bound of eventual visibility (R25, R205). -/
def HostRegs.leaseBound (g : HostRegs) : Nat := if g.lpend then 64 * oneUs else g.leaseLen
def clusterOf (core : Nat) : Nat := core / 4
def dieOf (core : Nat) : Nat := core / 32
/-- The 128-byte line of a physical address. -/
def lineOf (pa : Nat) : Nat := pa / 128
/-- Bits [63:57] are copies of bit 56 (R241, R259). -/
def canonical (va : DWord) : Bool := va.extractLsb' 56 8 == 0 || va.extractLsb' 56 8 == 0xFF
def inHbm (pa : Nat) : Bool := decide (pa < 2 ^ 40)
def inNode (pa : Nat) : Bool := decide (2 ^ 50 ≤ pa) && decide (pa < 2 ^ 51)
def inHost (pa : Nat) : Bool := decide (2 ^ 51 ≤ pa) && decide (pa < 2 ^ 52)
def nodeOf (pa : Nat) : Nat := pa / 2 ^ 38 % 4096
/-- The line lies in the encrypted half of a node's window (R384, R386). -/
def encrypted (line : Nat) : Bool := inNode (line * 128) && decide (line * 128 % 2 ^ 38 < 2 ^ 37)
/-- The die whose order an access through the home takes (R12, R385, R443). -/
def homeDie (pa : Nat) : Nat :=
  if inHbm pa then pa / 2 ^ 36 / 2
  else if inNode pa then nodeOf pa % 8
  else pa / 2 ^ 12 % 8
/-- The LLC slice of a line (R385, R443; for HBM the spec gives no hash: the model takes the same one, log 16). -/
def sliceOf (pa : Nat) : Nat :=
  homeDie pa * 32 + (if inNode pa then Nat.xor (pa / 2 ^ 7 % 32) (pa / 2 ^ 12 % 32)
    else Nat.xor (pa / 2 ^ 7 % 32) (pa / 2 ^ 15 % 32))
def allDies : List Nat := [0, 1, 2, 3, 4, 5, 6, 7]

/-! ## Memory (R199 to R207) -/

/-- The byte that a store on its way holds for an address. -/
def Flight.byte? (f : Flight) (a : Nat) : Option Byte := if f.addr ≤ a then f.data[a - f.addr]? else none

/-- A store on its way touches [a, a + n). -/
def Flight.touches (f : Flight) (a n : Nat) : Bool := decide (f.addr < a + n) && decide (a < f.addr + f.data.length)

/-- The byte at an address in the order of a die: its last store or arrival there (R199). -/
def Mem.byte (m : Mem) (die a : Nat) : Byte :=
  match m.flights.reverse.find? fun f => f.at_.contains die && (f.byte? a).isSome with
  | some f => (f.byte? a).getD 0
  | none => sget a m.cells

/-- The newest byte of an address: what an agent reads where every store to it has arrived (R201, R210). -/
def Mem.newest (m : Mem) (a : Nat) : Byte :=
  match m.flights.reverse.find? fun f => (f.byte? a).isSome with
  | some f => (f.byte? a).getD 0
  | none => sget a m.cells

/-- n bytes in the order of a die. -/
def Mem.read (m : Mem) (die a n : Nat) : List Byte := (List.range n).map fun i => m.byte die (a + i)

/-- The stores named, and those that arrive no later than they do. -/
def Mem.withDeps (m : Mem) (ids : List Nat) : List Nat :=
  m.flights.foldl (fun acc f => if ids.contains f.id then addNew acc f.deps else acc) ids

/-- The arrival on a die of the stores named and of all that precede them (R201, R212). -/
def Mem.arrive (m : Mem) (ids : List Nat) (die : Nat) : Mem :=
  let all := m.withDeps ids
  { m with flights := m.flights.map fun f =>
      if all.contains f.id && !f.at_.contains die then { f with at_ := f.at_ ++ [die] } else f }

/-- Every die holds the store, and nothing outside the package still waits for it. -/
def Flight.everywhere (f : Flight) : Bool := allDies.all fun d => f.at_.contains d

/-- Stores that every die holds, from the oldest on, become part of what every die sees. -/
def settle : List Flight → List Host.Cell → List Flight × List Host.Cell
  | [], c => ([], c)
  | f :: r, c => if f.everywhere && !f.outside then settle r (putBytes f.addr f.data c) else (f :: r, c)

def Mem.settled (m : Mem) : Mem :=
  let r := settle m.flights m.cells
  { cells := r.2, flights := r.1 }

/-- Every store that a die's order holds arrives on every die: the cumulative set of a release there (R212). -/
def Mem.flushFrom (m : Mem) (die : Nat) : Mem :=
  let ids := (m.flights.filter fun f => f.at_.contains die).map fun f => f.id
  (allDies.foldl (fun m d => m.arrive ids d) m).settled

/-- A store by an agent of a die. Older stores to its bytes arrive there first (R201). A release at .pkg or .sys arrives on
no die before the stores that precede it (R212). -/
def Mem.store (m : Mem) (id die a : Nat) (data : List Byte) (release : Bool) (now : Nat) : Mem :=
  let olds := (m.flights.filter fun f => f.touches a data.length).map fun f => f.id
  let m := m.arrive olds die
  let before := if release then (m.flights.filter fun f => f.at_.contains die).map fun f => f.id else olds
  let f : Flight :=
    { id := id, die := die, addr := a, data := data, at_ := [die], deps := m.withDeps before, born := now
      outside := inNode a }
  { m with flights := m.flights ++ [f] }

/-- The writes of ATOMs and REDs of scope .pkg and .sys that a die's order holds arrive on every die (R210). -/
def Mem.flushAtoms (m : Mem) (die : Nat) : Mem :=
  let ids := (m.flights.filter fun f => f.atom && f.at_.contains die).map fun f => f.id
  (allDies.foldl (fun m d => m.arrive ids d) m).settled

/-- A write that has performed at .sys with all that its agent's die holds: the part's own reports (log 3). -/
def Mem.publish (m : Mem) (a : Nat) (data : List Byte) : Mem :=
  let d := homeDie a
  let olds := (m.flights.filter fun f => f.touches a data.length).map fun f => f.id
  let m := (m.arrive olds d).flushFrom d
  if m.flights.isEmpty then { m with cells := putBytes a data m.cells }
  else { m with flights := m.flights ++ [{ id := 0, die := d, addr := a, data := data, at_ := allDies, deps := [] }] }

/-- The memory's canonical form: rising addresses, no zero byte listed. -/
def Mem.wf (m : Mem) : Bool := Sparse.wf m.cells

/-! ## Parts of the state -/

def State.team? (s : State) (k : Nat) : Option Team := tget? k s.teams
def State.thread? (s : State) (k i : Nat) : Option Thread := (s.team? k).bind fun T => T.threads[i]?
def State.setTeam (s : State) (k : Nat) (T : Team) : State := { s with teams := tput k T s.teams }
def State.modTeam (s : State) (k : Nat) (f : Team → Team) : State :=
  match s.team? k with
  | some T => s.setTeam k (f T)
  | none => s
def Team.modThread (T : Team) (i : Nat) (f : Thread → Thread) : Team := { T with threads := T.threads.modify i f }
def State.modThread (s : State) (k i : Nat) (f : Thread → Thread) : State := s.modTeam k fun T => T.modThread i f
def State.core (s : State) (c : Nat) : Core := tget {} c s.cores
def State.modCore (s : State) (c : Nat) (f : Core → Core) : State := { s with cores := tput c (f (s.core c)) s.cores }
def State.ctx (s : State) (x : Nat) : Context := tget {} x s.contexts
def State.modCtx (s : State) (x : Nat) (f : Context → Context) : State :=
  { s with contexts := tput x (f (s.ctx x)) s.contexts }
def State.die (s : State) (d : Nat) : Die := tget {} d s.dies
def State.modDie (s : State) (d : Nat) (f : Die → Die) : State := { s with dies := tput d (f (s.die d)) s.dies }
def State.queue (s : State) (q : Nat) : Queue := tget {} q s.queues
def State.modQueue (s : State) (q : Nat) (f : Queue → Queue) : State := { s with queues := tput q (f (s.queue q)) s.queues }
def State.node (s : State) (n : Nat) : Node := tget {} n s.nodes
def State.modNode (s : State) (n : Nat) (f : Node → Node) : State := { s with nodes := tput n (f (s.node n)) s.nodes }
def State.port (s : State) (p : Nat) : Port := tget {} p s.ports
def State.modPort (s : State) (p : Nat) (f : Port → Port) : State := { s with ports := tput p (f (s.port p)) s.ports }
def State.vf (s : State) (n : Nat) : Vf := tget {} n s.vfs
def State.modVf (s : State) (n : Nat) (f : Vf → Vf) : State := { s with vfs := tput n (f (s.vf n)) s.vfs }
def State.modRegs (s : State) (f : HostRegs → HostRegs) : State := { s with regs := f s.regs }
def State.grid? (s : State) (x : Nat) (g : Word) : Option Grid := s.grids.find? fun G => G.ctx == x && G.gid == g
def State.modGrid (s : State) (x : Nat) (g : Word) (f : Grid → Grid) : State :=
  { s with grids := s.grids.map fun G => if G.ctx == x && G.gid == g then f G else G }
def Core.tile (c : Core) (n : Nat) : Tile := tget {} n c.tiles
def Core.modTile (c : Core) (n : Nat) (f : Tile → Tile) : Core := { c with tiles := tput n (f (c.tile n)) c.tiles }
def Core.codebook (c : Core) (n : Nat) : List Byte := tget (List.replicate 32 0) n c.codebooks
def Context.region (c : Context) (r : BitVec 4) : Region := tget {} r.toNat c.regions
def Context.modRegion (c : Context) (r : BitVec 4) (f : Region → Region) : Context :=
  { c with regions := tput r.toNat (f (c.region r)) c.regions }

/-- A grid that has ended (R111). -/
def GridState.ended : GridState → Bool
  | .retired | .faulted | .killed => true
  | .queued | .translating | .placing | .running | .awaiting => false

/-- A team that holds the core's resources (R116). -/
def Phase.isResident : Phase → Bool
  | .resident | .running | .preempted | .exiting => true
  | .pending | .done => false

/-- Something leaves the part. -/
def State.emit (s : State) (o : Out) : State := { s with out := s.out ++ [o] }

/-- The MSI-X vector of the physical function is raised. -/
def State.raisePf (s : State) (v : BitVec 16) : State := s.emit (.interrupt 0 v)

/-- What the host asks of the part's registers or memory: until bring-up has ended it completes as Unsupported Request (R432). -/
def State.asHost (s : State) (f : State → State) : State := if s.regs.bootReady then f s else s.emit .unsupported

/-- The part reads memory as the home of the address sees it. -/
def State.homeRead (s : State) (a n : Nat) : List Byte := s.mem.read (homeDie a) a n

/-- n bytes where they are coherent. -/
def State.newest (s : State) (a n : Nat) : List Byte := (List.range n).map fun i => s.mem.newest (a + i)

/-! ## Yarrow taps (R405, R406) -/

/-- The owner sees the event (R400). -/
def YEvent.seenBy (e : YEvent) (owner : Nat) : Bool := owner == 0 || owner == e.ctx

/-- A program is attached to the source and may see the event. -/
def YProg.takes (p : YProg) (e : YEvent) : Bool := p.sources.getLsbD e.source && e.seenBy p.owner

/-- The entries an owner may hold (R406). -/
def Yarrow.share (y : Yarrow) (owner : Nat) : Nat := 4 + 192 * tget 0 owner y.budgets / 1024

/-- A copy is dropped and counted (R406, R407). -/
def Yarrow.dropCopy (y : Yarrow) (owner : Nat) : Yarrow :=
  { y with drops := tput owner (tget 0 owner y.drops + 1) y.drops, refused := y.refused + 1 }

/-- An event comes before another of its cycle: by source, then by core (R406). -/
def YEvent.before (d e : YEvent) : Bool :=
  d.clock == e.clock && (decide (d.source < e.source) || (d.source == e.source && decide (d.core < e.core)))

/-- A copy enters the FIFO in the order of its cycle (R406). -/
def enterFifo (owner : Nat) (e : YEvent) : List (Nat × YEvent) → List (Nat × YEvent)
  | [] => [(owner, e)]
  | x :: r => if e.before x.2 then (owner, e) :: x :: r else x :: enterFifo owner e r

/-- The last copy of an owner leaves a FIFO. -/
def dropLast (owner : Nat) (l : List (Nat × YEvent)) : List (Nat × YEvent) :=
  (l.reverse.eraseP fun x => x.1 == owner).reverse

/-- One copy of an event for an owner: it enters the FIFO in its order; the last copy beyond the owner's share is dropped and counted
(R406). -/
def Yarrow.offer (y : Yarrow) (e : YEvent) (owner : Nat) : Yarrow :=
  let l := enterFifo owner e y.fifo
  if (l.filter fun x => x.1 == owner).length ≤ y.share owner then { y with fifo := l }
  else { y with fifo := dropLast owner l }.dropCopy owner

/-- The core of an event that no core raises: it shows 0xFF (R405). -/
def noCore : Nat := 256

/-- Raises an event on a die: one copy for each owner with a program that takes it (R406). -/
def Yarrow.raise (y : Yarrow) (e : YEvent) : Yarrow :=
  let owners := y.progs.foldl (fun acc p => if p.2.takes e && !acc.contains p.2.owner then acc ++ [p.2.owner] else acc) []
  owners.foldl (fun y o => y.offer e o) y

/-- Raises an event on a die. Taps change nothing that they observe (R414). -/
def State.tap (s : State) (die : Nat) (e : YEvent) : State :=
  if (s.die die).yarrow.progs.isEmpty then s
  else s.modDie die fun d => { d with yarrow := d.yarrow.raise { e with clock := s.clock } }

/-- Raises an event that concerns a team. -/
def State.tapTeam (s : State) (T : Team) (source : Nat) (p0 p1 p2 p3 : Nat) : State :=
  s.tap (dieOf T.core)
    { source := source, ctx := T.ctx, core := T.core, clock := s.clock, p0 := BitVec.ofNat 32 p0
      p1 := BitVec.ofNat 32 p1, p2 := BitVec.ofNat 32 p2, p3 := BitVec.ofNat 32 p3 }

/-- Raises an event of an I/O die: IOD0's go to die 0, IOD1's to die 4 (R405). -/
def State.tapIo (s : State) (iod ctx source : Nat) (p0 p1 p2 p3 : Nat) : State :=
  s.tap (4 * iod)
    { source := source, ctx := ctx, core := noCore, clock := s.clock, p0 := BitVec.ofNat 32 p0
      p1 := BitVec.ofNat 32 p1, p2 := BitVec.ofNat 32 p2, p3 := BitVec.ofNat 32 p3 }

/-! ## Watches (R295 to R298) -/

/-- A thread's watch on the line triggers, by a store of this cycle. -/
def Thread.trigger (t : Thread) (line now : Nat) : Thread :=
  match t.watch with
  | .armed l _ => if l = line then { t with watch := .triggered, trigBy := (line, now) } else t
  | .idle | .triggered => t

/-- Some watch, queue or relocation ring watches the line. -/
def State.isWatched (s : State) (line : Nat) : Bool :=
  (s.teams.any fun kt => kt.2.threads.any fun t => t.watch == .armed line true || t.watch == .armed line false) ||
    (s.queues.any fun q => q.2.watchLine == some line) ||
    s.contexts.any fun c => c.2.regions.any fun r => r.2.ringLine == some line

/-- A store to a line triggers every watch on it (R295, R297), among them those of queues on their write index (R103)
and of Teasel on a relocation ring's control line (R363); their table entries are free again (R298, R388). -/
def State.wakeLine (s : State) (line : Nat) : State :=
  if !s.isWatched line then s
  else
    { s with
      teams := s.teams.map fun kt => (kt.1, { kt.2 with threads := kt.2.threads.map fun t => t.trigger line s.clock })
      queues := s.queues.map fun q => if q.2.watchLine == some line then (q.1, { q.2 with fired := true }) else q
      contexts := s.contexts.map fun c =>
        (c.1, { c.2 with regions := c.2.regions.map fun r =>
                  if r.2.ringLine == some line then (r.1, { r.2 with kicked := true }) else r })
      dies := s.dies.map fun d => (d.1, { d.2 with watches := d.2.watches.filter fun w => w.1 != line })
      nodes := s.nodes.map fun n => (n.1, { n.2 with watches := n.2.watches.filter fun l => l != line }) }

/-! ## Frames and marked blocks (R264, R422) -/

/-- The state of a frame (R264, R265): before bring-up every frame is SCRUBBING; then the top HOSTRSV GiB belong to context
0 and the others are FREE-CLEAN, but for the frames that commands have changed. -/
def State.frame (s : State) (f : Nat) : FState :=
  match tget? f s.frames with
  | some x => x
  | none =>
    if !s.regs.bootReady then .scrubbing
    else if 2 ^ 24 - s.regs.hostRsv.toNat * 2 ^ 14 ≤ f then .assigned 0
    else .freeClean

/-- The entry of a frame in the frame table (R264). -/
def State.frameEntry (s : State) (f : Nat) : Nat :=
  let st := match s.frame f with
    | .scrubbing => 0
    | .freeClean => 0x1000
    | .assigned c => 0x2000 + c
    | .shared => 0x3000
  (List.range 16).foldl (fun e k => if s.poison.contains (16 * f + k) then e + 2 ^ (48 + k) else e) st

/-- The part rewrites the entry of a frame that has changed, once FRM_TBL has been written (R264). No stash holds the table: its frames are
clean for no context (R265). -/
def State.reportFrame (s : State) (f : Nat) : State :=
  if s.regs.frmSet then
    let a := s.regs.frmTbl.toNat + 8 * f
    { s with mem := s.mem.publish a (toBytes 8 (s.frameEntry f)) }.wakeLine (lineOf a)
  else s

/-- Marks the block of uncorrectable data in HBM (R422). -/
def State.markData (s : State) (b : Nat) : State :=
  if inHbm (b * 4096) then { s with poison := addNew s.poison [b] }.reportFrame (b / 16) else s

/-- A line that a team held owned is written back: a word of it that is uncorrectable marks its block (R422). -/
def State.wroteBack (s : State) (line : Nat) : State :=
  if s.badWords.any fun w => w / 16 == line then s.markData (line / 32) else s

/-- The lines that a team has ceased to own are written back. -/
def State.writeBacks (s : State) (old new : List StashLine) : State :=
  (old.filter fun l => l.owned && !(new.any fun n => n.line == l.line && n.owned)).foldl (fun s l => s.wroteBack l.phys) s

/-! ## Recalls of stash copies (R251, R254) -/

/-- The stash copies of a physical line are recalled (R251, R254): the owned ones, or all of them, of every team but one. The line
then stands only at its home (log 4). -/
def State.recall (s : State) (line : Nat) (but : Option Nat) (all : Bool) : State :=
  let goes (kt : Nat × Team) (l : StashLine) : Bool := l.phys == line && (l.owned || all) && but != some kt.1
  if s.teams.any fun kt => kt.2.lines.any (goes kt) then
    let t : State := { s with teams := s.teams.map fun kt => (kt.1, { kt.2 with lines := kt.2.lines.filter fun l => !goes kt l }) }
    if s.teams.any fun kt => kt.2.lines.any fun l => goes kt l && l.owned then t.wroteBack line else t
  else s

/-- Another agent than a thread accesses [pa, pa + n): the owned stash copies of its lines are recalled. -/
def State.recallRange (s : State) (pa n : Nat) : State :=
  if n = 0 then s
  else (List.range (lineOf (pa + n - 1) + 1 - lineOf pa)).foldl (fun s i => s.recall (lineOf pa + i) none false) s

/-! ## Stores with their watches (R295, R297) -/

/-- Every watch on a line that meets a test triggers: of a published or freed range (R297). -/
def State.wakeLinesOf (s : State) (p : Nat → Bool) : State :=
  let lines := s.teams.flatMap fun kt => kt.2.threads.filterMap fun t => match t.watch with
    | .armed l _ => if p l then some l else none
    | .idle | .triggered => none
  let lines := lines ++ (s.queues.filterMap fun q => match q.2.watchLine with
    | some l => if p l then some l else none
    | none => none)
  let lines := lines ++ s.contexts.flatMap fun c => c.2.regions.filterMap fun r => match r.2.ringLine with
    | some l => if p l then some l else none
    | none => none
  lines.foldl (fun s l => s.wakeLine l) s

/-- A store by an agent of a die, with a fresh identifier, and the watches on its line. It is at the line's home at once where
the line is watched (R296), or lies outside the package's memory (R385, R443). -/
def State.storeAt (s : State) (die a : Nat) (data : List Byte) (release : Bool) : State × Nat :=
  let id := s.fresh
  let m := s.mem.store id die a data release s.clock
  let m := if !inHbm a || s.isWatched (lineOf a) then m.arrive [id] (homeDie a) else m
  ({ s with mem := m, fresh := id + 1 }.wakeLine (lineOf a), id)

/-- Writes bytes at a physical address line by line, at most n lines, as stores by an agent of a die, with their identifiers (R295). -/
def State.lineStores (s : State) (die : Nat) (release : Bool) : Nat → Nat → List Byte → State × List Nat
  | 0, _, _ => (s, [])
  | n + 1, pa, d =>
    if d.isEmpty then (s, [])
    else
      let k := 128 - pa % 128
      let x := s.storeAt die pa (d.take k) release
      let r := x.1.lineStores die release n (pa + k) (d.drop k)
      (r.1, x.2 :: r.2)

/-- The part writes memory for a report, as a release at .sys; stash copies that a team owns are recalled, and watches on the lines
trigger. -/
def State.report (s : State) (a : Nat) (data : List Byte) : State :=
  let s := s.recallRange a data.length
  (List.range (lineOf (a + data.length - 1) + 1 - lineOf a)).foldl (fun s i => s.wakeLine (lineOf a + i))
    { s with mem := s.mem.publish a data }

/-- Some of these stores still has to be acknowledged outside the package (R207). -/
def State.unacked (s : State) (ids : List Nat) : Bool := s.mem.flights.any fun f => ids.contains f.id && f.outside

/-! ## Registers (R123 to R128) -/

/-- The logical position of a register of the window (R124). -/
def Thread.pos (t : Thread) (n : BitVec 7) : Nat := t.wb + n.toNat
def Thread.at (t : Thread) (p : Nat) : Word := sget p t.stack
/-- g(n) (R71). -/
def Thread.g (t : Thread) (n : BitVec 7) : Word := t.at (t.pos n)
/-- gx(n): the pair, least significant register first. -/
def Thread.gx (t : Thread) (n : BitVec 7) : DWord := t.at (t.pos n + 1) ++ t.at (t.pos n)
/-- gq(n): the quad. -/
def Thread.gq (t : Thread) (n : BitVec 7) : BitVec 128 :=
  t.at (t.pos n + 3) ++ t.at (t.pos n + 2) ++ t.at (t.pos n + 1) ++ t.at (t.pos n)

/-- Writes a logical position: an older write still in flight to it is discarded (R239), its slab counts as written
(R126), its parity is good again. -/
def Thread.putAt (t : Thread) (p : Nat) (v : Word) : Thread :=
  { t with
    stack := sput p v t.stack
    pendRegs := tdel p t.pendRegs
    slabs := if (tget? (p / 16) t.slabs).isSome then tput (p / 16) true t.slabs else t.slabs
    parity := tdel p t.parity }
def Thread.setG (t : Thread) (n : BitVec 7) (v : Word) : Thread := t.putAt (t.pos n) v
def Thread.setGx (t : Thread) (n : BitVec 7) (v : DWord) : Thread :=
  (t.putAt (t.pos n) (v.extractLsb' 0 32)).putAt (t.pos n + 1) (v.extractLsb' 32 32)
def Thread.setGq (t : Thread) (n : BitVec 7) (v : BitVec 128) : Thread :=
  (((t.putAt (t.pos n) (v.extractLsb' 0 32)).putAt (t.pos n + 1) (v.extractLsb' 32 32)).putAt (t.pos n + 2)
    (v.extractLsb' 64 32)).putAt (t.pos n + 3) (v.extractLsb' 96 32)
/-- Writes consecutive positions. -/
def Thread.putList (t : Thread) (p : Nat) : List Word → Thread
  | [] => t
  | v :: r => (t.putAt p v).putList (p + 1) r

def Thread.p (t : Thread) (n : BitVec 3) : Bool := t.preds.getLsbD n.toNat
def Thread.setP (t : Thread) (n : BitVec 3) (v : Bool) : Thread :=
  { t with
    preds := if v then t.preds ||| (1#8 <<< n.toNat) else t.preds &&& ~~~(1#8 <<< n.toNat)
    pendPreds := tdel n.toNat t.pendPreds }
def Thread.ref (t : Thread) (n : BitVec 4) : DWord := t.refs[n.toNat]
def Thread.setRef (t : Thread) (n : BitVec 4) (v : DWord) : Thread :=
  { t with refs := t.refs.set n.toNat v, pendRefs := tdel n.toNat t.pendRefs }

/-- The program counter moves past this word. -/
def Thread.next (t : Thread) : Thread := { t with pc := t.pc + 4 }

/-- The residency result of a load (R242): elements read, and whether the page was resident. -/
def Thread.setResidency (t : Thread) (elements : Nat) (resident : Bool) : Thread :=
  { t.setP 7 resident with resm := if resident then BitVec.ofNat 4 (2 ^ elements - 1) else 0 }

/-- privileged() (R85). -/
def privileged (C : Context) (t : Thread) : Bool := C.desc.priv || t.handler

/-! ## Readiness and bundles (R170 to R173) -/

/-- The threads named become READY as one bundle, but for those whose missing set is not empty: they are PARKED (R270). -/
def State.makeReady (s : State) (k : Nat) (tids : List Nat) : State :=
  let b := s.fresh
  let s := { s with fresh := b + 1 }
  s.modTeam k fun T =>
    { T with threads := T.threads.mapIdx fun i t =>
        if tids.contains i then
          (if t.missing.isEmpty then { t with status := .ready, bundle := some b } else { t with status := .parked, bundle := none })
        else t }

/-- Threads become READY in bundles formed as at team start: one for each next PC and each group of 32 consecutive
indices (R171, R173). -/
def State.releaseGroups (s : State) (k : Nat) (tids : List Nat) : State :=
  match s.team? k with
  | none => s
  | some T =>
    let pcOf := fun i => match T.threads[i]? with
      | some t => t.pc
      | none => 0
    let keys := tids.foldl (fun acc i => if acc.contains (pcOf i, i / 32) then acc else acc ++ [(pcOf i, i / 32)]) []
    keys.foldl (fun s key => s.makeReady k (tids.filter fun i => (pcOf i, i / 32) == key)) s

/-! ## Kill (R180, R181) -/

/-- A request that its home has already accepted performs even after a kill (R181). -/
def Stage.accepted : Stage → Bool
  | .outside _ => true
  | .backoff _ | .onPage _ | .onPublish | .onWalk _ | .behind | .translated _ | .atCore _ | .walking _ _ _ | .queued _ _ _ _
  | .atDoor _ _ _ | .arrived _ _ _ | .settling _ => false

/-- Every thread of a killed team becomes EXITED, its parked and unaccepted requests are discarded, and the kill sequence
begins; TEAM_DONE ends it (R181). -/
def State.killTeam (s : State) (k : Nat) : State :=
  match s.team? k with
  | none => s
  | some T =>
    match T.phase with
    | .done => s
    | .pending => { s with teams := tdel k s.teams }
    | .exiting | .resident | .running | .preempted =>
      (s.setTeam k { T with
        phase := .exiting
        killed := true
        reqs := T.reqs.filter fun r => r.stage.accepted
        kicks := []
        threads := T.threads.map fun t => { t with status := .exited, bundle := none, watch := .idle, wake := false } }).modCore
          T.core fun c => { c with bins := c.bins.filter fun b => b.team != k }

/-- Teams of a context, with their keys. -/
def State.teamsOf (s : State) (x : Nat) : List (Nat × Team) := s.teams.filter fun kt => kt.2.ctx == x

/-- Kills every team of a grid. -/
def State.killGridTeams (s : State) (x : Nat) (g : Word) : State :=
  ((s.teamsOf x).filter fun kt => kt.2.gid == g).foldl (fun s kt => s.killTeam kt.1) s

/-- A CPYT of a context waits on a core for the transfer (R94). -/
def State.parkedCpyt (s : State) (c x : Nat) : Bool :=
  s.cmds.any fun m => m.core == c && m.parked && match s.team? m.team with
    | some T => T.ctx == x
    | none => false

/-- A transfer is under way on a core: a tile instruction of its slice's context, or a parked CPYT of it, waits for the tiles (R94). No
switch falls inside it (R81). -/
def State.inTransfer (s : State) (c : Nat) : Bool :=
  match (s.core c).slice with
  | some x => (s.core c).accown != x && ((s.core c).wants == some x || s.parkedCpyt c x)
  | none => false

/-- The slice of a core has ended (R81): no context has it. -/
def Core.freed (C : Core) (x fresh : Nat) : Core := { C with slice := none, lastCtx := x, freeSince := fresh }

/-- The slices of a context end, but for one within which a transfer of tile ownership runs: that one ends with it (R81, R94). -/
def State.freeCores (s : State) (x : Nat) : State :=
  { s with cores := s.cores.map fun c =>
      if c.2.slice = some x ∧ !s.inTransfer c.1 then (c.1, { c.2.freed x s.fresh with wants := none }) else c }

/-- A context stops: its teams are PREEMPTED and their slices end (R78, R180). -/
def State.stopContext (s : State) (x source : Nat) : State :=
  let s := (s.teamsOf x).foldl (fun s kt =>
    match kt.2.phase with
    | .resident | .running =>
      (s.modTeam kt.1 fun T => { T with phase := .preempted }).tapTeam kt.2 16 kt.2.gid.toNat kt.2.index source kt.2.slot
    | .pending | .preempted | .exiting | .done => s) s
  s.freeCores x

/-- A queue slot changes state (R103), with its Yarrow event. -/
def QState.code : QState → Nat
  | .unbound => 0 | .bound => 1 | .watching => 2 | .active => 3 | .blocked => 4 | .faulted => 5 | .draining => 6
  | .destroyed => 7

def State.setQueue (s : State) (q : Nat) (st : QState) (fcode : BitVec 8) : State :=
  let Q := s.queue q
  (s.modQueue q fun Q => { Q with state := st, fcode := fcode, waiting := s.clock }).tapIo 0 Q.ctx 41 q st.code
    fcode.toNat 0

/-- A queue goes FAULTED and raises its vector (R103, R104). -/
def State.faultQueue (s : State) (q : Nat) (fcode : BitVec 8) : State :=
  match (s.queue q).state with
  | .watching | .active | .blocked => (s.setQueue q .faulted fcode).raisePf (s.queue q).vector
  | .unbound | .bound | .faulted | .draining | .destroyed => s

/-- A grid ends as FAULTED or KILLED (R112): its queue faults (R104). -/
def State.endGrid (s : State) (x : Nat) (g : Word) (st : GridState) : State :=
  match s.grid? x g with
  | none => s
  | some G =>
    if G.state.ended then s
    else
      let s := (s.modGrid x g fun G => { G with state := st, finish := s.clock }).tapIo 0 x 12 g.toNat
        (if st = .faulted then 1 else if st = .killed then 2 else 0) (s.clock - G.queuedAt) 0
      match G.queue with
      | some q => if st = .faulted then s.faultQueue q 5 else if st = .killed then s.faultQueue q 6 else s
      | none => s

/-! ## Taking an exception (R69, R87, R445) -/

/-- A fault record (R445). -/
def FaultRec.bytes (f : FaultRec) (ctx : Nat) : List Byte :=
  toBytes 1 f.cause.toNat ++ toBytes 1 (dieOf f.core) ++ toBytes 2 ctx ++ toBytes 4 f.gid.toNat ++ toBytes 4 f.team ++
    toBytes 4 f.thread ++ toBytes 8 f.trappc.toNat ++ toBytes 8 f.trapaddr.toNat ++ toBytes 4 f.trapcause.toNat ++
    toBytes 4 f.more.toNat ++ toBytes 8 f.clock ++ List.replicate 16 0

/-- The context enters FAULTED through an unhandled trap (R78, R445): its teams stop, the record is written and the
fvector raised. A further unhandled trap of the same stop is counted in more, and the record is written again (DESIGN CHOICE, log 82). -/
def State.faultContext (s : State) (x : Nat) (f : FaultRec) : State :=
  let C := s.ctx x
  match C.state with
  | .faulted =>
    match C.fault with
    | some r =>
      let r := { r with more := if r.more = 0xFFFFFFFF then r.more else r.more + 1 }
      (s.modCtx x fun C => { C with fault := some r }).report C.desc.faultrec.toNat (r.bytes x)
    | none => s
  | .preempted | .created | .bound | .runnable | .running | .fenced | .destroyed =>
    let s := (s.modCtx x fun C => { C with state := .faulted, fault := some f }).stopContext x 1
    let s := s.report C.desc.faultrec.toNat (f.bytes x)
    if C.desc.fvector = 0xFFFF then s else s.raisePf C.desc.fvector

/-- The trap registers of a thread (R87 step 2). -/
def Thread.recordTrap (t : Thread) (cause : BitVec 8) (code : BitVec 18) (pc addr : DWord) : Thread :=
  { t with trapcause := (0#6 ++ code) ++ cause, trappc := pc, trapaddr := addr }

/-- A delivered trap: the thread sets HANDLER and continues at sr.trapvec (R87 step 2). -/
def Thread.enterHandler (t : Thread) : Thread :=
  { t with handler := true, pc := t.trapvec, status := .ready }

/-- The address a trap of this thread reports: the instruction's, or that of the first LIT of its group (R61, R87). -/
def State.trapPc (s : State) (t : Thread) : DWord := if s.lits.payloads.isEmpty then t.pc else s.lits.pc0

/-- A thread raises an unhandled trap: its registers are written, its team is killed, its grid and context go FAULTED
(R87 step 1). Causes 0x80 to 0x82 take this way as well. While the context is PREEMPTED the trap is held until RESUME (R80). -/
def State.unhandled (s : State) (k i : Nat) (T : Team) (t : Thread) (cause : BitVec 8) : State :=
  let f : FaultRec := { cause := cause, core := T.core, gid := T.gid, team := T.index, thread := i, trappc := t.trappc,
                        trapaddr := t.trapaddr, trapcause := t.trapcause, clock := s.clock }
  let s := s.modThread k i fun _ => t
  match (s.ctx T.ctx).state with
  | .preempted => (s.modTeam k fun T => { T with killed := true }).modCtx T.ctx fun C => { C with held := some (match C.held with
      | some r => { r with more := if r.more = 0xFFFFFFFF then r.more else r.more + 1 }
      | none => f) }
  | .created | .bound | .runnable | .running | .faulted | .fenced | .destroyed =>
    ((s.killTeam k).endGrid T.ctx T.gid .faulted).faultContext T.ctx f

/-- Takes a trap of thread i of team k (R87): one operation for every cause 0x01 to 0x16. BREAK with DBG set stops the team
for the debugger instead (R90). A thread that a lower lane's unhandled trap has just killed enters no handler. -/
def State.deliver (s : State) (k i : Nat) (cause : BitVec 8) (addr : DWord) (code : BitVec 18) : State :=
  match s.team? k, s.thread? k i with
  | some T, some t =>
    let t1 := t.recordTrap cause code (s.trapPc t) addr
    let C := s.ctx T.ctx
    if cause = 0x14 ∧ C.desc.dbg then
      ((s.modThread k i fun _ => { t1 with trapaddr := t.trapaddr }).modTeam k fun T => { T with stopped := some i }).emit
        (.debugStop T.gid T.index i)
    else if t.handler ∨ t.trapvec = 0 then
      (s.tapTeam T 7 cause.toNat (s.trapPc t).toNat 0 T.slot).unhandled k i T t1 cause
    else if t.status = .exited then s
    else
      (s.tapTeam T 7 cause.toNat (s.trapPc t).toNat 1 T.slot).modThread k i fun _ => t1.enterHandler
  | _, _ => s

/-- The return from a trap handler (R93). -/
def Thread.returnFromTrap (t : Thread) : Thread := { t with handler := false, pc := t.trappc }

end Sys2Proof.Machine
end

