-- ==== Sys2Proof/Machine/Operands.lean ====
section
/-! DEFINITION. Operand forms: immediates with their LIT prefix (R59, R65), the lanes of the issuing bundle (R70), and the
three ways in which an instruction acts on them: on each lane alone, lane by lane over the whole state, or with no effect. -/

namespace Sys2Proof.Machine

/-- What a step or a meaning answers. -/
abbrev Result := Host.Outcome State Fault Refusal

/-! ## Immediates -/

/-- The exact value of an immediate field of n bits under a LIT prefix (R59): without one, signed or unsigned as R55 and
R64 say; with one, signed from the first payload's top bit. -/
def immValue {n : Nat} (payloads : List (BitVec 25)) (f : BitVec n) (signed : Bool) : Int :=
  match payloads with
  | [] => if signed then f.toInt else f.toNat
  | [p] => p.toInt * 2 ^ n + f.toNat
  | p :: q :: _ => p.toInt * 2 ^ (25 + n) + q.toNat * 2 ^ n + f.toNat

/-- An immediate at 32 bits. -/
def State.imm32 (s : State) {n : Nat} (f : BitVec n) (signed : Bool) : Word :=
  BitVec.ofInt 32 (immValue s.lits.payloads f signed)

/-- An immediate at 64 bits: ADDI.X, byte offsets, branch and call targets (R59). -/
def State.imm64 (s : State) {n : Nat} (f : BitVec n) : DWord := BitVec.ofInt 64 (immValue s.lits.payloads f true)

/-- The address of an access with an immediate offset of W-byte units (R65). -/
def State.offsetAddr (s : State) (base : DWord) {n : Nat} (f : BitVec n) (w : Nat) : DWord :=
  base + s.imm64 f * BitVec.ofNat 64 w

/-! ## Lanes -/

/-- A trap that one lane raises: its cause, the address for sr.trapaddr, the TRAP code. -/
structure TrapReq where
  cause : BitVec 8
  addr : DWord := 0
  code : BitVec 18 := 0
  deriving DecidableEq, Repr

/-- What an instruction does in one lane that touches only its own thread. -/
inductive LaneOut where
  | done (t : Thread)
  | trap (r : TrapReq)
  | wait (w : Wait)
  deriving DecidableEq, Repr

/-- The issuing threads, lowest lane first (R170). -/
def State.lanes (s : State) : List (Nat × Thread) :=
  s.issue.tids.filterMap fun i => (s.thread? s.issue.team i).map fun t => (i, t)

/-- sr.lane (R83, R169). -/
def laneOf (tid : Nat) : Nat := tid % 32

/-- A thread leaves its bundle to wait (R172, R184). -/
def Thread.wait (t : Thread) (w : Wait) : Thread := { t with status := .waiting w, bundle := none }

/-- One lane's result is written. A trap is delivered later. -/
def State.putLane (s : State) (k : Nat) (x : Nat × LaneOut) : State :=
  match x.2 with
  | .done t => s.modThread k x.1 fun _ => t
  | .wait w => s.modThread k x.1 fun t => t.wait w
  | .trap _ => s

/-- A trap that a lane raised is delivered (R69, R87). -/
def State.trapLane (s : State) (k : Nat) (x : Nat × LaneOut) : State :=
  match x.2 with
  | .trap r => s.deliver k x.1 r.cause r.addr r.code
  | .done _ | .wait _ => s

/-- An instruction that acts in each lane on its own thread. Every lane reads its sources before any lane writes (R70); the
threads that do not trap complete it (R69). -/
def State.onLanes (s : State) (f : List (Nat × Thread) → Nat → Thread → LaneOut) : State :=
  let ls := s.lanes
  let outs := ls.map fun x => (x.1, f ls x.1 x.2)
  outs.foldl (fun s x => s.trapLane s.issue.team x) (outs.foldl (fun s x => s.putLane s.issue.team x) s)

/-- An instruction that writes one register in each lane and goes on. -/
def State.mapG (s : State) (d : BitVec 7) (f : Thread → Word) : State :=
  s.onLanes fun _ _ t => .done (t.setG d (f t)).next
/-- An instruction that writes one pair in each lane and goes on. -/
def State.mapGx (s : State) (d : BitVec 7) (f : Thread → DWord) : State :=
  s.onLanes fun _ _ t => .done (t.setGx d (f t)).next
/-- An instruction that writes one predicate in each lane and goes on. -/
def State.mapP (s : State) (p : BitVec 3) (f : Thread → Bool) : State :=
  s.onLanes fun _ _ t => .done (t.setP p (f t)).next

/-- An instruction whose lanes act one at a time, lowest first, on the whole state: each sees what the lanes below it did.
Traps are delivered when every lane has acted. A thread that a lower lane's act has killed does nothing. -/
def State.eachLane (s : State) (f : State → Nat → Thread → State × Option TrapReq) : State :=
  let k := s.issue.team
  let r := s.issue.tids.foldl (fun acc i =>
    match acc.1.thread? k i with
    | none => acc
    | some t =>
      if t.status = .exited then acc
      else
        match f acc.1 i t with
        | (s, none) => (s, acc.2)
        | (s, some r) => (s, acc.2 ++ [(i, r)])) (s, ([] : List (Nat × TrapReq)))
  r.2.foldl (fun s x => s.deliver k x.1 x.2.cause x.2.addr x.2.code) r.1

/-- A lane that waits holds back the higher lanes of its bundle, which are to act after it (R244, R258, R327); one whose request stands in
the table does so through that. -/
def Status.holdsBack? : Status → Option Wait
  | .waiting w => match w with
    | .check _ => none
    | .operand _ _ _ | .window _ | .slab | .entry _ _ _ | .announce | .kick | .walker _ | .walk _ | .tile _ | .transfer | .sequencer | .barrier _ _
    | .phase _ _ _ | .counters _ _ _ _ | .completion _ _ | .grid _ | .engine _ | .fence _ _ _ _ _ _ _ | .flags _ _ | .older _ => some w
  | .ready | .parked | .watching _ _ _ | .sleeping _ | .exited => none

/-- The lanes act in ascending order, each after the lower ones: where one waits, those above it wait for the same event and issue again. -/
def State.lanesInOrder (s : State) (f : State → Nat → Thread → State × Option TrapReq) : State :=
  let k := s.issue.team
  let r := s.issue.tids.foldl (fun (acc : State × List (Nat × TrapReq) × Option Wait) i =>
    match acc.1.thread? k i, acc.2.2 with
    | none, _ => acc
    | some t, some w => if t.status = .exited then acc else (acc.1.modThread k i fun t => t.wait w, acc.2)
    | some t, none =>
      if t.status = .exited then acc
      else
        let x := f acc.1 i t
        (x.1, (match x.2 with
          | some r => acc.2.1 ++ [(i, r)]
          | none => acc.2.1), (x.1.thread? k i).bind fun t => t.status.holdsBack?)) (s, [], none)
  r.2.1.foldl (fun s x => s.deliver k x.1 x.2.cause x.2.addr x.2.code) r.1

/-- Sets the thread of the lane that acts. Its watch stays what the act itself has made of it: a store by any agent triggers
it, the thread's own included (R295, R297). -/
def State.setThread (s : State) (i : Nat) (t : Thread) : State :=
  s.modThread s.issue.team i fun u => { t with watch := u.watch }

/-- The team of the issuing bundle, if there is one. -/
def State.issuing? (s : State) : Option Team := s.team? s.issue.team

/-- The lane mask of the issuing bundle: bit i stands for lane i (R195). -/
def maskOf (ls : List (Nat × Thread)) : Word :=
  ls.foldl (fun m x => m ||| (1#32 <<< laneOf x.1)) 0

/-- The leader: the lowest lane in active (R71). -/
def leader? (ls : List (Nat × Thread)) : Option (Nat × Thread) :=
  ls.foldl (fun best x => match best with
    | none => some x
    | some y => if laneOf x.1 < laneOf y.1 then some x else some y) none

end Sys2Proof.Machine
end

