-- ==== Sys2Proof/Machine/GridOps.lean ====
section
/-! DEFINITION. Grid identifiers, the creation of a grid and what its end releases (R110 to R112, R120 to R122). -/

namespace Sys2Proof.Machine

/-- An identifier in use in a context: its grid has not ended, or a GWAIT of a grid that has not ended can name it. -/
def State.gridInUse (s : State) (x : Nat) (g : Word) : Bool :=
  match s.grid? x g with
  | none => false
  | some G =>
    if !G.state.ended then true
    else
      match G.parent with
      | none => false
      | some p =>
        match s.grid? x p with
        | some P => !P.state.ended
        | none => false

/-- The identifier after another: 1 to 0x7FFF_FFFF, wrapping to 1. -/
def gridAfter (n : Nat) : Nat := if 0x7FFFFFFF ≤ n then 1 else n + 1

/-- The first identifier not in use, from n on. -/
def State.freeGridFrom (s : State) (x : Nat) : Nat → Nat → Nat
  | 0, n => n
  | fuel + 1, n => if s.gridInUse x (BitVec.ofNat 32 n) then s.freeGridFrom x fuel (gridAfter n) else n

/-- Grids launched by LAUNCH in a context that have not ended (R111). -/
def State.childCount (s : State) (x : Nat) : Nat :=
  (s.grids.filter fun G => G.ctx == x && G.parent.isSome && !G.state.ended).length

/-- An identifier is used anew: the ended grid that had it goes, and with it the tie of its children to it. -/
def dropGrid (l : List Grid) (x : Nat) (id : Word) : List Grid :=
  (l.filter fun H => !(H.ctx == x && H.gid == id)).map fun H => if H.ctx == x && H.parent == some id then { H with parent := none } else H

/-- A grid enters QUEUED under the next free identifier of its context (R110, R112). -/
def State.newGrid (s : State) (G : Grid) : State × Word :=
  let x := G.ctx
  let n := s.freeGridFrom x (s.grids.length + 1) (s.ctx x).nextGrid
  let id : Word := BitVec.ofNat 32 n
  let s := { s with grids := dropGrid s.grids x id ++ [{ G with gid := id, state := .queued, queuedAt := s.clock }] }
  let s := s.modCtx x fun C => { C with nextGrid := gridAfter n }
  (s.tapIo 0 x 11 n G.depth (G.x * G.y * G.z) (G.queue.getD 0xFFFF), id)

/-- Every store on its way arrives everywhere: a timing that R204 allows, taken where a package-scope acquire must see
what another die released. -/
def Mem.flushAll (m : Mem) : Mem :=
  let ids := m.flights.map fun f => f.id
  (allDies.foldl (fun m d => m.arrive ids d) m).settled

/-- After an acquire, no copy that a proxy read earlier serves a load (R208, R213). -/
def State.dropProxies (s : State) : State := { s with proxies := [] }

/-- An acquire past the die that is no load (R213, R216): what has performed anywhere has arrived, and no earlier copy serves. -/
def State.acquireSys (s : State) : State := { s with mem := s.mem.flushAll }.dropProxies

/-- The status that GWAIT returns for an ended grid (R122). -/
def Grid.status (G : Grid) : Word :=
  match G.state with
  | .retired => 0
  | .faulted => if G.early then 3 else 1
  | .killed => 2
  | .queued | .translating | .placing | .running | .awaiting => 4

end Sys2Proof.Machine
end

