-- ==== Sys2Proof/Machine/Control.lean ====
section
/-! DEFINITION. Control flow and calls (R145 to R149, R187 to R190), special registers (R83, R84, R89), traps and their
return (R90, R93), SLEEP and YIELD (R91, R92), time counters and marks (R416), LAUNCH and GWAIT (R120 to R122). -/

namespace Sys2Proof.Machine

/-! ## Branches, calls, window moves -/

/-- The target of a branch or call with a word offset (R56, R59). -/
def State.target (s : State) (t : Thread) {n : Nat} (off : BitVec n) : DWord := t.pc + 4 * s.imm64 off

def Thread.jump (t : Thread) (pc : DWord) : Thread := { t with pc := pc }

def execBra (off : BitVec 21) (s : State) : Result :=
  .next (s.onLanes fun _ _ t => .done (t.jump (s.target t off)))

/-- The condition p, or not p. -/
def execBrc (neg : Bool) (p : BitVec 3) (off : BitVec 21) (s : State) : Result :=
  .next (s.onLanes fun _ _ t => .done (if Bool.xor (t.p p) neg then t.jump (s.target t off) else t.next))

/-- The checks of a target that comes from a register (R146, R188). -/
def targetTrap? (t : DWord) : Option TrapReq :=
  if t.extractLsb' 0 2 ≠ 0 then some { cause := 0x05, addr := t }
  else if !canonical t then some { cause := 0x13, addr := t }
  else none

/-- A call (R145, R146): the link word below the callee's window, the new base, the target. -/
def Thread.callTo (t : Thread) (slide : Nat) (target : DWord) : LaneOut :=
  if 8064 < t.wb + slide then .trap { cause := 0x0C }
  else
    let link : DWord := (BitVec.ofNat 64 slide <<< 57) ||| ((t.pc + 4).extractLsb' 0 57).setWidth 64
    let p := t.wb + slide - 2
    let t := (t.putAt p (link.extractLsb' 0 32)).putAt (p + 1) (link.extractLsb' 32 32)
    .done { t with wb := t.wb + slide, pc := target }

def execCall (slide : BitVec 7) (off : BitVec 18) (s : State) : Result :=
  .next (s.onLanes fun _ _ t => t.callTo slide.toNat (s.target t off))

def execCallr (a : BitVec 7) (slide : BitVec 7) (s : State) : Result :=
  .next (s.onLanes fun _ _ t =>
    match targetTrap? (t.gx a) with
    | some r => .trap r
    | none => t.callTo slide.toNat (t.gx a))

/-- The window base moves; a lower base discards every position above its window (R125, R128). -/
def Thread.setBase (t : Thread) (w : Nat) : Thread :=
  if w < t.wb then { t with wb := w, stack := t.stack.filter fun x => decide (x.1 ≤ w + 127) } else { t with wb := w }

/-- A write of the thread to a position above a new window is still in flight (R128). -/
def Thread.lateWrite (t : Thread) (w : Nat) : Bool := decide (w < t.wb) && t.pendRegs.any fun x => decide (w + 127 < x.1)

/-- RET in one lane (R147). -/
def Thread.ret (t : Thread) : LaneOut :=
  if t.wb < 2 then .trap { cause := 0x0C }
  else
    let link : DWord := t.at (t.wb - 1) ++ t.at (t.wb - 2)
    let slide := (link.extractLsb' 57 7).toNat
    let target := (link.extractLsb' 0 57).signExtend 64
    if slide = 0 ∨ slide % 2 = 1 ∨ t.wb < slide then .trap { cause := 0x0C }
    else if target.extractLsb' 0 2 ≠ 0 then .trap { cause := 0x05, addr := target }
    else if t.lateWrite (t.wb - slide) then .wait (.window (t.wb - slide + 127))
    else .done { t.setBase (t.wb - slide) with pc := target }

def execRet (s : State) : Result := .next (s.onLanes fun _ _ t => t.ret)

def execJmpr (a : BitVec 7) (s : State) : Result :=
  .next (s.onLanes fun _ _ t =>
    match targetTrap? (t.gx a) with
    | some r => .trap r
    | none => .done (t.jump (t.gx a)))

/-- WINBASE (R148). -/
def execWinbase (n : BitVec 18) (s : State) : Result :=
  .next (s.onLanes fun _ _ t =>
    let w : Int := t.wb + n.toInt
    if w < 0 ∨ 8064 < w then .trap { cause := 0x0C }
    else if t.lateWrite w.toNat then .wait (.window (w.toNat + 127))
    else .done (t.setBase w.toNat).next)

/-! ## EXIT and REFORM -/

/-- A thread exits: it issues nothing more (R182, R189). -/
def Thread.exit (t : Thread) : Thread := { t with status := .exited, bundle := none, watch := .idle }

/-- A team whose threads have all exited enters EXITING (R180). -/
def State.checkExit (s : State) (k : Nat) : State :=
  s.modTeam k fun T =>
    if T.threads.all fun t => t.status == .exited then
      match T.phase with
      | .resident | .running => { T with phase := .exiting }
      | .pending | .preempted | .exiting | .done => T
    else T

/-- A generation completes when every thread has arrived or exited; waiters on it become READY as at team start (R173, R283).
The last argument is the generation that completes. -/
def Team.barrierFull (T : Team) (n : Nat) : Bool :=
  let b := T.bars.toList.getD n {}
  (T.threads.zipIdx.all fun x => x.1.status == .exited || b.arrived.contains x.2) &&
    !(T.threads.all fun t => t.status == .exited)

/-- A wait on a barrier generation before the current one is over (R284). -/
def laterGen (gen t : Word) : Bool := (0#32).slt (gen - t)

/-- The threads that wait on a barrier and whose generation is past. -/
def Team.releasedBy (T : Team) (n : BitVec 4) : List Nat :=
  let gen := (T.bars.toList.getD n.toNat {}).gen
  (T.threads.zipIdx.filter fun x => match x.1.status with
    | .waiting (.barrier m t) => m == n && laterGen gen t
    | .ready | .waiting _ | .parked | .watching _ _ _ | .sleeping _ | .exited => false).map fun x => x.2

/-- Completes generation of barrier n where every thread has arrived (R283). -/
def State.settleBarrier (s : State) (k : Nat) (n : BitVec 4) : State :=
  match s.team? k with
  | none => s
  | some T =>
    if T.barrierFull n.toNat then
      let b := T.bars.toList.getD n.toNat {}
      let s := s.modTeam k fun T => { T with bars := T.bars.set n.toNat { gen := b.gen + 1, arrived := [], since := 0 } }
      let s := s.tapTeam T 30 n.toNat (b.gen + 1).toNat (s.clock - b.since) T.slot
      match s.team? k with
      | some T => s.releaseGroups k (T.releasedBy n)
      | none => s
    else s

/-- A thread's exit may complete generations that have an arrival (R283). -/
def State.settleBarriers (s : State) (k : Nat) : State :=
  (List.finRange 16).foldl (fun s n =>
    match s.team? k with
    | some T => if T.bars[n].arrived.isEmpty then s else s.settleBarrier k (BitVec.ofFin n)
    | none => s) s

def execExit (s : State) : Result :=
  .next (((s.onLanes fun _ _ t => .done t.exit).checkExit s.issue.team).settleBarriers s.issue.team)

/-- Files one thread at REFORM (R175), in the bins of its core. -/
def fileThread (bins : List Bin) (team tid now : Nat) (pc : DWord) : List Bin × Bool :=
  let isKey := fun (b : Bin) => b.team == team && b.pc == pc && !b.closed
  let holds := fun (b : Bin) => b.tids.any fun x => x.1 % 32 == tid % 32
  if bins.any fun b => isKey b && !holds b then
    (bins.map fun b => if isKey b then { b with tids := b.tids ++ [(tid, now)] } else b, true)
  else
    let bins := bins.map fun b => if isKey b then { b with closed := true } else b
    if bins.length < 64 then (bins ++ [{ team := team, pc := pc, tids := [(tid, now)] }], true) else (bins, false)

/-- REFORM (R190): the threads leave the bundle for the bins, lowest lane first. -/
def execReform (s : State) : Result :=
  .next (s.eachLane fun s i t =>
    match s.issuing? with
    | none => (s, none)
    | some T =>
      let r := fileThread (s.core T.core).bins s.issue.team i s.clock (t.pc + 4)
      let s := s.modCore T.core fun c => { c with bins := r.1 }
      if r.2 then (s.setThread i { t.next with bundle := none }, none)
      else ({ s with fresh := s.fresh + 1 }.setThread i { t.next with bundle := some s.fresh }, none))

/-! ## Traps and their return -/

def execTrap (code : BitVec 18) (s : State) : Result :=
  .next (s.onLanes fun _ _ _ => .trap { cause := 0x15, code := code })

def execBrk (s : State) : Result := .next (s.onLanes fun _ _ _ => .trap { cause := 0x14 })

/-- The context of the issuing bundle. -/
def State.issueCtx (s : State) : Context :=
  match s.issuing? with
  | some T => s.ctx T.ctx
  | none => {}

def execRft (s : State) : Result :=
  .next (s.onLanes fun _ _ t => if privileged s.issueCtx t then .done t.returnFromTrap else .trap { cause := 0x04 })

/-! ## Special registers (R83, R84, R89) -/

/-- The T_hold in force on a core for a context: a write that has not reached the core leaves the old value there (R89). -/
def Context.tholdOn (C : Context) (core : Nat) : Word := tget C.thold core C.tholdAt

/-- Writes T_hold on a core: every other core with teams of the context keeps the value it has until the write reaches
it. -/
def State.writeThold (s : State) (x core : Nat) (v : Word) : State :=
  let cores := ((s.teamsOf x).filter fun kt => kt.2.phase.isResident).foldl
    (fun acc kt => if kt.2.core = core then acc else addNew acc [kt.2.core]) []
  s.modCtx x fun C =>
    { C with
      thold := v
      tholdAt := tdel core (cores.foldl (fun l c => tput c (C.tholdOn c) l) C.tholdAt) }

/-- Clips a T_hold (R89). -/
def clipThold (v : Word) : Word := if v.toNat < 128 then 128 else if 65536 < v.toNat then 65536 else v

/-- sr.fpflags (R84). -/
def fpflagsOf (T : Team) (t : Thread) : Word :=
  (if T.tuf then 0x400 else 0) ||| (if T.tof then 0x200 else 0) ||| (if T.tnv then 0x100 else 0) ||| t.fpflags.setWidth 32

/-- The value of a special register for a thread (R83). -/
def State.srValue (s : State) (T : Team) (i : Nat) (t : Thread) (n : Nat) : DWord :=
  match n with
  | 0 => BitVec.ofNat 64 i
  | 1 => BitVec.ofNat 64 (laneOf i)
  | 2 => BitVec.ofNat 64 T.index
  | 3 => T.gid.setWidth 64
  | 4 => BitVec.ofNat 64 T.core
  | 5 => BitVec.ofNat 64 (dieOf T.core)
  | 6 => BitVec.ofNat 64 T.ctx
  | 7 => BitVec.ofNat 64 (match s.grid? T.ctx T.gid with
    | some G => G.depth
    | none => 0)
  | 8 => (fpflagsOf T t).setWidth 64
  | 9 => t.resm.setWidth 64
  | 10 => BitVec.ofNat 64 s.clock
  | 12 => ((s.ctx T.ctx).tholdOn T.core).setWidth 64
  | 13 => t.trapcause.setWidth 64
  | 14 => t.trappc
  | 16 => t.trapaddr
  | 18 => t.trapvec
  | 20 => if (s.core T.core).accown = T.ctx then BitVec.ofNat 64 T.ctx else 0
  | 21 => if t.handler then 1 else 0
  | 22 => if T.scratchLen = 0 then 0 else T.scratchBase
  | _ => 0

/-- Registers of 64 bits. -/
def srIsWide (n : Nat) : Bool := n == 10 || n == 14 || n == 16 || n == 18 || n == 22

def execSrd (d sr : BitVec 7) (s : State) : Result :=
  .next (match s.issuing? with
  | none => s
  | some T => s.onLanes fun _ i t =>
      let v := s.srValue T i t sr.toNat
      .done (if srIsWide sr.toNat then t.setGx d v else t.setG d (v.setWidth 32)).next)

/-- Only a privileged thread may write these (R83). -/
def srPrivileged (n : Nat) : Bool := n == 13 || n == 14 || n == 16 || n == 18

/-- Clears team flags: bit 0 TNV, 1 TOF, 2 TUF. -/
def Team.clearFlags (T : Team) (c : BitVec 3) : Team :=
  { T with tnv := T.tnv && !c.getLsbD 0, tof := T.tof && !c.getLsbD 1, tuf := T.tuf && !c.getLsbD 2 }

/-- The tile operations of a team that its core's sequencer has accepted. -/
def State.teamOps (s : State) (k : Nat) (T : Team) : List Nat :=
  ((s.core T.core).seq.filter fun o => o.team == k).map fun o => o.id

/-- Writes a special register in one lane (R89). A clear of team flags waits for the tile operations accepted before it. -/
def State.srWrite (s : State) (k i : Nat) (T : Team) (t : Thread) (n : Nat) (v : DWord) : State :=
  match n with
  | 8 =>
    let clear := ~~~(v.extractLsb' 8 3)
    let t1 := { t.next with fpflags := v.extractLsb' 0 5 }
    let ops := s.teamOps k T
    if clear ≠ 0 ∧ ops ≠ [] then s.modThread k i fun _ => t1.wait (.flags ops clear)
    else (s.modThread k i fun _ => t1).modTeam k fun T => T.clearFlags clear
  | 9 => s.modThread k i fun _ => { t.next with resm := v.extractLsb' 0 4, pendPreds := tdel 8 t.pendPreds }
  | 12 => (s.modThread k i fun _ => t.next).writeThold T.ctx T.core (clipThold (v.setWidth 32))
  | 13 => s.modThread k i fun _ => { t.next with trapcause := (v.extractLsb' 0 26).setWidth 32 }
  | 14 => s.modThread k i fun _ => { t.next with trappc := v &&& ~~~3#64 }
  | 16 => s.modThread k i fun _ => { t.next with trapaddr := v }
  | 18 => s.modThread k i fun _ => { t.next with trapvec := v &&& ~~~3#64 }
  | _ => s.modThread k i fun _ => t.next

def execSwr (sr a : BitVec 7) (s : State) : Result :=
  .next (s.eachLane fun s i t =>
    match s.issuing? with
    | none => (s, none)
    | some T =>
      if srPrivileged sr.toNat && !privileged (s.ctx T.ctx) t then (s, some { cause := 0x04 })
      else
        let v := if srIsWide sr.toNat then t.gx a else (t.g a).setWidth 64
        (s.srWrite s.issue.team i T t sr.toNat v, none))

/-! ## Time counters and marks (R416) -/

def execRdcnt (d n : BitVec 7) (s : State) : Result :=
  .next (match s.issuing? with
  | none => s
  | some T => s.mapGx d fun _ => T.timers.toList.getD n.toNat 0)

def execTmark (code a : BitVec 7) (s : State) : Result :=
  .next (s.eachLane fun s i t =>
    match s.issuing? with
    | none => (s, none)
    | some T => ((s.tapTeam T 33 (t.g a).toNat code.toNat i T.slot).setThread i t.next, none))

/-! ## SLEEP and YIELD (R91, R92) -/

/-- SLEEP in one thread: a count of 0 completes at once, a set wake token is used up (R193). -/
def Thread.sleep (t : Thread) (n now : Nat) : Thread :=
  if n = 0 then t.next
  else if t.wake then { t.next with wake := false }
  else { t.next with status := .sleeping (now + min n 16777215), bundle := none }

def execSleep (a : BitVec 7) (s : State) : Result :=
  .next (s.onLanes fun _ _ t => .done (t.sleep (t.g a).toNat s.clock))

/-- The bundles of a context on a core that are READY, but one (R92). -/
def State.otherBundles (s : State) (x core : Nat) (own : Option Nat) : List Nat :=
  (s.teamsOf x).foldl (fun acc kt =>
    if kt.2.core = core ∧ kt.2.phase.isResident then
      kt.2.threads.foldl (fun acc t => match t.bundle with
        | some b => if t.status = .ready ∧ own ≠ some b then addNew acc [b] else acc
        | none => acc) acc
    else acc) []

def execYield (s : State) : Result :=
  .next (match s.issuing? with
  | none => s
  | some T => s.onLanes fun _ _ t =>
      .done { t.next with yielded := some (s.clock, s.otherBundles T.ctx T.core t.bundle) })

/-! ## LAUNCH and GWAIT (R120 to R122) -/

/-- The grid that a LAUNCH asks for, from the operands of one lane. -/
def launchGrid (T : Team) (depth : Nat) (kaddr : DWord) (q : BitVec 128) (after : List Nat) : Grid :=
  { ctx := T.ctx, gid := 0, depth := depth + 1, parent := some T.gid, queue := none, state := .queued
    x := (q.extractLsb' 64 32).toNat, y := (q.extractLsb' 112 16).toNat, z := (q.extractLsb' 96 16).toNat
    kaddr := kaddr, args := q.extractLsb' 0 64, after := after, die := dieOf T.core }

/-- LAUNCH starts one grid for the bundle, with the operands of its leader; every lane receives the identifier. It is a
release at package scope (R121): the child starts when the older requests of the bundle's threads have performed. -/
def execLaunch (d a b : BitVec 7) (s : State) : Result :=
  .next (match s.issuing?, leader? s.lanes with
  | some T, some (i, t) =>
    let depth := (s.srValue T i t 7).toNat
    if depth = 9 then s.onLanes fun _ _ _ => .trap { cause := 0x0D }
    else if 4096 ≤ s.childCount T.ctx then s.mapG d fun _ => 0
    else
      let older := (T.reqs.filter fun r => s.issue.tids.contains r.tid).map fun r => r.id
      let s := { s with mem := s.mem.flushFrom (dieOf T.core) }
      let r := s.newGrid (launchGrid T depth (t.gx a) (t.gq b) older)
      r.1.mapG d fun _ => r.2
  | _, _ => s)

/-- GWAIT: each lane returns the status of its grid, or waits for its end; its return is an acquire at package scope. -/
def execGwait (d a : BitVec 7) (s : State) : Result :=
  .next (s.eachLane fun s i t =>
    match s.issuing? with
    | none => (s, none)
    | some T =>
      match s.grid? T.ctx (t.g a) with
      | none => (s.setThread i (t.setG d 4).next, none)
      | some G =>
        if G.parent ≠ some T.gid then (s.setThread i (t.setG d 4).next, none)
        else if G.state.ended then
          (s.acquireSys.setThread i (t.setG d G.status).next, none)
        else (s.setThread i (t.wait (.grid (t.g a))), none))

end Sys2Proof.Machine
end

