-- ==== Sys2Proof/Machine/Fatal.lean ====
section
/-! DEFINITION. What a team-fatal error does (R87, R422, R423, R431), with the dump ring, the SUSPECT ring (R428), and the
state of a thread as telemetry names it (R419). -/

namespace Sys2Proof.Machine

/-- The code of a thread's state outside an issue (R419). -/
def Thread.stateCode (t : Thread) (inBin : Bool) : Nat :=
  match t.status with
  | .ready => if inBin then 5 else 1
  | .waiting _ => 2
  | .parked | .watching _ _ _ => 3
  | .sleeping _ => 4
  | .exited => 7

/-- The pc that telemetry reports for a thread (R419). -/
def Thread.reportedPc (t : Thread) : DWord :=
  match t.status with
  | .ready | .sleeping _ => t.pc
  | .waiting _ | .parked | .watching _ _ _ | .exited => t.lastPc

/-- The thread belongs to the bundle whose issue is under way. -/
def State.atIssue (s : State) (k i : Nat) : Bool :=
  s.issue.stage != .idle && s.issue.team == k && s.issue.tids.contains i

/-- What telemetry tells of a thread: the code of its state and its pc (R419). A pc inside a LIT group is that of the first LIT. -/
def State.told (s : State) (k i : Nat) (t : Thread) (inBin : Bool) : Nat × DWord :=
  if s.atIssue k i then
    (if s.issue.stage = .issued then 0 else 6, t.lastPc)
  else if t.fetching then (6, t.pc)
  else (t.stateCode inBin, t.reportedPc)

/-- A thread that waits in a bin. -/
def State.inBin (s : State) (k i : Nat) (T : Team) : Bool :=
  (s.core T.core).bins.any fun b => b.team == k && b.tids.any fun x => x.1 == i

/-! ## Record rings in host-reserved memory (R425) -/

/-- A ring takes a record: its base is set, its length lies in its range, it has room. -/
def ringTakes (base : DWord) (log2 lo hi : Nat) (widx ridx : DWord) : Bool :=
  base != 0 && decide (lo ≤ log2) && decide (log2 ≤ hi) && decide ((widx - ridx).toNat < 2 ^ log2)

/-- A drop counter that saturates at 255. -/
def satDrop (n : BitVec 8) : BitVec 8 := if n = 255 then n else n + 1

/-- One SUSPECT record (R428). -/
def State.suspect (s : State) (ctx kind core : Nat) (grid : Word) (lastpass : Nat) : State :=
  let g := s.regs
  if ringTakes g.susBase g.susLog2.toNat 6 16 g.susWidx g.susRidx then
    let s1 := s.report (g.susBase.toNat + 32 * (g.susWidx.toNat % 2 ^ g.susLog2.toNat))
      (toBytes 2 ctx ++ toBytes 1 kind ++ toBytes 1 core ++ toBytes 4 grid.toNat ++ toBytes 8 lastpass ++
        toBytes 8 s.clock ++ toBytes 8 0)
    let s2 := s1.modRegs fun g => { g with susWidx := g.susWidx + 1 }
    if g.susWidx = g.susRidx then s2.raisePf g.susVector else s2
  else s.modRegs fun g => { g with susDrops := satDrop g.susDrops }

/-! ## Fatal dumps (R431) -/

/-- The entry of a thread in a dump. -/
def dumpEntry (T : Team) (i : Nat) (t : Thread) (told : Nat × DWord) : List Byte :=
  toBytes 2 i ++ toBytes 1 told.1 ++ toBytes 1 t.preds.toNat ++ toBytes 4 t.wb ++
    toBytes 8 told.2.toNat ++ toBytes 8 t.trapaddr.toNat ++ toBytes 4 t.trapcause.toNat ++
    toBytes 4 (fpflagsOf T t).toNat ++
    ((List.range 8).flatMap fun j =>
      toBytes 4 (if (tget? (t.wb + j) t.parity).isSome then 0xFFFFFFFF else (t.at (t.wb + j)).toNat))

/-- The 4 KiB of a dump. -/
def State.dumpBytes (s : State) (k i : Nat) (T : Team) (cause : BitVec 8) (detail : DWord) (n : Nat) : List Byte :=
  let others := (List.range T.threads.length).filter fun j => j != i && (match T.threads[j]? with
    | some t => t.status != .exited
    | none => false)
  let who := (i :: others).take 63
  let entries := who.flatMap fun j => match T.threads[j]? with
    | some t => dumpEntry T j t (s.told k j t (s.inBin k j T))
    | none => []
  let pc : DWord := match T.threads[i]? with
    | some t => t.trappc
    | none => 0
  let b := toBytes 4 n ++ toBytes 1 cause.toNat ++ toBytes 1 (dieOf T.core) ++ toBytes 2 who.length ++ toBytes 2 T.ctx ++
    toBytes 2 0 ++ toBytes 4 T.gid.toNat ++ toBytes 4 T.index ++ toBytes 4 i ++ toBytes 8 s.clock ++
    toBytes 8 detail.toNat ++ toBytes 8 pc.toNat ++ List.replicate 16 0 ++ entries
  b ++ List.replicate (4096 - b.length) 0

/-- Writes a dump, or counts a drop. -/
def State.dump (s : State) (k i : Nat) (T : Team) (cause : BitVec 8) (detail : DWord) : State :=
  let g := s.regs
  if ringTakes g.dumpBase g.dumpLog2.toNat 4 12 g.dumpWidx g.dumpRidx then
    let s1 := s.report (g.dumpBase.toNat + 4096 * (g.dumpWidx.toNat % 2 ^ g.dumpLog2.toNat))
      (s.dumpBytes k i T cause detail g.dumpWidx.toNat)
    let s2 := s1.modRegs fun g => { g with dumpWidx := g.dumpWidx + 1 }
    if g.dumpWidx = g.dumpRidx then s2.raisePf g.dumpVector else s2
  else s.modRegs fun g => { g with dumpDrops := satDrop g.dumpDrops }

/-- A thread's team meets a cause 0x80 to 0x82 at an instruction: the trap registers, the dump, and the end of an unhandled
trap (R87, R431). -/
def State.fatal (s : State) (k i : Nat) (cause : BitVec 8) (pc addr detail : DWord) : State :=
  match s.team? k, s.thread? k i with
  | some T, some t =>
    let t1 := t.recordTrap cause 0 pc addr
    let s := s.modThread k i fun _ => t1
    let T1 := T.modThread i fun _ => t1
    (s.dump k i T1 cause detail).unhandled k i T t1 cause
  | _, _ => s

end Sys2Proof.Machine
end

