-- ==== Sys2Proof/Machine/Flags.lean ====
section
/-! DEFINITION. Floating-point values, formats, rounding and the five flags (R27 to R33, R46, R151, R157), exact throughout:
a value is a sign, a natural number and a power of two, and every result is rounded once. -/

namespace Sys2Proof.Machine

/-! ## Flags (R31, R84): NV, DZ, OF, UF, NX from bit 0 -/

abbrev Flags := BitVec 5
def flagNV : Flags := 1
def flagDZ : Flags := 2
def flagOF : Flags := 4
def flagUF : Flags := 8
def flagNX : Flags := 16
def flagIf (b : Bool) (f : Flags) : Flags := if b then f else 0

/-! ## Formats (R27, R28) -/

/-- A floating-point format: exponent and mantissa widths, bias, the largest finite code, whether the top exponent holds
infinity and NaN, whether a finite result beyond the largest saturates (R33), and the canonical NaN. -/
structure FFmt where
  eb : Nat
  mb : Nat
  bias : Nat
  maxCode : Nat
  ieee : Bool
  saturates : Bool
  nan : Option Nat
  deriving DecidableEq, Repr

def fp32 : FFmt := ⟨8, 23, 127, 0x7F7FFFFF, true, false, some 0x7FC00000⟩
def fp16 : FFmt := ⟨5, 10, 15, 0x7BFF, true, false, some 0x7E00⟩
def bf16 : FFmt := ⟨8, 7, 127, 0x7F7F, true, false, some 0x7FC0⟩
def e4m3 : FFmt := ⟨4, 3, 7, 0x7E, false, true, some 0x7F⟩
def e5m2 : FFmt := ⟨5, 2, 15, 0x7B, true, true, some 0x7E⟩
def e3m2 : FFmt := ⟨3, 2, 3, 0x1F, false, true, none⟩
def e2m3 : FFmt := ⟨2, 3, 1, 0x1F, false, true, none⟩

/-- The weight of the sign bit. -/
def FFmt.signBit (F : FFmt) : Nat := 2 ^ (F.eb + F.mb)
/-- The exponent of the last place of subnormals. -/
def FFmt.qmin (F : FFmt) : Int := 1 - (F.bias : Int) - F.mb

/-! ## Values -/

/-- A value: NaN (signalling or not), an infinity, or (-1)^neg * m * 2^e exactly. -/
inductive Fp where
  | nan (signalling : Bool)
  | inf (neg : Bool)
  | fin (neg : Bool) (m : Nat) (e : Int)
  deriving DecidableEq, Repr

def Fp.isNan : Fp → Bool
  | .nan _ => true
  | .inf _ | .fin _ _ _ => false
/-- A signalling NaN. -/
def Fp.snan : Fp → Bool
  | .nan b => b
  | .inf _ | .fin _ _ _ => false
def Fp.isZero : Fp → Bool
  | .fin _ m _ => m == 0
  | .inf _ | .nan _ => false
def Fp.negate : Fp → Fp
  | .nan b => .nan b
  | .inf s => .inf !s
  | .fin s m e => .fin (!s) m e

/-- The value of a code (R27, R28). -/
def FFmt.decode (F : FFmt) (c : Nat) : Fp :=
  let neg := decide (c / F.signBit % 2 = 1)
  let e := c / 2 ^ F.mb % 2 ^ F.eb
  let m := c % 2 ^ F.mb
  if F.ieee && e == 2 ^ F.eb - 1 then
    if m = 0 then .inf neg else .nan (m / 2 ^ (F.mb - 1) == 0)
  else if !F.ieee && F.nan == some (c % F.signBit) then .nan false
  else if e = 0 then .fin neg m F.qmin
  else .fin neg (2 ^ F.mb + m) (F.qmin + (e : Int) - 1)

/-! ## Rounding (R30, R33, R46) -/

/-- Number of bits of a natural number. -/
def bitLen (m : Nat) : Nat := if m = 0 then 0 else m.log2 + 1

/-- Drops k low bits of m, to which a nonzero tail below the last bit may belong, in a rounding mode: the kept number and
whether it differs from the value. -/
def roundAt (rm : RMode) (neg : Bool) (m : Nat) (tail : Bool) (k : Nat) : Nat × Bool :=
  let kept := m / 2 ^ k
  let rest := m % 2 ^ k
  let inexact := decide (rest ≠ 0) || tail
  let up := match rm with
    | .rn => k != 0 && (decide (2 ^ k < 2 * rest) || (2 * rest == 2 ^ k && (tail || kept % 2 == 1)))
    | .rz => false
    | .rd => neg && inexact
    | .ru => !neg && inexact
  (if up then kept + 1 else kept, inexact)

/-- The code of the largest finite value or of infinity, after an overflow in a mode (R33). -/
def FFmt.overflow (F : FFmt) (rm : RMode) (neg : Bool) : Nat :=
  let toInf := match rm with
    | .rn => true
    | .rz => false
    | .rd => neg
    | .ru => !neg
  (if neg then F.signBit else 0) + (if toInf && !F.saturates then F.maxCode + 1 else F.maxCode)

/-- Rounds (-1)^neg * m * 2^e, with or without a tail, into a format: the code and the flags. Tininess is detected after
rounding (R31). -/
def FFmt.round (F : FFmt) (rm : RMode) (neg : Bool) (m : Nat) (e : Int) (tail : Bool) : Nat × Flags :=
  let s := if neg then F.signBit else 0
  if m = 0 ∧ !tail then (s, 0)
  else
    let top : Int := bitLen m + e
    let q : Int := max (top - (F.mb + 1)) F.qmin
    let r := if q ≤ e then (m * 2 ^ (e - q).toNat, tail) else roundAt rm neg m tail (q - e).toNat
    let code := (q - F.qmin).toNat * 2 ^ F.mb + r.1
    let emin : Int := 1 - F.bias
    let p := F.mb + 1
    let tiny := decide (top < emin) ||
      (top == emin && decide ((if bitLen m ≤ p then m * 2 ^ (p - bitLen m)
        else (roundAt rm neg m tail (bitLen m - p)).1) < 2 ^ p))
    if F.maxCode < code then (F.overflow rm neg, flagOF ||| flagNX)
    else (s + code, flagIf r.2 flagNX ||| flagIf (r.2 && tiny) flagUF)

/-- A value in a format (R28, R33), with NV where the operation that gave it was invalid. -/
def FFmt.pack (F : FFmt) (rm : RMode) (v : Fp) (nv : Bool) : Nat × Flags :=
  match v with
  | .nan _ =>
    match F.nan with
    | some c => (c, flagIf nv flagNV)
    | none => (0, flagNV)
  | .inf neg =>
    let s := if neg then F.signBit else 0
    if F.ieee then (s + (2 ^ F.eb - 1) * 2 ^ F.mb, flagIf nv flagNV) else (s + F.maxCode, flagNX ||| flagIf nv flagNV)
  | .fin neg m e =>
    let r := F.round rm neg m e false
    (r.1, r.2 ||| flagIf nv flagNV)

/-- Conversion of a value into a format (R33): NV if the input was a signalling NaN. -/
def FFmt.convert (F : FFmt) (rm : RMode) (v : Fp) : Nat × Flags := F.pack rm v v.snan

/-! ## Exact addition and multiplication -/

/-- The exact sum, and whether it is an invalid operation; an exact zero sum takes the common sign, or -0 in RD only. -/
def fpAdd (rm : RMode) (x y : Fp) : Fp × Bool :=
  match x, y with
  | .nan a, .nan b => (.nan false, a || b)
  | .nan a, .inf _ | .nan a, .fin _ _ _ => (.nan false, a)
  | .inf _, .nan b | .fin _ _ _, .nan b => (.nan false, b)
  | .inf a, .inf b => if a = b then (.inf a, false) else (.nan false, true)
  | .inf a, .fin _ _ _ => (.inf a, false)
  | .fin _ _ _, .inf b => (.inf b, false)
  | .fin sa ma ea, .fin sb mb eb =>
    let e := min ea eb
    let va : Int := (if sa then -1 else 1) * (ma * 2 ^ (ea - e).toNat : Nat)
    let vb : Int := (if sb then -1 else 1) * (mb * 2 ^ (eb - e).toNat : Nat)
    let v := va + vb
    if v = 0 then (.fin (if sa = sb then sa else rm == .rd) 0 e, false) else (.fin (decide (v < 0)) v.natAbs e, false)

/-- The exact product, and whether it is invalid. -/
def fpMul (x y : Fp) : Fp × Bool :=
  match x, y with
  | .nan a, .nan b => (.nan false, a || b)
  | .nan a, .inf _ | .nan a, .fin _ _ _ => (.nan false, a)
  | .inf _, .nan b | .fin _ _ _, .nan b => (.nan false, b)
  | .inf a, .inf b => (.inf (Bool.xor a b), false)
  | .inf a, .fin b m _ => if m = 0 then (.nan false, true) else (.inf (Bool.xor a b), false)
  | .fin a m _, .inf b => if m = 0 then (.nan false, true) else (.inf (Bool.xor a b), false)
  | .fin a m e, .fin b n f => (.fin (Bool.xor a b) (m * n) (e + f), false)

/-- The exact x * y + z, and whether it is invalid (R154). -/
def fpFma (rm : RMode) (x y z : Fp) : Fp × Bool :=
  let p := fpMul x y
  let r := fpAdd rm p.1 z
  (r.1, p.2 || r.2)

/-! ## FP32 operations on register words -/

def f32 (w : Word) : Fp := fp32.decode w.toNat
/-- A result with its flags. -/
abbrev FRes := Word × Flags

def resultOf (r : Nat × Flags) : FRes := (BitVec.ofNat 32 r.1, r.2)
def packF (rm : RMode) (r : Fp × Bool) : FRes := resultOf (fp32.pack rm r.1 r.2)

def f32Add (rm : RMode) (x y : Word) : FRes := packF rm (fpAdd rm (f32 x) (f32 y))
def f32Sub (rm : RMode) (x y : Word) : FRes := packF rm (fpAdd rm (f32 x) (f32 y).negate)
def f32Mul (rm : RMode) (x y : Word) : FRes := packF rm (fpMul (f32 x) (f32 y))
def f32Fma (rm : RMode) (x y z : Word) : FRes := packF rm (fpFma rm (f32 x) (f32 y) (f32 z))

/-- Clears the sign bit, then inverts it, as the operand marks say (R154). -/
def signMarks (abs neg : Bool) (x : Word) : Word :=
  let y := if abs then x &&& 0x7FFFFFFF else x
  if neg then y ^^^ 0x80000000 else y

/-! ## Minimum, maximum and comparison (R155, R156) -/

/-- Rank of a code that is no NaN: -0 before +0. -/
def FFmt.rank (F : FFmt) (c : Nat) : Int :=
  if F.signBit ≤ c then -1 - ((c - F.signBit : Nat) : Int) else c
/-- minimumNumber or maximumNumber of two codes, and its flags. -/
def FFmt.extreme (F : FFmt) (greatest : Bool) (x y : Nat) : Nat × Flags :=
  let a := F.decode x
  let b := F.decode y
  let f := flagIf (a.snan || b.snan) flagNV
  if a.isNan && b.isNan then (F.nan.getD 0, f)
  else if a.isNan then (y, f)
  else if b.isNan then (x, f)
  else if greatest then (if F.rank y ≤ F.rank x then x else y, f)
  else (if F.rank x ≤ F.rank y then x else y, f)

/-- The value order of two FP32 words that are no NaN: the zeros are equal. -/
def valueRank (w : Word) : Int := if w.msb then -((w &&& 0x7FFFFFFF).toNat : Int) else w.toNat

/-- FSET (R156): the predicate and the flags. -/
def fcompare (c : FCond) (x y : Word) : Bool × Flags :=
  let a := f32 x
  let b := f32 y
  let un := a.isNan || b.isNan
  let s := a.snan || b.snan
  let lt := decide (valueRank x < valueRank y)
  let eq := valueRank x == valueRank y
  match c with
  | .eq => (!un && eq, flagIf s flagNV)
  | .ne => (!un && !eq, flagIf s flagNV)
  | .lt => (!un && lt, flagIf (s || un) flagNV)
  | .le => (!un && (lt || eq), flagIf (s || un) flagNV)
  | .gt => (!un && !(lt || eq), flagIf (s || un) flagNV)
  | .ge => (!un && !lt, flagIf (s || un) flagNV)
  | .neu => (un || !eq, flagIf s flagNV)
  | .un => (un, flagIf s flagNV)
  | .ord => (!un, flagIf s flagNV)

/-! ## Functions (R157): the exact value, rounded once -/

/-- Integer square root by bits: the largest r with r * r ≤ m that extends r0 in its low n bits. -/
def isqrt (m : Nat) : Nat → Nat → Nat
  | 0, r => r
  | n + 1, r => if (r + 2 ^ n) * (r + 2 ^ n) ≤ m then isqrt m n (r + 2 ^ n) else isqrt m n r

/-- A value (-1)^neg * m * 2^e, or with a tail one between m and m + 1. -/
structure Approx where
  neg : Bool := false
  m : Nat
  e : Int
  tail : Bool
  deriving DecidableEq, Repr

def Approx.pack (a : Approx) : FRes := resultOf (fp32.round .rn a.neg a.m a.e a.tail)

/-- 1 / (m * 2^e). -/
def approxRcp (neg : Bool) (m : Nat) (e : Int) : Approx :=
  { neg := neg, m := 2 ^ 80 / m, e := -e - 80, tail := decide (2 ^ 80 % m ≠ 0) }
/-- The root of m * 2^e: the exponent is made even. -/
def approxSqrt (m : Nat) (e : Int) : Approx :=
  let k : Nat := if e % 2 = 0 then 80 else 81
  let n := m * 2 ^ k
  let r := isqrt n 60 0
  { m := r, e := (e - k) / 2, tail := decide (r * r ≠ n) }
/-- 1 / the root of m * 2^e. -/
def approxRsq (m : Nat) (e : Int) : Approx :=
  let k : Nat := if e % 2 = 0 then 120 else 121
  let r := isqrt (2 ^ k / m) 62 0
  { m := r, e := (-e - k) / 2, tail := decide (r * r * m ≠ 2 ^ k) }

/-- Places of the fixed-point numbers in which the other functions are summed (log 12). -/
def fxBits : Nat := 240
/-- pi and the natural logarithm of 2, with fxBits places. -/
def fxPi : Nat := 0x3243f6a8885a308d313198a2e03707344a4093822299f31d0082efa98ec4e
def fxLn2 : Nat := 0xb17217f7d1cf79abc9e3b39803f2f6af40f343267298b62d8a0d175b8baa
def fxMul (a b : Nat) : Nat := a * b / 2 ^ fxBits

/-- The sum of the exponential series from term k on, which is t. -/
def fxExp (y : Nat) : Nat → Nat → Nat → Nat → Nat
  | 0, _, _, acc => acc
  | n + 1, k, t, acc => fxExp y n (k + 1) (fxMul t y / (k + 1)) (acc + t)
/-- The sum of the series of atanh from power k on, which is p. -/
def fxAtanh (z2 : Nat) : Nat → Nat → Nat → Nat → Nat
  | 0, _, _, acc => acc
  | n + 1, k, p, acc => fxAtanh z2 n (k + 2) (fxMul p z2) (acc + p / k)
/-- The alternating series of sine (k = 1) or cosine (k = 0), two terms at a time. -/
def fxTrig (y2 : Nat) : Nat → Nat → Nat → Nat → Nat
  | 0, _, _, acc => acc
  | n + 1, k, t, acc =>
    let u := fxMul t y2 / ((k + 1) * (k + 2))
    fxTrig y2 n (k + 4) (fxMul u y2 / ((k + 3) * (k + 4))) (acc + t - u)

/-- A fixed-point number that is not exact: its last 24 places are not used. -/
def ofFx (neg : Bool) (v : Nat) (e : Int) : Approx := { neg := neg, m := v / 2 ^ 24, e := e + 24 - fxBits, tail := true }

/-- m * 2^e as a fixed-point number. -/
def toFx (m : Nat) (e : Int) : Nat :=
  let s := e + fxBits
  if 0 ≤ s then m * 2 ^ s.toNat else m / 2 ^ (-s).toNat

/-- 2^x for x = (-1)^neg * m * 2^e, |x| at most 150 and not an integer. -/
def approxExp2 (neg : Bool) (m : Nat) (e : Int) : Approx :=
  let v : Int := if neg then -(toFx m e : Int) else toFx m e
  let n := v / 2 ^ fxBits
  let f := (v % 2 ^ fxBits).toNat
  ofFx false (fxExp (fxMul f fxLn2) 60 0 (2 ^ fxBits) 0) n

/-- log2 of m * 2^e, not a power of two. -/
def approxLog2 (m : Nat) (e : Int) : Approx :=
  let n : Int := m.log2 + e
  let y := toFx m (-(m.log2 : Int))
  let z := (y - 2 ^ fxBits) * 2 ^ fxBits / (y + 2 ^ fxBits)
  let ln := 2 * fxAtanh (fxMul z z) 80 1 z 0
  let v : Int := n * 2 ^ fxBits + (ln * 2 ^ fxBits / fxLn2 : Nat)
  ofFx (decide (v < 0)) v.natAbs 0

/-- Sine and cosine of pi * t for a fixed-point t in [0, 1/4]. -/
def fxSinPi (t : Nat) : Nat :=
  let y := fxMul t fxPi
  fxTrig (fxMul y y) 20 1 y 0
def fxCosPi (t : Nat) : Nat :=
  let y := fxMul t fxPi
  fxTrig (fxMul y y) 20 0 (2 ^ fxBits) 0

def fxOne : Nat := 2 ^ fxBits
def fxHalf : Nat := 2 ^ (fxBits - 1)
def fxQuarter : Nat := 2 ^ (fxBits - 2)

/-- The same for t in [0, 1/2]. -/
def fxSinHalf (t : Nat) : Nat := if t ≤ fxQuarter then fxSinPi t else fxCosPi (fxHalf - t)
def fxCosHalf (t : Nat) : Nat := if t ≤ fxQuarter then fxCosPi t else fxSinPi (fxHalf - t)

/-- sin(pi * x) for |x| = m * 2^e, exact where x is a multiple of 1/2. -/
def sinPi (neg : Bool) (m : Nat) (e : Int) : FRes :=
  let t := toFx m e % (2 * fxOne)
  let s := Bool.xor neg (decide (fxOne ≤ t))
  let u := t % fxOne
  if u = 0 then (if neg then 0x80000000 else 0, 0)
  else if u = fxHalf then (if s then 0xBF800000 else 0x3F800000, 0)
  else (ofFx s (fxSinHalf (if fxHalf < u then fxOne - u else u)) 0).pack
/-- cos(pi * x) for |x| = m * 2^e, exact where x is a multiple of 1/2. -/
def cosPi (m : Nat) (e : Int) : FRes :=
  let t := toFx m e % (2 * fxOne)
  let u := if fxOne < t then 2 * fxOne - t else t
  if u = 0 then (0x3F800000, 0)
  else if u = fxOne then (0xBF800000, 0)
  else if u = fxHalf then (0, 0)
  else if fxHalf < u then (ofFx true (fxCosHalf (fxOne - u)) 0).pack
  else (ofFx false (fxCosHalf u) 0).pack

def canonNan : Word := 0x7FC00000
/-- An invalid operation. -/
def invalid : FRes := (canonNan, flagNV)
def infWord (neg : Bool) : Word := if neg then 0xFF800000 else 0x7F800000
def zeroWord (neg : Bool) : Word := if neg then 0x80000000 else 0

def f32Rcp (x : Word) : FRes :=
  match f32 x with
  | .nan b => (canonNan, flagIf b flagNV)
  | .inf s => (zeroWord s, 0)
  | .fin s m e => if m = 0 then (infWord s, flagDZ) else (approxRcp s m e).pack
def f32Rsq (x : Word) : FRes :=
  match f32 x with
  | .nan b => (canonNan, flagIf b flagNV)
  | .inf s => if s then invalid else (0, 0)
  | .fin s m e => if m = 0 then (infWord s, flagDZ) else if s then invalid else (approxRsq m e).pack
def f32Sqrt (x : Word) : FRes :=
  match f32 x with
  | .nan b => (canonNan, flagIf b flagNV)
  | .inf s => if s then invalid else (infWord false, 0)
  | .fin s m e => if m = 0 then (x, 0) else if s then invalid else (approxSqrt m e).pack
def f32Exp2 (x : Word) : FRes :=
  match f32 x with
  | .nan b => (canonNan, flagIf b flagNV)
  | .inf s => if s then (0, 0) else (infWord false, 0)
  | .fin s m e =>
    if m = 0 then (0x3F800000, 0)
    else if 0x43000000 ≤ (x &&& 0x7FFFFFFF).toNat ∧ !s then (infWord false, flagOF ||| flagNX)
    else if 0x43160000 < (x &&& 0x7FFFFFFF).toNat ∧ s then (0, flagUF ||| flagNX)
    else if 0 ≤ e then
      let n : Int := (if s then -1 else 1) * (m * 2 ^ e.toNat : Nat)
      ({ m := 1, e := n, tail := false } : Approx).pack
    else if m % 2 ^ (-e).toNat = 0 then
      let n : Int := (if s then -1 else 1) * (m / 2 ^ (-e).toNat : Nat)
      ({ m := 1, e := n, tail := false } : Approx).pack
    else (approxExp2 s m e).pack
def f32Log2 (x : Word) : FRes :=
  match f32 x with
  | .nan b => (canonNan, flagIf b flagNV)
  | .inf s => if s then invalid else (infWord false, 0)
  | .fin s m e =>
    if m = 0 then (infWord true, flagDZ)
    else if s then invalid
    else if m = 2 ^ m.log2 then
      let n : Int := m.log2 + e
      resultOf (fp32.round .rn (decide (n < 0)) n.natAbs 0 false)
    else (approxLog2 m e).pack
def f32Sinpi (x : Word) : FRes :=
  match f32 x with
  | .nan b => (canonNan, flagIf b flagNV)
  | .inf _ => invalid
  | .fin s m e => if m = 0 then (x, 0) else sinPi s m e
def f32Cospi (x : Word) : FRes :=
  match f32 x with
  | .nan b => (canonNan, flagIf b flagNV)
  | .inf _ => invalid
  | .fin _ m e => if m = 0 then (0x3F800000, 0) else cosPi m e

/-- Rounds to an integral value (R158). -/
def f32Rnd (rm : RMode) (x : Word) : FRes :=
  match f32 x with
  | .nan b => (canonNan, flagIf b flagNV)
  | .inf _ => (x, 0)
  | .fin s m e =>
    if 0 ≤ e ∨ m = 0 then (x, 0)
    else (BitVec.ofNat 32 (fp32.round .rn s (roundAt rm s m false (-e).toNat).1 0 false).1, 0)

/-! ## Conversions (R159, R160) -/

/-- An integer as FP32. -/
def intToF32 (rm : RMode) (v : Int) : FRes := resultOf (fp32.round rm (decide (v < 0)) v.natAbs 0 false)

/-- FP32 to an integer in [lo, hi] (R160). -/
def f32ToInt (rm : RMode) (lo hi : Int) (x : Word) : Int × Flags :=
  match f32 x with
  | .nan _ => (0, flagNV)
  | .inf s => (if s then lo else hi, flagNV)
  | .fin s m e =>
    let r := if 0 ≤ e then (m * 2 ^ e.toNat, false) else roundAt rm s m false (-e).toNat
    let v : Int := if s then -(r.1 : Int) else r.1
    if v < lo then (lo, flagNV) else if hi < v then (hi, flagNV) else (v, flagIf r.2 flagNX)

/-! ## Scales (R41, R166, R167) -/

/-- Exponent of a target's largest value. -/
def scaleEmax : ScaleT → Int
  | .e4m3 => 8
  | .e5m2 => 15
  | .e3m2 => 4
  | .e2m3 => 2
  | .exp => 0
/-- The E8M0 scale of a magnitude. -/
def scaleOf (x : Word) (t : ScaleT) : Word :=
  match f32 x with
  | .nan _ | .inf _ => 0xFF
  | .fin _ m e =>
    if m = 0 then 127
    else
      let E : Int := m.log2 + e
      BitVec.ofInt 32 (min (max (E - scaleEmax t + 127) 0) 254)
/-- A value times the scale of a byte, rounded once (R167). -/
def scaleApply (x y : Word) : FRes :=
  let e := y.toNat % 256
  if e = 255 then invalid
  else
    match f32 x with
    | .nan b => (canonNan, flagIf b flagNV)
    | .inf s => (infWord s, 0)
    | .fin s m f => resultOf (fp32.round .rn s m (f + e - 127) false)

/-! ## Paired halves (R165) -/

/-- Applies an operation on 16-bit codes to both halves; the flags are those of both. -/
def halves (f : Nat → Nat → Nat → Nat × Flags) (x y z : Word) : FRes :=
  let lo := f (x.toNat % 65536) (y.toNat % 65536) (z.toNat % 65536)
  let hi := f (x.toNat / 65536) (y.toNat / 65536) (z.toNat / 65536)
  (BitVec.ofNat 32 (hi.1 * 65536 + lo.1), hi.2 ||| lo.2)

def halfAdd (F : FFmt) (x y _z : Nat) : Nat × Flags :=
  let r := fpAdd .rn (F.decode x) (F.decode y)
  F.pack .rn r.1 r.2
def halfMul (F : FFmt) (x y _z : Nat) : Nat × Flags :=
  let r := fpMul (F.decode x) (F.decode y)
  F.pack .rn r.1 r.2
def halfFma (F : FFmt) (x y z : Nat) : Nat × Flags :=
  let r := fpFma .rn (F.decode x) (F.decode y) (F.decode z)
  F.pack .rn r.1 r.2
def halfExtreme (greatest : Bool) (x y _z : Nat) : Nat × Flags := bf16.extreme greatest x y

end Sys2Proof.Machine
end

