-- ==== Sys2Proof/Machine/Llc.lean ====
section
/-! DEFINITION. The lines that the LLC slices hold (R14, R248, R444). A line held changes no value and no order (log 70). -/

namespace Sys2Proof.Machine

/-- Lines of a slice: 48 MiB of a die in 32 slices (R12, R14). -/
def linesPerSlice : Nat := 12288

/-- The lines of a slice. -/
def State.slice (s : State) (n : Nat) : List LlcLine := tget [] n s.llc

/-- An access to the address hits in the LLC. -/
def State.llcHit (s : State) (pa : Nat) : Bool := (s.slice (sliceOf pa)).any fun l => l.line == lineOf pa

/-- The priority that a hint gives a line, none where it leaves it as it is (R248). -/
def hintPrio (hint : BitVec 3) : Option Nat := if hint = 1 then some 0 else if hint = 2 then some 2 else none

/-- A full slice gives up, of its lines with the lowest priority, the one allocated longest ago (log 70). -/
def evictLine (l : List LlcLine) : List LlcLine :=
  let least := l.foldl (fun m x => min m x.prio) 2
  l.eraseP fun x => x.prio == least

/-- An access brings its line into a slice: that line only (R444). -/
def allocLine (l : List LlcLine) (line : Nat) (prio : Option Nat) : List LlcLine :=
  if l.any fun x => x.line == line then
    match prio with
    | some p => l.map fun x => if x.line == line then { x with prio := p } else x
    | none => l
  else (if l.length < linesPerSlice then l else evictLine l) ++ [{ line := line, prio := prio.getD 1 }]

/-- An access at the home slice of an HBM line (R444). -/
def State.touchLlc (s : State) (pa : Nat) (hint : BitVec 3) : State :=
  if inHbm pa then { s with llc := tput (sliceOf pa) (allocLine (s.slice (sliceOf pa)) (lineOf pa) (hintPrio hint)) s.llc } else s

/-- The accesses of an agent to every line of [pa, pa + n), with default placement. -/
def State.touchLines (s : State) (pa n : Nat) : State :=
  if n = 0 then s
  else (List.range (lineOf (pa + n - 1) + 1 - lineOf pa)).foldl (fun s i => s.touchLlc ((lineOf pa + i) * 128) 0) s

/-- Single-bit errors in a range of HBM that is read are corrected, each with its Yarrow event (R405). -/
def State.correct (s : State) (pa n : Nat) : State :=
  let hit (w : Nat) : Bool := decide (pa < 8 * w + 8) && decide (8 * w < pa + n)
  if !(s.softWords.any hit) then s
  else
    (s.softWords.filter hit).foldl (fun s w =>
      s.tap (homeDie pa) { source := 23, ctx := 0, core := noCore, clock := s.clock, p0 := 5, p1 := BitVec.ofNat 32 (w / 8192) })
      { s with softWords := s.softWords.filter fun w => !hit w }

/-- The lines of a physical range leave the LLC (R273, R444). -/
def State.dropLlc (s : State) (pa len : Nat) : State :=
  { s with llc := s.llc.map fun x =>
      (x.1, x.2.filter fun l => !(decide (pa ≤ l.line * 128) && decide (l.line * 128 < pa + len))) }

end Sys2Proof.Machine
end

