-- ==== Sys2Proof/Machine/Translate.lean ====
section
/-! DEFINITION. Addresses, page tables, walks, cached translations, page requests, and the check that every access meets
at issue (R240, R241, R259 to R265, R271, R275, R334, R348). -/

namespace Sys2Proof.Machine

/-! ## Page-table entries (R261) -/

def pteV (e : DWord) : Bool := e.getLsbD 0
def pteLeaf (e : DWord) : Bool := e.getLsbD 1
def pteR (e : DWord) : Bool := e.getLsbD 2
def pteW (e : DWord) : Bool := e.getLsbD 3
def pteX (e : DWord) : Bool := e.getLsbD 4
/-- 0 ABSENT, 1 RESIDENT, 2 MIGRATING, 3 EVAC; above 3 reserved. -/
def pteSt (e : DWord) : Nat := (e.extractLsb' 60 4).toNat
def pteMreg (e : DWord) : BitVec 4 := e.extractLsb' 56 4
def pteAddr (e : DWord) : Nat := (e.extractLsb' 8 44).toNat * 256
/-- No reserved bit is set. -/
def pteClean (e : DWord) : Bool := e.extractLsb' 52 4 == 0 && e.extractLsb' 5 3 == 0

/-- The frame is clean for the context (R265). -/
def FState.cleanFor (x : Nat) : FState → Bool
  | .assigned c => c == x && x != 0
  | .shared => true
  | .scrubbing | .freeClean => false

/-- Every 64 KiB frame of an HBM range is clean for the context; other memory has no frames. -/
def State.cleanRange (s : State) (x pa size : Nat) : Bool :=
  if inHbm pa then (List.range (size / 2 ^ 16)).all fun i => (s.frame (pa / 2 ^ 16 + i)).cleanFor x else true

/-- The address lies in a reserved physical region (R259). -/
def reservedPa (pa : Nat) : Bool := !(inHbm pa || inNode pa || inHost pa)

/-- A frame takes a state. -/
def State.setFrame (s : State) (f : Nat) (x : FState) : State := { s with frames := tput f x s.frames }.reportFrame f

/-- A table may lie at the address (R262): a frame of context 0, or host memory. -/
def State.tableOk (s : State) (pa : Nat) : Bool :=
  if inHbm pa then s.frame (pa / 2 ^ 16) == .assigned 0 else inHost pa

/-! ## Walks (R260, R262, R263, R275) -/

/-- One level of the table: the shift and width of its index, the page size of a leaf there (0: no leaf), whether every
entry is a leaf, and the alignment of the next table. -/
structure Level where
  shift : Nat
  bits : Nat
  page : Nat
  last : Bool
  next : Nat
  deriving DecidableEq, Repr

def levels : List Level :=
  [⟨48, 9, 0, false, 4096⟩, ⟨39, 9, 0, false, 4096⟩, ⟨30, 9, 2 ^ 30, false, 4096⟩, ⟨21, 9, 2 ^ 21, false, 256⟩,
    ⟨16, 5, 2 ^ 16, true, 256⟩]

/-- How a walk ends. -/
inductive WalkEnd where
  | leaf (e : TlbEntry)
  /-- UNMAPPED or ACCESS -/
  | refused (cause : BitVec 8)
  /-- PTE_POISON: the 4 KiB block, and the word whose error has just been found, if any -/
  | poisoned (block : Nat) (found : Bool)
  deriving DecidableEq, Repr

/-- Walks the levels that remain, from a table base (R260, R262). Each entry is read at its home (R263). -/
def State.walkFrom (s : State) (x : Nat) (va : Nat) : List Level → Nat → List Nat → WalkEnd
  | [], _, _ => .refused 0x07
  | l :: r, table, path =>
    let ea := table + 8 * (va / 2 ^ l.shift % 2 ^ l.bits)
    let block := ea / 4096
    if !s.tableOk ea then .refused 0x06
    else if s.poison.contains block || s.hostPoison.contains block then .poisoned block false
    else if s.badWords.contains (ea / 8) then .poisoned block true
    else
      let e : DWord := BitVec.ofNat 64 (ofBytes (s.homeRead ea 8))
      if !pteV e || !pteClean e then .refused 0x07
      else if pteLeaf e then
        if l.page = 0 ∨ 3 < pteSt e then .refused 0x07
        else if pteSt e ≠ 0 ∧ pteAddr e % l.page ≠ 0 then .refused 0x07
        else
          let t : TlbEntry :=
            { ctx := x, va := va / l.page * l.page, size := l.page, pa := if pteSt e = 0 then 0 else pteAddr e, pte := e
              path := path ++ [block] }
          if pteSt e = 0 then .leaf t
          else if reservedPa t.pa || !s.cleanRange x t.pa t.size then .refused 0x06
          else .leaf t
      else if l.last ∨ pteSt e ≠ 0 ∨ pteMreg e ≠ 0 ∨ pteAddr e % l.next ≠ 0 then .refused 0x07
      else s.walkFrom x va r (pteAddr e) (path ++ [block])

/-- A walk of a virtual address in a context's table. The 57 bits of the address index the levels. -/
def State.walk (s : State) (x : Nat) (va : Nat) : WalkEnd :=
  s.walkFrom x (va % 2 ^ 57) levels (s.ctx x).desc.ptroot.toNat []

/-- The non-leaf entries that a walk reads, from a table base on. -/
def State.tablesFrom (s : State) (cluster x va : Nat) : List Level → Nat → List Nat → List NonLeaf
  | [], _, _ => []
  | l :: r, table, path =>
    let ea := table + 8 * (va / 2 ^ l.shift % 2 ^ l.bits)
    let e : DWord := BitVec.ofNat 64 (ofBytes (s.homeRead ea 8))
    if !s.tableOk ea || !pteV e || pteLeaf e then []
    else
      let n : NonLeaf :=
        { cluster := cluster, ctx := x, shift := l.shift, index := va / 2 ^ l.shift, next := pteAddr e, path := path ++ [ea / 4096] }
      n :: s.tablesFrom cluster x va r n.next n.path

/-- How many entries a walk reads, from a table base on. -/
def State.entriesFrom (s : State) (va : Nat) : List Level → Nat → Nat
  | [], _ => 0
  | l :: r, table =>
    let ea := table + 8 * (va / 2 ^ l.shift % 2 ^ l.bits)
    let e : DWord := BitVec.ofNat 64 (ofBytes (s.homeRead ea 8))
    if !s.tableOk ea then 0
    else if s.poison.contains (ea / 4096) || s.hostPoison.contains (ea / 4096) || s.badWords.contains (ea / 8) then 1
    else if !pteV e || pteLeaf e then 1
    else s.entriesFrom va r (pteAddr e) + 1

/-- The cached non-leaf entry nearest the leaf that lies on the path of an address (R263). -/
def State.nonLeaf? (s : State) (cluster x va : Nat) : Option NonLeaf :=
  [21, 30, 39, 48].findSome? fun sh =>
    s.nonLeaf.find? fun n => n.cluster == cluster && n.ctx == x && n.shift == sh && n.index == va % 2 ^ 57 / 2 ^ sh

/-- Where the walker of a cluster starts: the levels left, the table, and the blocks on the way there. -/
def State.walkStart (s : State) (cluster x va : Nat) : List Level × Nat × List Nat :=
  match s.nonLeaf? cluster x va with
  | some n => (levels.filter fun l => decide (l.shift < n.shift), n.next, n.path)
  | none => (levels, (s.ctx x).desc.ptroot.toNat, [])

/-- A walk by the walker of a cluster: a cached non-leaf entry is not read again (R263). -/
def State.walkIn (s : State) (cluster x va : Nat) : WalkEnd :=
  let w := s.walkStart cluster x va
  s.walkFrom x (va % 2 ^ 57) w.1 w.2.1 w.2.2

/-- The entries that such a walk reads. -/
def State.walkReads (s : State) (cluster x va : Nat) : Nat :=
  let w := s.walkStart cluster x va
  s.entriesFrom (va % 2 ^ 57) w.1 w.2.1

/-- A walk that yields a translation leaves its non-leaf entries in the walker. -/
def State.keepTables (s : State) (cluster x va : Nat) : State :=
  let w := s.walkStart cluster x va
  { s with nonLeaf := s.tablesFrom cluster x (va % 2 ^ 57) w.1 w.2.1 w.2.2 ++ s.nonLeaf }

/-- An entry covers a byte of [va, va + len) of a context. -/
def NonLeaf.meets (n : NonLeaf) (x va len : Nat) : Bool :=
  n.ctx == x && decide (n.index * 2 ^ n.shift < va % 2 ^ 57 + len) && decide (va % 2 ^ 57 < (n.index + 1) * 2 ^ n.shift)

/-! ## The swap table (R348) -/

/-- The address whose page-table entry serves an access, through the exchanged pairs. -/
def swapVa (l : List Swap) (va : Nat) : Nat :=
  match l with
  | [] => va
  | p :: r =>
    if p.b ≤ va ∧ va < p.b + p.len then va - p.b + p.s
    else if p.s ≤ va ∧ va < p.s + p.len then va - p.s + p.b
    else swapVa r va

/-- The first line of host memory that the walk of an address reads, from a table on, and that has not been read for it: a walk
reads host memory afresh (R443). -/
def State.farEntry? (s : State) (fetched : List Nat) (va : Nat) : List Level → Nat → Option Nat
  | [], _ => none
  | l :: r, table =>
    let ea := table + 8 * (va / 2 ^ l.shift % 2 ^ l.bits)
    let e : DWord := BitVec.ofNat 64 (ofBytes (s.homeRead ea 8))
    if !s.tableOk ea then none
    else if inHost ea && !fetched.contains (lineOf ea) then some (lineOf ea)
    else if !pteV e || pteLeaf e then none
    else s.farEntry? fetched va r (pteAddr e)

/-- The same of the walker of a cluster. -/
def State.walkFar? (s : State) (cluster x va : Nat) (fetched : List Nat) : Option Nat :=
  let w := s.walkStart cluster x va
  s.farEntry? fetched (va % 2 ^ 57) w.1 w.2.1

/-- The bytes of the page whose entry serves an address of a context, by the levels from a table on: of the leaf where the tables have
one, clean for the context or not, else 64 KiB. -/
def State.spanFrom (s : State) (va : Nat) : List Level → Nat → Nat
  | [], _ => 2 ^ 16
  | l :: r, table =>
    let ea := table + 8 * (va / 2 ^ l.shift % 2 ^ l.bits)
    let e : DWord := BitVec.ofNat 64 (ofBytes (s.homeRead ea 8))
    if !s.tableOk ea || !pteV e then 2 ^ 16
    else if pteLeaf e then (if l.page = 0 then 2 ^ 16 else l.page)
    else s.spanFrom va r (pteAddr e)

/-- The bytes of the page of a table entry named by its virtual address. -/
def State.spanOf (s : State) (x p : Nat) : Nat := s.spanFrom (p % 2 ^ 57) levels (s.ctx x).desc.ptroot.toNat

/-! ## Page requests (R271) -/

/-- The ring of page requests is usable and has room (R267, R271). -/
def State.prqRoom (s : State) : Bool :=
  let l := s.regs.prqLog2.toNat
  decide (8 ≤ l) && decide (l ≤ 16) && decide ((s.regs.prqWidx - s.regs.prqRidx).toNat < 2 ^ l)

/-- The record of a page request. -/
def PageReq.bytes (r : PageReq) : List Byte :=
  toBytes 2 r.ctx ++ toBytes 1 r.kind.toNat ++ toBytes 1 ((if r.write then 1 else 0) + (if r.denied then 2 else 0)) ++
    toBytes 4 0 ++ toBytes 8 r.addr.toNat ++ toBytes 8 r.clock ++ toBytes 8 0

/-- Writes a record into the ring and raises the vector where the ring was empty (R271). -/
def State.writePageReq (s : State) (r : PageReq) : State :=
  let n := s.regs.prqWidx
  let s1 := s.report (s.regs.prqBase.toNat + 32 * (n.toNat % 2 ^ s.regs.prqLog2.toNat)) r.bytes
  let s2 := s1.modRegs fun g => { g with prqWidx := n + 1 }
  let s3 := if n = s.regs.prqRidx then s2.raisePf s.regs.prqVector else s2
  s3.tapIo 0 r.ctx 21 (r.addr.toNat / 2 ^ 16) r.kind.toNat (if r.write then 1 else 0) 0

/-- The ring length is one of R267. -/
def State.prqUsable (s : State) : Bool := decide (8 ≤ s.regs.prqLog2.toNat) && decide (s.regs.prqLog2.toNat ≤ 16)

/-- Announces a page or a block (R271): a standing request takes the flags; a record is written where it lacks one of them,
or waits in the package list while the ring is full; a request that waits there takes the flags with it. An unusable ring sets no
record (R267). -/
def State.announce (s : State) (x : Nat) (kind : BitVec 8) (addr : DWord) (write denied : Bool) : State :=
  let old := s.pageReqs.find? fun r => r.ctx == x && r.addr == addr && (r.kind == 4) == (kind == 4)
  let r : PageReq := match old with
    | some o => { o with write := o.write || write, denied := o.denied || denied }
    | none => { ctx := x, kind := kind, addr := addr, write := write, denied := denied, clock := s.clock }
  if old = some r then s
  else
    let s := { s with pageReqs := match old with
      | some o => s.pageReqs.map fun q => if q == o then r else q
      | none => s.pageReqs ++ [r] }
    let waits : Bool := match old with
      | some o => s.prqList.contains o
      | none => false
    if !s.prqUsable then s
    else if waits then { s with prqList := s.prqList.map fun q => if some q == old then r else q }
    else if s.prqList.isEmpty && s.prqRoom then s.writePageReq r
    else { s with prqList := s.prqList ++ [r] }

/-- A request that has to announce this page finds the package list of 65,536 requests full (R271). -/
def State.announceFull (s : State) (x : Nat) (addr : DWord) (write denied : Bool) : Bool :=
  s.prqUsable && decide (65536 ≤ s.prqList.length) &&
    !(s.pageReqs.any fun r => r.ctx == x && r.addr == addr && r.kind != 4 && (r.write || !write) && (r.denied || !denied))

/-- An announcement that finds the package list full is owed, and made when the list has room (R271; DESIGN CHOICE, log 91). -/
def State.announceOrOwe (s : State) (r : PageReq) : State :=
  if s.prqUsable && decide (65536 ≤ s.prqList.length) then
    (if s.prqOwed.contains r then s else { s with prqOwed := s.prqOwed ++ [r] })
  else s.announce r.ctx r.kind r.addr r.write r.denied

/-- The announcements owed are made, while the list has room. -/
def State.payOwed (s : State) : State :=
  s.prqOwed.foldl (fun s r => s.announceOrOwe r) { s with prqOwed := [] }

/-- Records that wait are written while the ring has room (R271), at most n of them. -/
def State.drainPageReqs (s : State) : Nat → State
  | 0 => s
  | n + 1 =>
    match s.prqList with
    | [] => s
    | r :: rest => if s.prqRoom then ({ s with prqList := rest }.writePageReq r).drainPageReqs n else s

/-! ## Poisoned blocks (R275) -/

/-- Removes cached translations that fail a test, in every core. -/
def State.filterTlb (s : State) (keep : TlbEntry → Bool) : State :=
  { s with cores := s.cores.map fun c => (c.1, { c.2 with tlb := c.2.tlb.filter keep }) }

/-- A walk has met an uncorrectable entry: its block is marked, every cached translation through it goes, and the block is
announced. Host memory has room for 256 marks; where they are taken nothing of the block is recorded, which the model reads as: none
of the four effects happens (DESIGN CHOICE, log 92). -/
def State.markPoison (s : State) (block : Nat) : State :=
  if !inHbm (block * 4096) && 256 ≤ s.hostPoison.length then s
  else
    let s := if inHbm (block * 4096) then { s with poison := addNew s.poison [block] }.reportFrame (block / 16)
      else { s with hostPoison := addNew s.hostPoison [block] }
    let s := { s with
      nonLeaf := s.nonLeaf.filter fun n => !n.path.contains block
      grids := s.grids.map fun (G : Grid) => { G with extents := G.extents.filter fun (e : Extent) => !e.path.contains block } }
    let s := (s.filterTlb fun e => !e.path.contains block).modRegs fun g => { g with pgPoison := true }
    (s.tapIo 0 0 22 block 0 0 0).announceOrOwe
      { ctx := 0, kind := 4, addr := BitVec.ofNat 64 (block * 4096), write := false, denied := false, clock := s.clock }

/-- A walk of the tables for a command or a declaration (R113, R268, R274): a block that it finds uncorrectable is marked (R275). -/
def State.tableWalk (s : State) (x va : Nat) : State × WalkEnd :=
  let w := s.walk x va
  match w with
  | .poisoned b true => (s.markPoison b, w)
  | .poisoned _ false | .leaf _ | .refused _ => (s, w)

/-- A read of n bytes, inside one block, would consume uncorrectable data (R422): the block, and whether its mark is still to
be made. -/
def State.badBlock? (s : State) (pa n : Nat) : Option (Nat × Bool) :=
  let b := pa / 4096
  if s.poison.contains b || s.hostPoison.contains b then some (b, false)
  else if (List.range ((pa + n - 1) / 8 + 1 - pa / 8)).any fun j => s.badWords.contains (pa / 8 + j) then some (b, true)
  else none

/-- The part meets uncorrectable data at a read: the block is marked (R422). -/
def State.meetBad (s : State) (b : Nat × Bool) : State := if b.2 then s.markData b.1 else s

/-- Some 8-byte word of a range is uncorrectable, or its block is marked. -/
def State.anyBad (s : State) (pa n : Nat) : Bool :=
  (List.range ((pa + n - 1) / 8 + 1 - pa / 8)).any fun j => (s.badBlock? ((pa / 8 + j) * 8) 8).isSome

/-- The blocks of a range in which the part meets uncorrectable data are marked (R422). -/
def State.meetBads (s : State) (pa n : Nat) : State :=
  (List.range ((pa + n - 1) / 8 + 1 - pa / 8)).foldl (fun s j => match s.badBlock? ((pa / 8 + j) * 8) 8 with
    | some b => s.meetBad b
    | none => s) s

/-! ## Cached translations (R263, R115) -/

/-- The page states that may be cached. -/
def cacheable (e : TlbEntry) : Bool := pteSt e.pte != 0

/-- Installs a translation in a core's TLB of 2,048 entries, and the entries on its path in the walker; the oldest
translation goes where the TLB is full (log 17). -/
def State.install (s : State) (core : Nat) (e : TlbEntry) : State :=
  if cacheable e then
    (s.keepTables (clusterOf core) e.ctx e.va).modCore core fun c =>
      { c with tlb := (e :: c.tlb.filter fun o => !(o.ctx == e.ctx && o.va == e.va)).take 2048 }
  else s

/-- A cached translation of the address. -/
def State.cached? (s : State) (core x va : Nat) : Option TlbEntry :=
  (s.core core).tlb.find? fun e => e.ctx == x && decide (e.va ≤ va % 2 ^ 57) && decide (va % 2 ^ 57 < e.va + e.size)

/-- A team's extent entry that covers the access (R115). -/
def State.extent? (s : State) (T : Team) (va : Nat) (write : Bool) : Option Extent :=
  match s.grid? T.ctx T.gid with
  | none => none
  | some G => G.extents.find? fun e => decide (e.va ≤ va) && decide (va < e.va + e.len) && (!write || (e.stores && e.w))

/-! ## Translation -/

/-- What the translation of an address finds. -/
inductive Xlat where
  | page (e : TlbEntry)
  | refused (cause : BitVec 8)
  deriving DecidableEq, Repr

/-- Translates a virtual address for a core and context: the TLB, then a walk, whose end is installed (R263). A poisoned
block found by the walk is marked (R275). -/
def State.translate (s : State) (core x va : Nat) : State × Xlat :=
  let va := swapVa (s.ctx x).swaps va
  match s.cached? core x va with
  | some e => (s, .page e)
  | none =>
    let y : YEvent :=
      { source := 18, ctx := x, core := core, clock := s.clock, p1 := BitVec.ofNat 32 (s.walkReads (clusterOf core) x va) }
    match s.walkIn (clusterOf core) x va with
    | .leaf e => ((s.install core e).tap (dieOf core) y, .page e)
    | .refused c => (s.tap (dieOf core) { y with p2 := if c = 0x06 then 2 else 1 }, .refused c)
    | .poisoned b found =>
      let s := if found then s.markPoison b else s
      (s.tap (dieOf core) { y with p2 := 3 }, .refused 0x12)

/-- The physical address behind a translation. -/
def TlbEntry.phys (e : TlbEntry) (l : List Swap) (va : Nat) : Nat := e.pa + (swapVa l va % 2 ^ 57 - e.va)

/-- The base of the page of a virtual address under a translation. Missing sets and page requests name a page by the base of the leaf
that serves the access, through the swap table (R348). -/
def pageBase (va size : Nat) : Nat := va / size * size

/-! ## The check at issue (R240, R241, R334) -/

/-- What an access needs of its page. -/
inductive Need where
  | load | store | atomic | red | fetch
  deriving DecidableEq, Repr

def Need.writes : Need → Bool
  | .load | .fetch => false
  | .store | .atomic | .red => true

def Need.allowed (e : DWord) : Need → Bool
  | .load => pteR e
  | .store => pteW e
  | .atomic => pteR e && pteW e
  | .red => pteW e
  | .fetch => pteX e

/-- The outcome of a check. -/
inductive Check where
  /-- the physical address; the page is MIGRATING or not -/
  | ok (pa : Nat) (migrating : Bool)
  /-- byte o of the ring area (R334) -/
  | ring (o : Nat)
  /-- the page, by its base and size, is ABSENT -/
  | absent (page : Nat)
  | trap (cause : BitVec 8)
  deriving DecidableEq, Repr

/-- The address lies in the ring window (R334). -/
def inWindow (va : DWord) : Bool := va.extractLsb' 12 52 == 0xFF80000000000

/-- The address lies in the backing store of the context (R127). -/
def CtxDesc.inBacking (d : CtxDesc) (va : Nat) : Bool :=
  decide (d.bsbase.toNat ≤ va) && decide (va < d.bsbase.toNat + d.bslimit.toNat)

/-- A managed page (R356): the region whose index its leaf carries covers it. -/
def Context.managed? (C : Context) (e : TlbEntry) (va : Nat) : Option Region :=
  if pteMreg e.pte = 0 then none
  else
    let r := C.region (pteMreg e.pte)
    if r.state != .undefined && decide (r.base ≤ va) && decide (va < r.base + r.size) then some r else none

/-- The address of the hold count of a region's page (R356). -/
def Region.holdAddr (r : Region) (va : Nat) : Nat := r.hold.toNat + 2 * ((va - r.base) / 2 ^ 16)

/-- Bytes of a context's virtual memory where they are coherent, zero where nothing maps; used for the tables of a managed
region, which change by atomics and releases at .pkg (R359, R368). -/
def State.peek (s : State) (core x va n : Nat) : List Byte :=
  match (s.translate core x va).2 with
  | .page e => if pteSt e.pte = 0 then List.replicate n 0 else s.newest (e.phys (s.ctx x).swaps va) n
  | .refused _ => List.replicate n 0

/-- The hold count of the page of a managed address (R368). -/
def State.holdCount (s : State) (core x : Nat) (r : Region) (va : Nat) : Nat :=
  ofBytes (s.peek core x (r.holdAddr va) 2)

/-- Permission, clean bit, backing store and the managed-heap rule for a translated page (R241). A raw access is one that
does not go through a reference. Where MREG names no region of the context, no hold count stands for the page: it counts as 0 (DEDUCED,
log 84). -/
def State.permit (s : State) (core x : Nat) (e : TlbEntry) (va : Nat) (need : Need) (raw : Bool) : Check :=
  let C := s.ctx x
  if !need.allowed e.pte || C.desc.inBacking va then .trap 0x06
  else
    let held := match C.managed? e va with
      | some r => s.holdCount core x r va
      | none => 0
    if raw && pteSt e.pte == 3 && pteMreg e.pte != 0 && held == 0 then .trap 0x08
    else if pteSt e.pte = 0 then .absent (pageBase (swapVa C.swaps va) e.size)
    else .ok (e.phys C.swaps va) (pteSt e.pte == 2)

/-- The additions of R387 for node windows, in their order: node FENCED, no job session key, no trust; an unreachable node
bounces later. -/
def State.nodeCheck (s : State) (x pa : Nat) (need : Need) (reduce : Bool) : Option (BitVec 8) :=
  if !inNode pa then none
  else
    let n := nodeOf pa
    let C := s.ctx x
    let enc := decide (pa % 2 ^ 38 < 2 ^ 37)
    if (s.node n).fenced then some 0x06
    else if enc && C.jobKey.isNone then some 0x06
    else if enc && (need == .atomic || need == .red) && !reduce && !(C.pairs.any fun p => p.node.toNat == n && p.state == 2) then some 0x06
    else none

/-- The walk to the hold count that a managed page's check reads marks the poisoned block that it meets (R275). -/
def State.walkHold (s : State) (core x : Nat) (e : TlbEntry) (va : Nat) : State :=
  match (s.ctx x).managed? e va with
  | some r => if pteSt e.pte == 3 then (s.translate core x (r.holdAddr va)).1 else s
  | none => s

/-- The check of one access of a team at issue (R240): alignment, the ring window, canonical form, translation through the
extent table or the TLB, permission. -/
def State.check (s : State) (T : Team) (va : DWord) (width : Nat) (need : Need) (ringOk raw : Bool) : State × Check :=
  if va.toNat % width ≠ 0 then (s, .trap 0x05)
  else if inWindow va then
    let o := va.toNat % 4096
    if ringOk && T.ringLen != 0 && decide (o + width ≤ 32 * T.ringLen + 128) then (s, .ring o) else (s, .trap 0x06)
  else if !canonical va then (s, .trap 0x06)
  else
    match s.extent? T va.toNat need.writes with
    | some e =>
      if (s.ctx T.ctx).desc.inBacking va.toNat then (s, .trap 0x06)
      else
        let pa := e.pa + (va.toNat - e.va)
        match s.nodeCheck T.ctx pa need false with
        | some c => (s, .trap c)
        | none => (s, .ok pa false)
    | none =>
      match s.translate T.core T.ctx va.toNat with
      | (s, .refused c) => (s, .trap c)
      | (s, .page e) =>
        let s := s.walkHold T.core T.ctx e va.toNat
        match s.permit T.core T.ctx e va.toNat need raw with
        | .ok pa m =>
          match s.nodeCheck T.ctx pa need false with
          | some c => (s, .trap c)
          | none => (s, .ok pa m)
        | .ring o => (s, .ring o)
        | .absent p => (s, .absent p)
        | .trap c => (s, .trap c)

/-! ## Invalidation (R269) -/

/-- A cached translation maps a byte of [va, va + len). -/
def TlbEntry.meets (e : TlbEntry) (x va len : Nat) : Bool :=
  e.ctx == x && decide (e.va < va % 2 ^ 57 + len) && decide (va % 2 ^ 57 < e.va + e.size)

/-- What is left of an extent entry when a range of 57-bit addresses goes: the parts below and above it. -/
def Extent.without (e : Extent) (va len : Nat) : List Extent :=
  let a := e.va % 2 ^ 57
  if a < va + len ∧ va < a + e.len then
    let cut := va + len - a
    (if a < va then [{ e with len := va - a }] else []) ++
      (if va + len < a + e.len then [{ e with va := e.va + cut, len := e.len - cut, pa := e.pa + cut }] else [])
  else [e]

/-- Removes every cached translation of a context that maps a byte of the range: TLB entries, the walkers' entries on the path,
extent entries, and the results of walks that began earlier. -/
def State.dropTranslations (s : State) (x va len : Nat) : State :=
  let s := s.filterTlb fun e => !e.meets x va len
  { s with
    nonLeaf := s.nonLeaf.filter fun n => !n.meets x va len
    grids := s.grids.map fun G => if G.ctx == x then { G with extents := G.extents.flatMap fun e => e.without va len } else G
    walks := s.walks.map fun w => if w.ctx == x then { w with stale := true } else w }

/-- Removes every cached translation of a context. -/
def State.dropContext (s : State) (x : Nat) : State :=
  let s := s.filterTlb fun e => e.ctx != x
  { s with
    nonLeaf := s.nonLeaf.filter fun n => n.ctx != x
    grids := s.grids.map fun G => if G.ctx == x then { G with extents := [] } else G
    walks := s.walks.map fun w => if w.ctx == x then { w with stale := true } else w }

/-- Removes cached translations whose leaf lies in a physical range, in every context, with the walkers' entries on their paths (R269,
R273). -/
def State.dropFrames (s : State) (pa len : Nat) : State :=
  let hit (a n : Nat) : Bool := decide (a < pa + len) && decide (pa < a + n)
  let gone : List (Nat × Nat × Nat) := (s.cores.flatMap fun c => (c.2.tlb.filter fun e => hit e.pa e.size).map fun e => (e.ctx, e.va, e.size)) ++
    s.grids.flatMap fun G => (G.extents.filter fun e => hit e.pa e.len).map fun e => (G.ctx, e.va, e.len)
  let s := s.filterTlb fun e => !hit e.pa e.size
  { s with
    nonLeaf := s.nonLeaf.filter fun n => !gone.any fun g => n.meets g.1 g.2.1 g.2.2
    grids := s.grids.map fun G =>
      { G with extents := G.extents.flatMap fun e =>
          if e.pa < pa + len ∧ pa < e.pa + e.len then
            let lo := e.va % 2 ^ 57 + (pa - e.pa)
            e.without lo (if e.pa < pa then len else len - (e.pa - pa))
          else [e] }
    walks := s.walks.map fun w => { w with stale := true } }

end Sys2Proof.Machine
end

