-- ==== Sys2Proof/Machine/Entries.lean ====
section
/-! DEFINITION. The outstanding-transaction table (R225 to R228): the requests of a team, the values that they commit (R237, R239,
R242), the results of atomics (R250), and how a request parks (R234, R236, R243). -/

namespace Sys2Proof.Machine

/-! ## The request table of a team -/

/-- The requests of a thread, oldest first. -/
def Team.reqsOf (T : Team) (i : Nat) : List Req := T.reqs.filter fun r => r.tid == i
def Team.setReq (T : Team) (r : Req) : Team := { T with reqs := T.reqs.map fun q => if q.id == r.id then r else q }
def Team.dropReq (T : Team) (id : Nat) : Team := { T with reqs := T.reqs.filter fun q => q.id != id }
def Team.req? (T : Team) (id : Nat) : Option Req := T.reqs.find? fun q => q.id == id

/-- Its request has a value to return (R228: cnt.ld). -/
def AccOp.isLoad : AccOp → Bool
  | .load _ _ _ _ | .watch => true
  | .store _ _ _ | .atomic _ _ _ _ _ | .flagStore _ _ _ _ | .reduce _ _ _ _ | .share _ | .publish _ _ _ => false
/-- A load that writes p7 and sr.resm (R242, R299). -/
def AccOp.tellsResidency (op : AccOp) : Bool := op.isLoad
/-- It has been parked: younger requests of the thread park behind it (R236). -/
def Stage.isParked : Stage → Bool
  | .backoff _ | .onPage _ | .onPublish | .onWalk _ | .behind => true
  | .translated _ | .atCore _ | .walking _ _ _ | .queued _ _ _ _ | .atDoor _ _ _ | .outside _ | .arrived _ _ _
  | .settling _ => false

/-! ## Values -/

/-- The 32-bit words of a value, lowest first, zero-filled. -/
def wordsOf (n : Nat) (b : List Byte) : List Word := (List.range n).map fun i => BitVec.ofNat 32 (field b (4 * i) 4)

/-- The words that an access writes to its destination: a narrow load extends its value (R245). -/
def destWords (op : AccOp) (count : Nat) (b : List Byte) : List Word :=
  match op with
  | .load 1 true _ _ => [(BitVec.ofNat 8 (ofBytes b)).signExtend 32]
  | .load 2 true _ _ => [(BitVec.ofNat 16 (ofBytes b)).signExtend 32]
  | .load _ _ _ _ | .watch | .store _ _ _ | .atomic _ _ _ _ _ | .flagStore _ _ _ _ | .reduce _ _ _ _
  | .share _ | .publish _ _ _ => wordsOf count b

/-- Elements of a load (R242). -/
def elementsOf : AccOp → Nat
  | .load n _ _ _ => if n ≤ 4 then 1 else n / 4
  | .watch => 1
  | .store _ _ _ | .atomic _ _ _ _ _ | .flagStore _ _ _ _ | .reduce _ _ _ _ | .share _ | .publish _ _ _ => 0

/-- The value and residency of an access are committed (R237, R242) at once. -/
def Thread.commit (t : Thread) (op : AccOp) (dest : Dest) (b : List Byte) (resident : Bool) : Thread :=
  let t1 := match dest with
    | .none => t
    | .reg p n => t.putList p (destWords op n b)
    | .ref r => t.setRef r (BitVec.ofNat 64 (ofBytes b))
  if op.tellsResidency then
    let t2 := t1.setResidency (elementsOf op) resident
    { t2 with pendPreds := tdel 8 t2.pendPreds, watch := if op == .watch && !resident then .idle else t2.watch }
  else t1

/-- Marks the destinations of a request as not committed (R237). -/
def Thread.pend (t : Thread) (id : Nat) (op : AccOp) (dest : Dest) : Thread :=
  let t := match dest with
    | .none => t
    | .reg p n => { t with pendRegs := (List.range n).foldl (fun l i => tput (p + i) id l) t.pendRegs }
    | .ref r => { t with pendRefs := tput r.toNat id t.pendRefs }
  if op.tellsResidency then { t with pendPreds := tput 8 id (tput 7 id t.pendPreds) } else t

/-- Writes the words whose positions still await this request; the others have a younger writer (R239). -/
def Thread.putPending (t : Thread) (id p : Nat) : List Word → Thread
  | [] => t
  | v :: r => (if tget? p t.pendRegs = some id then t.putAt p v else t).putPending id (p + 1) r

/-- Commits a request of the table: only what no younger instruction has written (R239). -/
def Thread.commitReq (t : Thread) (r : Req) (b : List Byte) (resident : Bool) : Thread :=
  let t := if r.op == .watch && !resident then { t with watch := .idle } else t
  let t := match r.dest with
    | .none => t
    | .reg p n => t.putPending r.id p (destWords r.op n b)
    | .ref f => if tget? f.toNat t.pendRefs = some r.id then t.setRef f (BitVec.ofNat 64 (ofBytes b)) else t
  if r.op.tellsResidency then
    let n := elementsOf r.op
    let t := if tget? 7 t.pendPreds = some r.id then t.setP 7 resident else t
    if tget? 8 t.pendPreds = some r.id then
      { t with resm := if resident then BitVec.ofNat 4 (2 ^ n - 1) else 0, pendPreds := tdel 8 t.pendPreds }
    else t
  else t

/-! ## Atomics (R250) -/

def aopWide : AOp → Bool
  | .addX => true
  | .add | .minS | .maxS | .minU | .maxU | .and | .or | .xor | .xchg | .cas | .incw | .decw | .fadd => false

/-- The new value of a location, none where nothing is written. v is the operand, new the new value of CAS. -/
def aopApply (op : AOp) (old v new : DWord) : Option DWord :=
  let o := old.setWidth 32
  let x := v.setWidth 32
  let w (r : Word) : Option DWord := some (r.setWidth 64)
  match op with
  | .add => w (o + x)
  | .minS => w (if o.sle x then o else x)
  | .maxS => w (if x.sle o then o else x)
  | .minU => w (if o.ule x then o else x)
  | .maxU => w (if x.ule o then o else x)
  | .and => w (o &&& x)
  | .or => w (o ||| x)
  | .xor => w (o ^^^ x)
  | .xchg => w x
  | .cas => if o = x then w (new.setWidth 32) else none
  | .incw => w (if x.ule o then 0 else o + 1)
  | .decw => w (if o = 0 ∨ x.ult o then x else o - 1)
  | .fadd => w (f32Add .rn o x).1
  | .addX => some (old + v)

/-! ## Parking (R243, R270) -/

/-- The thread stops on its missing set. -/
def Thread.park (t : Thread) (now : Nat) : Thread := { t with status := .parked, bundle := none, parkedAt := now }

/-- What waits on a page of the missing set, with a further cause. -/
def Thread.miss (t : Thread) (page span : Nat) (fetch : Bool) (load : Option Nat) : Table Miss :=
  let old : Miss := tget {} page t.misses
  tput page { span := max old.span span, fetch := old.fetch || fetch, load := if load.isSome then load else old.load } t.misses

/-- A page joins the missing set of a thread, is announced, and the thread parks (R243, R270); one that waits or sleeps parks when
that is over. -/
def State.parkOn (s : State) (k i page : Nat) (kind : BitVec 8) (write denied : Bool) : State :=
  match s.team? k, s.thread? k i with
  | some T, some t =>
    let s := if t.missing.contains page then s
      else s.tapTeam T 2 (page / 2 ^ 16) kind.toNat (t.missing.length + 1) T.slot
    let s := s.announce T.ctx kind (BitVec.ofNat 64 page) write denied
    let s := s.modCore T.core fun c => { c with bins := c.bins.map fun b =>
      if b.team == k then { b with tids := b.tids.filter fun x => x.1 != i } else b }
    s.modThread k i fun t =>
      { (if t.status = .ready then t.park s.clock else { t with parkedAt := s.clock }) with
        missing := addNew t.missing [page]
        misses := t.miss page (s.spanOf T.ctx page) (kind == 3) none }
  | _, _ => s

/-! ## Needs -/

/-- What a load that finds no resident page returns: nothing, of its width (R242). -/
def zeroValue : AccOp → List Byte
  | .load n _ _ _ => List.replicate n 0
  | .watch => List.replicate 4 0
  | .atomic op _ _ _ _ => List.replicate (if aopWide op then 8 else 4) 0
  | .store _ _ _ | .flagStore _ _ _ _ | .reduce _ _ _ _ | .share _ | .publish _ _ _ => []

/-- The need of an access. -/
def AccOp.need : AccOp → Need
  | .load _ _ _ _ | .watch => .load
  | .store _ _ _ => .store
  | .atomic _ _ _ _ returns => if returns then .atomic else .red
  | .flagStore _ _ _ _ => .store
  | .reduce _ _ _ written => if written then .atomic else .store
  | .share _ => .load
  | .publish _ _ _ => .store

def AccOp.width : AccOp → Nat
  | .load n _ _ _ => n
  | .watch => 4
  | .store d _ _ => d.length
  | .atomic op _ _ _ _ => if aopWide op then 8 else 4
  | .flagStore d _ _ dataDone => if dataDone then 4 else d.length
  | .reduce _ _ _ written => if written then 4 else 16
  | .share _ | .publish _ _ _ => 1

/-! ## The table and its order (R226 to R236) -/

/-- Entries of the team's partition in use (R225, R226). -/
def Team.entries (T : Team) : Nat := (T.reqs.filter fun r => match r.op with
  | .share _ => false
  | .load _ _ _ _ | .watch | .store _ _ _ | .atomic _ _ _ _ _ | .flagStore _ _ _ _ | .reduce _ _ _ _ | .publish _ _ _ =>
    true).length

/-- The T_hold of a team's context on its core. -/
def State.holdOf (s : State) (T : Team) : Nat := (tget (s.ctx T.ctx).thold T.core (s.ctx T.ctx).tholdAt).toNat

/-- The backoff of a request that has been reissued k times (R234). -/
def backoffTime (k : Nat) : Nat := 256 * 2 ^ min k 8

/-- A request parks under backoff. -/
def Req.backoff (r : Req) (now : Nat) : Req :=
  { r with stage := .backoff (now + backoffTime r.k), parkedAt := now }

/-- The counter of a request that has ended falls. -/
def Thread.uncount (t : Thread) (r : Req) : Thread :=
  { t with cntLd := if r.counter = 1 then t.cntLd - 1 else t.cntLd
           cntSt := if r.counter = 2 then t.cntSt - 1 else t.cntSt }

/-- A write through the ring window that reaches the notify line kicks the request engine (R336, R337). -/
def Team.kicksBy (T : Team) (va : DWord) (op : AccOp) : Bool :=
  inWindow va && T.ringLen != 0 && decide (32 * T.ringLen < va.toNat % 4096 + op.width) && match op with
    | .store _ _ _ | .atomic _ _ _ _ _ => true
    | .load _ _ _ _ | .watch | .flagStore _ _ _ _ | .reduce _ _ _ _ | .share _ | .publish _ _ _ => false

/-- cnt.cp of a kicking write that has performed: from then on its kick counts, where it made an entry takable (R337). -/
def Thread.kickDone (t : Thread) (kicks : Bool) : Thread := { t with cntCp := if kicks then t.cntCp - 1 else t.cntCp }

/-- A request leaves the table: its value is committed, its counter falls (R227, R228). Lanes that share it leave with it. -/
def State.retire (s : State) (k : Nat) (r : Req) (v : List Byte) (resident : Bool) : State :=
  s.modTeam k fun T =>
    let T1 := (T.dropReq r.id).modThread r.tid fun t => ((t.commitReq r v resident).uncount r).kickDone (T.kicksBy r.va r.op)
    let mates := T1.reqs.filter fun q => q.op == .share r.id
    mates.foldl (fun T q => (T.dropReq q.id).modThread q.tid fun t => t.uncount q) T1

/-- Where a request stands when an older one of its thread bounces (R236): it parks, to reissue after it. A load that has its
value parks too: it reads again at its final place, which is the check of R238. One that is parked already keeps its own condition
(R227, R234). -/
def Stage.parkBehind : Stage → Stage
  | .translated _ | .atCore _ | .walking _ _ _ | .queued _ _ _ _ | .atDoor _ _ _ | .arrived _ true _ | .behind => .behind
  | .backoff til => .backoff til
  | .onPage p => .onPage p
  | .onPublish => .onPublish
  | .onWalk w => .onWalk w
  | .outside pa => .outside pa
  | .arrived pa false v => .arrived pa false v
  | .settling l => .settling l

/-- When a request bounces, every younger request of its thread that has not performed parks with it (R236). -/
def Team.parkYounger (T : Team) (r : Req) : Team :=
  { T with reqs := T.reqs.map fun q =>
      if q.tid = r.tid ∧ r.id < q.id ∧ q.stage.parkBehind ≠ q.stage then
        { q with stage := q.stage.parkBehind, parkedAt := r.parkedAt }
      else q }

/-- A request takes its new place, and its younger ones where it has parked. -/
def State.replace (s : State) (k : Nat) (r : Req) : State :=
  s.modTeam k fun T => if r.stage.isParked && r.stage != .behind then (T.setReq r).parkYounger r else T.setReq r

/-- The shared-queue event of a bounce (R405). -/
def State.tapBounce (s : State) (T : Team) (kind cause cycles : Nat) : State := s.tapTeam T 0 kind cause cycles T.slot

end Sys2Proof.Machine
end

