-- ==== Sys2Proof/Machine/Queues.lean ====
section
/-! DEFINITION. The shared queues of the part (R17, R229 to R232): which there are, who stands in them, admission and
displacement, and the bounces of requests that leave them. -/

namespace Sys2Proof.Machine

/-! ## The queues (R17)

One number for each queue: the request queues of the 64 clusters, the crossbars of the 8 dies, the input queues of the 256 LLC
slices, the controllers of the 16 HBM stacks, the egress queues of the 24 Bamlos ports and of the host port. -/

def crossbarQueue (die : Nat) : Nat := 64 + die
def sliceQueue (slice : Nat) : Nat := 72 + slice
def memQueue (stack : Nat) : Nat := 328 + stack
def egressQueue (port : Nat) : Nat := 344 + port
def hostEgress : Nat := 368

/-- The kind of a queue, as its Yarrow events name it (log 55). -/
def queueKind (q : Nat) : Nat := if q < 64 then 0 else if q < 72 then 1 else if q < 328 then 2 else if q < 344 then 3 else 4

/-- Slots of a queue: a cluster request queue has 64 (R230); of the others the spec gives no number (DESIGN CHOICE, log 79). -/
def queueSlots (q : Nat) : Nat := if q < 64 then 64 else Config.queueSlots q + 1

/-- Misses that an LLC slice keeps track of (R14). -/
def missEntries : Nat := 2048

/-! ## Commands in the copy-engine queues (R17, R342) -/

def State.cmd? (s : State) (id : Nat) : Option Cmd := s.cmds.find? fun m => m.id == id
def State.modCmd (s : State) (id : Nat) (f : Cmd → Cmd) : State :=
  { s with cmds := s.cmds.map fun m => if m.id == id then f m else m }

/-- The wait of a command for a copy engine has reached the hold time. -/
def State.cmdHeldOut (s : State) (m : Cmd) : Bool :=
  match m.since, s.team? m.team with
  | some t, some T => decide (t + s.holdOf T ≤ s.clock)
  | _, _ => false

/-- It leaves the queue, and parks under backoff (R17, R234). -/
def State.bounceCmd (s : State) (id : Nat) : State :=
  s.modCmd id fun m => { m with since := none, til := s.clock + backoffTime m.k, k := m.k + 1 }

/-! ## Who stands in a queue -/

/-- A request in a queue: its owner, its number, since when, its T_hold; of a team or of another agent. -/
structure Member where
  owner : Nat
  id : Nat
  since : Nat
  hold : Nat
  deriving DecidableEq, Repr

/-- A request stands in a queue: which, since when, with which T_hold. One that waits for its walk stands in its cluster's. -/
def Stage.inQueue? (cluster : Nat) : Stage → Option (Nat × Nat × Nat)
  | .queued q _ since hold => some (q, since, hold)
  | .walking _ since hold => some (cluster, since, hold)
  | .backoff _ | .onPage _ | .onPublish | .onWalk _ | .behind | .translated _ | .atCore _ | .atDoor _ _ _ | .outside _ | .arrived _ _ _
  | .settling _ => none

/-- The queue that a request stands in. -/
def Team.place? (T : Team) (r : Req) : Option (Nat × Nat × Nat) := r.stage.inQueue? (clusterOf T.core)

/-- A request of an agent that is no thread stands in a queue. -/
def AgentReq.stands (a : AgentReq) (q : Nat) : Bool := a.q == q && a.parked.isNone && !a.ready && !a.door

/-- The requests in a queue. -/
def State.queueOf (s : State) (q : Nat) : List Member :=
  (s.teams.flatMap fun kt => kt.2.reqs.filterMap fun r => match kt.2.place? r with
    | some x => if x.1 = q then some { owner := kt.1, id := r.id, since := x.2.1, hold := x.2.2 } else none
    | none => none) ++
    (s.agents.filter fun a => a.stands q).map fun a => { owner := a.owner, id := a.id, since := a.since, hold := a.hold }

/-- Requests that wait outside a full queue, with their teams, the longest-waiting first by number (R230). -/
def State.doorOf (s : State) (q : Nat) : List (Nat × Nat) :=
  (s.teams.flatMap fun kt => kt.2.reqs.filterMap fun r => match r.stage with
    | .atDoor p _ since => if p = q then some (since, r.id) else none
    | .backoff _ | .onPage _ | .onPublish | .onWalk _ | .behind | .translated _ | .atCore _ | .walking _ _ _ | .queued _ _ _ _
    | .outside _ | .arrived _ _ _ | .settling _ => none) ++
    (s.agents.filter fun a => a.door && a.q == q).map fun a => (a.since, a.id)

/-- The request at the door for which the next free slot is. -/
def firstDoor (l : List (Nat × Nat)) : Option Nat :=
  (l.foldl (fun (best : Option (Nat × Nat)) x => match best with
    | none => some x
    | some y => if x.1 < y.1 ∨ (x.1 = y.1 ∧ x.2 < y.2) then some x else some y) none).map fun x => x.2

/-- The one of a list that has waited longest. -/
def longest (l : List Member) : Option Member :=
  l.foldl (fun best x => match best with
    | none => some x
    | some y => if x.since < y.since then some x else some y) none

/-- The request that a full queue displaces for an owner that holds no slot: the longest-waiting one of the owners that hold more
than their share (R230). -/
def displaced? (slots : Nat) (q : List Member) (owner : Nat) : Option Member :=
  if q.any fun x => x.owner == owner then none
  else
    let owners := q.foldl (fun acc x => addNew acc [x.owner]) [owner]
    let share := (slots + owners.length - 1) / owners.length
    longest (q.filter fun x => decide (share < (q.filter fun y => y.owner == x.owner).length))

/-- A free slot of the queue that is for no request at its door. -/
def State.hasSlot (s : State) (q : Nat) : Bool :=
  decide ((s.queueOf q).length + (s.doorOf q).length < queueSlots q)

/-- A request of an owner that arrives finds a slot, or takes that of a displaced one. -/
def State.admits (s : State) (q owner : Nat) : Bool :=
  s.hasSlot q || (displaced? (queueSlots q) (s.queueOf q) owner).isSome

/-- The physical address that a request holds. -/
def Stage.holds? : Stage → Option Nat
  | .translated pa | .queued _ pa _ _ | .atDoor _ (some pa) _ | .arrived pa true _ => some pa
  | .backoff _ | .onPage _ | .onPublish | .onWalk _ | .behind | .atCore _ | .walking _ _ _ | .atDoor _ none _ | .outside _
  | .arrived _ false _ | .settling _ => none

/-! ## Leaving a queue -/

/-- A request leaves its queue and parks under a cause (R231, R232): its younger ones park with it (R236). -/
def State.bounce (s : State) (k : Nat) (T : Team) (r : Req) (st : Stage) (cause : Nat) : State :=
  let x := (T.place? r).getD (clusterOf T.core, s.clock, 0)
  (s.tapBounce T (queueKind x.1) cause (s.clock - x.2.1)).replace k { r with stage := st, parkedAt := s.clock }

/-- A request of another agent parks under backoff. -/
def State.bounceAgent (s : State) (id : Nat) : State :=
  { s with agents := s.agents.map fun a =>
      if a.id == id then { a with parked := some (s.clock + backoffTime a.k), door := false } else a }

/-- A member of a queue is displaced: that is a bounce under backoff (R230, R234). -/
def State.displace (s : State) (m : Member) : State :=
  match s.team? m.owner with
  | some T =>
    match T.req? m.id with
    | some r => s.bounce m.owner T r (.backoff (s.clock + backoffTime r.k)) 2
    | none => s.bounceAgent m.id
  | none => s.bounceAgent m.id

/-! ## Arrival (R230, R231) -/

/-- The first at the door of a queue finds a slot. -/
def State.doorOpen (s : State) (q id : Nat) : Bool :=
  decide ((s.queueOf q).length < queueSlots q) && firstDoor (s.doorOf q) == some id

/-- A request of another agent takes a slot of a queue, or that of one that it displaces; else it waits outside. -/
def State.standAgent (s : State) (a : AgentReq) (q : Nat) : State :=
  let put (s : State) (door : Bool) : State :=
    { s with agents := s.agents.map fun b => if b.id == a.id then { a with q := q, since := s.clock, parked := none, door := door } else b }
  if s.hasSlot q || (a.door && a.q == q && s.doorOpen q a.id) then put s false
  else
    match displaced? (queueSlots q) (s.queueOf q) a.owner with
    | some m => put (s.displace m) false
    | none => put s true

/-- A request of another agent comes to the first queue on its way. -/
def State.enterAgent (s : State) (owner hold : Nat) (route : List Nat) (e : Event) : State :=
  let a : AgentReq := { id := s.fresh, owner := owner, event := e, q := route.headD 0, since := s.clock, hold := hold, parked := some s.clock
                        route := route }
  { s with fresh := s.fresh + 1, agents := s.agents ++ [a] }.standAgent a a.q

/-- The queue after the one in which a request of another agent stands. -/
def AgentReq.next? (a : AgentReq) : Option Nat := ((a.route.dropWhile fun q => q != a.q).drop 1).head?

/-- The page of a request has become MIGRATING since it was translated. -/
def State.nowMigrating (s : State) (T : Team) (r : Req) : Bool :=
  match s.cached? T.core T.ctx (swapVa (s.ctx T.ctx).swaps r.va.toNat) with
  | some e => pteSt e.pte == 2 && r.op.need.writes
  | none => false

/-- A request takes a slot of a queue. -/
def State.takeSlot (s : State) (k : Nat) (T : Team) (r : Req) (q pa : Nat) : State :=
  s.modTeam k fun U => U.setReq { r with stage := .queued q pa s.clock (s.holdOf T) }

/-- A request arrives at a queue: a store or atomic to a MIGRATING page bounces at once; else it takes a free slot, or that of a
request that it displaces, or waits outside. The rule displaces for an owner that holds no slot; of one that holds a slot in the full queue it
says nothing, and the model displaces none and lets the request wait outside (DESIGN CHOICE, log 79). -/
def State.enterQueue (s : State) (k : Nat) (T : Team) (r : Req) (q pa : Nat) : State :=
  if s.nowMigrating T r then s.bounce k T r .onPublish 0
  else if s.hasSlot q then s.takeSlot k T r q pa
  else
    match displaced? (queueSlots q) (s.queueOf q) k with
    | some m => (s.displace m).takeSlot k T r q pa
    | none => s.modTeam k fun U => U.setReq { r with stage := .atDoor q (some pa) s.clock }

/-- A request that needs a walk, the first at the door of a full cluster queue that has a free slot among them, starts it: it bounces at once where the walker has no
slot (R231), and otherwise waits for the walk in its cluster's queue (R232, R240). -/
def State.beginWalk (s : State) (k : Nat) (T : Team) (r : Req) (va : DWord) (first : Bool) : State :=
  let q := clusterOf T.core
  let start (s : State) : State :=
    let w : Walk := { id := s.fresh, cluster := q, core := T.core, ctx := T.ctx
                      va := BitVec.ofNat 64 (swapVa (s.ctx T.ctx).swaps va.toNat), startedAt := s.clock }
    { s with fresh := s.fresh + 1, walks := s.walks ++ [w] }.modTeam k fun U =>
      U.setReq { r with stage := .walking w.id s.clock (s.holdOf T) }
  if 16 ≤ (s.walks.filter fun w => w.cluster == q).length then s.bounce k T r (.backoff (s.clock + backoffTime r.k)) 0
  else if s.hasSlot q || (first && decide ((s.queueOf q).length < queueSlots q)) then start s
  else
    match displaced? (queueSlots q) (s.queueOf q) k with
    | some m => start (s.displace m)
    | none => s.modTeam k fun U => U.setReq { r with stage := .atDoor q none s.clock }

end Sys2Proof.Machine
end

