-- ==== Sys2Proof/Machine/Access.lean ====
section
/-! DEFINITION. Requests (R225 to R243): the check and the issue of an access, what it does when it performs, and the reissue of
parked requests in the order of their thread. -/

namespace Sys2Proof.Machine

/-! ## The ring window (R334 to R337) -/

/-- A field of four bytes of the notify line. -/
def Team.notify (T : Team) (o : Nat) : Nat := ofBytes (getBytes T.ring (32 * T.ringLen + o) 4)
def Team.setNotify (T : Team) (o n v : Nat) : Team := { T with ring := putBytes (32 * T.ringLen + o) (toBytes n v) T.ring }

/-- The index after the last entry that a kick has made takable. -/
def Team.kickLimit (T : Team) : Nat :=
  match T.kicks.getLast? with
  | some x => x.2.1
  | none => T.notify 4

/-- A write to the notify line kicks the request engine (R336, R337): an excess of entries sets OVER and makes none
takable; new entries raise the writer's cnt.cp until they have all completed. -/
def State.kick (s : State) (k i : Nat) : State :=
  match s.team? k with
  | none => s
  | some T =>
    let ahead (n : Nat) : Nat := (n + 2 ^ 32 - T.notify 4) % 2 ^ 32
    if T.ringLen < ahead (T.notify 0) then s.setTeam k (T.setNotify 8 4 1)
    else
      let T := T.setNotify 8 4 0
      if ahead (T.notify 0) ≤ ahead T.kickLimit then s.setTeam k T
      else
        (s.setTeam k { T with kicks := T.kicks ++ [(T.kickLimit, T.notify 0, i)] }).modThread k i fun t =>
          { t with cntCp := t.cntCp + 1 }

/-- A write to the ring area. -/
def State.ringStore (s : State) (k i o : Nat) (data : List Byte) : State :=
  match s.team? k with
  | none => s
  | some T =>
    let s := s.setTeam k { T with ring := putBytes o data T.ring }
    if 32 * T.ringLen < o + data.length then s.kick k i else s

/-! ## Performing -/

/-- What happens when a request comes to perform: it is done, with a value and its residency, it stands where the new
request says, or its team dies. -/
inductive Perf where
  | done (value : List Byte) (resident : Bool)
  | hold (r : Req)
  /-- it waits for the egress queue of this number -/
  | egress (q : Nat)
  /-- its data are uncorrectable (R422) -/
  | bad
  deriving DecidableEq, Repr

/-- The die in whose order an access of a thread to an address is placed (R199, R385, R443). -/
def accessDie (die pa : Nat) : Nat := if inHbm pa then die else homeDie pa

/-- Stores that a die's order holds and that are still to be acknowledged outside the package (R207). -/
def State.unackedOn (s : State) (die : Nat) : List Nat :=
  (s.mem.flights.filter fun f => f.outside && f.at_.contains die).map fun f => f.id

/-- The scope reaches past the die (R209). -/
def crosses : Scope → Bool
  | .pkg | .sys => true
  | .unscoped | .team | .clu | .die => false

/-- A fence of an SC access (R214): every store of the die's order arrives everywhere. -/
def State.fenceOn (s : State) (die : Nat) (sc : Scope) : State :=
  if crosses sc then { s with mem := s.mem.flushFrom die } else s

/-- The fence before or after an SC access to an address: of the thread's die, and of the die in whose order the access lies (R214,
R215). -/
def State.fenceAt (s : State) (die pa : Nat) (sc : Scope) : State := (s.fenceOn die sc).fenceOn (accessDie die pa) sc

/-- A read of a line of the host or a node is in the order of its home: the stores that it reads, and what precedes them, arrive on the
die of the reader too, and belong to the cumulative set of its later releases (R212, R213). -/
def State.acquireOn (s : State) (die pa n : Nat) : State :=
  if inHbm pa then s
  else
    { s with mem := s.mem.arrive ((s.mem.flights.filter fun f => f.touches pa n && f.at_.contains (homeDie pa)).map fun f => f.id) die }

/-- Every store to the bytes arrives at a die: the coherent value is there (R201, R210). -/
def State.gather (s : State) (die pa n : Nat) : State :=
  { s with mem := s.mem.arrive ((s.mem.flights.filter fun f => f.touches pa n).map fun f => f.id) (accessDie die pa) }

/-- A read-modify-write at its home (R210): the old value, and the write unless there is none. Where the old value is
uncorrectable and nothing consumes it, the spec states none: it is free (log 20). -/
def State.rmw (s : State) (die pa n : Nat) (release : Bool) (f : DWord → Option DWord) : State × DWord :=
  let s := (s.gather die pa n).acquireOn die pa n
  let old : DWord := if (s.badBlock? pa n).isSome then Config.freeWord s.fresh
    else BitVec.ofNat 64 (ofBytes (s.mem.read (accessDie die pa) pa n))
  match f old with
  | none => (s, old)
  | some v => ((s.storeAt die pa (toBytes n v.toNat) release).1, old)

/-- A table entry of a line and a context still serves a watch (R298). -/
def State.serves (s : State) (line x : Nat) : Bool :=
  (s.teams.any fun kt => kt.2.ctx == x && kt.2.threads.any fun t => t.watch == .armed line true) ||
    s.queues.any fun q => q.2.ctx == x && q.2.watchLine == some line

/-- Claims a table entry for a line and a context (R298): a new key in a full slice takes the place of the oldest entry of the
context that holds most, if that is more than 64. none: it is held; some 0: another was evicted; some 1: refused. -/
def State.claimWatch (s : State) (x pa : Nat) : State × Option Nat :=
  let line := lineOf pa
  let d := homeDie pa
  let all := (s.die d).watches.filter fun w => s.serves w.1 w.2
  let same := all.filter fun w => sliceOf (w.1 * 128) == sliceOf pa
  if all.contains (line, x) then (s, none)
  else if same.length < 256 then (s.modDie d fun D => { D with watches := all ++ [(line, x)] }, none)
  else
    let held (x : Nat) : Nat := (same.filter fun w => w.2 == x).length
    let most := same.foldl (fun x w => if held x < held w.2 then w.2 else x) 0
    if held most ≤ 64 then (s, some 1)
    else
      match same.find? fun w => w.2 == most with
      | none => (s, some 1)
      | some old =>
        let s := s.modDie d fun D => { D with watches := (all.filter fun w => w != old) ++ [(line, x)] }
        ({ s with teams := s.teams.map fun (kt : Nat × Team) =>
          if kt.2.ctx = most then
            (kt.1, { kt.2 with threads := kt.2.threads.map fun (t : Thread) =>
              if t.watch = Watch.armed old.1 true then { t with watch := Watch.armed old.1 false } else t })
          else kt }, some 0)

/-- Some watch, queue or relocation ring is served by a registration of the line at its node. -/
def State.isServed (s : State) (line : Nat) : Bool :=
  (s.teams.any fun kt => kt.2.threads.any fun t => t.watch == .armed line true) || (s.queues.any fun q => q.2.watchLine == some line) ||
    s.contexts.any fun c => c.2.regions.any fun r => r.2.ringLine == some line

/-- UNWATCH: registrations at nodes of lines that nothing watches any more go, at the end of a watch, where another replaces it, and at the
end of a team (R79, R181, R380, R388). -/
def State.dropNodeWatches (s : State) : State :=
  { s with nodes := s.nodes.map fun n => (n.1, { n.2 with watches := n.2.watches.filter fun l => s.isServed l }) }

/-- Arms the watch of a thread on a physical line (R296, R298, R388). An entry serves every watch of a context on its line, and no
stash holds the line owned. The watch that it replaces has ended. -/
def State.armWatch (s : State) (k i pa : Nat) : State :=
  match s.team? k with
  | none => s
  | some T =>
    let line := lineOf pa
    let s := ((s.modThread k i fun t => { t with watch := .idle }).dropNodeWatches).recall line none false
    let arm (s : State) (ok : Bool) : State := s.modThread k i fun t => { t with watch := .armed line ok }
    if inNode pa then
      let n := nodeOf pa
      if (s.node n).watches.contains line then arm s true
      else if (s.node n).watches.length < 4096 then
        arm (s.modNode n fun N => { N with watches := N.watches ++ [line] }) true
      else arm s false
    else if !inHbm pa then arm s true
    else
      match s.claimWatch T.ctx pa with
      | (s, none) => arm s true
      | (s, some e) => arm (s.tapTeam T 29 e (sliceOf pa) 0 0) (e == 0)

/-- A proxy holds a line for a context: in an encrypted half only for those of the job whose key decrypted it (R385, R386, R443). -/
def State.proxied (s : State) (x line : Nat) : Bool :=
  s.proxies.any fun p => p.line == line && (!encrypted line || p.key == (s.ctx x).jobKey)

/-- A context writes a line of an encrypted half under its own key: copies that another key decrypted go (R386). -/
def State.reEncrypt (s : State) (x line : Nat) : State :=
  if encrypted line then { s with proxies := s.proxies.filter fun p => p.line != line || p.key == (s.ctx x).jobKey } else s

/-- The same for the lines of a range. -/
def State.reEncryptRange (s : State) (x pa n : Nat) : State :=
  if inNode pa then (List.range (lineOf (pa + n - 1) + 1 - lineOf pa)).foldl (fun s i => s.reEncrypt x (lineOf pa + i)) s else s

/-- Access must go outside the package and come back: a host or node line that the proxy does not hold, an access that is
fresh, or an atomic (R385, R387, R443). -/
def State.goesOutside (s : State) (x : Nat) (op : AccOp) (pa : Nat) : Bool :=
  if inHbm pa then false
  else
    match op with
    | .load _ _ fresh _ => fresh || !s.proxied x (lineOf pa)
    | .atomic _ _ _ _ _ | .watch => true
    | .store _ _ _ | .share _ | .publish _ _ _ => false
    | .flagStore _ _ _ dataDone => dataDone
    | .reduce _ _ _ written => written

/-- The node of the address cannot be reached (R382). -/
def State.unreachable (s : State) (pa : Nat) : Bool :=
  if !inNode pa then false
  else
    let N := s.node (nodeOf pa)
    !(N.en && decide (N.esc.toNat < 24) && N.mask.getLsbD N.esc.toNat &&
      (List.range 24).any fun p => N.mask.getLsbD p && (s.port p).state == .up)

/-- The state word of an object's header: version, then pins (R354). -/
def pinsOf (w : Nat) : Nat := w % 65536
def bumpVersion (w : Nat) (pins : Nat) : Nat := (w / 65536 + 1) % 65536 * 65536 + pins

/-- The COUNT of a reduction at its control line (R397): one indivisible step. -/
def State.count (s : State) (T : Team) (cl o n : Nat) (op : RedOp) : State :=
  let die := dieOf T.core
  let s := s.gather die cl 128
  let rd (a w : Nat) : Nat := ofBytes (s.mem.read (homeDie cl) (cl + a) w)
  let fn : Nat := match op with
    | .fadd => 0 | .add => 1 | .fmax => 2 | .fmin => 3 | .maxS => 4 | .minS => 5
  let N := rd 0 4
  let L := rd 4 4
  let old := rd 8 4
  let cur := rd 12 2
  let bad := decide (N < 1) || decide (256 < N) || decide (L % 16 ≠ 0) || decide (L < 16) || decide (65536 < L) ||
    decide (o < L) || decide (L * (N + 1) < o + n) || decide (2 ^ 37 < cl % 2 ^ 38 - 2 ^ 37 + L * (N + 1)) ||
    (decide (cur ≠ 0) && decide (cur ≠ fn + 1)) || decide (N * L < old + n)
  let flags := if bad then rd 14 2 ||| 1 else rd 14 2
  let data := toBytes 4 (old + n) ++ toBytes 2 (if cur = 0 then fn + 1 else cur) ++ toBytes 2 flags
  let s := (s.storeAt die (cl + 8) data true).1
  let s := { s with
    mem := { s.mem with flights := s.mem.flights.map fun (f : Flight) => if f.addr = cl + 8 then { f with outside := false } else f }
    counts := tput cl ((if cur = 0 then [] else tget [] cl s.counts) ++ [(o, n)]) s.counts }
  if old < N * L ∧ N * L ≤ old + n then
    { s with
      fresh := s.fresh + 1
      rounds := s.rounds ++ [{ id := s.fresh, ctx := T.ctx, core := T.core, cl := cl, op := op }] }
  else s

/-- Every copy of these stores arrives on every die. -/
def Mem.arriveAll (m : Mem) (ids : List Nat) : Mem := (allDies.foldl (fun m d => m.arrive ids d) m).settled

/-- The bytes that a thread would consume (R422): of a load, a watch, an ATOM. -/
def AccOp.consumes : AccOp → Nat
  | .load n _ _ _ => n
  | .watch => 4
  | .atomic op _ _ _ returns => if returns then (if aopWide op then 8 else 4) else 0
  | .store _ _ _ | .flagStore _ _ _ _ | .reduce _ _ _ _ | .share _ | .publish _ _ _ => 0

/-- The messages to a node wait: no adaptive request channel of an UP port of its MASK takes one, nor the escape channel of ESC
(R381, R382). -/
def State.egressBlocked (s : State) (pa : Nat) : Bool :=
  if !inNode pa then false
  else
    let N := s.node (nodeOf pa)
    let free (p : Nat) (c : Nat) : Bool := (s.port p).state == .up && !(s.port p).stopped.contains c
    !((List.range 24).any (fun p => N.mask.getLsbD p && (free p 0 || free p 1 || free p 2)) || free N.esc.toNat 3)

/-- An atomic at the host holds the line: every other access waits behind it at the proxy (R443). -/
def State.lineBusy (s : State) (pa : Nat) : Bool :=
  inHost pa && s.outside.any fun o => o.line == lineOf pa && match (s.team? o.team).bind fun T => T.req? o.req with
    | some q => match q.op with
      | .atomic _ _ _ _ _ => true
      | .load _ _ _ _ | .watch | .store _ _ _ | .flagStore _ _ _ _ | .reduce _ _ _ _ | .share _ | .publish _ _ _ => false
    | none => false

/-- The egress queue of an address outside the package: the host port's, or that of the port of the node's escape channel (log 55). -/
def State.egressOf (s : State) (pa : Nat) : Nat := if inNode pa then egressQueue (min 23 (s.node (nodeOf pa)).esc.toNat) else hostEgress

/-- Numbers of the agents that are not threads, above those of the teams: a kind and a number of the kind. -/
def agentNumber (kind n : Nat) : Nat := 2 ^ 64 * (kind + 1) + n

/-- The shared queues on the way of an access from a die, in their order (R17): the crossbar to another die, the slice of the line, and the
memory behind it where it misses, or the way outside the package. -/
def State.routeFrom (s : State) (die : Nat) (pa : Option Nat) : List Nat :=
  match pa with
  | none => [crossbarQueue die]
  | some pa =>
    (if homeDie pa = die then [] else [crossbarQueue die]) ++ [sliceQueue (sliceOf pa)] ++
      (if inHbm pa then (if s.llcHit pa then [] else [memQueue (pa / 2 ^ 36)]) else [s.egressOf pa])

/-- A request is sent outside the package, or waits to be sent; while an atomic is at the host its proxy holds no copy. -/
def State.sendOutside (s : State) (r : Req) (pa : Nat) : State × Perf :=
  if s.egressBlocked pa then (s, .egress (s.egressOf pa))
  else
    let s := match r.op with
      | .atomic _ _ _ _ _ =>
        if inHost pa then { s with proxies := s.proxies.filter fun p => p.line != lineOf pa } else s
      | .load _ _ _ _ | .watch | .store _ _ _ | .flagStore _ _ _ _ | .reduce _ _ _ _ | .share _ | .publish _ _ _ => s
    (s, .hold { r with stage := .outside pa })

/-! ## Stash lines and LLC lines (R248, R251, R254, R444) -/

/-- The mapping of a team that holds an address. -/
def Team.mapped? (T : Team) (va : Nat) : Option StashMap :=
  T.maps.find? fun m => decide (m.base.toNat ≤ va) && decide (va < m.base.toNat + m.len)

/-- A team comes to hold a line as a read copy, or owned. A line it owns stays owned. -/
def Team.holdLine (T : Team) (line phys : Nat) (owned : Bool) (now lease : Nat) : Team :=
  match T.lines.find? fun l => l.line == line with
  | some l => if owned then { T with lines := T.lines.map fun x => if x.line == line then { l with owned := true } else x } else T
  | none => { T with lines := T.lines ++ [{ line := line, owned := owned, since := now, phys := phys, lease := lease }] }

/-- Where an access is made (R248, R251, R253, R254). -/
inductive Where where
  /-- in the team's stash where a mapping covers the address, as a read or as a write -/
  | stash (write : Bool)
  /-- at the cluster's atomic unit, which takes the line from its home -/
  | cluster
  /-- at the home, which recalls every stash copy -/
  | home
  deriving DecidableEq, Repr

def AccOp.where_ : AccOp → Where
  | .load _ _ _ _ | .watch => .stash false
  | .store _ _ _ => .stash true
  | .atomic _ sc _ _ _ => match sc with
    | .team => .stash true
    | .clu => .cluster
    | .unscoped | .die | .pkg | .sys => .home
  | .flagStore _ _ _ dataDone => if dataDone then .home else .stash true
  | .reduce _ _ _ _ | .share _ | .publish _ _ _ => .home

/-- An atomic on a line of the host or a node is made at its home, as one of scope .sys (R252). -/
def AccOp.whereAt (op : AccOp) (pa : Nat) : Where :=
  match op with
  | .atomic _ _ _ _ _ => if inHbm pa then op.where_ else .home
  | .load _ _ _ _ | .watch | .store _ _ _ | .flagStore _ _ _ _ | .reduce _ _ _ _ | .share _ | .publish _ _ _ => op.where_

/-- An access reaches its line: stash copies that it recalls go, the team's own stash fills the line or takes it owned, and an
access that no stash copy serves reaches the home slice. A watched line is never owned (R296). A copy never changes a value (log 4). -/
def State.reach (s : State) (k : Nat) (T : Team) (r : Req) (pa : Nat) : State :=
  let line := lineOf pa
  let s := s.correct pa (max 1 r.op.width)
  let mapped := (T.mapped? r.va.toNat).isSome && r.hint != 3
  match r.op.whereAt pa with
  | .stash write =>
    if mapped then
      let s := s.recall line (some k) false
      let own := write && !s.isWatched line
      let served := T.lines.any fun l => l.line == lineOf r.va.toNat && (l.owned || !write)
      let s := if served then s else s.touchLlc pa r.hint
      if r.hint = 1 then s
      else s.modTeam k fun T => T.holdLine (lineOf r.va.toNat) line own s.clock s.regs.leaseLen
    else (s.recall line none false).touchLlc pa r.hint
  | .cluster => (s.recall line none false).touchLlc pa r.hint
  | .home => (s.recall line none true).touchLlc pa r.hint

/-! ## Performing a request -/

/-- A store or atomic has gone to a node and come back: it is acknowledged. -/
def Mem.ackLast (m : Mem) (fresh : Nat) : Mem :=
  { m with flights := m.flights.map fun f => if f.id + 1 = fresh then { f with outside := false } else f }

/-- The store made last is the write of an ATOM or RED of a scope past the die. -/
def Mem.markAtom (m : Mem) (fresh : Nat) (sc : Scope) : Mem :=
  if crosses sc then { m with flights := m.flights.map fun f => if f.id + 1 = fresh then { f with atom := true } else f } else m

/-- The same for an access that writes. -/
def State.reEncryptFor (s : State) (x : Nat) (op : AccOp) (pa : Nat) : State :=
  match op with
  | .store _ _ _ | .atomic _ _ _ _ _ | .flagStore _ _ _ _ => s.reEncrypt x (lineOf pa)
  | .reduce _ _ _ written => if written then s else s.reEncrypt x (lineOf pa)
  | .load _ _ _ _ | .watch | .share _ | .publish _ _ _ => s

/-- A request performs at a physical address (R199 to R215, R250, R253, R387, R397). The ATOM ADD of a node flag, once it is back from the
node, is acknowledged there, as an ATOM is. -/
def State.performAt (s : State) (k : Nat) (T : Team) (r : Req) (pa : Nat) (back : Bool) : State × Perf :=
  let die := dieOf T.core
  let s := (s.reach k T r pa).reEncryptFor T.ctx r.op pa
  match r.op with
  | .load n _ fresh sc =>
    let s := s.fenceAt die pa sc
    let s := if fresh then s.dropProxies else s
    let late := s.unackedOn die
    if sc = .sys ∧ late ≠ [] then (s, .hold { r with stage := .settling late })
    else
      let s := (s.acquireOn die pa n).fenceAt die pa sc
      (s, .done (s.mem.read (accessDie die pa) pa n) true)
  | .watch =>
    let line := lineOf pa * 128
    let s := s.gather die line 128
    let olds := (s.mem.flights.filter fun (f : Flight) => f.touches line 128).map fun (f : Flight) => f.id
    let s := { s with mem := s.mem.arrive olds (homeDie pa) }
    let s := s.acquireOn die line 128
    let v := s.mem.read (accessDie die pa) pa 4
    (s.armWatch k r.tid pa, .done v true)
  | .store data release sc =>
    if data.isEmpty then (s, .done [] true)
    else
      let fence := if sc then release else Scope.unscoped
      let s := s.fenceAt die pa fence
      let late := s.unackedOn die
      if release = .sys ∧ late ≠ [] then (s, .hold { r with stage := .settling late })
      else
        let x := s.storeAt die pa data (crosses release)
        let s := x.1.fenceAt die pa fence
        if fence = .sys ∧ s.unacked [x.2] then
          (s, .hold { r with op := .store [] .unscoped false, stage := .settling [x.2], counter := 0 })
        else (s, .done [] true)
  | .atomic op sc v new _ =>
    let n := if aopWide op then 8 else 4
    let x := s.rmw die pa n false fun old => aopApply op old v new
    let wrote := x.1.fresh != s.fresh
    let m := if wrote then x.1.mem.markAtom x.1.fresh sc else x.1.mem
    ({ x.1 with mem := if back && wrote then m.ackLast x.1.fresh else m }, .done (toBytes n x.2.toNat) true)
  | .flagStore data flag sc dataDone =>
    if !dataDone then
      let x := s.storeAt die pa data false
      let s := if crosses sc then { x.1 with mem := x.1.mem.arriveAll [x.2] } else x.1
      (s, .hold { r with op := .flagStore data flag sc true, va := flag, stored := some x.2
                         stage := .settling (if sc = .sys then s.unackedOn die else []) })
    else
      let x := s.rmw die pa 4 (crosses sc) fun old => some (old + 1)
      ({ x.1 with mem := if back then x.1.mem.ackLast x.1.fresh else x.1.mem }, .done [] true)
  | .reduce units cl op written =>
    if !written then
      let w := units.foldl (fun acc u =>
        let x := acc.1.storeAt die (pa + (u.1 - r.va).toNat) u.2 false
        (x.1, acc.2 ++ [x.2])) (s, ([] : List Nat))
      let s := { w.1 with mem := w.1.mem.arriveAll w.2 }
      (s, .hold { r with op := .reduce (units.map fun u => (BitVec.ofNat 64 (pa + (u.1 - r.va).toNat), u.2)) cl op true
                         va := cl, stage := .settling w.2 })
    else
      let S := pa - 2 ^ 37
      let lo := (units.foldl (fun a u => min a u.1.toNat) (pa + 2 ^ 38)) - S
      (s.count T pa lo (16 * units.length) op, .done [] true)
  | .share _ | .publish _ _ _ => (s, .done [] true)

/-- The flag of a STFL of scope .sys: a release that follows the stores outside the package that its die's order holds (R216, R253). -/
def AccOp.sysFlag : AccOp → Bool
  | .flagStore _ _ sc dataDone => dataDone && sc == .sys
  | .load _ _ _ _ | .watch | .store _ _ _ | .atomic _ _ _ _ _ | .reduce _ _ _ _ | .share _ | .publish _ _ _ => false

/-- The line stands in the team's scratch, which reads as it was written there, whatever the memory behind it holds (R117). -/
def Team.inScratch (T : Team) (va : Nat) : Bool :=
  (T.maps.any fun m => m.scratch && decide (m.base.toNat ≤ va) && decide (va < m.base.toNat + m.len)) &&
    T.lines.any fun l => l.line == lineOf va && l.owned

/-- A request comes to perform at a physical address: it meets uncorrectable data of the part or the host (R422), a node that cannot be
reached, or the way outside the package first; back is set when what it asked of the host or a node has come back. -/
def State.perform (s : State) (k : Nat) (T : Team) (r : Req) (pa : Nat) (back : Bool) : State × Perf :=
  let bad := if r.op.consumes = 0 ∨ inNode pa ∨ T.inScratch r.va.toNat then none else s.badBlock? pa r.op.consumes
  let late := if r.op.sysFlag && !back then s.unackedOn (dieOf T.core) else []
  if bad.isSome then (s.meetBad (bad.getD (0, false)), .bad)
  else if s.unreachable pa then (s, .hold (r.backoff s.clock))
  else if late ≠ [] then (s, .hold { r with stage := .settling late })
  else if (s.goesOutside T.ctx r.op pa || s.lineBusy pa) && !back then s.sendOutside r pa
  else s.performAt k T r pa back

/-! ## References (R353) -/

def refRegion (r : DWord) : BitVec 4 := r.extractLsb' 60 4
def refColour (r : DWord) : BitVec 4 := r.extractLsb' 56 4
def refNull (r : DWord) : Bool := refRegion r == 0
/-- The object address of a reference. -/
def refObj (r : DWord) : Nat := (r.extractLsb' 4 48).toNat * 16
/-- A reference healed to a colour and an object; its TAG stays. -/
def healRef (r : DWord) (colour : BitVec 4) (obj : Nat) : DWord :=
  refRegion r ++ colour ++ (0#4 ++ BitVec.ofNat 48 (obj / 16) ++ r.extractLsb' 0 4)

/-! ## References in a request (R360, R362, R366) -/

/-- The leaf that serves an address, by its cached or walked translation. -/
def State.leaf? (s : State) (core x va : Nat) : Option TlbEntry :=
  match (s.translate core x va).2 with
  | .page e => some e
  | .refused _ => none

/-- The page that holds an object's header is EVAC: the object is in evacuation (R354). -/
def State.inEvac (s : State) (core x va : Nat) : Bool :=
  match s.leaf? core x va with
  | some e => pteSt e.pte == 3
  | none => false

/-- The physical address of a byte of a context, if its page is not ABSENT. -/
def State.phys? (s : State) (core x va : Nat) : Option Nat :=
  match s.leaf? core x va with
  | some e => if pteSt e.pte = 0 then none else some (e.phys (s.ctx x).swaps va)
  | none => none

/-- The four bytes of the state word of an object's header, read where they are coherent (R358); zero on an ABSENT page. -/
def State.headerState (s : State) (core x obj : Nat) : Nat :=
  match s.phys? core x (obj + 4) with
  | some pa => ofBytes (s.newest pa 4)
  | none => 0

/-- The state word of an object's header is uncorrectable. -/
def State.badHeader? (s : State) (core x obj : Nat) : Option (Nat × Bool) :=
  match s.phys? core x (obj + 4) with
  | some pa => s.badBlock? pa 4
  | none => none

/-- Writes the state word, at the home of its line (R251, R354). -/
def State.setHeaderState (s : State) (core x obj v : Nat) (release : Bool) : State :=
  match s.phys? core x (obj + 4) with
  | some pa => ((((s.recall (lineOf pa) none true).touchLlc pa 0).gather (dieOf core) pa 4).storeAt (dieOf core) pa (toBytes 4 v) release).1
  | none => s

/-- The home slot of an object in a forwarding table (R359). -/
def slotOf (a log2 : Nat) : Nat := a / 16 % 2 ^ 32 * 0x9E3779B9 % 2 ^ 32 / 2 ^ (32 - log2)

/-- The address of slot number i of the sixteen of an object. -/
def Region.slotAddr (R : Region) (a i : Nat) : Nat := R.ftab.toNat + 16 * ((slotOf a R.ftlog2 + i) % 2 ^ R.ftlog2)

/-- lookup(A) (R359). -/
def State.lookup (s : State) (core x : Nat) (R : Region) (a : Nat) : Option Nat :=
  ((List.range 16).find? fun i => ofBytes (s.peek core x (R.slotAddr a i) 8) == a + 1).map fun i =>
    ofBytes (s.peek core x (R.slotAddr a i + 8) 8)

/-- A slot that lookup(A) examines, up to the one that it finds, holds uncorrectable data (R422). -/
def State.badLookup? (s : State) (core x : Nat) (R : Region) (a : Nat) : Option (Nat × Bool) :=
  ((List.range 16).findSome? fun i =>
    match (s.phys? core x (R.slotAddr a i)).bind fun pa => s.badBlock? pa 16 with
    | some b => some (some b)
    | none => if ofBytes (s.peek core x (R.slotAddr a i) 8) = a + 1 then some none else none).join

/-- Follows forwardings from an object address, through at most n headers (R358); none where a forwarding is not found, or there is no
end of them. -/
def State.follow (s : State) (core x : Nat) (R : Region) : Nat → Nat → Option Nat
  | 0, _ => none
  | n + 1, a =>
    if pinsOf (s.headerState core x a) = 0xFFFF then
      match s.lookup core x R a with
      | some b => s.follow core x R n b
      | none => none
    else some a

/-- The headers and slots that lead from an object address on hold uncorrectable data (R422). -/
def State.badFollow? (s : State) (core x : Nat) (R : Region) : Nat → Nat → Option (Nat × Bool)
  | 0, _ => none
  | n + 1, a =>
    match s.badHeader? core x a with
    | some b => some b
    | none =>
      if pinsOf (s.headerState core x a) = 0xFFFF then
        match s.badLookup? core x R a with
        | some b => some b
        | none => match s.lookup core x R a with
          | some c => s.badFollow? core x R n c
          | none => none
      else none

/-- A queued access through a reference to an object in evacuation meets uncorrectable data on the way to its present copy. -/
def State.badChain? (s : State) (T : Team) (r : Req) : Option (Nat × Bool) :=
  if r.region = 0 ∨ !s.inEvac T.core T.ctx r.obj.toNat then none
  else
    let R := (s.ctx T.ctx).region r.region
    s.badFollow? T.core T.ctx R (R.size / 16 + 1) r.obj.toNat

/-- The object of a queued access through a reference that is in evacuation has moved on (R360, R366): its present copy; some none
where that is not found. A region has no more headers than its size holds. -/
def State.movedOn? (s : State) (T : Team) (r : Req) : Option (Option Nat) :=
  if r.region = 0 ∨ !s.inEvac T.core T.ctx r.obj.toNat then none
  else
    let R := (s.ctx T.ctx).region r.region
    match s.follow T.core T.ctx R (R.size / 16 + 1) r.obj.toNat with
    | some b => if b = r.obj.toNat then none else some (some b)
    | none => some none

/-- Where a queued access through a reference now goes: to the object's present copy. -/
def State.redirect (s : State) (T : Team) (r : Req) : Req :=
  match s.movedOn? T r with
  | some (some b) => { r with va := r.va - r.obj + BitVec.ofNat 64 b, obj := BitVec.ofNat 64 b }
  | some none | none => r

/-- A thread's reference is healed by a request that has resolved again, unless the register denotes another object by now, or waits for a
younger result (R239, R358, R366). -/
def Thread.heal (t : Thread) (n : BitVec 4) (colour : BitVec 4) (old new : Nat) : Thread :=
  if refObj (t.ref n) = old ∧ (tget? n.toNat t.pendRefs).isNone ∧ !refNull (t.ref n) then t.setRef n (healRef (t.ref n) colour new) else t

/-- A request that goes on goes to its object's present copy, and heals its reference. -/
def State.resolveAgain (s : State) (k : Nat) (T : Team) (r : Req) : State × Req :=
  let q := s.redirect T r
  (match r.refn with
  | some n => if q.obj = r.obj then s else s.modThread k r.tid fun t => t.heal n ((s.ctx T.ctx).region r.region).colour r.obj.toNat q.obj.toNat
  | none => s, q)

/-- A store through a reference to an object in evacuation: the three steps of R366 at once, where its data store finds its way. Where the object has been forwarded it
writes nothing and resolves again, and with 65,534 pins it reissues after backoff. The opening update is a heap access: it meets uncorrectable data as one (R422). -/
def State.performRef (s : State) (k : Nat) (T : Team) (r : Req) (pa : Nat) (back : Bool) : State × Perf :=
  match r.op with
  | .store _ _ _ =>
    if r.region ≠ 0 ∧ s.inEvac T.core T.ctx r.obj.toNat ∧ s.unreachable pa = false ∧ (s.lineBusy pa && !back) = false then
      match s.badHeader? T.core T.ctx r.obj.toNat with
      | some b => (s.meetBad b, .bad)
      | none =>
      let w := s.headerState T.core T.ctx r.obj.toNat
      if pinsOf w = 0xFFFF then (s, .hold { r with stage := .behind })
      else if pinsOf w = 0xFFFE then (s, .hold (r.backoff s.clock))
      else
        let s := s.setHeaderState T.core T.ctx r.obj.toNat (bumpVersion w (pinsOf w + 1)) false
        let x := s.perform k T r pa back
        (x.1.setHeaderState T.core T.ctx r.obj.toNat (bumpVersion w (pinsOf w)) true, x.2)
    else s.perform k T r pa back
  | .load _ _ _ _ | .watch | .atomic _ _ _ _ _ | .flagStore _ _ _ _ | .reduce _ _ _ _ | .share _ | .publish _ _ _ =>
    s.perform k T r pa back

end Sys2Proof.Machine
end

