-- ==== Sys2Proof/Machine/Publish.lean ====
section
/-! DEFINITION. Translations that go with the requests that used them (R235, R236, R269), and the publish step (R219, R348,
R349). -/

namespace Sys2Proof.Machine

/-! ## Ranges -/

/-- Two ranges share a unit. -/
def overlap (a n b m : Nat) : Bool := decide (a < b + m) && decide (b < a + n)

/-- No address of the range is out of canonical form, and it does not wrap. -/
def canonicalRange (a n : Nat) : Bool :=
  decide (a + n ≤ 2 ^ 64) && canonical (BitVec.ofNat 64 a) && canonical (BitVec.ofNat 64 (a + n - 1)) &&
    decide (n ≤ 2 ^ 56)

/-- The lines of a range leave the stash. -/
def Team.dropLines (T : Team) (base len : Nat) : Team :=
  { T with lines := T.lines.filter fun l => !overlap (l.line * 128) 128 base len }

/-! ## Requests whose translation goes (R269) -/

/-- A request with a physical address that it has not used yet, or that it will use again (R238). -/
def Stage.holdsAddress : Stage → Bool
  | .translated _ | .queued _ _ _ _ | .atDoor _ (some _) _ | .arrived _ true _ => true
  | .backoff _ | .onPage _ | .onPublish | .onWalk _ | .behind | .atCore _ | .walking _ _ _ | .atDoor _ none _ | .outside _
  | .arrived _ false _ | .settling _ => false

/-- The requests that hold an address and meet a test bounce, and with each the younger ones of its thread (R236). The spec gives a bounce
by INVAL, MIGPUB, FREE or a publish no wake event and no backoff; the model lets it reissue directly, as one that joined an older bounce
(DESIGN CHOICE, log 93). -/
def Team.bounceWhere (T : Team) (p : Req → Bool) (now : Nat) : Team :=
  let hit := T.reqs.filter fun r => r.stage.holdsAddress && p r
  if hit.isEmpty then T
  else
    { T with reqs := T.reqs.map fun q =>
        if hit.any fun h => h.tid == q.tid && decide (h.id ≤ q.id) then
          { q with stage := q.stage.parkBehind, parkedAt := if q.stage.isParked then q.parkedAt else now }
        else q }

/-- A request touches a range of a context: by its own address, or by the one that serves it through the swap table. -/
def Req.touches (r : Req) (l : List Swap) (va len : Nat) : Bool :=
  let n := max 1 r.op.width
  overlap (r.va.toNat % 2 ^ 57) n (va % 2 ^ 57) len || overlap (swapVa l r.va.toNat % 2 ^ 57) n (va % 2 ^ 57) len

/-- Requests that hold an address from a translation of the range bounce, and reissue (R235, R269). l is the context's swap
table. -/
def Team.bounceRange (T : Team) (l : List Swap) (va len now : Nat) : Team :=
  (T.bounceWhere (fun r => r.touches l va len) now).dropLines va len

/-- The ranges whose accesses the page-table entries of a range serve through exchanged pairs (R348). -/
def swapImages (l : List Swap) (va len : Nat) : List (Nat × Nat) :=
  let image (a b n : Nat) : List (Nat × Nat) :=
    let lo := max va a
    let hi := min (va + len) (a + n)
    if lo < hi then [(b + (lo - a), hi - lo)] else []
  l.flatMap fun q => image q.b q.s q.len ++ image q.s q.b q.len

/-- Every cached translation of a context on a range goes, and the requests that used one bounce. -/
def State.removeRange (s : State) (x va len : Nat) : State :=
  let s := ((va, len) :: swapImages (s.ctx x).swaps va len).foldl (fun s r => s.dropTranslations x (r.1 % 2 ^ 57) r.2) s
  { s with teams := s.teams.map fun kt => if kt.2.ctx == x then (kt.1, kt.2.bounceRange (s.ctx x).swaps va len s.clock) else kt }

/-- Requests that wait for a publish are translated again (R231, R274). -/
def State.wakePublish (s : State) (x va len : Nat) : State :=
  let l := (s.ctx x).swaps
  { s with teams := s.teams.map fun kt =>
      if kt.2.ctx == x then
        (kt.1, { kt.2 with reqs := kt.2.reqs.map fun r =>
          if r.stage == .onPublish && r.touches l va len then { r with stage := .behind } else r })
      else kt }

/-! ## The publish step (R219, R348, R349) -/

/-- The pages of a range in a context: the address of each, and its leaf. -/
def State.pagesOf (s : State) (core x : Nat) : Nat → Nat → Nat → List (Nat × Option TlbEntry)
  | 0, _, _ => []
  | n + 1, va, e =>
    if e ≤ va then []
    else
      match s.leaf? core x va with
      | some l => (va, some l) :: s.pagesOf core x n (va / l.size * l.size + l.size) e
      | none => (va, none) :: s.pagesOf core x n (va / 2 ^ 16 * 2 ^ 16 + 2 ^ 16) e

/-- A page serves a publish: RESIDENT, readable, writable, in HBM. -/
def publishable (p : Nat × Option TlbEntry) : Bool :=
  match p.2 with
  | some e => pteSt e.pte == 1 && pteR e.pte && pteW e.pte && inHbm e.pa
  | none => false

def pageSize (p : Nat × Option TlbEntry) : Nat :=
  match p.2 with
  | some e => e.size
  | none => 2 ^ 16

/-- The base of the first pinned page of a list. -/
def State.firstHeld (s : State) (core x : Nat) (l : List (Nat × Option TlbEntry)) : Option Nat :=
  (l.find? fun p => match p.2 with
    | some e => match (s.ctx x).managed? e p.1 with
      | some r => s.holdCount core x r p.1 != 0
      | none => false
    | none => false).map fun p => p.1

/-- The pair is in the swap table, in either order. -/
def sameSwap (q : Swap) (b sh n : Nat) : Bool :=
  q.len == n && ((q.b == b && q.s == sh) || (q.b == sh && q.s == b))

/-- The address of the first page of either range that cannot be published. -/
def firstClosed (pb ps : List (Nat × Option TlbEntry)) : Nat :=
  match (pb ++ ps).find? fun p => !publishable p with
  | some p => p.1
  | none => match (pb.zip ps).find? fun p => pageSize p.1 != pageSize p.2 with
    | some p => p.1.1
    | none => 0

/-- The status of a publish, and for status 2 the first pinned page, for status 4 the first address that fails (R347, R349). -/
def State.publishStatus (s : State) (core x b sh n : Nat) : Nat × Nat :=
  let pb := s.pagesOf core x (n / 2 ^ 16 + 2) b (b + n)
  let ps := s.pagesOf core x (n / 2 ^ 16 + 2) sh (sh + n)
  let l := (s.ctx x).swaps
  if n = 0 ∨ overlap b n sh n ∨ !canonicalRange b n ∨ !canonicalRange sh n ∨
      ((pb ++ ps).any fun p => b % pageSize p != 0 || sh % pageSize p != 0 || n % pageSize p != 0) then (3, 0)
  else if !((pb ++ ps).all publishable) || (pb.map pageSize) != (ps.map pageSize) then (4, firstClosed pb ps)
  else
    match s.firstHeld core x (pb ++ ps) with
    | some p => (2, p)
    | none =>
      if decide (64 ≤ l.length) ||
          (l.any fun q => !sameSwap q b sh n && (overlap q.b q.len b n || overlap q.b q.len sh n || overlap q.s q.len b n ||
            overlap q.s q.len sh n)) then (1, 0)
      else (0, 0)

/-- The publish step: every store that has performed anywhere has arrived everywhere, the pair changes places, translations of
both ranges go, watches on both trigger (R215, R219, R297). -/
def State.publishStep (s : State) (core x b sh n : Nat) : State :=
  let frames := (s.pagesOf core x (n / 2 ^ 16 + 2) b (b + n)) ++ s.pagesOf core x (n / 2 ^ 16 + 2) sh (sh + n)
  let s := { s with mem := s.mem.flushAll }
  let s := (s.removeRange x b n).removeRange x sh n
  let s := s.modCtx x fun C =>
    { C with swaps := if C.swaps.any fun q => sameSwap q b sh n then C.swaps.filter fun q => !sameSwap q b sh n
        else C.swaps ++ [{ b := b, s := sh, len := n }] }
  let s := (s.wakePublish x b n).wakePublish x sh n
  s.wakeLinesOf fun l => frames.any fun p => match p.2 with
    | some e => decide (e.pa ≤ l * 128) && decide (l * 128 < e.pa + e.size)
    | none => false

/-- What PUB does when it comes to act (R349): its status, and the publish step where that is 0. -/
def State.publishAct (s : State) (T : Team) (b sh n : Nat) : State × Word :=
  let st := (s.publishStatus T.core T.ctx b sh n).1
  (if st = 0 then s.publishStep T.core T.ctx b sh n else s, BitVec.ofNat 32 st)

end Sys2Proof.Machine
end

