-- ==== Sys2Proof/Machine/Issue.lean ====
section
/-! DEFINITION. The issue of an access with its check (R228, R240 to R243), and the progress of the requests of a thread in their
order (R200, R235 to R238, R244). -/

namespace Sys2Proof.Machine

/-! ## Retranslation (R235) -/

/-- Where a request stands once it has been translated (again): the outcomes of R235. -/
inductive Place where
  | at_ (pa : Nat)
  /-- the ring area, at an offset, or a publish step -/
  | core (o : Nat)
  | zero
  | stall (st : Stage)
  /-- the page, and whether it was denied rather than ABSENT -/
  | missing (page : Nat) (denied : Bool)
  deriving DecidableEq, Repr

/-- The base of the page whose entry serves an address (R348): of the leaf in its translation, else of the one in the tables, clean or
not, else of 64 KiB. -/
def State.pageOf (s : State) (T : Team) (va : Nat) : Nat :=
  let a := swapVa (s.ctx T.ctx).swaps va
  match s.leaf? T.core T.ctx va with
  | some e => pageBase a e.size
  | none => pageBase a (s.spanOf T.ctx a)

/-- The outcome of a retranslation (R235). A forwarding that is not found denies the access as a page does (log 25). -/
def State.place (s : State) (T : Team) (r : Req) : State × Place :=
  match r.op with
  | .publish _ _ _ => (s, .core 0)
  | .load _ _ _ _ | .watch | .store _ _ _ | .atomic _ _ _ _ _ | .flagStore _ _ _ _ | .reduce _ _ _ _ | .share _ =>
    if s.movedOn? T r = some none then (s, if r.op.isLoad then .zero else .missing (s.pageOf T r.va.toNat) true)
    else
    let x := s.check T r.va (max 1 r.op.width) r.op.need true false
    match x.2 with
    | .ring o => (x.1, .core o)
    | .absent p => (x.1, if r.op.isLoad then .zero else .missing p false)
    | .trap _ => (x.1, if r.op.isLoad then .zero else .missing (s.pageOf T r.va.toNat) true)
    | .ok pa m => (x.1, if m && r.op.need.writes then .stall .onPublish else .at_ pa)

/-- The translation of the address needs a walk that has not been made (R263). -/
def State.needsWalk (s : State) (T : Team) (va : DWord) (write : Bool) : Bool :=
  !inWindow va && canonical va && (s.extent? T va.toNat write).isNone &&
    (s.cached? T.core T.ctx (swapVa (s.ctx T.ctx).swaps va.toNat)).isNone

/-- Walks in progress in a cluster. -/
def State.walksIn (s : State) (cluster : Nat) : Nat := (s.walks.filter fun w => w.cluster == cluster).length

/-- A walk is not made within the step that needs it: it takes time, or no slot is free (R240, R263), or it reads a table in host memory,
afresh (R443). -/
def State.slowWalk (s : State) (T : Team) (va : DWord) : Bool :=
  s.walkDelay != 0 || decide (16 ≤ s.walksIn (clusterOf T.core)) ||
    (s.walkFar? (clusterOf T.core) T.ctx (swapVa (s.ctx T.ctx).swaps va.toNat) []).isSome

/-- The translation of an address by an engine needs a walk. -/
def State.engineNeeds (s : State) (core x va : Nat) : Bool :=
  canonical (BitVec.ofNat 64 va) && !inWindow (BitVec.ofNat 64 va) && (s.cached? core x (swapVa (s.ctx x).swaps va)).isNone

/-- An engine, the launch front end or the host port walks the tables for an address: what the walk finds is cached, a block that it finds
uncorrectable is marked (R263, R275). -/
def State.engineWalk (s : State) (core x va : Nat) : State :=
  if s.engineNeeds core x va then
    match s.translate core x va with
    | (s, .page e) => s.walkHold core x e va
    | (s, .refused _) => s
  else s

def State.engineWalks (s : State) (core x : Nat) (l : List Nat) : State := l.foldl (fun s va => s.engineWalk core x va) s

/-- What the walk for an address has to wait for first. -/
inductive WalkWait where
  /-- a slot of the cluster's walker (R263) -/
  | slot
  /-- this line of host memory, which holds a table and is read afresh (R443) -/
  | line (n : Nat)
  deriving DecidableEq, Repr

def State.walkWait? (s : State) (core x : Nat) (fetched : List Nat) (va : Nat) : Option WalkWait :=
  if !s.engineNeeds core x va then none
  else if 16 ≤ s.walksIn (clusterOf core) then some .slot
  else (s.walkFar? (clusterOf core) x (swapVa (s.ctx x).swaps va) fetched).map fun n => .line n

/-- The first of some addresses whose walk has to wait. -/
def State.walksWait? (s : State) (core x : Nat) (fetched l : List Nat) : Option WalkWait := l.findSome? fun va => s.walkWait? core x fetched va

/-- A request takes the outcome of its translation. -/
def State.decided (s : State) (k : Nat) (T : Team) (r : Req) : State :=
  match s.place T r with
  | (s, .at_ pa) => s.replace k { r with stage := .translated pa }
  | (s, .core o) => s.replace k { r with stage := .atCore o }
  | (s, .zero) => s.replace k { r with stage := .arrived 0 false (zeroValue r.op) }
  | (s, .stall st) => s.replace k { r with stage := st, parkedAt := s.clock }
  | (s, .missing p denied) =>
    if s.announceFull T.ctx (BitVec.ofNat 64 p) true denied then s.replace k (r.backoff s.clock)
    else (s.replace k { r with stage := .onPage p, parkedAt := s.clock }).parkOn k r.tid p 0 true denied

/-- The address whose walk a request that goes on has to wait for. -/
def State.walkVa? (s : State) (T : Team) (r : Req) : Option DWord :=
  let publish := match r.op with
    | .publish _ _ _ => true
    | .load _ _ _ _ | .watch | .store _ _ _ | .atomic _ _ _ _ _ | .flagStore _ _ _ _ | .reduce _ _ _ _ | .share _ => false
  match r.unchecked with
  | some (_, va :: _) => some va
  | some (_, []) | none => if !publish && s.needsWalk T r.va r.op.need.writes then some r.va else none

/-- A request that goes on is translated again (R235), by a walk of its own where its translation is not cached. -/
def State.retranslate (s : State) (k : Nat) (T : Team) (r : Req) : State :=
  let x := s.resolveAgain k T r
  match x.1.walkVa? T x.2 with
  | some va => x.1.beginWalk k T x.2 va false
  | none => x.1.decided k T x.2

/-! ## The ring window (R334) -/

/-- A request of the window performs in the ring area, with its release or its fences (R212 to R214, R334). -/
def State.performRing (s : State) (k : Nat) (T : Team) (r : Req) (o : Nat) : State × Perf :=
  let die := dieOf T.core
  match r.op with
  | .load n _ fresh sc =>
    let s := s.fenceOn die sc
    let s := if fresh then s.dropProxies else s
    let late := s.unackedOn die
    if sc = .sys ∧ late ≠ [] then (s, .hold { r with stage := .settling late }) else (s, .done (getBytes T.ring o n) true)
  | .store data release _ =>
    let s := s.fenceOn die release
    let late := s.unackedOn die
    if release = .sys ∧ late ≠ [] then (s, .hold { r with stage := .settling late }) else (s.ringStore k r.tid o data, .done [] true)
  | .atomic op _ v new _ =>
    let n := if aopWide op then 8 else 4
    let old : DWord := BitVec.ofNat 64 (ofBytes (getBytes T.ring o n))
    match aopApply op old v new with
    | some w => (s.ringStore k r.tid o (toBytes n w.toNat), .done (toBytes n old.toNat) true)
    | none => (s, .done (toBytes n old.toNat) true)
  | .watch | .flagStore _ _ _ _ | .reduce _ _ _ _ | .share _ | .publish _ _ _ => (s, .done [] true)

/-- The walks of a publish: of the pages of both ranges (R263, R275). -/
def State.publishWalks (s : State) (T : Team) (b sh n : Nat) : State :=
  let pages (va : Nat) : List Nat := (s.pagesOf T.core T.ctx (n / 2 ^ 16 + 2) va (va + n)).map fun p => p.1
  s.engineWalks T.core T.ctx (pages b ++ pages sh)

/-- A request performs at the core: a publish step, or in the ring area. -/
def State.performCore (s : State) (k : Nat) (T : Team) (r : Req) (o : Nat) : State × Perf :=
  match r.op with
  | .publish b sh n =>
    let x := (s.publishWalks T b.toNat sh.toNat n).publishAct T b.toNat sh.toNat n
    (x.1, .done (toBytes 4 x.2.toNat) true)
  | .load _ _ _ _ | .watch | .store _ _ _ | .atomic _ _ _ _ _ | .flagStore _ _ _ _ | .reduce _ _ _ _ | .share _ =>
    s.performRing k T r o

/-! ## The order of requests (R200, R236, R237, R244) -/

/-- It is the oldest request of its thread. -/
def Team.isHead (T : Team) (r : Req) : Bool := ((T.reqsOf r.tid).head?.map fun q => q.id) == some r.id

/-- It has taken its place in the order already: nothing of its instruction waits behind it. -/
def Stage.placed : Stage → Bool
  | .arrived _ false _ | .settling _ => true
  | .backoff _ | .onPage _ | .onPublish | .onWalk _ | .behind | .translated _ | .atCore _ | .walking _ _ _ | .queued _ _ _ _
  | .atDoor _ _ _ | .outside _ | .arrived _ true _ => false

/-- A lower lane of the same instruction still has to take its place (R244). -/
def Team.lowerWaits (T : Team) (group id : Nat) : Bool :=
  group != 0 && T.reqs.any fun q => q.group == group && decide (q.id < id) && !q.stage.placed

/-- It may take its place now: every older request of its thread has left the table, and the lanes below it have taken theirs. -/
def Team.mayPerform (T : Team) (r : Req) : Bool := T.isHead r && !T.lowerWaits r.group r.id

/-- Every older parked request of the thread has reissued (R227). -/
def Team.olderReissued (T : Team) (r : Req) : Bool :=
  (T.reqsOf r.tid).all fun q => !decide (q.id < r.id) || !q.stage.isParked

/-- The lane whose request this one shares is still in the table. -/
def Team.sharedNow (T : Team) (r : Req) : Bool :=
  match r.op with
  | .share id => (T.req? id).isSome
  | .load _ _ _ _ | .watch | .store _ _ _ | .atomic _ _ _ _ _ | .flagStore _ _ _ _ | .reduce _ _ _ _ | .publish _ _ _ => false

/-- What performing has made of a request (a store that has performed at .die no longer counts, R228): it has left the table, or stands where it has to wait. -/
def State.performed (s : State) (k : Nat) (T : Team) (r : Req) (pa : Nat) (p : Perf) : State × Bool :=
  match p with
  | .done v res => (s.retire k r v res, true)
  | .bad => (s.fatal k r.tid 0x82 r.pc r.va r.va, false)
  | .egress q => (s.enterQueue k T r q pa, false)
  | .hold q =>
    let s := s.replace k q
    let s := if q.counter = r.counter then s else s.modThread k r.tid fun t => t.uncount r
    match q.stage with
    | .outside a => ({ s with outside := s.outside ++ [{ line := lineOf a, req := q.id, team := k }] }, false)
    | .settling _ => (s, true)
    | .backoff _ | .onPage _ | .onPublish | .onWalk _ | .behind | .translated _ | .atCore _ | .walking _ _ _ | .queued _ _ _ _
    | .atDoor _ _ _ | .arrived _ _ _ => (s, false)

/-- A request performs at a physical address. One through a reference whose object has moved on since its translation is translated
again (R360, R366). -/
def State.attempt (s : State) (k : Nat) (T : Team) (r : Req) (pa : Nat) : State × Bool :=
  match s.badChain? T r with
  | some b => (s.meetBad b).performed k T r pa .bad
  | none =>
  if (s.movedOn? T r).isSome then ((s.modTeam k fun U => U.setReq { r with stage := .behind }).retranslate k T { r with stage := .behind }, true)
  else
    let x := s.performRef k T r pa false
    x.1.performed k T r pa x.2

/-- One attempt to move the oldest request of a thread on: true if it has left the table or may go on at once. -/
def State.pumpOne (s : State) (k : Nat) (T : Team) (r : Req) : State × Bool :=
  if T.sharedNow r then (s, false)
  else
  match r.stage with
  | .translated pa => if s.viaQueues || T.lowerWaits r.group r.id then (s, false) else s.attempt k T r pa
  | .atCore o =>
    if T.lowerWaits r.group r.id then (s, false)
    else
      let x := s.performCore k T r o
      x.1.performed k T r 0 x.2
  | .arrived pa resident v =>
    if resident && inHbm pa then (if T.lowerWaits r.group r.id then (s, false) else s.attempt k T r pa)
    else (s.retire k r v resident, true)
  | .settling ids =>
    if s.unacked ids then (s, false)
    else if r.op.width = 0 then (s.retire k r [] true, true)
    else (s.retranslate k T r, true)
  | .backoff _ | .onPage _ | .onPublish | .onWalk _ | .behind | .walking _ _ _ | .queued _ _ _ _ | .atDoor _ _ _
  | .outside _ => (s, false)

/-- The requests of a thread move on, oldest first, until one has to wait (R236, R237). -/
def State.pump (s : State) (k i : Nat) : Nat → State
  | 0 => s
  | n + 1 =>
    match s.team? k with
    | none => s
    | some T =>
      match T.reqsOf i with
      | [] => s
      | r :: _ =>
        match s.pumpOne k T r with
        | (s, true) => s.pump k i n
        | (s, false) => s

/-- Enough turns for every request of a team. -/
def State.pumpAll (s : State) (k i : Nat) : State :=
  match s.team? k with
  | some T => s.pump k i (4 * T.reqs.length + 4)
  | none => s

/-! ## Issue (R228, R240) -/

/-- The number of the request that an access becomes. -/
def State.reqId (s : State) (a : Acc) : Nat := if a.id = 0 then s.fresh else a.id

/-- An access enters the table, in a stage. -/
def State.enqueue (s : State) (k i : Nat) (a : Acc) (st : Stage) : State :=
  let pc : DWord := match s.thread? k i with
    | some t => s.trapPc t
    | none => 0
  let r : Req := { id := s.reqId a, tid := i, va := a.va, op := a.op, dest := a.dest, counter := a.counter
                   region := a.region, obj := a.obj, refn := a.refn, pc := pc, stage := st, parkedAt := s.clock, hint := a.hint
                   group := a.group }
  { s with fresh := s.fresh + 1 }.modTeam k fun T =>
    { T with reqs := T.reqs ++ [r] }.modThread i fun t =>
      let t := t.pend r.id r.op r.dest
      { t with cntLd := if r.counter = 1 then t.cntLd + 1 else t.cntLd
               cntSt := if r.counter = 2 then t.cntSt + 1 else t.cntSt
               cntCp := if T.kicksBy r.va r.op then t.cntCp + 1 else t.cntCp }

/-- The lane's value is committed and it goes on. -/
def State.finishLane (s : State) (k i : Nat) (a : Acc) (v : List Byte) (resident : Bool) : State :=
  s.modThread k i fun t => (t.commit a.op a.dest v resident).next

/-- The request that an access becomes when it performs at its issue: it has no number in the table. -/
def Acc.req (a : Acc) (i : Nat) (st : Stage) : Req :=
  { id := 0, tid := i, va := a.va, op := a.op, dest := a.dest, counter := a.counter, region := a.region, obj := a.obj
    refn := a.refn, stage := st, hint := a.hint, group := a.group }

/-- What performing at issue has made of an access: it is complete, or its request takes its place in the table. -/
def State.issued (s : State) (k i : Nat) (T : Team) (a : Acc) (pa : Nat) (p : Perf) : State :=
  match p with
  | .done v res => s.finishLane k i a v res
  | .bad =>
    let pc : DWord := match s.thread? k i with
      | some t => s.trapPc t
      | none => 0
    s.fatal k i 0x82 pc a.va a.va
  | .egress q =>
    let id := s.reqId a
    let s := (s.enqueue k i a (.translated pa)).modThread k i fun t => t.next
    match (s.team? k).bind fun T => T.req? id with
    | some r => s.enterQueue k T r q pa
    | none => s
  | .hold r =>
    let id := s.reqId a
    let s := (s.enqueue k i { a with counter := r.counter } r.stage).modThread k i fun t => t.next
    let s := s.modTeam k fun T => match T.req? id with
      | some q => T.setReq { q with va := r.va, op := r.op, stage := r.stage, parkedAt := r.parkedAt, stored := r.stored }
      | none => T
    match r.stage with
    | .outside b => { s with outside := s.outside ++ [{ line := lineOf b, req := id, team := k }] }
    | .settling _ => s.pumpAll k i
    | .backoff _ | .onPage _ | .onPublish | .onWalk _ | .behind | .translated _ | .atCore _ | .walking _ _ _ | .queued _ _ _ _
    | .atDoor _ _ _ | .arrived _ _ _ => s

/-- An access whose check has passed: it performs at once where no older request of the thread and no lower lane's stands, or takes
its place in the table. -/
def State.startAccess (s : State) (k i : Nat) (T : Team) (a : Acc) (c : Check) : State × Option TrapReq :=
  let older := T.reqsOf i
  let first := older.isEmpty && !T.lowerWaits a.group (s.reqId a)
  let queue (s : State) (st : Stage) : State := (s.enqueue k i a st).modThread k i fun t => t.next
  let parked := older.any fun r => r.stage.isParked
  match c with
  | .trap cause => (s, some { cause := cause, addr := a.va })
  | .absent p =>
    if a.op.isLoad then
      if older.isEmpty then (s.finishLane k i a (zeroValue a.op) false, none)
      else (queue s (.arrived 0 false (zeroValue a.op)), none)
    else if s.announceFull T.ctx (BitVec.ofNat 64 p) true false then (queue s (.backoff (s.clock + backoffTime 0)), none)
    else ((queue s (.onPage p)).parkOn k i p 0 true false, none)
  | .ring o =>
    if T.kicksBy a.va a.op && decide (30 ≤ (match T.threads[i]? with
        | some t => t.cntCp
        | none => 0)) then (s.modThread k i fun t => t.wait .kick, none)
    else if parked then (queue s .behind, none)
    else if !first then (queue s (.atCore o), none)
    else
      let x := s.performCore k T (a.req i (.atCore o)) o
      (x.1.issued k i T a 0 x.2, none)
  | .ok pa migrating =>
    if migrating && a.op.need.writes then (queue s .onPublish, none)
    else if parked then (queue s .behind, none)
    else if !first || s.viaQueues then (queue s (.translated pa), none)
    else
      let x := s.performRef k T (a.req i (.translated pa)) pa false
      (x.1.issued k i T a pa x.2, none)

/-- An aop that the host port carries as an AtomicOp (R252). -/
def hostAtomic (op : AccOp) : Bool :=
  match op with
  | .atomic a _ _ _ returns =>
    match a with
    | .add | .addX => true
    | .xchg | .cas => returns
    | .minS | .maxS | .minU | .maxU | .and | .or | .xor | .incw | .decw | .fadd => false
  | .load _ _ _ _ | .watch | .store _ _ _ | .flagStore _ _ _ _ | .reduce _ _ _ _ | .share _ | .publish _ _ _ => true

/-- The check of one address of an access at issue (R240, R241, R252, R387). -/
def State.checkAcc (s : State) (T : Team) (a : Acc) : State × Check :=
  match s.check T a.va a.op.width a.op.need a.ringOk (a.region == 0) with
  | (s, .ok pa m) => if inHost pa && !hostAtomic a.op then (s, .trap 0x06) else (s, .ok pa m)
  | (s, c) => (s, c)

/-- The check of a flag address (R253): as a store, and on a node line as an atomic (R387). -/
def State.checkFlag (s : State) (T : Team) (flag : DWord) : State × Check :=
  match s.check T flag 4 .store false true with
  | (s, .ok pa m) =>
    match s.nodeCheck T.ctx pa .atomic false with
    | some c => (s, .trap c)
    | none => (s, .ok pa m)
  | (s, c) => (s, c)

/-- The check of a control line (R397): as an atomic of width 4, but trust is not asked for (R387). -/
def State.checkControl (s : State) (T : Team) (cl : DWord) : State × Check :=
  match s.check T cl 4 .store false true with
  | (s, .trap c) => (s, .trap c)
  | (s, c) =>
    match s.leaf? T.core T.ctx cl.toNat with
    | some e => if pteR e.pte then (s, c) else (s, .trap 0x06)
    | none => (s, c)

/-- The managed tests of an address that has passed its check (R370 step 4). -/
def State.managedOk (s : State) (T : Team) (r : BitVec 4) (ea : DWord) : Bool :=
  let R := (s.ctx T.ctx).region r
  decide (R.base ≤ ea.toNat) && decide (ea.toNat < R.base + R.size) &&
    match s.leaf? T.core T.ctx ea.toNat with
    | some e => pteMreg e.pte == r
    | none => false

/-- The checks of one lane of REDN (R397): its staging unit, then its control line, then where the two lie. -/
def State.checkRedn (s : State) (T : Team) (ea cl : DWord) : State × Check × DWord :=
  if ea.toNat % 16 ≠ 0 then (s, .trap 0x05, ea)
  else if cl.toNat % 128 ≠ 0 then (s, .trap 0x05, cl)
  else
    match s.check T ea 16 .store false true with
    | (s, .trap c) => (s, .trap c, ea)
    | (s, .ring _) => (s, .trap 0x06, ea)
    | (s, c1) =>
      match s.checkControl T cl with
      | (s, .trap c) => (s, .trap c, cl)
      | (s, .ring _) => (s, .trap 0x06, cl)
      | (s, c2) =>
        match c1, c2 with
        | .ok pa m, .ok pc n =>
          if inNode pa && decide (pa % 2 ^ 38 < 2 ^ 37) && inNode pc && decide (2 ^ 37 ≤ pc % 2 ^ 38) &&
              nodeOf pa == nodeOf pc then (s, .ok pa (m || n), ea)
          else (s, .trap 0x06, ea)
        | .ok _ _, c => (s, c, ea)
        | c, _ => (s, c, ea)

/-- The check of an access at issue (R240), with the address that a trap reports: of both addresses of STFL, the data's first
(R253), where an ABSENT flag page parks it before its data store; of both of REDN (R397); of one through a reference with the managed
tests (R370). -/
def State.checkIssue (s : State) (T : Team) (a : Acc) : State × Check × DWord :=
  match a.op with
  | .flagStore _ flag _ _ =>
    match s.checkAcc T a with
    | (s, .trap c) => (s, .trap c, a.va)
    | (s, c) =>
      match s.checkFlag T flag with
      | (s, .trap cause) => (s, .trap cause, flag)
      | (s, .ring _) => (s, .trap 0x06, flag)
      | (s, .absent p) =>
        match c with
        | .absent _ => (s, c, a.va)
        | .ok _ _ | .ring _ | .trap _ => (s, .absent p, a.va)
      | (s, .ok _ _) => (s, c, a.va)
  | .reduce _ cl _ _ => s.checkRedn T a.va cl
  | .load _ _ _ _ | .watch | .store _ _ _ | .atomic _ _ _ _ _ | .share _ | .publish _ _ _ =>
    match s.checkAcc T a with
    | (s, c) =>
      if a.region = 0 then (s, c, a.va)
      else
        match c with
        | .trap cause => (s, .trap cause, a.va)
        | .ring _ => (s, .trap 0x06, a.va)
        | .ok _ _ | .absent _ => if s.managedOk T a.region a.va then (s, c, a.va) else (s, .trap 0x0A, a.va)

/-- The addresses whose translations the check of an access needs, in its order; a misaligned second one traps before its translation. -/
def Acc.addresses (a : Acc) : List DWord :=
  match a.op with
  | .flagStore _ flag _ _ => if flag.toNat % 4 = 0 then [a.va, flag] else [a.va]
  | .reduce _ cl _ _ => if cl.toNat % 128 = 0 then [a.va, cl] else []
  | .load _ _ _ _ | .watch | .store _ _ _ | .atomic _ _ _ _ _ | .share _ | .publish _ _ _ => [a.va]

/-- The walks that an access has to wait for before its check can be decided (R240). Alignment is checked before translation. -/
def State.walksFor (s : State) (T : Team) (a : Acc) : List DWord :=
  if a.va.toNat % a.op.width ≠ 0 then [] else a.addresses.filter fun v => s.slowWalk T v && s.needsWalk T v a.op.need.writes

/-- The check of the first address of an access that has two fails: it decides the check before the second is translated (R240, R253,
R397). -/
def State.firstTraps (s : State) (T : Team) (a : Acc) : Bool :=
  let c : Check := match a.op with
    | .flagStore _ _ _ _ => (s.checkAcc T a).2
    | .reduce _ _ _ _ => (s.check T a.va 16 .store false true).2
    | .load _ _ _ _ | .watch | .store _ _ _ | .atomic _ _ _ _ _ | .share _ | .publish _ _ _ => .ring 0
  match c with
  | .trap _ => true
  | .ok _ _ | .ring _ | .absent _ => false

/-- A check waits for the walks of a list: not where its first address, translated already, decides it. -/
def State.mustWait (s : State) (T : Team) (a : Acc) (walks : List DWord) : Bool :=
  match walks with
  | [] => false
  | v :: _ => v == a.va || !s.firstTraps T a

/-- An access whose check waits for a walk: its request stands in the cluster's queue or parks, and the thread waits (R240). -/
def State.uncheckedAccess (s : State) (k i : Nat) (T : Team) (a : Acc) (walks : List DWord) : State :=
  let pc : DWord := match s.thread? k i with
    | some t => s.trapPc t
    | none => 0
  let r : Req := { id := s.fresh, tid := i, va := a.va, op := a.op, counter := a.counter, pc := pc, stage := .behind
                   parkedAt := s.clock, group := a.group, unchecked := some (a, walks) }
  let s := { s with fresh := s.fresh + 1 }.modTeam k fun T =>
    { T with reqs := T.reqs ++ [r] }.modThread i fun t =>
      { t.wait (.check r.id) with
        cntLd := if r.counter = 1 then t.cntLd + 1 else t.cntLd
        cntSt := if r.counter = 2 then t.cntSt + 1 else t.cntSt }
  s.beginWalk k T r (walks.headD a.va) false

/-- The lanes whose units of REDN a request carries besides its own: their threads and staging addresses. -/
def Team.mates (T : Team) (id : Nat) : List (Nat × DWord) := (T.reqs.filter fun q => q.op == .share id).map fun q => (q.tid, q.va)

/-- The staging address of the lane that leads a group of REDN: the first of its units. -/
def Acc.lead (a : Acc) : DWord :=
  match a.op with
  | .reduce (u :: _) _ _ _ => u.1
  | .reduce [] _ _ _ | .load _ _ _ _ | .watch | .store _ _ _ | .atomic _ _ _ _ _ | .flagStore _ _ _ _ | .share _ | .publish _ _ _ => a.va

/-- A failed check traps every lane that the access carries, each with its own address where the check of that failed (R397). -/
def State.trapLanes (s : State) (k : Nat) (lanes : List (Nat × DWord)) (a : Acc) (c : BitVec 8) (v : DWord) : State :=
  lanes.foldl (fun s x => s.deliver k x.1 c (if v = a.va then x.2 else v) 0)
    (s.modTeam k fun T =>
      let T1 := (T.mates a.id).foldl (fun (T : Team) x => T.modThread x.1 fun t => { t with cntSt := t.cntSt - 1 }) T
      { T1 with reqs := T1.reqs.filter fun (q : Req) => q.op != AccOp.share a.id })

/-- The lanes that share a request go on with its check: past their instruction, and parked on the page on which it parks (R243, R397). -/
def State.matesGo (s : State) (k : Nat) (lanes : List (Nat × DWord)) (page : Option Nat) : State :=
  lanes.foldl (fun s x =>
    let s := s.modThread k x.1 fun t => t.next
    match page with
    | some p => s.parkOn k x.1 p 0 true false
    | none => s) s

/-- The page on which an access parks at its check. -/
def Check.page? : Check → Option Nat
  | .absent p => some p
  | .ok _ _ | .ring _ | .trap _ => none

/-- An access through a reference that has waited for its walk goes to the object's present copy (R360, R366): the access there, or
none where the forwarding is not found. -/
def State.resolved (s : State) (T : Team) (a : Acc) : Option Acc :=
  match s.movedOn? T (a.req 0 .behind) with
  | none => some a
  | some (some b) => some { a with va := a.va - a.obj + BitVec.ofNat 64 b, obj := BitVec.ofNat 64 b }
  | some none => none

/-- An access whose forwarding is not found is denied as a page denies one at a retranslation (R235, log 25). -/
def State.denied (s : State) (k i : Nat) (T : Team) (a : Acc) : State :=
  let p := s.pageOf T a.va.toNat
  if a.op.isLoad then (s.startAccess k i T a (.absent p)).1
  else if s.announceFull T.ctx (BitVec.ofNat 64 p) true true then
    (s.enqueue k i a (.backoff (s.clock + backoffTime 0))).modThread k i fun t => t.next
  else ((s.enqueue k i a (.onPage p)).modThread k i fun t => t.next).parkOn k i p 0 true true

/-- The check of a request that waited for its walks is decided (R240): as at issue, at the address of its own instruction. Its thread has
seen its walks, and goes on from the first word of its group (R61). -/
def State.decideUnchecked (s : State) (k : Nat) (r : Req) (a : Acc) : State :=
  let s1 := s.modTeam k fun T => (T.dropReq r.id).modThread r.tid fun t => t.uncount r
  let s2 : State := { s1 with lits := { payloads := [0], pc0 := r.pc } }
  match s2.team? k with
  | none => s1
  | some T =>
    let a := { a with id := r.id }
    let mates := T.mates r.id
    let s3 := match s2.checkIssue T a with
      | (s, .trap c, v) => s.trapLanes k ((r.tid, a.lead) :: mates) a c v
      | (s, c, _) => match s.badChain? T (a.req r.tid .behind) with
        | some b => (s.meetBad b).fatal k r.tid 0x82 r.pc a.va a.va
        | none => match s.resolved T a with
        | some b => if b = a then (s.startAccess k r.tid T a c).1.matesGo k mates c.page?
          else
            let s := (s.resolveAgain k T (a.req r.tid .behind)).1
            match s.checkIssue T b with
            | (s, .trap _, _) => s.denied k r.tid T b
            | (s, c, _) => (s.startAccess k r.tid T b c).1
        | none => s.denied k r.tid T a
    { s3 with lits := s.lits }

/-- One lane's access: the check, then the access; a check that needs a walk may have to wait for it (R240). -/
def State.access (s : State) (k i : Nat) (T : Team) (a : Acc) : State × Option TrapReq :=
  let walks := s.walksFor T a
  if s.mustWait T a walks then (s.uncheckedAccess k i T a walks, none)
  else
    match s.checkIssue T a with
    | (s, .trap c, v) => (s, some { cause := c, addr := v })
    | (s, c, _) => s.startAccess k i T a c

/-- An instruction that makes no request waits for a walk of its own, or for a slot (R240, R263). -/
def State.mustWalk (s : State) (T : Team) (t : Thread) (va : DWord) (write : Bool) : Bool :=
  s.slowWalk T va && s.needsWalk T va write && !t.walked.contains va

def State.threadWalk (s : State) (k i : Nat) (T : Team) (va : DWord) : State :=
  let c := clusterOf T.core
  if 16 ≤ s.walksIn c then s.modThread k i fun t => t.wait (.walker c)
  else
    let w : Walk := { id := s.fresh, cluster := c, core := T.core, ctx := T.ctx, va := va, startedAt := s.clock, who := some (k, i) }
    { s with fresh := s.fresh + 1, walks := s.walks ++ [w] }.modThread k i fun t => t.wait (.walk w.id)

/-- The entries and class counters that an instruction needs: n entries in all (R225, R228). -/
def State.hasRoom (s : State) (n ld st : Nat) : Bool :=
  match s.issuing? with
  | none => false
  | some T =>
    decide (T.entries + n ≤ T.size) &&
      s.issue.tids.all fun i => match T.threads[i]? with
        | some t => decide (t.cntLd + ld ≤ 30) && decide (t.cntSt + st ≤ 30)
        | none => true

/-- An instruction that makes requests: its lanes wait until the n entries and the counters that it needs are free (R228), then act in
ascending order. -/
def State.withRoom (s : State) (n ld st : Nat) (f : State → Nat → Thread → State × Option TrapReq) : State :=
  if !s.hasRoom n ld st then s.onLanes fun _ _ _ => .wait (.entry n ld st) else s.lanesInOrder f

/-- A memory instruction: one entry for each lane; the lanes make their accesses in ascending order (R244). -/
def State.memLanes (s : State) (ld st : Nat) (f : Thread → Acc) : State :=
  let group := s.fresh
  s.withRoom s.issue.tids.length ld st fun s i t =>
    match s.issuing? with
    | none => (s, none)
    | some T => s.access s.issue.team i T { f t with group := group }

end Sys2Proof.Machine
end

