-- ==== Sys2Proof/Machine/Memory.lean ====
section
/-! DEFINITION. Loads and stores (R245 to R248), PREF (R249), PGREQ (R272), atomics (R250 to R252) and STFL (R253). -/

namespace Sys2Proof.Machine

/-! ## LD and ST -/

/-- LD: bytes, sign extension, words of the destination. -/
def State.ld (s : State) (d a : BitVec 7) (imm : BitVec 11) (bytes : Nat) (signed : Bool) (count : Nat) : State :=
  s.memLanes 1 0 fun t =>
    { va := s.offsetAddr (t.gx a) imm bytes, op := .load bytes signed false .unscoped, dest := .reg (t.pos d) count, counter := 1
      ringOk := true }

/-- The bytes that a store of a width takes from its data registers. -/
def Thread.storeData (t : Thread) (d : BitVec 7) (bytes : Nat) : List Byte := toBytes bytes (t.gq d).toNat

def State.st (s : State) (d a : BitVec 7) (imm : BitVec 11) (bytes : Nat) : State :=
  s.memLanes 0 1 fun t =>
    { va := s.offsetAddr (t.gx a) imm bytes, op := .store (t.storeData d bytes) .unscoped false, counter := 2, ringOk := true }

def execLdB (d a : BitVec 7) (imm : BitVec 11) (s : State) : Result := .next (s.ld d a imm 1 false 1)
def execLdBs (d a : BitVec 7) (imm : BitVec 11) (s : State) : Result := .next (s.ld d a imm 1 true 1)
def execLdH (d a : BitVec 7) (imm : BitVec 11) (s : State) : Result := .next (s.ld d a imm 2 false 1)
def execLdHs (d a : BitVec 7) (imm : BitVec 11) (s : State) : Result := .next (s.ld d a imm 2 true 1)
def execLdW (d a : BitVec 7) (imm : BitVec 11) (s : State) : Result := .next (s.ld d a imm 4 false 1)
def execLdX (d a : BitVec 7) (imm : BitVec 11) (s : State) : Result := .next (s.ld d a imm 8 false 2)
def execLdQ (d a : BitVec 7) (imm : BitVec 11) (s : State) : Result := .next (s.ld d a imm 16 false 4)
def execStB (d a : BitVec 7) (imm : BitVec 11) (s : State) : Result := .next (s.st d a imm 1)
def execStH (d a : BitVec 7) (imm : BitVec 11) (s : State) : Result := .next (s.st d a imm 2)
def execStW (d a : BitVec 7) (imm : BitVec 11) (s : State) : Result := .next (s.st d a imm 4)
def execStX (d a : BitVec 7) (imm : BitVec 11) (s : State) : Result := .next (s.st d a imm 8)
def execStQ (d a : BitVec 7) (imm : BitVec 11) (s : State) : Result := .next (s.st d a imm 16)

/-! ## LDM and STM -/

/-- Bytes of a width of the M format. -/
def widthBytes (w : Width) : Nat :=
  match w with
  | .b | .bs => 1
  | .h | .hs => 2
  | .w => 4
  | .x => 8
  | .q => 16

/-- Registers of a width. -/
def widthRegs (w : Width) : Nat :=
  match w with
  | .b | .bs | .h | .hs | .w => 1
  | .x => 2
  | .q => 4

def widthSigned (w : Width) : Bool :=
  match w with
  | .bs | .hs => true
  | .b | .h | .w | .x | .q => false

/-- LDM: an acquire or SC load is fresh (R208, R213); an SC load stands between two fences (R214). -/
def execLdm (d a : BitVec 7) (sem : Sem) (sc : Scope) (w : Width) (hint : BitVec 3) (s : State) : Result :=
  .next (s.memLanes 1 0 fun t =>
    { va := t.gx a
      op := .load (widthBytes w) (widthSigned w) (sem == .acq || sem == .sc) (if sem = .sc then sc else .unscoped)
      dest := .reg (t.pos d) (widthRegs w), counter := 1, ringOk := true, hint := hint })

def execStm (d a : BitVec 7) (sem : Sem) (sc : Scope) (w : Width) (hint : BitVec 3) (s : State) : Result :=
  .next (s.memLanes 0 1 fun t =>
    { va := t.gx a
      op := .store (t.storeData d (widthBytes w)) (if sem = .rel ∨ sem = .sc then sc else .unscoped) (sem == .sc)
      counter := 2, ringOk := true, hint := hint })

/-! ## PREF -/

/-- A prefetch asks for a line outside the package that the proxy does not hold, where its way out is open; nothing waits for it. -/
def State.prefetchFar (s : State) (x pa : Nat) : State :=
  if inHbm pa || s.proxied x (lineOf pa) || (s.outside.any fun o => o.line == lineOf pa) || s.unreachable pa ||
      s.egressBlocked pa then s
  else { s with outside := s.outside ++ [{ line := lineOf pa, req := 0, team := 0 }] }

/-- PREF acts only where the translation is cached, the page lets a load through, and an entry is free (R225, R241, R249):
it then fills a stash line of the team where one of its mappings covers the address, and else a line of the LLC (R444), or of the proxy of
a line outside the package, for which it asks (R385, R443). Owned copies of other teams are recalled, as for a load (R254). -/
def State.prefetch (s : State) (T : Team) (va : DWord) (stash : Bool) : State :=
  if !decide (T.entries < T.size) || inWindow va || s.needsWalk T va false then s
  else
    match (s.check T va 1 .load false true).2 with
    | .ok pa _ =>
      let s := ((s.recall (lineOf pa) (some s.issue.team) false).touchLlc pa 0).prefetchFar T.ctx pa
      if stash && (T.mapped? va.toNat).isSome then
        s.modTeam s.issue.team fun T => T.holdLine (lineOf va.toNat) (lineOf pa) false s.clock s.regs.leaseLen
      else s
    | .ring _ | .absent _ | .trap _ => s

def State.pref (s : State) (a : BitVec 7) (imm : BitVec 11) (stash : Bool) : State :=
  s.eachLane fun s' i t =>
    match s'.issuing? with
    | none => (s', none)
    | some T => ((s'.prefetch T (t.gx a + s.imm64 imm) stash).setThread i t.next, none)

def execPrefLlc (a : BitVec 7) (imm : BitVec 11) (s : State) : Result := .next (s.pref a imm false)
def execPrefStash (a : BitVec 7) (imm : BitVec 11) (s : State) : Result := .next (s.pref a imm true)

/-! ## PGREQ -/

/-- What an examination of pages finds. -/
inductive Pages where
  | absent (l : List Nat)
  /-- the walk of a page's address is to be waited for first (R240) -/
  | walk (va : DWord)
  | trap (cause : BitVec 8) (addr : DWord)
  deriving DecidableEq, Repr

/-- Examines pages from an address on, up to an end, at most n of them (R272): the ABSENT ones, lowest first, or the first
trap, or the first walk that the thread has to wait for. -/
def State.examine (s : State) (T : Team) (t : Thread) : Nat → Nat → Nat → State × Pages
  | 0, _, _ => (s, .absent [])
  | n + 1, a, e =>
    if e ≤ a then (s, .absent [])
    else
      let va : DWord := BitVec.ofNat 64 a
      if s.mustWalk T t va false then (s, .walk va)
      else
      let x := s.check T va 1 .load false true
      let next := match x.1.leaf? T.core T.ctx a with
        | some l => a / l.size * l.size + l.size
        | none => a / 2 ^ 16 * 2 ^ 16 + 2 ^ 16
      match x.2 with
      | .trap c => (x.1, .trap c va)
      | .ring _ => (x.1, .trap 0x06 va)
      | .absent p =>
        match x.1.examine T t n next e with
        | (s, .absent l) => (s, .absent (p :: l))
        | (s, .walk v) => (s, .walk v)
        | (s, .trap c v) => (s, .trap c v)
      | .ok _ _ => x.1.examine T t n next e

/-- The package list has no room for all the announcements of a PGREQ (R271). -/
def State.announcesFull (s : State) (x : Nat) (l : List Nat) : Bool :=
  let new := l.filter fun p => !(s.pageReqs.any fun r => r.ctx == x && r.addr == BitVec.ofNat 64 p && r.kind != 4)
  s.prqUsable && decide (65536 < s.prqList.length + new.length)

/-- PGREQ in one lane: it waits for the walk of each page in turn, and for room in the package list where it has a page to announce (R271). -/
def State.pageRequest (s : State) (i : Nat) (T : Team) (t : Thread) (d : BitVec 7) (ea : DWord) (len : Nat) (park : Bool) :
    State × Option TrapReq :=
    match s.examine T t 64 ea.toNat (ea.toNat + len) with
    | (s, .trap c v) => (s, some { cause := c, addr := v })
    | (s, .walk va) => (s.threadWalk s.issue.team i T va, none)
    | (s, .absent l) =>
      if s.announcesFull T.ctx l then (s.setThread i (t.wait .announce), none)
      else
        let s := l.foldl (fun s p => s.announce T.ctx (if park then 1 else 2) (BitVec.ofNat 64 p) false false) s
        let t1 := (t.setG d (BitVec.ofNat 32 l.length)).next
        if park && !l.isEmpty then
          let s := s.tapTeam T 2 ((l.getLastD 0) / 2 ^ 16) 1 (addNew t.missing l).length T.slot
          let l' := (s.ctx T.ctx).swaps
          let misses := (l.foldl (fun (u : Thread) p => { u with
            misses := u.miss p (s.spanOf T.ctx p) false (some (max ea.toNat (swapVa l' p))) }) t).misses
          (s.setThread i { t1.park s.clock with missing := addNew t.missing l, misses := misses }, none)
        else (s.setThread i t1, none)

def State.pageRequests (s : State) (d a b : BitVec 7) (park : Bool) : State :=
  s.eachLane fun s i t =>
    match s.issuing? with
    | none => (s, none)
    | some T => s.pageRequest i T t d (t.gx a) (t.g b).toNat park

def execPgreq (d a b : BitVec 7) (s : State) : Result := .next (s.pageRequests d a b true)
def execPgreqNp (d a b : BitVec 7) (s : State) : Result := .next (s.pageRequests d a b false)

/-! ## ATOM and RED -/

/-- An atomic of a scope: its operand, and for CAS the new value in the second register. -/
def Thread.atom (t : Thread) (a b : BitVec 7) (op : AOp) (sc : Scope) (d : Option (BitVec 7)) : Acc :=
  { va := t.gx a
    op := .atomic op sc (if aopWide op then t.gx b else (t.g b).setWidth 64) ((t.gx b).extractLsb' 32 32 |>.setWidth 64)
      d.isSome
    dest := match d with
      | some d => .reg (t.pos d) (if aopWide op then 2 else 1)
      | none => .none
    counter := if d.isSome then 1 else 2
    ringOk := sc == .team }

def State.atom (s : State) (d a b : BitVec 7) (op : AOp) (sc : Scope) : State :=
  s.memLanes 1 0 fun t => t.atom a b op sc (some d)
def State.red (s : State) (a b : BitVec 7) (op : AOp) (sc : Scope) : State :=
  s.memLanes 0 1 fun t => t.atom a b op sc none

def execAtomT (d a b : BitVec 7) (op : AOp) (s : State) : Result := .next (s.atom d a b op .team)
def execAtomC (d a b : BitVec 7) (op : AOp) (s : State) : Result := .next (s.atom d a b op .clu)
def execAtomD (d a b : BitVec 7) (op : AOp) (s : State) : Result := .next (s.atom d a b op .die)
def execAtomP (d a b : BitVec 7) (op : AOp) (s : State) : Result := .next (s.atom d a b op .pkg)
def execAtomS (d a b : BitVec 7) (op : AOp) (s : State) : Result := .next (s.atom d a b op .sys)
def execRedD (a b : BitVec 7) (op : AOp) (s : State) : Result := .next (s.red a b op .die)
def execRedP (a b : BitVec 7) (op : AOp) (s : State) : Result := .next (s.red a b op .pkg)
def execRedS (a b : BitVec 7) (op : AOp) (s : State) : Result := .next (s.red a b op .sys)

/-! ## STFL -/

def execStfl (d a b : BitVec 7) (wide : Bool) (sc : Scope) (s : State) : Result :=
  .next (s.memLanes 0 1 fun t =>
    { va := t.gx a, op := .flagStore (t.storeData d (if wide then 8 else 4)) (t.gx b) sc false, counter := 2 })

end Sys2Proof.Machine
end

