-- ==== Sys2Proof/Machine/Barrier.lean ====
section
/-! DEFINITION. FENCE (R222 to R224), team barriers (R282 to R286), transaction barriers (R287 to R291), WAITC (R292), and
completion counters (R293, R294). -/

namespace Sys2Proof.Machine

/-! ## FENCE -/

/-- The request is of a class that FENCE names (R223): loads and the reads of ATOM; stores, the writes of ATOM and RED, STFL,
REDN; and, for kicks, stores to the ring. -/
def Req.fenced (r : Req) (kinds : BitVec 4) : Bool :=
  let ld := match r.op with
    | .load _ _ _ _ | .watch => true
    | .atomic _ _ _ _ returns => returns
    | .store _ _ _ | .flagStore _ _ _ _ | .reduce _ _ _ _ | .share _ | .publish _ _ _ => false
  let st := match r.op with
    | .store _ _ _ | .atomic _ _ _ _ _ | .flagStore _ _ _ _ | .reduce _ _ _ _ | .share _ => true
    | .load _ _ _ _ | .watch | .publish _ _ _ => false
  (kinds.getLsbD 0 && ld) || (kinds.getLsbD 1 && st) || (kinds.getLsbD 2 && st && inWindow r.va)

/-- The tile instructions of a thread that cnt.tl still counts, and the tiles that drain for a TREL of it, whose records are still to be written
(R418): tile n as 2^64 + n. -/
def State.tileOpsOf (s : State) (k i : Nat) (T : Team) : List Nat :=
  let c := s.core T.core
  ((c.seq.filter fun o => o.team == k && o.tids.contains i).map fun o => o.id) ++
    ((c.fills.filter fun f => f.team == k && f.tid == i).map fun f => f.id) ++
    (c.tiles.filter fun x => x.2.state == .draining && x.2.freedBy == some (k, i)).map fun x => 2 ^ 64 + x.1

/-- Kicks of a thread whose commands have not all completed, by their first index. -/
def Team.kicksOf (T : Team) (i : Nat) : List Nat := (T.kicks.filter fun x => x.2.2 == i).map fun x => x.1

/-- The scope orders something at other dies. -/
def flushes (kinds : BitVec 4) (sc : Scope) : Bool := kinds.getLsbD 1 && crosses sc

/-- What is left of a FENCE once its requests have performed: the stores of the die's order to acknowledge, the commands,
the tile operations. Those stores arrive on every die; with ld alone the writes of ATOMs whose reads it orders do (R210). -/
def State.fenceRest (s : State) (k i : Nat) (T : Team) (since : Nat) (sc : Scope) (kinds : BitVec 4) : State × Wait :=
  let die := dieOf T.core
  let s := if flushes kinds sc then { s with mem := s.mem.flushFrom die }
    else if kinds.getLsbD 0 && crosses sc then { s with mem := s.mem.flushAtoms die } else s
  (s, .fence [] (if flushes kinds sc && sc == .sys then s.unackedOn die else [])
    (if kinds.getLsbD 2 then T.kicksOf i else []) (if kinds.getLsbD 3 then s.tileOpsOf k i T else []) since sc kinds)

/-- The wait of a FENCE that has nothing left is over. -/
def State.fenceOver (s : State) (k i : Nat) (T : Team) (w : Wait) : Bool :=
  match w with
  | .fence reqs stores cmds ops _ _ _ =>
    reqs.isEmpty && !s.unacked stores && !(cmds.any fun n => (T.kicksOf i).contains n) &&
      !(ops.any fun n => (s.tileOpsOf k i T).contains n)
  | _ => false

/-- The end of a FENCE: younger loads are fresh (R208). -/
def State.fenceEnd (s : State) (sc : Scope) (kinds : BitVec 4) : State :=
  if kinds.getLsbD 0 && (sc == .die || crosses sc) then s.dropProxies else s

/-- FENCE in one lane. The thread has passed the word when it waits. -/
def State.fenceLane (s : State) (k i : Nat) (T : Team) (t : Thread) (sc : Scope) (kinds : BitVec 4) : State :=
  let reqs := ((T.reqsOf i).filter fun r => r.fenced kinds).map fun r => r.id
  if !reqs.isEmpty then s.setThread i (t.next.wait (.fence reqs [] [] [] s.clock sc kinds))
  else
    match s.fenceRest k i T s.clock sc kinds with
    | (s, w) =>
      if s.fenceOver k i T w then (s.fenceEnd sc kinds).setThread i t.next else s.setThread i (t.next.wait w)

/-- The kinds field: bit 0 ld, 1 st, 2 eng, 3 tile. -/
def kindsOf (tile eng st ld : Bool) : BitVec 4 :=
  (if tile then 8 else 0) ||| (if eng then 4 else 0) ||| (if st then 2 else 0) ||| (if ld then 1 else 0)

/-- FENCE. The SC bit adds a place in the order S (R215): a FENCE with it holds ld and st, so that every store before it has
arrived everywhere when it ends. -/
def execFence (sc tile eng st ld : Bool) (scope : Scope) (s : State) : Result :=
  .next (s.eachLane fun s i t =>
    match s.issuing? with
    | none => (s, none)
    | some T => (s.fenceLane s.issue.team i T t scope (kindsOf tile eng (st || sc) (ld || sc)), none))

/-! ## Team barriers -/

def Team.bar (T : Team) (n : BitVec 4) : Barrier := T.bars[n.toNat]

/-- The thread arrives in the open generation. -/
def Team.arrive (T : Team) (n : BitVec 4) (i now : Nat) : Team :=
  let b := T.bar n
  let b1 : Barrier := { b with arrived := b.arrived ++ [i], since := if b.arrived.isEmpty then now else b.since }
  { T with bars := T.bars.set n.toNat b1 }

/-- The thread's older requests come before its arrival, which is a release (R200, R217, R285): it waits for them. -/
def State.orderedLane (s : State) (i : Nat) (T : Team) (t : Thread) (f : State → State × Option TrapReq) : State × Option TrapReq :=
  if (T.reqsOf i).isEmpty then f s else (s.setThread i (t.wait (.older ((T.reqsOf i).map fun r => r.id))), none)

/-- An arrival of one lane (R284): the thread as the arrival leaves it. -/
def State.arriveLane (s : State) (n : BitVec 4) (i : Nat) (t : Thread) (after : Team → Thread) : State × Option TrapReq :=
  match s.issuing? with
  | none => (s, none)
  | some T =>
    if (T.bar n).arrived.contains i then (s, some { cause := 0x16 })
    else
      let k := s.issue.team
      s.orderedLane i T t fun s =>
        (((s.setThread i (after T)).modTeam k fun T => T.arrive n i s.clock).settleBarrier k n, none)

def execBarSync (n : BitVec 4) (s : State) : Result :=
  .next (s.eachLane fun s i t => s.arriveLane n i t fun T => t.next.wait (.barrier n (T.bar n).gen))

def execBarArrive (n : BitVec 4) (a : BitVec 7) (s : State) : Result :=
  .next (s.eachLane fun s i t => s.arriveLane n i t fun T => (t.setG a (T.bar n).gen).next)

def execBarWait (n : BitVec 4) (a : BitVec 7) (s : State) : Result :=
  .next (s.eachLane fun s i t =>
    match s.issuing? with
    | none => (s, none)
    | some T =>
      let b := T.bar n
      let g := t.g a
      if laterGen g b.gen then (s, some { cause := 0x16 })
      else if g = b.gen ∧ !b.arrived.contains i then (s, some { cause := 0x16 })
      else if laterGen b.gen g then (s.setThread i t.next, none)
      else (s.setThread i (t.next.wait (.barrier n g)), none))

/-! ## Transaction barriers -/

/-- A TBAR (R287). -/
structure Tbar where
  gen : Word
  bytes : Word
  pending : Nat
  expected : Nat
  error : BitVec 16
  flags : Nat
  bitmap : DWord
  detail : DWord
  deriving DecidableEq, Repr

def Tbar.of (b : List Byte) : Tbar :=
  { gen := BitVec.ofNat 32 (field b 0 4), bytes := BitVec.ofNat 32 (field b 4 4), pending := field b 8 2
    expected := field b 10 2, error := BitVec.ofNat 16 (field b 12 2), flags := field b 14 2
    bitmap := BitVec.ofNat 64 (field b 16 8), detail := BitVec.ofNat 64 (field b 24 8) }

def Tbar.out (o : Tbar) : List Byte :=
  toBytes 4 o.gen.toNat ++ toBytes 4 o.bytes.toNat ++ toBytes 2 o.pending ++ toBytes 2 o.expected ++
    toBytes 2 o.error.toNat ++ toBytes 2 o.flags ++ toBytes 8 o.bitmap.toNat ++ toBytes 8 o.detail.toNat

/-- complete_if_done (R288). -/
def Tbar.complete (o : Tbar) : Tbar :=
  if o.pending = 0 ∧ o.bytes = 0 ∧ o.error = 0 then { o with gen := o.gen + 1, pending := o.expected, bitmap := 0 } else o

/-- A phase has passed. -/
def Tbar.passed (o : Tbar) (p : Word) : Bool := (0#32).slt (o.gen - p)

/-- TBINIT on an object (R290). -/
def Tbar.init (o : Tbar) (n : Nat) : Tbar :=
  { gen := if o.flags % 2 = 0 then 0 else o.gen, bytes := 0, pending := n, expected := n, error := 0, flags := 1
    bitmap := 0, detail := 0 }

/-- The TBAR at a physical address, where it is coherent. -/
def State.tbarAt (s : State) (die pa : Nat) : Tbar := Tbar.of ((s.gather die pa 32).mem.read (accessDie die pa) pa 32)

/-- Writes a TBAR. A phase that completes raises TBAR_PHASE (R405). -/
def State.putTbar (s : State) (T : Team) (pa offset : Nat) (old new : Tbar) : State :=
  let die := dieOf T.core
  let s := ((s.gather die pa 32).storeAt die pa new.out false).1
  if new.gen != old.gen && new.flags == old.flags then s.tapTeam T 31 offset new.gen.toNat 0 T.slot else s

/-- What a TBAR instruction does with its object: it writes it, only reads it, as an acquire or not, traps, or waits for a phase. -/
inductive TbarDo where
  | set (o : Tbar) (t : Thread)
  | keep (acquire : Bool) (t : Thread)
  | misuse
  | await (p : Word) (pos : Nat)
  deriving DecidableEq, Repr

/-- The request as which a TBAR instruction reaches its line: as ATOM.T does (R287). -/
def tbarReq (i : Nat) (ta : DWord) (pa : Nat) : Req :=
  { id := 0, tid := i, va := ta, op := .atomic .add .team 0 0 true, counter := 0, stage := .translated pa }

/-- A TBAR instruction at its object (R290). On a MIGRATING page it issues again until the publish (log 24). -/
def State.tbarAct (s : State) (i : Nat) (T : Team) (t : Thread) (ta : DWord) (pa offset : Nat) (migrating isInit : Bool)
    (f : Tbar → Thread → TbarDo) : State × Option TrapReq :=
  let k := s.issue.team
  let o := s.tbarAt (dieOf T.core) pa
  if migrating then (s.setThread i (t.wait (.older [])), none)
  else if !isInit && (o.flags != 1 || decide (o.expected < o.pending)) then (s, some { cause := 0x16, addr := ta })
  else
    match f o t with
    | .set o' t' => (((s.reach k T (tbarReq i ta pa) pa).putTbar T pa offset o o').setThread i t', none)
    | .keep acquire t' =>
      let s := s.reach k T (tbarReq i ta pa) pa
      ((if acquire then s.acquireSys else s).setThread i t', none)
    | .misuse => (s, some { cause := 0x16, addr := ta })
    | .await p pos => (s.setThread i (t.next.wait (.phase ta p pos)), none)

/-- A TBAR instruction in one lane (R290): after the thread's older requests (R200), the checks, then f on the object. On an ABSENT
page the thread parks and issues the instruction again. -/
def State.tbarLane (s : State) (i : Nat) (T : Team) (t : Thread) (ta : DWord) (isInit : Bool)
    (f : Tbar → Thread → TbarDo) : State × Option TrapReq :=
  let k := s.issue.team
  if ta.toNat % 32 ≠ 0 then (s, some { cause := 0x05, addr := ta })
  else
    s.orderedLane i T t fun s =>
      if s.mustWalk T t ta true then (s.threadWalk k i T ta, none)
      else
        match s.check T ta 32 .atomic false true, T.mapped? ta.toNat with
        | (s, .trap c), _ => (s, some { cause := c, addr := ta })
        | (s, .ring _), _ | (s, .absent _), none | (s, .ok _ _), none => (s, some { cause := 0x06, addr := ta })
        | (s, .absent p), some _ =>
          if s.announceFull T.ctx (BitVec.ofNat 64 p) true false then (s.setThread i (t.wait .announce), none)
          else (s.parkOn k i p 0 true false, none)
        | (s, .ok pa migrating), some m =>
          match s.badBlock? pa 32 with
          | some b => ((s.meetBad b).fatal k i 0x82 (s.trapPc t) ta ta, none)
          | none => s.tbarAct i T t ta pa (m.offset + (ta - m.base).toNat) migrating isInit f

def State.tbarLanes (s : State) (a : BitVec 7) (isInit : Bool) (f : Tbar → Thread → TbarDo) : State :=
  s.eachLane fun s i t =>
    match s.issuing? with
    | none => (s, none)
    | some T => s.tbarLane i T t (t.gx a) isInit f

def execTbinit (a b : BitVec 7) (s : State) : Result :=
  .next (s.tbarLanes a true fun o t =>
    let n := (t.g b).toNat
    if n = 0 ∨ 65535 < n then .misuse else .set (o.init n) t.next)

def execTbexp (a b : BitVec 7) (s : State) : Result :=
  .next (s.tbarLanes a false fun o t => .set { o with bytes := o.bytes + t.g b }.complete t.next)

def execTbarr (d a : BitVec 7) (s : State) : Result :=
  .next (s.tbarLanes a false fun o t =>
    if o.pending = 0 then .misuse
    else .set { o with pending := o.pending - 1 }.complete (t.setG d o.gen).next)

/-- The code of TBWAIT and TBTEST for a phase: 0 passed, 1 an error stands, 2 neither. -/
def Tbar.code (o : Tbar) (p : Word) : Word := if o.passed p then 0 else if o.error ≠ 0 then 1 else 2

/-- TBWAIT: a thread that waits has passed the word; its code is written when the wait ends. -/
def execTbwait (d a b : BitVec 7) (s : State) : Result :=
  .next (s.tbarLanes a false fun o t =>
    if o.code (t.g b) = 2 then .await (t.g b) (t.pos d) else .keep true (t.setG d (o.code (t.g b))).next)

def execTbtest (d a b : BitVec 7) (s : State) : Result :=
  .next (s.tbarLanes a false fun o t => .keep (o.code (t.g b) == 0) (t.setG d (o.code (t.g b))).next)

def execTberr (d a : BitVec 7) (s : State) : Result :=
  .next (s.tbarLanes a false fun o t =>
    .set { o with error := 0, detail := 0 }.complete
      (t.setGq d (o.detail ++ (BitVec.ofNat 32 o.flags ++ o.error.setWidth 32))).next)

/-! ## WAITC -/

/-- A class counter meets a bound; 31 asks nothing (R292). -/
def under (n : Nat) (bound : BitVec 5) : Bool := bound == 31 || decide (n ≤ bound.toNat)

def Thread.countersUnder (t : Thread) (ld st cp tl : BitVec 5) : Bool :=
  under t.cntLd ld && under t.cntSt st && under t.cntCp cp && under t.cntTl tl

/-- WAITC. A thread that waits has passed the word. -/
def execWaitc (ld st cp tl : BitVec 5) (s : State) : Result :=
  .next (s.onLanes fun _ _ t =>
    if t.countersUnder ld st cp tl then .done t.next else .done (t.next.wait (.counters ld st cp tl)))

/-! ## Completion counters -/

def Team.ccAt (T : Team) (n : BitVec 3) : Word := T.cc[n.toNat]
def Team.setCc (T : Team) (n : BitVec 3) (v : Word) : Team := { T with cc := T.cc.set n.toNat v }

def execCcset (n : BitVec 3) (a : BitVec 7) (s : State) : Result :=
  .next (s.eachLane fun s i t => ((s.modTeam s.issue.team fun T => T.setCc n (t.g a)).setThread i t.next, none))

def execCcadd (n : BitVec 3) (a : BitVec 7) (s : State) : Result :=
  .next (s.eachLane fun s i t =>
    ((s.modTeam s.issue.team fun T => T.setCc n (T.ccAt n + t.g a)).setThread i t.next, none))

def execCcrd (d : BitVec 7) (n : BitVec 3) (s : State) : Result :=
  .next (match s.issuing? with
  | none => s
  | some T => s.mapG d fun _ => T.ccAt n)

/-- WAITB: its return is an acquire at .sys. A thread that waits has passed the word. -/
def execWaitb (n : BitVec 3) (imm : BitVec 11) (s : State) : Result :=
  .next (s.eachLane fun s i t =>
    match s.issuing? with
    | none => (s, none)
    | some T =>
      if (T.ccAt n).toNat < imm.toNat then (s.acquireSys.setThread i t.next, none)
      else (s.setThread i (t.next.wait (.completion n imm.toNat)), none))

end Sys2Proof.Machine
end

