-- ==== Sys2Proof/Machine/Heap.lean ====
section
/-! DEFINITION. Managed heap objects: references, the barrier, the reference loads and stores, and the REFOP forms (R353 to
R374). -/

namespace Sys2Proof.Machine

/-! ## Resolution (R358, R370) -/

/-- How a resolution ends: the object, the healed reference and the path (1 fast, 2 colour healed, 3 forwarding followed); a
trap; uncorrectable data; or not yet, for it follows forwardings on and on. -/
inductive Resolved where
  | ok (obj : Nat) (r : DWord) (path : Nat)
  | trap (cause : BitVec 8) (addr : DWord)
  | bad (addr : DWord)
  | again
  deriving DecidableEq, Repr

/-- The slow path from an object address on, through at most n headers in this step. -/
def State.slowPath (s : State) (T : Team) (R : Region) (r : DWord) : Nat → Nat → Bool → State × Resolved
  | 0, _, _ => (s, .again)
  | n + 1, a, moved =>
    let done (s : State) : State × Resolved := (s, .ok a (healRef r R.colour a) (if moved then 3 else 2))
    match s.check T (BitVec.ofNat 64 (a + 4)) 4 .load false false with
    | (s, .trap c) => (s, .trap c (BitVec.ofNat 64 a))
    | (s, .ring _) => (s, .trap 0x06 (BitVec.ofNat 64 a))
    | (s, .absent _) => done s
    | (s, .ok pa _) =>
      match s.badBlock? pa 4 with
      | some b => (s.meetBad b, .bad (BitVec.ofNat 64 a))
      | none =>
        let s := s.gather (dieOf T.core) pa 4
        if pinsOf (ofBytes (s.mem.read (accessDie (dieOf T.core) pa) pa 4)) = 0xFFFF then
          match s.badLookup? T.core T.ctx R a with
          | some b => (s.meetBad b, .bad (BitVec.ofNat 64 a))
          | none => match s.lookup T.core T.ctx R a with
            | some b => s.slowPath T R r n b true
            | none => (s, .trap 0x0A (BitVec.ofNat 64 a))
        else done s

/-- The bits or the region of a reference are not those of a defined region (R370). -/
def State.badRef (s : State) (T : Team) (r : DWord) : Bool :=
  r.extractLsb' 52 4 != 0 || ((s.ctx T.ctx).region (refRegion r)).state == .undefined

/-- The fast path serves a reference: its colour is the region's, and its object is not in evacuation (R358). -/
def State.fastRef (s : State) (T : Team) (r : DWord) : Bool :=
  refColour r == ((s.ctx T.ctx).region (refRegion r)).colour && !s.inEvac T.core T.ctx (refObj r)

/-- Checks 2 and 3 of R370 for a reference that is not null. The slow path's reads are acquires at .pkg. A region has no more headers
than its size holds. -/
def State.resolve (s : State) (T : Team) (r : DWord) : State × Resolved :=
  let R := (s.ctx T.ctx).region (refRegion r)
  if s.badRef T r then (s, .trap 0x0A 0)
  else if s.fastRef T r then (s, .ok (refObj r) r 1)
  else
    match s.acquireSys.slowPath T R r (R.size / 16 + 1) (refObj r) false with
    | (s, .ok a q p) => ((s.tapTeam T 46 (p - 1) (refRegion r).toNat 0 T.slot), .ok a q p)
    | x => x

/-- A lane resolves one of its references, and heals the register; then it goes on with the object. The header reads of the slow path
come after the older accesses of the thread (R200). -/
def State.withRef (s : State) (i : Nat) (T : Team) (n : BitVec 4)
    (go : State → Nat → Nat → State × Option TrapReq) : State × Option TrapReq :=
  let k := s.issue.team
  match s.thread? k i with
  | none => (s, none)
  | some t =>
    let older := (T.reqsOf i).map fun r => r.id
    if !older.isEmpty && !s.badRef T (t.ref n) && !s.fastRef T (t.ref n) then (s.modThread k i fun t => t.wait (.older older), none)
    else
    match s.resolve T (t.ref n) with
    | (s, .again) => (s.modThread k i fun t => t.wait (.older []), none)
    | (s, .trap c a) => (s, some { cause := c, addr := a })
    | (s, .bad a) => (s.fatal k i 0x82 (s.trapPc t) a a, none)
    | (s, .ok obj r path) => go (s.modThread k i fun t => if path = 1 then t else t.setRef n r) obj path

/-! ## Reference loads and stores (R370, R371) -/

/-- The access of one lane at an address of an object, in the group of its instruction. -/
def State.refAccess (s : State) (group i : Nat) (T : Team) (n : BitVec 4) (t : Thread) (obj : Nat) (ea : DWord) (op : AccOp) (dest : Dest) :
    State × Option TrapReq :=
  s.access s.issue.team i T
    { va := ea, op := op, dest := dest, counter := if op.isLoad then 1 else 2, region := refRegion (t.ref n), obj := BitVec.ofNat 64 obj
      group := group, refn := some n }

/-- A reference instruction that makes an access: entries, the null check, resolution, the access. -/
def State.refLanes (s : State) (ld st : Nat) (a : BitVec 4)
    (f : State → Nat → Team → Thread → Nat → State × Option TrapReq) : State :=
  s.withRoom s.issue.tids.length ld st fun s i t =>
    match s.issuing? with
    | none => (s, none)
    | some T =>
      if refNull (t.ref a) then (s, some { cause := 0x09 })
      else
        s.withRef i T a fun s obj _ =>
          match s.issuing?, s.thread? s.issue.team i with
          | some T, some t => f s i T t obj
          | _, _ => (s, none)

/-- RLD and RST at an offset of W-byte units. -/
def State.rld (s : State) (d : BitVec 7) (r : BitVec 4) (imm : BitVec 11) (bytes count : Nat) : State :=
  s.refLanes 1 0 r fun s' i T t obj =>
    s'.refAccess s.fresh i T r t obj (s.offsetAddr (BitVec.ofNat 64 obj) imm bytes) (.load bytes false false .unscoped)
      (.reg (t.pos d) count)

def State.rst (s : State) (d : BitVec 7) (r : BitVec 4) (imm : BitVec 11) (bytes : Nat) : State :=
  s.refLanes 0 1 r fun s' i T t obj =>
    s'.refAccess s.fresh i T r t obj (s.offsetAddr (BitVec.ofNat 64 obj) imm bytes)
      (.store (t.storeData d bytes) .unscoped false) .none

def execRldW (d : BitVec 7) (r : BitVec 4) (imm : BitVec 11) (s : State) : Result := .next (s.rld d r imm 4 1)
def execRldX (d : BitVec 7) (r : BitVec 4) (imm : BitVec 11) (s : State) : Result := .next (s.rld d r imm 8 2)
def execRstW (d : BitVec 7) (r : BitVec 4) (imm : BitVec 11) (s : State) : Result := .next (s.rst d r imm 4)
def execRstX (d : BitVec 7) (r : BitVec 4) (imm : BitVec 11) (s : State) : Result := .next (s.rst d r imm 8)

/-- The address of RLDR and RSTR (R372). -/
def refOffset (obj : Nat) (o : Word) : DWord := BitVec.ofNat 64 obj + o.signExtend 64

def execRldr (d r : BitVec 4) (b : BitVec 7) (s : State) : Result :=
  .next (s.refLanes 1 0 r fun s' i T t obj =>
    s'.refAccess s.fresh i T r t obj (refOffset obj (t.g b)) (.load 8 false false .unscoped) (.ref d))

/-- RSTR: the stored reference is resolved first, unless it is null; then the object. -/
def execRstr (d r : BitVec 4) (b : BitVec 7) (s : State) : Result :=
  .next (let group := s.fresh
    s.withRoom s.issue.tids.length 0 1 fun s i t =>
      match s.issuing? with
      | none => (s, none)
      | some T =>
        let store (s : State) : State × Option TrapReq :=
          match s.thread? s.issue.team i with
          | none => (s, none)
          | some t =>
            if refNull (t.ref r) then (s, some { cause := 0x09 })
            else
              s.withRef i T r fun s obj _ =>
                match s.issuing?, s.thread? s.issue.team i with
                | some T, some t =>
                  s.refAccess group i T r t obj (refOffset obj (t.g b))
                    (.store (toBytes 8 (t.ref d).toNat) .unscoped false) .none
                | _, _ => (s, none)
        if refNull (t.ref d) then store s else s.withRef i T d fun s _ _ => store s)

/-! ## REFOP (R373) -/

def execRget (d : BitVec 7) (r : BitVec 4) (s : State) : Result := .next (s.mapGx d fun t => t.ref r)

def execRput (r : BitVec 4) (a : BitVec 7) (s : State) : Result :=
  .next (s.onLanes fun _ _ t =>
    if privileged s.issueCtx t then .done (t.setRef r (t.gx a)).next else .trap { cause := 0x04 })

def execRnull (r : BitVec 4) (s : State) : Result := .next (s.onLanes fun _ _ t => .done (t.setRef r 0).next)

def execRchk (d : BitVec 7) (r : BitVec 4) (s : State) : Result :=
  .next (s.eachLane fun s i t =>
    match s.issuing? with
    | none => (s, none)
    | some T =>
      if refNull (t.ref r) then (s.setThread i (t.setG d 0).next, none)
      else
        s.withRef i T r fun s _ path =>
          (s.modThread s.issue.team i fun t => (t.setG d (BitVec.ofNat 32 path)).next, none))

def execRefeq (p : BitVec 3) (r q : BitVec 4) (s : State) : Result :=
  .next (s.eachLane fun s i t =>
    match s.issuing? with
    | none => (s, none)
    | some T =>
      let finish (s : State) (v : Thread → Bool) : State × Option TrapReq :=
        (s.modThread s.issue.team i fun t => (t.setP p (v t)).next, none)
      let rn := refNull (t.ref r)
      let qn := refNull (t.ref q)
      if rn && qn then finish s fun _ => true
      else if rn then s.withRef i T q fun s _ _ => finish s fun _ => false
      else if qn then s.withRef i T r fun s _ _ => finish s fun _ => false
      else
        s.withRef i T r fun s a _ => s.withRef i T q fun s b _ =>
          finish s fun t => a == b && refRegion (t.ref r) == refRegion (t.ref q))

/-! ## Pins (R367, R368, R374) -/

/-- The part writes bytes at a virtual address of a context, line by line (R295), as an agent of a core's die: the owned stash copies of its
lines are recalled (R254). -/
def State.poke (s : State) (core x va : Nat) (data : List Byte) (release : Bool) : State :=
  match s.phys? core x va with
  | some pa =>
    let s := ((s.recallRange pa data.length).touchLines pa data.length).gather (dieOf core) pa data.length |>.reEncryptRange x pa data.length
    (s.lineStores (dieOf core) release (data.length / 128 + 2) pa data).1
  | none => s

/-- The hold-table entries of an object's pages. -/
def Region.holdEntries (R : Region) (obj size : Nat) : List Nat :=
  (List.range ((obj + size - 1) / 2 ^ 16 + 1 - obj / 2 ^ 16)).map fun j => R.holdAddr ((obj / 2 ^ 16 + j) * 2 ^ 16)

/-- Changes a hold count: an atomic at .pkg, which reads it where it is coherent (R210, R368). -/
def State.setHold (s : State) (core x va : Nat) (f : Nat → Nat) : State :=
  s.poke core x va (toBytes 2 (f (ofBytes (s.peek core x va 2)))) false

/-- The pin count of an object's header changes (R354). -/
def State.setPins (s : State) (core x obj : Nat) (f : Nat → Nat) (release : Bool) : State :=
  let w := s.headerState core x obj
  s.setHeaderState core x obj (w / 65536 * 65536 + f (pinsOf w)) release

/-- A pin goes: the pin count and the hold counts fall. -/
def State.releasePin (s : State) (core x : Nat) (p : Pin) : State :=
  p.holds.foldl (fun s va => s.setHold core x va fun n => n - 1)
    (s.setPins core x p.obj.toNat (fun n => n - 1) true)

/-- The header's page is MIGRATING: an update of the header waits for the publish. -/
def State.headerMigrates (s : State) (core x obj : Nat) : Bool :=
  match s.leaf? core x obj with
  | some e => pteSt e.pte == 2
  | none => false

/-- The header of an object, or a hold count that a pin of it changes, is uncorrectable (R422). -/
def State.badPin? (s : State) (core x obj : Nat) (holds : List Nat) : Option (Nat × Bool) :=
  let bad (va n : Nat) : Option (Nat × Bool) := (s.phys? core x va).bind fun pa => s.badBlock? pa n
  (bad obj 8).or (holds.findSome? fun va => bad va 2)

def execPin (d : BitVec 7) (r : BitVec 4) (s : State) : Result :=
  .next (s.lanesInOrder fun s i t =>
    match s.issuing? with
    | none => (s, none)
    | some T =>
      if refNull (t.ref r) then (s, some { cause := 0x09 })
      else if !(T.reqsOf i).isEmpty then (s.setThread i (t.wait (.older ((T.reqsOf i).map fun r => r.id))), none)
      else
        s.withRef i T r fun s obj _ =>
          let k := s.issue.team
          let rg := refRegion (t.ref r)
          let R := (s.ctx T.ctx).region rg
          let size := ofBytes (s.peek T.core T.ctx obj 4)
          let w := s.headerState T.core T.ctx obj
          let holds := R.holdEntries obj size
          let bad := s.badPin? T.core T.ctx obj (if size = 0 ∨ size % 16 ≠ 0 ∨ R.base + R.size < obj + size then [] else holds)
          if bad.isSome then
            ((s.meetBad (bad.getD (0, false))).fatal k i 0x82 (s.trapPc t) (BitVec.ofNat 64 obj) (BitVec.ofNat 64 obj), none)
          else if size = 0 ∨ size % 16 ≠ 0 ∨ obj < R.base ∨ R.base + R.size < obj + size then
            (s, some { cause := 0x0A, addr := BitVec.ofNat 64 obj })
          else if 64 ≤ T.pins.length then (s, some { cause := 0x0B })
          else if s.headerMigrates T.core T.ctx obj || pinsOf w == 0xFFFF then (s.modThread k i fun t => t.wait (.older []), none)
          else if pinsOf w = 0xFFFE ∨ (holds.any fun va => ofBytes (s.peek T.core T.ctx va 2) == 0xFFFF) then
            (s, some { cause := 0x0B })
          else
            let s := s.setPins T.core T.ctx obj (fun n => n + 1) false
            let s := holds.foldl (fun s va => s.setHold T.core T.ctx va fun n => n + 1) s
            let s := s.acquireSys
            let s := s.modTeam k fun T =>
              { T with pins := T.pins ++ [{ region := rg, obj := BitVec.ofNat 64 obj, size := size, holds := holds }] }
            ((s.tapTeam T 47 0 (pinsOf w + 1) 0 T.slot).modThread k i fun t => (t.setGx d (BitVec.ofNat 64 obj)).next, none))

/-- Removes the newest pin that meets a test. -/
def dropNewest (l : List Pin) (f : Pin → Bool) : List Pin := (l.reverse.eraseP f).reverse

def execUnpin (d : BitVec 7) (r : BitVec 4) (s : State) : Result :=
  .next (s.lanesInOrder fun s i t =>
    match s.issuing? with
    | none => (s, none)
    | some T =>
      if refNull (t.ref r) then (s, some { cause := 0x09 })
      else if !(T.reqsOf i).isEmpty then (s.setThread i (t.wait (.older ((T.reqsOf i).map fun r => r.id))), none)
      else
        s.withRef i T r fun s obj _ =>
          let k := s.issue.team
          let mine := fun (p : Pin) => p.region == refRegion (t.ref r) && p.obj.toNat == obj
          match T.pins.reverse.find? mine with
          | none => (s.modThread k i fun t => (t.setG d 1).next, none)
          | some p =>
            let bad := s.badPin? T.core T.ctx obj p.holds
            if bad.isSome then
              ((s.meetBad (bad.getD (0, false))).fatal k i 0x82 (s.trapPc t) (BitVec.ofNat 64 obj) (BitVec.ofNat 64 obj), none)
            else if s.headerMigrates T.core T.ctx obj then (s.modThread k i fun t => t.wait (.older []), none)
            else
              let s := { s with mem := s.mem.flushFrom (dieOf T.core) }
              let s := s.releasePin T.core T.ctx p
              let s := s.modTeam k fun T => { T with pins := dropNewest T.pins mine }
              ((s.tapTeam T 47 1 (pinsOf (s.headerState T.core T.ctx obj)) 0 T.slot).modThread k i fun t =>
                (t.setG d 0).next, none))

end Sys2Proof.Machine
end

