-- ==== Sys2Proof/WellFormed.lean ====
section
/-! DEFINITION. Well-formed instructions: the operand limits that R57, R62, R65 to R67 and the instruction entries
state for a word whose fields are otherwise assigned. A word whose fields break one of them traps ILLEGAL_FIELD (R68). -/

namespace Sys2Proof

/-- A 64-bit pair is named by an even register (R62). -/
def even (n : BitVec 7) : Bool := n.extractLsb' 0 1 == 0
/-- A 128-bit quad is named by a multiple of 4 (R62). -/
def quad (n : BitVec 7) : Bool := n.extractLsb' 0 2 == 0
/-- A group of eight registers is named by a multiple of 8 (R163, R325, R330). -/
def oct (n : BitVec 7) : Bool := n.extractLsb' 0 3 == 0

/-- The slide of CALL and CALLR is even and 2 to 126 (R146). -/
def slideOk (s : BitVec 7) : Bool := even s && s != 0

/-- The special registers of the table in R83, each with whether it is 64 bits wide. -/
def srWide (n : BitVec 7) : Option Bool :=
  if n ≤ 9#7 then some false
  else if n = 10#7 then some true
  else if n = 12#7 ∨ n = 13#7 then some false
  else if n = 14#7 ∨ n = 16#7 ∨ n = 18#7 then some true
  else if n = 20#7 ∨ n = 21#7 then some false
  else if n = 22#7 then some true
  else none

/-- SRD names a listed register, and a pair where it is 64 bits wide (R89). -/
def srReadable (n d : BitVec 7) : Bool :=
  match srWide n with
  | some wide => !wide || even d
  | none => false

/-- SWR names a register that is not read-only, and a pair where it is 64 bits wide (R83, R89). -/
def srWritable (n a : BitVec 7) : Bool :=
  (n == 8#7 || n == 9#7 || n == 12#7 || n == 13#7 || n == 14#7 || n == 16#7 || n == 18#7) && srReadable n a

/-- The data register of an access of width w (R245, R247). -/
def widthReg (w : Width) (d : BitVec 7) : Bool :=
  match w with
  | .b | .bs | .h | .hs | .w => true
  | .x => even d
  | .q => quad d

/-- LDM: no release, and a scope wherever the access is not plain (R57, R211, R247). -/
def ldmOk (d a : BitVec 7) (sem : Sem) (sc : Scope) (w : Width) : Bool :=
  even a && widthReg w d && sem != .rel && (sem == .plain || sc != .unscoped)

/-- STM: no acquire, a scope wherever the access is not plain, and no sign-extending width (R57, R211, R247). -/
def stmOk (d a : BitVec 7) (sem : Sem) (sc : Scope) (w : Width) : Bool :=
  even a && widthReg w d && sem != .acq && (sem == .plain || sc != .unscoped) && w != .bs && w != .hs

/-- Register constraints of ATOM (R250). -/
def atomRegs (d b : BitVec 7) (op : AOp) : Bool :=
  match op with
  | .cas => even b
  | .addX => even d && even b
  | _ => true

/-- Register constraints of RED, which has neither XCHG nor CAS (R66, R250). -/
def redRegs (b : BitVec 7) (op : AOp) : Bool :=
  match op with
  | .xchg | .cas => false
  | .addX => even b
  | _ => true

/-- FENCE names a scope and a kind, and ld and st with the SC bit (R222). -/
def fenceOk (sc tile eng st ld : Bool) (scope : Scope) : Bool :=
  scope != .unscoped && (tile || eng || st || ld) && (!sc || (ld && st))

/-- The instruction is one that the word's fields may hold. Events of the part have no word and no limit. -/
def Instr.wf : Instr → Bool
  | .nop | .bra _ | .brc _ _ _ => true
  | .call slide _ => slideOk slide
  | .callr a slide => even a && slideOk slide
  | .ret => true
  | .jmpr a => even a
  | .exit | .reform | .winbase _ | .trap _ | .rft => true
  | .srd d sr => srReadable sr d
  | .swr sr a => srWritable sr a
  | .rdcnt d n => even d && decide (n < 16#7)
  | .tmark _ _ | .yield | .sleep _ | .brk => true
  | .launch _ a b => even a && quad b
  | .gwait _ _ | .elect _ _ | .electS _ _ _ | .wakel _ _ | .matchW _ _ => true
  | .matchX _ a => even a
  | .voteAny _ _ | .voteAll _ _ | .voteBal _ _ | .actmask _ | .shflIdx _ _ _ | .shflUp _ _ _ | .shflDown _ _ _
  | .shflXor _ _ _ | .pand _ _ _ | .por _ _ _ | .pxor _ _ _ | .pandn _ _ _ | .pnot _ _ | .pmov _ _ | .pget _
  | .psetm _ _ | .add _ _ _ | .sub _ _ _ | .and _ _ _ | .or _ _ _ | .xor _ _ _ | .andn _ _ _ | .shl _ _ _ | .shr _ _ _
  | .sar _ _ _ | .minS _ _ _ | .minU _ _ _ | .maxS _ _ _ | .maxU _ _ _ | .mul _ _ _ | .mulhiS _ _ _ | .mulhiU _ _ _
  | .mad _ _ _ => true
  | .mulwS d _ _ => even d
  | .mulwU d _ _ => even d
  | .abs _ _ | .clz _ _ | .popc _ _ | .brev _ _ | .bfeS _ _ _ | .bfeU _ _ _ | .bfi _ _ _ | .mov _ _ | .extS _ _ _
  | .extU _ _ _ | .sel _ _ _ _ _ | .iset _ _ _ _ => true
  | .isetX _ _ a b => even a && even b
  | .iseti _ _ _ _ | .addi _ _ _ | .andi _ _ _ | .ori _ _ _ | .xori _ _ _ | .shli _ _ _ | .shri _ _ _ | .sari _ _ _
  | .roli _ _ _ | .muli _ _ _ | .movi _ _ => true
  | .addX d a b => even d && even a && even b
  | .subX d a b => even d && even a && even b
  | .shlX d a _ => even d && even a
  | .shrX d a _ => even d && even a
  | .sarX d a _ => even d && even a
  | .movX d a => even d && even a
  | .lea d a _ k => even d && even a && decide (k < 5#3)
  | .addiX d a _ => even d && even a
  | .fadd _ _ _ _ _ _ | .fsub _ _ _ _ _ _ | .fmul _ _ _ _ _ _ | .ffma _ _ _ _ _ _ | .fmin _ _ _ | .fmax _ _ _
  | .fset _ _ _ _ | .rcp _ _ | .rsq _ _ | .sqrt _ _ | .exp2 _ _ | .log2 _ _ | .sinpi _ _ | .cospi _ _ | .rndn _ _
  | .rndz _ _ | .rndd _ _ | .rndu _ _ | .fcvtF32I32 _ _ _ | .fcvtF32Ui32 _ _ _ | .fcvtI32F32 _ _ _
  | .fcvtUi32F32 _ _ _ => true
  | .fcvtF32I64 _ a _ => even a
  | .fcvtI64F32 d _ _ => even d
  | .fcvtF16F32 _ _ _ | .fcvtBf16F32 _ _ _ | .fcvtF16hF32 _ _ _ | .fcvtBf16hF32 _ _ _ | .fcvtF32F16 _ _
  | .fcvtF32Bf16 _ _ | .fcvtF32F16h _ _ | .fcvtF32Bf16h _ _ => true
  | .fcvtF32Ui64 _ a _ => even a
  | .fcvtUi64F32 d _ _ => even d
  | .pk8 _ a _ _ => quad a
  | .upk8 d _ _ => quad d
  | .pk6 d a _ _ => even d && oct a
  | .upk6 d a _ => oct d && even a
  | .hadd2Bf16 _ _ _ | .hmul2Bf16 _ _ _ | .hfma2Bf16 _ _ _ | .hadd2F16 _ _ _ | .hmul2F16 _ _ _ | .hfma2F16 _ _ _
  | .hmin2 _ _ _ | .hmax2 _ _ _ | .scx _ _ _ | .sca _ _ _ | .scm _ _ _ => true
  | .ldB _ a _ => even a
  | .ldBs _ a _ => even a
  | .ldH _ a _ => even a
  | .ldHs _ a _ => even a
  | .ldW _ a _ => even a
  | .ldX d a _ => even d && even a
  | .ldQ d a _ => quad d && even a
  | .stB _ a _ => even a
  | .stH _ a _ => even a
  | .stW _ a _ => even a
  | .stX d a _ => even d && even a
  | .stQ d a _ => quad d && even a
  | .ldm d a sem sc w _ => ldmOk d a sem sc w
  | .stm d a sem sc w _ => stmOk d a sem sc w
  | .prefLlc a _ => even a
  | .prefStash a _ => even a
  | .pgreq _ a _ => even a
  | .pgreqNp _ a _ => even a
  | .atomT d a b op => even a && atomRegs d b op
  | .atomC d a b op => even a && atomRegs d b op
  | .atomD d a b op => even a && atomRegs d b op
  | .atomP d a b op => even a && atomRegs d b op
  | .atomS d a b op => even a && atomRegs d b op
  | .redD a b op => even a && redRegs b op
  | .redP a b op => even a && redRegs b op
  | .redS a b op => even a && redRegs b op
  | .stfl d a b wide sc => even a && even b && (!wide || even d) && sc != .unscoped
  | .redn d a b _ => quad d && even a && even b
  | .smap _ a b => even a && even b
  | .sunmap _ a => even a
  | .sflush a _ => even a
  | .sinv a _ => even a
  | .pub _ a b => even a && quad b
  | .mwatch _ a => even a
  | .mwait _ _ => true
  | .fence sc tile eng st ld scope => fenceOk sc tile eng st ld scope
  | .barSync _ | .barArrive _ _ | .barWait _ _ => true
  | .tbinit a _ => even a
  | .tbexp a _ => even a
  | .tbarr _ a => even a
  | .tbwait _ a _ => even a
  | .tbtest _ a _ => even a
  | .tberr d a => quad d && even a
  | .waitc _ _ _ _ => true
  | .waitb _ imm => imm != 0
  | .ccset _ _ | .ccadd _ _ | .ccrd _ _ | .mxacq _ | .mxrel _ | .tmma _ _ _ _ _ _ _ | .tmmai _ _ _ _ _ _ _
  | .tzero _ _ => true
  | .trd d _ _ => quad d
  | .twr d _ _ => quad d
  | .trowsum _ _ | .trowssq _ _ | .trowmax _ _ | .trowmul _ _ | .trowadd _ _ => true
  | .tcvt _ _ _ f _ => f != .cb4
  | .tscale _ _ b => oct b && decide (b <= 112#7)
  | .tlda a _ => even a
  | .tstate _ _ | .trel _ => true
  | .cbld _ a => oct a
  | .rldW _ _ _ => true
  | .rldX d _ _ => even d
  | .rstW _ _ _ => true
  | .rstX d _ _ => even d
  | .rldr _ _ _ | .rstr _ _ _ => true
  | .pin d _ => even d
  | .unpin _ _ | .refeq _ _ _ => true
  | .rget d _ => even d
  | .rput _ a => even a
  | .rchk _ _ | .rnull _ | .lit _ | .yadd _ _ _ | .ysub _ _ _ | .yand _ _ _ | .yor _ _ _ | .yxor _ _ _ | .yshl _ _ _
  | .yshr _ _ _ | .yminu _ _ _ | .ymaxu _ _ _ | .yaddi _ _ _ | .yandi _ _ _ | .yshi _ _ _ _ | .ymovi _ _ | .yins _ _
  | .yclz _ _ | .yhash _ _ _ => true
  | .ybr c a b imm => decide (1#15 <= imm) && decide (imm <= 63#15) && (c != .al || (a == 0 && b == 0))
  | .yhist _ _ _ | .ycms _ _ _ | .ycmq _ _ _ | .yldb _ _ _ | .ytrigRecord | .ytrigInterrupt | .ytrigFreeze
  | .ytrigArm _ => true
  | .yrds _ n => decide (n < 5#15)
  | .railOvercurrent _ | .ctxBind _ | .yend | .ctxSuspend _ | .ctxResume _ | .regWrite _ _ _ | .ctxClearf _
  | .ctxFence _ | .modeCfgWrite _ _ | .ctxDestroy _ | .sliceLengthExpiry _ | .powerCapApply | .sliceSwitch _
  | .debugResume _ | .mirrorRelease | .qBind _ | .qStart _ | .leaseChangeSettle | .qDrain _ | .qClear _
  | .tileOwnershipTransfer _ _ | .qDestroy _ | .qQuery _ | .sleepEnd _ _ | .queueWatchFire _
  | .queueRecordNop _ | .yieldTimeout _ _ | .queueRecordLaunch _ | .queueRecordWait _ | .tholdPropagation _ _
  | .queueRecordSignal _ | .queueUnblock _ | .threadWaitEnd _ _ | .queueAgePromote _ | .teamPlace _
  | .gridDescriptorRead _ _ | .placementReserve _ | .teamDone _ | .gridTranslate _ _ | .requestEnqueue _
  | .requestAdvance _ | .slabSpill _ _ _ | .requestHoldTimeout _ | .requestBackoffExpiry _ | .slabFill _ _ _
  | .requestReissue _ | .loadCommit _ | .binDraw _ _ | .walkComplete _ | .pgInval _ | .storeArrival _ _
  | .pgReside _ | .pgMigpub _ | .instructionFetch _ _ | .pgAssign _ | .pgShare _ | .runAheadFetch _ _ _
  | .pgFree _ | .pgUnpoison _ | .frmTblWrite _ _ | .tileOpStart _ | .tileOpComplete _ | .prqRidxWrite _ _
  | .tileFillComplete _ | .requestEngineTake _ | .mwaitWake _ _ | .cmdNop _ | .cmdCpy _ | .mwaitTimeout _ _
  | .cmdCpy2d _ | .cmdCpyt _ | .hostWatchExpiry _ _ | .cmdCpyp _ | .cmdCpyr _ | .selftestInject _ _ _
  | .cmdFill _ | .cmdComplete _ | .selftestForced _ _ _ | .hostConfigRequest _ | .doeDiscovery _
  | .mhDefine _ _ | .tdispLockInterface _ | .tdispStartInterface _ | .mhBegin _ _ | .tdispStopInterface _
  | .ideIntegrityFailure _ | .mhEnd _ _ | .portSignalDetect _ | .portLinkLoss _ | .mhUndefine _ _
  | .nodeTrigger _ | .reduceRoundComplete _ | .teaselTake _ _ | .yarrowRun _ | .yarrowWindow _
  | .teaselRetry _ _ | .yarrowTimerEvent _ | .samplerTick _ | .hostWrite _ _ | .scanDrainTimeout _
  | .hostRead _ _ | .hostAtomicop _ _ _ _ _ | .vfAccess _ _ _ _ _ | .hostCompletion _ _ | .vfBindWrite _ _ _
  | .spdmRequest _ _ | .ideKmMessage _ _ | .portTrainingResult _ _ _ | .bamlosResponse _ _ _
  | .bamlosMgmt _ _ _ | .nodeAttest _ _ | .attestResult _ _ _ _ | .nodeRevoke _ _ | .nodeFence _ _
  | .nodeUnfence _ _ | .nodeRetrain _ _ | .ywLoad _ _ | .ywUnload _ _ | .ywDump _ _ _ | .ywClear _ _ _
  | .ywBudget _ _ | .ywSample _ _ _ | .scanRotationStart | .coreScan _ _ | .partReset _ _ | .partFatal
  | .illegalOpcode _ _ | .leaseExpiry _ _ _ | .caplimWindow | .flowControlStopGo _ _ _ => true

end Sys2Proof
end

