-- ==== Sys2Proof/Decode.lean ====
section
/-! DEFINITION. The decoder of instruction words (R53 to R68) and of filter words (R409), total on any word and refusing
by cause; and after it the encoder, written from the same tables. -/

namespace Sys2Proof

/-- Rounding codes (R30). -/
def RMode.code : RMode → BitVec 2
  | .rn => 0
  | .rz => 1
  | .rd => 2
  | .ru => 3

/-- The RMode a field value names, none where it is reserved. -/
def RMode.ofCode (v : BitVec 2) : Option RMode :=
  if v = 0#2 then some .rn
  else if v = 1#2 then some .rz
  else if v = 2#2 then some .rd
  else if v = 3#2 then some .ru
  else none

/-- Conditions of ISET and ISETI (R66). -/
def Cond.code : Cond → BitVec 4
  | .eq => 0
  | .ne => 1
  | .lt => 2
  | .le => 3
  | .gt => 4
  | .ge => 5
  | .ltu => 6
  | .leu => 7
  | .gtu => 8
  | .geu => 9

/-- The Cond a field value names, none where it is reserved. -/
def Cond.ofCode (v : BitVec 4) : Option Cond :=
  if v = 0#4 then some .eq
  else if v = 1#4 then some .ne
  else if v = 2#4 then some .lt
  else if v = 3#4 then some .le
  else if v = 4#4 then some .gt
  else if v = 5#4 then some .ge
  else if v = 6#4 then some .ltu
  else if v = 7#4 then some .leu
  else if v = 8#4 then some .gtu
  else if v = 9#4 then some .geu
  else none

/-- Conditions of FSET (R66). -/
def FCond.code : FCond → BitVec 4
  | .eq => 0
  | .ne => 1
  | .lt => 2
  | .le => 3
  | .gt => 4
  | .ge => 5
  | .neu => 6
  | .un => 7
  | .ord => 8

/-- The FCond a field value names, none where it is reserved. -/
def FCond.ofCode (v : BitVec 4) : Option FCond :=
  if v = 0#4 then some .eq
  else if v = 1#4 then some .ne
  else if v = 2#4 then some .lt
  else if v = 3#4 then some .le
  else if v = 4#4 then some .gt
  else if v = 5#4 then some .ge
  else if v = 6#4 then some .neu
  else if v = 7#4 then some .un
  else if v = 8#4 then some .ord
  else none

/-- Access semantics (R57). -/
def Sem.code : Sem → BitVec 2
  | .plain => 0
  | .acq => 1
  | .rel => 2
  | .sc => 3

/-- The Sem a field value names, none where it is reserved. -/
def Sem.ofCode (v : BitVec 2) : Option Sem :=
  if v = 0#2 then some .plain
  else if v = 1#2 then some .acq
  else if v = 2#2 then some .rel
  else if v = 3#2 then some .sc
  else none

/-- Scopes (R57); 6 and 7 are reserved. -/
def Scope.code : Scope → BitVec 3
  | .unscoped => 0
  | .team => 1
  | .clu => 2
  | .die => 3
  | .pkg => 4
  | .sys => 5

/-- The Scope a field value names, none where it is reserved. -/
def Scope.ofCode (v : BitVec 3) : Option Scope :=
  if v = 0#3 then some .unscoped
  else if v = 1#3 then some .team
  else if v = 2#3 then some .clu
  else if v = 3#3 then some .die
  else if v = 4#3 then some .pkg
  else if v = 5#3 then some .sys
  else none

/-- Access widths (R57); 7 is reserved. -/
def Width.code : Width → BitVec 3
  | .b => 0
  | .bs => 1
  | .h => 2
  | .hs => 3
  | .w => 4
  | .x => 5
  | .q => 6

/-- The Width a field value names, none where it is reserved. -/
def Width.ofCode (v : BitVec 3) : Option Width :=
  if v = 0#3 then some .b
  else if v = 1#3 then some .bs
  else if v = 2#3 then some .h
  else if v = 3#3 then some .hs
  else if v = 4#3 then some .w
  else if v = 5#3 then some .x
  else if v = 6#3 then some .q
  else none

/-- Atomic operations (R66); 14 and 15 are reserved. -/
def AOp.code : AOp → BitVec 4
  | .add => 0
  | .minS => 1
  | .maxS => 2
  | .minU => 3
  | .maxU => 4
  | .and => 5
  | .or => 6
  | .xor => 7
  | .xchg => 8
  | .cas => 9
  | .incw => 10
  | .decw => 11
  | .fadd => 12
  | .addX => 13

/-- The AOp a field value names, none where it is reserved. -/
def AOp.ofCode (v : BitVec 4) : Option AOp :=
  if v = 0#4 then some .add
  else if v = 1#4 then some .minS
  else if v = 2#4 then some .maxS
  else if v = 3#4 then some .minU
  else if v = 4#4 then some .maxU
  else if v = 5#4 then some .and
  else if v = 6#4 then some .or
  else if v = 7#4 then some .xor
  else if v = 8#4 then some .xchg
  else if v = 9#4 then some .cas
  else if v = 10#4 then some .incw
  else if v = 11#4 then some .decw
  else if v = 12#4 then some .fadd
  else if v = 13#4 then some .addX
  else none

/-- TMMA formats (R67). -/
def TFmt.code : TFmt → BitVec 4
  | .bf16 => 0
  | .f16 => 1
  | .e4m3 => 2
  | .e4m3e5m2 => 3
  | .e5m2e4m3 => 4
  | .e5m2 => 5
  | .e3m2 => 6
  | .e2m3 => 7
  | .cb4 => 8

/-- The TFmt a field value names, none where it is reserved. -/
def TFmt.ofCode (v : BitVec 4) : Option TFmt :=
  if v = 0#4 then some .bf16
  else if v = 1#4 then some .f16
  else if v = 2#4 then some .e4m3
  else if v = 3#4 then some .e4m3e5m2
  else if v = 4#4 then some .e5m2e4m3
  else if v = 5#4 then some .e5m2
  else if v = 6#4 then some .e3m2
  else if v = 7#4 then some .e2m3
  else if v = 8#4 then some .cb4
  else none

/-- TMMAI formats (R67). -/
def TIFmt.code : TIFmt → BitVec 4
  | .s8s8 => 0
  | .s8u8 => 1
  | .u8s8 => 2
  | .u8u8 => 3

/-- The TIFmt a field value names, none where it is reserved. -/
def TIFmt.ofCode (v : BitVec 4) : Option TIFmt :=
  if v = 0#4 then some .s8s8
  else if v = 1#4 then some .s8u8
  else if v = 2#4 then some .u8s8
  else if v = 3#4 then some .u8u8
  else none

/-- Formats of PK8 and UPK8 (R161). -/
def F8.code : F8 → BitVec 1
  | .e4m3 => 0
  | .e5m2 => 1

/-- The F8 a field value names, none where it is reserved. -/
def F8.ofCode (v : BitVec 1) : Option F8 :=
  if v = 0#1 then some .e4m3
  else if v = 1#1 then some .e5m2
  else none

/-- Formats of PK6 and UPK6 (R163). -/
def F6.code : F6 → BitVec 1
  | .e3m2 => 0
  | .e2m3 => 1

/-- The F6 a field value names, none where it is reserved. -/
def F6.ofCode (v : BitVec 1) : Option F6 :=
  if v = 0#1 then some .e3m2
  else if v = 1#1 then some .e2m3
  else none

/-- Targets of SCX and SCM (R166). -/
def ScaleT.code : ScaleT → BitVec 3
  | .e4m3 => 0
  | .e5m2 => 1
  | .e3m2 => 2
  | .e2m3 => 3
  | .exp => 4

/-- The ScaleT a field value names, none where it is reserved. -/
def ScaleT.ofCode (v : BitVec 3) : Option ScaleT :=
  if v = 0#3 then some .e4m3
  else if v = 1#3 then some .e5m2
  else if v = 2#3 then some .e3m2
  else if v = 3#3 then some .e2m3
  else if v = 4#3 then some .exp
  else none

/-- Operations of REDN (R66). -/
def RedOp.code : RedOp → BitVec 4
  | .fadd => 0
  | .add => 1
  | .fmax => 2
  | .fmin => 3
  | .maxS => 4
  | .minS => 5

/-- The RedOp a field value names, none where it is reserved. -/
def RedOp.ofCode (v : BitVec 4) : Option RedOp :=
  if v = 0#4 then some .fadd
  else if v = 1#4 then some .add
  else if v = 2#4 then some .fmax
  else if v = 3#4 then some .fmin
  else if v = 4#4 then some .maxS
  else if v = 5#4 then some .minS
  else none

/-- Conditions of YBR (R409). -/
def YCond.code : YCond → BitVec 4
  | .eq => 0
  | .ne => 1
  | .ltu => 2
  | .geu => 3
  | .lt => 4
  | .ge => 5
  | .al => 6

/-- The YCond a field value names, none where it is reserved. -/
def YCond.ofCode (v : BitVec 4) : Option YCond :=
  if v = 0#4 then some .eq
  else if v = 1#4 then some .ne
  else if v = 2#4 then some .ltu
  else if v = 3#4 then some .geu
  else if v = 4#4 then some .lt
  else if v = 5#4 then some .ge
  else if v = 6#4 then some .al
  else none

/-- Kinds of YSHI (R409); 3 is refused. -/
def ShKind.code : ShKind → BitVec 2
  | .shl => 0
  | .shr => 1
  | .sar => 2

/-- The ShKind a field value names, none where it is reserved. -/
def ShKind.ofCode (v : BitVec 2) : Option ShKind :=
  if v = 0#2 then some .shl
  else if v = 1#2 then some .shr
  else if v = 2#2 then some .sar
  else none

/-! The fields of a word (R54, R55). -/

/-- The major opcode, bits [31:25]. -/
def fOp (w : Word) : BitVec 7 := w.extractLsb' 25 7
/-- Field d of formats A, B, C, M and X, bits [24:18]. -/
def fD (w : Word) : BitVec 7 := w.extractLsb' 18 7
/-- Field a, bits [17:11]. -/
def fA (w : Word) : BitVec 7 := w.extractLsb' 11 7
/-- Field b, bits [10:4]. -/
def fB (w : Word) : BitVec 7 := w.extractLsb' 4 7
/-- Field fn or aop, bits [3:0]. -/
def fFn (w : Word) : BitVec 4 := w.extractLsb' 0 4
/-- imm11 of format B. -/
def fImm11 (w : Word) : BitVec 11 := w.extractLsb' 0 11
/-- imm18 of format C and off18 of format K. -/
def fImm18 (w : Word) : BitVec 18 := w.extractLsb' 0 18
/-- c of format J. -/
def fC (w : Word) : BitVec 4 := w.extractLsb' 21 4
/-- off21 of format J. -/
def fOff21 (w : Word) : BitVec 21 := w.extractLsb' 0 21
/-- sem, sc, w and hint of format M. -/
def fSem (w : Word) : BitVec 2 := w.extractLsb' 9 2
def fSc (w : Word) : BitVec 3 := w.extractLsb' 6 3
def fW (w : Word) : BitVec 3 := w.extractLsb' 3 3
def fHint (w : Word) : BitVec 3 := w.extractLsb' 0 3
/-- acc, abuf, bslot, fmt and fl of format T. -/
def fAcc (w : Word) : BitVec 6 := w.extractLsb' 19 6
def fAbuf (w : Word) : BitVec 3 := w.extractLsb' 16 3
def fBslot (w : Word) : BitVec 9 := w.extractLsb' 7 9
def fFmt (w : Word) : BitVec 4 := w.extractLsb' 3 4
def fFl (w : Word) : BitVec 3 := w.extractLsb' 0 3
/-- The five fields of format W. -/
def fLd (w : Word) : BitVec 5 := w.extractLsb' 20 5
def fSt (w : Word) : BitVec 5 := w.extractLsb' 15 5
def fCp (w : Word) : BitVec 5 := w.extractLsb' 10 5
def fTl (w : Word) : BitVec 5 := w.extractLsb' 5 5
def fZero5 (w : Word) : BitVec 5 := w.extractLsb' 0 5
/-- The payload of format L. -/
def fPayload (w : Word) : BitVec 25 := w.extractLsb' 0 25
/-- The fields of a filter word (R409). -/
def yOp (w : Word) : BitVec 5 := w.extractLsb' 27 5
def yD (w : Word) : BitVec 4 := w.extractLsb' 23 4
def yA (w : Word) : BitVec 4 := w.extractLsb' 19 4
def yB (w : Word) : BitVec 4 := w.extractLsb' 15 4
def yImm (w : Word) : BitVec 15 := w.extractLsb' 0 15

/-! Narrow names in wider fields: the upper bits must be zero (R62). -/

/-- A predicate, a completion counter, a codebook slot or a scale target in a 7-bit field. -/
def narrow3 (x : BitVec 7) : Option (BitVec 3) :=
  if x.extractLsb' 3 4 = 0#4 then some (x.extractLsb' 0 3) else none
/-- A reference register or a team barrier in a 7-bit field. -/
def narrow4 (x : BitVec 7) : Option (BitVec 4) :=
  if x.extractLsb' 4 3 = 0#3 then some (x.extractLsb' 0 4) else none
/-- A bit count in a 7-bit field (R136). -/
def narrow5 (x : BitVec 7) : Option (BitVec 5) :=
  if x.extractLsb' 5 2 = 0#2 then some (x.extractLsb' 0 5) else none
/-- An accumulator in a 7-bit field (R318). -/
def narrow6 (x : BitVec 7) : Option (BitVec 6) :=
  if x.extractLsb' 6 1 = 0#1 then some (x.extractLsb' 0 6) else none
/-- A rounding mode in field b of FCVT (R159). -/
def narrow2 (x : BitVec 7) : Option (BitVec 2) :=
  if x.extractLsb' 2 5 = 0#5 then some (x.extractLsb' 0 2) else none
/-- A format bit in field b (R162, R164). -/
def narrow1 (x : BitVec 7) : Option (BitVec 1) :=
  if x.extractLsb' 1 6 = 0#6 then some (x.extractLsb' 0 1) else none

/-- The instruction, where every must-be-zero test holds. -/
def onlyIf (c : Bool) (i : Instr) : Option Instr := if c then some i else none

/-- One bit as a truth value. -/
def flag (x : BitVec 1) : Bool := x == 1#1

/-! One decoder per major, in the order of R64. -/

/-- C-format majors whose d and imm18 are zero (R65). -/
def decBare (i : Instr) (w : Word) : Option Instr := onlyIf (fD w == 0 && fImm18 w == 0) i

/-- BRA (R187): c must be zero. -/
def decBra (w : Word) : Option Instr := onlyIf (fC w == 0) (.bra (fOff21 w))
/-- BRC (R56): c names the predicate and whether it is negated. -/
def decBrc (w : Word) : Option Instr :=
  some (.brc (flag ((fC w).extractLsb' 3 1)) ((fC w).extractLsb' 0 3) (fOff21 w))
/-- CALLR (R146). -/
def decCallr (w : Word) : Option Instr := onlyIf (fD w == 0 && fFn w == 0) (.callr (fA w) (fB w))
/-- JMPR (R188). -/
def decJmpr (w : Word) : Option Instr := onlyIf (fD w == 0 && fB w == 0 && fFn w == 0) (.jmpr (fA w))
/-- WINBASE and TRAP: d is zero (R65). -/
def decWinbase (w : Word) : Option Instr := onlyIf (fD w == 0) (.winbase (fImm18 w))
def decTrap (w : Word) : Option Instr := onlyIf (fD w == 0) (.trap (fImm18 w))
/-- SYS (R66, R88, R416). -/
def decSys (w : Word) : Option Instr :=
  if fFn w = 0#4 then onlyIf (fB w == 0) (.srd (fD w) (fA w))
  else if fFn w = 1#4 then onlyIf (fB w == 0) (.swr (fD w) (fA w))
  else if fFn w = 2#4 then onlyIf (fB w == 0) (.rdcnt (fD w) (fA w))
  else if fFn w = 3#4 then onlyIf (fB w == 0) (.tmark (fD w) (fA w))
  else if fFn w = 4#4 then onlyIf (fD w == 0 && fA w == 0 && fB w == 0) .yield
  else if fFn w = 5#4 then onlyIf (fD w == 0 && fB w == 0) (.sleep (fA w))
  else if fFn w = 6#4 then onlyIf (fD w == 0 && fA w == 0 && fB w == 0) .brk
  else none
/-- LAUNCH (R120) and GWAIT (R122). -/
def decLaunch (w : Word) : Option Instr := onlyIf (fFn w == 0) (.launch (fD w) (fA w) (fB w))
def decGwait (w : Word) : Option Instr := onlyIf (fB w == 0 && fFn w == 0) (.gwait (fD w) (fA w))
/-- ELECT (R191, R192). -/
def decElect (w : Word) : Option Instr :=
  if fFn w = 0#4 then (narrow3 (fA w)).bind fun p => onlyIf (fB w == 0) (.elect (fD w) p)
  else if fFn w = 1#4 then (narrow3 (fA w)).bind fun p => (narrow3 (fB w)).map fun q => .electS (fD w) p q
  else if fFn w = 2#4 then onlyIf (fB w == 0) (.wakel (fD w) (fA w))
  else none
/-- MATCH (R195). -/
def decMatch (w : Word) : Option Instr :=
  if fFn w = 0#4 then
    if fB w = 0#7 then some (.matchW (fD w) (fA w))
    else if fB w = 1#7 then some (.matchX (fD w) (fA w))
    else none
  else if fFn w = 1#4 then
    (narrow3 (fD w)).bind fun d => (narrow3 (fA w)).bind fun a => onlyIf (fB w == 0) (.voteAny d a)
  else if fFn w = 2#4 then
    (narrow3 (fD w)).bind fun d => (narrow3 (fA w)).bind fun a => onlyIf (fB w == 0) (.voteAll d a)
  else if fFn w = 3#4 then (narrow3 (fA w)).bind fun p => onlyIf (fB w == 0) (.voteBal (fD w) p)
  else if fFn w = 4#4 then onlyIf (fA w == 0 && fB w == 0) (.actmask (fD w))
  else none

/-- A-format majors whose three fields are all registers: fn picks the operation (R66). -/
def decRegs (ops : List (BitVec 7 → BitVec 7 → BitVec 7 → Instr)) (w : Word) : Option Instr :=
  ops[(fFn w).toNat]?.map fun op => op (fD w) (fA w) (fB w)

/-- SHFL (R196). -/
def decShfl : Word → Option Instr := decRegs [.shflIdx, .shflUp, .shflDown, .shflXor]
/-- PLOG (R144). -/
def decPlog (w : Word) : Option Instr :=
  let three (op : BitVec 3 → BitVec 3 → BitVec 3 → Instr) : Option Instr :=
    (narrow3 (fD w)).bind fun d => (narrow3 (fA w)).bind fun a => (narrow3 (fB w)).map fun b => op d a b
  let two (op : BitVec 3 → BitVec 3 → Instr) : Option Instr :=
    (narrow3 (fD w)).bind fun d => (narrow3 (fA w)).bind fun a => onlyIf (fB w == 0) (op d a)
  if fFn w = 0#4 then three .pand
  else if fFn w = 1#4 then three .por
  else if fFn w = 2#4 then three .pxor
  else if fFn w = 3#4 then three .pandn
  else if fFn w = 4#4 then two .pnot
  else if fFn w = 5#4 then two .pmov
  else if fFn w = 6#4 then onlyIf (fA w == 0 && fB w == 0) (.pget (fD w))
  else if fFn w = 7#4 then onlyIf (fD w == 0) (.psetm (fA w) (fB w))
  else none
/-- IALU (R135). -/
def decIalu : Word → Option Instr :=
  decRegs [.add, .sub, .and, .or, .xor, .andn, .shl, .shr, .sar, .minS, .minU, .maxS, .maxU, .mul, .mulhiS, .mulhiU]
/-- IALU2 (R136, R137). -/
def decIalu2 (w : Word) : Option Instr :=
  let two (op : BitVec 7 → BitVec 7 → Instr) : Option Instr := onlyIf (fB w == 0) (op (fD w) (fA w))
  if fFn w = 0#4 then some (.mad (fD w) (fA w) (fB w))
  else if fFn w = 1#4 then some (.mulwS (fD w) (fA w) (fB w))
  else if fFn w = 2#4 then some (.mulwU (fD w) (fA w) (fB w))
  else if fFn w = 3#4 then two .abs
  else if fFn w = 4#4 then two .clz
  else if fFn w = 5#4 then two .popc
  else if fFn w = 6#4 then two .brev
  else if fFn w = 7#4 then some (.bfeS (fD w) (fA w) (fB w))
  else if fFn w = 8#4 then some (.bfeU (fD w) (fA w) (fB w))
  else if fFn w = 9#4 then some (.bfi (fD w) (fA w) (fB w))
  else if fFn w = 10#4 then two .mov
  else if fFn w = 11#4 then (narrow5 (fB w)).map fun n => .extS (fD w) (fA w) n
  else if fFn w = 12#4 then (narrow5 (fB w)).map fun n => .extU (fD w) (fA w) n
  else none
/-- SEL (R140). -/
def decSel (w : Word) : Option Instr :=
  some (.sel (fD w) (fA w) (fB w) (flag ((fFn w).extractLsb' 3 1)) ((fFn w).extractLsb' 0 3))
/-- ISET (R141): d holds the condition and the predicate. -/
def decIset (w : Word) : Option Instr :=
  (Cond.ofCode ((fD w).extractLsb' 3 4)).bind fun c =>
    if fFn w = 0#4 then some (.iset c ((fD w).extractLsb' 0 3) (fA w) (fB w))
    else if fFn w = 1#4 then some (.isetX c ((fD w).extractLsb' 0 3) (fA w) (fB w))
    else none
/-- ISETI (R141). -/
def decIseti (w : Word) : Option Instr :=
  (Cond.ofCode ((fD w).extractLsb' 3 4)).map fun c => .iseti c ((fD w).extractLsb' 0 3) (fA w) (fImm11 w)
/-- B-format majors with d, a and imm11. -/
def decImm (op : BitVec 7 → BitVec 7 → BitVec 11 → Instr) (w : Word) : Option Instr :=
  some (op (fD w) (fA w) (fImm11 w))
/-- SHI (R65, R143): imm11[10:9] is the kind, [8:5] is zero. -/
def decShi (w : Word) : Option Instr :=
  if (fImm11 w).extractLsb' 5 4 = 0#4 then
    let n := (fImm11 w).extractLsb' 0 5
    let k := (fImm11 w).extractLsb' 9 2
    if k = 0#2 then some (.shli (fD w) (fA w) n)
    else if k = 1#2 then some (.shri (fD w) (fA w) n)
    else if k = 2#2 then some (.sari (fD w) (fA w) n)
    else some (.roli (fD w) (fA w) n)
  else none
/-- MOVI (R134). -/
def decMovi (w : Word) : Option Instr := some (.movi (fD w) (fImm18 w))
/-- CALL (R146). -/
def decCall (w : Word) : Option Instr := some (.call (fD w) (fImm18 w))
/-- IALU64 (R139). -/
def decIalu64 (w : Word) : Option Instr :=
  if (fFn w).extractLsb' 3 1 = 1#1 then some (.lea (fD w) (fA w) (fB w) ((fFn w).extractLsb' 0 3))
  else if fFn w = 0#4 then some (.addX (fD w) (fA w) (fB w))
  else if fFn w = 1#4 then some (.subX (fD w) (fA w) (fB w))
  else if fFn w = 2#4 then some (.shlX (fD w) (fA w) (fB w))
  else if fFn w = 3#4 then some (.shrX (fD w) (fA w) (fB w))
  else if fFn w = 4#4 then some (.sarX (fD w) (fA w) (fB w))
  else if fFn w = 5#4 then onlyIf (fB w == 0) (.movX (fD w) (fA w))
  else none
/-- FADD, FSUB, FMUL and FFMA (R154): fn holds abs, negate and the rounding mode. -/
def decFarith (op : BitVec 7 → BitVec 7 → BitVec 7 → Bool → Bool → RMode → Instr) (w : Word) : Option Instr :=
  (RMode.ofCode ((fFn w).extractLsb' 0 2)).map fun rm =>
    op (fD w) (fA w) (fB w) (flag ((fFn w).extractLsb' 3 1)) (flag ((fFn w).extractLsb' 2 1)) rm
/-- FMIN and FMAX (R155). -/
def decFmin (w : Word) : Option Instr := onlyIf (fFn w == 0) (.fmin (fD w) (fA w) (fB w))
def decFmax (w : Word) : Option Instr := onlyIf (fFn w == 0) (.fmax (fD w) (fA w) (fB w))
/-- FSET (R156). -/
def decFset (w : Word) : Option Instr :=
  (narrow3 (fD w)).bind fun p => (FCond.ofCode (fFn w)).map fun c => .fset c p (fA w) (fB w)
/-- FSFU (R157): b is zero. -/
def decFsfu (w : Word) : Option Instr :=
  let two (op : BitVec 7 → BitVec 7 → Instr) : Option Instr := onlyIf (fB w == 0) (op (fD w) (fA w))
  if fFn w = 0#4 then two .rcp
  else if fFn w = 1#4 then two .rsq
  else if fFn w = 2#4 then two .sqrt
  else if fFn w = 3#4 then two .exp2
  else if fFn w = 4#4 then two .log2
  else if fFn w = 5#4 then two .sinpi
  else if fFn w = 6#4 then two .cospi
  else if fFn w = 8#4 then two .rndn
  else if fFn w = 9#4 then two .rndz
  else if fFn w = 10#4 then two .rndd
  else if fFn w = 11#4 then two .rndu
  else none
/-- FCVT (R159). -/
def decFcvt (w : Word) : Option Instr :=
  let rnd (op : BitVec 7 → BitVec 7 → RMode → Instr) : Option Instr :=
    (narrow2 (fB w)).bind fun r => (RMode.ofCode r).map fun rm => op (fD w) (fA w) rm
  let exact (op : BitVec 7 → BitVec 7 → Instr) : Option Instr := onlyIf (fB w == 0) (op (fD w) (fA w))
  if fFn w = 0#4 then rnd .fcvtF32I32
  else if fFn w = 1#4 then rnd .fcvtF32Ui32
  else if fFn w = 2#4 then rnd .fcvtI32F32
  else if fFn w = 3#4 then rnd .fcvtUi32F32
  else if fFn w = 4#4 then rnd .fcvtF32I64
  else if fFn w = 5#4 then rnd .fcvtI64F32
  else if fFn w = 6#4 then rnd .fcvtF16F32
  else if fFn w = 7#4 then rnd .fcvtBf16F32
  else if fFn w = 8#4 then rnd .fcvtF16hF32
  else if fFn w = 9#4 then rnd .fcvtBf16hF32
  else if fFn w = 10#4 then exact .fcvtF32F16
  else if fFn w = 11#4 then exact .fcvtF32Bf16
  else if fFn w = 12#4 then exact .fcvtF32F16h
  else if fFn w = 13#4 then exact .fcvtF32Bf16h
  else if fFn w = 14#4 then rnd .fcvtF32Ui64
  else rnd .fcvtUi64F32
/-- PK8 and PK6 (R161, R163): b holds the rounding mode and the format. -/
def decPk8 (w : Word) : Option Instr :=
  (narrow3 (fB w)).bind fun x => (RMode.ofCode (x.extractLsb' 1 2)).bind fun rm =>
    (F8.ofCode (x.extractLsb' 0 1)).bind fun f => onlyIf (fFn w == 0) (.pk8 (fD w) (fA w) rm f)
def decPk6 (w : Word) : Option Instr :=
  (narrow3 (fB w)).bind fun x => (RMode.ofCode (x.extractLsb' 1 2)).bind fun rm =>
    (F6.ofCode (x.extractLsb' 0 1)).bind fun f => onlyIf (fFn w == 0) (.pk6 (fD w) (fA w) rm f)
/-- UPK8 and UPK6 (R162, R164). -/
def decUpk8 (w : Word) : Option Instr :=
  (narrow1 (fB w)).bind fun x => (F8.ofCode x).bind fun f => onlyIf (fFn w == 0) (.upk8 (fD w) (fA w) f)
def decUpk6 (w : Word) : Option Instr :=
  (narrow1 (fB w)).bind fun x => (F6.ofCode x).bind fun f => onlyIf (fFn w == 0) (.upk6 (fD w) (fA w) f)
/-- HOP2 (R165). -/
def decHop2 : Word → Option Instr :=
  decRegs [.hadd2Bf16, .hmul2Bf16, .hfma2Bf16, .hadd2F16, .hmul2F16, .hfma2F16, .hmin2, .hmax2]
/-- XSC (R166). -/
def decXsc (w : Word) : Option Instr :=
  if fFn w = 0#4 then (narrow3 (fB w)).bind fun x => (ScaleT.ofCode x).map fun t => .scx (fD w) (fA w) t
  else if fFn w = 1#4 then some (.sca (fD w) (fA w) (fB w))
  else if fFn w = 2#4 then (narrow3 (fB w)).bind fun x => (ScaleT.ofCode x).map fun t => .scm (fD w) (fA w) t
  else none
/-- LDM and STM (R247). -/
def decM (op : BitVec 7 → BitVec 7 → Sem → Scope → Width → BitVec 3 → Instr) (w : Word) : Option Instr :=
  (Sem.ofCode (fSem w)).bind fun sem => (Scope.ofCode (fSc w)).bind fun sc => (Width.ofCode (fW w)).map fun wd =>
    op (fD w) (fA w) sem sc wd (fHint w)
/-- PREF (R249): d[1:0] is the target. -/
def decPref (w : Word) : Option Instr :=
  if fD w = 0#7 then some (.prefLlc (fA w) (fImm11 w))
  else if fD w = 1#7 then some (.prefStash (fA w) (fImm11 w))
  else none
/-- PGREQ (R272). -/
def decPgreq : Word → Option Instr := decRegs [.pgreq, .pgreqNp]
/-- ATOM and RED (R250). -/
def decAtom (op : BitVec 7 → BitVec 7 → BitVec 7 → AOp → Instr) (w : Word) : Option Instr :=
  (AOp.ofCode (fFn w)).map fun o => op (fD w) (fA w) (fB w) o
def decRed (op : BitVec 7 → BitVec 7 → AOp → Instr) (w : Word) : Option Instr :=
  (AOp.ofCode (fFn w)).bind fun o => onlyIf (fD w == 0) (op (fA w) (fB w) o)
/-- STFL (R253). -/
def decStfl (w : Word) : Option Instr :=
  (Scope.ofCode ((fFn w).extractLsb' 0 3)).map fun sc => .stfl (fD w) (fA w) (fB w) (flag ((fFn w).extractLsb' 3 1)) sc
/-- REDN (R396). -/
def decRedn (w : Word) : Option Instr := (RedOp.ofCode (fFn w)).map fun o => .redn (fD w) (fA w) (fB w) o
/-- SCTL (R254, R258). -/
def decSctl (w : Word) : Option Instr :=
  if fFn w = 0#4 then some (.smap (fD w) (fA w) (fB w))
  else if fFn w = 1#4 then onlyIf (fB w == 0) (.sunmap (fD w) (fA w))
  else if fFn w = 2#4 then onlyIf (fD w == 0) (.sflush (fA w) (fB w))
  else if fFn w = 3#4 then onlyIf (fD w == 0) (.sinv (fA w) (fB w))
  else none
/-- PUB, MWATCH and MWAIT (R349, R299, R300). -/
def decPub (w : Word) : Option Instr := onlyIf (fFn w == 0) (.pub (fD w) (fA w) (fB w))
def decMwatch (w : Word) : Option Instr := onlyIf (fB w == 0 && fFn w == 0) (.mwatch (fD w) (fA w))
def decMwait (w : Word) : Option Instr := onlyIf (fA w == 0 && fFn w == 0) (.mwait (fD w) (fB w))
/-- FENCE (R65, R222). -/
def decFence (w : Word) : Option Instr :=
  let m := fImm18 w
  (Scope.ofCode (m.extractLsb' 0 3)).bind fun sc => onlyIf (fD w == 0 && m.extractLsb' 8 10 == 0)
    (.fence (flag (m.extractLsb' 7 1)) (flag (m.extractLsb' 6 1)) (flag (m.extractLsb' 5 1)) (flag (m.extractLsb' 4 1))
      (flag (m.extractLsb' 3 1)) sc)
/-- BAR (R284). -/
def decBar (w : Word) : Option Instr :=
  (narrow4 (fD w)).bind fun n =>
    if fFn w = 0#4 then onlyIf (fA w == 0 && fB w == 0) (.barSync n)
    else if fFn w = 1#4 then onlyIf (fB w == 0) (.barArrive n (fA w))
    else if fFn w = 2#4 then onlyIf (fB w == 0) (.barWait n (fA w))
    else none
/-- TBAR (R288). -/
def decTbar (w : Word) : Option Instr :=
  if fFn w = 0#4 then onlyIf (fD w == 0) (.tbinit (fA w) (fB w))
  else if fFn w = 1#4 then onlyIf (fD w == 0) (.tbexp (fA w) (fB w))
  else if fFn w = 2#4 then onlyIf (fB w == 0) (.tbarr (fD w) (fA w))
  else if fFn w = 3#4 then some (.tbwait (fD w) (fA w) (fB w))
  else if fFn w = 4#4 then some (.tbtest (fD w) (fA w) (fB w))
  else if fFn w = 5#4 then onlyIf (fB w == 0) (.tberr (fD w) (fA w))
  else none
/-- WAITC (R292). -/
def decWaitc (w : Word) : Option Instr := onlyIf (fZero5 w == 0) (.waitc (fLd w) (fSt w) (fCp w) (fTl w))
/-- WAITB (R294). -/
def decWaitb (w : Word) : Option Instr :=
  (narrow3 (fD w)).bind fun n => onlyIf (fA w == 0) (.waitb n (fImm11 w))
/-- CCOP (R294). -/
def decCcop (w : Word) : Option Instr :=
  (narrow3 (fB w)).bind fun n =>
    if fFn w = 0#4 then onlyIf (fD w == 0) (.ccset n (fA w))
    else if fFn w = 1#4 then onlyIf (fD w == 0) (.ccadd n (fA w))
    else if fFn w = 2#4 then onlyIf (fA w == 0) (.ccrd (fD w) n)
    else none
/-- MXACQ and MXREL (R320). -/
def decMx (op : BitVec 7 → Instr) (w : Word) : Option Instr := onlyIf (fA w == 0 && fB w == 0 && fFn w == 0) (op (fD w))
/-- TMMA and TMMAI (R67): fl0 all rows, fl1 zero first, fl2 release the A buffer. -/
def decTmma (w : Word) : Option Instr :=
  (TFmt.ofCode (fFmt w)).map fun f => .tmma (fAcc w) (fAbuf w) (fBslot w) f (flag ((fFl w).extractLsb' 2 1))
    (flag ((fFl w).extractLsb' 1 1)) (flag ((fFl w).extractLsb' 0 1))
def decTmmai (w : Word) : Option Instr :=
  (TIFmt.ofCode (fFmt w)).map fun f => .tmmai (fAcc w) (fAbuf w) (fBslot w) f (flag ((fFl w).extractLsb' 2 1))
    (flag ((fFl w).extractLsb' 1 1)) (flag ((fFl w).extractLsb' 0 1))
/-- TZERO and TCVT (R67): every field the table does not name is zero. -/
def decTzero (w : Word) : Option Instr :=
  onlyIf (fAbuf w == 0 && fBslot w == 0 && fFmt w == 0 && (fFl w).extractLsb' 1 2 == 0)
    (.tzero (fAcc w) (flag ((fFl w).extractLsb' 0 1)))
def decTcvt (w : Word) : Option Instr :=
  (TFmt.ofCode (fFmt w)).bind fun f => onlyIf ((fBslot w).extractLsb' 0 7 == 0 && (fFl w).extractLsb' 1 2 == 0)
    (.tcvt (fAcc w) (fAbuf w) ((fBslot w).extractLsb' 7 2) f (flag ((fFl w).extractLsb' 0 1)))
/-- TACC (R318). -/
def decTacc (w : Word) : Option Instr :=
  (narrow6 (fA w)).bind fun acc =>
    if fFn w = 0#4 then some (.trd (fD w) acc (fB w))
    else if fFn w = 1#4 then some (.twr (fD w) acc (fB w))
    else if fFn w = 2#4 then onlyIf (fB w == 0) (.trowsum (fD w) acc)
    else if fFn w = 3#4 then onlyIf (fB w == 0) (.trowssq (fD w) acc)
    else if fFn w = 4#4 then onlyIf (fB w == 0) (.trowmax (fD w) acc)
    else if fFn w = 5#4 then onlyIf (fD w == 0) (.trowmul acc (fB w))
    else if fFn w = 6#4 then onlyIf (fD w == 0) (.trowadd acc (fB w))
    else none
/-- TSCALE, TLDA, TSTATE, TREL and CBLD (R318). -/
def decTscale (w : Word) : Option Instr :=
  (narrow6 (fD w)).bind fun x => (narrow6 (fA w)).bind fun y => onlyIf (fFn w == 0) (.tscale x y (fB w))
def decTlda (w : Word) : Option Instr := onlyIf (fD w == 0 && fFn w == 0) (.tlda (fA w) (fB w))
def decTstate (w : Word) : Option Instr := onlyIf (fB w == 0 && fFn w == 0) (.tstate (fD w) (fA w))
def decTrel (w : Word) : Option Instr := onlyIf (fD w == 0 && fB w == 0 && fFn w == 0) (.trel (fA w))
def decCbld (w : Word) : Option Instr :=
  (narrow3 (fD w)).bind fun n => onlyIf (fB w == 0 && fFn w == 0) (.cbld n (fA w))
/-- RLD and RST (R371). -/
def decRef (op : BitVec 7 → BitVec 4 → BitVec 11 → Instr) (w : Word) : Option Instr :=
  (narrow4 (fA w)).map fun r => op (fD w) r (fImm11 w)
/-- RLDR and RSTR (R372). -/
def decRefr (op : BitVec 4 → BitVec 4 → BitVec 7 → Instr) (w : Word) : Option Instr :=
  (narrow4 (fD w)).bind fun d => (narrow4 (fA w)).bind fun r => onlyIf (fFn w == 0) (op d r (fB w))
/-- REFOP (R373). -/
def decRefop (w : Word) : Option Instr :=
  if fFn w = 0#4 then (narrow4 (fA w)).bind fun r => onlyIf (fB w == 0) (.pin (fD w) r)
  else if fFn w = 1#4 then (narrow4 (fA w)).bind fun r => onlyIf (fB w == 0) (.unpin (fD w) r)
  else if fFn w = 2#4 then
    (narrow3 (fD w)).bind fun p => (narrow4 (fA w)).bind fun r => (narrow4 (fB w)).map fun q => .refeq p r q
  else if fFn w = 3#4 then (narrow4 (fA w)).bind fun r => onlyIf (fB w == 0) (.rget (fD w) r)
  else if fFn w = 4#4 then (narrow4 (fD w)).bind fun r => onlyIf (fB w == 0) (.rput r (fA w))
  else if fFn w = 5#4 then (narrow4 (fA w)).bind fun r => onlyIf (fB w == 0) (.rchk (fD w) r)
  else if fFn w = 6#4 then (narrow4 (fD w)).bind fun r => onlyIf (fA w == 0 && fB w == 0) (.rnull r)
  else none

/-! The opcode map (R64): one function per row of the grid. -/

def decRow0 (c : BitVec 4) (w : Word) : Option Instr :=
  if c = 1#4 then decBare .nop w
  else if c = 2#4 then decBra w
  else if c = 3#4 then decBrc w
  else if c = 4#4 then decCall w
  else if c = 5#4 then decCallr w
  else if c = 6#4 then decBare .ret w
  else if c = 7#4 then decJmpr w
  else if c = 8#4 then decBare .exit w
  else if c = 9#4 then decBare .reform w
  else if c = 10#4 then decWinbase w
  else if c = 11#4 then decTrap w
  else if c = 12#4 then decBare .rft w
  else if c = 13#4 then decSys w
  else if c = 14#4 then decLaunch w
  else if c = 15#4 then decGwait w
  else none
def decRow1 (c : BitVec 4) (w : Word) : Option Instr :=
  if c = 0#4 then decElect w
  else if c = 1#4 then decMatch w
  else if c = 2#4 then decShfl w
  else if c = 3#4 then decPlog w
  else if c = 4#4 then decIalu w
  else if c = 5#4 then decIalu2 w
  else if c = 6#4 then decSel w
  else if c = 7#4 then decIset w
  else if c = 8#4 then decIseti w
  else if c = 9#4 then decImm .addi w
  else if c = 10#4 then decImm .andi w
  else if c = 11#4 then decImm .ori w
  else if c = 12#4 then decImm .xori w
  else if c = 13#4 then decShi w
  else if c = 14#4 then decImm .muli w
  else decMovi w
def decRow2 (c : BitVec 4) (w : Word) : Option Instr :=
  if c = 0#4 then decIalu64 w
  else if c = 1#4 then decImm .addiX w
  else if c = 8#4 then decFarith .fadd w
  else if c = 9#4 then decFarith .fsub w
  else if c = 10#4 then decFarith .fmul w
  else if c = 11#4 then decFarith .ffma w
  else if c = 12#4 then decFmin w
  else if c = 13#4 then decFmax w
  else if c = 14#4 then decFset w
  else if c = 15#4 then decFsfu w
  else none
def decRow3 (c : BitVec 4) (w : Word) : Option Instr :=
  if c = 0#4 then decFcvt w
  else if c = 1#4 then decPk8 w
  else if c = 2#4 then decUpk8 w
  else if c = 3#4 then decPk6 w
  else if c = 4#4 then decUpk6 w
  else if c = 5#4 then decHop2 w
  else if c = 6#4 then decXsc w
  else if c = 8#4 then decImm .ldB w
  else if c = 9#4 then decImm .ldBs w
  else if c = 10#4 then decImm .ldH w
  else if c = 11#4 then decImm .ldHs w
  else if c = 12#4 then decImm .ldW w
  else if c = 13#4 then decImm .ldX w
  else if c = 14#4 then decImm .ldQ w
  else if c = 15#4 then decImm .stB w
  else none
def decRow4 (c : BitVec 4) (w : Word) : Option Instr :=
  if c = 0#4 then decImm .stH w
  else if c = 1#4 then decImm .stW w
  else if c = 2#4 then decImm .stX w
  else if c = 3#4 then decImm .stQ w
  else if c = 4#4 then decM .ldm w
  else if c = 5#4 then decM .stm w
  else if c = 6#4 then decPref w
  else if c = 7#4 then decPgreq w
  else if c = 8#4 then decAtom .atomT w
  else if c = 9#4 then decAtom .atomC w
  else if c = 10#4 then decAtom .atomD w
  else if c = 11#4 then decAtom .atomP w
  else if c = 12#4 then decAtom .atomS w
  else if c = 13#4 then decRed .redD w
  else if c = 14#4 then decRed .redP w
  else decRed .redS w
def decRow5 (c : BitVec 4) (w : Word) : Option Instr :=
  if c = 0#4 then decStfl w
  else if c = 1#4 then decRedn w
  else if c = 2#4 then decSctl w
  else if c = 3#4 then decPub w
  else if c = 4#4 then decMwatch w
  else if c = 5#4 then decMwait w
  else if c = 6#4 then decFence w
  else if c = 8#4 then decBar w
  else if c = 9#4 then decTbar w
  else if c = 10#4 then decWaitc w
  else if c = 11#4 then decWaitb w
  else if c = 12#4 then decCcop w
  else none
def decRow6 (c : BitVec 4) (w : Word) : Option Instr :=
  if c = 0#4 then decMx .mxacq w
  else if c = 1#4 then decMx .mxrel w
  else if c = 2#4 then decTmma w
  else if c = 3#4 then decTmmai w
  else if c = 4#4 then decTzero w
  else if c = 5#4 then decTacc w
  else if c = 6#4 then decTcvt w
  else if c = 7#4 then decTscale w
  else if c = 8#4 then decTlda w
  else if c = 9#4 then decTstate w
  else if c = 10#4 then decTrel w
  else if c = 11#4 then decCbld w
  else none
def decRow7 (c : BitVec 4) (w : Word) : Option Instr :=
  if c = 0#4 then decRef .rldW w
  else if c = 1#4 then decRef .rldX w
  else if c = 2#4 then decRef .rstW w
  else if c = 3#4 then decRef .rstX w
  else if c = 4#4 then decRefr .rldr w
  else if c = 5#4 then decRefr .rstr w
  else if c = 6#4 then decRefop w
  else if c = 15#4 then some (.lit (fPayload w))
  else none

/-- The columns of R64 that hold no instruction, by row. -/
def reservedColumns (row : BitVec 3) : List (BitVec 4) :=
  if row = 0#3 then [0]
  else if row = 2#3 then [2, 3, 4, 5, 6, 7]
  else if row = 3#3 then [7]
  else if row = 5#3 then [7, 13, 14, 15]
  else if row = 6#3 then [12, 13, 14, 15]
  else if row = 7#3 then [7, 8, 9, 10, 11, 12, 13, 14]
  else []

/-- The major is reserved, or is the illegal major 0 (R64, R68 row 1). -/
def reservedMajor (w : Word) : Bool :=
  (reservedColumns ((fOp w).extractLsb' 4 3)).contains ((fOp w).extractLsb' 0 4)

/-- The fields of a word under its major, none where a field value is reserved or a must-be-zero field is not zero. -/
def decodeFields (w : Word) : Option Instr :=
  let row := (fOp w).extractLsb' 4 3
  let c := (fOp w).extractLsb' 0 4
  if row = 0#3 then decRow0 c w
  else if row = 1#3 then decRow1 c w
  else if row = 2#3 then decRow2 c w
  else if row = 3#3 then decRow3 c w
  else if row = 4#3 then decRow4 c w
  else if row = 5#3 then decRow5 c w
  else if row = 6#3 then decRow6 c w
  else decRow7 c w

/-- The instruction of a word, or why it is none (R68, rows 1 and 3). -/
def decodeWord (w : Word) : Except WordCause Instr :=
  if reservedMajor w then .error .opcode
  else match decodeFields w with
    | some i => if i.wf then .ok i else .error .field
    | none => .error .field

/-- The major is marked LIT in R64: a LIT may stand before it (R60). A second LIT is a LIT's own case. -/
def litAllowed (w : Word) : Bool :=
  let op := (fOp w).toNat
  op == 0x02 || op == 0x03 || op == 0x04 || (0x18 ≤ op && op ≤ 0x1C) || op == 0x1E || op == 0x1F || op == 0x21 ||
    (0x38 ≤ op && op ≤ 0x43) || op == 0x46 || (0x70 ≤ op && op ≤ 0x73)

/-- A word that follows nlits LIT words of its group, with the causes in the order of R68. -/
def decodeAfter (nlits : Nat) (w : Word) : Except WordCause Instr :=
  if reservedMajor w then .error .opcode
  else if nlits = 0 then decodeWord w
  else if fOp w = 0x7F#7 then (if nlits = 1 then decodeWord w else .error .lit)
  else if litAllowed w then decodeWord w
  else .error .lit

/-- The instruction of a filter word (R409); none where LOAD refuses the word by itself (R411). -/
def decodeFilter (w : Word) : Option Instr :=
  let op := (yOp w).toNat
  let regs (f : BitVec 4 → BitVec 4 → BitVec 4 → Instr) : Option Instr :=
    onlyIf (yImm w == 0) (f (yD w) (yA w) (yB w))
  let r := match op with
    | 0 => regs .yadd
    | 1 => regs .ysub
    | 2 => regs .yand
    | 3 => regs .yor
    | 4 => regs .yxor
    | 5 => regs .yshl
    | 6 => regs .yshr
    | 7 => regs .yminu
    | 8 => regs .ymaxu
    | 9 => onlyIf (yB w == 0) (.yaddi (yD w) (yA w) (yImm w))
    | 10 => onlyIf (yB w == 0) (.yandi (yD w) (yA w) (yImm w))
    | 11 => (ShKind.ofCode ((yImm w).extractLsb' 13 2)).bind fun k =>
        onlyIf (yB w == 0 && (yImm w).extractLsb' 5 8 == 0) (.yshi (yD w) (yA w) k ((yImm w).extractLsb' 0 5))
    | 12 => onlyIf (yA w == 0 && yB w == 0) (.ymovi (yD w) (yImm w))
    | 13 => onlyIf (yA w == 0 && yB w == 0) (.yins (yD w) (yImm w))
    | 14 => onlyIf (yB w == 0 && yImm w == 0) (.yclz (yD w) (yA w))
    | 15 => onlyIf (yB w == 0 && (yImm w).extractLsb' 2 13 == 0) (.yhash (yD w) (yA w) ((yImm w).extractLsb' 0 2))
    | 16 => (YCond.ofCode (yD w)).map fun c => .ybr c (yA w) (yB w) (yImm w)
    | 17 => onlyIf (yD w == 0 && (yImm w).extractLsb' 2 13 == 0) (.yhist ((yImm w).extractLsb' 0 2) (yA w) (yB w))
    | 18 => onlyIf (yD w == 0 && (yImm w).extractLsb' 1 14 == 0) (.ycms ((yImm w).extractLsb' 0 1) (yA w) (yB w))
    | 19 => onlyIf (yB w == 0 && (yImm w).extractLsb' 1 14 == 0) (.ycmq (yD w) ((yImm w).extractLsb' 0 1) (yA w))
    | 20 => onlyIf (yB w == 0 && (yImm w).extractLsb' 2 13 == 0) (.yldb (yD w) ((yImm w).extractLsb' 0 2) (yA w))
    | 21 =>
      let bare := yD w == 0 && yB w == 0 && (yImm w).extractLsb' 2 13 == 0
      let kind := (yImm w).extractLsb' 0 2
      if kind = 0#2 then onlyIf (bare && yA w == 0) .ytrigRecord
      else if kind = 1#2 then onlyIf (bare && yA w == 0) .ytrigInterrupt
      else if kind = 2#2 then onlyIf (bare && yA w == 0) .ytrigFreeze
      else onlyIf bare (.ytrigArm (yA w))
    | 22 => onlyIf (yA w == 0 && yB w == 0) (.yrds (yD w) (yImm w))
    | 23 => onlyIf (yD w == 0 && yA w == 0 && yB w == 0 && yImm w == 0) .yend
    | _ => none
  r.bind fun i => onlyIf i.wf i

/-- The instruction that a table row's word decodes to: a core instruction, or a filter instruction where the word is no
core instruction (assumption log 9). Every encoded row of the table is one 32-bit word. -/
def decodeTableWord (nbits w : Nat) : Option Instr :=
  if nbits = 32 then
    match decodeWord (BitVec.ofNat 32 w) with
    | .ok i => some i
    | .error _ => decodeFilter (BitVec.ofNat 32 w)
  else none

/-! The encoder. -/

/-- One bit. -/
def bit (b : Bool) : BitVec 1 := if b then 1 else 0
def wide1 (x : BitVec 1) : BitVec 7 := 0#6 ++ x
def wide2 (x : BitVec 2) : BitVec 7 := 0#5 ++ x
def wide3 (x : BitVec 3) : BitVec 7 := 0#4 ++ x
def wide4 (x : BitVec 4) : BitVec 7 := 0#3 ++ x
def wide5 (x : BitVec 5) : BitVec 7 := 0#2 ++ x
def wide6 (x : BitVec 6) : BitVec 7 := 0#1 ++ x
/-- The immediate of SHI: kind, four zero bits, amount (R65). -/
def shImm (k : BitVec 2) (n : BitVec 5) : BitVec 11 := k ++ 0#4 ++ n
/-- The formats of R55. -/
def fmtA (op d a b : BitVec 7) (fn : BitVec 4) : Word := op ++ d ++ a ++ b ++ fn
def fmtB (op d a : BitVec 7) (imm : BitVec 11) : Word := op ++ d ++ a ++ imm
def fmtC (op d : BitVec 7) (imm : BitVec 18) : Word := op ++ d ++ imm
def fmtJ (op : BitVec 7) (c : BitVec 4) (off : BitVec 21) : Word := op ++ c ++ off
def fmtM (op d a : BitVec 7) (sem : BitVec 2) (sc w hint : BitVec 3) : Word := op ++ d ++ a ++ sem ++ sc ++ w ++ hint
def fmtT (op : BitVec 7) (acc : BitVec 6) (abuf : BitVec 3) (bslot : BitVec 9) (fmt : BitVec 4) (fl : BitVec 3) : Word :=
  op ++ acc ++ abuf ++ bslot ++ fmt ++ fl
def fmtW (op : BitVec 7) (ld st cp tl : BitVec 5) : Word := op ++ ld ++ st ++ cp ++ tl ++ 0#5
/-- The filter word (R409). -/
def fmtY (op : BitVec 5) (d a b : BitVec 4) (imm : BitVec 15) : Word := op ++ d ++ a ++ b ++ imm

/-- The word of an instruction; none for an event of the part, which has no word. -/
def encode : Instr → Option Word
  | .nop => some (fmtC 0x01#7 0 0)
  | .bra off => some (fmtJ 0x02#7 0 off)
  | .brc neg p off => some (fmtJ 0x03#7 (bit neg ++ p) off)
  | .call slide off => some (fmtC 0x04#7 slide off)
  | .callr a slide => some (fmtA 0x05#7 0 a slide 0)
  | .ret => some (fmtC 0x06#7 0 0)
  | .jmpr a => some (fmtA 0x07#7 0 a 0 0)
  | .exit => some (fmtC 0x08#7 0 0)
  | .reform => some (fmtC 0x09#7 0 0)
  | .winbase n => some (fmtC 0x0A#7 0 n)
  | .trap code => some (fmtC 0x0B#7 0 code)
  | .rft => some (fmtC 0x0C#7 0 0)
  | .srd d sr => some (fmtA 0x0D#7 d sr 0 0)
  | .swr sr a => some (fmtA 0x0D#7 sr a 0 1)
  | .rdcnt d n => some (fmtA 0x0D#7 d n 0 2)
  | .tmark code a => some (fmtA 0x0D#7 code a 0 3)
  | .yield => some (fmtA 0x0D#7 0 0 0 4)
  | .sleep a => some (fmtA 0x0D#7 0 a 0 5)
  | .brk => some (fmtA 0x0D#7 0 0 0 6)
  | .launch d a b => some (fmtA 0x0E#7 d a b 0)
  | .gwait d a => some (fmtA 0x0F#7 d a 0 0)
  | .elect d p => some (fmtA 0x10#7 d (wide3 p) 0 0)
  | .electS d p q => some (fmtA 0x10#7 d (wide3 p) (wide3 q) 1)
  | .wakel d a => some (fmtA 0x10#7 d a 0 2)
  | .matchW d a => some (fmtA 0x11#7 d a 0 0)
  | .matchX d a => some (fmtA 0x11#7 d a 1 0)
  | .voteAny d a => some (fmtA 0x11#7 (wide3 d) (wide3 a) 0 1)
  | .voteAll d a => some (fmtA 0x11#7 (wide3 d) (wide3 a) 0 2)
  | .voteBal d p => some (fmtA 0x11#7 d (wide3 p) 0 3)
  | .actmask d => some (fmtA 0x11#7 d 0 0 4)
  | .shflIdx d a b => some (fmtA 0x12#7 d a b 0)
  | .shflUp d a b => some (fmtA 0x12#7 d a b 1)
  | .shflDown d a b => some (fmtA 0x12#7 d a b 2)
  | .shflXor d a b => some (fmtA 0x12#7 d a b 3)
  | .pand d a b => some (fmtA 0x13#7 (wide3 d) (wide3 a) (wide3 b) 0)
  | .por d a b => some (fmtA 0x13#7 (wide3 d) (wide3 a) (wide3 b) 1)
  | .pxor d a b => some (fmtA 0x13#7 (wide3 d) (wide3 a) (wide3 b) 2)
  | .pandn d a b => some (fmtA 0x13#7 (wide3 d) (wide3 a) (wide3 b) 3)
  | .pnot d a => some (fmtA 0x13#7 (wide3 d) (wide3 a) 0 4)
  | .pmov d a => some (fmtA 0x13#7 (wide3 d) (wide3 a) 0 5)
  | .pget d => some (fmtA 0x13#7 d 0 0 6)
  | .psetm a b => some (fmtA 0x13#7 0 a b 7)
  | .add d a b => some (fmtA 0x14#7 d a b 0)
  | .sub d a b => some (fmtA 0x14#7 d a b 1)
  | .and d a b => some (fmtA 0x14#7 d a b 2)
  | .or d a b => some (fmtA 0x14#7 d a b 3)
  | .xor d a b => some (fmtA 0x14#7 d a b 4)
  | .andn d a b => some (fmtA 0x14#7 d a b 5)
  | .shl d a b => some (fmtA 0x14#7 d a b 6)
  | .shr d a b => some (fmtA 0x14#7 d a b 7)
  | .sar d a b => some (fmtA 0x14#7 d a b 8)
  | .minS d a b => some (fmtA 0x14#7 d a b 9)
  | .minU d a b => some (fmtA 0x14#7 d a b 10)
  | .maxS d a b => some (fmtA 0x14#7 d a b 11)
  | .maxU d a b => some (fmtA 0x14#7 d a b 12)
  | .mul d a b => some (fmtA 0x14#7 d a b 13)
  | .mulhiS d a b => some (fmtA 0x14#7 d a b 14)
  | .mulhiU d a b => some (fmtA 0x14#7 d a b 15)
  | .mad d a b => some (fmtA 0x15#7 d a b 0)
  | .mulwS d a b => some (fmtA 0x15#7 d a b 1)
  | .mulwU d a b => some (fmtA 0x15#7 d a b 2)
  | .abs d a => some (fmtA 0x15#7 d a 0 3)
  | .clz d a => some (fmtA 0x15#7 d a 0 4)
  | .popc d a => some (fmtA 0x15#7 d a 0 5)
  | .brev d a => some (fmtA 0x15#7 d a 0 6)
  | .bfeS d a b => some (fmtA 0x15#7 d a b 7)
  | .bfeU d a b => some (fmtA 0x15#7 d a b 8)
  | .bfi d a b => some (fmtA 0x15#7 d a b 9)
  | .mov d a => some (fmtA 0x15#7 d a 0 10)
  | .extS d a n => some (fmtA 0x15#7 d a (wide5 n) 11)
  | .extU d a n => some (fmtA 0x15#7 d a (wide5 n) 12)
  | .sel d a b inv p => some (fmtA 0x16#7 d a b (bit inv ++ p))
  | .iset c p a b => some (fmtA 0x17#7 (c.code ++ p) a b 0)
  | .isetX c p a b => some (fmtA 0x17#7 (c.code ++ p) a b 1)
  | .iseti c p a imm => some (fmtB 0x18#7 (c.code ++ p) a imm)
  | .addi d a imm => some (fmtB 0x19#7 d a imm)
  | .andi d a imm => some (fmtB 0x1A#7 d a imm)
  | .ori d a imm => some (fmtB 0x1B#7 d a imm)
  | .xori d a imm => some (fmtB 0x1C#7 d a imm)
  | .shli d a n => some (fmtB 0x1D#7 d a (shImm 0 n))
  | .shri d a n => some (fmtB 0x1D#7 d a (shImm 1 n))
  | .sari d a n => some (fmtB 0x1D#7 d a (shImm 2 n))
  | .roli d a n => some (fmtB 0x1D#7 d a (shImm 3 n))
  | .muli d a imm => some (fmtB 0x1E#7 d a imm)
  | .movi d imm => some (fmtC 0x1F#7 d imm)
  | .addX d a b => some (fmtA 0x20#7 d a b 0)
  | .subX d a b => some (fmtA 0x20#7 d a b 1)
  | .shlX d a b => some (fmtA 0x20#7 d a b 2)
  | .shrX d a b => some (fmtA 0x20#7 d a b 3)
  | .sarX d a b => some (fmtA 0x20#7 d a b 4)
  | .movX d a => some (fmtA 0x20#7 d a 0 5)
  | .lea d a b k => some (fmtA 0x20#7 d a b (1#1 ++ k))
  | .addiX d a imm => some (fmtB 0x21#7 d a imm)
  | .fadd d a b abs neg rm => some (fmtA 0x28#7 d a b (bit abs ++ bit neg ++ rm.code))
  | .fsub d a b abs neg rm => some (fmtA 0x29#7 d a b (bit abs ++ bit neg ++ rm.code))
  | .fmul d a b abs neg rm => some (fmtA 0x2A#7 d a b (bit abs ++ bit neg ++ rm.code))
  | .ffma d a b abs neg rm => some (fmtA 0x2B#7 d a b (bit abs ++ bit neg ++ rm.code))
  | .fmin d a b => some (fmtA 0x2C#7 d a b 0)
  | .fmax d a b => some (fmtA 0x2D#7 d a b 0)
  | .fset c p a b => some (fmtA 0x2E#7 (wide3 p) a b c.code)
  | .rcp d a => some (fmtA 0x2F#7 d a 0 0)
  | .rsq d a => some (fmtA 0x2F#7 d a 0 1)
  | .sqrt d a => some (fmtA 0x2F#7 d a 0 2)
  | .exp2 d a => some (fmtA 0x2F#7 d a 0 3)
  | .log2 d a => some (fmtA 0x2F#7 d a 0 4)
  | .sinpi d a => some (fmtA 0x2F#7 d a 0 5)
  | .cospi d a => some (fmtA 0x2F#7 d a 0 6)
  | .rndn d a => some (fmtA 0x2F#7 d a 0 8)
  | .rndz d a => some (fmtA 0x2F#7 d a 0 9)
  | .rndd d a => some (fmtA 0x2F#7 d a 0 10)
  | .rndu d a => some (fmtA 0x2F#7 d a 0 11)
  | .fcvtF32I32 d a rm => some (fmtA 0x30#7 d a (wide2 rm.code) 0)
  | .fcvtF32Ui32 d a rm => some (fmtA 0x30#7 d a (wide2 rm.code) 1)
  | .fcvtI32F32 d a rm => some (fmtA 0x30#7 d a (wide2 rm.code) 2)
  | .fcvtUi32F32 d a rm => some (fmtA 0x30#7 d a (wide2 rm.code) 3)
  | .fcvtF32I64 d a rm => some (fmtA 0x30#7 d a (wide2 rm.code) 4)
  | .fcvtI64F32 d a rm => some (fmtA 0x30#7 d a (wide2 rm.code) 5)
  | .fcvtF16F32 d a rm => some (fmtA 0x30#7 d a (wide2 rm.code) 6)
  | .fcvtBf16F32 d a rm => some (fmtA 0x30#7 d a (wide2 rm.code) 7)
  | .fcvtF16hF32 d a rm => some (fmtA 0x30#7 d a (wide2 rm.code) 8)
  | .fcvtBf16hF32 d a rm => some (fmtA 0x30#7 d a (wide2 rm.code) 9)
  | .fcvtF32F16 d a => some (fmtA 0x30#7 d a 0 10)
  | .fcvtF32Bf16 d a => some (fmtA 0x30#7 d a 0 11)
  | .fcvtF32F16h d a => some (fmtA 0x30#7 d a 0 12)
  | .fcvtF32Bf16h d a => some (fmtA 0x30#7 d a 0 13)
  | .fcvtF32Ui64 d a rm => some (fmtA 0x30#7 d a (wide2 rm.code) 14)
  | .fcvtUi64F32 d a rm => some (fmtA 0x30#7 d a (wide2 rm.code) 15)
  | .pk8 d a rm f => some (fmtA 0x31#7 d a (wide3 (rm.code ++ f.code)) 0)
  | .upk8 d a f => some (fmtA 0x32#7 d a (wide1 f.code) 0)
  | .pk6 d a rm f => some (fmtA 0x33#7 d a (wide3 (rm.code ++ f.code)) 0)
  | .upk6 d a f => some (fmtA 0x34#7 d a (wide1 f.code) 0)
  | .hadd2Bf16 d a b => some (fmtA 0x35#7 d a b 0)
  | .hmul2Bf16 d a b => some (fmtA 0x35#7 d a b 1)
  | .hfma2Bf16 d a b => some (fmtA 0x35#7 d a b 2)
  | .hadd2F16 d a b => some (fmtA 0x35#7 d a b 3)
  | .hmul2F16 d a b => some (fmtA 0x35#7 d a b 4)
  | .hfma2F16 d a b => some (fmtA 0x35#7 d a b 5)
  | .hmin2 d a b => some (fmtA 0x35#7 d a b 6)
  | .hmax2 d a b => some (fmtA 0x35#7 d a b 7)
  | .scx d a t => some (fmtA 0x36#7 d a (wide3 t.code) 0)
  | .sca d a b => some (fmtA 0x36#7 d a b 1)
  | .scm d a t => some (fmtA 0x36#7 d a (wide3 t.code) 2)
  | .ldB d a imm => some (fmtB 0x38#7 d a imm)
  | .ldBs d a imm => some (fmtB 0x39#7 d a imm)
  | .ldH d a imm => some (fmtB 0x3A#7 d a imm)
  | .ldHs d a imm => some (fmtB 0x3B#7 d a imm)
  | .ldW d a imm => some (fmtB 0x3C#7 d a imm)
  | .ldX d a imm => some (fmtB 0x3D#7 d a imm)
  | .ldQ d a imm => some (fmtB 0x3E#7 d a imm)
  | .stB d a imm => some (fmtB 0x3F#7 d a imm)
  | .stH d a imm => some (fmtB 0x40#7 d a imm)
  | .stW d a imm => some (fmtB 0x41#7 d a imm)
  | .stX d a imm => some (fmtB 0x42#7 d a imm)
  | .stQ d a imm => some (fmtB 0x43#7 d a imm)
  | .ldm d a sem sc w hint => some (fmtM 0x44#7 d a sem.code sc.code w.code hint)
  | .stm d a sem sc w hint => some (fmtM 0x45#7 d a sem.code sc.code w.code hint)
  | .prefLlc a imm => some (fmtB 0x46#7 0 a imm)
  | .prefStash a imm => some (fmtB 0x46#7 1 a imm)
  | .pgreq d a b => some (fmtA 0x47#7 d a b 0)
  | .pgreqNp d a b => some (fmtA 0x47#7 d a b 1)
  | .atomT d a b op => some (fmtA 0x48#7 d a b op.code)
  | .atomC d a b op => some (fmtA 0x49#7 d a b op.code)
  | .atomD d a b op => some (fmtA 0x4A#7 d a b op.code)
  | .atomP d a b op => some (fmtA 0x4B#7 d a b op.code)
  | .atomS d a b op => some (fmtA 0x4C#7 d a b op.code)
  | .redD a b op => some (fmtA 0x4D#7 0 a b op.code)
  | .redP a b op => some (fmtA 0x4E#7 0 a b op.code)
  | .redS a b op => some (fmtA 0x4F#7 0 a b op.code)
  | .stfl d a b wide sc => some (fmtA 0x50#7 d a b (bit wide ++ sc.code))
  | .redn d a b op => some (fmtA 0x51#7 d a b op.code)
  | .smap d a b => some (fmtA 0x52#7 d a b 0)
  | .sunmap d a => some (fmtA 0x52#7 d a 0 1)
  | .sflush a b => some (fmtA 0x52#7 0 a b 2)
  | .sinv a b => some (fmtA 0x52#7 0 a b 3)
  | .pub d a b => some (fmtA 0x53#7 d a b 0)
  | .mwatch d a => some (fmtA 0x54#7 d a 0 0)
  | .mwait d b => some (fmtA 0x55#7 d 0 b 0)
  | .fence sc tile eng st ld scope => some (fmtC 0x56#7 0 (0#10 ++ bit sc ++ bit tile ++ bit eng ++ bit st ++ bit ld ++ scope.code))
  | .barSync n => some (fmtA 0x58#7 (wide4 n) 0 0 0)
  | .barArrive n a => some (fmtA 0x58#7 (wide4 n) a 0 1)
  | .barWait n a => some (fmtA 0x58#7 (wide4 n) a 0 2)
  | .tbinit a b => some (fmtA 0x59#7 0 a b 0)
  | .tbexp a b => some (fmtA 0x59#7 0 a b 1)
  | .tbarr d a => some (fmtA 0x59#7 d a 0 2)
  | .tbwait d a b => some (fmtA 0x59#7 d a b 3)
  | .tbtest d a b => some (fmtA 0x59#7 d a b 4)
  | .tberr d a => some (fmtA 0x59#7 d a 0 5)
  | .waitc ld st cp tl => some (fmtW 0x5A#7 ld st cp tl)
  | .waitb n imm => some (fmtB 0x5B#7 (wide3 n) 0 imm)
  | .ccset n a => some (fmtA 0x5C#7 0 a (wide3 n) 0)
  | .ccadd n a => some (fmtA 0x5C#7 0 a (wide3 n) 1)
  | .ccrd d n => some (fmtA 0x5C#7 d 0 (wide3 n) 2)
  | .mxacq d => some (fmtA 0x60#7 d 0 0 0)
  | .mxrel d => some (fmtA 0x61#7 d 0 0 0)
  | .tmma acc abuf bslot f free zero all => some (fmtT 0x62#7 acc abuf bslot f.code (bit free ++ bit zero ++ bit all))
  | .tmmai acc abuf bslot f free zero all => some (fmtT 0x63#7 acc abuf bslot f.code (bit free ++ bit zero ++ bit all))
  | .tzero acc all => some (fmtT 0x64#7 acc 0 0 0 (0#2 ++ bit all))
  | .trd d acc b => some (fmtA 0x65#7 d (wide6 acc) b 0)
  | .twr d acc b => some (fmtA 0x65#7 d (wide6 acc) b 1)
  | .trowsum d acc => some (fmtA 0x65#7 d (wide6 acc) 0 2)
  | .trowssq d acc => some (fmtA 0x65#7 d (wide6 acc) 0 3)
  | .trowmax d acc => some (fmtA 0x65#7 d (wide6 acc) 0 4)
  | .trowmul acc b => some (fmtA 0x65#7 0 (wide6 acc) b 5)
  | .trowadd acc b => some (fmtA 0x65#7 0 (wide6 acc) b 6)
  | .tcvt acc abuf q f all => some (fmtT 0x66#7 acc abuf (q ++ 0#7) f.code (0#2 ++ bit all))
  | .tscale accD accS b => some (fmtA 0x67#7 (wide6 accD) (wide6 accS) b 0)
  | .tlda a b => some (fmtA 0x68#7 0 a b 0)
  | .tstate d a => some (fmtA 0x69#7 d a 0 0)
  | .trel a => some (fmtA 0x6A#7 0 a 0 0)
  | .cbld cb a => some (fmtA 0x6B#7 (wide3 cb) a 0 0)
  | .rldW d r imm => some (fmtB 0x70#7 d (wide4 r) imm)
  | .rldX d r imm => some (fmtB 0x71#7 d (wide4 r) imm)
  | .rstW d r imm => some (fmtB 0x72#7 d (wide4 r) imm)
  | .rstX d r imm => some (fmtB 0x73#7 d (wide4 r) imm)
  | .rldr d r b => some (fmtA 0x74#7 (wide4 d) (wide4 r) b 0)
  | .rstr d r b => some (fmtA 0x75#7 (wide4 d) (wide4 r) b 0)
  | .pin d r => some (fmtA 0x76#7 d (wide4 r) 0 0)
  | .unpin d r => some (fmtA 0x76#7 d (wide4 r) 0 1)
  | .refeq p r q => some (fmtA 0x76#7 (wide3 p) (wide4 r) (wide4 q) 2)
  | .rget d r => some (fmtA 0x76#7 d (wide4 r) 0 3)
  | .rput r a => some (fmtA 0x76#7 (wide4 r) a 0 4)
  | .rchk d r => some (fmtA 0x76#7 d (wide4 r) 0 5)
  | .rnull r => some (fmtA 0x76#7 (wide4 r) 0 0 6)
  | .lit p => some (0x7F#7 ++ p)
  | .yadd d a b => some (fmtY 0#5 d a b 0)
  | .ysub d a b => some (fmtY 1#5 d a b 0)
  | .yand d a b => some (fmtY 2#5 d a b 0)
  | .yor d a b => some (fmtY 3#5 d a b 0)
  | .yxor d a b => some (fmtY 4#5 d a b 0)
  | .yshl d a b => some (fmtY 5#5 d a b 0)
  | .yshr d a b => some (fmtY 6#5 d a b 0)
  | .yminu d a b => some (fmtY 7#5 d a b 0)
  | .ymaxu d a b => some (fmtY 8#5 d a b 0)
  | .yaddi d a imm => some (fmtY 9#5 d a 0 imm)
  | .yandi d a imm => some (fmtY 10#5 d a 0 imm)
  | .yshi d a k n => some (fmtY 11#5 d a 0 (k.code ++ 0#8 ++ n))
  | .ymovi d imm => some (fmtY 12#5 d 0 0 imm)
  | .yins d imm => some (fmtY 13#5 d 0 0 imm)
  | .yclz d a => some (fmtY 14#5 d a 0 0)
  | .yhash d a r => some (fmtY 15#5 d a 0 (0#13 ++ r))
  | .ybr c a b imm => some (fmtY 16#5 c.code a b imm)
  | .yhist n a b => some (fmtY 17#5 0 a b (0#13 ++ n))
  | .ycms n a b => some (fmtY 18#5 0 a b (0#14 ++ n))
  | .ycmq d n a => some (fmtY 19#5 d a 0 (0#14 ++ n))
  | .yldb d n a => some (fmtY 20#5 d a 0 (0#13 ++ n))
  | .ytrigRecord => some (fmtY 21#5 0 0 0 0)
  | .ytrigInterrupt => some (fmtY 21#5 0 0 0 1)
  | .ytrigFreeze => some (fmtY 21#5 0 0 0 2)
  | .ytrigArm a => some (fmtY 21#5 0 a 0 3)
  | .yrds d n => some (fmtY 22#5 d 0 0 n)
  | .yend => some (fmtY 23#5 0 0 0 0)
  | .railOvercurrent _ | .ctxBind _ | .regWrite _ _ _ | .ctxSuspend _ | .ctxResume _ | .modeCfgWrite _ _
  | .ctxClearf _ | .ctxFence _ | .powerCapApply | .ctxDestroy _ | .sliceLengthExpiry _ | .mirrorRelease
  | .sliceSwitch _ | .debugResume _ | .leaseChangeSettle | .qBind _ | .qStart _ | .tileOwnershipTransfer _ _
  | .qDrain _ | .qClear _ | .sleepEnd _ _ | .qDestroy _ | .qQuery _ | .yieldTimeout _ _ | .queueWatchFire _
  | .queueRecordNop _ | .tholdPropagation _ _ | .queueRecordLaunch _ | .queueRecordWait _ | .threadWaitEnd _ _
  | .queueRecordSignal _ | .queueUnblock _ | .gridDescriptorRead _ _ | .queueAgePromote _ | .teamPlace _
  | .gridTranslate _ _ | .placementReserve _ | .teamDone _ | .slabSpill _ _ _ | .requestEnqueue _
  | .requestAdvance _ | .slabFill _ _ _ | .requestHoldTimeout _ | .requestBackoffExpiry _ | .binDraw _ _
  | .requestReissue _ | .loadCommit _ | .storeArrival _ _ | .walkComplete _ | .pgInval _
  | .instructionFetch _ _ | .pgReside _ | .pgMigpub _ | .runAheadFetch _ _ _ | .pgAssign _ | .pgShare _
  | .frmTblWrite _ _ | .pgFree _ | .pgUnpoison _ | .prqRidxWrite _ _ | .tileOpStart _ | .tileOpComplete _
  | .mwaitWake _ _ | .tileFillComplete _ | .requestEngineTake _ | .mwaitTimeout _ _ | .cmdNop _ | .cmdCpy _
  | .hostWatchExpiry _ _ | .cmdCpy2d _ | .cmdCpyt _ | .selftestInject _ _ _ | .cmdCpyp _ | .cmdCpyr _
  | .selftestForced _ _ _ | .cmdFill _ | .cmdComplete _ | .mhDefine _ _ | .hostConfigRequest _
  | .doeDiscovery _ | .mhBegin _ _ | .tdispLockInterface _ | .tdispStartInterface _ | .mhEnd _ _
  | .tdispStopInterface _ | .ideIntegrityFailure _ | .mhUndefine _ _ | .portSignalDetect _ | .portLinkLoss _
  | .teaselTake _ _ | .nodeTrigger _ | .reduceRoundComplete _ | .teaselRetry _ _ | .yarrowRun _
  | .yarrowWindow _ | .hostWrite _ _ | .yarrowTimerEvent _ | .samplerTick _ | .hostRead _ _
  | .scanDrainTimeout _ | .hostAtomicop _ _ _ _ _ | .vfAccess _ _ _ _ _ | .hostCompletion _ _
  | .vfBindWrite _ _ _ | .spdmRequest _ _ | .ideKmMessage _ _ | .portTrainingResult _ _ _
  | .bamlosResponse _ _ _ | .bamlosMgmt _ _ _ | .nodeAttest _ _ | .attestResult _ _ _ _ | .nodeRevoke _ _
  | .nodeFence _ _ | .nodeUnfence _ _ | .nodeRetrain _ _ | .ywLoad _ _ | .ywUnload _ _ | .ywDump _ _ _
  | .ywClear _ _ _ | .ywBudget _ _ | .ywSample _ _ _ | .scanRotationStart | .coreScan _ _ | .partReset _ _
  | .partFatal | .illegalOpcode _ _ | .leaseExpiry _ _ _ | .caplimWindow | .flowControlStopGo _ _ _ => none

/-- The instruction is one of the filter instruction set (R409). -/
def isFilter : Instr → Bool
  | .yadd _ _ _ | .ysub _ _ _ | .yand _ _ _ | .yor _ _ _ | .yxor _ _ _ | .yshl _ _ _ | .yshr _ _ _
  | .yminu _ _ _ | .ymaxu _ _ _ | .yaddi _ _ _ | .yandi _ _ _ | .yshi _ _ _ _ | .ymovi _ _ | .yins _ _
  | .yclz _ _ | .yhash _ _ _ | .ybr _ _ _ _ | .yhist _ _ _ | .ycms _ _ _ | .ycmq _ _ _ | .yldb _ _ _
  | .ytrigRecord | .ytrigInterrupt | .ytrigFreeze | .ytrigArm _ | .yrds _ _ | .yend => true
  | _ => false

end Sys2Proof
end

