-- ==== Sys2Proof/Machine/Stash.lean ====
section
/-! DEFINITION. SMAP, SUNMAP, SFLUSH and SINV (R254 to R258), and PUB (R349). -/

namespace Sys2Proof.Machine

/-! ## Stash mappings -/

/-- The status of SMAP (R255). -/
def Team.smapStatus (T : Team) (base off len : Nat) : Word :=
  if base % 4096 ≠ 0 ∨ off % 4096 ≠ 0 ∨ len % 4096 ≠ 0 ∨ len = 0 ∨ !canonicalRange base len then 4
  else if 16 ≤ T.maps.length then 1
  else if T.stash < off + len ∨ (T.ringLen ≠ 0 ∧ overlap off len T.ringOff (32 * T.ringLen + 128)) ∨
      (T.maps.any fun m => !m.scratch && overlap off len m.offset m.len) then 2
  else if T.maps.any fun m => overlap base len m.base.toNat m.len then 3
  else 0

/-- Requests of a thread, not yet performed, that touch a range (R258): by the address that they access, the flag of STFL or the
control line of REDN. -/
def Team.olderIn (T : Team) (i base len : Nat) : List Nat :=
  ((T.reqsOf i).filter fun r => overlap r.va.toNat (max 1 r.op.width) base len || match r.op with
    | .flagStore _ flag _ _ => overlap flag.toNat 4 base len
    | .reduce units cl _ _ => overlap cl.toNat 128 base len || units.any fun u => overlap u.1.toNat 16 base len
    | .publish b sh n => overlap b.toNat n base len || overlap sh.toNat n base len
    | .load _ _ _ _ | .watch | .store _ _ _ | .atomic _ _ _ _ _ | .share _ => false).map fun r => r.id

/-- One SCTL: every lane waits for its entry, of which the instruction takes n (R225, R228, R258), then the lanes act one at a time.
f gives the range that the lane names and what it does. -/
def State.sctl (s : State) (n : Nat) (f : State → Team → Thread → (Nat × Nat) × (Team → Team) × (Thread → Thread)) : State :=
  s.withRoom n 0 1 fun s i t =>
    match s.issuing? with
    | none => (s, none)
    | some T =>
      let x := f s T t
      let ids := T.olderIn i x.1.1 x.1.2
      if !ids.isEmpty then (s.setThread i (t.wait (.older ids)), none)
      else (((s.modTeam s.issue.team x.2.1).writeBacks T.lines (x.2.1 T).lines).modThread s.issue.team i fun t => (x.2.2 t).next, none)

def execSmap (d a b : BitVec 7) (s : State) : Result :=
  .next (s.sctl 1 fun _ T t =>
    let base := (t.gx a).toNat
    let off := (t.g b).toNat
    let len := ((t.gx b).extractLsb' 32 32).toNat
    let st := T.smapStatus base off len
    ((base, len), fun T => if st = 0 then { T with maps := T.maps ++ [{ base := t.gx a, offset := off, len := len }] } else T,
      fun t => t.setG d st))

def execSunmap (d a : BitVec 7) (s : State) : Result :=
  .next (s.sctl 1 fun _ T t =>
    match T.mapped? (t.gx a).toNat with
    | none => ((0, 0), fun T => T, fun t => t.setG d 1)
    | some m =>
      if m.scratch then ((0, 0), fun T => T, fun t => t.setG d 2)
      else
        ((m.base.toNat, m.len), fun T => { T.dropLines m.base.toNat m.len with maps := T.maps.filter fun x => x != m },
          fun t => t.setG d 0))

/-- The lines of a team in a range whose pages are mapped and not denied: SFLUSH and SINV skip the others (R257). -/
def State.openLines (s : State) (T : Team) (base len : Nat) : List Nat :=
  (T.lines.filter fun l => overlap (l.line * 128) 128 base len && match s.leaf? T.core T.ctx (l.line * 128) with
    | some e => pteSt e.pte != 0 && pteR e.pte
    | none => false).map fun l => l.line

/-- Owned lines become read copies. -/
def Team.cleanLines (T : Team) (lines : List Nat) : Team :=
  { T with lines := T.lines.map fun l => if lines.contains l.line then { l with owned := false } else l }

def execSflush (a b : BitVec 7) (s : State) : Result :=
  .next (s.sctl s.issue.tids.length fun s T t =>
    let r := ((t.gx a).toNat, (t.g b).toNat)
    (r, fun U => if r.2 = 0 then U else U.cleanLines (s.openLines T r.1 r.2), fun t => t))

/-- SINV: the thread's younger loads are fresh (R257). -/
def execSinv (a b : BitVec 7) (s : State) : Result :=
  .next (s.sctl s.issue.tids.length fun s T t =>
    let r := ((t.gx a).toNat, (t.g b).toNat)
    let gone := s.openLines T r.1 r.2
    (r, fun U => if r.2 = 0 then U else { U with lines := U.lines.filter fun l => !gone.contains l.line }, fun t => t)).dropProxies

/-- PUB (R349): the lanes act in order. One whose publish may go waits in its entry for what precedes it; one behind a lower lane that
waits is examined in its turn. -/
def execPub (d a b : BitVec 7) (s : State) : Result :=
  .next (let group := s.fresh
    s.withRoom s.issue.tids.length 0 1 fun s i t =>
      match s.issuing? with
      | none => (s, none)
      | some T =>
        let q := t.gq b
        let sh := q.extractLsb' 0 64
        let n := (q.extractLsb' 64 32).toNat
        let s := s.publishWalks T (t.gx a).toNat sh.toNat n
        let st := (s.publishStatus T.core T.ctx (t.gx a).toNat sh.toNat n).1
        if st ≠ 0 ∧ !T.lowerWaits group s.fresh then (s.setThread i (t.setG d (BitVec.ofNat 32 st)).next, none)
        else
          s.startAccess s.issue.team i T
            { va := t.gx a, op := .publish (t.gx a) sh n, dest := .reg (t.pos d) 1, counter := 2, group := group } (.ring 0))

end Sys2Proof.Machine
end

