-- ==== Sys2Proof/Machine/Float.lean ====
section
/-! DEFINITION. The floating-point, conversion, packing and scale instructions (R150 to R168). Each writes its destination
and ORs its flags into the thread's (R31, R152). -/

namespace Sys2Proof.Machine

/-- Sticky flags of the thread (R31). -/
def Thread.addFlags (t : Thread) (f : Flags) : Thread := { t with fpflags := t.fpflags ||| f }

/-- An instruction that writes one register and the flags in each lane. -/
def State.mapF (s : State) (d : BitVec 7) (f : Thread → FRes) : State :=
  s.onLanes fun _ _ t => .done ((t.setG d (f t).1).addFlags (f t).2).next

/-! ## Arithmetic (R154) -/

def execFadd (d a b : BitVec 7) (abs neg : Bool) (rm : RMode) (s : State) : Result :=
  .next (s.mapF d fun t => f32Add rm (signMarks abs neg (t.g a)) (t.g b))
def execFsub (d a b : BitVec 7) (abs neg : Bool) (rm : RMode) (s : State) : Result :=
  .next (s.mapF d fun t => f32Sub rm (signMarks abs neg (t.g a)) (t.g b))
def execFmul (d a b : BitVec 7) (abs neg : Bool) (rm : RMode) (s : State) : Result :=
  .next (s.mapF d fun t => f32Mul rm (signMarks abs neg (t.g a)) (t.g b))
def execFfma (d a b : BitVec 7) (abs neg : Bool) (rm : RMode) (s : State) : Result :=
  .next (s.mapF d fun t => f32Fma rm (signMarks abs neg (t.g a)) (t.g b) (t.g d))

/-! ## Minimum, maximum, comparison (R155, R156) -/

def execFmin (d a b : BitVec 7) (s : State) : Result :=
  .next (s.mapF d fun t => resultOf (fp32.extreme false (t.g a).toNat (t.g b).toNat))
def execFmax (d a b : BitVec 7) (s : State) : Result :=
  .next (s.mapF d fun t => resultOf (fp32.extreme true (t.g a).toNat (t.g b).toNat))
def execFset (c : FCond) (p : BitVec 3) (a b : BitVec 7) (s : State) : Result :=
  .next (s.onLanes fun _ _ t =>
    .done ((t.setP p (fcompare c (t.g a) (t.g b)).1).addFlags (fcompare c (t.g a) (t.g b)).2).next)

/-! ## Functions and rounding (R157, R158) -/

def execRcp (d a : BitVec 7) (s : State) : Result := .next (s.mapF d fun t => f32Rcp (t.g a))
def execRsq (d a : BitVec 7) (s : State) : Result := .next (s.mapF d fun t => f32Rsq (t.g a))
def execSqrt (d a : BitVec 7) (s : State) : Result := .next (s.mapF d fun t => f32Sqrt (t.g a))
def execExp2 (d a : BitVec 7) (s : State) : Result := .next (s.mapF d fun t => f32Exp2 (t.g a))
def execLog2 (d a : BitVec 7) (s : State) : Result := .next (s.mapF d fun t => f32Log2 (t.g a))
def execSinpi (d a : BitVec 7) (s : State) : Result := .next (s.mapF d fun t => f32Sinpi (t.g a))
def execCospi (d a : BitVec 7) (s : State) : Result := .next (s.mapF d fun t => f32Cospi (t.g a))
def execRndn (d a : BitVec 7) (s : State) : Result := .next (s.mapF d fun t => f32Rnd .rn (t.g a))
def execRndz (d a : BitVec 7) (s : State) : Result := .next (s.mapF d fun t => f32Rnd .rz (t.g a))
def execRndd (d a : BitVec 7) (s : State) : Result := .next (s.mapF d fun t => f32Rnd .rd (t.g a))
def execRndu (d a : BitVec 7) (s : State) : Result := .next (s.mapF d fun t => f32Rnd .ru (t.g a))

/-! ## Conversions (R159, R160) -/

def execFcvtF32I32 (d a : BitVec 7) (rm : RMode) (s : State) : Result :=
  .next (s.mapF d fun t => intToF32 rm (t.g a).toInt)
def execFcvtF32Ui32 (d a : BitVec 7) (rm : RMode) (s : State) : Result :=
  .next (s.mapF d fun t => intToF32 rm (t.g a).toNat)
def execFcvtF32I64 (d a : BitVec 7) (rm : RMode) (s : State) : Result :=
  .next (s.mapF d fun t => intToF32 rm (t.gx a).toInt)
def execFcvtF32Ui64 (d a : BitVec 7) (rm : RMode) (s : State) : Result :=
  .next (s.mapF d fun t => intToF32 rm (t.gx a).toNat)

/-- FP32 to a 32-bit integer. -/
def toInt32 (rm : RMode) (lo hi : Int) (x : Word) : FRes :=
  let r := f32ToInt rm lo hi x
  (BitVec.ofInt 32 r.1, r.2)
def execFcvtI32F32 (d a : BitVec 7) (rm : RMode) (s : State) : Result :=
  .next (s.mapF d fun t => toInt32 rm (-2147483648) 2147483647 (t.g a))
def execFcvtUi32F32 (d a : BitVec 7) (rm : RMode) (s : State) : Result :=
  .next (s.mapF d fun t => toInt32 rm 0 4294967295 (t.g a))

/-- FP32 to a 64-bit integer in a pair. -/
def State.cvt64 (s : State) (d a : BitVec 7) (rm : RMode) (lo hi : Int) : State :=
  s.onLanes fun _ _ t =>
    let r := f32ToInt rm lo hi (t.g a)
    .done ((t.setGx d (BitVec.ofInt 64 r.1)).addFlags r.2).next
def execFcvtI64F32 (d a : BitVec 7) (rm : RMode) (s : State) : Result :=
  .next (s.cvt64 d a rm (-9223372036854775808) 9223372036854775807)
def execFcvtUi64F32 (d a : BitVec 7) (rm : RMode) (s : State) : Result :=
  .next (s.cvt64 d a rm 0 18446744073709551615)

/-- FP32 to the low half of a register, the high half zero. -/
def toLow (F : FFmt) (rm : RMode) (x : Word) : FRes := resultOf (F.convert rm (f32 x))
/-- FP32 to the high half of a register, the low half kept. -/
def toHigh (F : FFmt) (rm : RMode) (x z : Word) : FRes :=
  let r := F.convert rm (f32 x)
  (BitVec.ofNat 32 (r.1 * 65536 + z.toNat % 65536), r.2)
def execFcvtF16F32 (d a : BitVec 7) (rm : RMode) (s : State) : Result := .next (s.mapF d fun t => toLow fp16 rm (t.g a))
def execFcvtBf16F32 (d a : BitVec 7) (rm : RMode) (s : State) : Result :=
  .next (s.mapF d fun t => toLow bf16 rm (t.g a))
def execFcvtF16hF32 (d a : BitVec 7) (rm : RMode) (s : State) : Result :=
  .next (s.mapF d fun t => toHigh fp16 rm (t.g a) (t.g d))
def execFcvtBf16hF32 (d a : BitVec 7) (rm : RMode) (s : State) : Result :=
  .next (s.mapF d fun t => toHigh bf16 rm (t.g a) (t.g d))

/-- An exact widening to FP32 (R159): a signalling NaN raises NV. -/
def widen (F : FFmt) (c : Nat) : FRes := resultOf (fp32.convert .rn (F.decode c))
def execFcvtF32F16 (d a : BitVec 7) (s : State) : Result := .next (s.mapF d fun t => widen fp16 ((t.g a).toNat % 65536))
def execFcvtF32Bf16 (d a : BitVec 7) (s : State) : Result := .next (s.mapF d fun t => widen bf16 ((t.g a).toNat % 65536))
def execFcvtF32F16h (d a : BitVec 7) (s : State) : Result := .next (s.mapF d fun t => widen fp16 ((t.g a).toNat / 65536))
def execFcvtF32Bf16h (d a : BitVec 7) (s : State) : Result :=
  .next (s.mapF d fun t => widen bf16 ((t.g a).toNat / 65536))

/-! ## Packing (R161 to R164) -/

def fmt8 : F8 → FFmt
  | .e4m3 => e4m3
  | .e5m2 => e5m2
def fmt6 : F6 → FFmt
  | .e3m2 => e3m2
  | .e2m3 => e2m3

/-- n consecutive registers of a thread, from one on. -/
def Thread.regsFrom (t : Thread) (a : BitVec 7) (n : Nat) : List Word := (List.range n).map fun i => t.at (t.pos a + i)

/-- The conversions of several values: their codes and the OR of their flags. -/
def convertAll (F : FFmt) (rm : RMode) (l : List Word) : List Nat × Flags :=
  l.foldl (fun acc x =>
    let r := F.convert rm (f32 x)
    (acc.1 ++ [r.1], acc.2 ||| r.2)) ([], 0)

/-- Codes packed w bits apart, the first lowest. -/
def packBits (w : Nat) : List Nat → Nat
  | [] => 0
  | c :: r => c + 2 ^ w * packBits w r

def execPk8 (d a : BitVec 7) (rm : RMode) (f : F8) (s : State) : Result :=
  .next (s.mapF d fun t =>
    let r := convertAll (fmt8 f) rm (t.regsFrom a 4)
    (BitVec.ofNat 32 (packBits 8 r.1), r.2))

/-- Writes decoded elements to consecutive registers, with their flags. -/
def Thread.putDecoded (t : Thread) (d : BitVec 7) (F : FFmt) (codes : List Nat) : Thread :=
  let rs := codes.map fun c => widen F c
  (t.putList (t.pos d) (rs.map fun r => r.1)).addFlags (rs.foldl (fun f r => f ||| r.2) 0)

def execUpk8 (d a : BitVec 7) (f : F8) (s : State) : Result :=
  .next (s.onLanes fun _ _ t =>
    .done (t.putDecoded d (fmt8 f) ((List.range 4).map fun n => (t.g a).toNat / 2 ^ (8 * n) % 256)).next)

/-- The two registers of eight six-bit codes (R36). -/
def planes (codes : List Nat) : Word × Word :=
  (BitVec.ofNat 32 (packBits 4 (codes.map fun c => c / 4)), BitVec.ofNat 32 (packBits 2 (codes.map fun c => c % 4)))
/-- The eight six-bit codes of two registers (R36). -/
def sixBit (hi lo : Word) : List Nat :=
  (List.range 8).map fun n => hi.toNat / 2 ^ (4 * n) % 16 * 4 + lo.toNat / 2 ^ (2 * n) % 4

def execPk6 (d a : BitVec 7) (rm : RMode) (f : F6) (s : State) : Result :=
  .next (s.onLanes fun _ _ t =>
    let r := convertAll (fmt6 f) rm (t.regsFrom a 8)
    .done ((t.putList (t.pos d) [(planes r.1).1, (planes r.1).2]).addFlags r.2).next)
def execUpk6 (d a : BitVec 7) (f : F6) (s : State) : Result :=
  .next (s.onLanes fun _ _ t => .done (t.putDecoded d (fmt6 f) (sixBit (t.g a) (t.at (t.pos a + 1)))).next)

/-! ## Paired halves (R165) -/

def execHadd2Bf16 (d a b : BitVec 7) (s : State) : Result :=
  .next (s.mapF d fun t => halves (halfAdd bf16) (t.g a) (t.g b) (t.g d))
def execHmul2Bf16 (d a b : BitVec 7) (s : State) : Result :=
  .next (s.mapF d fun t => halves (halfMul bf16) (t.g a) (t.g b) (t.g d))
def execHfma2Bf16 (d a b : BitVec 7) (s : State) : Result :=
  .next (s.mapF d fun t => halves (halfFma bf16) (t.g a) (t.g b) (t.g d))
def execHadd2F16 (d a b : BitVec 7) (s : State) : Result :=
  .next (s.mapF d fun t => halves (halfAdd fp16) (t.g a) (t.g b) (t.g d))
def execHmul2F16 (d a b : BitVec 7) (s : State) : Result :=
  .next (s.mapF d fun t => halves (halfMul fp16) (t.g a) (t.g b) (t.g d))
def execHfma2F16 (d a b : BitVec 7) (s : State) : Result :=
  .next (s.mapF d fun t => halves (halfFma fp16) (t.g a) (t.g b) (t.g d))
def execHmin2 (d a b : BitVec 7) (s : State) : Result :=
  .next (s.mapF d fun t => halves (halfExtreme false) (t.g a) (t.g b) (t.g d))
def execHmax2 (d a b : BitVec 7) (s : State) : Result :=
  .next (s.mapF d fun t => halves (halfExtreme true) (t.g a) (t.g b) (t.g d))

/-! ## Scales (R166 to R168) -/

def execScx (d a : BitVec 7) (x : ScaleT) (s : State) : Result := .next (s.mapG d fun t => scaleOf (t.g a) x)
def execSca (d a b : BitVec 7) (s : State) : Result := .next (s.mapF d fun t => scaleApply (t.g a) (t.g b))

/-- One scale for all lanes of the bundle: that of the largest magnitude, or 0xFF where one is NaN or infinite. -/
def bundleScale (l : List Word) (x : ScaleT) : Word :=
  let mags := l.map fun w => w &&& 0x7FFFFFFF
  let m := mags.foldl (fun a b => if a.toNat < b.toNat then b else a) 0
  scaleOf m x
def execScm (d a : BitVec 7) (x : ScaleT) (s : State) : Result :=
  .next (s.onLanes fun ls _ t => .done (t.setG d (bundleScale (ls.map fun y => y.2.g a) x)).next)

end Sys2Proof.Machine
end

