-- ==== Sys2Proof/Machine/Matrix.lean ====
section
/-! DEFINITION. The arithmetic of tile operations: element layouts (R35, R37, R40, R42), exact block sums and their order
(R43 to R48), the flush of accumulator results (R49), TSCALE (R51), row operations (R323) and narrowing into an A buffer (R324). -/

namespace Sys2Proof.Machine

/-! ## Elements -/

/-- How a row or column of 256 bytes is read. -/
inductive Elem where
  | half (F : FFmt)
  | byte (F : FFmt)
  | six (F : FFmt)
  /-- 4-bit codes of a codebook of 16 BF16 entries -/
  | code (cb : List Byte)
  deriving DecidableEq, Repr

/-- Byte k of a row. -/
def byteAt (b : List Byte) (k : Nat) : Nat := (b.getD k 0).toNat

/-- Elements 0 to K - 1 of a row or column. -/
def Elem.read (e : Elem) (b : List Byte) : List Fp :=
  match e with
  | .half F => (List.range 128).map fun k => F.decode (byteAt b (2 * k) + 256 * byteAt b (2 * k + 1))
  | .byte F => b.map fun x => F.decode x.toNat
  | .six F => (List.range 256).map fun k =>
      F.decode (byteAt b (k / 2) / 16 ^ (k % 2) % 16 * 4 + byteAt b (128 + k / 4) / 4 ^ (k % 4) % 4)
  | .code cb => (List.range 512).map fun k =>
      let c := byteAt b (k / 2) / 16 ^ (k % 2) % 16
      bf16.decode (byteAt cb (2 * c) + 256 * byteAt cb (2 * c + 1))

/-- The A and B elements of a TMMA format (R43). -/
def tmmaElems (f : TFmt) (cbA cbB : List Byte) : Elem × Elem :=
  match f with
  | .bf16 => (.half bf16, .half bf16)
  | .f16 => (.half fp16, .half fp16)
  | .e4m3 => (.byte e4m3, .byte e4m3)
  | .e4m3e5m2 => (.byte e4m3, .byte e5m2)
  | .e5m2e4m3 => (.byte e5m2, .byte e4m3)
  | .e5m2 => (.byte e5m2, .byte e5m2)
  | .e3m2 => (.six e3m2, .six e3m2)
  | .e2m3 => (.six e2m3, .six e2m3)
  | .cb4 => (.code cbA, .code cbB)

/-! ## Team flags -/

/-- Team tile flags: TNV, TOF, TUF (R32). -/
structure TFlags where
  nv : Bool := false
  of : Bool := false
  uf : Bool := false
  deriving DecidableEq, Repr

def TFlags.or (a b : TFlags) : TFlags := ⟨a.nv || b.nv, a.of || b.of, a.uf || b.uf⟩

/-- flush_acc (R49): the value, and whether it flushed. -/
def flushAcc (w : Word) : Word × Bool :=
  if w.extractLsb' 23 8 = 0 ∧ w.extractLsb' 0 23 ≠ 0 then (w &&& 0x80000000, true) else (w, false)

def overflowed (f : Flags) : Bool := f &&& flagOF != 0
def isNanWord (w : Word) : Bool := (f32 w).isNan

/-! ## TMMA and TMMAI -/

/-- exact_block_sum of a list of products (R45). An exact sum of zeros keeps -0 only where every product is -0. -/
def blockSum : List Fp → Fp
  | [] => .fin false 0 0
  | p :: r => r.foldl (fun acc q => (fpAdd .rn acc q).1) p

/-- The blocks of sixteen products, in ascending order. -/
def chunks16 {α : Type} : Nat → List α → List (List α)
  | 0, _ => []
  | n + 1, l => if l.isEmpty then [] else l.take 16 :: chunks16 n (l.drop 16)

/-- One accumulator element of a floating-point operation (R44): each block is rounded once, each addition once, and flushed. -/
def tmmaElement (x0 : Word) (a b : List Fp) : Word × TFlags :=
  let products := List.zipWith (fun x y => (fpMul x y).1) a b
  let r := (chunks16 (products.length / 16 + 1) products).foldl (fun (acc : Word × TFlags) blk =>
    let t := resultOf (fp32.pack .rn (blockSum blk) false)
    let y := f32Add .rn acc.1 t.1
    let z := flushAcc y.1
    (z.1, acc.2.or ⟨false, overflowed t.2 || overflowed y.2, z.2⟩)) (x0, {})
  let given := isNanWord x0 || (a.any fun v => v.isNan) || b.any fun v => v.isNan
  (r.1, r.2.or ⟨isNanWord r.1 && !given, false, false⟩)

/-- The integer value of a byte, signed or not (R40). -/
def intByte (signed : Bool) (b : Byte) : Int := if signed then b.toInt else b.toNat

/-- The operand signs of TMMAI. -/
def tmmaiSigns (f : TIFmt) : Bool × Bool :=
  match f with
  | .s8s8 => (true, true)
  | .s8u8 => (true, false)
  | .u8s8 => (false, true)
  | .u8u8 => (false, false)

/-- One accumulator element of TMMAI (R47). -/
def tmmaiElement (x0 : Word) (f : TIFmt) (a b : List Byte) : Word :=
  let sg := tmmaiSigns f
  let sum : Int := (List.zipWith (fun x y => intByte sg.1 x * intByte sg.2 y) a b).foldl (fun s p => s + p) 0
  BitVec.ofInt 32 (x0.toInt + sum)

/-! ## Accumulators -/

/-- Element (i, j) of an accumulator (R305). -/
def accAt (acc : List Host.Cell) (i j : Nat) : Word := BitVec.ofNat 32 (ofBytes (getBytes acc (128 * i + 4 * j) 4))
def accRow (acc : List Host.Cell) (i : Nat) : List Word := (List.range 32).map fun j => accAt acc i j
/-- Writes row i from column j on. -/
def putAcc (acc : List Host.Cell) (i j : Nat) (v : List Word) : List Host.Cell :=
  putBytes (128 * i + 4 * j) (v.flatMap fun w => toBytes 4 w.toNat) acc

/-- Rewrites rows of an accumulator, each from its number and its old elements, and gathers the flags. -/
def mapRows (acc : List Host.Cell) (rows : List Nat) (f : Nat → List Word → List (Word × TFlags)) :
    List Host.Cell × TFlags :=
  rows.foldl (fun st i =>
    let r := f i (accRow acc i)
    (putAcc st.1 i 0 (r.map fun x => x.1), r.foldl (fun g x => g.or x.2) st.2)) (acc, {})

/-- TMMA (R321). -/
def tmmaRows (f : TFmt) (zero : Bool) (a b : List Host.Cell) (cbA cbB : List Byte) (rows : List Nat) (acc : List Host.Cell) :
    List Host.Cell × TFlags :=
  let e := tmmaElems f cbA cbB
  let cols := (List.range 32).map fun j => e.2.read (getBytes b (256 * j) 256)
  mapRows acc rows fun i old =>
    let row := e.1.read (getBytes a (256 * i) 256)
    List.zipWith (fun x col => tmmaElement (if zero then 0 else x) row col) old cols

/-- TMMAI (R321). -/
def tmmaiRows (f : TIFmt) (zero : Bool) (a b : List Host.Cell) (rows : List Nat) (acc : List Host.Cell) : List Host.Cell :=
  let cols := (List.range 32).map fun j => getBytes b (256 * j) 256
  (mapRows acc rows fun i old =>
    let row := getBytes a (256 * i) 256
    List.zipWith (fun x col => (tmmaiElement (if zero then 0 else x) f row col, {})) old cols).1

/-- TZERO (R322). -/
def tzeroRows (rows : List Nat) (acc : List Host.Cell) : List Host.Cell :=
  (mapRows acc rows fun _ old => old.map fun _ => (0, {})).1

/-! ## TSCALE (R51) -/

def tscaleElement (d s : Word) (sa sb : Nat) : Word × TFlags :=
  if sa = 255 ∨ sb = 255 then (canonNan, {})
  else
    let e : Int := sa + sb - 254
    let p := match f32 s with
      | .fin n m q => Fp.fin n m (q + e)
      | .inf n => .inf n
      | .nan b => .nan b
    let r := packF .rn (fpAdd .rn (f32 d) p)
    let z := flushAcc r.1
    (z.1, ⟨isNanWord z.1 && !(isNanWord d || isNanWord s), overflowed r.2, z.2⟩)

/-- Byte j of the column scales. -/
def scaleByte (l : List Word) (j : Nat) : Nat := (l.getD (j / 4) 0).toNat / 256 ^ (j % 4) % 256

def tscaleRows (sb : List Word) (sa : List (Nat × Word)) (src acc : List Host.Cell) : List Host.Cell × TFlags :=
  mapRows acc (sa.map fun x => x.1) fun i old =>
    let row := accRow src i
    let a := (sget i sa).toNat % 256
    (List.zipWith (fun x y => (x, y)) old row).zipIdx.map fun x => tscaleElement x.1.1 x.1.2 a (scaleByte sb x.2)

/-! ## TACC (R323) -/

/-- TROWSUM of a row: the value and the flags of the thread. -/
def rowSum : List Word → FRes
  | [] => (0, 0)
  | x :: r => r.foldl (fun acc y => let z := f32Add .rn acc.1 y; (z.1, acc.2 ||| z.2)) (x, 0)

/-- TROWSSQ of a row. -/
def rowSsq (l : List Word) : FRes :=
  l.foldl (fun acc y => let z := f32Fma .rn y y acc.1; (z.1, acc.2 ||| z.2)) (0, 0)

/-- TROWMAX of a row: only NV. -/
def rowMax : List Word → FRes
  | [] => (0, 0)
  | x :: r => r.foldl (fun acc y =>
      let z := resultOf (fp32.extreme true acc.1.toNat y.toNat)
      (z.1, acc.2 ||| (z.2 &&& flagNV))) (x, 0)

/-- TROWMUL and TROWADD on one element. TROWMUL sets TOF as TROWADD does, where a product of finite values is too large (DEDUCED, log 81:
R32 names sums, R323 the team flags of both). -/
def rowElement (mul : Bool) (x v : Word) : Word × TFlags :=
  let r := if mul then f32Mul .rn x v else f32Add .rn x v
  let z := flushAcc r.1
  (z.1, ⟨isNanWord z.1 && !(isNanWord x || isNanWord v), overflowed r.2, z.2⟩)

def rowOp (mul : Bool) (vals : List (Nat × Word)) (acc : List Host.Cell) : List Host.Cell × TFlags :=
  mapRows acc (vals.map fun x => x.1) fun i old => old.map fun x => rowElement mul x (sget i vals)

/-! ## TCVT (R324) -/

/-- The target format of TCVT, and its width in bits. -/
def tcvtFormat (f : TFmt) : FFmt × Nat :=
  match f with
  | .bf16 => (bf16, 16)
  | .f16 => (fp16, 16)
  | .e4m3 | .e4m3e5m2 => (e4m3, 8)
  | .e5m2e4m3 | .e5m2 => (e5m2, 8)
  | .e3m2 => (e3m2, 6)
  | .e2m3 => (e2m3, 6)
  | .cb4 => (bf16, 16)

/-- Writes 32 codes as elements 32q to 32q + 31 of a row at a byte offset. -/
def putElements (w q base : Nat) (codes : List Nat) (t : List Host.Cell) : List Host.Cell :=
  if w = 16 then putBytes (base + 64 * q) (codes.flatMap fun c => toBytes 2 c) t
  else if w = 8 then putBytes (base + 32 * q) (codes.map fun c => BitVec.ofNat 8 c) t
  else
    let hi := (List.range 16).map fun n => BitVec.ofNat 8 (codes.getD (2 * n) 0 / 4 + 16 * (codes.getD (2 * n + 1) 0 / 4))
    let lo := (List.range 8).map fun n => BitVec.ofNat 8 (codes.getD (4 * n) 0 % 4 + 4 * (codes.getD (4 * n + 1) 0 % 4) +
      16 * (codes.getD (4 * n + 2) 0 % 4) + 64 * (codes.getD (4 * n + 3) 0 % 4))
    putBytes (base + 128 + 8 * q) lo (putBytes (base + 16 * q) hi t)

/-- TCVT of rows: the buffer, and whether a finite element overflowed or saturated. -/
def tcvtRows (f : TFmt) (q : Nat) (acc : List Host.Cell) (rows : List Nat) (buf : List Host.Cell) : List Host.Cell × Bool :=
  let F := tcvtFormat f
  rows.foldl (fun st i =>
    let r := (accRow acc i).map fun x => F.1.convert .rn (f32 x)
    (putElements F.2 q (256 * i) (r.map fun x => x.1) st.1, st.2 || r.any fun x => overflowed x.2)) (buf, false)

end Sys2Proof.Machine
end

