-- ==== Sys2Proof/Machine/Tiles.lean ====
section
/-! DEFINITION. Tiles: their names (R304, R326), states (R307, R308), stamps (R417, R418), the acceptance of an operation
(R310, R311) and the passing of the engine (R313). -/

namespace Sys2Proof.Machine

/-! ## Names (R304, R326) -/

/-- Tiles of a core are numbered acc n at n, abuf n at 64 + n, bslot n at 72 + n. -/
def Team.accTile? (T : Team) (n : Nat) : Option Nat := if n < T.accs then some (T.accBase + n) else none
def Team.abufTile? (T : Team) (n : Nat) : Option Nat := if n < T.abufs then some (64 + T.abufBase + n) else none
def Team.bslotTile? (T : Team) (n : Nat) : Option Nat := if n < T.bslots then some (72 + T.bslotBase + n) else none

/-- The KIND and NUM of a tile selector. -/
def selKind (v : Word) : Nat := (v.extractLsb' 9 2).toNat
def selNum (v : Word) : Nat := (v.extractLsb' 0 9).toNat
/-- The binding of a selector: BIND, CB. -/
def selBind (v : Word) : Option (BitVec 3) := if v.getLsbD 15 then some (v.extractLsb' 12 3) else none

/-- The tile that a selector names. -/
def Team.selected? (T : Team) (v : Word) : Option Nat :=
  match selKind v with
  | 0 => T.accTile? (selNum v)
  | 1 => T.abufTile? (selNum v)
  | 2 => T.bslotTile? (selNum v)
  | _ => none

/-- Bytes of a tile. -/
def tileSize (n : Nat) : Nat := if n < 64 then 4096 else 8192

/-- The team whose tile it is, among the teams of the context that owns the core's tiles, with the tile's selector. -/
def State.tileTeam? (s : State) (c n : Nat) : Option (Nat × Team × Nat) :=
  (s.teams.filter fun kt => kt.2.core == c && kt.2.phase.isResident && kt.2.ctx == (s.core c).accown).findSome? fun kt =>
    let T := kt.2
    if T.accBase ≤ n ∧ n < T.accBase + T.accs ∧ n < 64 then some (kt.1, T, n - T.accBase)
    else if 64 + T.abufBase ≤ n ∧ n < 64 + T.abufBase + T.abufs ∧ n < 72 then some (kt.1, T, 512 + (n - 64 - T.abufBase))
    else if 72 + T.bslotBase ≤ n ∧ n < 72 + T.bslotBase + T.bslots then some (kt.1, T, 1024 + (n - 72 - T.bslotBase))
    else none

/-! ## Stamps (R417, R418) -/

/-- A duration of a record: it saturates. -/
def sat32 (n : Nat) : Nat := min n 0xFFFFFFFF

/-- A record opens. -/
def Team.openStamp (T : Team) (sel now : Nat) (restored : Bool) : Team :=
  { T with
    stampSeq := T.stampSeq + 1
    stamps := tput sel { seq := T.stampSeq, tile := BitVec.ofNat 16 sel, opened := now, restored := restored } T.stamps }

/-- The open record of a tile changes. -/
def State.modStamp (s : State) (c n : Nat) (f : Stamp → Stamp) : State :=
  match s.tileTeam? c n with
  | none => s
  | some (k, _, sel) => s.modTeam k fun T => match tget? sel T.stamps with
    | some r => { T with stamps := tput sel (f r) T.stamps }
    | none => T

/-- The 32 bytes of a record that completes, with its fill, wait and compute cycles. -/
def Stamp.finish (r : Stamp) (reason now : Nat) : List Byte × Nat × Nat × Nat :=
  let fill := match r.fillAt with
    | some f => r.fill + (now - f)
    | none => r.fill
  let left := r.drainAt.getD now
  let wait := match r.readyAt with
    | some a => r.firstUse.getD left - a
    | none => 0
  let compute := match r.firstStart, r.lastDone with
    | some a, some b => b - a
    | _, _ => 0
  let drain := match r.drainAt with
    | some d => now - d
    | none => 0
  let sat := decide (0xFFFFFFFF < fill) || decide (0xFFFFFFFF < wait) || decide (0xFFFFFFFF < compute) ||
    decide (0xFFFFFFFF < drain)
  let flags := (if sat then 1 else 0) + if r.restored then 2 else 0
  (toBytes 4 r.seq.toNat ++ toBytes 2 r.tile.toNat ++ toBytes 1 reason ++ toBytes 1 flags ++ toBytes 8 r.opened ++
    toBytes 4 (sat32 fill) ++ toBytes 4 (sat32 wait) ++ toBytes 4 (sat32 compute) ++ toBytes 4 (sat32 drain),
    sat32 fill, sat32 wait, sat32 compute)

/-- The write of a record finds its way closed, at a full queue, an atomic at the host, or a stopped channel: it would wait there, and the
model takes its wait to pass T_hold (R418; DESIGN CHOICE, log 3). -/
def State.recordWaits (s : State) (c pa : Nat) : Bool :=
  s.lineBusy pa || s.egressBlocked pa ||
    (s.viaQueues && (s.routeFrom (dieOf c) (some pa)).any fun q => !s.admits q (agentNumber 0 c))

/-- A record completes: it is written where the team has stamps and its page is RESIDENT, writable and can be reached, else dropped. -/
def State.closeStamp (s : State) (c n reason : Nat) : State :=
  match s.tileTeam? c n with
  | none => s
  | some (k, T, sel) =>
    match tget? sel T.stamps with
    | none => s
    | some r =>
      let f := r.finish reason s.clock
      let s := s.modTeam k fun T => { T with stamps := tdel sel T.stamps }
      let va := T.stampBase.toNat + 2048 * T.index + 32 * (r.seq.toNat % 64)
      let s := match s.leaf? c T.ctx va with
        | some e =>
          let pa := e.phys (s.ctx T.ctx).swaps va
          if T.stampBase ≠ 0 ∧ pteSt e.pte = 1 ∧ pteW e.pte ∧ !s.unreachable pa ∧ !s.recordWaits c pa then (s.storeAt (dieOf c) pa f.1 false).1 else s
        | none => s
      s.tapTeam T 8 sel f.2.1 f.2.2.1 f.2.2.2

/-! ## Changes of state (R306, R307) -/

/-- A tile becomes EMPTY: zeroed, unbound, its record complete. -/
def State.emptyTile (s : State) (c n reason : Nat) : State :=
  if ((s.core c).tile n).state = .empty then s.modCore c fun C => C.modTile n fun t => { t with fill := none }
  else (s.closeStamp c n reason).modCore c fun C => C.modTile n fun _ => {}

/-- A record opens for a tile that leaves EMPTY. -/
def State.openTile (s : State) (c n : Nat) (restored : Bool) : State :=
  match s.tileTeam? c n with
  | some (k, _, sel) => s.modTeam k fun T => T.openStamp sel s.clock restored
  | none => s

/-- An EMPTY tile becomes READY at acceptance (R306, R307). -/
def State.readyTile (s : State) (c n : Nat) : State :=
  if ((s.core c).tile n).state = .empty then
    ((s.openTile c n false).modStamp c n fun r => { r with readyAt := some s.clock }).modCore c fun C =>
      C.modTile n fun t => { t with state := .ready }
  else s

/-- A fill is taken on an EMPTY tile, with its binding. -/
def State.fillTile (s : State) (c n id : Nat) (cb : Option (BitVec 3)) : State :=
  ((s.openTile c n false).modStamp c n fun r => { r with fillAt := some s.clock }).modCore c fun C =>
    C.modTile n fun t => { t with state := .filling, fill := some id, cb := cb }

/-- The fill of a tile has written every byte. -/
def State.filledTile (s : State) (c n : Nat) (data : List Host.Cell) : State :=
  (s.modStamp c n fun r =>
    { r with fill := r.fill + (s.clock - r.fillAt.getD s.clock), fillAt := none, readyAt := some s.clock }).modCore c fun C =>
      C.modTile n fun t => { t with state := .ready, dirty := true, fill := none, data := data }

/-- A READY tile drains. -/
def State.drainTile (s : State) (c n reason : Nat) (fill : Option Nat) : State :=
  (s.modStamp c n fun r => { r with drainAt := some s.clock }).modCore c fun C =>
    C.modTile n fun t => { t with state := .draining, reason := reason, fill := fill }

/-- Tiles that an accepted operation reads or writes. -/
def SeqOp.tiles (o : SeqOp) : List Nat := o.acc.toList ++ o.src.toList ++ o.abuf.toList ++ o.bslot.toList

/-- A DRAINING tile that no accepted operation names becomes EMPTY, or FILLING for a TLDA. -/
def State.settleTile (s : State) (c n : Nat) : State :=
  let C := s.core c
  let t := C.tile n
  if t.state = .draining ∧ !(C.seq.any fun o => o.tiles.contains n) then
    match t.fill with
    | some id =>
      match C.fills.find? fun f => f.id == id with
      | some f => (s.emptyTile c n t.reason).fillTile c n id f.cb
      | none => s.emptyTile c n t.reason
    | none => s.emptyTile c n t.reason
  else s

/-- Every DRAINING tile of a core is looked at. -/
def State.settleTiles (s : State) (c : Nat) : State :=
  (s.core c).tiles.foldl (fun s x => s.settleTile c x.1) s

/-! ## Errors in storage (R316, R405) -/

/-- A single-bit error in the data of a tile that is read is corrected, with its Yarrow event. -/
def State.correctTile (s : State) (c n : Nat) : State :=
  if !((s.core c).tile n).soft then s
  else
    let kind := if n < 64 then 0 else if n < 72 then 1 else 2
    (s.tap (dieOf c) { source := 23, ctx := (s.core c).accown, core := c, clock := s.clock, p0 := BitVec.ofNat 32 kind
                       p1 := BitVec.ofNat 32 (if n < 64 then n else if n < 72 then n - 64 else n - 72) }).modCore c fun C =>
      C.modTile n fun t => { t with soft := false }

/-- The first of some tiles whose entry of the tile table holds an uncorrectable error. -/
def State.badEntry? (s : State) (c : Nat) (l : List Nat) : Option Nat := l.find? fun n => ((s.core c).tile n).badEntry

/-- Such an error is fatal for the team that holds the tile. -/
def State.fatalEntry (s : State) (k i n : Nat) : State :=
  match s.team? k, s.thread? k i with
  | some _, some t => s.fatal k i 0x81 (s.trapPc t) 0 (BitVec.ofNat 64 n)
  | _, _ => s

/-! ## The examination at issue (R308) -/

/-- A posted CPYT of the team that no engine has taken names this tile. -/
def Team.ringFill (T : Team) (n : Nat) : Bool :=
  let take := T.notify 4
  (List.range (min ((T.kickLimit + 2 ^ 32 - take) % 2 ^ 32) T.ringLen)).any fun j =>
    let o := 32 * ((take + j) % T.ringLen)
    let e := getBytes T.ring o 32
    field e 0 1 == 3 && T.selected? (BitVec.ofNat 32 (field e 16 4)) == some n && selKind (BitVec.ofNat 32 (field e 16 4)) != 0

/-- A fill of an EMPTY tile is pending. -/
def State.fillPending (s : State) (k : Nat) (T : Team) (n : Nat) : Bool :=
  ((s.core T.core).tile n).fill.isSome || T.ringFill n ||
    s.cmds.any fun c => c.team == k && c.tile == some n && !c.moved && c.err.isNone

/-- The outcome for one tile. -/
inductive Exam where
  | go
  | await (n : Nat)
  | trap (cause : BitVec 8)
  deriving DecidableEq, Repr

/-- A tile that is EMPTY with a fill pending is waited for, whatever the entry admits (R308, R344). -/
def State.examine1 (s : State) (k : Nat) (T : Team) (n : Nat) (empty poison : Bool) : Exam :=
  match ((s.core T.core).tile n).state with
  | .ready => .go
  | .filling | .draining => .await n
  | .poisoned => if poison then .go else .trap 0x0F
  | .empty => if s.fillPending k T n then .await n else if empty then .go else .trap 0x0E

/-- Several tiles, in operand order: the first that does not go decides. -/
def State.examineAll (s : State) (k : Nat) (T : Team) : List (Nat × Bool × Bool) → Exam
  | [] => .go
  | x :: r =>
    match s.examine1 k T x.1 x.2.1 x.2.2 with
    | .go => s.examineAll k T r
    | .await n => .await n
    | .trap c => .trap c

/-! ## What every tile instruction meets first (R94, R319) -/

/-- TILES = 0 traps PRIVILEGE; a context that does not own the core's tiles asks for the transfer, and issues again after it. -/
def State.tileInstr (s : State) (f : Nat → Team → State) : State :=
  match s.issuing? with
  | none => s
  | some T =>
    if !(s.ctx T.ctx).desc.tiles then s.onLanes fun _ _ _ => .trap { cause := 0x04 }
    else if (s.core T.core).accown ≠ T.ctx then
      (s.modCore T.core fun c => { c with wants := some T.ctx }).onLanes fun _ _ _ => .wait .transfer
    else f s.issue.team T

/-- Every lane traps. -/
def State.trapAll (s : State) (cause : BitVec 8) : State := s.onLanes fun _ _ _ => .trap { cause := cause }

/-- The row of a lane (R169, R314): all rows, or those of the lanes in active. -/
def State.rowMask (s : State) (all : Bool) : List Nat :=
  if all then List.range 32 else (List.range 32).filter fun r => s.lanes.any fun x => laneOf x.1 == r

/-! ## Acceptance (R310, R311) -/

/-- An operation is accepted: each lane's cnt.tl rises, its destinations wait for the operation, the lane goes on. -/
def State.accept (s : State) (o : SeqOp) : State :=
  match s.issuing? with
  | none => s
  | some T =>
    let o := { o with id := s.fresh, team := s.issue.team, tids := s.issue.tids }
    let s := { s with fresh := s.fresh + 1 }.modCore T.core fun c => { c with seq := c.seq ++ [o] }
    let s := o.tiles.foldl (fun s n => s.modStamp T.core n fun r =>
      { r with firstUse := if r.firstUse.isNone then some s.clock else r.firstUse }) s
    let width := match o.op with
      | .trd _ => 4
      | .mma _ _ | .mmai _ _ | .zero | .twr _ | .rowsum | .rowssq | .rowmax | .rowmul _ | .rowadd _ | .cvt _ _ | .scale _ _
      | .cbld _ _ => 1
    s.onLanes fun _ i t =>
      let t1 := { t.next with cntTl := t.cntTl + 1 }
      .done (match o.dest.find? fun x => x.1 == i with
        | some x => { t1 with pendRegs := (List.range width).foldl (fun l j => tput (x.2 + j) o.id l) t1.pendRegs }
        | none => t1)

/-- An instruction of the sequencer: the names, ownership, the tiles, then what the instruction itself asks, then a free
place; then ready marks tiles and the operation is accepted. -/
def State.tileOp (s : State) (k : Nat) (T : Team) (owner : Bool) (tiles : Option (List (Nat × Bool × Bool)))
    (unbound : Bool) (mark : State → State) (o : SeqOp) (after : State → State) : State :=
  match tiles with
  | none => s.trapAll 0x06
  | some l =>
    if owner && (s.core T.core).owner != some k then s.trapAll 0x10
    else
      match s.badEntry? T.core (l.map fun x => x.1) with
      | some n => s.fatalEntry k (s.issue.tids.headD 0) n
      | none =>
        match s.examineAll k T l with
        | .trap c => s.trapAll c
        | .await n => s.onLanes fun _ _ _ => .wait (.tile n)
        | .go =>
          if unbound then s.trapAll 0x11
          else if 8 ≤ (s.core T.core).seq.length ∨ (s.lanes.any fun x => decide (30 ≤ x.2.cntTl)) then
            s.onLanes fun _ _ _ => .wait .sequencer
          else after ((mark s).accept o)

/-! ## The passing of the engine (R313, R320) -/

/-- The threads of a team that wait in MXACQ get a code and become READY. -/
def State.wakeEngine (s : State) (k : Nat) (code : Word) : State :=
  match s.team? k with
  | none => s
  | some T =>
    let who := (T.threads.zipIdx.filter fun x => match x.1.status with
      | .waiting (.engine _) => true
      | .ready | .waiting _ | .parked | .watching _ _ _ | .sleeping _ | .exited => false).map fun x => x.2
    (s.modTeam k fun T => { T with threads := T.threads.map fun t => match t.status with
      | .waiting (.engine p) => t.putAt p code
      | .ready | .waiting _ | .parked | .watching _ _ _ | .sleeping _ | .exited => t }).releaseGroups k who

/-- A team becomes the owner. -/
def State.ownEngine (s : State) (c k since : Nat) : State :=
  let s := s.modCore c fun C => { C with owner := some k }
  let s := match s.team? k with
    | some T => s.tapTeam T 32 T.slot (s.clock - since) (s.core c).ownerQueue.length 0
    | none => s
  s.wakeEngine k 0

/-- The owner releases the engine: the first queued team becomes the owner. -/
def State.passEngine (s : State) (c : Nat) : State :=
  match (s.core c).ownerQueue with
  | [] => s.modCore c fun C => { C with owner := none }
  | x :: r => (s.modCore c fun C => { C with ownerQueue := r }).ownEngine c x.1 x.2

end Sys2Proof.Machine
end

