-- ==== Sys2Proof/Machine/TileOps.lean ====
section
/-! DEFINITION. The instructions of majors 0x60 to 0x6B (R318 to R330). -/

namespace Sys2Proof.Machine

/-! ## MXACQ and MXREL (R320) -/

def execMxacq (d : BitVec 7) (s : State) : Result :=
  .next (s.tileInstr fun k _ => s.eachLane fun s i t =>
    match s.issuing? with
    | none => (s, none)
    | some T =>
      let C := s.core T.core
      if T.accs = 0 ∧ T.abufs = 0 ∧ T.bslots = 0 then (s, some { cause := 0x06 })
      else if C.owner = some k then (s.setThread i (t.setG d 0).next, none)
      else if C.owner = none ∧ C.ownerQueue = [] then
        ((s.setThread i (t.setG d 0).next).ownEngine T.core k s.clock, none)
      else
        let queued := C.ownerQueue.any fun x => x.1 == k
        if !queued && decide (13 ≤ C.ownerQueue.length) then (s.setThread i (t.setG d 2).next, none)
        else
          let s := if queued then s else s.modCore T.core fun c => { c with ownerQueue := c.ownerQueue ++ [(k, s.clock)] }
          (s.setThread i (t.next.wait (.engine (t.pos d))), none))

def execMxrel (d : BitVec 7) (s : State) : Result :=
  .next (s.tileInstr fun k _ => s.eachLane fun s i t =>
    match s.issuing? with
    | none => (s, none)
    | some T =>
      let C := s.core T.core
      if C.owner = some k then ((s.setThread i (t.setG d 0).next).passEngine T.core, none)
      else if C.ownerQueue.any fun x => x.1 == k then
        let s := s.modCore T.core fun c => { c with ownerQueue := c.ownerQueue.filter fun x => x.1 != k }
        ((s.setThread i (t.setG d 1).next).wakeEngine k 3, none)
      else (s.setThread i (t.setG d 2).next, none))

/-! ## TMMA, TMMAI, TZERO -/

/-- The three tiles of a product, in operand order; with fl1 the acc may be EMPTY. -/
def Team.mmaTiles (T : Team) (acc : BitVec 6) (abuf : BitVec 3) (bslot : BitVec 9) (zero : Bool) :
    Option (List (Nat × Bool × Bool)) :=
  match T.accTile? acc.toNat, T.abufTile? abuf.toNat, T.bslotTile? bslot.toNat with
  | some x, some y, some z => some [(x, zero, false), (y, false, false), (z, false, false)]
  | _, _, _ => none

/-- A product: one operation for the bundle. -/
def State.mma (s : State) (acc : BitVec 6) (abuf : BitVec 3) (bslot : BitVec 9) (op : TileOp) (cb4 free zero all : Bool) :
    State :=
  s.tileInstr fun k T =>
    let x := T.accBase + acc.toNat
    let y := 64 + T.abufBase + abuf.toNat
    let z := 72 + T.bslotBase + bslot.toNat
    let C := s.core T.core
    let slots := match (C.tile y).cb, (C.tile z).cb with
      | some p, some q => some (p.toNat, q.toNat)
      | _, _ => none
    let o : SeqOp := { id := 0, team := k, tids := [], rows := s.rowMask all, op := op, acc := some x, abuf := some y
                       bslot := some z, slots := if cb4 then slots else none, free := free }
    s.tileOp k T true (T.mmaTiles acc abuf bslot zero) (cb4 && slots.isNone) (fun s => s.readyTile T.core x) o
      fun s => if free then s.drainTile T.core y 1 none else s

def execTmma (acc : BitVec 6) (abuf : BitVec 3) (bslot : BitVec 9) (f : TFmt) (free zero all : Bool) (s : State) : Result :=
  .next (s.mma acc abuf bslot (.mma f zero) (f == .cb4) free zero all)

def execTmmai (acc : BitVec 6) (abuf : BitVec 3) (bslot : BitVec 9) (f : TIFmt) (free zero all : Bool) (s : State) : Result :=
  .next (s.mma acc abuf bslot (.mmai f zero) false free zero all)

/-- A POISONED acc becomes READY at the acceptance of a TZERO of all rows; its error goes when that has written the rows. -/
def State.unpoison (s : State) (c n : Nat) : State :=
  s.modCore c fun C => C.modTile n fun t => if t.state = .poisoned then { t with state := .ready } else t

def execTzero (acc : BitVec 6) (all : Bool) (s : State) : Result :=
  .next (s.tileInstr fun k T =>
    let x := T.accBase + acc.toNat
    s.tileOp k T true ((T.accTile? acc.toNat).map fun n => [(n, true, all)]) false
      (fun s => (s.readyTile T.core x).unpoison T.core x)
      { id := 0, team := k, tids := [], rows := s.rowMask all, op := .zero, acc := some x } fun s => s)

/-! ## TACC -/

/-- The register operand of TRD and TWR names a group of four columns. -/
def quadOf (v : Word) : Nat := (v.extractLsb' 0 3).toNat

/-- A TACC form on the rows of the lanes. -/
def State.tacc (s : State) (acc : BitVec 6) (empty : Bool) (op : List (Nat × Thread) → TileOp)
    (dest : Option (BitVec 7)) : State :=
  s.tileInstr fun k T =>
    let x := T.accBase + acc.toNat
    let dests := match dest with
      | some d => s.lanes.map fun y => (y.1, y.2.pos d)
      | none => []
    s.tileOp k T true ((T.accTile? acc.toNat).map fun n => [(n, empty, false)]) false (fun s => s.readyTile T.core x)
      { id := 0, team := k, tids := [], rows := s.rowMask false, op := op s.lanes, acc := some x, dest := dests } fun s => s

def execTrd (d : BitVec 7) (acc : BitVec 6) (b : BitVec 7) (s : State) : Result :=
  .next (s.tacc acc false (fun ls => .trd (ls.map fun x => (laneOf x.1, quadOf (x.2.g b)))) (some d))

def execTwr (d : BitVec 7) (acc : BitVec 6) (b : BitVec 7) (s : State) : Result :=
  .next (s.tacc acc true (fun ls => .twr (ls.map fun x =>
    (laneOf x.1, quadOf (x.2.g b), (List.range 4).map fun j => x.2.at (x.2.pos d + j)))) none)

def execTrowsum (d : BitVec 7) (acc : BitVec 6) (s : State) : Result := .next (s.tacc acc false (fun _ => .rowsum) (some d))
def execTrowssq (d : BitVec 7) (acc : BitVec 6) (s : State) : Result := .next (s.tacc acc false (fun _ => .rowssq) (some d))
def execTrowmax (d : BitVec 7) (acc : BitVec 6) (s : State) : Result := .next (s.tacc acc false (fun _ => .rowmax) (some d))

/-- The value that each row gets from its lane. -/
def rowValues (ls : List (Nat × Thread)) (b : BitVec 7) : List (Nat × Word) :=
  ls.foldl (fun l x => tput (laneOf x.1) (x.2.g b) l) []

def execTrowmul (acc : BitVec 6) (b : BitVec 7) (s : State) : Result :=
  .next (s.tacc acc false (fun ls => .rowmul (rowValues ls b)) none)
def execTrowadd (acc : BitVec 6) (b : BitVec 7) (s : State) : Result :=
  .next (s.tacc acc false (fun ls => .rowadd (rowValues ls b)) none)

/-! ## TCVT and TSCALE -/

/-- TCVT: the buffer is unbound from acceptance on (R309). -/
def execTcvt (acc : BitVec 6) (abuf : BitVec 3) (q : BitVec 2) (f : TFmt) (all : Bool) (s : State) : Result :=
  .next (s.tileInstr fun k T =>
    let x := T.accBase + acc.toNat
    let y := 64 + T.abufBase + abuf.toNat
    let names := match T.accTile? acc.toNat, T.abufTile? abuf.toNat with
      | some n, some m => some [(m, true, false), (n, false, false)]
      | _, _ => none
    s.tileOp k T true names false
      (fun s => (s.readyTile T.core y).modCore T.core fun C => C.modTile y fun t => { t with cb := none })
      { id := 0, team := k, tids := [], rows := s.rowMask all, op := .cvt f q.toNat, acc := some x, abuf := some y } fun s => s)

def execTscale (accD accS : BitVec 6) (b : BitVec 7) (s : State) : Result :=
  .next (s.tileInstr fun k T =>
    let names := match T.accTile? accD.toNat, T.accTile? accS.toNat with
      | some n, some m => some [(n, false, false), (m, false, false)]
      | _, _ => none
    let sb := match leader? s.lanes with
      | some x => (List.range 8).map fun j => x.2.at (x.2.pos b + j)
      | none => []
    let sa := s.lanes.foldl (fun l x => tput (laneOf x.1) (x.2.at (x.2.pos b + 8)) l) []
    s.tileOp k T true names false (fun s => s)
      { id := 0, team := k, tids := [], rows := s.rowMask false, op := .scale sb sa, acc := some (T.accBase + accD.toNat)
        src := some (T.accBase + accS.toNat) } fun s => s)

/-! ## CBLD -/

def execCbld (cb : BitVec 3) (a : BitVec 7) (s : State) : Result :=
  .next (s.tileInstr fun k T =>
    let data := match leader? s.lanes with
      | some x => (List.range 8).flatMap fun j => toBytes 4 (x.2.at (x.2.pos a + j)).toNat
      | none => []
    s.tileOp k T false (some []) false (fun s => s) { id := 0, team := k, tids := [], rows := [], op := .cbld cb data }
      fun s => s)

/-! ## TLDA, TSTATE, TREL -/

/-- The first block of an image that traps, and whether each block is resident (R327). -/
def State.checkBlocks (s : State) (T : Team) (ea : Nat) : Nat → Nat → State × Option TrapReq × List Bool
  | 0, _ => (s, none, [])
  | n + 1, j =>
    let va : DWord := BitVec.ofNat 64 (ea + 256 * j)
    match s.check T va 256 .load false true with
    | (s, .trap c) => (s, some { cause := c, addr := va }, [])
    | (s, .ring _) => (s, some { cause := 0x06, addr := va }, [])
    | (s, .absent _) =>
      let x := s.checkBlocks T ea n (j + 1)
      (x.1, x.2.1, false :: x.2.2)
    | (s, .ok _ _) =>
      let x := s.checkBlocks T ea n (j + 1)
      (x.1, x.2.1, true :: x.2.2)

/-- TLDA in one lane: it reads after the thread's older accesses (R315). -/
def State.tlda (s : State) (k i : Nat) (T : Team) (t : Thread) (ea : DWord) (v : Word) : State × Option TrapReq :=
  match T.selected? v with
  | none => (s, some { cause := 0x06 })
  | some n =>
    if ea.toNat % 256 ≠ 0 then (s, some { cause := 0x05, addr := ea })
    else if ((s.core T.core).tile n).badEntry then (s.fatalEntry k i n, none)
    else if s.mustWalk T t ea false then (s.threadWalk k i T ea, none)
    else
      match s.checkBlocks T ea.toNat (tileSize n / 256) 0 with
      | (s, some r, _) => (s, some r)
      | (s, none, blocks) =>
        let old := (T.reqsOf i).map fun r => r.id
        match s.examine1 k T n true false with
        | .trap c => (s, some { cause := c })
        | .await m => (s.modThread k i fun t => t.wait (.tile m), none)
        | .go =>
          if 30 ≤ t.cntTl then (s.modThread k i fun t => t.wait .sequencer, none)
          else if !old.isEmpty then (s.modThread k i fun t => t.wait (.older old), none)
          else
            let id := s.fresh
            let cb := if selKind v = 0 then none else selBind v
            let f : Fill := { id := id, team := k, tid := i, core := T.core, tile := n, src := ea, cb := cb, blocks := blocks }
            let s := { s with fresh := id + 1 }.modCore T.core fun c => { c with fills := c.fills ++ [f] }
            let s := s.modThread k i fun t => { (t.setP 7 (blocks.all fun b => b)).next with cntTl := t.cntTl + 1 }
            match ((s.core T.core).tile n).state with
            | .ready => ((s.drainTile T.core n 5 (some id)).settleTile T.core n, none)
            | .empty | .filling | .draining | .poisoned => (s.fillTile T.core n id cb, none)

def execTlda (a b : BitVec 7) (s : State) : Result :=
  .next (s.tileInstr fun k _ => s.lanesInOrder fun s i t =>
    match s.issuing? with
    | none => (s, none)
    | some T => s.tlda k i T t (t.gx a) (t.g b))

/-- The code of a tile state (R328). -/
def TState.code : TState → Word
  | .empty => 0 | .filling => 1 | .ready => 2 | .draining => 3 | .poisoned => 4

/-- The word of TSTATE. -/
def State.tileWord (s : State) (k : Nat) (T : Team) (v : Word) : Word :=
  match T.selected? v with
  | none => 0xFFFFFFFF
  | some n =>
    let C := s.core T.core
    let t := C.tile n
    let pend := T.ringFill n || match t.state with
      | .empty => s.fillPending k T n
      | .draining => t.fill.isSome
      | .filling | .ready | .poisoned => false
    (if C.owner = some k then 0x200#32 else 0) ||| (if t.cb.isSome then 0x100#32 else 0) |||
      ((t.cb.getD 0).setWidth 32 <<< 5) ||| (if t.dirty then 0x10#32 else 0) ||| (if pend then 8#32 else 0) ||| t.state.code

def execTstate (d a : BitVec 7) (s : State) : Result :=
  .next (s.tileInstr fun k T =>
    match (s.lanes.filterMap fun x => T.selected? (x.2.g a)).find? fun n => ((s.core T.core).tile n).badEntry with
    | some n => s.fatalEntry k (s.issue.tids.headD 0) n
    | none => s.onLanes fun _ _ t => .done (t.setG d (s.tileWord k T (t.g a))).next)

/-- A POISONED acc is given up: the operations already accepted that name it write nothing any more (R306, R316). -/
def State.giveUp (s : State) (c n : Nat) : State :=
  let out (m : Option Nat) : Option Nat := if m = some n then none else m
  (s.emptyTile c n 0).modCore c fun C =>
    { C with seq := C.seq.map fun o =>
        if o.tiles.contains n then { o with errs := o.errs ++ [1], acc := out o.acc, src := out o.src } else o }

/-- A tile drains for a TREL of a thread. -/
def State.freedTile (s : State) (c n k i : Nat) : State := s.modCore c fun C => C.modTile n fun t => { t with freedBy := some (k, i) }

/-- TREL: the lanes act one at a time (R329). -/
def execTrel (a : BitVec 7) (s : State) : Result :=
  .next (s.tileInstr fun k _ => s.eachLane fun s i t =>
    match s.issuing? with
    | none => (s, none)
    | some T =>
      match T.selected? (t.g a) with
      | none => (s, some { cause := 0x06 })
      | some n =>
        if ((s.core T.core).tile n).badEntry then (s.fatalEntry k i n, none)
        else
        match ((s.core T.core).tile n).state with
        | .ready => ((((s.setThread i t.next).drainTile T.core n 0 none).freedTile T.core n k i).settleTile T.core n, none)
        | .poisoned => ((s.setThread i t.next).giveUp T.core n, none)
        | .empty =>
          if s.fillPending k T n then (s.setThread i (t.wait (.tile n)), none) else (s.setThread i t.next, none)
        | .filling | .draining => (s.setThread i (t.wait (.tile n)), none))

end Sys2Proof.Machine
end

