-- ==== Sys2Proof/Machine/TileEvents.lean ====
section
/-! DEFINITION. The events of the matrix sequencer and of fills (R307, R310, R316, R327, R344), and the transfer of a core's
tiles between contexts (R94, R95, R331, R332). -/

namespace Sys2Proof.Machine

/-! ## Dependences (R310) -/

/-- What an operation writes: tiles by number, codebook n as 1000 + n. -/
def SeqOp.writes (o : SeqOp) : List Nat :=
  match o.op with
  | .mma _ _ | .mmai _ _ | .zero | .twr _ | .rowmul _ | .rowadd _ | .scale _ _ => o.acc.toList
  | .cvt _ _ => o.abuf.toList
  | .cbld n _ => [1000 + n.toNat]
  | .trd _ | .rowsum | .rowssq | .rowmax => []

/-- What an operation reads or writes. -/
def SeqOp.touches (o : SeqOp) : List Nat :=
  o.tiles ++ o.writes ++ match o.slots with
    | some (a, b) => [1000 + a, 1000 + b]
    | none => []

def SeqOp.isProduct (o : SeqOp) : Bool :=
  match o.op with
  | .mma _ _ | .mmai _ _ => true
  | .zero | .trd _ | .twr _ | .rowsum | .rowssq | .rowmax | .rowmul _ | .rowadd _ | .cvt _ _ | .scale _ _ | .cbld _ _ => false

/-- An operation may start after those older ones that have not completed, the last of them directly before it: only a product
that writes the acc of the product directly before it chains past it. -/
def SeqOp.free? (o : SeqOp) (older : List SeqOp) : Bool :=
  let clash (p : SeqOp) : Bool := p.writes.any fun x => o.touches.contains x
  match older.getLast? with
  | none => true
  | some p =>
    !(older.dropLast.any clash) && (!clash p || (o.isProduct && p.isProduct && p.acc == o.acc && o.acc.isSome))

/-- The next operation to start: the first that has not started, with those accepted before it. -/
def nextStart : List SeqOp → List SeqOp → Option (SeqOp × List SeqOp)
  | _, [] => none
  | older, o :: r => if o.startedAt.isNone then some (o, older) else nextStart (older ++ [o]) r

/-- The sequencer of a core can start an operation. -/
def Core.canStart (c : Core) : Bool :=
  match nextStart [] c.seq with
  | some (o, older) => o.free? older
  | none => false

/-! ## Start and completion -/

/-- An operation starts: it takes its operands and codebooks as they stand (R321), and an error in them (R316). -/
def State.startOp (s : State) (c : Nat) (o : SeqOp) : State :=
  let C := s.core c
  let tile (n : Option Nat) : Tile := match n with
    | some n => C.tile n
    | none => {}
  let a := tile o.abuf
  let b := tile o.bslot
  let product := o.isProduct
  let slotBad := match o.slots with
    | some (x, y) => C.cbBad.contains x || C.cbBad.contains y
    | none => false
  let o1 : SeqOp := { o with
    startedAt := some s.clock
    opA := if product then a.data else []
    opB := if product then b.data else []
    cbA := match o.slots with
      | some (x, _) => C.codebook x
      | none => []
    cbB := match o.slots with
      | some (_, y) => C.codebook y
      | none => []
    errs := o.errs ++ (if product && a.bad then [2] else []) ++ (if product && b.bad then [3] else []) ++
      if slotBad then [4] else [] }
  let s := s.modCore c fun C => { C with seq := C.seq.map fun p => if p.id == o.id then o1 else p }
  let s := if product then (o.abuf.toList ++ o.bslot.toList).foldl (fun s n => s.correctTile c n) s else s
  let s := match s.team? o.team with
    | some T => s.modCore c fun C =>
        { C with tileGrids := (C.tileGrids.filter fun g => !(g.1 == T.ctx && g.2.1 == T.gid)) ++ [(T.ctx, T.gid, s.clock)] }
    | none => s
  o.tiles.foldl (fun s n => s.modStamp c n fun r =>
    { r with firstStart := if r.firstStart.isNone then some s.clock else r.firstStart }) s

def execTileOpStart (c : Nat) (s : State) : Result :=
  .next (match nextStart [] (s.core c).seq with
  | some (o, older) => if o.free? older then s.startOp c o else s
  | none => s)

/-- What a completed operation leaves: the acc, the buffer, the registers of threads with their flags, the team's flags. -/
structure TileResult where
  acc : List Host.Cell
  abuf : List Host.Cell := []
  regs : List (Nat × Nat × List Word × Flags) := []
  flags : TFlags := {}
  deriving DecidableEq, Repr

/-- The reductions: each destination gets the value of its lane's row. -/
def reduceRows (o : SeqOp) (acc : List Host.Cell) (f : List Word → FRes) : TileResult :=
  { acc := acc, regs := o.dest.map fun x =>
      let r := f (accRow acc (laneOf x.1))
      (x.1, x.2, [r.1], r.2) }

/-- The effect of an operation on tile contents and registers (R321 to R325). -/
def SeqOp.result (o : SeqOp) (acc src abuf : List Host.Cell) : TileResult :=
  match o.op with
  | .mma f z =>
    let r := tmmaRows f z o.opA o.opB o.cbA o.cbB o.rows acc
    { acc := r.1, flags := r.2 }
  | .mmai f z => { acc := tmmaiRows f z o.opA o.opB o.rows acc }
  | .zero => { acc := tzeroRows o.rows acc }
  | .trd cols =>
    { acc := acc, regs := (o.dest.zip cols).map fun x =>
        (x.1.1, x.1.2, ((accRow acc x.2.1).drop (4 * x.2.2)).take 4, 0) }
  | .twr vals => { acc := vals.foldl (fun a v => putAcc a v.1 (4 * v.2.1) v.2.2) acc }
  | .rowsum => reduceRows o acc rowSum
  | .rowssq => reduceRows o acc rowSsq
  | .rowmax => reduceRows o acc rowMax
  | .rowmul vals =>
    let r := rowOp true vals acc
    { acc := r.1, flags := r.2 }
  | .rowadd vals =>
    let r := rowOp false vals acc
    { acc := r.1, flags := r.2 }
  | .cvt f q =>
    let r := tcvtRows f q acc o.rows abuf
    { acc := acc, abuf := r.1, flags := ⟨false, r.2, false⟩ }
  | .scale sb sa =>
    let r := tscaleRows sb sa src acc
    { acc := r.1, flags := r.2 }
  | .cbld _ _ => { acc := acc }

/-- The operation reads its acc. -/
def SeqOp.readsAcc (o : SeqOp) : Bool :=
  match o.op with
  | .mma _ z | .mmai _ z => !z
  | .zero | .twr _ | .cbld _ _ => false
  | .trd _ | .rowsum | .rowssq | .rowmax | .rowmul _ | .rowadd _ | .cvt _ _ | .scale _ _ => true

/-- An operation rewrites every byte of its acc. -/
def SeqOp.rewrites (o : SeqOp) : Bool :=
  o.rows.length == 32 && match o.op with
    | .zero => true
    | .mma _ z | .mmai _ z => z
    | .trd _ | .twr _ | .rowsum | .rowssq | .rowmax | .rowmul _ | .rowadd _ | .cvt _ _ | .scale _ _ | .cbld _ _ => false

/-- An acc becomes POISONED (R307, R316). The error stays in it, for the operations that read it next. One for which a TZERO of all rows has
been accepted since is READY already. -/
def State.poisonAcc (s : State) (c n : Nat) : State :=
  let zeroed := (s.core c).seq.any fun o => o.op == .zero && o.acc == some n && o.rewrites
  let s := if zeroed then s else s.modCore c fun C => C.modTile n fun t => if t.state = .ready then { t with state := .poisoned } else t
  match s.tileTeam? c n with
  | some (_, T, sel) => s.tapTeam T 25 sel 0 0 T.slot
  | none => s

/-- An operand buffer with an error becomes EMPTY, unless an earlier reader's error has emptied it already; one that drains does so when its
last reader has completed (R307). A reader accepted before meets the error as well (DEDUCED, log 87): code is that of the operand. -/
def State.dropOperand (s : State) (c n code : Nat) : State :=
  let t := (s.core c).tile n
  if !t.bad then s
  else
    let s := s.modCore c fun C =>
      { C with seq := C.seq.map fun o =>
          if o.abuf = some n ∨ o.bslot = some n then { o with errs := addNew o.errs [code] } else o }
    if t.state = .draining then s else s.emptyTile c n 2

/-- The slots of an operation that hold an error are rewritten with zeros. -/
def State.zeroSlots (s : State) (c : Nat) (o : SeqOp) : State :=
  match o.slots with
  | some (a, b) => s.modCore c fun C =>
      { C with codebooks := (C.codebooks.filter fun x => !(C.cbBad.contains x.1 && (x.1 == a || x.1 == b)))
               cbBad := C.cbBad.filter fun n => n != a && n != b, cbWritten := true }
  | none => s

/-- An uncorrectable error that an operation met (R316): no register result, no tile result; each operand in error takes its own
course. -/
def State.opError (s : State) (c : Nat) (o : SeqOp) (srcErr : Bool) : State :=
  let poison (s : State) (n : Option Nat) : State := match n with
    | some n => s.poisonAcc c n
    | none => s
  let s := poison (if srcErr then poison s o.src else s) o.acc
  let s := if o.errs.contains 2 then o.abuf.toList.foldl (fun s n => s.dropOperand c n 2) s else s
  let s := if o.errs.contains 3 then o.bslot.toList.foldl (fun s n => s.dropOperand c n 3) s else s
  if o.errs.contains 4 then s.zeroSlots c o else s

/-- A lane's part in an operation is over: cnt.tl falls; marks of the operation that no result has taken go. -/
def Thread.opDone (t : Thread) (id : Nat) : Thread :=
  { t with cntTl := t.cntTl - 1, pendRegs := t.pendRegs.filter fun x => x.2 != id }

/-- A result reaches a tile that is still in use: READY, or DRAINING for its last readers and writers (R306, R307). One that rewrites all of it
leaves no error of its old data (R316). -/
def Tile.take (t : Tile) (data : List Host.Cell) (whole : Bool) : Tile :=
  match t.state with
  | .ready | .draining => { t with data := data, dirty := true, bad := t.bad && !whole, soft := t.soft && !whole }
  | .empty | .filling | .poisoned => t

/-- The results of an operation are written: tiles, codebook, registers, flags. -/
def State.putResult (s : State) (c : Nat) (o : SeqOp) (r : TileResult) : State :=
  let s := s.modCore c fun C =>
    let C := match o.op with
      | .cbld n data =>
        { C with codebooks := tput n.toNat data C.codebooks, cbWritten := true, cbBad := C.cbBad.filter fun m => m != n.toNat }
      | .mma _ _ | .mmai _ _ | .zero | .trd _ | .twr _ | .rowsum | .rowssq | .rowmax | .rowmul _ | .rowadd _ | .cvt _ _
      | .scale _ _ => C
    let C := match o.op, o.abuf with
      | .cvt _ _, some n => C.modTile n fun t => t.take r.abuf false
      | _, _ => C
    match o.acc with
    | some n => if o.writes.contains n then C.modTile n fun t => t.take r.acc o.rewrites else C
    | none => C
  let s := r.regs.foldl (fun s x => s.modThread o.team x.1 fun t =>
    (t.putPending o.id x.2.1 x.2.2.1).addFlags x.2.2.2) s
  s.modTeam o.team fun T => { T with tnv := T.tnv || r.flags.nv, tof := T.tof || r.flags.of, tuf := T.tuf || r.flags.uf }

/-- The oldest operation that has started completes. One that was accepted before its acc became POISONED meets the error as well
(DEDUCED, log 87). -/
def State.completeOp (s : State) (c : Nat) (o : SeqOp) : State :=
  let C := s.core c
  let tile (n : Option Nat) : Tile := match n with
    | some n => C.tile n
    | none => {}
  let s := s.modCore c fun C => { C with seq := C.seq.filter fun p => p.id != o.id }
  let wrong (t : Tile) : Bool := t.bad || t.state == .poisoned
  let accErr := o.readsAcc && wrong (tile o.acc)
  let srcErr := wrong (tile o.src)
  let s := ((if o.readsAcc then o.acc.toList else []) ++ o.src.toList).foldl (fun s n => s.correctTile c n) s
  let s := if o.errs ≠ [] ∨ accErr ∨ srcErr then s.opError c o srcErr
    else s.putResult c o (o.result (tile o.acc).data (tile o.src).data (tile o.abuf).data)
  let s := o.tids.foldl (fun s i => s.modThread o.team i fun t => t.opDone o.id) s
  let s := o.tiles.foldl (fun s n => s.modStamp c n fun r => { r with lastDone := some s.clock }) s
  s.settleTiles c

def execTileOpComplete (c : Nat) (s : State) : Result :=
  .next (match (s.core c).seq with
  | o :: _ => if o.startedAt.isSome then s.completeOp c o else s
  | [] => s)

/-! ## Fills (R327, R341, R344) -/

/-- How an engine's access to a virtual address ends: the physical address, or an error code of R347. -/
inductive EngineAt where
  | at_ (pa : Nat)
  | err (code : BitVec 16)
  deriving DecidableEq, Repr

/-- The check of an engine at a virtual address (R341 step 3). -/
def State.engineAt (s : State) (core x va : Nat) (write : Bool) : EngineAt :=
  let none_ : BitVec 16 := if write then 2 else 1
  if !canonical (BitVec.ofNat 64 va) ∨ inWindow (BitVec.ofNat 64 va) then .err 4
  else
    match (s.translate core x va).2 with
    | .refused c => .err (if c = 0x07 then none_ else if c = 0x12 then (if write then 4 else 3) else 4)
    | .page e =>
      if pteSt e.pte = 0 then .err none_
      else
      match s.permit core x e va (if write then .store else .load) true with
      | .ok pa _ =>
        match s.nodeCheck x pa (if write then .store else .load) false with
        | some _ => .err 4
        | none => .at_ pa
      | .absent _ => .err none_
      | .ring _ | .trap _ => .err 4

/-- Bytes that an engine reads at a virtual address, or the error. -/
def State.engineRead (s : State) (core x va n : Nat) : Except (BitVec 16) (List Byte) :=
  match s.engineAt core x va false with
  | .err c => .error c
  | .at_ pa =>
    if s.unreachable pa then .error 8
    else if (s.badBlock? pa n).isSome then .error 3
    else .ok (s.mem.read (accessDie (dieOf core) pa) pa n)

/-- The image of a tile, block by block: the data so far, or the first error with its address. Blocks that were not resident
read as zero where the fill allows it. -/
def State.readImage (s : State) (core x : Nat) (f : Fill) (lenient : Bool) :
    Nat → Nat → List Host.Cell → Except (BitVec 16 × Nat) (List Host.Cell)
  | 0, _, d => .ok d
  | n + 1, j, d =>
    let va := f.src.toNat + 256 * j
    if lenient && !f.blocks.getD j true then s.readImage core x f lenient n (j + 1) d
    else
      match s.engineRead core x va 256 with
      | .ok b => s.readImage core x f lenient n (j + 1) (putBytes (256 * j) b d)
      | .error c => if lenient && c != 3 then s.readImage core x f lenient n (j + 1) d else .error (c, va)

/-- The fill with an identifier, and its core. -/
def State.fill? (s : State) (id : Nat) : Option (Nat × Fill) :=
  s.cores.findSome? fun c => (c.2.fills.find? fun f => f.id == id).map fun f => (c.1, f)

/-- A block of a fill's source lies in a node that cannot be reached: its read bounces (R387). -/
def State.fillBlocked (s : State) (core x : Nat) (f : Fill) : Bool :=
  (List.range (tileSize f.tile / 256)).any fun j =>
    f.blocks.getD j true && match s.engineAt core x (f.src.toNat + 256 * j) false with
    | .at_ pa => s.unreachable pa
    | .err _ => false

/-- A fill may end: its tile is FILLING for it, its context owns the core's tiles, and a CPYT's earlier commands are complete
where it has AFTER (R338, R344). -/
def State.fillReady (s : State) (c : Nat) (f : Fill) : Bool :=
  ((s.core c).tile f.tile).state == .filling && ((s.core c).tile f.tile).fill == some f.id &&
    (s.cmds.all fun m => m.id != f.id || m.after.all fun a => !(s.cmds.any fun n => n.id == a)) &&
    match s.team? f.team with
    | some T => (s.core c).accown == T.ctx && !s.fillBlocked c T.ctx f
    | none => false

/-- An engine that has read uncorrectable data in HBM marks the block (R422). -/
def State.meetRead (s : State) (core x va n : Nat) : State :=
  match s.engineAt core x va false with
  | .at_ pa =>
    match s.badBlock? pa n with
    | some b => s.meetBad b
    | none => s
  | .err _ => s

/-! ## The transfer (R94) -/

/-- The save area of a context on a core (R77). -/
def State.saveArea (s : State) (x c : Nat) : Nat := (s.ctx x).desc.tilesave.toNat + c * 0x480000

/-- The place of a tile's data in a save area (R95). -/
def saveOffset (n : Nat) : Nat :=
  if n < 64 then 0x10000 + n * 0x1000 else if n < 72 then 0x50000 + (n - 64) * 0x2000 else 0x60000 + (n - 72) * 0x2000

/-- The image entry of a tile. -/
def Tile.image (t : Tile) : Nat :=
  let st : Nat := t.state.code.toNat
  if t.state = .empty then 0
  else st + 8 + (if t.dirty then 16 else 0) + (t.cb.getD 0).toNat * 32 + (if t.cb.isSome then 256 else 0)

/-- All tiles of a core. -/
def tileCount : Nat := 584

/-- The slot of a team, by its key. -/
def State.slotOfTeam (s : State) (k : Nat) : Nat :=
  match s.team? k with
  | some T => T.slot
  | none => 0

/-- Writes bytes of a save area, as an agent of the core's die. -/
def State.putSave (s : State) (c a : Nat) (data : List Byte) : State := (s.storeAt (dieOf c) a data false).1
def State.getSave (s : State) (c a n : Nat) : List Byte := s.mem.read (dieOf c) a n

/-- A valid header of a context stands in its save area (R331). What the restore of R94 finds uncorrectable in a save area has no stated outcome:
a header counts as not valid, the image entry of a tile as EMPTY, and a tile's data or a codebook keep the error (DESIGN CHOICE, log 99). -/
def State.headerValid (s : State) (x c : Nat) : Bool :=
  !s.anyBad (s.saveArea x c) 4 &&
  let own := ofBytes (s.getSave c (s.saveArea x c) 4)
  own / 4096 % 2 == 1 && own % 4096 == x

/-- Tiles whose data the save writes: READY and dirty. -/
def Core.dirtyTiles (C : Core) : List Nat :=
  (C.tiles.filter fun x => x.2.state == .ready && x.2.dirty).map fun x => x.1

/-- The drain: what the sequencer has accepted starts and completes in its order, at most n operations (R94 step 1). -/
def State.drainSeq (s : State) (c : Nat) : Nat → State
  | 0 => s
  | n + 1 =>
    match (s.core c).seq with
    | [] => s
    | o :: _ =>
      let s := if o.startedAt.isSome then s else s.startOp c o
      match (s.core c).seq with
      | [] => s
      | p :: _ => (s.completeOp c p).drainSeq c n

/-- Step 2: the save of the old owner's tiles. -/
def State.saveTiles (s : State) (c x : Nat) : State :=
  let C := s.core c
  let s := C.dirtyTiles.foldl (fun s n => s.correctTile c n) s
  let a := s.saveArea x c
  let cbs := C.cbWritten || (s.headerValid x c && ofBytes (s.getSave c a 4) / 8192 % 2 == 1)
  let own := 0x1000 + x + if cbs then 0x2000 else 0
  let engine := match C.owner with
    | some k => s.slotOfTeam k
    | none => 0xFFFFFFFF
  let queue := (List.range 13).map fun j => match C.ownerQueue[j]? with
    | some q => s.slotOfTeam q.1
    | none => 0
  let header := toBytes 4 own ++ toBytes 4 engine ++ toBytes 4 C.ownerQueue.length ++ queue.flatMap fun v => toBytes 4 v
  let image := (List.range tileCount).flatMap fun n => toBytes 4 (C.tile n).image
  let s1 := C.dirtyTiles.foldl (fun s n =>
    s.putSave c (a + saveOffset n) (getBytes (C.tile n).data 0 (tileSize n))) s
  let s2 := if C.cbWritten then
      s1.putSave c (a + 0x1000) ((List.range 8).flatMap fun n => C.codebook n)
    else s1
  (s2.putSave c (a + 0x40) image).putSave c a header

/-- A tile that the save reads with an uncorrectable error, or one whose entry of the tile table has one, is fatal for its team, once
(R316, R431). -/
def State.saveErrors (s : State) (c : Nat) : State :=
  let read := (s.core c).dirtyTiles
  (s.core c).tiles.foldl (fun s x =>
    let n := x.1
    if x.2.badEntry || x.2.bad && read.contains n then
      match s.tileTeam? c n with
      | some (k, T, sel) => if T.killed then s else s.fatal k 0 0x81 0 0 (BitVec.ofNat 64 sel)
      | none => s
    else s) s

/-- Step 3: every tile and codebook of the core is zeroed. -/
def State.clearTiles (s : State) (c : Nat) : State :=
  ((s.core c).tiles.foldl (fun s x => s.emptyTile c x.1 4) s).modCore c fun C =>
    { C with tiles := [], codebooks := [], cbBad := [], owner := none, ownerQueue := [] }

/-- Step 4 for one tile, from its image entry. -/
def State.restoreTile (s : State) (c x n : Nat) : State :=
  let a := s.saveArea x c
  let s := s.meetBads (a + 0x40 + 4 * n) 4
  let e := if s.anyBad (a + 0x40 + 4 * n) 4 then 0 else ofBytes (s.getSave c (a + 0x40 + 4 * n) 4)
  let cb : Option (BitVec 3) := if e / 256 % 2 = 1 then some (BitVec.ofNat 3 (e / 32)) else none
  if 512 ≤ e then s
  else
    match e % 8 with
    | 1 =>
      let id := ((s.core c).fills.find? fun f => f.tile == n && (match s.team? f.team with
        | some T => T.ctx == x
        | none => false)).map fun f => f.id
      ((s.openTile c n true).modStamp c n fun r => { r with fillAt := some s.clock }).modCore c fun C =>
        C.modTile n fun _ => { state := .filling, cb := cb, fill := id }
    | 2 =>
      let data := putBytes 0 (s.getSave c (a + saveOffset n) (tileSize n)) []
      let bad := s.anyBad (a + saveOffset n) (tileSize n)
      let s := s.meetBads (a + saveOffset n) (tileSize n)
      ((s.openTile c n true).modStamp c n fun r => { r with readyAt := some s.clock }).modCore c fun C =>
        C.modTile n fun _ => { state := .ready, cb := cb, data := data, bad := bad }
    | 4 => (s.openTile c n true).modCore c fun C => C.modTile n fun _ => { state := .poisoned, cb := cb }
    | _ => s

/-- The resident team of a context on a core in a slot. -/
def State.teamInSlot? (s : State) (c x slot : Nat) : Option Nat :=
  (s.teams.find? fun kt => kt.2.core == c && kt.2.ctx == x && kt.2.slot == slot && kt.2.phase.isResident).map fun kt => kt.1

/-- Step 4: the restore for the new owner, which owns the tiles from here on. -/
def State.restoreTiles (s : State) (c x : Nat) : State :=
  let valid := s.headerValid x c
  let a := s.saveArea x c
  let s := s.modCore c fun C => { C with accown := x, wants := none, cbWritten := false }
  if !valid then s
  else
    let cbs := ofBytes (s.getSave c a 4) / 8192 % 2 == 1
    let books := s.getSave c (a + 0x1000) 256
    let lost := if cbs then (List.range 8).filter fun n => s.anyBad (a + 0x1000 + 32 * n) 32 else []
    let s := if cbs then s.meetBads (a + 0x1000) 256 else s
    let slots := (List.range (min 13 (ofBytes (s.getSave c (a + 8) 4)))).filterMap fun j =>
      s.teamInSlot? c x (ofBytes (s.getSave c (a + 12 + 4 * j) 4))
    let owner := s.teamInSlot? c x (ofBytes (s.getSave c (a + 4) 4))
    let s := (List.range tileCount).foldl (fun s n => s.restoreTile c x n) s
    s.modCore c fun C =>
      { C with
        owner := owner
        ownerQueue := slots.map fun k => (k, s.clock)
        cbBad := lost
        codebooks := if cbs then (List.range 8).foldl (fun l n => tput n ((books.drop (32 * n)).take 32) l) [] else [] }

/-- KiB that a set of tiles takes in a save area. -/
def tilesKib (l : List Nat) (books : Bool) : Nat := (l.foldl (fun t n => t + tileSize n / 1024) 0) + if books then 1 else 0

/-- A transfer may run: its context holds the slice, asks for the tiles and does not own them, and the drain is over. -/
def State.transferReady (s : State) (c x : Nat) : Bool :=
  let C := s.core c
  C.accown != x && C.slice == some x && (C.wants == some x || s.parkedCpyt c x) && C.seq.isEmpty &&
    !(C.tiles.any fun t => t.2.state == .draining)

/-- A command of a context on a core. -/
def State.cmdOn (s : State) (c x : Nat) (m : Cmd) : Bool :=
  m.core == c && match s.team? m.team with
    | some T => T.ctx == x
    | none => false

/-- The transfer: save and clear where there is an old owner, whose CPYTs in flight park; restore, and parked CPYTs restart. -/
def State.transfer (s : State) (c x : Nat) : State :=
  let C := s.core c
  let old := C.accown
  let saved := if old = 0 then 0 else tilesKib C.dirtyTiles C.cbWritten
  let s := if old = 0 then s
    else
      let s := ((s.saveErrors c).saveTiles c old).clearTiles c
      { s with cmds := s.cmds.map fun m => if s.cmdOn c old m && (s.fill? m.id).isSome then { m with parked := true } else m }
  let s := s.restoreTiles c x
  let D := s.core c
  let restored := tilesKib ((D.tiles.filter fun t => t.2.state == .ready).map fun t => t.1) (!D.codebooks.isEmpty)
  let s := s.tap (dieOf c)
    { source := 10, ctx := x, core := c, clock := s.clock, p0 := BitVec.ofNat 32 old, p1 := BitVec.ofNat 32 x
      p2 := BitVec.ofNat 32 saved, p3 := BitVec.ofNat 32 restored }
  { s with cmds := s.cmds.map fun m => if s.cmdOn c x m then { m with parked := false } else m }

/-- A transfer under way on a core runs to its end. -/
def State.endTransfer (s : State) (c : Nat) : State :=
  match (s.core c).slice with
  | some x =>
    if s.inTransfer c then
      let s := s.drainSeq c 8
      if s.transferReady c x then s.transfer c x else s
    else s
  | none => s

/-- Transfers under way run to their end: what the host commands meanwhile takes effect after them (R80). -/
def State.endTransfers (s : State) : State := s.cores.foldl (fun s c => s.endTransfer c.1) s

def execTileOwnershipTransfer (c : Nat) (x : BitVec 12) (s : State) : Result :=
  .next (if s.transferReady c x.toNat then s.transfer c x.toNat else s)

end Sys2Proof.Machine
end

