-- ==== Sys2Proof/Machine/Engines.lean ====
section
/-! DEFINITION. Request engines, copy engines and their commands (R334 to R347, R446): the take, the checks, the execution of
each kind, and the completion write. -/

namespace Sys2Proof.Machine

/-! ## Entries (R338, R339) -/

/-- The command that an entry of 32 bytes holds. -/
def cmdOf (id k core index now : Nat) (kicker : Nat) (after : List Nat) (e : List Byte) : Cmd :=
  { id := id, team := k, core := core, index := index, kind := field e 0 1, flags := BitVec.ofNat 8 (field e 1 1)
    tbar := 32 * (field e 2 2 % 2 ^ 14), chunk0 := field e 4 4 / 2 ^ 26, count := field e 4 4 % 2 ^ 26
    src := BitVec.ofNat 64 (field e 8 8), dst := BitVec.ofNat 64 (field e 16 8), aux := BitVec.ofNat 64 (field e 24 8)
    takenAt := now, kicker := kicker, after := after }

def Cmd.pub (m : Cmd) : Bool := m.flags.getLsbD 5
def Cmd.tbe (m : Cmd) : Bool := m.flags.getLsbD 4
def Cmd.cce (m : Cmd) : Bool := m.flags.getLsbD 3
def Cmd.cc (m : Cmd) : BitVec 3 := m.flags.extractLsb' 0 3
def Cmd.rows (m : Cmd) : Nat := if m.kind = 2 then (m.aux.extractLsb' 48 16).toNat else 1
def Cmd.srcStride (m : Cmd) : Nat := 16 * (m.aux.extractLsb' 24 24).toNat
def Cmd.dstStride (m : Cmd) : Nat := 16 * (m.aux.extractLsb' 0 24).toNat
/-- Where the bytes go: the shadow for CPYP. -/
def Cmd.target (m : Cmd) : DWord := if m.kind = 4 then m.aux else m.dst
/-- Bytes of the stream (R340). -/
def Cmd.bytes (m : Cmd) : Nat := if m.kind = 0 then 0 else m.rows * m.count

/-- The source ranges of a command, row by row; NOP and FILL read none. -/
def Cmd.sources (m : Cmd) : List (Nat × Nat) :=
  if m.kind = 0 ∨ m.kind = 6 then []
  else (List.range m.rows).map fun r => ((m.src.toNat + r * m.srcStride) % 2 ^ 64, m.count)

/-- The destination ranges; NOP and CPYT write no memory. -/
def Cmd.targets (m : Cmd) : List (Nat × Nat) :=
  if m.kind = 0 ∨ m.kind = 3 then []
  else (List.range m.rows).map fun r => ((m.target.toNat + r * m.dstStride) % 2 ^ 64, m.count)

/-! ## The checks of a taken entry (R341, R446) -/

/-- A COUNT of a copy. -/
def copyCount (n : Nat) : Bool := decide (16 ≤ n) && decide (n ≤ 2 ^ 26 - 16) && n % 16 == 0

/-- The lowest byte of every field that breaks step 1, with the entry's own bytes. -/
def Cmd.badFields (m : Cmd) (stash : Nat) (e : List Byte) : List Nat :=
  let when (c : Bool) (o : Nat) : List Nat := if c then [o] else []
  let kindPart : List Nat :=
    match m.kind with
    | 0 => when (m.count != 0) 4 ++ when (m.src != 0) 8 ++ when (m.dst != 0) 16 ++ when (m.aux != 0) 24
    | 1 => when (!copyCount m.count) 4 ++ when (m.src.toNat % 16 != 0) 8 ++ when (m.dst.toNat % 16 != 0) 16 ++
        when (m.aux != 0) 24
    | 2 => when (!copyCount m.count) 4 ++ when (m.src.toNat % 16 != 0) 8 ++ when (m.dst.toNat % 16 != 0) 16 ++
        when (m.rows == 0) 30
    | 3 => when (m.count != 8192) 4 ++ when (m.src.toNat % 256 != 0) 8 ++
        when (!(field e 16 4 / 512 % 4 == 1 || field e 16 4 / 512 % 4 == 2)) 17 ++ when (field e 20 4 != 0) 20 ++
        when (m.aux != 0) 24
    | 4 => when (!copyCount m.count || overlap m.dst.toNat m.count m.aux.toNat m.count) 4 ++
        when (m.src.toNat % 16 != 0) 8 ++ when (m.dst.toNat % 16 != 0) 16 ++ when (m.aux.toNat % 16 != 0) 24
    | 5 => when (!copyCount m.count) 4 ++ when (m.src.toNat % 16 != 0) 8 ++ when (m.dst.toNat % 16 != 0) 16 ++
        when (!(decide (m.aux.toNat % 256 < 24) || m.aux.toNat % 256 == 255)) 24 ++ when (decide (256 ≤ m.aux.toNat)) 25
    | _ => when (!copyCount m.count) 4 ++ when (m.dst.toNat % 16 != 0) 16 ++ when (m.aux != 0) 24
  when (m.flags.getLsbD 7 || (m.pub && m.kind != 4)) 1 ++ when (m.tbe && decide (stash < m.tbar + 32)) 2 ++
    when (decide (2 ^ 14 ≤ field e 2 2)) 3 ++ kindPart

/-- The lowest of some byte offsets. -/
def lowest? : List Nat → Option Nat
  | [] => none
  | x :: r => some (r.foldl min x)

/-- The code and the detail of BAD_COMMAND at an entry byte. -/
def Cmd.badAt (m : Cmd) (o : Nat) : BitVec 16 × DWord := (5, BitVec.ofNat 64 (m.index % 2 ^ 32 * 2 ^ 32 + o))

/-- A range cut at the boundaries of 64 KiB pages, at most n pieces. -/
def pieces : Nat → Nat → Nat → List (Nat × Nat)
  | 0, _, _ => []
  | n + 1, va, len =>
    if len = 0 then []
    else
      let k := min len (2 ^ 16 - va % 2 ^ 16)
      (va, k) :: pieces n ((va + k) % 2 ^ 64) (len - k)

/-- Every piece of some ranges. -/
def piecesOf (l : List (Nat × Nat)) : List (Nat × Nat) := l.flatMap fun x => pieces (x.2 / 2 ^ 16 + 2) x.1 x.2

/-- The first failing page of some ranges (R341 step 3). -/
def State.spanError (s : State) (core x : Nat) (l : List (Nat × Nat)) (write : Bool) : Option (BitVec 16 × DWord) :=
  (piecesOf l).findSome? fun p =>
    match s.engineAt core x p.1 write with
    | .at_ _ => none
    | .err c => some (c, BitVec.ofNat 64 p.1)

/-- The tile of a CPYT. -/
def Cmd.tileOf (m : Cmd) (T : Team) : Option Nat := T.selected? (m.dst.extractLsb' 0 32)

/-- Step 4: the tile is not EMPTY, or another fill of it is pending. A context that does not own the core's tiles looks at its
save image (R344). -/
def State.tileBusy (s : State) (k : Nat) (T : Team) (n : Nat) : Bool :=
  let other := T.ringFill n || s.cmds.any fun c => c.team == k && c.tile == some n && !c.moved && c.err.isNone
  if (s.core T.core).accown = T.ctx then
    ((s.core T.core).tile n).state != .empty || ((s.core T.core).tile n).fill.isSome || other
  else if s.headerValid T.ctx T.core then
    let e := ofBytes (s.getSave T.core (s.saveArea T.ctx T.core + 0x40 + 4 * n) 4)
    (decide (e < 512) && (e % 8 == 1 || e % 8 == 2 || e % 8 == 4)) || other
  else other

/-- What a publish status means for a CPYP (R341 step 5): for status 3 the lowest byte of a field of size, dst or aux that takes
part in the failed condition. -/
def State.pubError (s : State) (core x : Nat) (m : Cmd) : Option (BitVec 16 × DWord) :=
  let r := s.publishStatus core x m.dst.toNat m.aux.toNat m.count
  match r.1 with
  | 1 => some (9, 1)
  | 2 => some (10, BitVec.ofNat 64 r.2)
  | 3 =>
    let pages := s.pagesOf core x (m.count / 2 ^ 16 + 2) m.dst.toNat (m.dst.toNat + m.count) ++
      s.pagesOf core x (m.count / 2 ^ 16 + 2) m.aux.toNat (m.aux.toNat + m.count)
    let odd (v : Nat) : Bool := pages.any fun p => v % pageSize p != 0
    let sizePart := odd m.count || overlap m.dst.toNat m.count m.aux.toNat m.count ||
      !canonicalRange m.dst.toNat m.count || !canonicalRange m.aux.toNat m.count
    some (m.badAt (if sizePart then 4 else if odd m.dst.toNat then 16 else 24))
  | 4 => some (2, BitVec.ofNat 64 r.2)
  | _ => none

/-- The first of its checks of an entry's own fields that fails (R341 steps 1 and 2). -/
def Cmd.fieldError (m : Cmd) (T : Team) (e : List Byte) : Option (BitVec 16 × DWord) :=
  if 6 < m.kind then some (m.badAt 0)
  else
    match lowest? (m.badFields T.stash e) with
    | some o => some (m.badAt o)
    | none => if m.kind = 3 ∧ (m.tileOf T).isNone then some (m.badAt 16) else none

/-- The first check that fails, with its code and detail (R341, R347). -/
def State.commandError (s : State) (k : Nat) (T : Team) (m : Cmd) (e : List Byte) : Option (BitVec 16 × DWord) :=
    match m.fieldError T e with
    | some x => some x
    | none =>
        match s.spanError T.core T.ctx m.sources false with
        | some x => some x
        | none =>
          match s.spanError T.core T.ctx m.targets true with
          | some x => some x
          | none =>
            match m.kind with
            | 3 =>
              match m.tileOf T with
              | some n => if s.tileBusy k T n then some (6, (m.dst.extractLsb' 0 32).setWidth 64) else none
              | none => none
            | 4 => if m.pub then s.pubError T.core T.ctx m else none
            | _ => none

/-! ## The take (R336, R337) -/

/-- A CPYT starts: its tile is FILLING where its context owns the core's tiles, else the command parks (R94, R344). -/
def State.startCpyt (s : State) (m : Cmd) (T : Team) (n : Nat) : State :=
  if (s.core T.core).accown = T.ctx then
    let cb := selBind (m.dst.extractLsb' 0 32)
    let f : Fill := { id := m.id, team := m.team, tid := m.kicker, core := T.core, tile := n, src := m.src, cb := cb, blocks := [] }
    (s.fillTile T.core n m.id cb).modCore T.core fun c => { c with fills := c.fills ++ [f] }
  else { s with cmds := s.cmds.map fun q => if q.id == m.id then { q with parked := true } else q }

/-- The thread whose kick made an entry takable. -/
def Team.kickerOf (T : Team) (index : Nat) : Nat :=
  match T.kicks.find? fun x => decide ((index + 2 ^ 32 - x.1) % 2 ^ 32 < (x.2.1 + 2 ^ 32 - x.1) % 2 ^ 32) with
  | some x => x.2.2
  | none => 0

/-- The engine may take an entry of the team's ring. -/
def Team.takable (T : Team) : Bool :=
  T.ringLen != 0 && T.notify 8 % 2 == 0 && T.notify 4 != T.kickLimit && match T.phase with
    | .resident | .running => true
    | .pending | .preempted | .exiting | .done => false

/-- The pages of a command's ranges, by an address in each; with PUB those of the published buffer too. -/
def Cmd.pages (m : Cmd) : List Nat :=
  (piecesOf (m.sources ++ m.targets ++ if m.kind = 4 ∧ m.pub then [(m.dst.toNat, m.count)] else [])).map fun p => p.1

/-- A line outside the package is asked for, for a command or a fill of a number. -/
def State.askLine (s : State) (id k n : Nat) : State :=
  if (s.outside.any fun o => o.req == id) || s.egressBlocked (n * 128) then s
  else { s with outside := s.outside ++ [{ line := n, req := id, team := k }] }

/-- A command that has been taken is checked, once the walks of its checks can be made (R263, R341). -/
def State.checkEntry (s : State) (k : Nat) (T : Team) (m : Cmd) (e : List Byte) : State :=
  let vas := if (m.fieldError T e).isSome then [] else m.pages
  match s.walksWait? T.core T.ctx m.fetched vas with
  | some .slot => s
  | some (.line n) => s.askLine m.id k n
  | none =>
    let s := (s.engineWalks T.core T.ctx vas).modCmd m.id fun q => { q with unchecked := none, fetched := [] }
    let m := { m with unchecked := none, fetched := [] }
    match s.commandError k T m e with
    | some x => s.modCmd m.id fun q => { q with err := some x }
    | none =>
      match m.kind, m.tileOf T with
      | 3, some n => (s.modCmd m.id fun q => { q with tile := some n }).startCpyt { m with tile := some n } T n
      | _, _ => s

/-- The engine takes entry take: the whole entry is copied, then take rises; the command is checked. -/
def State.takeEntry (s : State) (k : Nat) (T : Team) : State :=
  let take := T.notify 4
  let e := getBytes T.ring (32 * (take % T.ringLen)) 32
  let T1 := T.setNotify 4 4 ((take + 1) % 2 ^ 32)
  let after := if field e 1 1 / 64 % 2 = 1 then (s.cmds.filter fun c => c.team == k).map fun c => c.id else []
  let m := cmdOf s.fresh k T.core take s.clock (T.kickerOf take) after e
  let m := { m with unchecked := some e }
  ({ s with fresh := s.fresh + 1, cmds := s.cmds ++ [m] }.setTeam k T1).checkEntry k T1 m e

/-- The command of a team whose checks still wait for a walk: the engine takes no further entry before. -/
def State.unchecked? (s : State) (k : Nat) : Option (Cmd × List Byte) :=
  s.cmds.findSome? fun m => if m.team = k then m.unchecked.map fun e => (m, e) else none

def execRequestEngineTake (k : Nat) (s : State) : Result :=
  .next (match s.team? k with
  | none => s
  | some T => match s.unchecked? k with
    | some x => s.checkEntry k T x.1 x.2
    | none => if T.takable then s.takeEntry k T else s)

/-! ## Execution (R339, R342 to R344, R350) -/

/-- A command that is still to move its bytes: its checks have passed, and the commands it follows are complete. -/
def State.unmoved (s : State) (m : Cmd) : Bool := m.err.isNone && m.unchecked.isNone && !m.moved && m.after.all fun a => (s.cmd? a).isNone

/-! ## Copy engines (R14, R342) -/

/-- Copy engines of a die. -/
def engineCount : Nat := 6

/-- The copy-engine queue of a die, as the round-robin of owners names it (R229). -/
def engineQueue (die : Nat) : Nat := 369 + die

/-- A copy engine of a die that runs no command. -/
def State.freeEngine? (s : State) (die : Nat) : Option Nat :=
  (List.range engineCount).find? fun e => !(s.cmds.any fun m => dieOf m.core == die && m.engine == some e)

/-- The team has been killed: its commands stop (R181). -/
def State.cmdStopped (s : State) (m : Cmd) : Bool :=
  match s.team? m.team with
  | some T => T.killed
  | none => true

/-- Its copy is under way: an engine has it, or its fill runs. -/
def State.underWay (s : State) (m : Cmd) : Bool :=
  m.err.isNone && !m.moved && (m.engine.isSome || ((s.fill? m.id).isSome && !m.parked))

/-! ## What a command meets when it runs -/

/-- What one page of a command's ranges asks for when it is translated again (R342): to wait, since the page is MIGRATING and
written (R274) or its node cannot be reached (R387), to fail, or nothing. -/
inductive SpanState where
  | ready
  | later
  | fails (code : BitVec 16) (addr : DWord)
  deriving DecidableEq, Repr

/-- The first 16-byte unit of a physical range whose data are uncorrectable. -/
def State.badUnit? (s : State) (pa n : Nat) : Option Nat :=
  (List.range (n / 16)).find? fun j => (s.badBlock? (pa + 16 * j) 16).isSome

/-- A line of a range waits behind an atomic at the host (R443). -/
def State.rangeBusy (s : State) (pa n : Nat) : Bool :=
  inHost pa && s.outside.any fun o => decide (lineOf pa ≤ o.line) && decide (o.line ≤ lineOf (pa + n - 1)) && s.lineBusy (o.line * 128)

def State.pieceState (s : State) (core x : Nat) (p : Nat × Nat) (write : Bool) : SpanState :=
  match s.engineAt core x p.1 write with
  | .err c => .fails c (BitVec.ofNat 64 p.1)
  | .at_ pa =>
    if s.unreachable pa || s.rangeBusy pa p.2 then .later
    else if !write then
      match s.badUnit? pa p.2 with
      | some j => .fails 3 (BitVec.ofNat 64 (p.1 + 16 * j))
      | none => .ready
    else
      match s.leaf? core x p.1 with
      | some e => if pteSt e.pte = 2 then .later else .ready
      | none => .ready

/-- The ranges of a command when it runs: the first page that is not ready decides. -/
def State.spanState (s : State) (core x : Nat) (m : Cmd) : SpanState :=
  let l := (piecesOf m.sources).map (fun p => (p, false)) ++ (piecesOf m.targets).map (fun p => (p, true))
  match l.find? fun p => s.pieceState core x p.1 p.2 != .ready with
  | some p => s.pieceState core x p.1 p.2
  | none => .ready

/-- An engine reaches the lines of its ranges: stash copies that a team owns are recalled (R254, R343), and lines of HBM stand in
their LLC slices (R444). -/
def State.reachLines (s : State) (core x : Nat) (l : List (Nat × Nat)) (write : Bool) : State :=
  (piecesOf l).foldl (fun s p =>
    match s.engineAt core x p.1 write with
    | .at_ pa => ((s.correct pa p.2).recallRange pa p.2).touchLines pa p.2
    | .err _ => s) s

/-- The lines of some ranges that lie outside the package and that no proxy holds (R339, R387, R443). -/
def State.farLines (s : State) (core x : Nat) (l : List (Nat × Nat)) : List Nat :=
  (piecesOf l).flatMap fun p =>
    match s.engineAt core x p.1 false with
    | .at_ pa =>
      if inHbm pa then []
      else
        ((List.range (lineOf (pa + p.2 - 1) + 1 - lineOf pa)).map fun i => lineOf pa + i).filter fun n =>
          !s.proxied x n
    | .err _ => []

/-- A command or fill of a number waits for the answer to a read. -/
def State.asking (s : State) (id : Nat) : Bool := s.outside.any fun o => o.req == id

/-- Reads of lines outside the package are sent, with the number that waits for them; none while their way out is blocked. -/
def State.ask (s : State) (id k : Nat) (lines : List Nat) : Option State :=
  if lines.any fun n => s.egressBlocked (n * 128) then none
  else some { s with outside := s.outside ++ lines.map fun n => { line := n, req := id, team := k } }

/-! ## The pick of a copy-engine queue (R17, R342) -/

/-- What a command of the queue needs next is free: the walks of its ranges can be made, no page or node keeps it back, and the ways out of the
package that its reads take are open. -/
def State.canMove (s : State) (m : Cmd) (T : Team) : Bool :=
  !s.asking m.id && match s.walksWait? T.core T.ctx m.fetched m.pages with
    | some .slot => false
    | some (.line n) => !s.egressBlocked (n * 128) && !s.lineBusy (n * 128)
    | none => (m.kind == 5 && decide (m.aux.toNat % 256 ≠ 255) && (s.port (m.aux.toNat % 256)).state != .up) ||
        (s.spanState T.core T.ctx m != .later &&
          (m.asked || (s.farLines T.core T.ctx m.sources).all fun n => !s.egressBlocked (n * 128)))

/-- A command stands in the copy-engine queue of its die, or comes into it. -/
def State.awaitsEngine (s : State) (m : Cmd) : Bool :=
  m.kind != 3 && m.engine.isNone && s.unmoved m && !s.cmdStopped m && decide (m.til ≤ s.clock)

/-- The command that the queue of a die picks: the oldest advanceable one of the next team in turn (R17). One that cannot advance does not
stand in the queue. -/
def State.nextCmd? (s : State) (die : Nat) : Option Cmd :=
  let l := s.cmds.filter fun m => dieOf m.core == die && s.awaitsEngine m && match s.team? m.team with
    | some T => s.canMove m T
    | none => false
  let last := tget 0 (engineQueue die) s.lastOwner
  let after := l.filter fun m => decide (last < m.team)
  let l := if after.isEmpty then l else after
  match lowest? (l.map fun m => m.team) with
  | some k => l.find? fun m => m.team == k
  | none => none

/-- A command has a copy engine, or the queue picks it for a free one, which takes it (DEDUCED, log 80). -/
def State.engineFor (s : State) (m : Cmd) : Option State :=
  if m.engine.isSome then some s
  else
    let d := dieOf m.core
    match s.freeEngine? d, s.nextCmd? d with
    | some e, some n =>
      if n.id = m.id then
        some { s with
          lastOwner := tput (engineQueue d) m.team s.lastOwner
          cmds := s.cmds.map fun q => if q.id == m.id then { q with engine := some e, since := none } else q }
      else none
    | _, _ => none

/-- Bytes of a virtual range, as the engine's die sees them. -/
def State.virtRead (s : State) (core x : Nat) (l : List (Nat × Nat)) : List Byte :=
  (piecesOf l).flatMap fun p =>
    match s.engineAt core x p.1 false with
    | .at_ pa => s.mem.read (accessDie (dieOf core) pa) pa p.2
    | .err _ => List.replicate p.2 0

/-- Writes a stream to virtual ranges. -/
def State.virtWrite (s : State) (core x : Nat) : List (Nat × Nat) → List Byte → State × List Nat
  | [], _ => (s, [])
  | p :: r, d =>
    let a := match s.engineAt core x p.1 true with
      | .at_ pa => (s.reEncryptRange x pa p.2).lineStores (dieOf core) false (p.2 / 128 + 2) pa (d.take p.2)
      | .err _ => (s, [])
    let b := a.1.virtWrite core x r (d.drop p.2)
    (b.1, a.2 ++ b.2)

/-- The bytes that a command writes. -/
def State.stream (s : State) (core x : Nat) (m : Cmd) : List Byte :=
  if m.kind = 6 then (List.replicate (m.count / 8) (toBytes 8 m.src.toNat)).flatten else s.virtRead core x m.sources

/-- The 16-byte units of a command's ranges. -/
def unitsOf (l : List (Nat × Nat)) : List Nat := (piecesOf l).flatMap fun p => (List.range (p.2 / 16)).map fun j => p.1 + 16 * j

/-- The 16 bytes that a command writes to each unit of its destination; none where the unit's source cannot be read. -/
def State.unitBytes (s : State) (core x : Nat) (m : Cmd) : List (Option (List Byte)) :=
  if m.kind = 6 then (unitsOf m.targets).map fun _ => some (toBytes 8 m.src.toNat ++ toBytes 8 m.src.toNat)
  else (unitsOf m.sources).map fun a =>
    if s.pieceState core x (a, 16) false == .ready then some (s.virtRead core x [(a, 16)]) else none

/-- One unit of a failed command is written, if the free choice says so and its page can be written. -/
def State.partUnit (s : State) (core x seed a : Nat) (d : Option (List Byte)) : State :=
  match d with
  | none => s
  | some b =>
    if (s.pieceState core x (a, 16) true == .ready) && (Config.freeWord seed).getLsbD 0 then (s.virtWrite core x [(a, 16)] b).1 else s

/-- A command that fails after its checks, with its bytes under way, may have written any subset of the 16-byte units of its
destination (R346): which ones is free (log 14). -/
def State.partWrite (s : State) (m : Cmd) (T : Team) : State :=
  if s.unmoved m then
    let l := ((unitsOf m.targets).zip (s.unitBytes T.core T.ctx m)).zipIdx
    l.foldl (fun t u => t.partUnit T.core T.ctx (s.fresh + u.2) u.1.1 u.1.2) { s with fresh := s.fresh + l.length }
  else s

/-- The source page of an address translates: an error there is one of the data. -/
def State.srcOpen (s : State) (core x a : Nat) : Bool :=
  match s.engineAt core x a false with
  | .at_ _ => true
  | .err _ => false

/-- The bytes of a command move. -/
def State.moveNow (s : State) (m : Cmd) (T : Team) : State :=
  let s := s.reachLines T.core T.ctx m.sources false
  let d := s.stream T.core T.ctx m
  let x := (s.reachLines T.core T.ctx m.targets true).virtWrite T.core T.ctx (piecesOf m.targets) d
  x.1.modCmd m.id fun q => { q with moved := true, stores := x.2 }

/-- A command that stalls gives its copy engine up to others (R17). -/
def State.stall (s : State) (m : Cmd) : State := s.modCmd m.id fun q => { q with engine := none, since := none }

/-- A command that moves bytes through memory: it fails, waits for a walk, a page, a node or what it asked outside the package, or moves
all its bytes. -/
def State.moveBytes (s : State) (m : Cmd) (T : Team) : State :=
  match s.walksWait? T.core T.ctx m.fetched m.pages with
  | some .slot => s.stall m
  | some (.line n) => (s.askLine m.id m.team n).stall m
  | none =>
  let s := s.engineWalks T.core T.ctx m.pages
  match s.spanState T.core T.ctx m with
  | .later => s.stall m
  | .fails c a =>
    (if c = 3 then
      (if s.srcOpen T.core T.ctx a.toNat then s.partWrite m T else s).meetRead T.core T.ctx a.toNat 16
    else s).modCmd m.id fun q => { q with err := some (c, a) }
  | .ready =>
    let far := s.farLines T.core T.ctx m.sources
    if s.asking m.id then s.stall m
    else if m.asked || far.isEmpty then s.moveNow m T
    else
      match s.ask m.id m.team far with
      | some s => (s.modCmd m.id fun q => { q with asked := true }).stall m
      | none => s.stall m

/-- Runs a command of a kind, where a copy engine may run it; else it stands in the copy-engine queue of its die (R342). -/
def State.runCmd (s : State) (id kind : Nat) (f : State → Cmd → Team → State) : State :=
  match s.cmd? id with
  | none => s
  | some m =>
    match s.team? m.team with
    | none => s
    | some T =>
      if m.kind == kind && s.unmoved m && !T.killed then
        match s.engineFor m with
        | some s => f s m T
        | none => if s.awaitsEngine m && m.since.isNone && s.canMove m T then s.modCmd m.id fun q => { q with since := some s.clock } else s
      else s

def execCmdNop (id : Nat) (s : State) : Result :=
  .next (s.runCmd id 0 fun s m _ => s.modCmd m.id fun q => { q with moved := true })
def execCmdCpy (id : Nat) (s : State) : Result := .next (s.runCmd id 1 fun s m T => s.moveBytes m T)
def execCmdCpy2d (id : Nat) (s : State) : Result := .next (s.runCmd id 2 fun s m T => s.moveBytes m T)
def execCmdFill (id : Nat) (s : State) : Result := .next (s.runCmd id 6 fun s m T => s.moveBytes m T)

/-- The tile of a CPYT that starts again after a transfer still waits for it: it is EMPTY, or its context does not own the core's tiles. -/
def State.cpytMay (s : State) (T : Team) (n : Nat) : Bool :=
  (s.core T.core).accown != T.ctx || ((s.core T.core).tile n).state == .empty

/-- CPYT: a command whose fill does not run, or that is to restart after a transfer, starts or parks (R344). -/
def execCmdCpyt (id : Nat) (s : State) : Result :=
  .next (match s.cmd? id with
  | none => s
  | some m =>
    match s.team? m.team, m.tile with
    | some T, some n =>
      if m.kind = 3 ∧ m.err.isNone ∧ !m.moved ∧ !T.killed ∧ (s.fill? id).isNone ∧ !m.parked ∧ s.cpytMay T n then s.startCpyt m T n else s
    | _, _ => s)

/-- CPYP: the copy into the shadow; with PUB, the publish after it, whose checks are made again (R339, R345). -/
def execCmdCpyp (id : Nat) (s : State) : Result :=
  .next (s.runCmd id 4 fun s m T =>
    let s := s.moveBytes m T
    match s.cmd? id with
    | none => s
    | some q =>
      if !(q.moved && m.pub) then s
      else
        match s.pubError T.core T.ctx m with
        | some x => s.modCmd id fun q => { q with err := some x }
        | none => s.publishStep T.core T.ctx m.dst.toNat m.aux.toNat m.count)

/-- CPYR: as CPY, through a Bamlos port. A port that is not UP ends it with LINK_DOWN (R347). -/
def execCmdCpyr (id : Nat) (s : State) : Result :=
  .next (s.runCmd id 5 fun s m T =>
    let p := m.aux.toNat % 256
    if p ≠ 255 ∧ (s.port p).state ≠ .up then s.modCmd id fun q => { q with err := some (8, BitVec.ofNat 64 p) }
    else s.moveBytes m T)

/-! ## Completion (R289, R293, R345, R346) -/

/-- The bitmap bits of the chunks of a stream (R340). -/
def chunkBits (chunk0 bytes : Nat) : DWord :=
  (List.range ((bytes + 511) / 512)).foldl (fun b i => if chunk0 + i < 64 then b ||| (1#64 <<< (chunk0 + i)) else b) 0

/-- What a command's end does to its TBAR. -/
def Cmd.onTbar (m : Cmd) (o : Tbar) : Tbar :=
  match m.err with
  | none => { o with bytes := o.bytes - BitVec.ofNat 32 m.bytes, bitmap := o.bitmap ||| chunkBits m.chunk0 m.bytes }.complete
  | some x => if o.error = 0 then { o with error := x.1, detail := x.2 } else o

/-- The update of the TBAR at a stash offset of a team. It is discarded where no stash mapping holds the offset, or the page of
its line is ABSENT or cannot be written. -/
def State.updateTbar (s : State) (m : Cmd) (T : Team) : State :=
  match T.maps.find? fun p => decide (p.offset ≤ m.tbar) && decide (m.tbar < p.offset + p.len) with
  | none => s
  | some p =>
    let s := s.engineWalk T.core T.ctx (p.base.toNat + (m.tbar - p.offset))
    match s.engineAt T.core T.ctx (p.base.toNat + (m.tbar - p.offset)) true with
    | .err _ => s
    | .at_ pa =>
      let o := s.tbarAt (dieOf T.core) pa
      s.putTbar T pa m.tbar o (m.onTbar o)

/-- The chunks of a CPYT that have landed show in its TBAR (R289, R344). -/
def State.chunksLanded (s : State) (m : Cmd) (T : Team) : State :=
  if !m.tbe then s
  else
    match T.maps.find? fun p => decide (p.offset ≤ m.tbar) && decide (m.tbar < p.offset + p.len) with
    | none => s
    | some p =>
      match s.engineAt T.core T.ctx (p.base.toNat + (m.tbar - p.offset)) true with
      | .err _ => s
      | .at_ pa =>
        let o := s.tbarAt (dieOf T.core) pa
        s.putTbar T pa m.tbar o { o with bitmap := o.bitmap ||| chunkBits m.chunk0 m.bytes }

/-- The line of a command's TBAR lies on a MIGRATING page: the update waits for the publish (R274). -/
def State.tbarWaits (s : State) (m : Cmd) (T : Team) : Bool :=
  m.tbe && (T.maps.any fun p => decide (p.offset ≤ m.tbar) && decide (m.tbar < p.offset + p.len) &&
    match s.leaf? T.core T.ctx (p.base.toNat + (m.tbar - p.offset)) with
    | some e => pteSt e.pte == 2
    | none => false)

/-! ## The end of a fill (R307, R327, R344) -/

/-- The source of a fill. -/
def Fill.source (f : Fill) : List (Nat × Nat) := [(f.src.toNat, tileSize f.tile)]

/-- The address that the failure of a fill's block reports: of the unit whose data fail, else of the block (R347). -/
def State.fillFault (s : State) (c x : Nat) (code : BitVec 16) (va : Nat) : Nat :=
  if code ≠ 3 then va
  else
    match s.engineAt c x va false with
    | .at_ pa => match s.badUnit? pa 256 with
      | some j => va + 16 * j
      | none => va
    | .err _ => va

/-- A fill ends: the tile is READY, or EMPTY where a source block failed; a TLDA lowers cnt.tl, a CPYT has moved. -/
def State.endFill (s : State) (c : Nat) (f : Fill) (T : Team) : State :=
  let x := T.ctx
  let s := s.reachLines c x f.source false
  let cmd := s.cmd? f.id
  let r := s.readImage c x f cmd.isNone (tileSize f.tile / 256) 0 []
  let s := s.modCore c fun C => { C with fills := C.fills.filter fun g => g.id != f.id }
  let s := match r with
    | .ok d => s.filledTile c f.tile d
    | .error e => ((if e.1 = 3 then s.meetRead c x e.2 256 else s).emptyTile c f.tile 2)
  match cmd with
  | none => s.modThread f.team f.tid fun t => { t with cntTl := t.cntTl - 1 }
  | some m =>
    match r with
    | .ok _ => (s.chunksLanded m T).modCmd m.id fun q => { q with moved := true }
    | .error e => s.modCmd m.id fun q => { q with err := some (e.1, BitVec.ofNat 64 (s.fillFault c x e.1 e.2)) }

/-- A fill that may end does so, once the lines outside the package that it reads have come. -/
def State.runFill (s : State) (c : Nat) (f : Fill) (T : Team) : State :=
  let vas := (piecesOf f.source).map fun p => p.1
  let late := match s.cmd? f.id with
    | some m => s.tbarWaits m T
    | none => false
  if s.asking f.id || T.killed || late then s
  else match s.walksWait? c T.ctx f.fetched vas with
  | some .slot => s
  | some (.line n) => s.askLine f.id f.team n
  | none =>
  let s := s.engineWalks c T.ctx vas
  let far := s.farLines c T.ctx f.source
  if f.asked || far.isEmpty then s.endFill c f T
  else
    match s.ask f.id f.team far with
    | some s => s.modCore c fun C => { C with fills := C.fills.map fun g => if g.id == f.id then { g with asked := true } else g }
    | none => s

def execTileFillComplete (id : Nat) (s : State) : Result :=
  .next (match s.fill? id with
  | none => s
  | some (c, f) =>
    match s.team? f.team with
    | none => s
    | some T => if s.fillReady c f then s.runFill c f T else s)

/-- The tile of a fill that ends early is EMPTY: on the core, or in the save image of a context that does not own the core's
tiles (R94, R346). -/
def State.dropFill (s : State) (id : Nat) : State :=
  match s.fill? id with
  | none => s
  | some (c, f) =>
    let s := s.modCore c fun C => { C with fills := C.fills.filter fun g => g.id != id }
    match s.team? f.team with
    | none => s
    | some T =>
      if (s.core c).accown = T.ctx then s.emptyTile c f.tile 2
      else if s.headerValid T.ctx c then s.putSave c (s.saveArea T.ctx c + 0x40 + 4 * f.tile) [0, 0, 0, 0]
      else s

/-- A command that has not completed ends with an error; units of its destination may be written, and a tile that it was
filling is EMPTY (R273, R346). -/
def State.failCmd (s : State) (m : Cmd) (code : BitVec 16) (detail : DWord) : State :=
  let s := match s.team? m.team with
    | some T => s.partWrite m T
    | none => s
  (s.modCmd m.id fun q => { q with err := some (code, detail), parked := false }).dropFill m.id

/-- The virtual address of a command's source that an answer for a line concerns. -/
def State.sourceOn (s : State) (core x line : Nat) (l : List (Nat × Nat)) : Nat :=
  ((piecesOf l).findSome? fun p =>
    match s.engineAt core x p.1 false with
    | .at_ pa => if lineOf pa ≤ line ∧ line * 128 < pa + p.2 then some (p.1 + (line * 128 - pa)) else none
    | .err _ => none).getD 0

/-- What a command or a fill asked outside has come back, good or not: bad data end it (R347, R386). -/
def State.engineBack (s : State) (o : Outside) (good : Bool) : State :=
  if good then s
  else
    match s.cmd? o.req, s.fill? o.req, s.team? o.team with
    | some m, _, some T =>
      let l := match m.tile with
        | some _ => [(m.src.toNat, m.count)]
        | none => m.sources
      s.failCmd m 3 (BitVec.ofNat 64 (s.sourceOn T.core T.ctx o.line l))
    | none, some (_, f), some _ => (s.dropFill f.id).modThread f.team f.tid fun t => { t with cntTl := t.cntTl - 1 }
    | _, _, _ => s

/-! ## The completion write -/

/-- A completion counter falls by one (R293). -/
def State.ccDown (s : State) (k : Nat) (T : Team) (n : BitVec 3) : State :=
  let v := T.ccAt n - 1
  let s := s.modTeam k fun T => T.setCc n v
  if v = 0 then s.tapTeam T 42 n.toNat 0 0 T.slot else s

/-- Kicks whose entries are all taken and whose commands are all complete end; their writers' cnt.cp falls (R337). -/
def State.settleKicks (s : State) (k : Nat) : State :=
  match s.team? k with
  | none => s
  | some T =>
    let inside (x : Nat × Nat × Nat) (i : Nat) : Bool := decide ((i + 2 ^ 32 - x.1) % 2 ^ 32 < (x.2.1 + 2 ^ 32 - x.1) % 2 ^ 32)
    let taken (x : Nat × Nat × Nat) : Bool := decide ((T.notify 4 + 2 ^ 32 - x.2.1) % 2 ^ 32 < 2 ^ 31)
    let olds := T.kicks.filter fun x => taken x && !(s.cmds.any fun c => c.team == k && inside x c.index)
    let T1 := { T with kicks := T.kicks.filter fun x => !olds.contains x }
    s.setTeam k (olds.foldl (fun T x => T.modThread x.2.2 fun t => { t with cntCp := t.cntCp - 1 }) T1)

/-- The completion of a command, in its order (R345, R346): everything it wrote arrives everywhere, the TBAR or lasterr, the
counter. -/
def State.completeCmd (s : State) (m : Cmd) (T : Team) : State :=
  let s := { s with mem := s.mem.flushFrom (dieOf T.core), cmds := s.cmds.filter fun q => q.id != m.id }
  let s := if m.tbe then s.updateTbar m T
    else
      match m.err with
      | some x => s.modTeam m.team fun T => T.setNotify 12 2 x.1.toNat
      | none => s
  let s := if m.cce then
      match s.team? m.team with
      | some T => s.ccDown m.team T m.cc
      | none => s
    else s
  let code := match m.err with
    | some x => x.1.toNat
    | none => 0
  (s.tapTeam T 9 m.kind code (if m.err.isSome then 0 else m.bytes) (s.clock - m.takenAt)).settleKicks m.team

/-- A command may complete: it failed, or its writes have performed at .sys. -/
def State.cmdOver (s : State) (m : Cmd) (T : Team) : Bool :=
  (m.err.isSome || (m.moved && !s.unacked m.stores)) && !s.tbarWaits m T

def execCmdComplete (id : Nat) (s : State) : Result :=
  .next (match s.cmd? id with
  | none => s
  | some m =>
    match s.team? m.team with
    | none => s
    | some T => if s.cmdOver m T then s.completeCmd m T else s)

end Sys2Proof.Machine
end

