-- ==== Sys2Proof/Machine/Yarrow.lean ====
section
/-! DEFINITION. The Yarrow coprocessor (R400 to R414): the filter instructions, runs, the commands of YW_CMD, windows, the
timer, and the samplers (R419). -/

namespace Sys2Proof.Machine

/-! ## A run (R408) -/

/-- The die whose run goes on: the lowest, of those whose turn of this cycle is still to come, with a run in progress. Each die's runs are
independent of the others' (R400). -/
def State.runningDie? (s : State) : Option Nat :=
  (s.dies.find? fun d => decide (s.filterDie ≤ d.1) && d.2.yarrow.run.isSome).map fun d => d.1

def YRun.y (r : YRun) (n : BitVec 4) : Word := r.regs[n.toNat]
def YRun.setY (r : YRun) (n : BitVec 4) (v : Word) : YRun := { r with regs := r.regs.set n.toNat v }

/-- What a filter word sees: its die, coprocessor, program and run. -/
structure YAt where
  die : Nat
  y : Yarrow
  p : YProg
  r : YRun
  deriving DecidableEq, Repr

/-- The run in progress on that die. -/
def State.yAt? (s : State) : Option YAt :=
  match s.runningDie? with
  | none => none
  | some d =>
    let y := (s.die d).yarrow
    match y.run with
    | none => none
    | some r => (tget? r.slot y.progs).map fun p => { die := d, y := y, p := p, r := r }

def State.modYarrow (s : State) (d : Nat) (f : Yarrow → Yarrow) : State := s.modDie d fun D => { D with yarrow := f D.yarrow }

/-- The registers at the start of a run (R408). -/
def startRegs (p : YProg) (e : YEvent) : Vector Word 16 :=
  let k (i : Nat) : Word := p.keep.getD i 0
  #v[BitVec.ofNat 32 e.source, BitVec.ofNat 32 e.ctx, BitVec.ofNat 32 (min e.core 0xFF), BitVec.ofNat 32 e.clock, e.p0, e.p1, e.p2, e.p3,
    0, 0, 0, 0, k 0, k 1, k 2, k 3]

/-- The next program of the event at hand starts, or none is left. -/
def Yarrow.startNext (y : Yarrow) (e : YEvent) : Yarrow :=
  match y.todo with
  | [] => { y with run := none }
  | n :: rest =>
    match tget? n y.progs with
    | some p => { y with todo := rest, run := some { slot := n, pc := 0, event := e, regs := startRegs p e } }
    | none => { y with todo := rest, run := none }

/-- A run goes on at word pc, or ends there: y12 to y15 stay with the program, and the next program of the event starts. -/
def Yarrow.goTo (y : Yarrow) (p : YProg) (r : YRun) (pc : Nat) : Yarrow :=
  let y := { y with spent := tput p.owner (tget 0 p.owner y.spent + 1) y.spent }
  if pc < p.words.length then { y with progs := tput r.slot p y.progs, run := some { r with pc := pc } }
  else
    let p := { p with keep := [r.y 12, r.y 13, r.y 14, r.y 15] }
    { y with progs := tput r.slot p y.progs, run := none }.startNext r.event

/-- A filter word that changes registers and banks alone. -/
def State.yStep (s : State) (f : YAt → YProg × YRun) : State :=
  match s.yAt? with
  | none => s
  | some a => s.modYarrow a.die fun y => y.goTo (f a).1 (f a).2 (a.r.pc + 1)

/-- A filter word that writes one register. -/
def State.ySet (s : State) (d : BitVec 4) (f : YAt → Word) : State := s.yStep fun a => (a.p, a.r.setY d (f a))

/-! ## Filter arithmetic (R409) -/

def execYadd (d a b : BitVec 4) (s : State) : Result := .next (s.ySet d fun x => x.r.y a + x.r.y b)
def execYsub (d a b : BitVec 4) (s : State) : Result := .next (s.ySet d fun x => x.r.y a - x.r.y b)
def execYand (d a b : BitVec 4) (s : State) : Result := .next (s.ySet d fun x => x.r.y a &&& x.r.y b)
def execYor (d a b : BitVec 4) (s : State) : Result := .next (s.ySet d fun x => x.r.y a ||| x.r.y b)
def execYxor (d a b : BitVec 4) (s : State) : Result := .next (s.ySet d fun x => x.r.y a ^^^ x.r.y b)
def execYshl (d a b : BitVec 4) (s : State) : Result := .next (s.ySet d fun x => x.r.y a <<< (x.r.y b).toNat)
def execYshr (d a b : BitVec 4) (s : State) : Result := .next (s.ySet d fun x => x.r.y a >>> (x.r.y b).toNat)
def execYminu (d a b : BitVec 4) (s : State) : Result :=
  .next (s.ySet d fun x => if (x.r.y a).ule (x.r.y b) then x.r.y a else x.r.y b)
def execYmaxu (d a b : BitVec 4) (s : State) : Result :=
  .next (s.ySet d fun x => if (x.r.y a).ule (x.r.y b) then x.r.y b else x.r.y a)
def execYaddi (d a : BitVec 4) (imm : BitVec 15) (s : State) : Result :=
  .next (s.ySet d fun x => x.r.y a + imm.signExtend 32)
def execYandi (d a : BitVec 4) (imm : BitVec 15) (s : State) : Result :=
  .next (s.ySet d fun x => x.r.y a &&& imm.setWidth 32)
def execYshi (d a : BitVec 4) (k : ShKind) (n : BitVec 5) (s : State) : Result :=
  .next (s.ySet d fun x => match k with
    | .shl => x.r.y a <<< n.toNat
    | .shr => x.r.y a >>> n.toNat
    | .sar => (x.r.y a).sshiftRight n.toNat)
def execYmovi (d : BitVec 4) (imm : BitVec 15) (s : State) : Result := .next (s.ySet d fun _ => imm.signExtend 32)
def execYins (d : BitVec 4) (imm : BitVec 15) (s : State) : Result :=
  .next (s.ySet d fun x => (x.r.y d <<< 15) ||| imm.setWidth 32)

/-- Leading zeros of a word, 32 for zero. -/
def leadingZeros (v : Word) : Nat := ((List.range 32).find? fun i => v.getLsbD (31 - i)).getD 32

def execYclz (d a : BitVec 4) (s : State) : Result :=
  .next (s.ySet d fun x => BitVec.ofNat 32 (leadingZeros (x.r.y a)))

/-- yhash of a value under seed r. -/
def yhash (v : Word) (r : Nat) : Word :=
  let seed : Word := match r with
    | 0 => 0
    | 1 => 0x85EBCA6B
    | 2 => 0xC2B2AE35
    | _ => 0x27D4EB2F
  (v ^^^ seed) * 0x9E3779B9

def execYhash (d a : BitVec 4) (r : BitVec 2) (s : State) : Result :=
  .next (s.ySet d fun x => yhash (x.r.y a) r.toNat)

/-- The condition of YBR. -/
def ycondHolds (c : YCond) (a b : Word) : Bool :=
  match c with
  | .eq => a == b
  | .ne => a != b
  | .ltu => a.ult b
  | .geu => b.ule a
  | .lt => a.slt b
  | .ge => b.sle a
  | .al => true

def execYbr (c : YCond) (a b : BitVec 4) (imm : BitVec 15) (s : State) : Result :=
  .next (match s.yAt? with
  | none => s
  | some x => s.modYarrow x.die fun y =>
      y.goTo x.p x.r (x.r.pc + if ycondHolds c (x.r.y a) (x.r.y b) then imm.toNat else 1))

/-! ## Banks (R404, R409, R410) -/

/-- A saturating sum. -/
def satAdd32 (a b : Word) : Word := BitVec.ofNat 32 (min (a.toNat + b.toNat) 0xFFFFFFFF)

/-- A bank of a program: h0 to h3 at 0 to 3, k0 and k1 at 4 and 5. -/
def YProg.bank (p : YProg) (n : Nat) : Sparse 32 := tget [] n p.banks
def YProg.setBank (p : YProg) (n : Nat) (b : Sparse 32) : YProg := { p with banks := tput n b p.banks }

/-- The bin that a value selects. -/
def YProg.bin (p : YProg) (n : Nat) (v : Word) : Nat := min v.toNat (p.hbins.getD n 0 - 1)

def execYhist (n : BitVec 2) (a b : BitVec 4) (s : State) : Result :=
  .next (s.yStep fun x =>
    let i := x.p.bin n.toNat (x.r.y a)
    let h := x.p.bank n.toNat
    (x.p.setBank n.toNat (sput i (satAdd32 (sget i h) (x.r.y b)) h), x.r))

/-- The cell of row r for a value. -/
def sketchCell (v : Word) (r : Nat) : Nat := 1024 * r + ((yhash v r).toNat / 2 ^ 22)

def execYcms (n : BitVec 1) (a b : BitVec 4) (s : State) : Result :=
  .next (s.yStep fun x =>
    let k := 4 + n.toNat
    (x.p.setBank k ((List.range 4).foldl (fun h r =>
      let i := sketchCell (x.r.y a) r
      sput i (satAdd32 (sget i h) (x.r.y b)) h) (x.p.bank k)), x.r))

def execYcmq (d : BitVec 4) (n : BitVec 1) (a : BitVec 4) (s : State) : Result :=
  .next (s.ySet d fun x =>
    let h := x.p.bank (4 + n.toNat)
    let c (r : Nat) : Nat := (sget (sketchCell (x.r.y a) r) h).toNat
    BitVec.ofNat 32 (min (min (c 0) (c 1)) (min (c 2) (c 3))))

def execYldb (d : BitVec 4) (n : BitVec 2) (a : BitVec 4) (s : State) : Result :=
  .next (s.ySet d fun x => sget (x.p.bin n.toNat (x.r.y a)) (x.p.bank n.toNat))

/-- What an owner has left in this window. -/
def Yarrow.left (y : Yarrow) (owner : Nat) : Nat := tget 0 owner y.budgets - tget 0 owner y.spent

def execYrds (d : BitVec 4) (n : BitVec 15) (s : State) : Result :=
  .next (s.ySet d fun x => match n.toNat with
    | 0 => BitVec.ofNat 32 s.clock
    | 1 => BitVec.ofNat 32 (s.clock / 2 ^ 32)
    | 2 => x.y.refused.extractLsb' 0 32
    | 3 => BitVec.ofNat 32 (tget 0 x.p.owner x.y.drops)
    | _ => BitVec.ofNat 32 (x.y.left x.p.owner))

def execYend (s : State) : Result :=
  .next (match s.yAt? with
  | none => s
  | some x => s.modYarrow x.die fun y => y.goTo x.p x.r x.p.words.length)

/-! ## Triggers (R412, R413) -/

/-- A physical address in host-reserved memory (R265). -/
def State.hostReserved (s : State) (pa : Nat) : Bool := inHbm pa && s.frame (pa / 2 ^ 16) == .assigned 0

/-- The physical address of a ring write of a program, where its page is resident and writable: through the owner's context as a
store, or physical for owner 0. -/
def State.ringAddr? (s : State) (a : YAt) (o : Nat) : Option Nat :=
  let va := a.p.ring.toNat + o
  if a.p.ringlog2 = 0 then none
  else if a.p.owner = 0 then (if s.hostReserved va then some va else none)
  else
    match s.engineAt (32 * a.die) a.p.owner va true with
    | .err _ => none
    | .at_ pa =>
      match s.leaf? (32 * a.die) a.p.owner va with
      | some e => if pteSt e.pte = 1 ∧ !s.unreachable pa then some pa else none
      | none => none

/-- The 32 bytes of record n. -/
def YAt.record (a : YAt) (n : Nat) : List Byte :=
  toBytes 2 a.r.event.ctx ++ toBytes 1 a.r.slot ++ toBytes 1 a.r.event.source ++ toBytes 4 n ++ toBytes 8 a.r.event.clock ++
    ([8, 9, 10, 11].flatMap fun i => toBytes 4 (a.r.y i).toNat)

/-- T_hold of the requests of a Yarrow coprocessor for an owner: 1,024 cycles for owner 0 (R232). -/
def State.yarrowHold (s : State) (owner : Nat) : Nat := if owner = 0 then 1024 else (s.ctx owner).thold.toNat

/-- Entries for the writes of one coprocessor that are on their way (R413). -/
def yarrowEntries : Nat := 64

/-- A record's writes perform, each as a release at .sys: at once, or, where accesses pass through the shared queues, when the request that
carries them is through (R229, R413). -/
def State.yarrowWrite (s : State) (a : YAt) (cl next : Nat) (writes : List (Nat × List Byte)) : State :=
  if !s.viaQueues then writes.foldl (fun s w => s.report w.1 w.2) s
  else
    (s.modYarrow a.die fun y => { y with outs := y.outs ++ [{ id := s.fresh, cl := cl, next := next, writes := writes }] }).enterAgent
      (agentNumber 4 a.die) (s.yarrowHold a.p.owner) (s.routeFrom a.die (writes.head?.map fun w => w.1)) (.yarrowRun a.die)

/-- The record that an agent request carries, with its die. -/
def State.yOut? (s : State) (id : Nat) : Option (Nat × YOut) :=
  s.dies.findSome? fun d => (d.2.yarrow.outs.find? fun o => o.id == id).map fun o => (d.1, o)

/-- The writes of a record perform, and its entry is free. -/
def State.yWritten (s : State) (d : Nat) (o : YOut) : State :=
  (o.writes.foldl (fun s w => s.report w.1 w.2) s).modYarrow d fun y => { y with outs := y.outs.filter fun p => p.id != o.id }

/-- widx of a ring as its coprocessor sees it: after its own records that are on their way. -/
def Yarrow.widx (y : Yarrow) (cl stored : Nat) : Nat :=
  (y.outs.filter fun o => o.cl == cl).foldl (fun _ o => o.next) stored

/-- RECORD: the record and widx, or one more drop. Nothing can be written where the control line cannot. -/
def State.record (s : State) (a : YAt) : State :=
  match s.ringAddr? a 0 with
  | none => s
  | some cl =>
    let rd (o n : Nat) : Nat := ofBytes (s.homeRead (cl + o) n)
    let n := a.y.widx cl (rd 0 4)
    let drop : State := s.report (cl + 8) (toBytes 4 (rd 8 4 + 1))
    if rd 12 4 % 2 = 1 ∨ (n + 2 ^ 32 - rd 4 4) % 2 ^ 32 = 2 ^ a.p.ringlog2 ∨ 16384 < a.y.written + 32 ∨
        yarrowEntries ≤ a.y.outs.length then drop
    else
      match s.ringAddr? a (128 + 32 * (n % 2 ^ a.p.ringlog2)) with
      | none => drop
      | some pa =>
        (s.yarrowWrite a cl ((n + 1) % 2 ^ 32) [(pa, a.record n), (cl, toBytes 4 (n + 1))]).modYarrow a.die fun y =>
          { y with written := y.written + 32 }

/-- A trigger: its effect, then the next word. -/
def State.yTrigger (s : State) (f : State → YAt → State) (g : YAt → YProg) : State :=
  match s.yAt? with
  | none => s
  | some a => (f s a).modYarrow a.die fun y => y.goTo (g a) a.r (a.r.pc + 1)

def execYtrigRecord (s : State) : Result := .next (s.yTrigger (fun s a => s.record a) fun a => a.p)

/-- The function that an owner's interrupt goes to. -/
def State.ownerFn? (s : State) (owner : Nat) : Option Nat :=
  if owner = 0 then some 0 else (s.vfs.find? fun v => v.2.ctx.toNat == owner).map fun v => v.1

/-- INTERRUPT: at most one for a slot in a window. -/
def execYtrigInterrupt (s : State) : Result :=
  let fires (a : YAt) : Bool :=
    a.p.vector != 0xFFFF && (s.ownerFn? a.p.owner).isSome && tget? a.r.slot a.y.intrs != some a.y.window
  .next (s.yTrigger
    (fun s a =>
      if fires a then
        (s.emit (.interrupt ((s.ownerFn? a.p.owner).getD 0) a.p.vector)).modYarrow a.die fun y =>
          { y with intrs := tput a.r.slot y.window y.intrs }
      else s) fun a => a.p)

/-- FREEZE sets FROZEN in the control line. -/
def execYtrigFreeze (s : State) : Result :=
  .next (s.yTrigger (fun s a => match s.ringAddr? a 12 with
    | none => s
    | some pa =>
      let v := ofBytes (s.homeRead pa 4)
      s.report pa (toBytes 4 (if v % 2 = 0 then v + 1 else v))) fun a => a.p)

/-- A sampler starts (R419). -/
def State.startSampler (s : State) (c count log2 x : Nat) : State :=
  s.modCore c fun C => { C with sampler := { count := count, log2 := log2, ctx := x, last := 0, next := s.clock + 2 ^ log2 } }

def execYtrigArm (a : BitVec 4) (s : State) : Result :=
  .next (s.yTrigger (fun s x =>
    let v := x.r.y a
    let l := (v.extractLsb' 16 5).toNat
    if x.r.event.core = noCore ∨ l < 6 ∨ 20 < l then s
    else s.startSampler x.r.event.core (v.extractLsb' 0 16).toNat l x.p.owner) fun x => x.p)

/-! ## Runs, windows, the timer (R400, R405, R407) -/

/-- The slots of an owner's programs that an event runs, in ascending order. -/
def Yarrow.attached (y : Yarrow) (owner : Nat) (e : YEvent) : List Nat :=
  (y.progs.filter fun p => p.2.owner == owner && p.2.takes e).map fun p => p.1

/-- The copy at the head of the FIFO runs its owner's programs, or is dropped where the budget is short (R407). -/
def Yarrow.takeCopy (y : Yarrow) : Yarrow :=
  match y.run, y.fifo with
  | none, (owner, e) :: rest =>
    let slots := y.attached owner e
    let need : Nat := (slots.map fun k => match tget? k y.progs with
      | some p => p.words.length
      | none => 0).sum
    let y := { y with fifo := rest }
    if y.left owner < need then y.dropCopy owner else { y with todo := slots }.startNext e
  | _, _ => y

def execYarrowRun (die : Nat) (s : State) : Result := .next (s.modYarrow die Yarrow.takeCopy)

/-- A new window: budgets and interrupt limits renew (R407, R412), and 16,384 more bytes may be written (R413). -/
def execYarrowWindow (die : Nat) (s : State) : Result :=
  .next (s.modYarrow die fun y =>
    if y.window < s.clock / 1024 then { y with window := s.clock / 1024, spent := [], written := y.written - 16384 } else y)

def execYarrowTimerEvent (die : Nat) (s : State) : Result :=
  .next (if (s.die die).yarrow.timer < s.clock / 65536 then
    (s.modYarrow die fun y => { y with timer := s.clock / 65536 }).tap die
      { source := 43, ctx := 0, core := noCore, clock := s.clock, p0 := BitVec.ofNat 32 (s.clock / 65536) }
  else s)

/-! ## YW_CMD (R402 to R404, R407, R419) -/

/-- A command ends with a result. -/
def State.ywDone (s : State) (result : BitVec 3) (word : Nat) (x : BitVec 12) : State :=
  { s.modRegs fun g => { g with ywResult := result, ywWord := BitVec.ofNat 8 word, ywCtx := x } with ywPend := none }

/-- A command that needs no wait; ignored while another is BUSY. -/
def State.ywCommand (s : State) (f : State → State) : State := if s.ywPend.isSome then s else f s

/-- A run of the slot is in progress. -/
def Yarrow.runs (y : Yarrow) (slot : Nat) : Bool :=
  match y.run with
  | some r => r.slot == slot
  | none => false

/-- Bytes of a DUMP are written where an entry is free, as many as the window still takes (R413); with the last of them the command ends. -/
def State.dumpMore (s : State) (p : YwPend) : State :=
  let y := (s.die p.die).yarrow
  let now := if yarrowEntries ≤ y.outs.length then [] else p.rest.take (16384 - y.written)
  let s := if now.isEmpty then s
    else (s.report p.addr now).modYarrow p.die fun y => { y with written := y.written + now.length }
  if now.length = p.rest.length then s.ywDone 0 0 0
  else { s with ywPend := some { p with addr := p.addr + now.length, rest := p.rest.drop now.length } }

/-- A command on a slot, which takes effect between two runs of it (R402, R404), or the one in progress goes on. -/
def State.ywBetween (s : State) (me : YwPend) (f : State → State) : State :=
  let busy := (s.die me.die).yarrow.runs me.slot
  match s.ywPend with
  | some p =>
    if { p with addr := me.addr, rest := me.rest } ≠ me then s
    else if p.rest.isEmpty then (if busy then s else f s)
    else s.dumpMore p
  | none => if busy then { s with ywPend := some me } else f s

/-- Bytes of bank storage that a program takes. -/
def YProg.storage (p : YProg) : Nat := p.hbins.foldl (fun n b => n + 4 * b) 0 + 16384 * p.nsketch

/-- A histogram size. -/
def hbinsOk (b : Nat) : Bool := [0, 16, 32, 64, 128, 256, 512, 1024, 2048, 4096].contains b

/-- The program that a load descriptor of 64 bytes describes; its words are read later. -/
def loadProg (d : List Byte) : YProg :=
  { owner := field d 0 2, words := [], ringlog2 := field d 3 1
    hbins := [field d 4 2, field d 6 2, field d 8 2, field d 10 2], nsketch := field d 12 1
    vector := BitVec.ofNat 16 (field d 14 2), sources := BitVec.ofNat 64 (field d 16 8), ring := BitVec.ofNat 64 (field d 32 8) }

/-- The owner may load: 0, or a context that is bound and not stopped. -/
def State.ownerOk (s : State) (x : Nat) : Bool :=
  x == 0 || match (s.ctx x).state with
    | .bound | .runnable | .running | .preempted => true
    | .created | .faulted | .fenced | .destroyed => false

/-- The descriptor's own fields are in range. -/
def State.loadFieldsOk (s : State) (d : List Byte) (p : YProg) : Bool :=
  let len := field d 2 1
  let code := field d 24 8
  decide (1 ≤ len) && decide (len ≤ 64) && (p.ringlog2 == 0 || (decide (6 ≤ p.ringlog2) && decide (p.ringlog2 ≤ 16))) &&
    p.hbins.all hbinsOk && decide (p.nsketch ≤ 2) && field d 13 1 == 0 && field d 22 2 == 0 &&
    code % 4 == 0 && s.hostReserved code && s.hostReserved (code + 4 * len - 1) && field d 32 8 % 4096 == 0 &&
    (p.owner != 0 || p.ringlog2 == 0 || s.hostReserved (field d 32 8)) &&
    field d 40 8 == 0 && field d 48 8 == 0 && field d 56 8 == 0 && s.ownerOk p.owner

/-- A word that LOAD accepts at an index (R411). -/
def YProg.wordOk (p : YProg) (len i : Nat) (w : Word) : Bool :=
  match decodeFilter w with
  | none => false
  | some (.ybr _ _ _ imm) => decide (1 ≤ imm.toNat) && decide (imm.toNat ≤ 63) && decide (i + imm.toNat ≤ len)
  | some (.yhist n _ _) => p.hbins.getD n.toNat 0 != 0
  | some (.yldb _ n _) => p.hbins.getD n.toNat 0 != 0
  | some (.ycms n _ _) => decide (n.toNat < p.nsketch)
  | some (.ycmq _ n _) => decide (n.toNat < p.nsketch)
  | some _ => true

/-- LOAD. -/
def State.ywLoad (s : State) (die : Nat) (slot : Nat) : State :=
  let y := (s.die die).yarrow
  let a := s.regs.ywArg.toNat
  if (tget? slot y.progs).isSome then s.ywDone 1 0 0
  else if a % 64 ≠ 0 ∨ !s.hostReserved a then s.ywDone 2 0 0
  else
    let d := s.homeRead a 64
    let p := loadProg d
    if !s.loadFieldsOk d p then s.ywDone 2 0 0
    else
      let len := field d 2 1
      let words := (List.range len).map fun i => BitVec.ofNat 32 (ofBytes (s.homeRead (field d 24 8 + 4 * i) 4))
      match words.zipIdx.find? fun w => !p.wordOk len w.2 w.1 with
      | some w => s.ywDone 2 w.2 0
      | none =>
        if 262144 < (y.progs.foldl (fun n q => n + q.2.storage) 0) + p.storage then s.ywDone 4 0 0
        else (s.modYarrow die fun y => { y with progs := tput slot { p with words := words } y.progs }).ywDone 0 0 0

def execYwLoad (die : Nat) (slot : BitVec 4) (s : State) : Result :=
  .next (s.asHost fun s => s.ywCommand fun s => s.ywLoad die slot.toNat)

/-- UNLOAD, after a run of the slot that is in progress. -/
def State.ywUnload (s : State) (die slot : Nat) : State :=
  s.ywBetween { op := 2, die := die, slot := slot, bank := 0 } fun s =>
    if (tget? slot (s.die die).yarrow.progs).isNone then s.ywDone 1 0 0
    else (s.modYarrow die fun y => { y with progs := tdel slot y.progs, todo := y.todo.filter fun n => n != slot }).ywDone 0 0 0

def execYwUnload (die : Nat) (slot : BitVec 4) (s : State) : Result := .next (s.asHost fun s => s.ywUnload die slot.toNat)

/-- Bytes of a bank, 0 where it is not allotted. -/
def YProg.bankSize (p : YProg) (n : Nat) : Nat :=
  if n < 4 then 4 * p.hbins.getD n 0 else if n - 4 < p.nsketch then 16384 else 0

/-- DUMP and CLEAR take effect between two runs, and meet the same conditions on slot and bank. A bank that the program does not have is
refused with 2. -/
def State.ywBank (s : State) (op die slot bank : Nat) (f : State → YProg → State) : State :=
  s.ywBetween { op := op, die := die, slot := slot, bank := bank } fun s =>
    if 5 < bank then s.ywDone 3 0 0
    else
      match tget? slot (s.die die).yarrow.progs with
      | none => s.ywDone 1 0 0
      | some p => if p.bankSize bank = 0 then s.ywDone 2 0 0 else f s p

/-- The bytes that DUMP copies: bins or cells in order (R404). -/
def YProg.dump (p : YProg) (bank : Nat) : List Byte :=
  (List.range (p.bankSize bank / 4)).flatMap fun i => toBytes 4 (sget i (p.bank bank)).toNat

def State.ywDump (s : State) (die slot bank : Nat) : State :=
  s.ywBank 3 die slot bank fun s p =>
    let a := s.regs.ywArg.toNat
    if a % 4096 ≠ 0 ∨ !s.hostReserved a ∨ !s.hostReserved (a + p.bankSize bank - 1) then s.ywDone 2 0 0
    else s.dumpMore { op := 3, die := die, slot := slot, bank := bank, addr := a, rest := p.dump bank }

def execYwDump (die : Nat) (slot bank : BitVec 4) (s : State) : Result := .next (s.asHost fun s => s.ywDump die slot.toNat bank.toNat)

def State.ywClear (s : State) (die slot bank : Nat) : State :=
  s.ywBank 4 die slot bank fun s p =>
    (s.modYarrow die fun y => { y with progs := tput slot (p.setBank bank []) y.progs }).ywDone 0 0 0

def execYwClear (die : Nat) (slot bank : BitVec 4) (s : State) : Result := .next (s.asHost fun s => s.ywClear die slot.toNat bank.toNat)

def State.ywBudget (s : State) (die : Nat) (x : BitVec 12) : State :=
  let y := (s.die die).yarrow
  let b := s.regs.ywArg.toNat
  if 1024 < (y.budgets.foldl (fun n q => if q.1 = x.toNat then n else n + q.2) 0) + b then s.ywDone 5 0 x
  else (s.modYarrow die fun y => { y with budgets := if b = 0 then tdel x.toNat y.budgets else tput x.toNat b y.budgets }).ywDone 0 0 x

def execYwBudget (die : Nat) (x : BitVec 12) (s : State) : Result :=
  .next (s.asHost fun s => s.ywCommand fun s => s.ywBudget die x)

def State.ywSample (s : State) (die pos : Nat) (x : BitVec 12) : State :=
  let l := (s.regs.ywArg.extractLsb' 16 5).toNat
  if l < 6 ∨ 20 < l then s.ywDone 2 0 x
  else (s.startSampler (32 * die + pos) (s.regs.ywArg.extractLsb' 0 16).toNat l x.toNat).ywDone 0 0 x

def execYwSample (die : Nat) (pos : BitVec 5) (x : BitVec 12) (s : State) : Result :=
  .next (s.asHost fun s => s.ywCommand fun s => s.ywSample die pos.toNat x)

/-! ## Samplers (R419) -/

/-- A bundle that a sampler may select: its place in the round-robin order, its team, its leader's index, its state and pc. -/
structure Sampled where
  place : Nat
  gid : Word
  team : Nat
  tid : Nat
  code : Nat
  pc : DWord
  deriving DecidableEq, Repr

/-- A thread as a sampler finds it: its number, its state and pc, its bundle, and the group of 32 indices of one that is in no bundle and no
bin. -/
structure SampleRow where
  tid : Nat
  told : Nat × DWord
  bundle : Option Nat
  group : Nat
  deriving DecidableEq, Repr

/-- Two threads stand in one bundle, or wait in one way as one would. -/
def SampleRow.joins (a b : SampleRow) : Bool := a.told == b.told && a.bundle == b.bundle && a.group == b.group

/-- The threads of a team that a sampler may find. EXITED ones count in an EXITING team alone. -/
def State.sampleRows (s : State) (k : Nat) (T : Team) : List SampleRow :=
  (T.threads.zipIdx.filter fun x => x.1.status != .exited || T.phase == .exiting).map fun x =>
    let told := s.told k x.2 x.1 (s.inBin k x.2 T)
    { tid := x.2, told := told, bundle := if told.1 = 0 then none else x.1.bundle
      group := if told.1 = 0 ∨ told.1 = 5 ∨ x.1.bundle.isSome then 0 else x.2 / 32 + 1 }

/-- The bundles of a team, each named by its leader, its lowest lane (R71, R170, R420): that which has just issued, READY threads by bundle,
those of a bin, the others by state, pc and group of 32 indices. -/
def State.sampledOf (s : State) (k : Nat) (T : Team) : List Sampled :=
  (s.sampleRows k T).foldl (fun (acc : List (SampleRow × Nat)) r =>
    if acc.any fun q => q.1.joins r then
      acc.map fun q => if q.1.joins r && decide (laneOf r.tid < laneOf q.2) then (q.1, r.tid) else q
    else acc ++ [(r, r.tid)]) [] |>.map fun q =>
      { place := 1024 * k + q.2 + 1, gid := T.gid, team := T.index, tid := q.2, code := q.1.told.1, pc := q.1.told.2 }

/-- The bundles of a core that pass the filter, in order. -/
def State.sampledOn (s : State) (c x : Nat) : List (Sampled × Nat) :=
  (s.teams.filter fun kt => kt.2.core == c && kt.2.phase.isResident && (x == 0 || kt.2.ctx == x)).flatMap fun kt =>
    (s.sampledOf kt.1 kt.2).map fun q => (q, kt.2.ctx)

/-- A sampler's interval ends. -/
def State.sampleOn (s : State) (c : Nat) : State :=
  let m := (s.core c).sampler
  let l := s.sampledOn c m.ctx
  let s := s.modCore c fun C => { C with sampler := { m with next := m.next + 2 ^ m.log2 } }
  let pick := match l.find? fun q => decide (m.last < q.1.place) with
    | some q => some q
    | none => l.head?
  match pick with
  | none => s
  | some q =>
    (s.modCore c fun C => { C with sampler := { C.sampler with count := m.count - 1, last := q.1.place } }).tap (dieOf c)
      { source := 34, ctx := q.2, core := c, clock := s.clock, p0 := q.1.pc.extractLsb' 0 32
        p1 := BitVec.ofNat 32 (q.1.code * 2 ^ 24 + q.1.tid), p2 := q.1.gid, p3 := BitVec.ofNat 32 q.1.team }

def execSamplerTick (c : Nat) (s : State) : Result :=
  .next (if (s.core c).sampler.count ≠ 0 ∧ (s.core c).sampler.next ≤ s.clock then s.sampleOn c else s)

/-! ## LIT (R59, R61) -/

/-- LIT: its payload joins the group; the bundle goes on to the next word. -/
def execLit (p : BitVec 25) (s : State) : Result :=
  let first : DWord := match s.lanes with
    | x :: _ => x.2.pc
    | [] => 0
  .next ({ s with
    lits := { payloads := s.lits.payloads ++ [p], pc0 := if s.lits.payloads.isEmpty then first else s.lits.pc0 } }.onLanes
      fun _ _ t => .done t.next)

end Sys2Proof.Machine
end

