-- ==== Sys2Proof/Machine/Grids.lean ====
section
/-! DEFINITION. Grids and teams: kernel descriptors (R107, R108), the states of a grid (R112 to R115), retirement (R102), kill
(R112), placement (R116 to R119), and the end of a team (R181). -/

namespace Sys2Proof.Machine

/-! ## What the front end reads and writes in a context -/

/-- The physical address of a word of a context, on a page that allows the access. A read is served as a load is, on a MIGRATING or
an EVAC page too (R241, R272, R274); a write needs a RESIDENT page (R98, R104). -/
def State.front? (s : State) (x va : Nat) (write : Bool) : Option Nat :=
  match s.engineAt 0 x va write with
  | .err _ => none
  | .at_ pa =>
    match s.leaf? 0 x va with
    | some e => if (!write || pteSt e.pte == 1) && !s.unreachable pa then some pa else none
    | none => none

/-- The page of an address is RESIDENT. -/
def State.residentPage (s : State) (x va : Nat) : Bool :=
  match s.leaf? 0 x va with
  | some e => pteSt e.pte == 1
  | none => false

/-- Bytes of a context read where they are coherent, within one page. Where they are uncorrectable or in a marked block (R422 gives the
outcome of a thread, an engine and a walk alone), and where their node cannot be reached (R387 and R389 name no front end), they cannot be read:
a queue faults as for a page that is not there (DESIGN CHOICE, log 96). -/
def State.frontRead (s : State) (x va n : Nat) : Option (List Byte) :=
  match s.front? x va false with
  | some pa => if (s.badBlock? pa n).isSome then none else some ((s.gather (homeDie pa) pa n).mem.read (homeDie pa) pa n)
  | none => none

/-- The MAX.U of a completion word, a release at .sys; none where the word cannot be written (R102, R104). -/
def State.maxWord (s : State) (x va : Nat) (v : DWord) : Option State :=
  match s.front? x va true with
  | none => none
  | some pa =>
    let s := s.gather (homeDie pa) pa 8
    let old : DWord := BitVec.ofNat 64 (ofBytes (s.homeRead pa 8))
    some (s.report pa (toBytes 8 (if old.ult v then v else old).toNat))

/-! ## Kernel descriptors (R107, R108) -/

/-- A descriptor's 128 bytes. -/
def kernelOf (b : List Byte) : Kernel :=
  let flags : BitVec 16 := BitVec.ofNat 16 (field b 30 2)
  { code := BitVec.ofNat 64 (field b 0 8), regs := field b 8 2, tx := field b 10 2, ty := field b 12 2, tz := field b 14 2
    stash := field b 16 4, nacc := field b 20 1, nabuf := field b 21 1, nbslot := field b 22 2, ringoff := field b 24 4
    ringlen := field b 28 1, fThold := flags.getLsbD 2, fTiles := flags.getLsbD 1, fMirror := flags.getLsbD 0
    thold := BitVec.ofNat 32 (field b 32 4), argsize := field b 36 4, stamps := BitVec.ofNat 64 (field b 40 8)
    scratch := field b 48 4, corepin := field b 52 2
    exts := (List.range 16).map fun i => BitVec.ofNat 32 (field b (64 + 4 * i) 4) }

def Kernel.threads (k : Kernel) : Nat := k.tx * k.ty * k.tz

/-- An extent declaration is in range. -/
def extOk (argsize : Nat) (e : Word) : Bool :=
  if e.extractLsb' 14 18 = 0 then e == 0
  else (e.extractLsb' 12 2 == 1 || e.extractLsb' 12 2 == 2) && e.extractLsb' 9 3 == 0 &&
    decide ((e.extractLsb' 0 9).toNat < argsize / 8)

/-- The descriptor is valid in a context. -/
def State.kernelOk (s : State) (x : Nat) (b : List Byte) (k : Kernel) : Bool :=
  k.code.toNat % 4 == 0 && decide (16 ≤ k.regs) && decide (k.regs ≤ 512) && k.regs % 16 == 0 &&
    decide (1 ≤ k.threads) && decide (k.threads ≤ 1024) && decide (k.threads * k.regs ≤ 393216) &&
    k.stash % 4096 == 0 && decide (k.stash ≤ 524288) && decide (k.nacc ≤ 64) && decide (k.nabuf ≤ 8) &&
    decide (k.nbslot ≤ 512) && k.ringoff % 128 == 0 && [0, 8, 16, 32, 64].contains k.ringlen &&
    (k.ringlen == 0 || decide (k.ringoff + 32 * k.ringlen + 128 ≤ k.stash)) &&
    field b 29 1 == 0 && decide (field b 30 2 < 8) && field b 54 8 == 0 && field b 62 2 == 0 &&
    (if k.fThold then decide (128 ≤ k.thold.toNat) && decide (k.thold.toNat ≤ 65536) else k.thold == 0) &&
    (if k.fTiles then (s.ctx x).desc.tiles else k.nacc == 0 && k.nabuf == 0 && k.nbslot == 0 && k.ringlen == 0) &&
    k.argsize % 8 == 0 && decide (k.argsize ≤ 4096) && k.stamps.toNat % 32 == 0 && k.scratch % 4096 == 0 &&
    (k.corepin == 0xFFFF || (decide (k.corepin < 256) && !(s.core k.corepin).fenced)) && k.exts.all (extOk k.argsize)

/-- Reads and validates a descriptor. -/
def State.readKernel (s : State) (x : Nat) (va : DWord) : Option Kernel :=
  if va.toNat % 128 ≠ 0 then none
  else
    match s.frontRead x va.toNat 128 with
    | none => none
    | some b => if s.kernelOk x b (kernelOf b) then some (kernelOf b) else none

/-! ## Retirement and kill (R102, R112, R114) -/

/-- Teams of the grid still to be placed. -/
def Grid.count (G : Grid) : Nat := G.x * G.y * G.z

/-- The teams of a grid that are not DONE. -/
def State.liveTeams (s : State) (x : Nat) (g : Word) : List (Nat × Team) :=
  (s.teamsOf x).filter fun kt => kt.2.gid == g && kt.2.phase != .done

/-- The grids that a grid launched and that have not ended. -/
def State.liveChildren (s : State) (x : Nat) (g : Word) : List Grid :=
  s.grids.filter fun G => G.ctx == x && G.parent == some g && !G.state.ended

/-- Grids of a queue in flight. One that ended FAULTED or KILLED never retires: for ORDER, for a signal and for DRAIN it counts as over
(DEDUCED, log 73: R103 lets CLEAR resume the queue). -/
def State.inFlight (s : State) (q : Nat) : List Grid := s.grids.filter fun G => G.queue == some q && !G.state.ended

/-- A DRAINING queue with no grid in flight is BOUND (R103). -/
def State.settleDrain (s : State) (q : Nat) : State :=
  if (s.queue q).state = .draining ∧ (s.inFlight q).isEmpty then s.setQueue q .bound 0 else s

/-- A grid retires: its finish time, the completion word, the interrupt. With no completion word the interrupt is raised all the same when
the grid retires (DEDUCED, log 74). -/
def State.retireGrid (s : State) (G : Grid) : State :=
  let s := s.endGrid G.ctx G.gid .retired
  match G.queue with
  | none => s
  | some q =>
    let r := if G.complWord = 0 then some s else s.maxWord G.ctx G.complWord.toNat G.complValue
    (match r with
      | none => s.faultQueue q 8
      | some s => if G.intr then s.raisePf (s.queue q).vector else s).settleDrain q

/-- Nesting is at most ten deep (R111). -/
def gridLevels : Nat := 11

/-- A grid above this one, at most n levels up, has gone FAULTED through a trap. -/
def State.faultAbove (s : State) (G : Grid) : Nat → Bool
  | 0 => false
  | n + 1 =>
    match G.parent.bind fun p => s.grid? G.ctx p with
    | some P => (P.state == .faulted && !P.early) || s.faultAbove P n
    | none => false

/-- Until CLEARF the grids that a faulted grid launched keep their states (R114). -/
def State.frozen (s : State) (G : Grid) : Bool := (s.ctx G.ctx).state == .faulted && s.faultAbove G gridLevels

/-- A grid whose teams are all DONE awaits its children, or retires once the stores outside the package that its completion follows are
acknowledged (R102, R216); its parent is looked at next, at most n levels up. -/
def State.checkGrid (s : State) (x : Nat) (g : Word) : Nat → State
  | 0 => s
  | n + 1 =>
    match s.grid? x g with
    | none => s
    | some G =>
      let up (s : State) : State := match G.parent with
        | some p => s.checkGrid x p n
        | none => s
      match G.state with
      | .retired | .faulted | .killed => up (match G.queue with
        | some q => s.settleDrain q
        | none => s)
      | .queued | .translating | .placing => s
      | .running | .awaiting =>
        if s.frozen G ∨ G.nextTeam < G.count ∨ !(s.liveTeams x g).isEmpty then s
        else if !(s.liveChildren x g).isEmpty then s.modGrid x g fun G => { G with state := .awaiting }
        else if s.unacked G.acks then s
        else up (s.retireGrid G)

/-- Grids that waited for stores outside the package are looked at again. -/
def State.checkAcks (s : State) : State :=
  (s.grids.filter fun G => !G.acks.isEmpty && !G.state.ended).foldl (fun s G => s.checkGrid G.ctx G.gid gridLevels) s

/-- Kills a grid, its teams, and the grids it launched, at most n levels down (R112). -/
def State.killGrid (s : State) (x : Nat) (g : Word) : Nat → State
  | 0 => s
  | n + 1 =>
    match s.grid? x g with
    | none => s
    | some G =>
      if G.state.ended then s
      else
        let children := s.liveChildren x g
        let s := (s.endGrid x g .killed).killGridTeams x g
        children.foldl (fun s C => s.killGrid x C.gid n) s

/-- Kills a grid and looks at its parent. -/
def State.killTree (s : State) (x : Nat) (g : Word) : State := (s.killGrid x g gridLevels).checkGrid x g gridLevels

/-! ## QUEUED and TRANSLATING (R112, R113) -/

/-- The launching thread's requests that come before the grid have performed (R121). -/
def State.launchReady (s : State) (G : Grid) : Bool :=
  !(s.teams.any fun kt => kt.2.ctx == G.ctx && kt.2.reqs.any fun r => G.after.contains r.id)

/-- The operands of a launch are in range. -/
def Grid.operandsOk (G : Grid) : Bool := decide (1 ≤ G.count) && decide (G.count < 2 ^ 32) && G.args.toNat % 8 == 0

/-- The descriptor read of a QUEUED grid. -/
def State.readGrid (s : State) (G : Grid) : State :=
  let s := { s with mem := s.mem.flushFrom G.die }
  let k := match G.kernel with
    | some k => some k
    | none => s.readKernel G.ctx G.kaddr
  match k with
  | some k =>
    if G.queue.isSome ∨ G.operandsOk then s.modGrid G.ctx G.gid fun G => { G with state := .translating, kernel := some k }
    else ((s.modGrid G.ctx G.gid fun G => { G with early := true }).endGrid G.ctx G.gid .faulted).checkGrid G.ctx G.gid gridLevels
  | none => ((s.modGrid G.ctx G.gid fun G => { G with early := true }).endGrid G.ctx G.gid .faulted).checkGrid G.ctx G.gid gridLevels

def execGridDescriptorRead (x : BitVec 12) (g : BitVec 32) (s : State) : Result :=
  .next (match s.grid? x.toNat g with
  | none => s
  | some G => if G.state = .queued ∧ s.launchReady G ∧ !s.frozen G then s.readGrid G else s)

/-- A page of an extent declaration, where it qualifies: by a walk of the context's tables. A page of host memory or of a node has no
frame, and counts as clean (DESIGN CHOICE, log 75). -/
def State.extentPage (s : State) (x va : Nat) (both : Bool) : State × Option Extent :=
  if 2 ^ 64 ≤ va || !canonical (BitVec.ofNat 64 va) then (s, none)
  else
    let w := s.tableWalk x (swapVa (s.ctx x).swaps va)
    match w.2 with
    | .leaf e =>
      if pteSt e.pte = 1 ∧ pteR e.pte ∧ (!both ∨ pteW e.pte) then
        (w.1, some { va := va, len := 2 ^ 16, pa := e.phys (s.ctx x).swaps va, r := pteR e.pte, w := pteW e.pte, stores := both
                     path := e.path })
      else (w.1, none)
    | .refused _ | .poisoned _ _ => (w.1, none)

/-- A page joins the last entry where it continues it. -/
def addPage (l : List Extent) (p : Extent) : List Extent :=
  match l.reverse with
  | [] => [p]
  | e :: r =>
    if e.va + e.len = p.va ∧ e.pa + e.len = p.pa ∧ e.r = p.r ∧ e.w = p.w ∧ e.stores = p.stores then
      (({ e with len := e.len + p.len, path := addNew e.path p.path }) :: r).reverse
    else l ++ [p]

/-- The entries of n pages from an address on. -/
def State.extentRuns (s : State) (x : Nat) (both : Bool) : Nat → Nat → List Extent → State × List Extent
  | 0, _, l => (s, l)
  | n + 1, va, l =>
    let p := s.extentPage x va both
    p.1.extentRuns x both n (va + 2 ^ 16) (match p.2 with
      | some e => addPage l e
      | none => l)

/-- One declaration: its entries. A new declaration begins a new entry. -/
def State.extentsOf (s : State) (G : Grid) (e : Word) : State × List Extent :=
  let len := (e.extractLsb' 14 18).toNat * 2 ^ 16
  if len = 0 then (s, [])
  else
    match s.frontRead G.ctx (G.args.toNat + 8 * (e.extractLsb' 0 9).toNat) 8 with
    | none => (s, [])
    | some b =>
      let base := ofBytes b
      let first := base / 2 ^ 16
      let last := (base + len - 1) / 2 ^ 16
      s.extentRuns G.ctx (e.extractLsb' 12 2 == 2) (last + 1 - first) (first * 2 ^ 16) []

/-- All declarations, in their order. -/
def State.extentsAll (s : State) (G : Grid) : List Word → State × List Extent
  | [] => (s, [])
  | e :: r =>
    let x := s.extentsOf G e
    let y := x.1.extentsAll G r
    (y.1, x.2 ++ y.2)

/-- A team that waits for placement, from now on: the spec does not say when its wait of 1 ms begins (R118). The model counts it from when the
team becomes the next one of its grid, and the time in which its context takes no team counts with it (DESIGN CHOICE, log 98). -/
def pendingTeam (G : Grid) (now : Nat) : Team :=
  { ctx := G.ctx, gid := G.gid, index := G.nextTeam, size := match G.kernel with
      | some k => k.threads
      | none => 0
    phase := .pending, placedAt := now }

/-- The next team of a grid waits for placement (R118). -/
def State.nextPending (s : State) (x : Nat) (g : Word) : State :=
  match s.grid? x g with
  | none => s
  | some G =>
    if G.nextTeam < G.count then
      { s with fresh := s.fresh + 1, teams := tput s.fresh (pendingTeam G s.clock) s.teams }
    else s

/-- Every declaration is translated; the grid is PLACING. -/
def State.translateGrid (s : State) (G : Grid) : State :=
  let x := s.extentsAll G (match G.kernel with
    | some k => k.exts
    | none => [])
  (x.1.modGrid G.ctx G.gid fun G => { G with state := .placing, extents := x.2.take 16 }).nextPending G.ctx G.gid

def execGridTranslate (x : BitVec 12) (g : BitVec 32) (s : State) : Result :=
  .next (match s.grid? x.toNat g with
  | none => s
  | some G => if G.state = .translating ∧ !s.frozen G then s.translateGrid G else s)

/-! ## Placement (R116 to R119) -/

def slabsPerCore : Nat := 24576
def stashPerCore : Nat := 524288

/-- The teams that hold resources of a core. -/
def State.residentOn (s : State) (c : Nat) : List Team :=
  (s.teams.filter fun kt => kt.2.core == c && kt.2.phase.isResident).map fun kt => kt.2

/-- Slabs a team holds. -/
def Team.slabsHeld (T : Team) : Nat := T.size * T.slabs * if T.mirrored then 2 else 1

/-- Free slabs among the teams of a core. -/
def freeSlabs (l : List Team) : Nat := slabsPerCore - (l.map fun T => T.slabsHeld).sum

/-- The first number from which n consecutive places of m are free of the given ranges. -/
def freeRange (m n : Nat) (held : List (Nat × Nat)) : Option Nat :=
  if n = 0 then some 0
  else (List.range (m + 1 - n)).find? fun b => held.all fun h => !overlap b n h.1 h.2

/-- Where a team of a kernel lies among a core's resident teams: bases of its tiles and its scratch address. -/
structure Spot where
  acc : Nat
  abuf : Nat
  bslot : Nat
  scratch : Nat
  deriving DecidableEq, Repr

/-- A scratch address in a context's pool beside that of the context's teams on other cores and of those of a list on this one, lowest first
(R117), in 4 KiB granules. -/
def State.freeScratch (s : State) (x n c : Nat) (l : List Team) : Option Nat :=
  let d := (s.ctx x).desc
  let base := (d.scrbase.toNat + 4095) / 4096 * 4096
  let away := ((s.teamsOf x).filter fun kt => kt.2.phase.isResident && kt.2.core != c).map fun kt => kt.2
  let held := ((away ++ l.filter fun T => T.ctx == x).filter fun T => T.scratchLen != 0).map fun T =>
    ((T.scratchBase.toNat - base) / 4096, T.scratchLen / 4096)
  (freeRange ((d.scrbase.toNat + d.scrsize.toNat * 65536 - base) / 4096) (n / 4096) held).map fun b => base + 4096 * b

/-- The teams of a list on a core leave room there for one more of this kernel (R116). -/
def State.spot? (s : State) (x : Nat) (k : Kernel) (c : Nat) (l : List Team) : Option Spot :=
  let n := k.threads
  let ctxs := l.foldl (fun acc T => addNew acc [T.ctx]) [x]
  let mine := l.filter fun T => T.ctx == x
  if 2048 < n + (l.map fun T => T.size).sum ∨ 64 ≤ l.length ∨ 8 < ctxs.length ∨ freeSlabs l < n * k.regs / 16 ∨
      stashPerCore < k.stash + k.scratch + (l.map fun T => T.stash + T.scratchLen).sum then none
  else
    match freeRange 64 k.nacc (mine.map fun T => (T.accBase, T.accs)),
      freeRange 8 k.nabuf (mine.map fun T => (T.abufBase, T.abufs)),
      freeRange 512 k.nbslot (mine.map fun T => (T.bslotBase, T.bslots)) with
    | some a, some b, some d =>
      (if k.scratch = 0 then some 0 else s.freeScratch x k.scratch c l).map fun r => ⟨a, b, d, r⟩
    | _, _, _ => none

/-- A core may take a team at all: it is not fenced or drained, it is the pinned core if there is one, and no other team has
reserved it. -/
def State.coreOpen (s : State) (c key : Nat) (k : Kernel) : Bool :=
  let C := s.core c
  !C.fenced && C.drainAt.isNone && (k.corepin == 0xFFFF || k.corepin == c) &&
    match C.reserved with
    | some r => r == key || (s.team? r).isNone
    | none => true

/-- The context's teams may be placed. -/
def CState.placeable : CState → Bool
  | .bound | .runnable | .running => true
  | .created | .preempted | .faulted | .fenced | .destroyed => false

/-- The core for a team: the most free slabs, then the lowest number (R118). -/
def State.bestCore (s : State) (x key : Nat) (k : Kernel) : Option (Nat × Spot) :=
  (List.range 256).foldl (fun best c =>
    if s.coreOpen c key k then
      match s.spot? x k c (s.residentOn c) with
      | none => best
      | some p =>
        match best with
        | none => some (c, p)
        | some b => if freeSlabs (s.residentOn b.1) < freeSlabs (s.residentOn c) then some (c, p) else best
    else best) none

/-- The lowest free slot number of a core (R331). -/
def State.freeSlot (s : State) (c : Nat) : Nat :=
  ((List.range 64).find? fun n => !((s.residentOn c).any fun T => T.slot == n)).getD 0

/-- Mirroring at placement (R24): the mode in force and the free slabs before it. -/
def mirrors (mode : BitVec 2) (allowed : Bool) (free need : Nat) : Bool :=
  allowed && decide (2 * need ≤ free) &&
    (mode == 2 || (mode == 1 && decide (slabsPerCore ≤ 2 * (free - 2 * need))))

/-- The threads of a new team (R119, R171). -/
def newThreads (k : Kernel) (trapvec : DWord) (args : DWord) (index b : Nat) : List Thread :=
  (List.range k.threads).map fun i =>
    { pc := k.code, lastPc := k.code, trapvec := trapvec, bundle := some (b + i / 32), slabs := [(0, true)]
      stack := sput 2 (BitVec.ofNat 32 index) (sput 1 (args.extractLsb' 32 32) (sput 0 (args.extractLsb' 0 32) [])) }

/-- The placed team. -/
def State.placedTeam (s : State) (T : Team) (G : Grid) (k : Kernel) (c : Nat) (p : Spot) : Team :=
  let stash := k.stash
  { T with
    phase := .resident, core := c, slot := s.freeSlot c, placedAt := s.clock, size := k.threads
    mirrored := mirrors s.regs.mirror k.fMirror (freeSlabs (s.residentOn c)) (k.threads * k.regs / 16)
    accBase := p.acc, accs := k.nacc, abufBase := p.abuf, abufs := k.nabuf, bslotBase := p.bslot, bslots := k.nbslot
    slabs := k.regs / 16, stash := stash, ringOff := k.ringoff, ringLen := k.ringlen
    scratchBase := BitVec.ofNat 64 p.scratch, scratchLen := k.scratch
    maps := if k.scratch = 0 then []
      else [{ base := BitVec.ofNat 64 p.scratch, offset := stash, len := k.scratch, scratch := true }]
    lines := (List.range (k.scratch / 128)).map fun j =>
      { line := p.scratch / 128 + j, owned := true, since := s.clock, lease := s.regs.leaseLen
        phys := lineOf ((s.front? T.ctx (p.scratch + 128 * j) true).getD 0) }
    stampBase := k.stamps
    threads := newThreads k (s.ctx T.ctx).desc.trapvec G.args T.index s.fresh }

/-- Scratch reads as zero from placement on, whatever the pool held: what its words held is no longer read, an error in it neither (R117). -/
def State.zeroScratch (s : State) (x base len : Nat) : State :=
  (pieces (len / 2 ^ 16 + 2) base len).foldl (fun s p =>
    match s.front? x p.1 true with
    | some pa =>
      let old (w : Nat) : Bool := decide (pa ≤ 8 * w) && decide (8 * w < pa + p.2)
      { s with
        mem := s.mem.publish pa (List.replicate p.2 0)
        badWords := s.badWords.filter fun w => !old w
        softWords := s.softWords.filter fun w => !old w }
    | none => s) s

/-- A pair joins the list of those that had a team on a core (R428). Past 256 pairs a context that the list does not name still joins. -/
def Core.addRan (C : Core) (x : Nat) (g : Word) : Core :=
  if C.ran.contains (x, g) then C
  else if 256 ≤ C.ran.length then
    { C with ranOver := true, ran := if C.ran.any fun p => p.1 == x then C.ran else C.ran ++ [(x, g)] }
  else { C with ran := C.ran ++ [(x, g)] }

/-- A team is placed (R112, R116, R119). Its start is the acquire that matches the launch (R121). -/
def State.placeTeam (s : State) (key : Nat) (T : Team) (G : Grid) (k : Kernel) (c : Nat) (p : Spot) : State :=
  let N := s.placedTeam T G k c p
  let s := { s with fresh := s.fresh + (k.threads + 31) / 32 }.setTeam key N
  let s := (s.modCore c fun C => C.addRan T.ctx T.gid).dropProxies
  let s := { s with cores := s.cores.map fun (d : Nat × Core) => if d.2.reserved = some key then (d.1, { d.2 with reserved := none }) else d }
  let s := s.zeroScratch T.ctx p.scratch k.scratch
  let s := if G.state = .placing then
      (if k.fThold then s.writeThold T.ctx c (clipThold k.thold) else s).modGrid T.ctx T.gid fun G => { G with state := .running }
    else s
  let s := s.modCtx T.ctx fun C => if C.state = .bound then { C with state := .runnable } else C
  let s := s.modGrid T.ctx T.gid fun G => { G with nextTeam := G.nextTeam + 1 }
  (s.tapTeam N 13 T.gid.toNat T.index N.slabsHeld (if N.mirrored then 1 else 0)).nextPending T.ctx T.gid

/-- The kernel of a waiting team that may be placed now. -/
def State.waiting? (s : State) (key : Nat) : Option (Team × Grid × Kernel) :=
  match s.team? key with
  | none => none
  | some T =>
    match s.grid? T.ctx T.gid with
    | none => none
    | some G =>
      match G.kernel with
      | none => none
      | some k =>
        if T.phase = .pending ∧ (G.state = .placing ∨ G.state = .running) ∧ (s.ctx T.ctx).state.placeable then some (T, G, k)
        else none

def execTeamPlace (k : Nat) (s : State) : Result :=
  .next (match s.waiting? k with
  | none => s
  | some (T, G, K) =>
    match s.bestCore T.ctx k K with
    | none => s
    | some (c, p) => s.placeTeam k T G K c p)

/-- Sublists of a length. -/
def chosen {α : Type} : Nat → List α → List (List α)
  | 0, _ => [[]]
  | _ + 1, [] => []
  | n + 1, x :: r => ((chosen n r).map fun l => x :: l) ++ chosen (n + 1) r

/-- The fewest exits after which a team fits on a core. -/
def State.exitsNeeded (s : State) (x : Nat) (k : Kernel) (c : Nat) : Option Nat :=
  let l := s.residentOn c
  (List.range (l.length + 1)).find? fun n => (chosen (l.length - n) l).any fun keep => (s.spot? x k c keep).isSome

/-- The core that needs the fewest exits, the lowest number on a tie. -/
def State.reserveCore (s : State) (x key : Nat) (k : Kernel) : Option Nat :=
  ((List.range 256).foldl (fun (best : Option (Nat × Nat)) c =>
    if s.coreOpen c key k then
      match s.exitsNeeded x k c with
      | none => best
      | some n =>
        match best with
        | none => some (c, n)
        | some b => if n < b.2 then some (c, n) else best
    else best) none).map fun b => b.1

/-- One millisecond. -/
def oneMs : Nat := 1750000

/-- A team that has waited 1 ms reserves a core (R118). -/
def State.mayReserve (s : State) (key : Nat) (T : Team) : Bool :=
  decide (T.placedAt + oneMs ≤ s.clock) && !(s.cores.any fun c => c.2.reserved == some key)

def execPlacementReserve (k : Nat) (s : State) : Result :=
  .next (match s.waiting? k with
  | none => s
  | some (T, _, K) =>
    if s.mayReserve k T then
      match s.reserveCore T.ctx k K with
      | none => s
      | some c => s.modCore c fun C => { C with reserved := some k }
    else s)

/-! ## The end of a team (R181, R351) -/

/-- The sequence of an EXITING team can complete: its requests have performed, and, unless it was killed, its commands into global memory
have written their completions. -/
def State.mayEnd (s : State) (key : Nat) (T : Team) : Bool :=
  T.phase == .exiting && T.reqs.isEmpty && (T.killed || (!(s.cmds.any fun m => m.team == key && m.kind != 3) &&
    !((s.core T.core).seq.any fun o => o.team == key)))

/-- A CPYP with PUB has made its copy visible: it is complete but for its completion write. -/
def Cmd.published (m : Cmd) : Bool := m.kind == 4 && m.pub && m.moved && m.err.isNone

/-- The commands of the team that are left stop: KILLED, unless they had failed before, or had published. Units of their destinations
may be written (R181, R346). -/
def State.cancelCmds (s : State) (key : Nat) (T : Team) : State :=
  (s.cmds.filter fun m => m.team == key).foldl (fun s m =>
    if m.published then s.completeCmd m T
    else
      let s := s.partWrite m T
      let err : BitVec 16 × DWord := m.err.getD (7, BitVec.ofNat 64 (m.index % 2 ^ 32 * 2 ^ 32))
      s.completeCmd { m with err := some err } T) s

/-- Tiles of a team, by number on the core. -/
def Team.tiles (T : Team) : List Nat :=
  ((List.range T.accs).map fun n => T.accBase + n) ++ ((List.range T.abufs).map fun n => 64 + T.abufBase + n) ++
    (List.range T.bslots).map fun n => 72 + T.bslotBase + n

/-- The team's tiles become EMPTY and it gives up the engine, on a core whose tiles its context owns. -/
def State.releaseTiles (s : State) (key : Nat) (T : Team) : State :=
  let c := T.core
  let s := s.modCore c fun C => { C with
    seq := C.seq.filter fun o => o.team != key
    ownerQueue := C.ownerQueue.filter fun q => q.1 != key }
  let s := T.tiles.foldl (fun s n => s.emptyTile c n 3) s
  if (s.core c).owner = some key then s.passEngine c else s

/-- The same in the save image of a context that does not own them: entries and queue (R94, R331). No save area of a fenced core is
written (R427). -/
def State.releaseSaved (s : State) (T : Team) : State :=
  let c := T.core
  if !(s.ctx T.ctx).desc.tiles ∨ !s.headerValid T.ctx c then s
  else
    let a := s.saveArea T.ctx c
    let w (i : Nat) : Nat := ofBytes (s.getSave c (a + 4 + 4 * i) 4)
    let queue := ((List.range (min 13 (w 1))).map fun j => w (2 + j)).filter fun v => v != T.slot
    let r : Nat × List Nat := if w 0 = T.slot then
        (match queue with
          | [] => (0xFFFFFFFF, [])
          | v :: rest => (v, rest))
      else (w 0, queue)
    let words := [r.1, r.2.length] ++ (r.2 ++ List.replicate 13 0).take 13
    let s := s.putSave c (a + 4) (words.flatMap fun v => toBytes 4 v)
    let s := if w 0 = T.slot then
        (match s.teamInSlot? c T.ctx r.1 with
          | some k => s.wakeEngine k 0
          | none => s)
      else s
    T.tiles.foldl (fun s n => s.putSave c (a + 0x40 + 4 * n) [0, 0, 0, 0]) s

/-- The context's last resident team is DONE: RUNNABLE or RUNNING becomes BOUND (R78). -/
def State.settleContext (s : State) (x : Nat) : State :=
  if (s.teamsOf x).any fun kt => kt.2.phase.isResident then s
  else
    match (s.ctx x).state with
    | .runnable | .running => (s.modCtx x fun C => { C with state := .bound })
    | .created | .bound | .preempted | .faulted | .fenced | .destroyed => s

/-- The team is DONE: everything it held is free. The completion of its grid follows the stores that its die holds (R102, R216). -/
def State.endTeam (s : State) (key : Nat) (T : Team) : State :=
  let s := { s with mem := s.mem.flushFrom (dieOf T.core) }
  let s := s.cancelCmds key T
  let s := s.modGrid T.ctx T.gid fun G => { G with acks := addNew (G.acks.filter fun a => s.unacked [a]) (s.unackedOn (dieOf T.core)) }
  let s := s.modCore T.core fun C => { C with
    fills := C.fills.filter fun f => f.team != key
    bins := C.bins.filter fun b => b.team != key }
  let s := s.writeBacks T.lines []
  let s := if (s.core T.core).accown = T.ctx then s.releaseTiles key T
    else if (s.core T.core).fenced then s else s.releaseSaved T
  let s := T.pins.foldl (fun s p => s.releasePin T.core T.ctx p) s
  let blocks := (T.threads.map fun t => t.spilled.length).sum
  let s := s.modCtx T.ctx fun C => { C with blocks := C.blocks - blocks }
  let s := s.tapTeam T 14 T.gid.toNat T.index (s.clock - T.placedAt) (if T.killed then 1 else 0)
  let s := { s with teams := tdel key s.teams }.dropNodeWatches
  (s.settleContext T.ctx).checkGrid T.ctx T.gid gridLevels

def execTeamDone (k : Nat) (s : State) : Result :=
  .next (match s.team? k with
  | none => s
  | some T => if s.mayEnd k T then s.endTeam k T else s)

end Sys2Proof.Machine
end

