-- ==== Sys2Proof/Machine/Trust.lean ====
section
/-! DEFINITION. The trust of (context, node) pairs, and the reports that the security processor writes of it (R390, R393, R394). -/

namespace Sys2Proof.Machine

/-! ## Messages -/

/-- Bytes of no known value. -/
def freeBytes (seed n : Nat) : List Byte := (List.range n).map fun i => (Config.freeWord (seed + i)).setWidth 8

/-- A message of a protocol that the manual names and does not define: neither its bytes nor their number is known (log 11). -/
def State.emitMessage (s : State) : State := { s with fresh := s.fresh + 1 }.emit (.message (Config.freeMessage s.fresh))

/-- The four digests that the part has measured (R433): of indices 1 to 4, the same until part reset. -/
def State.digests (s : State) : List (List Byte) :=
  match s.boot with
  | some b => (List.range 4).map fun i => Config.digest b (i + 1)
  | none => []

/-- The answer to an SPDM request, GET_MEASUREMENTS among them, rests on the digests (R379, R433; log 11). -/
def State.answerSpdm (s : State) (request : List Byte) : State :=
  { s with fresh := s.fresh + 1 }.emit (.message (Config.spdmAnswer s.digests request s.fresh))

/-! ## What a node has been sent (R394) -/

/-- The base of a node's window. -/
def nodeBase (n : Nat) : Nat := 2 ^ 50 + n * 2 ^ 38
def State.reachable (s : State) (n : Nat) : Bool := !s.unreachable (nodeBase n)
def toNode (n pa : Nat) : Bool := inNode pa && nodeOf pa == n

/-- A request that has been sent to a node. -/
def Req.sentTo (r : Req) (n : Nat) : Bool :=
  match r.stage with
  | .outside pa => toNode n pa
  | .backoff _ | .onPage _ | .onPublish | .onWalk _ | .behind | .translated _ | .atCore _ | .walking _ _ _ | .queued _ _ _ _
  | .atDoor _ _ _ | .arrived _ _ _ | .settling _ => false

/-- The pair of a context and a node. -/
def Context.pair? (C : Context) (n : BitVec 12) : Option Pair := C.pairs.find? fun p => p.node == n

/-- A round of a context is reduced at a node: the pair is trusted, and REDPOL allows it (R398). -/
def Context.reducesAt (C : Context) (n : Nat) : Bool := (C.pairs.any fun p => p.node.toNat == n && p.state == 2) && C.desc.redpol != 1

/-- An atomic or a REDUCE of a context, or of any for x = 0, that a node has been sent and has not answered (R394). -/
def State.atomicsAt (s : State) (x n : Nat) : Bool :=
  (s.teams.any fun kt => (x == 0 || kt.2.ctx == x) && kt.2.reqs.any fun r => r.sentTo n && !r.op.isLoad) ||
    s.rounds.any fun r => (x == 0 || r.ctx == x) && toNode n r.cl && (s.ctx r.ctx).reducesAt n

/-! ## Pairs -/

/-- An entry of the node trust table (R390). -/
def Pair.bytes (p : Pair) : List Byte :=
  toBytes 2 p.node.toNat ++ toBytes 1 p.state ++ toBytes 1 0 ++ toBytes 4 p.epoch.toNat ++ toBytes 8 p.clock ++
    (p.digest ++ List.replicate 32 0).take 32 ++ List.replicate 16 0

/-- A pair changes: the part's copy, the report, the Yarrow event. -/
def State.setPair (s : State) (x : Nat) (p : Pair) : State :=
  let p := { p with clock := s.clock }
  let s := s.modCtx x fun C =>
    { C with pairs := if (C.pair? p.node).isSome then C.pairs.map fun q => if q.node == p.node then p else q
        else C.pairs ++ [p] }
  (s.report ((s.ctx x).desc.trust.toNat + 64 * p.entry) p.bytes).tapIo 1 x 38 p.node.toNat p.state p.epoch.toNat 0

/-- A pair loses its trust (R393): UP-TRUSTED becomes UP-UNTRUSTED, after every atomic and REDUCE of the pair that its node has been sent
has completed there (R394). The node erases the key if it can be reached. -/
def State.untrust (s : State) (x : Nat) (n : BitVec 12) : State :=
  match (s.ctx x).pair? n with
  | some p =>
    if p.state ≠ 2 then s
    else if s.reachable n.toNat && s.atomicsAt x n.toNat then
      s.modCtx x fun C => { C with pairs := C.pairs.map fun q => if q.node == n then { q with leaving := true } else q }
    else
      let s := s.setPair x { p with state := 0, leaving := false }
      if s.reachable n.toNat then s.emitMessage else s
  | none => s

/-- Pairs that were to lose their trust do, where what their nodes have been sent has completed. -/
def State.settleTrust (s : State) : State :=
  s.contexts.foldl (fun s c => (c.2.pairs.filter fun p => p.leaving).foldl (fun s p => s.untrust c.1 p.node) s) s

/-- Every pair of a context loses its trust (R393). -/
def State.untrustAll (s : State) (x : Nat) : State := (s.ctx x).pairs.foldl (fun s p => s.untrust x p.node) s

end Sys2Proof.Machine
end

