-- ==== Sys2Proof/Machine/Contexts.lean ====
section
/-! DEFINITION. Contexts: the descriptor (R75, R76), the host's commands (R74, R78 to R80), slices (R81, R82), and the resumption of
a team that the debugger has stopped (R90). -/

namespace Sys2Proof.Machine

/-! ## The result of a command (R74) -/

def State.ctxDone (s : State) (x : Nat) (result : BitVec 3) : State :=
  s.modRegs fun g => { g with ctxResult := result, ctxCtx := BitVec.ofNat 12 x }

/-- A command on a context, with the states that allow it; ignored while another is BUSY. CTX = 0 gives RESULT 3. A transfer of tile ownership under way ends before the
command takes effect (R80, R94). -/
def State.ctxCommand (s : State) (x : Nat) (ok : CState → Bool) (f : State → State × BitVec 3) : State :=
  if s.ctxPend.isSome then s
  else
    let s := s.endTransfers
    if x = 0 then s.ctxDone x 3
    else if ok (s.ctx x).state then
      let r := f s
      r.1.ctxDone x r.2
    else s.ctxDone x 1

/-! ## BIND (R75, R76) -/

/-- Physical memory as the host's commands read it: where it is coherent. -/
def State.physRead (s : State) (a n : Nat) : List Byte := (s.gather (homeDie a) a n).mem.read (homeDie a) a n

/-- A descriptor's 128 bytes. -/
def ctxDescOf (b : List Byte) : CtxDesc :=
  let flags : BitVec 16 := BitVec.ofNat 16 (field b 2 2)
  { priv := flags.getLsbD 0, redpol := flags.extractLsb' 1 2, tiles := flags.getLsbD 3, dbg := flags.getLsbD 4
    slice := field b 4 4, ptroot := BitVec.ofNat 64 (field b 8 8), trapvec := BitVec.ofNat 64 (field b 16 8)
    tilesave := BitVec.ofNat 64 (field b 24 8), bsbase := BitVec.ofNat 64 (field b 32 8)
    bslimit := BitVec.ofNat 64 (field b 40 8), scrbase := BitVec.ofNat 64 (field b 48 8)
    scrsize := BitVec.ofNat 32 (field b 56 4), trust := BitVec.ofNat 64 (field b 64 8)
    faultrec := BitVec.ofNat 64 (field b 72 8), fvector := BitVec.ofNat 16 (field b 80 2) }

/-- A range of physical addresses lies in host-reserved device memory: its ends do, for that memory is the top of HBM (R424). -/
def State.rangeReserved (s : State) (a n : Nat) : Bool := s.hostReserved a && s.hostReserved (a + n - 1)

/-- The bytes of the save areas of a context: one area for each core (R77). -/
def saveBytes : Nat := 256 * 0x480000

/-- The save areas of a context with tiles, the fault record, and the trust table lie in host-reserved device memory (R75, R77, R390). -/
def State.areasOk (s : State) (d : CtxDesc) : Bool :=
  (!d.tiles || s.rangeReserved d.tilesave.toNat saveBytes) && s.hostReserved d.faultrec.toNat && s.hostReserved d.trust.toNat

/-- The descriptor of context x is valid (R76). -/
def ctxDescOk (x : Nat) (b : List Byte) (d : CtxDesc) : Bool :=
  field b 0 2 == x && decide (field b 2 2 < 32) && d.redpol != 3 && decide (10 ≤ d.slice) && decide (d.slice ≤ 10000) &&
    d.ptroot.toNat % 4096 == 0 && d.trapvec.toNat % 4 == 0 && d.tilesave.toNat % 65536 == 0 &&
    d.tiles == (d.tilesave != 0) && d.bslimit.toNat % 65536 == 0 && decide (128 ≤ field b 60 4) &&
    decide (field b 60 4 ≤ 65536) && d.trust.toNat % 4096 == 0 && d.faultrec.toNat % 64 == 0 && field b 82 46 == 0

/-- BIND reads the table entry; the sequence of grid identifiers starts at 1 (R110), nothing of an earlier use is left. -/
def State.ctxBind (s : State) (x : Nat) : State :=
  s.ctxCommand x (fun c => c == .created || c == .destroyed) fun s =>
    let b := s.physRead (s.regs.ctxTbl.toNat / 4096 * 4096 + 128 * x) 128
    let d := ctxDescOf b
    if ctxDescOk x b d && s.areasOk d then
      ({ s with contexts := tput x { state := .bound, desc := d, thold := BitVec.ofNat 32 (field b 60 4) } s.contexts }, 0)
    else (s, 2)

def execCtxBind (x : BitVec 12) (s : State) : Result := .next (s.asHost fun s => s.ctxBind x.toNat)

/-! ## SUSPEND and RESUME (R78, R80) -/

def State.ctxSuspend (s : State) (x : Nat) : State :=
  s.ctxCommand x (fun c => c == .bound || c == .runnable || c == .running) fun s =>
    ((s.modCtx x fun C => { C with state := .preempted }).stopContext x 0, 0)

def execCtxSuspend (x : BitVec 12) (s : State) : Result := .next (s.asHost fun s => s.ctxSuspend x.toNat)

/-- An armed watch of a team that was PREEMPTED may end its MWAIT with code 2 (R301). -/
def Thread.loseWatch (t : Thread) : Thread :=
  match t.watch with
  | .armed l _ => { t with watch := .armed l false }
  | .idle | .triggered => t

/-- The context has a team that holds resources of a core. -/
def State.hasResident (s : State) (x : Nat) : Bool := (s.teamsOf x).any fun kt => kt.2.phase.isResident

/-- The PREEMPTED teams of a context are RESIDENT again, their threads in their saved states (R180); the context is RUNNABLE, or
BOUND if no team is resident (R78). -/
def State.resumeContext (s : State) (x : Nat) : State :=
  let s := (s.teamsOf x).foldl (fun s kt =>
    if kt.2.phase = .preempted then
      s.modTeam kt.1 fun T => { T with phase := .resident, threads := T.threads.map fun t => t.loseWatch }
    else s) s
  s.modCtx x fun C => { C with state := if s.hasResident x then .runnable else .bound, fault := none, held := none }

/-- RESUME with a trap held: the teams that raised one are killed, their grids and the context go FAULTED. -/
def State.releaseHeld (s : State) (x : Nat) (f : FaultRec) : State :=
  let who := (s.teamsOf x).filter fun kt => kt.2.killed && kt.2.phase == .preempted
  let s := who.foldl (fun s kt => (s.killTeam kt.1).endGrid x kt.2.gid .faulted) s
  (s.modCtx x fun C => { C with held := none }).faultContext x f

def State.ctxResume (s : State) (x : Nat) : State :=
  s.ctxCommand x (fun c => c == .preempted) fun s =>
    match (s.ctx x).held with
    | some f => (s.releaseHeld x f, 0)
    | none => (s.resumeContext x, 0)

def execCtxResume (x : BitVec 12) (s : State) : Result := .next (s.asHost fun s => s.ctxResume x.toNat)

/-! ## CLEARF (R78, R114) -/

/-- The teams of the faulted grids are killed, and the grids that those launched. -/
def State.clearFault (s : State) (x : Nat) : State :=
  let gs := s.grids.filter fun G => G.ctx == x && G.state == .faulted && !G.early
  let s := gs.foldl (fun s G =>
    let s := s.killGridTeams x G.gid
    (s.liveChildren x G.gid).foldl (fun s C => s.killGrid x C.gid gridLevels) s) s
  s.resumeContext x

def State.ctxClearf (s : State) (x : Nat) : State :=
  s.ctxCommand x (fun c => c == .faulted) fun s => (s.clearFault x, 0)

def execCtxClearf (x : BitVec 12) (s : State) : Result := .next (s.asHost fun s => s.ctxClearf x.toNat)

/-! ## FENCE (R78, R103, R112, R393) -/

/-- A queue of a fenced context: FAULTED with FCODE 7. One that could have met a fault raises its vector. A record that the slot held is
dropped: the context can only be destroyed (DEDUCED, log 76; R103 names DESTROY alone). -/
def State.fenceQueue (s : State) (q : Nat) : State :=
  let Q := s.queue q
  let s := s.modQueue q fun Q => { Q with kept := none, keptKernel := none }
  match Q.state with
  | .watching | .active | .blocked => (s.setQueue q .faulted 7).raisePf Q.vector
  | .bound | .draining | .faulted => s.setQueue q .faulted 7
  | .unbound | .destroyed => s

/-- The slots bound to a context. -/
def State.queuesOf (s : State) (x : Nat) : List Nat :=
  (s.queues.filter fun q => q.2.ctx == x && q.2.state != .unbound && q.2.state != .destroyed).map fun q => q.1

/-- Every grid of a context that has not ended is killed, and every team. -/
def State.killAll (s : State) (x : Nat) : State :=
  let live := s.grids.filter fun G => G.ctx == x && !G.state.ended
  let s := live.foldl (fun s G => s.killGrid x G.gid gridLevels) s
  (s.teamsOf x).foldl (fun s kt => s.killTeam kt.1) s

/-- The slices of a context end, with what its threads and commands waited for. -/
def State.endSlices (s : State) (x : Nat) : State :=
  { s with cores := s.cores.map fun c => if c.2.slice = some x then (c.1, { c.2.freed x s.fresh with wants := none }) else c }

/-- FENCE of a context, by the host or by what fences it. -/
def State.fenceContext (s : State) (x : Nat) : State :=
  let s := (s.queuesOf x).foldl (fun s q => s.fenceQueue q) s
  let s := ((s.killAll x).endSlices x).untrustAll x
  s.modCtx x fun C => { C with state := .fenced, fault := none, held := none }

def State.ctxFence (s : State) (x : Nat) : State :=
  s.ctxCommand x (fun c => c != .destroyed) fun s => (s.fenceContext x, 0)

def execCtxFence (x : BitVec 12) (s : State) : Result := .next (s.asHost fun s => s.ctxFence x.toNat)

/-! ## The descriptors of regions (R356) -/

def RState.code : RState → Nat
  | .undefined => 0
  | .idle => 1
  | .relocating => 2

/-- The fields of a descriptor that the part writes, from +48 on. -/
def Region.partFields (R : Region) : List Byte :=
  toBytes 1 R.colour.toNat ++ toBytes 1 R.state.code ++ toBytes 2 0 ++ toBytes 4 R.moved.toNat ++ toBytes 4 R.kept.toNat

/-- The part writes its fields of a region's descriptor, a release at .sys. While its page takes no write, as a MIGRATING one, the write
waits (R231, R274). -/
def State.reportRegion (s : State) (x : Nat) (r : BitVec 4) : State :=
  let R := (s.ctx x).region r
  match s.front? x (R.desc.toNat + 48) true with
  | some pa => (s.report pa R.partFields).modCtx x fun C => C.modRegion r fun R => { R with owes := false }
  | none => s.modCtx x fun C => C.modRegion r fun R => { R with owes := true }

/-- What is left of a region that is UNDEFINED: nothing but a write that it owes its descriptor. -/
def Region.undefined (R : Region) : Region :=
  if R.owes then { desc := R.desc, colour := R.colour, moved := R.moved, kept := R.kept, owes := true } else {}

/-- The writes of region descriptors of a context that wait are tried again. -/
def State.reportOwed (s : State) (x : Nat) : State :=
  let owing := (s.ctx x).regions.filter fun r => r.2.owes
  if owing.isEmpty then s
  else
    (owing.foldl (fun s r => s.reportRegion x (BitVec.ofNat 4 r.1)) s).modCtx x fun C =>
      { C with regions := C.regions.map fun r => if r.2.state == .undefined then (r.1, r.2.undefined) else r }

/-- Every region of a context becomes UNDEFINED (R357), and its descriptor says so. -/
def State.endRegions (s : State) (x : Nat) : State :=
  ((s.ctx x).regions.filter fun r => r.2.state != .undefined).foldl (fun s r =>
    (s.modCtx x fun C => C.modRegion (BitVec.ofNat 4 r.1) fun R => { R with state := .undefined }).reportRegion x (BitVec.ofNat 4 r.1)) s

/-! ## DESTROY (R79) -/

/-- The tiles and codebooks of a core that a context owns are zeroed, and no context owns them. -/
def State.disown (s : State) (x c : Nat) : State :=
  let s := s.modCore c fun C => { C with wants := if C.wants = some x then none else C.wants }
  if (s.core c).accown = x then
    (s.clearTiles c).modCore c fun C => { C with accown := 0, codebooks := [], cbBad := [], owner := none, ownerQueue := [] }
  else s

/-- What the part holds for a context beside its teams goes: translations, queue slots, swaps, regions, page requests, grids. -/
def State.dropState (s : State) (x : Nat) : State :=
  let s := s.dropContext x
  { s with
    queues := s.queues.map fun q => if q.2.ctx = x ∧ q.2.state ≠ .unbound then
      (q.1, { q.2 with state := .destroyed, fcode := 0, kept := none, keptKernel := none, watchLine := none, fired := false })
      else q
    pageReqs := s.pageReqs.filter fun r => r.ctx != x
    prqList := s.prqList.filter fun r => r.ctx != x
    grids := s.grids.filter fun G => G.ctx != x
    dies := s.dies.map fun d => (d.1, { d.2 with watches := d.2.watches.filter fun w => w.2 != x }) }

/-- DESTROY of a context begins: its slots go first, so that no grid that ends faults one (R103), then its grids and teams are killed. -/
def State.beginDestroy (s : State) (x : Nat) : State :=
  let s := (s.queuesOf x).foldl (fun s q => s.setQueue q .destroyed 0) s
  ((s.killAll x).endSlices x).untrustAll x

/-- No request of the context's teams is left: those that their homes had accepted have performed (R181), and every atomic and REDUCE of a
pair that was trusted has completed at its node (R393, R394). -/
def State.teamsOver (s : State) (x : Nat) : Bool :=
  ((s.teamsOf x).all fun kt => kt.2.reqs.isEmpty) && (s.ctx x).pairs.all fun p => !p.leaving

/-- The rest of a DESTROY: the teams end; the regions, the tiles and what else the part holds for the context go. -/
def State.finishDestroy (s : State) (x : Nat) : State :=
  let s := (s.teamsOf x).foldl (fun s kt => match s.team? kt.1 with
    | some T => s.endTeam kt.1 T
    | none => s) s
  let s := if (s.ctx x).regions.any fun r => r.2.ending then s.modRegs fun g => { g with mhBusy := false, mhResult := 1 } else s
  let s := s.endRegions x
  let s := s.cores.foldl (fun s c => s.disown x c.1) s
  let s := { s.dropState x with ctxPend := none }
  s.modCtx x fun C => { C with state := .destroyed, fault := none, held := none, blocks := 0, regions := [], swaps := [],
                               pairs := [], jobKey := none, tholdAt := [] }

/-- DESTROY: a new command, or the one in progress, which completes when every team of the context can end; BUSY is 1 until then. -/
def State.ctxDestroy (s : State) (x : Nat) : State :=
  match s.ctxPend with
  | some y => if y = x ∧ s.teamsOver x then (s.finishDestroy x).ctxDone x 0 else s
  | none =>
    s.ctxCommand x (fun c => c == .bound || c == .preempted || c == .faulted || c == .fenced) fun s =>
      let t := s.beginDestroy x
      (if t.teamsOver x then t.finishDestroy x else { t with ctxPend := some x }, 0)

def execCtxDestroy (x : BitVec 12) (s : State) : Result := .next (s.asHost fun s => s.ctxDestroy x.toNat)

/-! ## Slices (R81) -/

/-- A thread that is READY, or whose tile instruction issues again because the transfer that it awaited is over (R94): own says
that the context owns the tiles of the core. Results of fixed latency are written at issue, so no thread waits for one (log 2). -/
def Team.issuable (own : Bool) (T : Team) : Bool :=
  (T.phase == .resident || T.phase == .running) && T.stopped.isNone &&
    T.threads.any fun t => t.status == .ready || (own && t.status == .waiting .transfer)

/-- The context may take or keep the slice of a core: it has an issuable thread there or a parked CPYT, it is not stopped, and
the core is not drained. -/
def State.wantsSlice (s : State) (c x : Nat) : Bool :=
  (s.ctx x).state.placeable && (s.core c).drainAt.isNone && !(s.core c).fenced && ((s.teamsOf x).any (fun kt => kt.2.core == c && kt.2.issuable ((s.core c).accown == x)) || s.parkedCpyt c x)

/-- The contexts with teams on a core that may take its slice. -/
def State.candidates (s : State) (c : Nat) : List Nat :=
  ((s.residentOn c).foldl (fun acc T => addNew acc [T.ctx]) []).filter fun x => s.wantsSlice c x

/-- The first of a set of contexts in ascending order after one, with wrap. -/
def nextAfter (last : Nat) (l : List Nat) : Option Nat :=
  let lowest (l : List Nat) : Option Nat := l.foldl (fun b x => match b with
    | none => some x
    | some y => some (min x y)) none
  match lowest (l.filter fun x => decide (last < x)) with
  | some x => some x
  | none => lowest l

/-- The slice of a core ends (R78, R180). -/
def State.endSlice (s : State) (c : Nat) : State :=
  match (s.core c).slice with
  | none => s
  | some x =>
    let s := (s.teamsOf x).foldl (fun s kt =>
      if kt.2.core = c ∧ kt.2.phase = .running then s.modTeam kt.1 fun T => { T with phase := .resident } else s) s
    let s := s.modCore c fun C => C.freed x s.fresh
    if (s.ctx x).state = .running ∧ !(s.cores.any fun d => d.2.slice == some x) then
      s.modCtx x fun C => { C with state := .runnable }
    else s

/-- A slice of a context begins on a core. -/
def State.beginSlice (s : State) (c x : Nat) : State :=
  let old := (s.core c).lastCtx
  let s := (s.teamsOf x).foldl (fun s kt =>
    if kt.2.core = c ∧ kt.2.phase = .resident then s.modTeam kt.1 fun T => { T with phase := .running } else s) s
  let s := s.modCore c fun C => { C with slice := some x, sliceAt := s.clock }
  let s := s.modCtx x fun C => if C.state = .runnable then { C with state := .running } else C
  s.tap (dieOf c) { source := 15, ctx := x, core := c, clock := s.clock, p0 := BitVec.ofNat 32 old }

/-- The slice of the core may end because its context has no issuable thread there. -/
def State.sliceIdle (s : State) (c : Nat) : Bool :=
  match (s.core c).slice with
  | some x => !s.inTransfer c && !s.wantsSlice c x
  | none => true

/-- There is something for SLICE_SWITCH to do. -/
def State.maySwitch (s : State) (c : Nat) : Bool :=
  s.sliceIdle c && ((s.core c).slice.isSome || !(s.candidates c).isEmpty)

/-- Since when a context could take the slice of a core, in the part's own count of bundles and commands: the first of its READY
bundles, or of its parked CPYTs. -/
def State.askedSince (s : State) (c x : Nat) : List Nat :=
  (s.teamsOf x).flatMap fun kt =>
    if kt.2.core ≠ c then []
    else
      (kt.2.threads.filterMap fun t => if t.status = .ready then t.bundle else none) ++
        (s.cmds.filter fun m => m.team == kt.1 && m.parked).map fun m => m.id

/-- The context that could take the slice first. -/
def State.firstAsking (s : State) (c : Nat) (l : List Nat) : Option Nat :=
  ((l.flatMap fun x => (s.askedSince c x).map fun n => (n, x)).foldl (fun (best : Option (Nat × Nat)) y => match best with
    | none => some y
    | some z => if y.1 < z.1 then some y else some z) none).map fun z => z.2

/-- The context whose slice begins next: the next in turn after a slice, and the first with an issuable thread on a core that stood
idle (R81, R281). -/
def State.nextSlice (s : State) (c : Nat) (idle : Bool) : Option Nat :=
  let l := s.candidates c
  match if idle then s.firstAsking c l else none with
  | some x => some x
  | none => nextAfter (s.core c).lastCtx l

/-- No context could take the core when its last slice ended, and none runs there: what asks for it has come since (R281). -/
def State.stoodIdle (s : State) (c : Nat) : Bool :=
  (s.core c).slice.isNone && (s.candidates c).all fun x => (s.askedSince c x).all fun n => decide ((s.core c).freeSince ≤ n)

/-- A slice that has no issuable thread ends, and the next context's begins. -/
def State.sliceSwitch (s : State) (c : Nat) : State :=
  if s.maySwitch c then
    let idle := s.stoodIdle c
    let s := s.endSlice c
    match s.nextSlice c idle with
    | some x => s.beginSlice c x
    | none => s
  else s

def execSliceSwitch (c : Nat) (s : State) : Result := .next (s.sliceSwitch c)

/-- The length of a slice in cycles. -/
def CtxDesc.sliceCycles (d : CtxDesc) : Nat := d.slice * 1750

/-- A slice has reached its length. -/
def State.sliceOver (s : State) (c : Nat) : Bool :=
  match (s.core c).slice with
  | some x => !s.inTransfer c && decide ((s.core c).sliceAt + (s.ctx x).desc.sliceCycles ≤ s.clock)
  | none => false

/-- The slice ends where another context has an issuable thread on the core; else its length counts again. -/
def State.sliceExpiry (s : State) (c : Nat) : State :=
  if s.sliceOver c then
    if (s.candidates c).any fun x => (s.core c).slice != some x then
      let s := s.endSlice c
      match nextAfter (s.core c).lastCtx (s.candidates c) with
      | some x => s.beginSlice c x
      | none => s
    else s.modCore c fun C => { C with sliceAt := s.clock }
  else s

def execSliceLengthExpiry (c : Nat) (s : State) : Result := .next (s.sliceExpiry c)

/-! ## The debugger (R90) -/

/-- The host resumes a stopped team: the thread that stopped it goes on at sr.trappc. -/
def execDebugResume (k : Nat) (s : State) : Result :=
  .next (match s.team? k with
  | none => s
  | some T =>
    match T.stopped with
    | none => s
    | some i => s.modTeam k fun T => ({ T with stopped := none }).modThread i fun t => { t with pc := t.trappc })

end Sys2Proof.Machine
end

