-- ==== Sys2Proof/Machine/Modes.lean ====
section
/-! DEFINITION. The modes of the part (R18 to R26), leases that expire (R205, R208, R254), and issue that a cap or a rail
withholds (R22, R23). -/

namespace Sys2Proof.Machine

/-- Some lease that is still live was granted under another length than this one (R22). -/
def State.otherLeases (s : State) (len : Nat) : Bool :=
  (s.teams.any fun kt => kt.2.lines.any fun l => !l.owned && l.lease != len) || s.proxies.any fun p => p.lease != len

/-- A value that MODE_CFG may take (R20, R21). -/
def modeOk (v : Word) : Bool :=
  v.extractLsb' 8 24 == 0 && decide ((v.extractLsb' 6 2) < 2#2) && v.extractLsb' 4 2 != 3 && v.extractLsb' 2 2 != 3 &&
    v.extractLsb' 0 2 != 3

/-- A write to MODE_CFG (R21). Lease length and mirroring are in force at once, but for a change of mirroring to off, which waits
for the release of the copies; LPEND is 1 where leases of another length live; a scan interval waits for the rotation in progress;
a power cap is applied later. -/
def State.writeModeCfg (s : State) (v : Word) : State :=
  if !modeOk v then s.modRegs fun g => { g with badw := true }
  else
    let lease := v.extractLsb' 6 2
    let scan := v.extractLsb' 4 2
    let mirror := v.extractLsb' 2 2
    let g : HostRegs := { s.regs with cfgLease := lease, cfgScan := scan, cfgMirror := mirror, cfgPcap := v.extractLsb' 0 2 }
    let s : State := if lease = g.lease then { s with regs := g }
      else
        let g := { g with lease := lease }
        { s with regs := { g with lpend := s.otherLeases g.leaseLen } }
    s.modRegs fun g =>
      { g with
        mirror := if mirror = 0 ∧ g.mirror ≠ 0 then g.mirror else mirror
        scan := if s.scan.at_.isNone then scan else g.scan
        spend := s.scan.at_.isSome && g.scan != scan }

def execModeCfgWrite (pf : Bool) (v : BitVec 32) (s : State) : Result := .next (s.asHost fun s => if pf then s.writeModeCfg v else s)

/-- POWER_CAP_APPLY: the cap of MODE_CFG is in force. -/
def execPowerCapApply (s : State) : Result := .next (s.modRegs fun g => { g with pcap := g.cfgPcap })

/-- MIRROR_RELEASE: after a change to off no team keeps its copies (R24). -/
def execMirrorRelease (s : State) : Result :=
  .next (if s.regs.cfgMirror = 0 ∧ s.regs.mirror ≠ 0 then
    { s with
      regs := { s.regs with mirror := 0 }
      teams := s.teams.map fun (kt : Nat × Team) => (kt.1, { kt.2 with mirrored := false }) }
  else s)

/-- LEASE_CHANGE_SETTLE: the leases of the previous length have expired (R22, R25). -/
def execLeaseChangeSettle (s : State) : Result :=
  .next (if s.regs.lpend && !s.otherLeases s.regs.leaseLen then s.modRegs fun g => { g with lpend := false } else s)

/-- LEASE_EXPIRY: a leased copy is given up: a stash read copy of a team, a line that a proxy slice holds, or an instruction-cache
line, of which the model holds none since fetch reads memory itself (R205, R254, R385, R443). -/
def execLeaseExpiry (kind : LeaseKind) (holder line : Nat) (s : State) : Result :=
  .next (match kind with
  | .stash => s.modTeam holder fun T => { T with lines := T.lines.filter fun l => l.owned || l.line != line }
  | .icache => s
  | .proxy => { s with proxies := s.proxies.filter fun p => p.line != line })

/-! ## Issue withheld (R16, R22, R23) -/

/-- RAIL_OVERCURRENT: the next issue on the die's cores is withheld, and MODE_STAT.CAPLIM is set. -/
def execRailOvercurrent (die : Nat) (s : State) : Result :=
  .next (if die < 8 then (s.modDie die fun D => { D with warned := true }).modRegs fun g => { g with caplim := true } else s)

/-- Under a cap below P8 the part withholds issue slots of every context of the core alike, one in capEvery of those that it asks
for (R23): whether this one is withheld, and the slot counted. -/
def State.capped (s : State) (c x : Nat) : Bool :=
  s.regs.pcap != 0 && decide (2 ≤ s.capEvery) && (tget 0 x (s.core c).demand + 1) % s.capEvery == 0
def State.countDemand (s : State) (c x : Nat) : State :=
  if s.regs.pcap = 0 ∨ s.capEvery < 2 then s
  else s.modCore c fun C => { C with demand := tput x (tget 0 x C.demand + 1) C.demand }

/-- One cycle of issue of a core is withheld: CAPLIM reads 1 in this window. The core counts it where the power cap withholds it (R405,
R415), not where an overcurrent warning does. -/
def State.withhold (s : State) (c : Nat) (cap : Bool) : State :=
  let held := if cap then 1 else 0
  ((s.modDie (dieOf c) fun D => { D with warned := false }).modCore c fun C => { C with held := C.held + held }).modRegs fun g =>
    { g with caplim := true }

/-- A window of 1 µs ends: each core that had issue withheld in it tells Yarrow how many cycles (R405). -/
def State.endCapUs (s : State) : State :=
  s.cores.foldl (fun s (c : Nat × Core) =>
    if c.2.held = 0 then s
    else (s.tap (dieOf c.1) { source := 28, ctx := 0, core := c.1, clock := s.clock, p0 := BitVec.ofNat 32 c.2.held }).modCore c.1
      fun C => { C with held := 0 }) s

/-- CAPLIM_WINDOW: a window of 1 ms has ended, and the next begins with no issue withheld (R22). -/
def execCaplimWindow (s : State) : Result :=
  .next (if s.capWindow < s.clock / (1000 * oneUs) then
    { s with regs := { s.regs with caplim := false }, capWindow := s.clock / (1000 * oneUs) }
  else s)

end Sys2Proof.Machine
end

