-- ==== Sys2Proof/Machine/Containment.lean ====
section
/-! DEFINITION. Self-test, scan rotation, fenced cores, part reset and part failure (R183, R317, R421 to R434). -/

namespace Sys2Proof.Machine

/-! ## A fenced core (R427, R428) -/

/-- The SUSPECT records of a fenced core. -/
def State.suspectCore (s : State) (c : Nat) : State :=
  let C := s.core c
  if C.ranOver then
    (distinct (C.ran.map fun p => p.1)).foldl (fun s x => s.suspect x 1 c 0 C.scanPass) s
  else C.ran.foldl (fun s p => s.suspect p.1 0 c p.2 C.scanPass) s

/-- The grids of teams, each once. -/
def gridsOf (l : List Team) : List (Nat × Word) := distinct (l.map fun T => (T.ctx, T.gid))

/-- A core is fenced: the grids of its teams are killed, it takes no team again, and its records are written. A transfer that runs on it
is abandoned, and the teams of both contexts there are among those that are killed (log 77). -/
def State.fenceCore (s : State) (c : Nat) : State :=
  let s := s.endSlice c
  let s := (gridsOf (s.residentOn c)).foldl (fun s g => s.killTree g.1 g.2) s
  let s := s.teams.foldl (fun s kt => if kt.2.core = c ∧ kt.2.phase.isResident then s.killTeam kt.1 else s) s
  (s.modCore c fun C =>
    { C with fenced := true, drainAt := none, scanAt := none, setAside := 0, wants := none, reserved := none }).suspectCore c

/-! ## Sub-arrays (R317, R428) -/

/-- The SUSPECT records of a fenced sub-array: each grid whose tile operation started on the core since its last passing test. -/
def State.suspectSub (s : State) (c sub : Nat) : State :=
  let C := s.core c
  let last := tget 0 sub C.passes
  (C.tileGrids.filter fun g => decide (last ≤ g.2.2)).foldl (fun s g => s.suspect g.1 2 c g.2.1 last) s

/-- The result of a self-test of a sub-array. -/
def State.selftest (s : State) (c sub : Nat) (ok : Bool) : State :=
  let C := s.core c
  if 256 ≤ c ∨ 16 ≤ sub ∨ C.fenced ∨ C.fencedSub.contains sub then s
  else
    let tell (s : State) (fail : Nat) : State := s.tap (dieOf c)
      { source := 26, ctx := 0, core := c, clock := s.clock, p0 := BitVec.ofNat 32 sub, p1 := BitVec.ofNat 32 fail
        p2 := BitVec.ofNat 32 (s.core c).fencedSub.length }
    if ok then tell (s.modCore c fun C => { C with passes := tput sub s.clock C.passes }) 0
    else
      let s := tell ((s.modCore c fun C => { C with fencedSub := C.fencedSub ++ [sub] }).suspectSub c sub) 1
      if 3 ≤ (s.core c).fencedSub.length then s.fenceCore c else s

/-- SELFTEST_INJECT: in a cycle in which no tile operation of the core starts. -/
def execSelftestInject (c sub : Nat) (ok : Bool) (s : State) : Result :=
  .next (if (s.core c).canStart then s else s.selftest c sub ok)
/-- SELFTEST_FORCED: it only delays the next start. -/
def execSelftestForced (c sub : Nat) (ok : Bool) (s : State) : Result := .next (s.selftest c sub ok)

/-! ## Scan rotation (R426) -/

/-- The scan interval in force, in cycles. -/
def HostRegs.scanCycles (g : HostRegs) : Nat :=
  (if g.scan = 0 then 16 else if g.scan = 1 then 64 else 256) * 1000 * oneUs

/-- The first core from c on that is not fenced. -/
def State.scanFrom (s : State) (c : Nat) : Option Nat := (List.range 256).find? fun d => decide (c ≤ d) && !(s.core d).fenced

/-- The drain of a core begins: a transfer under way there ends first (R94), its slice ends and its teams are PREEMPTED (R180). -/
def State.beginDrain (s : State) (c : Nat) : State :=
  let s := ((s.endTransfer c).endSlice c).modCore c fun C => { C with drainAt := some s.clock, scanAt := none, wants := none }
  s.teams.foldl (fun s kt =>
    if kt.2.core = c then
      match kt.2.phase with
      | .resident | .running =>
        (s.modTeam kt.1 fun T => { T with phase := .preempted }).tapTeam kt.2 16 kt.2.gid.toNat kt.2.index 2 kt.2.slot
      | .pending | .preempted | .exiting | .done => s
    else s) s

/-- The rotation goes on to the next core from c on, or ends: a scan interval that waits takes effect (R18, R22). -/
def State.scanNext (s : State) (c : Nat) : State :=
  match s.scanFrom c with
  | some d => { s with scan := { s.scan with at_ := some d } }.beginDrain d
  | none => { s with scan := { s.scan with at_ := none }, regs := { s.regs with scan := s.regs.cfgScan, spend := false } }

/-- A rotation begins at a multiple of the scan interval, where none is in progress. -/
def State.scanDue (s : State) : Bool :=
  s.regs.bootReady && s.scan.at_.isNone && decide (s.scan.last < s.clock) && s.clock % s.regs.scanCycles == 0

def execScanRotationStart (s : State) : Result :=
  .next (if s.scanDue then { s with scan := { s.scan with last := s.clock } }.scanNext 0 else s)

/-- A request is in flight: it has neither arrived nor parked, nor waits behind one of its thread that has parked. -/
def Team.inFlight (T : Team) (r : Req) : Bool :=
  match r.stage with
  | .outside _ | .settling _ | .queued _ _ _ _ | .walking _ _ _ => true
  | .translated _ | .atCore _ | .atDoor _ _ _ => T.olderReissued r
  | .backoff _ | .onPage _ | .onPublish | .onWalk _ | .behind | .arrived _ _ _ => false

/-- The drain of a core is over: the requests of its teams have completed or bounced, the commands taken from their rings and the
accepted tile operations have completed (R183, R351). -/
def State.drained (s : State) (c : Nat) : Bool :=
  let C := s.core c
  C.seq.isEmpty && !(C.tiles.any fun t => t.2.state == .draining) &&
    !(s.cmds.any fun m => m.core == c && !m.parked) &&
    s.teams.all fun kt => kt.2.core != c || !(kt.2.reqs.any fun r => kt.2.inFlight r)

/-- The teams of a core that was drained, but for those whose context has stopped, are RESIDENT again. -/
def State.endDrain (s : State) (c : Nat) : State :=
  let s := s.modCore c fun C => { C with drainAt := none, scanAt := none }
  s.teams.foldl (fun s kt =>
    if kt.2.core = c ∧ kt.2.phase = .preempted ∧ (s.ctx kt.2.ctx).state.placeable then
      s.modTeam kt.1 fun T => { T with phase := .resident }
    else s) s

/-- The bins of a team on a core. -/
def Core.binsOf (C : Core) (k : Nat) : List Bin := C.bins.filter fun b => b.team == k

/-- Every position of a thread loses its tag (R132). -/
def Thread.dropTags (t : Thread) : Thread := { t with tags := [], moved := true }

/-- A team stands on a further core: its tags are lost, and its threads go on as they were, unless its context has stopped. -/
def State.standOn (s : State) (k : Nat) (T : Team) (c d : Nat) : State :=
  let bins := (s.core c).binsOf k
  let N : Team := { T with core := d, slot := s.freeSlot d, threads := T.threads.map fun t => t.dropTags
                           phase := if (s.ctx T.ctx).state.placeable then .resident else T.phase }
  let s := (s.setTeam k N).modCore c fun C => { C with bins := C.bins.filter fun b => b.team != k }
  let s := s.modCore d fun D => { (D.addRan T.ctx T.gid) with bins := D.bins ++ bins }
  s.tapTeam N 17 T.gid.toNat T.index c d

/-- Moves a team that holds no tile from a drained core to another that meets R116, if there is one (R183). What its threads stored
arrives with it (R200). -/
def State.moveTeam (s : State) (c k : Nat) : State :=
  match s.team? k with
  | none => s
  | some T =>
    match (s.grid? T.ctx T.gid).bind fun G => G.kernel with
    | none => s
    | some K =>
      if T.core ≠ c ∨ T.phase ≠ .preempted ∨ 0 < T.accs + T.abufs + T.bslots then s
      else
        match s.bestCore T.ctx k K with
        | none => s
        | some (d, _) =>
          if freeSlabs (s.residentOn d) < T.slabsHeld ∨ 64 < ((s.core d).bins.length + ((s.core c).binsOf k).length) then s
          else { s with mem := s.mem.flushFrom (dieOf c) }.standOn k T c d

/-- The tiles of a core are saved for the scan, for the context that owns them (R94 step 2, R183). -/
def State.setTilesAside (s : State) (c : Nat) : State :=
  let x := (s.core c).accown
  if x = 0 then s
  else (((s.saveErrors c).saveTiles c x).clearTiles c).modCore c fun C => { C with accown := 0, setAside := x }

/-- They are restored after it (R94 step 4). -/
def State.takeTilesBack (s : State) (c : Nat) : State :=
  let x := (s.core c).setAside
  let s := s.modCore c fun C => { C with setAside := 0 }
  if x = 0 ∨ (s.ctx x).state = .created ∨ (s.ctx x).state = .destroyed then s else s.restoreTiles c x

/-- C, the least of the last passes of the cores that are not fenced (R429). -/
def State.confirmation (s : State) : Nat :=
  let passes := (List.range 256).filterMap fun c => if (s.core c).fenced then none else some (s.core c).scanPass
  match passes with
  | [] => 0
  | x :: r => r.foldl min x

/-- At the end of a pass that raises C, it is written for every live context. -/
def State.confirm (s : State) : State :=
  let n := s.confirmation
  if n ≤ s.scan.conf then s
  else
    let s := { s with scan := { s.scan with conf := n } }
    if s.regs.confBase = 0 then s
    else s.contexts.foldl (fun s x =>
      match x.2.state with
      | .created | .destroyed => s
      | .bound | .runnable | .running | .preempted | .faulted | .fenced =>
        s.report (s.regs.confBase.toNat + 8 * x.1) (toBytes 8 n)) s

/-- The drain is over: teams without tiles go to other cores, the tiles of those that stay go to the save area, and the scan begins
(R183, R426). -/
def State.beginScan (s : State) (c : Nat) : State :=
  let s := s.teams.foldl (fun s kt => s.moveTeam c kt.1) s
  (s.setTilesAside c).modCore c fun C => { C with scanAt := some s.clock }

/-- The scan of a core has ended: a pass records the start of its drain and returns the teams, a failure fences the core. -/
def State.endScan (s : State) (c at_ : Nat) (ok : Bool) : State :=
  let s := s.tap (dieOf c)
    { source := 27, ctx := 0, core := c, clock := s.clock, p0 := BitVec.ofNat 32 c, p1 := if ok then 0 else 1
      p2 := BitVec.ofNat 32 (s.clock - at_) }
  if ok then
    let s := (s.takeTilesBack c).endDrain c
    let left := gridsOf (s.residentOn c)
    ((s.modCore c fun C => { C with scanPass := at_, ran := left, ranOver := false }).confirm).scanNext (c + 1)
  else (s.fenceCore c).scanNext (c + 1)

/-- CORE_SCAN begins once its core is drained, and ends 48 µs later with its result. A core that a third sub-array has fenced meanwhile
is left (R427). -/
def State.coreScan (s : State) (c : Nat) (ok : Bool) : State :=
  if s.scan.at_ ≠ some c then s
  else
    match (s.core c).drainAt, (s.core c).scanAt with
    | some _, none => if s.drained c then s.beginScan c else s
    | some at_, some began => if began + 48 * oneUs ≤ s.clock then s.endScan c at_ ok else s
    | none, _ => s.scanNext (c + 1)

def execCoreScan (c : Nat) (ok : Bool) (s : State) : Result := .next (s.coreScan c ok)

/-- A drain of 1 ms is abandoned. -/
def State.drainLate (s : State) (c : Nat) : Bool :=
  match (s.core c).drainAt with
  | some at_ =>
    s.scan.at_ == some c && (s.core c).scanAt.isNone && decide (at_ + 1000 * oneUs ≤ s.clock) && !s.drained c
  | none => false

def execScanDrainTimeout (c : Nat) (s : State) : Result :=
  .next (if s.drainLate c then (s.endDrain c).scanNext (c + 1) else s)

/-! ## Part reset and part failure (R432 to R434) -/

/-- The step of R432 at which a failing bring-up halts, by its FAIL code (R433). -/
def failStep (fail : BitVec 8) : BitVec 8 :=
  if fail = 1 ∨ fail = 2 then 1 else if fail = 3 then 4 else if fail = 4 then 5 else 6

/-- Sub-arrays stay fenced for the rest of the part's power-on time (R317). -/
def State.keptSubs (s : State) : Table Core :=
  s.cores.filterMap fun c => if c.2.fencedSub.isEmpty then none else some (c.1, { fencedSub := c.2.fencedSub })

/-- What part reset keeps: what lies outside the part, sub-arrays that are fenced, and the model's own inputs and choices. HBM is
scrubbed. -/
def State.afterReset (s : State) : State :=
  { State.reset with
    mem := { cells := s.mem.cells.filter fun c => !inHbm c.1, flights := [] }
    badWords := s.badWords.filter fun w => !inHbm (8 * w)
    softWords := s.softWords.filter fun w => !inHbm (8 * w)
    cores := s.keptSubs
    fresh := s.fresh + 1, out := s.out, hostRsvCfg := s.hostRsvCfg, agenda := s.agenda, arrivalDelay := s.arrivalDelay, viaQueues := s.viaQueues
    walkDelay := s.walkDelay, capEvery := s.capEvery }

/-- Distinct core numbers. -/
def coreList (l : List Nat) : List Nat := (distinct l).filter fun c => decide (c < 256)

/-- The cores that bring-up fences: those that fail the first scan, and those of three fenced sub-arrays (R317, R432). -/
def State.failedCores (s : State) (bad : List Nat) : List Nat :=
  coreList (bad ++ (s.cores.filter fun c => decide (3 ≤ c.2.fencedSub.length)).map fun c => c.1)

/-- Sub-arrays that fail their self-test in bring-up, each as 256 + 16 * core + sub-array in the list of what fails (R317, R432). -/
def State.fenceSubs (s : State) (bad : List Nat) : State :=
  (bad.filter fun n => decide (256 ≤ n) && decide (n < 256 + 4096)).foldl (fun s n =>
    s.modCore ((n - 256) / 16) fun C => { C with fencedSub := addNew C.fencedSub [n % 16] }) s

/-- The size of host-reserved HBM in GiB: that of the image's configuration record, where it names one of 16 to 512 in steps of 16, else 64
(R432). -/
def State.hostRsvSize (s : State) : Nat :=
  if 16 ≤ s.hostRsvCfg ∧ s.hostRsvCfg ≤ 512 ∧ s.hostRsvCfg % 16 = 0 then s.hostRsvCfg else 64

/-- Bring-up, with its FAIL code and the cores that it fences. At most 16 cores may be. Its digests are those of this boot (R433). -/
def State.bringUp (s : State) (fail : BitVec 8) (bad : List Nat) : State :=
  let boot := s.fresh
  let s := s.afterReset
  if fail ≠ 0 then
    { s with
      measured := decide (fail ≠ 1 ∧ fail ≠ 2)
      boot := if fail ≠ 1 ∧ fail ≠ 2 then some boot else none
      regs := { s.regs with bootFail := fail, bootStep := failStep fail } }
  else
    bad.foldl (fun s c => s.modCore c fun C => { C with fenced := true })
      { s with
        measured := true
        boot := some boot
        regs := { s.regs with bootReady := true, bootStep := 7, bootFenced := BitVec.ofNat 8 bad.length
                              hostRsv := BitVec.ofNat 32 s.hostRsvSize } }

/-- PART_RESET. A code that R433 does not name, or a count of failed cores that does not fit the code, is no outcome. -/
def execPartReset (fail : BitVec 8) (badCores : List Nat) (s : State) : Result :=
  .next (let s := s.fenceSubs badCores
    let bad := s.failedCores badCores
    if 5 < fail.toNat ∨ decide (fail = 5) ≠ decide (16 < bad.length) then s else s.bringUp fail bad)

/-- Bring-up when nothing from outside gives its outcome: it fails only where too many cores are fenced already. -/
def execBringUp (s : State) : Result := execPartReset (if 16 < (s.failedCores []).length then 5 else 0) [] s

/-- PART_FATAL: every context goes FENCED, and the part does no further work. -/
def execPartFatal (s : State) : Result :=
  .next (let s := (List.range 4095).foldl (fun s n =>
      if (s.ctx (n + 1)).state = .destroyed then s else s.fenceContext (n + 1)) s
    s.modRegs fun g => { g with bootFatal := true })

end Sys2Proof.Machine
end

