-- ==== Sys2Proof/Machine/Fetch.lean ====
section
/-! DEFINITION. Instruction fetch (R53, R277 to R279) and the words that are no instruction (R68). -/

namespace Sys2Proof.Machine

/-- What the fetch at an address finds (R277). -/
inductive Fetched where
  | word (w : Word)
  | trap (cause : BitVec 8)
  /-- the page, by its base, is ABSENT -/
  | absent (page : Nat)
  /-- the word is uncorrectable: its block and whether its mark is still to be made (R422) -/
  | bad (b : Nat × Bool)
  deriving DecidableEq, Repr

/-- Fetches for a team at an address: through the TLB as a load does, with X. The ring window and the backing store hold no
instructions (R127, R334), nor does a node window that the context may not read (R387). -/
def State.fetchAt (s : State) (T : Team) (pc : DWord) : State × Fetched :=
  if !canonical pc || inWindow pc || (s.ctx T.ctx).desc.inBacking pc.toNat then (s, .trap 0x13)
  else
    match s.translate T.core T.ctx pc.toNat with
    | (s, .refused c) => (s, .trap (if c = 0x12 then 0x12 else 0x13))
    | (s, .page e) =>
      if !pteX e.pte then (s, .trap 0x13)
      else if pteSt e.pte = 0 then (s, .absent (pageBase (swapVa (s.ctx T.ctx).swaps pc.toNat) e.size))
      else
        let pa := e.phys (s.ctx T.ctx).swaps pc.toNat
        if (s.nodeCheck T.ctx pa .fetch false).isSome then (s, .trap 0x13)
        else
          match s.badBlock? pa 4 with
          | some b => (s, .bad b)
          | none => (s, .word (BitVec.ofNat 32 (ofBytes (s.mem.read (accessDie (dieOf T.core) pa) pa 4))))

/-- A LIT group in progress is given up: its threads go on at its first LIT (R61). -/
def State.restartGroup (s : State) (k : Nat) (tids : List Nat) : State :=
  if s.lits.payloads.isEmpty then s
  else
    let pc0 := s.lits.pc0
    { tids.foldl (fun s i => s.modThread k i fun t => { t with pc := pc0 }) s with lits := {} }

/-- The bundle's threads park on the page of their fetch, announced as kind 3; where the package list is full they try again
(R271). -/
def State.parkFetch (s : State) (k : Nat) (tids : List Nat) (T : Team) (page : Nat) : State :=
  let s := s.restartGroup k tids
  if s.announceFull T.ctx (BitVec.ofNat 64 page) false false then s
  else tids.foldl (fun s i => (s.parkOn k i page 3 false false).modThread k i fun t => { t with lastPc := t.pc }) s

/-- The word of a fetch lies in a line outside the package that its proxy does not hold: it is read with the walk (R385, R443). -/
def State.farCode (s : State) (T : Team) (pc : DWord) : Bool :=
  match s.leaf? T.core T.ctx pc.toNat with
  | some e =>
    let pa := e.phys (s.ctx T.ctx).swaps pc.toNat
    pteX e.pte && pteSt e.pte != 0 && !inHbm pa && (s.nodeCheck T.ctx pa .fetch false).isNone &&
      !s.proxied T.ctx (lineOf pa)
  | none => false

/-- The fetch of a thread has to wait for a walk: its translation is not cached, and the walk is not made within the step (R263,
R277); or for its line. -/
def State.fetchWalks (s : State) (T : Team) (t : Thread) : Bool :=
  canonical t.pc && !inWindow t.pc && !(s.ctx T.ctx).desc.inBacking t.pc.toNat && !t.walked.contains t.pc &&
    ((s.slowWalk T t.pc && (s.cached? T.core T.ctx (swapVa (s.ctx T.ctx).swaps t.pc.toNat)).isNone) || s.farCode T t.pc)

/-- The bundle's threads wait for the walk of their fetch, or for a slot of the walker. -/
def State.fetchWalk (s : State) (k : Nat) (tids : List Nat) (T : Team) (pc : DWord) : State :=
  let s := s.restartGroup k tids
  let c := clusterOf T.core
  if 16 ≤ s.walksIn c then tids.foldl (fun s i => s.modThread k i fun t => { t.wait (.walker c) with fetching := true }) s
  else
    let w : Walk := { id := s.fresh, cluster := c, core := T.core, ctx := T.ctx, va := pc, startedAt := s.clock
                      who := some (k, tids.headD 0), code := true }
    tids.foldl (fun s i => s.modThread k i fun t => { t.wait (.walk w.id) with fetching := true })
      { s with fresh := s.fresh + 1, walks := s.walks ++ [w] }

/-- Fetches the next word of the threads of a bundle: none where it waits for a walk, trapped, parked or died. -/
def State.fetch (s : State) (k : Nat) (tids : List Nat) : State × Option Word :=
  match s.team? k, (tids.head?).bind fun i => s.thread? k i with
  | some T, some t =>
    if s.fetchWalks T t then (s.fetchWalk k tids T t.pc, none)
    else
      match s.fetchAt T t.pc with
      | (s, .word w) => (s, some w)
      | (s, .trap c) => (tids.foldl (fun s i => s.deliver k i c t.pc 0) s, none)
      | (s, .absent p) => (s.parkFetch k tids T p, none)
      | (s, .bad b) => ((s.meetBad b).fatal k (tids.headD 0) 0x82 (s.trapPc t) t.pc t.pc, none)
  | _, _ => (s, none)

/-- Bundles of the team may issue: its context holds the slice of its core, and nothing stops it. -/
def State.canIssue (s : State) (T : Team) : Bool :=
  (T.phase == .resident || T.phase == .running) && T.stopped.isNone && (s.core T.core).slice == some T.ctx

/-- A thread index takes its place by lane. -/
def insertLane (i : Nat) : List Nat → List Nat
  | [] => [i]
  | j :: l => if laneOf i < laneOf j then i :: j :: l else j :: insertLane i l

/-- The threads of a bundle in ascending lane order (R165, R170). -/
def Team.membersOf (T : Team) (b : Nat) : List Nat :=
  ((T.threads.zipIdx.filter fun x => x.1.status == .ready && x.1.bundle == some b).map fun x => x.2).foldl
    (fun l i => insertLane i l) []

/-- The threads of the bundle that a thread belongs to. -/
def Team.bundleOf (T : Team) (i : Nat) : List Nat :=
  match T.threads[i]?.filter fun t => t.status == .ready with
  | none => []
  | some t =>
    match t.bundle with
    | none => []
    | some b => T.membersOf b

/-- The thread yields to other bundles (R92). -/
def Thread.yields (t : Thread) : Bool :=
  match t.yielded with
  | some y => !y.2.isEmpty
  | none => false

/-- The next issue of a team is withheld: by an overcurrent warning of its die, or under a power cap (R16, R23). -/
def State.withheld (s : State) (T : Team) : Bool := (s.die (dieOf T.core)).warned || s.capped T.core T.ctx

/-- The bundle of a thread would issue: it yields to no other, and no issue of its team is withheld. -/
def State.wouldIssue (s : State) (T : Team) (i : Nat) : Bool :=
  s.canIssue T && !s.withheld T && !(T.bundleOf i).isEmpty && (T.bundleOf i).all fun j =>
    match T.threads[j]? with
    | some t => !t.yields
    | none => false

/-- INSTRUCTION_FETCH: the bundle of a thread that would issue fetches its next word (R277); the word stays in memory until the bundle
issues it. -/
def execInstructionFetch (k i : Nat) (s : State) : Result :=
  .next (match s.team? k with
  | none => s
  | some T =>
    if s.lits.payloads.isEmpty ∧ s.wouldIssue T i then (s.fetch k (T.bundleOf i)).1 else s)

/-- RUN_AHEAD_FETCH: it uses cached translations only, walks, traps, announces and parks nothing, and changes no state that the
model holds: fetch reads memory itself (R279). -/
def execRunAheadFetch (_c : Nat) (_x : BitVec 12) (_va : BitVec 64) (s : State) : Result := .next s

/-- The cause of a word that is no instruction (R68). -/
def causeCode : WordCause → BitVec 8
  | .opcode => 0x01
  | .field => 0x02
  | .lit => 0x03

/-- ILLEGAL_OPCODE: every thread of the bundle traps with the word's cause. -/
def execIllegalOpcode (_w : BitVec 32) (cause : WordCause) (s : State) : Result :=
  .next (s.onLanes fun _ _ _ => .trap { cause := causeCode cause })

end Sys2Proof.Machine
end

