-- ==== Sys2Proof/Machine/Uses.lean ====
section
/-! DEFINITION. What an instruction names before it issues: the registers, predicates and references it reads, the registers
it writes, the privilege it asks for, and the tag of its result (R126, R131, R153, R186, R237). -/

namespace Sys2Proof.Machine

/-- How the tag of a register result follows from its sources (R131). -/
inductive TagRule where
  /-- untagged -/
  | plain
  /-- uniform whatever the sources -/
  | const
  /-- affine with base 0 and stride 1 -/
  | lane
  /-- uniform when every register source is uniform, of which there is one (log 72) -/
  | all
  /-- as all, and affine when each source is tagged and one is affine -/
  | affine
  /-- as all, and affine when one source is affine and every other uniform -/
  | scale
  /-- the source's tag -/
  | copy
  /-- uniform when the first source is uniform -/
  | first
  /-- uniform when the address, from this pair and this offset in units, is uniform and lies in the argument block -/
  | load (a : BitVec 7) (imm : BitVec 11) (unit : Nat)
  deriving DecidableEq, Repr

/-- The privilege an instruction asks for (R77, R85). -/
inductive Needs where
  | nothing | mode | tiles
  deriving DecidableEq, Repr

/-- What an instruction names. Registers are given as the first and a count. -/
structure Uses where
  src : List (BitVec 7 × Nat) := []
  dst : List (BitVec 7 × Nat) := []
  /-- it reads the return link below the window (R147) -/
  link : Bool := false
  special : Option (BitVec 7) := none
  preds : List (BitVec 3) := []
  refs : List (BitVec 4) := []
  tag : TagRule := .plain
  priv : Needs := .nothing
  deriving DecidableEq, Repr

/-- The tag of an SRD (R131). -/
def srdTag (n : Nat) : TagRule :=
  if n = 0 then .lane else if [2, 3, 4, 5, 6, 7, 12, 22].contains n then .const else .plain

/-- What each core instruction names; an event of the part names nothing. -/
def Instr.uses (i : Sys2Proof.Instr) : Uses :=
  match i with
  | .brc _ p _ => { preds := [p] }
  | .call slide _ => { dst := [((slide - 2), 2)] }
  | .callr a slide => { src := [(a, 2)], dst := [((slide - 2), 2)], tag := .all }
  | .jmpr a => { src := [(a, 2)] }
  | .srd d sr => { dst := [(d, (if srIsWide sr.toNat then 2 else 1))], special := some sr, tag := (srdTag sr.toNat) }
  | .swr sr a =>
    { src := [(a, (if srIsWide sr.toNat then 2 else 1))], special := some sr,
      priv := (if srPrivileged sr.toNat then .mode else .nothing) }
  | .rdcnt d _ => { dst := [(d, 2)] }
  | .tmark _ a => { src := [(a, 1)] }
  | .sleep a => { src := [(a, 1)] }
  | .launch d a b => { src := [(a, 2), (b, 4)], dst := [(d, 1)] }
  | .gwait d a => { src := [(a, 1)], dst := [(d, 1)] }
  | .elect d _ => { dst := [(d, 1)] }
  | .electS d _ q => { dst := [(d, 1)], preds := [q] }
  | .wakel d a => { src := [(a, 1)], dst := [(d, 1)] }
  | .matchW d a => { src := [(a, 1)], dst := [(d, 1)] }
  | .matchX d a => { src := [(a, 2)], dst := [(d, 1)] }
  | .voteAny _ a => { preds := [a] }
  | .voteAll _ a => { preds := [a] }
  | .voteBal d p => { dst := [(d, 1)], preds := [p] }
  | .actmask d => { dst := [(d, 1)] }
  | .shflIdx d a b => { src := [(a, 1), (b, 1)], dst := [(d, 1)], tag := .first }
  | .shflUp d a b => { src := [(a, 1), (b, 1)], dst := [(d, 1)], tag := .first }
  | .shflDown d a b => { src := [(a, 1), (b, 1)], dst := [(d, 1)], tag := .first }
  | .shflXor d a b => { src := [(a, 1), (b, 1)], dst := [(d, 1)], tag := .first }
  | .pand _ a b => { preds := [a, b] }
  | .por _ a b => { preds := [a, b] }
  | .pxor _ a b => { preds := [a, b] }
  | .pandn _ a b => { preds := [a, b] }
  | .pnot _ a => { preds := [a] }
  | .pmov _ a => { preds := [a] }
  | .pget d => { dst := [(d, 1)], preds := [0, 1, 2, 3, 4, 5, 6, 7] }
  | .psetm a b => { src := [(a, 1), (b, 1)] }
  | .add d a b => { src := [(a, 1), (b, 1)], dst := [(d, 1)], tag := .affine }
  | .sub d a b => { src := [(a, 1), (b, 1)], dst := [(d, 1)], tag := .affine }
  | .and d a b => { src := [(a, 1), (b, 1)], dst := [(d, 1)], tag := .all }
  | .or d a b => { src := [(a, 1), (b, 1)], dst := [(d, 1)], tag := .all }
  | .xor d a b => { src := [(a, 1), (b, 1)], dst := [(d, 1)], tag := .all }
  | .andn d a b => { src := [(a, 1), (b, 1)], dst := [(d, 1)], tag := .all }
  | .shl d a b => { src := [(a, 1), (b, 1)], dst := [(d, 1)], tag := .scale }
  | .shr d a b => { src := [(a, 1), (b, 1)], dst := [(d, 1)], tag := .all }
  | .sar d a b => { src := [(a, 1), (b, 1)], dst := [(d, 1)], tag := .all }
  | .minS d a b => { src := [(a, 1), (b, 1)], dst := [(d, 1)], tag := .all }
  | .minU d a b => { src := [(a, 1), (b, 1)], dst := [(d, 1)], tag := .all }
  | .maxS d a b => { src := [(a, 1), (b, 1)], dst := [(d, 1)], tag := .all }
  | .maxU d a b => { src := [(a, 1), (b, 1)], dst := [(d, 1)], tag := .all }
  | .mul d a b => { src := [(a, 1), (b, 1)], dst := [(d, 1)], tag := .scale }
  | .mulhiS d a b => { src := [(a, 1), (b, 1)], dst := [(d, 1)], tag := .all }
  | .mulhiU d a b => { src := [(a, 1), (b, 1)], dst := [(d, 1)], tag := .all }
  | .mad d a b => { src := [(a, 1), (b, 1), (d, 1)], dst := [(d, 1)], tag := .all }
  | .mulwS d a b => { src := [(a, 1), (b, 1)], dst := [(d, 2)], tag := .all }
  | .mulwU d a b => { src := [(a, 1), (b, 1)], dst := [(d, 2)], tag := .all }
  | .abs d a => { src := [(a, 1)], dst := [(d, 1)], tag := .all }
  | .clz d a => { src := [(a, 1)], dst := [(d, 1)], tag := .all }
  | .popc d a => { src := [(a, 1)], dst := [(d, 1)], tag := .all }
  | .brev d a => { src := [(a, 1)], dst := [(d, 1)], tag := .all }
  | .bfeS d a b => { src := [(a, 1), (b, 1)], dst := [(d, 1)], tag := .all }
  | .bfeU d a b => { src := [(a, 1), (b, 1)], dst := [(d, 1)], tag := .all }
  | .bfi d a b => { src := [(a, 1), (b, 1), (d, 1)], dst := [(d, 1)], tag := .all }
  | .mov d a => { src := [(a, 1)], dst := [(d, 1)], tag := .copy }
  | .extS d a _ => { src := [(a, 1)], dst := [(d, 1)], tag := .all }
  | .extU d a _ => { src := [(a, 1)], dst := [(d, 1)], tag := .all }
  | .sel d a b _ p => { src := [(a, 1), (b, 1)], dst := [(d, 1)], preds := [p], tag := .all }
  | .iset _ _ a b => { src := [(a, 1), (b, 1)] }
  | .isetX _ _ a b => { src := [(a, 2), (b, 2)] }
  | .iseti _ _ a _ => { src := [(a, 1)] }
  | .addi d a _ => { src := [(a, 1)], dst := [(d, 1)], tag := .affine }
  | .andi d a _ => { src := [(a, 1)], dst := [(d, 1)], tag := .all }
  | .ori d a _ => { src := [(a, 1)], dst := [(d, 1)], tag := .all }
  | .xori d a _ => { src := [(a, 1)], dst := [(d, 1)], tag := .all }
  | .shli d a _ => { src := [(a, 1)], dst := [(d, 1)], tag := .scale }
  | .shri d a _ => { src := [(a, 1)], dst := [(d, 1)], tag := .all }
  | .sari d a _ => { src := [(a, 1)], dst := [(d, 1)], tag := .all }
  | .roli d a _ => { src := [(a, 1)], dst := [(d, 1)], tag := .all }
  | .muli d a _ => { src := [(a, 1)], dst := [(d, 1)], tag := .scale }
  | .movi d _ => { dst := [(d, 1)], tag := .const }
  | .addX d a b => { src := [(a, 2), (b, 2)], dst := [(d, 2)], tag := .affine }
  | .subX d a b => { src := [(a, 2), (b, 2)], dst := [(d, 2)], tag := .affine }
  | .shlX d a b => { src := [(a, 2), (b, 1)], dst := [(d, 2)], tag := .scale }
  | .shrX d a b => { src := [(a, 2), (b, 1)], dst := [(d, 2)], tag := .all }
  | .sarX d a b => { src := [(a, 2), (b, 1)], dst := [(d, 2)], tag := .all }
  | .movX d a => { src := [(a, 2)], dst := [(d, 2)], tag := .copy }
  | .lea d a b _ => { src := [(a, 2), (b, 1)], dst := [(d, 2)], tag := .affine }
  | .addiX d a _ => { src := [(a, 2)], dst := [(d, 2)], tag := .affine }
  | .fadd d a b _ _ _ => { src := [(a, 1), (b, 1)], dst := [(d, 1)], tag := .all }
  | .fsub d a b _ _ _ => { src := [(a, 1), (b, 1)], dst := [(d, 1)], tag := .all }
  | .fmul d a b _ _ _ => { src := [(a, 1), (b, 1)], dst := [(d, 1)], tag := .all }
  | .ffma d a b _ _ _ => { src := [(a, 1), (b, 1), (d, 1)], dst := [(d, 1)], tag := .all }
  | .fmin d a b => { src := [(a, 1), (b, 1)], dst := [(d, 1)], tag := .all }
  | .fmax d a b => { src := [(a, 1), (b, 1)], dst := [(d, 1)], tag := .all }
  | .fset _ _ a b => { src := [(a, 1), (b, 1)] }
  | .rcp d a => { src := [(a, 1)], dst := [(d, 1)], tag := .all }
  | .rsq d a => { src := [(a, 1)], dst := [(d, 1)], tag := .all }
  | .sqrt d a => { src := [(a, 1)], dst := [(d, 1)], tag := .all }
  | .exp2 d a => { src := [(a, 1)], dst := [(d, 1)], tag := .all }
  | .log2 d a => { src := [(a, 1)], dst := [(d, 1)], tag := .all }
  | .sinpi d a => { src := [(a, 1)], dst := [(d, 1)], tag := .all }
  | .cospi d a => { src := [(a, 1)], dst := [(d, 1)], tag := .all }
  | .rndn d a => { src := [(a, 1)], dst := [(d, 1)], tag := .all }
  | .rndz d a => { src := [(a, 1)], dst := [(d, 1)], tag := .all }
  | .rndd d a => { src := [(a, 1)], dst := [(d, 1)], tag := .all }
  | .rndu d a => { src := [(a, 1)], dst := [(d, 1)], tag := .all }
  | .fcvtF32I32 d a _ => { src := [(a, 1)], dst := [(d, 1)], tag := .all }
  | .fcvtF32Ui32 d a _ => { src := [(a, 1)], dst := [(d, 1)], tag := .all }
  | .fcvtI32F32 d a _ => { src := [(a, 1)], dst := [(d, 1)], tag := .all }
  | .fcvtUi32F32 d a _ => { src := [(a, 1)], dst := [(d, 1)], tag := .all }
  | .fcvtF32I64 d a _ => { src := [(a, 2)], dst := [(d, 1)], tag := .all }
  | .fcvtI64F32 d a _ => { src := [(a, 1)], dst := [(d, 2)], tag := .all }
  | .fcvtF16F32 d a _ => { src := [(a, 1)], dst := [(d, 1)], tag := .all }
  | .fcvtBf16F32 d a _ => { src := [(a, 1)], dst := [(d, 1)], tag := .all }
  | .fcvtF16hF32 d a _ => { src := [(a, 1), (d, 1)], dst := [(d, 1)], tag := .all }
  | .fcvtBf16hF32 d a _ => { src := [(a, 1), (d, 1)], dst := [(d, 1)], tag := .all }
  | .fcvtF32F16 d a => { src := [(a, 1)], dst := [(d, 1)], tag := .all }
  | .fcvtF32Bf16 d a => { src := [(a, 1)], dst := [(d, 1)], tag := .all }
  | .fcvtF32F16h d a => { src := [(a, 1)], dst := [(d, 1)], tag := .all }
  | .fcvtF32Bf16h d a => { src := [(a, 1)], dst := [(d, 1)], tag := .all }
  | .fcvtF32Ui64 d a _ => { src := [(a, 2)], dst := [(d, 1)], tag := .all }
  | .fcvtUi64F32 d a _ => { src := [(a, 1)], dst := [(d, 2)], tag := .all }
  | .pk8 d a _ _ => { src := [(a, 4)], dst := [(d, 1)], tag := .all }
  | .upk8 d a _ => { src := [(a, 1)], dst := [(d, 4)], tag := .all }
  | .pk6 d a _ _ => { src := [(a, 8)], dst := [(d, 2)], tag := .all }
  | .upk6 d a _ => { src := [(a, 2)], dst := [(d, 8)], tag := .all }
  | .hadd2Bf16 d a b => { src := [(a, 1), (b, 1)], dst := [(d, 1)], tag := .all }
  | .hmul2Bf16 d a b => { src := [(a, 1), (b, 1)], dst := [(d, 1)], tag := .all }
  | .hfma2Bf16 d a b => { src := [(a, 1), (b, 1), (d, 1)], dst := [(d, 1)], tag := .all }
  | .hadd2F16 d a b => { src := [(a, 1), (b, 1)], dst := [(d, 1)], tag := .all }
  | .hmul2F16 d a b => { src := [(a, 1), (b, 1)], dst := [(d, 1)], tag := .all }
  | .hfma2F16 d a b => { src := [(a, 1), (b, 1), (d, 1)], dst := [(d, 1)], tag := .all }
  | .hmin2 d a b => { src := [(a, 1), (b, 1)], dst := [(d, 1)], tag := .all }
  | .hmax2 d a b => { src := [(a, 1), (b, 1)], dst := [(d, 1)], tag := .all }
  | .scx d a _ => { src := [(a, 1)], dst := [(d, 1)], tag := .all }
  | .sca d a b => { src := [(a, 1), (b, 1)], dst := [(d, 1)], tag := .all }
  | .scm d a _ => { src := [(a, 1)], dst := [(d, 1)] }
  | .ldB d a imm => { src := [(a, 2)], dst := [(d, 1)], tag := .load a imm 1 }
  | .ldBs d a imm => { src := [(a, 2)], dst := [(d, 1)], tag := .load a imm 1 }
  | .ldH d a imm => { src := [(a, 2)], dst := [(d, 1)], tag := .load a imm 2 }
  | .ldHs d a imm => { src := [(a, 2)], dst := [(d, 1)], tag := .load a imm 2 }
  | .ldW d a imm => { src := [(a, 2)], dst := [(d, 1)], tag := .load a imm 4 }
  | .ldX d a imm => { src := [(a, 2)], dst := [(d, 2)], tag := .load a imm 8 }
  | .ldQ d a imm => { src := [(a, 2)], dst := [(d, 4)], tag := .load a imm 16 }
  | .stB d a _ => { src := [(a, 2), (d, 1)] }
  | .stH d a _ => { src := [(a, 2), (d, 1)] }
  | .stW d a _ => { src := [(a, 2), (d, 1)] }
  | .stX d a _ => { src := [(a, 2), (d, 2)] }
  | .stQ d a _ => { src := [(a, 2), (d, 4)] }
  | .ldm d a _ _ w _ => { src := [(a, 2)], dst := [(d, (widthRegs w))], tag := .load a 0 1 }
  | .stm d a _ _ w _ => { src := [(a, 2), (d, (widthRegs w))] }
  | .prefLlc a _ => { src := [(a, 2)] }
  | .prefStash a _ => { src := [(a, 2)] }
  | .pgreq d a b => { src := [(a, 2), (b, 1)], dst := [(d, 1)] }
  | .pgreqNp d a b => { src := [(a, 2), (b, 1)], dst := [(d, 1)] }
  | .atomT d a b op =>
    { src := [(a, 2), (b, (if op = .cas ∨ op = .addX then 2 else 1))], dst := [(d, (if op = .addX then 2 else 1))] }
  | .atomC d a b op =>
    { src := [(a, 2), (b, (if op = .cas ∨ op = .addX then 2 else 1))], dst := [(d, (if op = .addX then 2 else 1))] }
  | .atomD d a b op =>
    { src := [(a, 2), (b, (if op = .cas ∨ op = .addX then 2 else 1))], dst := [(d, (if op = .addX then 2 else 1))] }
  | .atomP d a b op =>
    { src := [(a, 2), (b, (if op = .cas ∨ op = .addX then 2 else 1))], dst := [(d, (if op = .addX then 2 else 1))] }
  | .atomS d a b op =>
    { src := [(a, 2), (b, (if op = .cas ∨ op = .addX then 2 else 1))], dst := [(d, (if op = .addX then 2 else 1))] }
  | .redD a b op => { src := [(a, 2), (b, (if op = .cas ∨ op = .addX then 2 else 1))] }
  | .redP a b op => { src := [(a, 2), (b, (if op = .cas ∨ op = .addX then 2 else 1))] }
  | .redS a b op => { src := [(a, 2), (b, (if op = .cas ∨ op = .addX then 2 else 1))] }
  | .stfl d a b wide _ => { src := [(d, (if wide then 2 else 1)), (a, 2), (b, 2)] }
  | .redn d a b _ => { src := [(d, 4), (a, 2), (b, 2)] }
  | .smap d a b => { src := [(a, 2), (b, 2)], dst := [(d, 1)] }
  | .sunmap d a => { src := [(a, 2)], dst := [(d, 1)] }
  | .sflush a b => { src := [(a, 2), (b, 1)] }
  | .sinv a b => { src := [(a, 2), (b, 1)] }
  | .pub d a b => { src := [(a, 2), (b, 4)], dst := [(d, 1)] }
  | .mwatch d a => { src := [(a, 2)], dst := [(d, 1)] }
  | .mwait d b => { src := [(b, 1)], dst := [(d, 1)] }
  | .barArrive _ a => { dst := [(a, 1)] }
  | .barWait _ a => { src := [(a, 1)] }
  | .tbinit a b => { src := [(a, 2), (b, 1)] }
  | .tbexp a b => { src := [(a, 2), (b, 1)] }
  | .tbarr d a => { src := [(a, 2)], dst := [(d, 1)] }
  | .tbwait d a b => { src := [(a, 2), (b, 1)], dst := [(d, 1)] }
  | .tbtest d a b => { src := [(a, 2), (b, 1)], dst := [(d, 1)] }
  | .tberr d a => { src := [(a, 2)], dst := [(d, 4)] }
  | .ccset _ a => { src := [(a, 1)] }
  | .ccadd _ a => { src := [(a, 1)] }
  | .ccrd d _ => { dst := [(d, 1)] }
  | .mxacq d => { dst := [(d, 1)], priv := .tiles }
  | .mxrel d => { dst := [(d, 1)], priv := .tiles }
  | .tmma _ _ _ _ _ _ _ => { priv := .tiles }
  | .tmmai _ _ _ _ _ _ _ => { priv := .tiles }
  | .tzero _ _ => { priv := .tiles }
  | .trd d _ b => { src := [(b, 1)], dst := [(d, 4)], priv := .tiles }
  | .twr d _ b => { src := [(d, 4), (b, 1)], priv := .tiles }
  | .trowsum d _ => { dst := [(d, 1)], priv := .tiles }
  | .trowssq d _ => { dst := [(d, 1)], priv := .tiles }
  | .trowmax d _ => { dst := [(d, 1)], priv := .tiles }
  | .trowmul _ b => { src := [(b, 1)], priv := .tiles }
  | .trowadd _ b => { src := [(b, 1)], priv := .tiles }
  | .tcvt _ _ _ _ _ => { priv := .tiles }
  | .tscale _ _ b => { src := [(b, 9)], priv := .tiles }
  | .tlda a b => { src := [(a, 2), (b, 1)], priv := .tiles }
  | .tstate d a => { src := [(a, 1)], dst := [(d, 1)], priv := .tiles }
  | .trel a => { src := [(a, 1)], priv := .tiles }
  | .cbld _ a => { src := [(a, 8)], priv := .tiles }
  | .rldW d r _ => { dst := [(d, 1)], refs := [r] }
  | .rldX d r _ => { dst := [(d, 2)], refs := [r] }
  | .rstW d r _ => { src := [(d, 1)], refs := [r] }
  | .rstX d r _ => { src := [(d, 2)], refs := [r] }
  | .rldr _ r b => { src := [(b, 1)], refs := [r] }
  | .rstr d r b => { src := [(b, 1)], refs := [d, r] }
  | .pin d r => { dst := [(d, 2)], refs := [r] }
  | .unpin d r => { dst := [(d, 1)], refs := [r] }
  | .refeq _ r q => { refs := [r, q] }
  | .rget d r => { dst := [(d, 2)], refs := [r] }
  | .rput _ a => { src := [(a, 2)], priv := .mode }
  | .rchk d r => { dst := [(d, 1)], refs := [r] }
  | .ret => { link := true }
  | .rft => { priv := .mode }
  | _ => {}

end Sys2Proof.Machine
end

