-- ==== Sys2Proof/Machine/Gate.lean ====
section
/-! DEFINITION. What stands between the fetch of an instruction and its effect, lane by lane: operands whose writers have not
committed (R152, R237, R239), register slabs (R126, R127, R129), parity (R423); and after it the tags of its results
(R131, R132). SLAB_SPILL and SLAB_FILL. -/

namespace Sys2Proof.Machine

/-- Logical positions of registers. -/
def positionsOf (t : Thread) (l : List (BitVec 7 × Nat)) : List Nat :=
  l.flatMap fun x => (List.range x.2).map fun j => t.pos x.1 + j

/-- The positions an instruction reads. -/
def Uses.reads (u : Uses) (t : Thread) : List Nat :=
  positionsOf t u.src ++ if u.link && decide (2 ≤ t.wb) then [t.wb - 2, t.wb - 1] else []

/-- The slabs of positions, each once. -/
def slabsOf (l : List Nat) : List Nat := l.foldl (fun acc p => addNew acc [p / 16]) []

/-- The slabs it names. -/
def Uses.slabs (u : Uses) (t : Thread) : List Nat := slabsOf (u.reads t ++ positionsOf t u.dst)

/-! ## Operands -/

/-- What an instruction waits for before it reads. sr.resm counts as predicate 8; sr.fpflags takes the flags of every older
tile operation of the thread. -/
def State.awaits (s : State) (i : Nat) (T : Team) (t : Thread) (u : Uses) : Option Wait :=
  let regs := (u.reads t).filter fun p => (tget? p t.pendRegs).isSome
  let named := u.preds.map fun (p : BitVec 3) => p.toNat
  let preds := (named ++ if u.special = some 9 ∧ u.dst ≠ [] then [8] else []).filter fun p => (tget? p t.pendPreds).isSome
  let refs := (u.refs.map fun r => r.toNat).filter fun r => (tget? r t.pendRefs).isSome
  if !(regs.isEmpty && preds.isEmpty && refs.isEmpty) then some (.operand regs preds refs)
  else if u.special = some 8 then
    let ops := ((s.core T.core).seq.filter fun o => o.tids.contains i && o.team == s.issue.team).map fun o => o.id
    if ops.isEmpty then none else some (.older ops)
  else none

/-! ## Slabs (R126, R127, R129) -/

/-- Blocks of a context's backing store that threads may use. -/
def CtxDesc.blockLimit (d : CtxDesc) : Nat := (d.bslimit.toNat - 65536) / 64

/-- The position that the end of a thread's wait writes. -/
def Status.writes? : Status → Option Nat
  | .waiting (.phase _ _ p) => some p
  | .waiting (.engine p) => some p
  | .watching p _ _ => some p
  | .ready | .waiting _ | .parked | .sleeping _ | .exited => none

/-- A slab is the destination of a write still in flight. -/
def Thread.pinned (t : Thread) (n : Nat) : Bool :=
  (t.pendRegs.any fun x => x.1 / 16 == n) || match t.status.writes? with
    | some p => p / 16 == n
    | none => false

/-- The tag of a position that is not listed: that of the team's start (R131), unless the team has moved (R132). -/
def Thread.startTag (t : Thread) : Tag := if t.moved then .untagged else .uniform 0
def Thread.tagAt (t : Thread) (p : Nat) : Tag := tget t.startTag p t.tags
/-- A position takes a tag. -/
def Thread.setTag (t : Thread) (p : Nat) (x : Tag) : Thread :=
  { t with tags := if x = t.startTag then tdel p t.tags else tput p x t.tags }

/-- A slab leaves the register file: its positions lose their tags where it was spilled. -/
def Thread.evict (t : Thread) (n : Nat) (spill : Bool) : Thread :=
  let t := { t with slabs := tdel n t.slabs }
  if spill then
    (List.range 16).foldl (fun t j => t.setTag (16 * n + j) .untagged)
      { t with spilled := addNew t.spilled [n], badSpills := t.badSpills.filter fun x => x != n }
  else t

/-- A slab enters the register file. -/
def Thread.fill (t : Thread) (n : Nat) : Thread :=
  { t with
    slabs := tput n false t.slabs
    spilled := t.spilled.filter fun x => x != n
    badSpills := t.badSpills.filter fun x => x != n }

/-- The state of making room: the thread, the blocks its context uses, the slabs spilled and filled so far. -/
structure Room where
  t : Thread
  blocks : Nat
  spills : List Nat := []
  fills : List Nat := []
  deriving DecidableEq, Repr

/-- Why no room can be made. -/
inductive NoRoom where
  /-- no block of the backing store is free -/
  | full
  /-- every held slab is the destination of a write in flight -/
  | pinned
  deriving DecidableEq, Repr

/-- A held slab that may go: one that is not in need, if there is one (log 10). -/
def Thread.victim (t : Thread) (need : List Nat) : Option (Nat × Bool) :=
  let free := t.slabs.filter fun x => !t.pinned x.1
  match free.find? fun x => !need.contains x.1 with
  | some x => some x
  | none => free.head?

/-- Holds one slab more. One of dst, which the instruction is to write, counts as written when it has to go again. -/
def Room.hold (r : Room) (cap limit : Nat) (need dst : List Nat) (n : Nat) : Except NoRoom Room :=
  if (tget? n r.t.slabs).isSome then .ok r
  else
    let back := if r.t.spilled.contains n then 1 else 0
    if r.t.slabs.length < cap then .ok { r with t := r.t.fill n, blocks := r.blocks - back, fills := r.fills ++ [n] }
    else
      match r.t.victim need with
      | none => .error .pinned
      | some (v, written) =>
        if written || dst.contains v then
          if r.blocks < limit then
            .ok { t := (r.t.evict v true).fill n, blocks := r.blocks + 1 - back, spills := r.spills ++ [v]
                  fills := r.fills ++ [n] }
          else .error .full
        else .ok { r with t := (r.t.evict v false).fill n, blocks := r.blocks - back, fills := r.fills ++ [n] }

/-- Holds every slab of a list, in order. -/
def Room.holdAll (r : Room) (cap limit : Nat) (need dst : List Nat) : List Nat → Except NoRoom Room
  | [] => .ok r
  | n :: l =>
    match r.hold cap limit need dst n with
    | .ok q => q.holdAll cap limit need dst l
    | .error e => .error e

/-- Room for an instruction: for what it reads, and then for what it writes, which stays held (R126, R129). -/
def Room.holdFor (r : Room) (cap limit : Nat) (u : Uses) : Except NoRoom Room :=
  let dst := slabsOf (positionsOf r.t u.dst)
  match r.holdAll cap limit (u.slabs r.t) [] (slabsOf (u.reads r.t)) with
  | .ok q => q.holdAll cap limit dst dst dst
  | .error e => .error e

/-- The room made for a thread takes effect, with its Yarrow events and what counter 12 counts (R126, R415). -/
def State.putRoom (s : State) (k i : Nat) (T : Team) (r : Room) : State :=
  let s := (s.modTeam k fun T =>
    { T.modThread i fun _ => r.t with slabOps := T.slabOps + r.spills.length + r.fills.length }).modCtx T.ctx fun C =>
      { C with blocks := r.blocks }
  let s := r.spills.foldl (fun s n => s.tapTeam T 5 n 0 0 T.slot) s
  r.fills.foldl (fun s n => s.tapTeam T 6 n 0 0 T.slot) s

/-- A slab that a fill would bring in whose block holds an uncorrectable error (R423). -/
def Room.badFill? (r : Room) (t : Thread) : Option Nat :=
  r.fills.find? fun n => t.badSpills.contains n && t.spilled.contains n

/-- The failing address of a fill of a slab: it lies in the context's backing store, whose layout belongs to the part (R127); a free value
within it (log 20). -/
def State.spillAddr (s : State) (x n : Nat) : DWord :=
  let d := (s.ctx x).desc
  d.bsbase + 65536 + BitVec.ofNat 64 (64 * ((Config.freeWord (s.fresh + n)).toNat % max 1 d.blockLimit))

/-- A fill meets uncorrectable data: the team dies as of a load that would consume them (R422, R423). -/
def State.fatalFill (s : State) (k i : Nat) (T : Team) (t : Thread) (n : Nat) : State :=
  let a := s.spillAddr T.ctx n
  s.fatal k i 0x82 (s.trapPc t) a a

/-- SLAB_SPILL: the microcode evicts a slab of a thread, if no write in flight pins it and a block is free where it needs one. -/
def execSlabSpill (k i slab : Nat) (s : State) : Result :=
  .next (match s.team? k, s.thread? k i with
  | some T, some t =>
    match tget? slab t.slabs with
    | none => s
    | some written =>
      let C := s.ctx T.ctx
      if t.pinned slab then s
      else if !written then s.modThread k i fun _ => t.evict slab false
      else if C.blocks < C.desc.blockLimit then
        s.putRoom k i T { t := t.evict slab true, blocks := C.blocks + 1, spills := [slab] }
      else s
  | _, _ => s)

/-- SLAB_FILL: the microcode fills a slab that the thread does not hold, where it has room. -/
def execSlabFill (k i slab : Nat) (s : State) : Result :=
  .next (match s.team? k, s.thread? k i with
  | some T, some t =>
    if t.status = .exited ∨ 512 ≤ slab then s
    else if t.slabs.length < T.slabs then
      match ({ t := t, blocks := (s.ctx T.ctx).blocks } : Room).hold T.slabs (s.ctx T.ctx).desc.blockLimit [slab] [] slab with
      | .ok r =>
        if r.fills.isEmpty then s
        else
          match r.badFill? t with
          | some n => s.fatalFill k i T t n
          | none => s.putRoom k i T r
      | .error _ => s
    else s
  | _, _ => s)

/-! ## Parity (R423) -/

/-- The positions read whose word fails parity: repaired from a good mirror, with its Yarrow event; the first that cannot be. -/
def State.parityOf (s : State) (k i : Nat) (T : Team) (t : Thread) : List Nat → State × Option Nat
  | [] => (s, none)
  | p :: r =>
    match tget? p t.parity with
    | none => s.parityOf k i T t r
    | some good =>
      if good && T.mirrored then
        ((s.modThread k i fun t => { t with parity := tdel p t.parity }).tapTeam T 24 (p / 16) 0 0 T.slot).parityOf k i T t r
      else (s, some p)

/-! ## The gate -/

/-- How a lane stands before the instruction. -/
inductive GateEnd where
  | go
  /-- it waits, or its team has met an uncorrectable register -/
  | stop
  /-- it traps STACK_LIMIT -/
  | limit
  deriving DecidableEq, Repr

/-- The instruction traps PRIVILEGE in this thread before it names a register (R68). -/
def State.lacksPrivilege (s : State) (T : Team) (t : Thread) (u : Uses) : Bool :=
  match u.priv with
  | .nothing => false
  | .mode => !privileged (s.ctx T.ctx) t
  | .tiles => !(s.ctx T.ctx).desc.tiles

/-- One lane at the gate. -/
def State.gateLane (s : State) (k i : Nat) (u : Uses) : State × GateEnd :=
  match s.team? k, s.thread? k i with
  | some T, some t =>
    if t.status ≠ .ready then (s, .stop)
    else if s.lacksPrivilege T t u then (s, .go)
    else
      match s.awaits i T t u with
      | some w => (s.modThread k i fun t => t.wait w, .stop)
      | none =>
        let C := s.ctx T.ctx
        match ({ t := t, blocks := C.blocks } : Room).holdFor T.slabs C.desc.blockLimit u with
        | .error .pinned => (s.modThread k i fun t => t.wait .slab, .stop)
        | .error .full => (s, .limit)
        | .ok r =>
          match r.badFill? t with
          | some n => (s.fatalFill k i T t n, .stop)
          | none =>
          let s := s.putRoom k i T r
          match s.parityOf k i T r.t (u.reads t) with
          | (s, none) => (s, .go)
          | (s, some p) => (s.fatal k i 0x80 (s.trapPc t) 0 (BitVec.ofNat 64 p), .stop)
  | _, _ => (s, .stop)

/-- The bundle at the gate: the lanes that go on, and those that trap. -/
def State.gate (s : State) (u : Uses) : State × List Nat × List Nat :=
  s.issue.tids.foldl (fun acc i =>
    match acc.1.gateLane s.issue.team i u with
    | (s, .go) => (s, acc.2.1 ++ [i], acc.2.2)
    | (s, .stop) => (s, acc.2.1, acc.2.2)
    | (s, .limit) => (s, acc.2.1, acc.2.2 ++ [i])) (s, ([], []))

/-! ## Tags (R131, R132) -/

/-- The tag common to a position of every lane; none where the lanes differ. -/
def commonTag (ls : List Thread) (pos : Thread → Nat) : Tag :=
  match ls with
  | [] => .untagged
  | t :: r => if r.all fun u => u.tagAt (pos u) == t.tagAt (pos t) then t.tagAt (pos t) else .untagged

def Tag.isUniform : Tag → Bool
  | .uniform _ => true
  | .untagged | .affine _ => false
def Tag.isAffine : Tag → Bool
  | .affine _ => true
  | .untagged | .uniform _ => false

/-- The tag of an operand of several registers: theirs where they agree, else by R131's kinds. issue numbers this issue. -/
def operandTag (ls : List Thread) (issue : Nat) (x : BitVec 7 × Nat) : Tag :=
  let tags := (List.range x.2).map fun j => commonTag ls fun t => t.pos x.1 + j
  match tags with
  | [] => .untagged
  | y :: r =>
    if r.all fun z => z == y then y
    else if tags.all fun z => z.isUniform then .uniform issue
    else if tags.contains .untagged then .untagged
    else .affine issue

/-- The tag of the results, from the tags of the register sources. -/
def resultTag (rule : TagRule) (sources : List Tag) (inArgs : Bool) (issue : Nat) : Tag :=
  let uniform := !sources.isEmpty && sources.all fun x => x.isUniform
  let first := sources.headD .untagged
  match rule with
  | .plain => .untagged
  | .const => .uniform issue
  | .lane => .affine issue
  | .all => if uniform then .uniform issue else .untagged
  | .affine =>
    if uniform then .uniform issue
    else if sources.all fun x => x.isUniform || x.isAffine then .affine issue else .untagged
  | .scale =>
    if uniform then .uniform issue
    else if (sources.filter fun x => x.isAffine).length = 1 ∧ (sources.filter fun x => x.isUniform).length + 1 = sources.length then
      .affine issue
    else .untagged
  | .copy => first
  | .first => if first.isUniform then .uniform issue else .untagged
  | .load _ _ _ => if first.isUniform && inArgs then .uniform issue else .untagged

/-- The address of a load lies within its grid's argument block (R109). -/
def State.inArgs (s : State) (T : Team) (t : Thread) (rule : TagRule) : Bool :=
  match rule with
  | .load a imm w =>
    match s.grid? T.ctx T.gid with
    | some G =>
      match G.kernel with
      | some K =>
        let ea := (s.offsetAddr (t.gx a) imm w).toNat
        decide (G.args.toNat ≤ ea) && decide (ea < G.args.toNat + K.argsize)
      | none => false
    | none => false
  | .plain | .const | .lane | .all | .affine | .scale | .copy | .first => false

/-- Source positions that are tagged from different issues in the lanes lose their tags (R132). old is the thread as it was. -/
def Uses.loseTags (u : Uses) (ls : List Thread) (old t : Thread) : Thread :=
  let lose (t : Thread) (pos : Thread → Nat) : Thread :=
    if commonTag ls pos = .untagged ∧ old.tagAt (pos old) ≠ .untagged then t.setTag (pos old) .untagged else t
  let t := u.src.foldl (fun t x => (List.range x.2).foldl (fun t j => lose t fun v => v.pos x.1 + j) t) t
  if u.link && decide (2 ≤ old.wb) then
    let linked := ls.filter fun v => decide (2 ≤ v.wb)
    let loseLink (t : Thread) (pos : Thread → Nat) : Thread :=
      if commonTag linked pos = .untagged ∧ old.tagAt (pos old) ≠ .untagged then t.setTag (pos old) .untagged else t
    loseLink (loseLink t fun v => v.wb - 2) fun v => v.wb - 1
  else t

/-- The tag that a result leaves at a position: none where the position's slab was spilled to make room for the rest (R132). -/
def Thread.resultAt (t : Thread) (p : Nat) (x : Tag) : Tag := if (tget? (p / 16) t.slabs).isSome then x else .untagged

/-- The tags after an instruction: of its results in the lanes that completed it. before holds the lanes as they were once room had been
made for the instruction, so that a source whose slab that spilled counts as untagged (R132, R153: the order is the model's, DESIGN
CHOICE, log 97). -/
def State.retag (old s : State) (u : Uses) : State :=
  match old.issuing? with
  | none => s
  | some T =>
    let before := old.lanes
    let ts := before.map fun x => x.2
    let issue := old.clock + 1
    let sources := u.src.map (operandTag ts issue)
    let x := resultTag u.tag sources (before.all fun y => old.inArgs T y.2 u.tag) issue
    before.foldl (fun s y =>
      s.modThread old.issue.team y.1 fun t =>
        let done := !(t.pc == y.2.pc && t.status != .ready) && (t.handler == y.2.handler)
        let t := u.loseTags ts y.2 t
        if done then (positionsOf y.2 u.dst).foldl (fun t p => t.setTag p (t.resultAt p x)) t else t) s

end Sys2Proof.Machine
end

