-- ==== Sys2Proof/Machine/Group.lean ====
section
/-! DEFINITION. The instructions that read across the lanes of a bundle, and WAKEL (R191 to R196). -/

namespace Sys2Proof.Machine

/-- The lanes of the bundle that meet a test. -/
def maskWhere (ls : List (Nat × Thread)) (f : Thread → Bool) : Word := maskOf (ls.filter fun x => f x.2)

/-- Writes the elected lane in every lane, and the predicate that marks it (R191). -/
def State.electLane (s : State) (d : BitVec 7) (p : BitVec 3) (pick : List (Nat × Thread) → Nat) : State :=
  s.onLanes fun ls i t => .done ((t.setG d (BitVec.ofNat 32 (pick ls))).setP p (laneOf i == pick ls)).next

/-- The lowest lane, or 32 where there is none. -/
def lowestLane (ls : List (Nat × Thread)) : Nat :=
  match leader? ls with
  | some x => laneOf x.1
  | none => 32

def execElect (d : BitVec 7) (p : BitVec 3) (s : State) : Result := .next (s.electLane d p lowestLane)
def execElectS (d : BitVec 7) (p q : BitVec 3) (s : State) : Result :=
  .next (s.electLane d p fun ls => lowestLane (ls.filter fun x => x.2.p q))

/-- A thread is asleep. -/
def Thread.asleep (t : Thread) : Bool :=
  match t.status with
  | .sleeping _ => true
  | .ready | .waiting _ | .parked | .watching _ _ _ | .exited => false

/-- WAKEL (R192, R193): the lanes act one at a time. A thread that is woken becomes READY after its SLEEP. A lane that names one thread is
an event of its own, so that thread forms a bundle alone (DEDUCED, log 71). -/
def execWakel (d a : BitVec 7) (s : State) : Result :=
  .next (s.eachLane fun s i t =>
    match s.issuing? with
    | none => (s, none)
    | some T =>
      let k := s.issue.team
      let x := (t.g a).toNat
      if t.g a = 0xFFFFFFFF then
        let sleepers := (T.threads.zipIdx.filter fun y => y.1.asleep).map fun y => y.2
        ((s.releaseGroups k sleepers).setThread i
          (t.setG d (BitVec.ofNat 32 sleepers.length)).next, none)
      else
        match T.threads[x]? with
        | none => (s.setThread i (t.setG d 0xFFFFFFFF).next, none)
        | some u =>
          if u.status = .exited then (s.setThread i (t.setG d 0xFFFFFFFF).next, none)
          else if u.asleep then ((s.makeReady k [x]).setThread i (t.setG d 1).next, none)
          else
            let s := s.modThread k x fun u => { u with wake := true }
            (s.modThread k i fun t => (t.setG d 0).next, none))

/-- The lanes whose value equals this lane's (R195). -/
def execMatchW (d a : BitVec 7) (s : State) : Result :=
  .next (s.onLanes fun ls _ t => .done (t.setG d (maskWhere ls fun u => u.g a == t.g a)).next)
def execMatchX (d a : BitVec 7) (s : State) : Result :=
  .next (s.onLanes fun ls _ t => .done (t.setG d (maskWhere ls fun u => u.gx a == t.gx a)).next)
def execVoteAny (d a : BitVec 3) (s : State) : Result :=
  .next (s.onLanes fun ls _ t => .done (t.setP d (ls.any fun x => x.2.p a)).next)
def execVoteAll (d a : BitVec 3) (s : State) : Result :=
  .next (s.onLanes fun ls _ t => .done (t.setP d (ls.all fun x => x.2.p a)).next)
def execVoteBal (d : BitVec 7) (p : BitVec 3) (s : State) : Result :=
  .next (s.onLanes fun ls _ t => .done (t.setG d (maskWhere ls fun u => u.p p)).next)
def execActmask (d : BitVec 7) (s : State) : Result :=
  .next (s.onLanes fun ls _ t => .done (t.setG d (maskOf ls)).next)

/-- A shuffle (R196): the source lane of a lane, if it lies in 0 to 31; a lane whose source is absent keeps its own
value. -/
def State.shuffle (s : State) (d a b : BitVec 7) (source : Nat → Word → Option Nat) : State :=
  s.onLanes fun ls i t =>
    let v := match source (laneOf i) (t.g b) with
      | none => t.g a
      | some l => match ls.find? fun x => laneOf x.1 == l with
        | some x => x.2.g a
        | none => t.g a
    .done (t.setG d v).next

def execShflIdx (d a b : BitVec 7) (s : State) : Result := .next (s.shuffle d a b fun _ y => some (y.toNat % 32))
def execShflUp (d a b : BitVec 7) (s : State) : Result :=
  .next (s.shuffle d a b fun l y => if l < y.toNat then none else some (l - y.toNat))
def execShflDown (d a b : BitVec 7) (s : State) : Result :=
  .next (s.shuffle d a b fun l y => if 32 ≤ l + y.toNat then none else some (l + y.toNat))
def execShflXor (d a b : BitVec 7) (s : State) : Result :=
  .next (s.shuffle d a b fun l y => some (Nat.xor l (y.toNat % 32)))

end Sys2Proof.Machine
end

