-- ==== Sys2Proof/Machine/Pages.lean ====
section
/-! DEFINITION. The host's page and frame commands (R264 to R275): INVAL, RESIDE, MIGPUB, ASSIGN, SHARE, FREE, UNPOISON, and the
writes of FRM_TBL and PRQ_RIDX. -/

namespace Sys2Proof.Machine

/-! ## The result of a command (R267) -/

def State.pgDone (s : State) (x : Nat) (result : BitVec 3) : State :=
  s.modRegs fun g => { g with pgResult := result, pgCtx := BitVec.ofNat 12 x }

/-- The context of a command is in use. -/
def CState.inUse : CState → Bool
  | .bound | .runnable | .running | .preempted | .faulted | .fenced => true
  | .created | .destroyed => false

/-- A command on a context, with PG_ARG0 and PG_ARG1. While another is in progress the write is ignored (R267). -/
def State.pgCommand (s : State) (x : Nat) (f : State → Nat → Nat → State × BitVec 3) : State :=
  if s.pgPend.isSome then s
  else if (s.ctx x).state.inUse then
    let r := f s s.regs.pgArg0.toNat s.regs.pgArg1.toNat
    r.1.pgDone x r.2
  else s.pgDone x 2

/-! ## INVAL (R269) -/

/-- A length of 0 names the whole context. -/
def rangeOk (a n : Nat) : Bool :=
  a % 65536 == 0 && n % 65536 == 0 && canonical (BitVec.ofNat 64 a) && (n == 0 || canonicalRange a n)

/-- The bytes of a page that threads wait on: as it stands in the tables now (R348), or as it stood when a thread parked on it. -/
def State.pageSpan (s : State) (x p : Nat) : Nat :=
  (s.teamsOf x).foldl (fun m kt => kt.2.threads.foldl (fun m t => match tget? p t.misses with
    | some y => max m y.span
    | none => m) m) (s.spanOf x p)

/-- A page named by its base has a byte in the range of a command. -/
def State.inRange (s : State) (x a n p : Nat) : Bool := n == 0 || overlap p (s.pageSpan x p) a n

/-- The page requests of a context on a range retire. A request of kind 4 stands for good: the rule names RESIDE and INVAL of a page and
DESTROY of a context alone, so UNPOISON retires none and a block poisoned again is not announced again (DESIGN CHOICE, log 94). -/
def State.retireRequests (s : State) (x a n : Nat) : State :=
  let keep (r : PageReq) : Bool := !(r.ctx == x && r.kind != 4 && s.inRange x a n r.addr.toNat)
  { s with pageReqs := s.pageReqs.filter keep, prqList := s.prqList.filter keep, prqOwed := s.prqOwed.filter keep }

/-- Every request of a context that holds an address bounces; no line stays in its teams' stashes. -/
def Team.bounceAll (T : Team) (now : Nat) : Team := { T.bounceWhere (fun _ => true) now with lines := [] }

/-- What was stored through the translations of a range has performed on every die, they are gone, and what held one bounces. -/
def State.inval (s : State) (x a n : Nat) : State :=
  let s := { s with mem := s.mem.flushAll }
  if n = 0 then
    let s := s.dropContext x
    { s with teams := s.teams.map fun kt => if kt.2.ctx == x then (kt.1, kt.2.bounceAll s.clock) else kt }
  else s.removeRange x a n

/-- The requests that used a translation of the range and are accepted outside the package; and the stores that are still to be
acknowledged there (R207). -/
def State.invalAwaits (s : State) (x a n : Nat) : List Nat × List Nat :=
  let l := (s.ctx x).swaps
  ((s.teamsOf x).flatMap fun kt => (kt.2.reqs.filter fun r => r.stage.accepted && (n == 0 || r.touches l a n)).map fun r => r.id,
    (s.mem.flights.filter fun f => f.outside).map fun f => f.id)

/-- Nothing that the command waits for is left. -/
def State.pgOver (s : State) (p : PgPend) : Bool :=
  !(s.teams.any fun kt => kt.2.reqs.any fun r => r.stage.accepted && p.reqs.contains r.id) && !s.unacked p.stores

/-! ## RESIDE (R268, R270, R271) -/

/-- The accesses of a request: of STFL the flag's too before its data have performed, of REDN the control line's (R253, R397). -/
def Req.accesses (r : Req) : List (Nat × Need) :=
  match r.op with
  | .flagStore _ flag _ dataDone => if dataDone then [(r.va.toNat, .store)] else [(r.va.toNat, .store), (flag.toNat, .store)]
  | .reduce _ cl _ written => if written then [(r.va.toNat, .atomic)] else [(r.va.toNat, .store), (cl.toNat, .atomic)]
  | .load _ _ _ _ | .watch | .store _ _ _ | .atomic _ _ _ _ _ | .share _ | .publish _ _ _ => [(r.va.toNat, r.op.need)]

/-- The accesses that wait on a page of so many bytes in a thread, with their needs: its requests', those that the swap table leads to the
page (R348); its fetch, its PGREQ; where it waits for none of these, that of a TBAR instruction that issues again (R290). -/
def Team.waitsOn (T : Team) (l : List Swap) (i : Nat) (t : Thread) (p span : Nat) : List (Nat × Need) :=
  if !t.missing.contains p then []
  else
    let m : Miss := tget {} p t.misses
    let rs := ((T.reqsOf i).filter fun r => r.stage == .onPage p).flatMap fun r =>
      let here := r.accesses.filter fun w => overlap (swapVa l w.1) 1 p span
      if here.isEmpty then r.accesses else here
    let all := rs ++ (if m.fetch then [(t.pc.toNat, .fetch)] else []) ++ match m.load with
      | some a => [(a, Need.load)]
      | none => []
    if all.isEmpty then [(swapVa l p, .atomic)] else all

/-- All accesses of a context that wait on a page. -/
def State.waitersOf (s : State) (x p : Nat) : List (Nat × Need) :=
  let span := s.pageSpan x p
  (s.teamsOf x).flatMap fun kt => kt.2.threads.zipIdx.flatMap fun y => kt.2.waitsOn (s.ctx x).swaps y.2 y.1 p span

/-- Each access of a list is walked again: whether a translation now permits them all. -/
def State.servesAll (s : State) (x : Nat) : List (Nat × Need) → State × Bool
  | [] => (s, true)
  | w :: r =>
    let y := s.tableWalk x (swapVa (s.ctx x).swaps w.1)
    let z := y.1.servesAll x r
    (z.1, z.2 && match y.2 with
      | .leaf e => pteSt e.pte != 0 && w.2.allowed e.pte
      | .refused _ | .poisoned _ _ => false)

/-- The pages of a range on which threads of a context wait. -/
def State.missingIn (s : State) (x a n : Nat) : List Nat :=
  ((s.teamsOf x).foldl (fun acc kt => kt.2.threads.foldl (fun acc t => addNew acc t.missing) acc) []).filter fun p => s.inRange x a n p

/-- A request of a thread whose missing set is empty, parked on a page, moves on (R234). -/
def Req.unpark (r : Req) : Req :=
  match r.stage with
  | .onPage _ => { r with stage := .behind }
  | .backoff _ | .onPublish | .onWalk _ | .behind | .translated _ | .atCore _ | .walking _ _ _ | .queued _ _ _ _ | .atDoor _ _ _
  | .outside _ | .arrived _ _ _ | .settling _ => r

/-- Pages leave the missing sets of a team's threads; those whose set is empty wake (R243, R270). -/
def State.dropMissing (s : State) (k : Nat) (pages : List Nat) : State :=
  match s.team? k with
  | none => s
  | some T =>
    let rest (t : Thread) : List Nat := t.missing.filter fun p => !pages.contains p
    let woken := (T.threads.zipIdx.filter fun y => !y.1.missing.isEmpty && (rest y.1).isEmpty).map fun y => y.2
    let s := woken.foldl (fun s i => match T.threads[i]? with
      | some t => s.tapTeam T 3 (s.clock - t.parkedAt) 0 0 T.slot
      | none => s) s
    let s := s.modTeam k fun T =>
      { T with
        threads := T.threads.map fun t => { t with missing := rest t, misses := t.misses.filter fun y => !pages.contains y.1 }
        reqs := T.reqs.map fun r => if woken.contains r.tid then r.unpark else r }
    s.releaseGroups k (woken.filter fun i => match T.threads[i]? with
      | some t => t.status == .parked
      | none => false)

/-- A page that stays missing is announced again, with a new request for what waits on it: a store or its like, a fetch or a PGREQ;
its DENIED flag stands where an access that waits has found the page denied (R235, R271; DEDUCED, log 26). -/
def State.reannounce (s : State) (x p : Nat) (waits : List (Nat × Need)) (old : List PageReq) : State :=
  let denied := old.any fun r => r.ctx == x && r.kind != 4 && r.addr.toNat == p && r.denied
  let writes := waits.any fun w => w.2.writes
  let kind : BitVec 8 := if writes then 0 else if waits.any fun w => w.2 == .fetch then 3 else 1
  s.announceOrOwe { ctx := x, kind := kind, addr := BitVec.ofNat 64 p, write := writes, denied := denied, clock := s.clock }

/-- Pages leave every missing set of a context. -/
def State.dropPages (s : State) (x : Nat) (pages : List Nat) : State := (s.teamsOf x).foldl (fun s kt => s.dropMissing kt.1 pages) s

/-- The pages of a list that now serve everything that waits on them, each walked again. -/
def State.servedOf (s : State) (x : Nat) : List Nat → State × List Nat
  | [] => (s, [])
  | p :: r =>
    let y := s.servesAll x (s.waitersOf x p)
    let z := y.1.servedOf x r
    (z.1, if y.2 then p :: z.2 else z.2)

/-- A page that does not serve what waits on it stays in the sets and is announced again. -/
def State.keepMissing (s : State) (x p : Nat) (old : List PageReq) : State := s.reannounce x p (s.waitersOf x p) old

/-- RESIDE of a range, after its INVAL: pages that serve what waits leave every missing set, the others are announced again. -/
def State.reside (s : State) (x a n : Nat) : State :=
  let s1 := s.retireRequests x a n
  let pages := s1.missingIn x a n
  let y := s1.servedOf x pages
  (pages.filter fun p => !y.2.contains p).foldl (fun t p => t.keepMissing x p s.pageReqs) (y.1.dropPages x y.2)

/-- Teasel watches the control line of a region's ring (R363). -/
def State.armRing (s : State) (x : Nat) (r : BitVec 4) : State :=
  let line := (s.front? x ((s.ctx x).region r).ring.toNat false).map lineOf
  s.modCtx x fun C => C.modRegion r fun R => { R with ringLine := line }

/-- The rings whose control lines could not be read are watched as soon as a page command has made them readable; Teasel looks at them
then. -/
def State.rearmRings (s : State) (x : Nat) : State :=
  ((s.ctx x).regions.filter fun r => r.2.state != .undefined && r.2.ringLine.isNone).foldl (fun s r =>
    let q : BitVec 4 := BitVec.ofNat 4 r.1
    if (s.front? x r.2.ring.toNat false).isSome then (s.armRing x q).modCtx x fun C => C.modRegion q fun R => { R with kicked := true }
    else s) s

/-- An INVAL or a RESIDE has taken full effect. PG_STAT.RESULT and CTX change only then: while BUSY reads 1 they are those of the command
before (DESIGN CHOICE, log 95). -/
def State.pgFinish (s : State) (p : PgPend) : State :=
  let s := { s with pgPend := none }
  let s := s.tapIo 0 p.ctx 19 (p.a / 2 ^ 16) (p.n / 65536) (s.clock - p.since) 0
  ((if p.op = 2 then s.reside p.ctx p.a p.n else s.retireRequests p.ctx p.a p.n).reportOwed p.ctx).rearmRings p.ctx |>.pgDone p.ctx 0

/-- INVAL (OP 1) or RESIDE (OP 2) of a range begins; BUSY is 1 while it waits. -/
def State.pgBegin (s : State) (op x a n : Nat) : State :=
  let w := s.invalAwaits x a n
  let p : PgPend := { op := op, ctx := x, a := a, n := n, reqs := w.1, stores := w.2, since := s.clock }
  let s := s.inval x a n
  if s.pgOver p then s.pgFinish p else { s with pgPend := some p }

/-- INVAL and RESIDE: a new command, or the one in progress, which ends when nothing is left to wait for. -/
def State.pgRange (s : State) (op x : Nat) : State :=
  match s.pgPend with
  | some p => if p.op = op ∧ p.ctx = x ∧ s.pgOver p then s.pgFinish p else s
  | none =>
    let a := s.regs.pgArg0.toNat
    let n := s.regs.pgArg1.toNat
    if (s.ctx x).state.inUse && rangeOk a n then s.pgBegin op x a n else s.pgDone x 2

def State.pgInval (s : State) (x : Nat) : State := s.pgRange 1 x
def State.pgReside (s : State) (x : Nat) : State := s.pgRange 2 x

def execPgInval (x : BitVec 12) (s : State) : Result := .next (s.asHost fun s => s.pgInval x.toNat)
def execPgReside (x : BitVec 12) (s : State) : Result := .next (s.asHost fun s => s.pgReside x.toNat)

/-! ## MIGPUB (R274, R297) -/

/-- The physical address of the leaf entry of an address, where the walk ends in one. -/
def State.leafAddr? (s : State) (va : Nat) : List Level → Nat → Option Nat
  | [], _ => none
  | l :: r, table =>
    let ea := table + 8 * (va / 2 ^ l.shift % 2 ^ l.bits)
    let e : DWord := BitVec.ofNat 64 (ofBytes (s.homeRead ea 8))
    if pteLeaf e then some ea else s.leafAddr? va r (pteAddr e)

/-- Watches on lines of old frames move to the same lines of the new ones. -/
def State.moveWatches (s : State) (old new size : Nat) : State :=
  let hit (l : Nat) : Bool := decide (old ≤ l * 128) && decide (l * 128 < old + size)
  let newOf (l : Nat) : Nat := if hit l then l - old / 128 + new / 128 else l
  let moved := s.dies.flatMap fun d => d.2.watches.filter fun w => hit w.1
  let s := { s with
    teams := s.teams.map fun kt => (kt.1, { kt.2 with threads := kt.2.threads.map fun t =>
      match t.watch with
      | .armed l ok => { t with watch := .armed (newOf l) ok }
      | .idle | .triggered => t })
    queues := s.queues.map fun q => (q.1, { q.2 with watchLine := q.2.watchLine.map newOf })
    contexts := s.contexts.map fun c =>
      (c.1, { c.2 with regions := c.2.regions.map fun r => (r.1, { r.2 with ringLine := r.2.ringLine.map newOf }) })
    dies := s.dies.map fun d => (d.1, { d.2 with watches := d.2.watches.filter fun w => !hit w.1 }) }
  moved.foldl (fun s w => s.modDie (homeDie (newOf w.1 * 128)) fun D => { D with watches := D.watches ++ [(newOf w.1, w.2)] }) s

/-- The leaf with ST RESIDENT and a new address. -/
def residentPte (e : DWord) (pa : Nat) : DWord :=
  (e &&& 0x0FF00000000000FF#64) ||| 0x1000000000000000#64 ||| BitVec.ofNat 64 (pa / 256 * 256)

/-- The publish of a migrated page. -/
def State.migpub (s : State) (x : Nat) (e : TlbEntry) (ea va pa : Nat) : State :=
  let s := { s with mem := s.mem.flushAll }
  let s := s.report ea (toBytes 8 (residentPte e.pte pa).toNat)
  let s := (s.removeRange x va e.size).moveWatches e.pa pa e.size
  (((s.wakePublish x va e.size).reportOwed x).rearmRings x).tapIo 0 x 20 (va / 2 ^ 16) (pa / 2 ^ 16) 0 0

/-- Every frame of a range is ASSIGNED to the context. -/
def State.assignedTo (s : State) (x pa size : Nat) : Bool :=
  decide (pa + size ≤ 2 ^ 40) && (List.range (size / 65536)).all fun i => s.frame (pa / 65536 + i) == .assigned x

def State.pgMigpub (s : State) (x : Nat) : State :=
  s.pgCommand x fun s va pa =>
    if !canonical (BitVec.ofNat 64 va) then (s, 2)
    else
      let y := s.tableWalk x va
      match y.2, s.leafAddr? (va % 2 ^ 57) levels (s.ctx x).desc.ptroot.toNat with
      | .leaf e, some ea =>
        if pteSt e.pte ≠ 2 then (y.1, 1)
        else if va % e.size ≠ 0 ∨ pa % e.size ≠ 0 ∨ !s.assignedTo x pa e.size then (y.1, 2)
        else (y.1.migpub x e ea va pa, 0)
      | _, _ => (y.1, 1)

def execPgMigpub (x : BitVec 12) (s : State) : Result := .next (s.asHost fun s => s.pgMigpub x.toNat)

/-! ## ASSIGN, SHARE, FREE (R268, R273) -/

/-- The frames that PG_ARG0 and PG_ARG1 name: the first and their number, where they lie in HBM. -/
def framesNamed (a n : Nat) : Option (Nat × Nat) :=
  if a % 65536 = 0 ∧ 1 ≤ n ∧ a + n * 65536 ≤ 2 ^ 40 then some (a / 65536, n) else none

/-- Every frame of a range meets a test. -/
def State.allFrames (s : State) (f n : Nat) (p : FState → Bool) : Bool := (List.range n).all fun i => p (s.frame (f + i))

/-- Every frame of a range takes a state. -/
def State.setFrames (s : State) (f n : Nat) (x : FState) : State := (List.range n).foldl (fun s i => s.setFrame (f + i) x) s

/-- ASSIGN and SHARE: every frame must be FREE-CLEAN. -/
def State.takeFrames (s : State) (a n : Nat) (x : FState) : State × BitVec 3 :=
  match framesNamed a n with
  | none => (s, 2)
  | some (f, n) => if s.allFrames f n (fun y => y == .freeClean) then (s.setFrames f n x, 0) else (s, 1)

def State.pgAssign (s : State) (x : Nat) : State := s.pgCommand x fun s a n => s.takeFrames a n (.assigned x)

/-- A command that names no context: CTX must be 0. -/
def State.pgPlain (s : State) (x : Nat) (f : State → Nat → Nat → State × BitVec 3) : State :=
  if s.pgPend.isSome then s
  else if x ≠ 0 then s.pgDone x 3
  else
    let r := f s s.regs.pgArg0.toNat s.regs.pgArg1.toNat
    r.1.pgDone x r.2

def State.pgShare (s : State) (x : Nat) : State := s.pgPlain x fun s a n => s.takeFrames a n .shared

def execPgAssign (x : BitVec 12) (s : State) : Result := .next (s.asHost fun s => s.pgAssign x.toNat)
def execPgShare (x : BitVec 12) (s : State) : Result := .next (s.asHost fun s => s.pgShare x.toNat)

/-- The first address of a command's ranges that a translation maps into a physical range. -/
def State.takenIn (s : State) (m : Cmd) (T : Team) (pa len : Nat) : Option Nat :=
  ((piecesOf (m.sources ++ m.targets)).find? fun p =>
    match s.phys? T.core T.ctx p.1 with
    | some a => overlap a p.2 pa len
    | none => false).map fun p => p.1

/-- The copies under way that have taken an address in a physical range end with ACCESS: their bytes have not moved (R273). -/
def State.endCopies (s : State) (pa len : Nat) : State :=
  s.cmds.foldl (fun s m =>
    match s.team? m.team with
    | none => s
    | some T =>
      if !s.underWay m then s
      else
        match s.takenIn m T pa len with
        | some a => s.failCmd m 4 (BitVec.ofNat 64 a)
        | none => s) s

/-- Requests that hold an address in a physical range bounce, and stash lines of the range are dropped (R273). -/
def Team.bounceFrames (T : Team) (pa len now : Nat) : Team :=
  let T := T.bounceWhere (fun r => match r.stage.holds? with
    | some a => overlap a (max 1 r.op.width) pa len
    | none => false) now
  { T with lines := T.lines.filter fun l => !overlap (l.phys * 128) 128 pa len }

/-- FREE: translations of the frames go in every context, copies that used them end, every byte reads zero (R273, R297). -/
def State.freeFrames (s : State) (f n : Nat) : State :=
  let pa := f * 65536
  let len := n * 65536
  let s := { s with mem := s.mem.flushAll }
  let s := ((s.endCopies pa len).dropFrames pa len).dropLlc pa len
  let s := { s with teams := s.teams.map fun (kt : Nat × Team) => (kt.1, kt.2.bounceFrames pa len s.clock) }
  let s := s.setFrames f n .scrubbing
  let s := { s with
    mem := {
      cells := s.mem.cells.filter fun c => !(decide (pa ≤ c.1) && decide (c.1 < pa + len))
      flights := s.mem.flights.map fun (f : Flight) =>
        { f with data := f.data.mapIdx fun i b => if pa ≤ f.addr + i ∧ f.addr + i < pa + len then 0 else b } }
    badWords := s.badWords.filter fun w => !(decide (pa ≤ w * 8) && decide (w * 8 < pa + len))
    softWords := s.softWords.filter fun w => !(decide (pa ≤ w * 8) && decide (w * 8 < pa + len)) }
  let s := s.wakeLinesOf fun l => decide (pa ≤ l * 128) && decide (l * 128 < pa + len)
  s.setFrames f n .freeClean

def State.pgFree (s : State) (x : Nat) : State :=
  s.pgPlain x fun s a n =>
    match framesNamed a n with
    | none => (s, 2)
    | some (f, n) =>
      if s.allFrames f n (fun y => match y with
        | .assigned _ | .shared => true
        | .scrubbing | .freeClean => false) then (s.freeFrames f n, 0)
      else (s, 1)

def execPgFree (x : BitVec 12) (s : State) : Result := .next (s.asHost fun s => s.pgFree x.toNat)

/-! ## UNPOISON (R268, R275) -/

def State.pgUnpoison (s : State) (x : Nat) : State :=
  s.pgPlain x fun s a n =>
    if a % 4096 ≠ 0 ∨ n ≠ 0 ∨ !(inHbm a || inHost a) then (s, 2)
    else
      let b := a / 4096
      if inHbm a then ({ s with poison := s.poison.filter fun c => c != b }.reportFrame (b / 16), 0)
      else ({ s with hostPoison := s.hostPoison.filter fun c => c != b }, 0)

def execPgUnpoison (x : BitVec 12) (s : State) : Result := .next (s.asHost fun s => s.pgUnpoison x.toNat)

/-! ## FRM_TBL and PRQ_RIDX (R264, R271) -/

/-- A write of FRM_TBL makes the part write every entry at the new base; while a command is in progress it is ignored. -/
def State.writeFrmTbl (s : State) (v : DWord) : State :=
  if s.pgPend.isSome then s
  else
    let s := s.modRegs fun g => { g with frmTbl := v &&& ~~~0xFFFF#64, frmSet := true }
    (List.range (2 ^ 24)).foldl (fun s f => s.reportFrame f) s

def execFrmTblWrite (pf : Bool) (v : BitVec 64) (s : State) : Result := .next (s.asHost fun s => if pf then s.writeFrmTbl v else s)

/-- The host has consumed records: those that wait are written. -/
def State.writePrqRidx (s : State) (v : DWord) : State :=
  let s := (s.modRegs fun g => { g with prqRidx := v }).drainPageReqs s.prqList.length
  if s.prqOwed.isEmpty then s else s.payOwed

def execPrqRidxWrite (pf : Bool) (v : BitVec 64) (s : State) : Result := .next (s.asHost fun s => if pf then s.writePrqRidx v else s)

end Sys2Proof.Machine
end

