-- ==== Sys2Proof/Machine/HeapHost.lean ====
section
/-! DEFINITION. Managed regions: the host's commands (R355 to R357, R362, R365) and the Teasel relocation engines (R363, R364). -/

namespace Sys2Proof.Machine

/-! ## The descriptor (R356) -/

/-- A region changes, and its descriptor with it. -/
def State.setRegion (s : State) (x : Nat) (r : BitVec 4) (f : Region → Region) : State :=
  (s.modCtx x fun C => C.modRegion r f).reportRegion x r

/-- A descriptor's 64 bytes. -/
def regionOf (desc : DWord) (b : List Byte) : Region :=
  { state := .idle, desc := desc, base := field b 0 8, size := field b 8 8, ftab := BitVec.ofNat 64 (field b 16 8)
    ftlog2 := field b 24 1, hold := BitVec.ofNat 64 (field b 32 8), ring := BitVec.ofNat 64 (field b 40 8) }

/-- Every page of a virtual range is RESIDENT and takes writes. -/
def State.rangeWritable (s : State) (x a n : Nat) : Bool :=
  (pieces (n / 2 ^ 16 + 2) a n).all fun p => (s.front? x p.1 true).isSome

/-- The descriptor is valid in a context. -/
def State.regionOk (s : State) (x : Nat) (r : BitVec 4) (b : List Byte) (R : Region) : Bool :=
  R.base % 65536 == 0 && R.size % 65536 == 0 && decide (65536 ≤ R.size) && decide (R.base + R.size ≤ 2 ^ 52) &&
    R.ftab.toNat % 4096 == 0 && decide (4 ≤ R.ftlog2) && decide (R.ftlog2 ≤ 20) && R.hold.toNat % 2 == 0 &&
    R.ring.toNat % 4096 == 0 && field b 25 7 == 0 && field b 50 2 == 0 && field b 60 4 == 0 &&
    (s.front? x R.desc.toNat true).isSome && s.rangeWritable x R.ftab.toNat (16 * 2 ^ R.ftlog2) &&
    s.rangeWritable x R.hold.toNat (2 * (R.size / 65536)) &&
    !((s.ctx x).regions.any fun q => q.1 != r.toNat && q.2.state != .undefined && overlap q.2.base q.2.size R.base R.size)

/-! ## The host's commands (R355, R357) -/

def State.mhDone (s : State) (result : BitVec 3) : State := s.modRegs fun g => { g with mhResult := result, mhBusy := false }

/-- The context of a command may be commanded. -/
def CState.takesRegions : CState → Bool
  | .bound | .runnable | .running | .preempted => true
  | .created | .faulted | .fenced | .destroyed => false

/-- Nothing that a BEGIN or UNDEFINE waits for is left. -/
def State.mhOver (s : State) (p : MhPend) : Bool :=
  !(s.teams.any fun kt => kt.2.reqs.any fun r => r.stage.accepted && p.reqs.contains r.id) && !s.unacked p.stores

/-- A BEGIN or UNDEFINE has taken full effect. -/
def State.mhFinish (s : State) : State := { s with mhPend := none }.mhDone 0

/-- The one in progress ends when nothing is left to wait for. -/
def State.mhGoOn (s : State) (op x : Nat) (r : BitVec 4) : State :=
  match s.mhPend with
  | some p => if p.op = op ∧ p.ctx = x ∧ p.region = r ∧ s.mhOver p then s.mhFinish else s
  | none => s

/-- A command on a region, in the state that allows it. A write while BUSY is ignored. -/
def State.mhCommand (s : State) (x : Nat) (r : BitVec 4) (st : RState) (f : State → State) : State :=
  if s.regs.mhBusy then s
  else if r = 0 ∨ !(s.ctx x).state.takesRegions then s.mhDone 3
  else if ((s.ctx x).region r).state = st then f s
  else s.mhDone 1

def State.mhDefine (s : State) (x : Nat) (r : BitVec 4) : State :=
  s.mhCommand x r .undefined fun s =>
    let a := s.regs.mhArg
    match (if a.toNat % 64 = 0 then s.frontRead x a.toNat 64 else none) with
    | none => s.mhDone 2
    | some b =>
      let R := regionOf a b
      if s.regionOk x r b R then ((s.setRegion x r fun _ => R).armRing x r).mhDone 0 else s.mhDone 2

def execMhDefine (x : BitVec 12) (region : BitVec 4) (s : State) : Result := .next (s.asHost fun s => s.mhDefine x.toNat region)

/-- The cached translations of a region go, as INVAL removes them (R269). -/
def State.invalRegion (s : State) (x : Nat) (R : Region) : State :=
  { s with mem := s.mem.flushAll }.removeRange x R.base R.size

/-- RELOC (R405). -/
def State.tapReloc (s : State) (x : Nat) (r : BitVec 4) (ending : Nat) : State :=
  let R := (s.ctx x).region r
  s.tapIo 0 x 40 r.toNat R.colour.toNat ending R.moved.toNat

/-- The command completes, at once or, with BUSY 1 until then, when what it waits for is over: the requests that used a translation of
the region and are accepted outside the package, and the stores still to be acknowledged there (R269, R362). -/
def State.mhAwait (s : State) (op x : Nat) (r : BitVec 4) (w : List Nat × List Nat) : State :=
  let p : MhPend := { op := op, ctx := x, region := r, reqs := w.1, stores := w.2 }
  if s.mhOver p then s.mhFinish else { s with mhPend := some p }.modRegs fun g => { g with mhBusy := true }

/-- What a command on a region waits for. -/
def State.regionAwaits (s : State) (x : Nat) (R : Region) : List Nat × List Nat := s.invalAwaits x R.base R.size

/-- BEGIN: the next colour; every reference store checked before has performed (R362). -/
def State.mhBegin (s : State) (x : Nat) (r : BitVec 4) : State :=
  if s.mhPend.isSome then s.mhGoOn 2 x r
  else
    s.mhCommand x r .idle fun s =>
      let w := s.regionAwaits x ((s.ctx x).region r)
      let s := s.setRegion x r fun R =>
        { R with state := .relocating, colour := R.colour + 1, moved := 0, kept := 0, slots := [] }
      (((s.invalRegion x ((s.ctx x).region r)).armRing x r).tapReloc x r 0).mhAwait 2 x r w

def execMhBegin (x : BitVec 12) (region : BitVec 4) (s : State) : Result := .next (s.asHost fun s => s.mhBegin x.toNat region)

def State.mhUndefine (s : State) (x : Nat) (r : BitVec 4) : State :=
  if s.mhPend.isSome then s.mhGoOn 4 x r
  else
    s.mhCommand x r .idle fun s =>
      let w := s.regionAwaits x ((s.ctx x).region r)
      let s := s.setRegion x r fun R => { R with state := .undefined }
      let s := s.invalRegion x ((s.ctx x).region r)
      (s.modCtx x fun C => C.modRegion r fun R => R.undefined).mhAwait 4 x r w

def execMhUndefine (x : BitVec 12) (region : BitVec 4) (s : State) : Result := .next (s.asHost fun s => s.mhUndefine x.toNat region)

/-! ## The relocation ring (R363) -/

/-- A core of the die whose Teasel owns a region's ring: that of the ring's first line (R359). -/
def State.teaselCore (s : State) (x : Nat) (R : Region) : Nat :=
  match s.front? x R.ring.toNat false with
  | some pa => 32 * homeDie pa
  | none => 0

/-- post and take, where the control line can be read. -/
def State.ringIndices (s : State) (x : Nat) (R : Region) : Option (Nat × Nat) :=
  (s.frontRead x R.ring.toNat 8).map fun b => (field b 0 4, field b 4 4)

/-- Entries posted and not taken. -/
def ahead (pt : Nat × Nat) : Nat := (pt.1 + 2 ^ 32 - pt.2) % 2 ^ 32

/-- END completes (R365): the forwarding entries of the cycle are zero again and the region is IDLE. -/
def State.finishEnd (s : State) (x : Nat) (r : BitVec 4) : State :=
  let R := (s.ctx x).region r
  let core := s.teaselCore x R
  let s := R.slots.foldl (fun s a => s.poke core x a (toBytes 16 0) true) s
  let s := { s with mem := s.mem.flushAll }
  let s := s.setRegion x r fun R => { R with state := .idle, slots := [], ending := false, kicked := false }
  (s.tapReloc x r 1).mhDone 0

/-- END completes with RESULT 1 and changes nothing. -/
def State.refuseEnd (s : State) (x : Nat) (r : BitVec 4) : State :=
  (s.modCtx x fun C => C.modRegion r fun R => { R with ending := false, kicked := false }).mhDone 1

/-- END kicks Teasel and waits until it has finished every entry up to post. -/
def State.mhEnd (s : State) (x : Nat) (r : BitVec 4) : State :=
  s.mhCommand x r .relocating fun s =>
    let R := (s.ctx x).region r
    match s.ringIndices x R with
    | some pt =>
      if 64 < ahead pt then s.mhDone 1
      else if ahead pt = 0 ∧ R.job.isNone then s.finishEnd x r
      else
        (s.modCtx x fun C => C.modRegion r fun R => { R with ending := true, kicked := true }).modRegs fun g => { g with mhBusy := true }
    | none =>
      if R.job.isNone then s.finishEnd x r
      else (s.modCtx x fun C => C.modRegion r fun R => { R with ending := true }).modRegs fun g => { g with mhBusy := true }

def execMhEnd (x : BitVec 12) (region : BitVec 4) (s : State) : Result := .next (s.asHost fun s => s.mhEnd x.toNat region)

/-- The counts of an entry are written to its done words, a release at .sys, and to the descriptor. -/
def State.writeDone (s : State) (x : Nat) (r : BitVec 4) (done : DWord) (moved kept : Nat) : State :=
  let d := toBytes 4 moved ++ toBytes 4 kept
  let s := (pieces 2 done.toNat 8).foldl (fun s p => match s.front? x p.1 true with
    | some pa => s.report pa ((d.drop (p.1 - done.toNat)).take p.2)
    | none => s) s
  s.reportRegion x r

/-- The done words lie on a MIGRATING page: their write waits for its publish (R231, R363). -/
def State.doneWaits (s : State) (x : Nat) (R : Region) : Bool :=
  match R.job with
  | some j => decide (j.count ≤ j.next) && (pieces 2 j.done.toNat 8).any fun p => match s.leaf? 0 x p.1 with
    | some e => pteSt e.pte == 2
    | none => false
  | none => false

/-- An entry's fields are in range, its list can be read, and the region is RELOCATING. -/
def State.entryOk (s : State) (x : Nat) (R : Region) (b : List Byte) : Bool :=
  R.state == .relocating && field b 0 8 % 16 == 0 && decide (1 ≤ field b 8 4) && decide (field b 8 4 ≤ 65535) &&
    field b 12 4 == 0 && field b 16 8 % 8 == 0 && field b 24 8 == 0 &&
    (pieces (field b 8 4 / 4096 + 2) (field b 0 8) (16 * field b 8 4)).all fun p => (s.front? x p.1 false).isSome

/-- What Teasel makes of an entry that it has read. -/
def State.startReloc (s : State) (x : Nat) (r : BitVec 4) (b : List Byte) : State :=
  let done : DWord := BitVec.ofNat 64 (field b 16 8)
  let n := field b 8 4
  if s.entryOk x ((s.ctx x).region r) b then
    s.modCtx x fun C => C.modRegion r fun R =>
      { R with job := some { list := BitVec.ofNat 64 (field b 0 8), count := n, done := done } }
  else
    let kept := if 1 ≤ n ∧ n ≤ 65535 then n else 0
    s.modCtx x fun C => C.modRegion r fun R =>
      { R with kept := R.kept + BitVec.ofNat 32 kept, job := some { list := 0, count := n, done := done, next := n, kept := kept } }

/-- Teasel takes the next entry of a ring. The take is an acquire at .sys. An entry that cannot be read names no objects and no done
words (log 25). -/
def State.takeReloc (s : State) (x : Nat) (r : BitVec 4) (take : Nat) : State :=
  let R := (s.ctx x).region r
  let s := s.acquireSys
  let b := s.frontRead x (R.ring.toNat + 128 + 32 * (take % 64)) 32
  let s := s.poke (s.teaselCore x R) x (R.ring.toNat + 4) (toBytes 4 ((take + 1) % 2 ^ 32)) true
  match b with
  | some b => s.startReloc x r b
  | none => s.modCtx x fun C => C.modRegion r fun R => { R with kicked := true }

/-- What a kicked Teasel finds at the control line. -/
def State.lookAtRing (s : State) (x : Nat) (r : BitVec 4) : State :=
  let R := (s.ctx x).region r
  let idle (s : State) : State := s.modCtx x fun C => C.modRegion r fun R => { R with kicked := false }
  match s.ringIndices x R with
  | none => if R.ending then s.finishEnd x r else idle s
  | some pt =>
    if ahead pt = 0 then (if R.ending then s.finishEnd x r else idle s)
    else if 64 < ahead pt then (if R.ending then s.refuseEnd x r else idle s)
    else s.takeReloc x r pt.2

/-! ## One pair (R364) -/

/-- How an attempt on a pair ends. -/
inductive PairEnd where
  /-- copied, with the state word read and the slot claimed -/
  | claimed (w slot : Nat)
  | kept
  | again
  deriving DecidableEq, Repr

/-- [a, a + n) lies in the region's managed pages. -/
def Region.holds (R : Region) (a n : Nat) : Bool := decide (R.base ≤ a) && decide (a + n ≤ R.base + R.size)

/-- The page of an address is in a state, and carries the region's index. -/
def State.pageIs (s : State) (core x va : Nat) (r : BitVec 4) (st : Nat) : Bool :=
  match s.leaf? core x va with
  | some e => pteSt e.pte == st && pteMreg e.pte == r
  | none => false

/-- Bytes of a context's memory that are not ABSENT, else none. -/
def State.objBytes (s : State) (core x a n : Nat) : Option (List Byte) :=
  (pieces (n / 2 ^ 16 + 2) a n).foldl (fun acc p =>
    match acc, s.phys? core x p.1 with
    | some b, some pa => some (b ++ (s.gather (dieOf core) pa p.2).mem.read (accessDie (dieOf core) pa) pa p.2)
    | _, _ => none) (some [])

/-- Writes an object's bytes. -/
def State.putObj (s : State) (core x a : Nat) (b : List Byte) : State :=
  (pieces (b.length / 2 ^ 16 + 2) a b.length).foldl (fun s p => s.poke core x p.1 ((b.drop (p.1 - a)).take p.2) false) s

/-- The first free slot of the sixteen of an object. -/
def State.freeSlotOf (s : State) (core x : Nat) (R : Region) (a : Nat) : Option Nat :=
  ((List.range 16).find? fun i => ofBytes (s.peek core x (R.slotAddr a i) 8) == 0).map fun i => R.slotAddr a i

/-- The tests of a pair before its first attempt: of the regions, the pages and the overlap. -/
def State.pairFits (s : State) (core x : Nat) (r : BitVec 4) (A N : Nat) : Bool :=
  let R := (s.ctx x).region r
  let size := ofBytes (s.peek core x A 4)
  R.holds A 16 && R.holds N 16 && A % 16 == 0 && N % 16 == 0 && s.pageIs core x N r 1 && s.pageIs core x A r 3 && !overlap A size N size

/-- The first part of an attempt, up to its CAS: the header read, an acquire at .pkg, the copy, whose state word holds VERSION and no pin,
and the claim of a slot. -/
def State.movePair (s : State) (core x : Nat) (r : BitVec 4) (A N : Nat) : State × PairEnd :=
  let R := (s.ctx x).region r
  let s := s.acquireSys
  let size := ofBytes (s.peek core x A 4)
  let w := s.headerState core x A
  if size = 0 ∨ size % 16 ≠ 0 ∨ !R.holds A size ∨ !R.holds N size then (s, .kept)
  else if pinsOf w = 0xFFFF then (s, .kept)
  else if pinsOf w ≠ 0 then (s, .again)
  else
    match s.objBytes core x A size, s.objBytes core x N size, s.freeSlotOf core x R A with
    | some b, some _, some slot =>
      let s := s.putObj core x N b
      let s := s.poke core x slot (toBytes 8 (A + 1) ++ toBytes 8 N) false
      (s.modCtx x fun C => C.modRegion r fun R => { R with slots := addNew R.slots [slot] }, .claimed w slot)
    | _, _, _ => (s, .kept)

/-- The CAS of an attempt on the header's state word: where the word is still the one read, the object is FORWARDED, a publish step for it and
a release at .pkg; else the claimed slot is removed (R364). -/
def State.closePair (s : State) (core x : Nat) (r : BitVec 4) (A w slot : Nat) : State × Bool :=
  if s.headerState core x A = w then
    let s := s.setHeaderState core x A (w / 65536 * 65536 + 0xFFFF) true
    ({ s with mem := s.mem.flushAll }, true)
  else
    let s := s.poke core x slot (toBytes 16 0) false
    (s.modCtx x fun C => C.modRegion r fun R => { R with slots := R.slots.filter fun a => a != slot }, false)

/-- A pair is done: the counts, and after the last one the end of the entry. -/
def State.pairDone (s : State) (x : Nat) (r : BitVec 4) (j : Job) (size : Nat) (moved : Bool) : State :=
  let s := s.tap (dieOf (s.teaselCore x ((s.ctx x).region r)))
    { source := 39, ctx := x, core := noCore, clock := s.clock, p0 := if moved then 0 else 1, p1 := BitVec.ofNat 32 j.attempt
      p2 := BitVec.ofNat 32 size, p3 := r.setWidth 32 }
  let j := { j with next := j.next + 1, attempt := 1, moved := j.moved + (if moved then 1 else 0)
                    kept := j.kept + (if moved then 0 else 1), pair := none, claimed := none }
  s.modCtx x fun C => C.modRegion r fun R =>
    { R with moved := if moved then R.moved + 1 else R.moved, kept := if moved then R.kept else R.kept + 1, job := some j }

/-- An entry whose pairs are all done has its counts written, and Teasel looks at the ring again. -/
def State.endEntry (s : State) (x : Nat) (r : BitVec 4) (j : Job) : State :=
  (s.modCtx x fun C => C.modRegion r fun R => { R with job := none, kicked := true }).writeDone x r j.done j.moved j.kept

/-- The pair at hand changes. -/
def State.setJob (s : State) (x : Nat) (r : BitVec 4) (j : Job) : State :=
  s.modCtx x fun C => C.modRegion r fun R => { R with job := some j }

/-- After a failed attempt: the next one 256 cycles later, or, after the fifth, the object is kept. -/
def State.nextAttempt (s : State) (x : Nat) (r : BitVec 4) (j : Job) (size : Nat) : State :=
  if 5 ≤ j.attempt then s.pairDone x r j size false
  else s.setJob x r { j with attempt := j.attempt + 1, after := s.clock + 256, claimed := none }

/-- Teasel goes on with the pair at hand: it reads the pair, once, and tests it; it begins an attempt; or it ends one by its CAS. -/
def State.tryPair (s : State) (x : Nat) (r : BitVec 4) (j : Job) : State :=
  let core := s.teaselCore x ((s.ctx x).region r)
  if j.count ≤ j.next then s.endEntry x r j
  else
  match j.pair with
  | none =>
    match s.frontRead x (j.list.toNat + 16 * j.next) 16 with
    | none => s.pairDone x r j 0 false
    | some b =>
      let A := field b 0 8
      let N := field b 8 8
      if s.acquireSys.pairFits core x r A N then s.setJob x r { j with pair := some (A, N) }
      else s.pairDone x r j (ofBytes (s.peek core x A 4)) false
  | some (A, N) =>
    let size := ofBytes (s.peek core x A 4)
    match j.claimed with
    | some (w, slot) =>
      match s.closePair core x r A w slot with
      | (s, true) => s.pairDone x r j size true
      | (s, false) => s.nextAttempt x r j size
    | none =>
      match s.movePair core x r A N with
      | (s, .claimed w slot) => s.setJob x r { j with claimed := some (w, slot) }
      | (s, .kept) => s.pairDone x r j size false
      | (s, .again) => s.nextAttempt x r j size

/-- There is something for TEASEL_TAKE to do in a region: the ring, a pair, the first attempt on it, or the end of an attempt. -/
def Region.mayTake (R : Region) : Bool :=
  R.state != .undefined && match R.job with
    | none => R.kicked
    | some j => j.attempt == 1 || j.claimed.isSome || decide (j.count ≤ j.next)

/-- Teasel's next attempt on a pair may be made. -/
def Region.mayRetry (R : Region) (now : Nat) : Bool :=
  R.state != .undefined && match R.job with
    | none => false
    | some j => decide (1 < j.attempt) && j.claimed.isNone && decide (j.after ≤ now)

def execTeaselTake (x : BitVec 12) (region : BitVec 4) (s : State) : Result :=
  let R := (s.ctx x.toNat).region region
  .next (if R.mayTake && !s.doneWaits x.toNat R then
    match R.job with
    | none => s.lookAtRing x.toNat region
    | some j => s.tryPair x.toNat region j
  else s)

def execTeaselRetry (x : BitVec 12) (region : BitVec 4) (s : State) : Result :=
  let R := (s.ctx x.toNat).region region
  .next (if R.mayRetry s.clock then
    match R.job with
    | none => s
    | some j => s.tryPair x.toNat region j
  else s)

end Sys2Proof.Machine
end

