-- ==== Sys2Proof/Machine/HostPort.lean ====
section
/-! DEFINITION. The PCIe host port (R376 to R379, R443): device memory as the host reads and writes it, VF windows, completions of
what the part asked of host memory, and the trusted interfaces. -/

namespace Sys2Proof.Machine

/-! ## PF BAR 2 (R377) -/

/-- A byte range lies in device memory. -/
def inBar2 (pa n : Nat) : Bool := decide (1 ≤ n) && decide (pa + n ≤ 2 ^ 40)

/-- The frame is ASSIGNED to a context whose VF is in RUN. -/
def State.isPrivate (s : State) (f : Nat) : Bool :=
  match s.frame f with
  | .assigned x => x != 0 && s.vfs.any fun v => v.2.state == .run && v.2.ctx.toNat == x
  | .scrubbing | .freeClean | .shared => false

/-- Some frame of a range is closed to the physical function. -/
def State.closedTo (s : State) (pa n : Nat) : Bool :=
  (List.range ((pa + n - 1) / 65536 + 1 - pa / 65536)).any fun i => s.isPrivate (pa / 65536 + i)

/-- A host write is performed at its home as a release at .sys (R220); a line that misses in the LLC is allocated there (R444). -/
def execHostWrite (pa : Nat) (bytes : List (BitVec 8)) (s : State) : Result :=
  .next (s.asHost fun s => if inBar2 pa bytes.length && !s.closedTo pa bytes.length then
    (s.touchLines pa bytes.length).report pa bytes
  else s)

/-- A read at .sys: every store to the bytes has performed there first (R220). Uncorrectable data have no stated value, and mark their block
(R422). -/
def State.sysRead (s : State) (pa n : Nat) : State × List Byte :=
  let s := ((s.correct pa n).recallRange pa n).touchLines pa n
  let ids := (s.mem.flights.filter fun f => f.touches pa n).map fun f => f.id
  let s := { s with mem := s.mem.arriveAll ids }
  if s.anyBad pa n then
    let s := s.meetBads pa n
    ({ s with fresh := s.fresh + n }, freeBytes s.fresh n)
  else (s, s.mem.read (homeDie pa) pa n)

def execHostRead (pa len : Nat) (s : State) : Result :=
  .next (s.asHost fun s => if !inBar2 pa len || s.closedTo pa len then s.emit .unsupported
  else
    let r := s.sysRead pa len
    r.1.emit (.completion r.2))

/-- What an AtomicOp writes. -/
def pcieApply (op : PcieOp) (old v cmp : DWord) : Option DWord :=
  match op with
  | .fetchAdd => some (old + v)
  | .swap => some v
  | .cas => if old = cmp then some v else none

/-- The host's AtomicOp on device memory: 32 or 64 bits, aligned. -/
def execHostAtomicop (pa : Nat) (op : PcieOp) (wide : Bool) (v : BitVec 64) (cmp : BitVec 64) (s : State) : Result :=
  let n := if wide then 8 else 4
  let cut (x : DWord) : DWord := if wide then x else (x.setWidth 32).setWidth 64
  .next (s.asHost fun s => if !inBar2 pa n || pa % n != 0 || s.closedTo pa n then s.emit .unsupported
  else
    let r := ((s.recallRange pa n).touchLines pa n).rmw (homeDie pa) pa n true fun old => (pcieApply op (cut old) (cut v) (cut cmp)).map cut
    { r.1 with mem := r.1.mem.flushFrom (homeDie pa) }.emit (.completion (toBytes n r.2.toNat)))

/-! ## VF windows (R377, R378) -/

/-- The number of a virtual function. -/
def vfOk (n : Nat) : Bool := decide (1 ≤ n) && decide (n ≤ 63)

/-- How one page of a VF access ends. -/
inductive VfAt where
  | at_ (pa : Nat)
  | unsupported
  | wait
  deriving DecidableEq, Repr

def State.vfAt (s : State) (x va : Nat) (write : Bool) : VfAt :=
  match s.engineAt 0 x va write with
  | .err _ => .unsupported
  | .at_ pa =>
    match s.leaf? 0 x va with
    | some e => if (write && pteSt e.pte == 2) || s.unreachable pa then .wait else .at_ pa
    | none => .unsupported

/-- A store to the bytes has been sent outside the package and has not performed at .sys: a read at .sys comes after it (R207, R220). -/
def State.inTransit (s : State) (x va n : Nat) : Bool :=
  match s.engineAt 0 x va false with
  | .err _ => false
  | .at_ pa => s.mem.flights.any fun f => f.outside && f.touches pa n

/-- The pages of a VF access, in the bound context. -/
def State.vfPieces (s : State) (vf off n : Nat) : List (Nat × Nat) := pieces 3 ((s.vf vf).vbase.toNat * 65536 + off) n

/-- The access is inside the window and the VF is bound to a context in use. -/
def State.vfOpen (s : State) (vf off n : Nat) : Bool :=
  vfOk vf && decide (1 ≤ n) && decide (off + n ≤ 2 ^ 36) && (s.vf vf).ctx != 0 && (s.ctx (s.vf vf).ctx.toNat).state.inUse

/-- The access as a whole. -/
def State.vfState (s : State) (vf off n : Nat) (write : Bool) : VfAt :=
  if !s.vfOpen vf off n then .unsupported
  else
    let l := (s.vfPieces vf off n).map fun p => s.vfAt (s.vf vf).ctx.toNat p.1 write
    if l.any (fun a => a == .unsupported) then .unsupported else if l.any (fun a => a == .wait) || (!write && (s.vfPieces vf off n).any fun p => s.inTransit (s.vf vf).ctx.toNat p.1 p.2) then .wait
    else .at_ 0

/-- The bytes of a VF read. -/
def State.vfRead (s : State) (vf off n : Nat) : State × List Byte :=
  (s.vfPieces vf off n).foldl (fun acc p =>
    match acc.1.vfAt (acc.1.vf vf).ctx.toNat p.1 false with
    | .at_ pa =>
      let r := acc.1.sysRead pa p.2
      (r.1, acc.2 ++ r.2)
    | .unsupported | .wait => acc) (s, [])

/-- The bytes of a VF write. -/
def State.vfWrite (s : State) (vf off : Nat) (data : List Byte) : State :=
  let va := (s.vf vf).vbase.toNat * 65536 + off
  (s.vfPieces vf off data.length).foldl (fun s p =>
    match s.vfAt (s.vf vf).ctx.toNat p.1 true with
    | .at_ pa => ((s.touchLines pa p.2).reEncryptRange (s.vf vf).ctx.toNat pa p.2).report pa ((data.drop (p.1 - va)).take p.2)
    | .unsupported | .wait => s) s

/-- Two entries are of one access. -/
def VfWait.same (q w : VfWait) : Bool := { q with ask := none } == { w with ask := none }

/-- A write waits behind an earlier write of its function that waits: the writes of one function are an ordered stream (R220; DESIGN CHOICE,
log 101). -/
def State.vfBehind (s : State) (w : VfWait) : Bool :=
  w.write && (s.vfWaits.takeWhile fun q => !q.same w).any fun q => q.vf == w.vf && q.write

/-- The lines outside the package that a VF read has still to ask for (R385, R443). -/
def State.vfFar (s : State) (w : VfWait) : List Nat :=
  if w.write ∨ w.ask.isSome then [] else s.farLines 0 (s.vf w.vf).ctx.toNat (s.vfPieces w.vf w.off w.len)

/-- A VF read waits for what it has asked for; so does an access to a line that an atomic holds at the host (R443). -/
def State.vfStands (s : State) (w : VfWait) (n : Nat) : Bool :=
  (match w.ask with
    | some id => s.asking id
    | none => false) ||
  (s.vfPieces w.vf w.off n).any fun p => match s.engineAt 0 (s.vf w.vf).ctx.toNat p.1 w.write with
    | .at_ pa => s.lineBusy pa
    | .err _ => false

/-- An access takes its place among those that wait. -/
def State.vfWait (s : State) (w : VfWait) : State :=
  if s.vfWaits.any fun q => q.same w then { s with vfWaits := s.vfWaits.map fun q => if q.same w then w else q }
  else { s with vfWaits := s.vfWaits ++ [w] }

/-- An access through a VF: a load or store at .sys, or Unsupported Request. It waits where a page, a node or an earlier write keeps it
back, and for what it reads outside the package. -/
def execVfAccess (vf off : Nat) (write : Bool) (len : Nat) (bytes : List (BitVec 8)) (s : State) : Result :=
  let n := if write then bytes.length else len
  .next (s.asHost fun s =>
  let new : VfWait := { vf := vf, off := off, write := write, len := len, data := bytes }
  let w := (s.vfWaits.find? fun q => q.same new).getD new
  let rest : State := { s with vfWaits := s.vfWaits.filter fun q => !q.same w }
  match s.vfState vf off n write with
  | .unsupported => rest.emit .unsupported
  | .wait => s.vfWait w
  | .at_ _ =>
    if s.vfBehind w || s.vfStands w n then s.vfWait w
    else if s.vfFar w ≠ [] then
      match s.ask s.fresh 0 (s.vfFar w) with
      | some t => { t.vfWait { w with ask := some s.fresh } with fresh := s.fresh + 1 }
      | none => s.vfWait w
    else if write then rest.vfWrite vf off bytes
    else
      let r := rest.vfRead vf off n
      r.1.emit (.completion r.2))

/-- A write of VF_BIND, ignored unless the interface is CONFIG_UNLOCKED (R378). -/
def State.writeVfBind (s : State) (vf : Nat) (v : DWord) : State :=
  if vfOk vf && (s.vf vf).state == .unlocked then
    s.modVf vf fun V => { V with vbase := v.extractLsb' 16 48, ctx := v.extractLsb' 0 12 }
  else s

def execVfBindWrite (pf : Bool) (vf : Nat) (v : BitVec 64) (s : State) : Result :=
  .next (s.asHost fun s => if pf then s.writeVfBind vf v else s)

/-! ## Configuration requests (R1, R432) -/

/-- The aligned four bytes of configuration space. Revision ID is 0x10 at byte 8; the manual states no other byte. -/
def execHostConfigRequest (off : Nat) (s : State) : Result :=
  .next (if !s.regs.bootReady then s.emit .retryStatus
  else
    let b := freeBytes s.fresh 4
    { s with fresh := s.fresh + 4 }.emit (.completion (if off / 4 = 2 then 0x10#8 :: b.drop 1 else b)))

/-! ## Completions from host memory (R443) -/

/-- Bytes that a completion brings become what the home holds beneath the stores on their way; the words of a poisoned one are
uncorrectable (R275, R422). A changed line is noticed by the queues that watch it. -/
def State.fillLine (s : State) (line : Nat) (ok : Bool) (bytes : List Byte) : State :=
  let rest := s.badWords.filter fun w => w / 16 != line
  let s := { s with badWords := if ok then rest else rest ++ (List.range 16).map fun j => 16 * line + j }
  if bytes.isEmpty then s
  else
    let new := putBytes (line * 128) (bytes.take 128) s.mem.cells
    if new = s.mem.cells then s
    else
      { s with
        mem := { s.mem with cells := new }
        queues := s.queues.map fun q => if q.2.watchLine == some line then (q.1, { q.2 with fired := true }) else q }

/-- The context for which a request outside the package was made. -/
def State.ctxOf (s : State) (o : Outside) : Nat :=
  match s.team? o.team with
  | some T => T.ctx
  | none => match s.walks.find? fun w => w.id == o.req, s.rounds.find? fun r => r.id == o.req, s.vfWaits.find? fun q => q.ask == some o.req with
    | some w, _, _ => w.ctx
    | none, some r, _ => r.ctx
    | none, none, some q => (s.vf q.vf).ctx.toNat
    | none, none, none => 0

/-- The proxy holds a line that it has read, under a lease of the length in force (R18, R385, R443), decrypted with the key of the context
that asked for it (R386). -/
def State.holdProxy (s : State) (x line : Nat) : State :=
  { s with proxies := (s.proxies.filter fun p => p.line != line) ++
      [{ line := line, since := s.clock, lease := s.regs.leaseLen, key := if encrypted line then (s.ctx x).jobKey else none }] }

/-- The first request outside the package on a line. -/
def State.outsideOn (s : State) (line : Nat) : Option Outside := s.outside.find? fun o => o.line == line

/-- What is left of the requests of a killed team once one of them has performed: those that their homes have accepted (R181). -/
def State.dropKilled (s : State) (k : Nat) : State :=
  s.modTeam k fun T => if T.killed then { T with reqs := T.reqs.filter fun r => r.stage.accepted } else T

/-- A load or a store: what it asked outside, or waited for there, has changed nothing yet. -/
def AccOp.reissuable : AccOp → Bool
  | .load _ _ _ _ | .watch | .store _ _ _ => true
  | .atomic _ _ _ _ _ | .flagStore _ _ _ _ | .reduce _ _ _ _ | .share _ | .publish _ _ _ => false

/-- A request performs with what it asked outside, and its thread's requests move on. One through a reference whose object has moved
on since resolves again, where it has not changed anything yet (R360, R366). -/
def State.backAt (s : State) (k : Nat) (T : Team) (r : Req) (pa : Nat) : State :=
  match if r.op.reissuable && !T.killed then s.badChain? T r else none with
  | some b => (((s.meetBad b).performed k T r pa .bad).1.dropKilled k).pumpAll k r.tid
  | none =>
  if r.op.reissuable && !T.killed && (s.movedOn? T r).isSome then ((s.modTeam k fun U => U.setReq { r with stage := .behind }).retranslate k T { r with stage := .behind }).pumpAll k r.tid
  else
  let x := s.performRef k T r pa true
  let p := if T.killed && x.2 == .bad then .done (zeroValue r.op) false else x.2
  let y := x.1.performed k T r pa p
  (y.1.dropKilled k).pumpAll k r.tid

/-- What a request, a command or a fill asked outside has come back. -/
def State.comeBack (s : State) (o : Outside) : State :=
  let s := { s with
    outside := s.outside.filter fun p => p != o
    walks := s.walks.map fun (w : Walk) => if w.id = o.req then { w with fetched := addNew w.fetched [o.line] } else w
    cmds := s.cmds.map fun (m : Cmd) => if m.id = o.req then { m with fetched := addNew m.fetched [o.line] } else m
    cores := s.cores.map fun (c : Nat × Core) =>
      (c.1, { c.2 with fills := c.2.fills.map fun (f : Fill) => if f.id = o.req then { f with fetched := addNew f.fetched [o.line] } else f }) }
  match s.team? o.team with
  | none => s
  | some T =>
    match T.req? o.req with
    | none => s.engineBack o true
    | some r =>
      match r.stage with
      | .outside pa => s.backAt o.team T r pa
      | .backoff _ | .onPage _ | .onPublish | .onWalk _ | .behind | .translated _ | .atCore _ | .walking _ _ _ | .queued _ _ _ _
      | .atDoor _ _ _ | .arrived _ _ _ | .settling _ => s

/-- A request that the line's proxy can now serve, or that waited behind an atomic, performs; so does a command's or a fill's. -/
def State.tryBack (s : State) (o : Outside) : State :=
  match (s.team? o.team).bind fun T => (T.req? o.req).map fun r => (T, r) with
  | none => if o.team = 0 then s.comeBack o else { s with outside := s.outside.filter fun p => p != o }
  | some (T, r) =>
    match r.stage with
    | .outside pa =>
      let others := { s with outside := s.outside.filter fun p => p != o }
      if others.goesOutside T.ctx r.op pa || others.lineBusy pa then s
      else others.backAt o.team T r pa
    | .backoff _ | .onPage _ | .onPublish | .onWalk _ | .behind | .translated _ | .atCore _ | .walking _ _ _ | .queued _ _ _ _
    | .atDoor _ _ _ | .arrived _ _ _ | .settling _ => s

/-- The others on a line, after its first has come back. -/
def State.serveLine (s : State) (line : Nat) : State :=
  (s.outside.filter fun o => o.line == line).foldl (fun s o => s.tryBack o) s

/-- The first request of a line comes back with the line's bytes, good or poisoned. -/
def State.returnLine (s : State) (line : Nat) (ok : Bool) (bytes : List Byte) : State :=
  let s := s.fillLine line ok bytes
  match s.outsideOn line with
  | none => s
  | some o => ((s.comeBack o).holdProxy (s.ctxOf o) line).serveLine line

/-- HOST_COMPLETION: the bytes of the line, or none for a poisoned completion (log 23). -/
def execHostCompletion (line : Nat) (bytes : List (BitVec 8)) (s : State) : Result :=
  .next (if inHost (line * 128) then s.returnLine line (!bytes.isEmpty) bytes else s)

/-! ## The mailbox and the trusted interfaces (R379, R392) -/

/-- DOE Discovery: the answer names the protocol at an index and the next index, in the layout of the PCIe standard, which this manual does
not give (R10; log 11). -/
def execDoeDiscovery (_index : Nat) (s : State) : Result := .next s.emitMessage

/-- SPDM: the part answers. A secured message whose first two bytes name a context in use stands for the tenant's delivery of its
job session key, which its other bytes are: contexts that hold the same bytes are of one job (R386, R392). -/
def execSpdmRequest (secured : Bool) (msg : List (BitVec 8)) (s : State) : Result :=
  .next (let x := field msg 0 2
    let s := if secured && decide (x < 4096) && (s.ctx x).state.inUse then s.modCtx x fun C => { C with jobKey := some (msg.drop 2) } else s
    s.answerSpdm msg)

/-- IDE_KM programs the keys of one of the four selective streams, and binds the stream to a VF. -/
def execIdeKmMessage (stream vf : Nat) (s : State) : Result :=
  .next (if stream < 4 then
    let s := { s with ideStreams := addNew s.ideStreams [stream] }
    (if vfOk vf then s.modVf vf fun V => { V with stream := some stream } else s).emitMessage
  else s)

def execTdispLockInterface (vf : Nat) (s : State) : Result :=
  .next (if vfOk vf && (s.vf vf).state == .unlocked then s.modVf vf fun V => { V with state := .locked } else s)

/-- The VF has a stream with keys. -/
def State.hasStream (s : State) (vf : Nat) : Bool :=
  match (s.vf vf).stream with
  | some n => s.ideStreams.contains n
  | none => false

def execTdispStartInterface (vf : Nat) (s : State) : Result :=
  .next (if vfOk vf && (s.vf vf).state == .locked && s.hasStream vf then s.modVf vf fun V => { V with state := .run } else s)

/-- The context that a VF is bound to is fenced, unless it is DESTROYED (R78). A transfer of tile ownership under way ends first (R94). -/
def State.fenceVf (s : State) (vf : Nat) : State :=
  let x := (s.vf vf).ctx.toNat
  if x = 0 ∨ (s.ctx x).state = .destroyed then s else s.endTransfers.fenceContext x

def execTdispStopInterface (vf : Nat) (s : State) : Result :=
  .next (if vfOk vf && (s.vf vf).state != .unlocked then
    (s.fenceVf vf).modVf vf fun V => { V with state := .unlocked }
  else s)

def execIdeIntegrityFailure (vf : Nat) (s : State) : Result :=
  .next (if vfOk vf && (s.vf vf).stream.isSome && (s.vf vf).state != .error then
    (s.modVf vf fun V => { V with state := .error }).fenceVf vf
  else s)

end Sys2Proof.Machine
end

