-- ==== Sys2Proof/Machine/Integer.lean ====
section
/-! DEFINITION. The integer instructions, immediate forms and predicate logic (R133 to R144). -/

namespace Sys2Proof.Machine

/-! ## Shifts without masking of the amount (R135, R139) -/

def shlBy {w : Nat} (x : BitVec w) (n : Nat) : BitVec w := if w ≤ n then 0 else x <<< n
def shrBy {w : Nat} (x : BitVec w) (n : Nat) : BitVec w := if w ≤ n then 0 else x >>> n
def sarBy {w : Nat} (x : BitVec w) (n : Nat) : BitVec w := x.sshiftRight (if w ≤ n then w else n)
/-- A rotation by 0 to 31 (R143). -/
def rolBy (x : Word) (n : Nat) : Word := if n = 0 then x else shlBy x n ||| shrBy x (32 - n)

/-! ## Bit operations (R137, R138) -/

def clz32 (x : Word) : Word := if x = 0 then 32 else BitVec.ofNat 32 (31 - x.toNat.log2)
def popc32 (x : Word) : Word := BitVec.ofNat 32 ((List.range 32).filter fun k => x.getLsbD k).length
def brev32 (x : Word) : Word :=
  (List.range 32).foldl (fun r k => (r <<< 1) ||| (if x.getLsbD k then 1 else 0)) 0
/-- The low n bits of a value, extended with bit n - 1 or with zeros; n is 1 to 32. -/
def extBits (x : Word) (n : Nat) (signed : Bool) : Word :=
  if signed then (x <<< (32 - n)).sshiftRight (32 - n) else (x <<< (32 - n)) >>> (32 - n)
/-- Position of a bit field (R138). -/
def bfPos (y : Word) : Nat := y.toNat % 32
/-- Length of a bit field, clipped at bit 31. -/
def bfLen (y : Word) : Nat := min (y.toNat / 256 % 64) (32 - bfPos y)
def bitExtract (x y : Word) (signed : Bool) : Word :=
  if bfLen y = 0 then 0 else extBits (x >>> bfPos y) (bfLen y) signed
def bitInsert (z x y : Word) : Word :=
  if bfLen y = 0 then z
  else
    let mask : Word := BitVec.ofNat 32 (2 ^ bfLen y - 1) <<< bfPos y
    (z &&& ~~~mask) ||| ((x <<< bfPos y) &&& mask)

/-- The high word of an exact product. -/
def mulhiS (x y : Word) : Word := BitVec.ofInt 32 (x.toInt * y.toInt / 2 ^ 32)
def mulhiU (x y : Word) : Word := BitVec.ofNat 32 (x.toNat * y.toNat / 2 ^ 32)

/-- cmp(cond, x, y) (R141). -/
def condHolds {w : Nat} (c : Cond) (x y : BitVec w) : Bool :=
  match c with
  | .eq => x == y
  | .ne => x != y
  | .lt => x.slt y
  | .le => x.sle y
  | .gt => y.slt x
  | .ge => y.sle x
  | .ltu => x.ult y
  | .leu => x.ule y
  | .gtu => y.ult x
  | .geu => y.ule x

/-! ## Two-operand operations (R135) -/

def execAdd (d a b : BitVec 7) (s : State) : Result := .next (s.mapG d fun t => t.g a + t.g b)
def execSub (d a b : BitVec 7) (s : State) : Result := .next (s.mapG d fun t => t.g a - t.g b)
def execAnd (d a b : BitVec 7) (s : State) : Result := .next (s.mapG d fun t => t.g a &&& t.g b)
def execOr (d a b : BitVec 7) (s : State) : Result := .next (s.mapG d fun t => t.g a ||| t.g b)
def execXor (d a b : BitVec 7) (s : State) : Result := .next (s.mapG d fun t => t.g a ^^^ t.g b)
def execAndn (d a b : BitVec 7) (s : State) : Result := .next (s.mapG d fun t => t.g a &&& ~~~t.g b)
def execShl (d a b : BitVec 7) (s : State) : Result := .next (s.mapG d fun t => shlBy (t.g a) (t.g b).toNat)
def execShr (d a b : BitVec 7) (s : State) : Result := .next (s.mapG d fun t => shrBy (t.g a) (t.g b).toNat)
def execSar (d a b : BitVec 7) (s : State) : Result := .next (s.mapG d fun t => sarBy (t.g a) (t.g b).toNat)
def execMinS (d a b : BitVec 7) (s : State) : Result :=
  .next (s.mapG d fun t => if (t.g a).sle (t.g b) then t.g a else t.g b)
def execMinU (d a b : BitVec 7) (s : State) : Result :=
  .next (s.mapG d fun t => if (t.g a).ule (t.g b) then t.g a else t.g b)
def execMaxS (d a b : BitVec 7) (s : State) : Result :=
  .next (s.mapG d fun t => if (t.g b).sle (t.g a) then t.g a else t.g b)
def execMaxU (d a b : BitVec 7) (s : State) : Result :=
  .next (s.mapG d fun t => if (t.g b).ule (t.g a) then t.g a else t.g b)
def execMul (d a b : BitVec 7) (s : State) : Result := .next (s.mapG d fun t => t.g a * t.g b)
def execMulhiS (d a b : BitVec 7) (s : State) : Result := .next (s.mapG d fun t => mulhiS (t.g a) (t.g b))
def execMulhiU (d a b : BitVec 7) (s : State) : Result := .next (s.mapG d fun t => mulhiU (t.g a) (t.g b))

/-! ## Multiply-add, wide products, bit operations (R137, R138) -/

def execMad (d a b : BitVec 7) (s : State) : Result := .next (s.mapG d fun t => t.g a * t.g b + t.g d)
def execMulwS (d a b : BitVec 7) (s : State) : Result :=
  .next (s.mapGx d fun t => (t.g a).signExtend 64 * (t.g b).signExtend 64)
def execMulwU (d a b : BitVec 7) (s : State) : Result :=
  .next (s.mapGx d fun t => (t.g a).setWidth 64 * (t.g b).setWidth 64)
def execAbs (d a : BitVec 7) (s : State) : Result :=
  .next (s.mapG d fun t => if (t.g a).msb then -t.g a else t.g a)
def execClz (d a : BitVec 7) (s : State) : Result := .next (s.mapG d fun t => clz32 (t.g a))
def execPopc (d a : BitVec 7) (s : State) : Result := .next (s.mapG d fun t => popc32 (t.g a))
def execBrev (d a : BitVec 7) (s : State) : Result := .next (s.mapG d fun t => brev32 (t.g a))
def execBfeS (d a b : BitVec 7) (s : State) : Result := .next (s.mapG d fun t => bitExtract (t.g a) (t.g b) true)
def execBfeU (d a b : BitVec 7) (s : State) : Result := .next (s.mapG d fun t => bitExtract (t.g a) (t.g b) false)
def execBfi (d a b : BitVec 7) (s : State) : Result := .next (s.mapG d fun t => bitInsert (t.g d) (t.g a) (t.g b))
def execMov (d a : BitVec 7) (s : State) : Result := .next (s.mapG d fun t => t.g a)
/-- The field holds n - 1 (R136). -/
def execExtS (d a : BitVec 7) (n : BitVec 5) (s : State) : Result :=
  .next (s.mapG d fun t => extBits (t.g a) (n.toNat + 1) true)
def execExtU (d a : BitVec 7) (n : BitVec 5) (s : State) : Result :=
  .next (s.mapG d fun t => extBits (t.g a) (n.toNat + 1) false)

/-! ## Selection and comparison (R140, R141) -/

def execSel (d a b : BitVec 7) (inv : Bool) (p : BitVec 3) (s : State) : Result :=
  .next (s.mapG d fun t => if Bool.xor (t.p p) inv then t.g a else t.g b)
def execIset (c : Cond) (p : BitVec 3) (a b : BitVec 7) (s : State) : Result :=
  .next (s.mapP p fun t => condHolds c (t.g a) (t.g b))
def execIsetX (c : Cond) (p : BitVec 3) (a b : BitVec 7) (s : State) : Result :=
  .next (s.mapP p fun t => condHolds c (t.gx a) (t.gx b))
def execIseti (c : Cond) (p : BitVec 3) (a : BitVec 7) (imm : BitVec 11) (s : State) : Result :=
  .next (s.mapP p fun t => condHolds c (t.g a) (s.imm32 imm true))

/-! ## Immediate forms (R134, R142, R143) -/

def execAddi (d a : BitVec 7) (imm : BitVec 11) (s : State) : Result :=
  .next (s.mapG d fun t => t.g a + s.imm32 imm true)
def execAndi (d a : BitVec 7) (imm : BitVec 11) (s : State) : Result :=
  .next (s.mapG d fun t => t.g a &&& s.imm32 imm false)
def execOri (d a : BitVec 7) (imm : BitVec 11) (s : State) : Result :=
  .next (s.mapG d fun t => t.g a ||| s.imm32 imm false)
def execXori (d a : BitVec 7) (imm : BitVec 11) (s : State) : Result :=
  .next (s.mapG d fun t => t.g a ^^^ s.imm32 imm false)
def execShli (d a : BitVec 7) (n : BitVec 5) (s : State) : Result := .next (s.mapG d fun t => shlBy (t.g a) n.toNat)
def execShri (d a : BitVec 7) (n : BitVec 5) (s : State) : Result := .next (s.mapG d fun t => shrBy (t.g a) n.toNat)
def execSari (d a : BitVec 7) (n : BitVec 5) (s : State) : Result := .next (s.mapG d fun t => sarBy (t.g a) n.toNat)
def execRoli (d a : BitVec 7) (n : BitVec 5) (s : State) : Result := .next (s.mapG d fun t => rolBy (t.g a) n.toNat)
def execMuli (d a : BitVec 7) (imm : BitVec 11) (s : State) : Result :=
  .next (s.mapG d fun t => t.g a * s.imm32 imm true)
def execMovi (d : BitVec 7) (imm : BitVec 18) (s : State) : Result := .next (s.mapG d fun _ => s.imm32 imm true)

/-! ## 64-bit operations (R139, R142) -/

def execAddX (d a b : BitVec 7) (s : State) : Result := .next (s.mapGx d fun t => t.gx a + t.gx b)
def execSubX (d a b : BitVec 7) (s : State) : Result := .next (s.mapGx d fun t => t.gx a - t.gx b)
def execShlX (d a b : BitVec 7) (s : State) : Result := .next (s.mapGx d fun t => shlBy (t.gx a) (t.g b).toNat)
def execShrX (d a b : BitVec 7) (s : State) : Result := .next (s.mapGx d fun t => shrBy (t.gx a) (t.g b).toNat)
def execSarX (d a b : BitVec 7) (s : State) : Result := .next (s.mapGx d fun t => sarBy (t.gx a) (t.g b).toNat)
def execMovX (d a : BitVec 7) (s : State) : Result := .next (s.mapGx d fun t => t.gx a)
/-- The index is signed and scaled by 1, 2, 4, 8 or 16. -/
def execLea (d a b : BitVec 7) (k : BitVec 3) (s : State) : Result :=
  .next (s.mapGx d fun t => t.gx a + ((t.g b).signExtend 64 <<< k.toNat))
def execAddiX (d a : BitVec 7) (imm : BitVec 11) (s : State) : Result :=
  .next (s.mapGx d fun t => t.gx a + s.imm64 imm)

/-! ## Predicate logic (R144) -/

def execPand (d a b : BitVec 3) (s : State) : Result := .next (s.mapP d fun t => t.p a && t.p b)
def execPor (d a b : BitVec 3) (s : State) : Result := .next (s.mapP d fun t => t.p a || t.p b)
def execPxor (d a b : BitVec 3) (s : State) : Result := .next (s.mapP d fun t => Bool.xor (t.p a) (t.p b))
def execPandn (d a b : BitVec 3) (s : State) : Result := .next (s.mapP d fun t => t.p a && !t.p b)
def execPnot (d a : BitVec 3) (s : State) : Result := .next (s.mapP d fun t => !t.p a)
def execPmov (d a : BitVec 3) (s : State) : Result := .next (s.mapP d fun t => t.p a)
def execPget (d : BitVec 7) (s : State) : Result := .next (s.mapG d fun t => t.preds.setWidth 32)
/-- Writes the predicates that a mask names. -/
def Thread.setPreds (t : Thread) (v mask : BitVec 8) : Thread :=
  { t with
    preds := (t.preds &&& ~~~mask) ||| (v &&& mask)
    pendPreds := t.pendPreds.filter fun x => !mask.getLsbD x.1 || decide (8 ≤ x.1) }
def execPsetm (a b : BitVec 7) (s : State) : Result :=
  .next (s.onLanes fun _ _ t => .done (t.setPreds ((t.g a).setWidth 8) ((t.g b).setWidth 8)).next)

/-- NOP changes nothing but the program counter (R134). -/
def execNop (s : State) : Result := .next (s.onLanes fun _ _ t => .done t.next)

end Sys2Proof.Machine
end

