-- ==== Sys2Proof/Machine/Redn.lean ====
section
/-! DEFINITION. REDN and the end of a reduction round (R395 to R399). -/

namespace Sys2Proof.Machine

/-! ## REDN -/

/-- One lane's units as its checks leave them: the staging address, its physical address, the data, the control line. -/
structure Unit16 where
  tid : Nat
  ea : DWord
  pa : Nat
  data : List Byte
  cl : DWord
  deriving DecidableEq, Repr

/-- Lanes with equal control line and staging line form one write, at the place of their lowest lane. -/
def groupUnits : List Unit16 → List (List Unit16)
  | [] => []
  | u :: r =>
    let same := fun (v : Unit16) => v.cl == u.cl && lineOf v.pa == lineOf u.pa
    match (groupUnits r).partition fun g => g.any same with
    | (g, rest) => (u :: g.flatten) :: rest

/-- The access of a group of lanes: at the lowest of their staging units, all units in the order of the lanes, by one request number. -/
def rednAcc (id group : Nat) (g : List Unit16) (op : RedOp) : Acc :=
  let low : DWord := g.foldl (fun b v => if v.ea.toNat < b.toNat then v.ea else b) (match g with
    | u :: _ => u.ea
    | [] => 0)
  let cl : DWord := match g with
    | u :: _ => u.cl
    | [] => 0
  { va := low, op := .reduce (g.map fun v => (v.ea, v.data)) cl op false, counter := 2, group := group, id := id }

/-- The other lanes of a group share the request of the lowest one: they take no entry (R225). -/
def State.rednShare (s : State) (k id : Nat) (r : List Unit16) : State :=
  r.foldl (fun s v => s.enqueue k v.tid { va := v.ea, op := .share id, counter := 2 } (.settling [])) s

/-- The request of a group whose check has passed, or parks it. -/
def State.rednGroup (s : State) (k group : Nat) (g : List Unit16) (op : RedOp) (c : Check) : State :=
  match g, s.team? k with
  | u :: r, some T =>
    let id := s.fresh
    let s := ({ s with fresh := id + 1 }.startAccess k u.tid T (rednAcc id group g op) c).1
    (s.rednShare k id r).matesGo k (r.map fun v => (v.tid, v.ea)) c.page?
  | _, _ => s

/-- The request of a group whose check waits for a walk: every lane of the group waits for it (R240). -/
def State.rednWait (s : State) (k group : Nat) (g : List Unit16) (op : RedOp) (walks : List DWord) : State :=
  match g, s.team? k with
  | u :: r, some T =>
    let id := s.fresh
    let s := (s.uncheckedAccess k u.tid T (rednAcc id group g op) walks).rednShare k id r
    r.foldl (fun s v => s.modThread k v.tid fun t => t.wait (.check id)) s
  | _, _ => s

/-- What the checks of the groups of a REDN have made of them: the traps of its lanes, and the units whose writes may start. -/
structure RednAcc where
  s : State
  traps : List (Nat × BitVec 8 × DWord) := []
  ok : List Unit16 := []

/-- The checks of one group of lanes with one staging line and control line: one translation serves them all. -/
def RednAcc.group (x : RednAcc) (k group : Nat) (op : RedOp) (g : List Unit16) : RednAcc :=
  match x.s.team? k with
  | none => x
  | some T =>
    let a := rednAcc 0 group g op
    let walks := x.s.walksFor T a
    if x.s.mustWait T a walks then { x with s := x.s.rednWait k group g op walks }
    else
      match x.s.checkIssue T a with
      | (s, .ok pa false, _) => { x with s := s, ok := x.ok ++ g.map fun u => { u with pa := pa + (u.ea - a.va).toNat } }
      | (s, .trap c, v) => { x with s := s, traps := x.traps ++ g.map fun u => (u.tid, c, if v = a.va then u.ea else v) }
      | (s, c, _) => { x with s := s.rednGroup k group g op c }

/-- The lanes of a REDN (R397): a misaligned staging unit traps its lane; the others are checked by staging line and control line, in the
order of their lowest lanes; then the writes start, one for each physical line, and the traps are taken. -/
def State.rednLanes (s : State) (d a b : BitVec 7) (op : RedOp) : State :=
  let k := s.issue.team
  let group := s.fresh
  let all := s.lanes.map fun x => (⟨x.1, x.2.gx a, (x.2.gx a).toNat, toBytes 16 (x.2.gq d).toNat, x.2.gx b⟩ : Unit16)
  let bad := (all.filter fun u => u.ea.toNat % 16 != 0).map fun u => (u.tid, (0x05 : BitVec 8), u.ea)
  let r := (groupUnits (all.filter fun u => u.ea.toNat % 16 == 0)).foldl (fun (x : RednAcc) g => x.group k group op g) { s := s, traps := bad }
  let s1 := (groupUnits r.ok).foldl (fun s g => s.rednGroup k group g op (.ok (g.foldl (fun m u => min m u.pa) (2 ^ 52)) false)) r.s
  s.issue.tids.foldl (fun s i => match r.traps.find? fun x => x.1 == i with
    | some x => s.deliver k i x.2.1 x.2.2 0
    | none => s) s1

/-- The entries of a REDN: one for each staging line that its lanes write (R225). -/
def State.rednEntries (s : State) (a b : BitVec 7) : Nat :=
  (s.lanes.foldl (fun (acc : List (Nat × Nat)) x =>
    let key := ((x.2.gx b).toNat, lineOf (x.2.gx a).toNat)
    if acc.contains key then acc else acc ++ [key]) []).length

def execRedn (d a b : BitVec 7) (op : RedOp) (s : State) : Result :=
  let n := s.rednEntries a b
  .next (if !s.hasRoom n 0 1 then s.onLanes fun _ _ _ => .wait (.entry n 0 1) else s.rednLanes d a b op)

/-! ## The end of a round (R398, R399) -/

/-- The element operation of REDN (R396). -/
def redElement (op : RedOp) (x y : Word) : Word :=
  match op with
  | .fadd => (f32Add .rn x y).1
  | .add => x + y
  | .fmax => BitVec.ofNat 32 (fp32.extreme true x.toNat y.toNat).1
  | .fmin => BitVec.ofNat 32 (fp32.extreme false x.toNat y.toNat).1
  | .maxS => if x.sle y then y else x
  | .minS => if x.sle y then x else y

/-- A contributor that another part counted takes a free place among those before it (log 15). -/
def mixIn (seed : Nat) (order : List Nat) (c : Nat) : List Nat :=
  order.insertIdx ((Config.freeWord (seed + c)).toNat % (order.length + 1)) c

/-- The contributors of the element at byte e of a result of L bytes, in the order in which their COUNTs reached the node. -/
def countOrder (seed : Nat) (counts : List (Nat × Nat)) (N L e : Nat) : List Nat :=
  let here := counts.flatMap fun x =>
    (List.range N).filter fun c => decide (x.1 ≤ L * (1 + c) + e) && decide (L * (1 + c) + e < x.1 + x.2)
  let seen := here.foldl (fun acc c => addNew acc [c]) []
  ((List.range N).filter fun c => !seen.contains c).foldl (mixIn seed) seen

/-- The result of a round. -/
def State.reduceBytes (s : State) (S N L : Nat) (op : RedOp) (order : Option (List (Nat × Nat))) : List Byte :=
  (List.range (L / 4)).flatMap fun k =>
    let who := match order with
      | some l => countOrder (s.fresh + N * k) l N L (4 * k)
      | none => List.range N
    let x (c : Nat) : Word := BitVec.ofNat 32 (ofBytes (s.homeRead (S + L * (1 + c) + 4 * k) 4))
    match who with
    | [] => toBytes 4 0
    | c :: r => toBytes 4 (r.foldl (fun acc c => redElement op acc (x c)) (x c)).toNat

/-- A round completes (R395, R398), its staging areas having been read: with ERR only done rises; at the node where the pair is trusted and
REDPOL allows it, else on the endpoint path. For the control line at C the slot's base is S = C - 2^37: the result lies at S, the staging
area of contributor c at S + L * (1 + c); the control line holds N at +0, L at +4, the count at +8, the operation at +12, the flags ERR
and INNODE at +14 and done at +16. -/
def State.finishRound (s : State) (r : Round) : State :=
  let counts := tget [] r.cl s.counts
  let s := { s with rounds := s.rounds.filter fun q => q.id != r.id, counts := tdel r.cl s.counts
                    mem := s.mem.flushFrom (dieOf r.core) }
  let C := s.ctx r.ctx
  let S := r.cl - 2 ^ 37
  let rd (a w : Nat) : Nat := ofBytes (s.homeRead (r.cl + a) w)
  let N := rd 0 4
  let L := rd 4 4
  let flags := rd 14 2
  let done := rd 16 4
  let node := nodeOf r.cl
  let inNodePath := C.reducesAt node
  let bad := (List.range N).any fun c => (List.range (L / 16)).any fun j => (s.badBlock? (S + L * (1 + c) + 16 * j) 16).isSome
  let last (s : State) (f : Nat) : State := s.report (r.cl + 14) (toBytes 2 f ++ toBytes 4 (done + 1))
  let tap (s : State) (p : Nat) : State :=
    s.tap (dieOf r.core) { source := 35, ctx := r.ctx, core := r.core, clock := s.clock, p0 := BitVec.ofNat 32 p
                           p1 := BitVec.ofNat 32 node, p2 := BitVec.ofNat 32 L, p3 := BitVec.ofNat 32 (done + 1) }
  if flags % 2 = 1 ∨ bad then tap (last s (if flags % 2 = 1 then flags else flags + 1)) 2
  else
    let order := if inNodePath && C.desc.redpol == 0 then some counts else none
    let bytes := s.reduceBytes S N L r.op order
    let s := if order.isSome then { s with fresh := s.fresh + N * (L / 4) } else s
    let f := flags / 4 * 4 + (if inNodePath then 2 else 0)
    tap (last ((s.reEncryptRange r.ctx S L).report S bytes) f) (if inNodePath then 0 else 1)

/-- The lines of the staging areas of a round that are still to be read for it: at the node for a REDUCE, which reads its own lines; on the
endpoint path those that the proxy does not hold (R395, R398). A round with ERR reads none. -/
def State.roundLines (s : State) (r : Round) : List Nat :=
  let S := r.cl - 2 ^ 37
  let rd (a w : Nat) : Nat := ofBytes (s.homeRead (r.cl + a) w)
  let N := rd 0 4
  let L := rd 4 4
  if rd 14 2 % 2 = 1 ∨ L = 0 then []
  else
    ((List.range (lineOf (S + L * (1 + N) - 1) + 1 - lineOf (S + L))).map fun i => lineOf (S + L) + i).filter fun n =>
      (s.ctx r.ctx).reducesAt (nodeOf r.cl) || !s.proxied r.ctx n

/-- A round may go on: its node can be reached, the way to it is open, and what it has asked has come back. -/
def State.roundReady (s : State) (r : Round) : Bool :=
  !s.unreachable r.cl && !(s.outside.any fun o => o.req == r.id) && (r.asked || !s.egressBlocked r.cl)

/-- A round asks for its staging areas, and when they have come back it completes (R398). -/
def State.roundGoesOn (s : State) (r : Round) : State :=
  if r.asked ∨ (s.roundLines r).isEmpty then (s.finishRound r).settleTrust
  else
    { s with
      outside := s.outside ++ (s.roundLines r).map fun n => { line := n, req := r.id, team := 0 }
      rounds := s.rounds.map fun q => if q.id = r.id then { q with asked := true } else q }

def execReduceRoundComplete (id : Nat) (s : State) : Result :=
  .next (match s.rounds.find? fun r => r.id == id with
  | none => s
  | some r => if s.roundReady r then s.roundGoesOn r else s)

end Sys2Proof.Machine
end

