-- ==== Sys2Proof/Machine/Link.lean ====
section
/-! DEFINITION. Bamlos ports, memory nodes and attestation (R380 to R394). -/

namespace Sys2Proof.Machine

/-! ## Ports (R383, R393) -/

def PState.code : PState → Nat
  | .down => 0
  | .training => 1
  | .up => 2

def portOk (p : Nat) : Bool := decide (p < 24)

/-- A port takes a state, with its Yarrow event; lanes and node are recorded only while it is UP (R383). -/
def State.setPort (s : State) (p : Nat) (st : PState) (lanes : BitVec 8) (node : BitVec 12) : State :=
  (s.modPort p fun P => { P with state := st, lanes := lanes, node := node }).tapIo (if p < 12 then 0 else 1) 0 37 p st.code
    node.toNat 0

/-! ## The loss of a node (R389) -/

/-- The physical address of a request that has one. -/
def Req.pa? (r : Req) : Option Nat :=
  match r.stage with
  | .translated pa | .queued _ pa _ _ | .atDoor _ (some pa) _ | .outside pa | .arrived pa _ _ => some pa
  | .backoff _ | .onPage _ | .onPublish | .onWalk _ | .behind | .atCore _ | .walking _ _ _ | .atDoor _ none _ | .settling _ => none

/-- The addresses of a request that its accesses use: of STFL the flag's too, of REDN the control line's (R253, R397). -/
def Req.uses (r : Req) : List Nat :=
  match r.op with
  | .flagStore _ flag _ _ => [r.va.toNat, flag.toNat]
  | .reduce _ cl _ _ => [r.va.toNat, cl.toNat]
  | .load _ _ _ _ | .watch | .store _ _ _ | .atomic _ _ _ _ _ | .share _ | .publish _ _ _ => [r.va.toNat]

/-- A request is for a node: by its address, or for one that is parked, or still has to use another address, by its translation. -/
def State.reqTo (s : State) (T : Team) (r : Req) (n : Nat) : Bool :=
  (match r.pa? with
    | some pa => toNode n pa
    | none => false) ||
  r.uses.any fun va => match s.phys? T.core T.ctx va with
    | some pa => toNode n pa
    | none => false

/-- The data of an STFL or a REDN, whose flag or COUNT is still to come, are on their way to the node (R253, R397). -/
def State.dataTo (s : State) (r : Req) (n : Nat) : Bool :=
  match r.stage with
  | .settling l => s.mem.flights.any fun f => f.outside && toNode n f.addr && match r.op with
    | .flagStore _ _ _ _ => r.stored == some f.id
    | .reduce _ _ _ _ => l.contains f.id
    | .load _ _ _ _ | .watch | .store _ _ _ | .atomic _ _ _ _ _ | .share _ | .publish _ _ _ => false
  | .backoff _ | .onPage _ | .onPublish | .onWalk _ | .behind | .translated _ | .atCore _ | .walking _ _ _ | .queued _ _ _ _
  | .atDoor _ _ _ | .outside _ | .arrived _ _ _ => false

/-- The node's outstanding requests complete: a load with zero and residency 0, any other discarded (R389). -/
def State.endRequests (s : State) (n : Nat) (parked : Bool) : State :=
  s.teams.foldl (fun s kt =>
    (kt.2.reqs.filter fun r => r.sentTo n || s.dataTo r n || (parked && s.reqTo kt.2 r n)).foldl (fun s r =>
      { s.retire kt.1 r (zeroValue r.op) false with outside := s.outside.filter fun o => o.req != r.id }) s) s

/-- The blocks of a fill that a lost node is not to serve, false for those in it. -/
def State.blocksLeft (s : State) (c x n : Nat) (f : Fill) : List Bool :=
  (List.range (tileSize f.tile / 256)).map fun j =>
    f.blocks.getD j true && (match s.phys? c x (f.src.toNat + 256 * j) with
      | some pa => !toNode n pa
      | none => true)

/-- A fill that has asked a lost node reads its blocks there as a load would, as zero (R327, R389). -/
def State.cutFill (s : State) (c n : Nat) (f : Fill) : Fill :=
  let asks := s.outside.any fun o => o.req == f.id && toNode n (o.line * 128)
  match s.team? f.team, s.cmd? f.id with
  | some T, none => if asks then { f with blocks := s.blocksLeft c T.ctx n f } else f
  | _, _ => f

def State.cutFills (s : State) (n : Nat) : State :=
  { s with cores := s.cores.map fun (c : Nat × Core) => (c.1, { c.2 with fills := c.2.fills.map fun f => s.cutFill c.1 n f }) }

/-- A command reads or writes a node. -/
def State.cmdTo (s : State) (m : Cmd) (T : Team) (n : Nat) : Bool :=
  (piecesOf (m.sources ++ m.targets)).any fun p => match s.phys? T.core T.ctx p.1 with
    | some pa => toNode n pa
    | none => false

/-- The node has not acknowledged a write of a command. -/
def State.writesOwed (s : State) (m : Cmd) (n : Nat) : Bool :=
  s.mem.flights.any fun f => f.outside && m.stores.contains f.id && toNode n f.addr

/-- Commands that have not completed end with LINK_DOWN: those whose reads or writes the node has not answered, and at a FENCE every one that
is still to use the node. One that has published, or filled its tile, has done its work and only its completion is left (R346). -/
def State.endCommands (s : State) (n port : Nat) (parked : Bool) : State :=
  s.cmds.foldl (fun s m =>
    match s.team? m.team with
    | none => s
    | some T =>
      let asks := s.outside.any fun o => o.req == m.id && toNode n (o.line * 128)
      if m.err.isNone && !m.published && (if m.moved then s.writesOwed m n else s.cmdTo m T n && (parked || asks)) then
        s.failCmd m 8 (BitVec.ofNat 64 port)
      else s) s

/-- Every pair of a node that is trusted, or at a FENCE in any other state, is UP-UNTRUSTED (R393). -/
def State.untrustNode (s : State) (n : BitVec 12) (parked : Bool) : State :=
  s.contexts.foldl (fun s c =>
    match (s.ctx c.1).pair? n with
    | some p => if p.state = 2 ∨ (parked ∧ p.state ≠ 0) then s.setPair c.1 { p with state := 0, leaving := false } else s
    | none => s) s

/-- A write of a command to a node that is lost: it had reached the node or not, which is free (R346, log 14). -/
def State.reachedNode (s : State) (seed : Nat) (f : Flight) : Bool :=
  (decide (s.fresh ≤ f.id) || s.cmds.any fun m => m.err.isNone && m.stores.contains f.id) && (Config.freeWord seed).getLsbD 0

/-- The stores to a lost node that it has not acknowledged are discarded (R389), but for the units that commands have written. -/
def State.cutFlights (s t : State) (n : Nat) : State :=
  let kept := t.mem.flights.zipIdx.filter fun f =>
    !(f.1.outside && toNode n f.1.addr) || s.reachedNode (t.fresh + f.2) f.1
  let there := kept.map fun f => if toNode n f.1.addr then { f.1 with outside := false } else f.1
  { t with mem := { t.mem with flights := there }, fresh := t.fresh + t.mem.flights.length }

/-- The watches on a node's lines are served no more: their MWAITs end with code 2 (R388). -/
def State.loseWatches (s : State) (n : Nat) : State :=
  { s with teams := s.teams.map fun kt => (kt.1, { kt.2 with threads := kt.2.threads.map fun t => match t.watch with
      | .armed l _ => if toNode n (l * 128) then { t with watch := .armed l false } else t
      | .idle | .triggered => t }) }

/-- FENCE of a node (parked) or the loss of its last port: what is outstanding there ends (R383, R389, R393). -/
def State.loseNode (s : State) (n port : Nat) (parked : Bool) : State :=
  let s := s.loseWatches n
  let s := s.cutFlights (((s.endCommands n port parked).cutFills n).endRequests n parked) n
  let s := { s with
    outside := s.outside.filter fun o => !toNode n (o.line * 128)
    rounds := if parked then s.rounds.filter fun r => !toNode n r.cl
      else s.rounds.map fun (r : Round) => if toNode n r.cl then { r with asked := false } else r }
  (s.untrustNode (BitVec.ofNat 12 n) parked).checkAcks

/-- Nodes that a change of a port or of a route has cut off lose what is outstanding there (R382, R383, R389). -/
def State.settleReach (old s : State) (port : Nat) : State :=
  (s.nodes.filter fun n => old.reachable n.1 && !s.reachable n.1).foldl (fun s n => s.loseNode n.1 port false) s

/-- A CPYR through a port that leaves UP ends with LINK_DOWN (R347). -/
def State.endCpyr (s : State) (p : Nat) : State :=
  s.cmds.foldl (fun s m => if m.kind = 5 ∧ m.aux.toNat % 256 = p ∧ m.err.isNone then s.failCmd m 8 (BitVec.ofNat 64 p) else s) s

/-- A port leaves UP: messages go through another port of their node (R383), or complete as R389 states. -/
def State.portDown (s : State) (p : Nat) (st : PState) : State :=
  ((s.setPort p st 0 0).endCpyr p |> s.settleReach) p

def execPortSignalDetect (p : Nat) (s : State) : Result :=
  .next (if portOk p && (s.port p).state == .down then s.setPort p .training 0 0 else s)

/-- Lanes that have trained. -/
def laneCount (l : BitVec 8) : Nat := ((List.range 8).filter fun i => l.getLsbD i).length

def execPortTrainingResult (p : Nat) (lanes : BitVec 8) (node : BitVec 12) (s : State) : Result :=
  .next (if portOk p && (s.port p).state == .training then
    (if laneCount lanes = 8 ∨ laneCount lanes = 4 then s.setPort p .up lanes node else s.setPort p .down 0 0)
  else s)

def execPortLinkLoss (p : Nat) (s : State) : Result :=
  .next (if portOk p && (s.port p).state == .up then s.portDown p .down else s)

/-- Stop or go on one of the eight channels of a port (R381). -/
def execFlowControlStopGo (p vc : Nat) (go : Bool) (s : State) : Result :=
  .next (if portOk p && decide (vc < 8) then
    s.modPort p fun P => { P with stopped := if go then P.stopped.filter fun c => c != vc else addNew P.stopped [vc] }
  else s)

/-! ## Messages from a node (R386, R388, R392) -/

/-- The oldest store on its way to a node line is acknowledged (R385); grids whose completion followed it are looked at again (R102). -/
def State.acknowledge (s : State) (f : Flight) : State :=
  State.checkAcks { s with mem := Mem.settled { s.mem with flights := s.mem.flights.map fun g =>
      if g.id = f.id ∧ g.addr = f.addr then { g with outside := false } else g } }

/-- A staging line of a reduction that is read for it fails its tag: the reduction meets bad data there (R386, R398). -/
def State.tagFails (s : State) (line : Nat) : State :=
  if s.rounds.any fun r => nodeOf r.cl == nodeOf (line * 128) then
    { s with badWords := addNew s.badWords ((List.range 16).map fun j => 16 * line + j) }
  else s

/-- A read of a line whose tag fails: NODE_TAG; a load has value zero and residency 0, a command ends with SRC_POISON, a reduction meets bad
data (R386). -/
def State.tagFailure (s : State) (o : Outside) (line : Nat) : State :=
  let s := { s with outside := s.outside.filter fun p => p != o }
  match s.team? o.team with
  | none => if s.rounds.any fun r => r.id == o.req then s.tagFails line else s
  | some T =>
    let s := s.tap (homeDie (line * 128))
      { source := 36, ctx := T.ctx, core := T.core, clock := s.clock, p0 := BitVec.ofNat 32 (nodeOf (line * 128))
        p1 := BitVec.ofNat 32 (line * 128 % 2 ^ 38 / 64) }
    match T.req? o.req with
    | none => s.engineBack o false
    | some r => (s.retire o.team r (zeroValue r.op) false).pumpAll o.team r.tid

/-- What the first request on a line asked comes back, with a good tag or not; a line that none asked for shows what the node now holds. -/
def State.nodeData (s : State) (line : Nat) (tagOk : Bool) (bytes : List Byte) : State :=
  match s.outsideOn line with
  | some o => if !tagOk && encrypted line then s.tagFailure o line else s.returnLine line true bytes
  | none => if !tagOk && encrypted line then s.tagFails line else s.fillLine line true bytes

/-- A response: without data the acknowledgement of the oldest store on the line; else what the first request on it asked. Pairs that
waited for it lose their trust. -/
def execBamlosResponse (line : Nat) (tagOk : Bool) (bytes : List (BitVec 8)) (s : State) : Result :=
  .next (State.settleTrust (if !inNode (line * 128) || !s.reachable (nodeOf (line * 128)) then s
  else
    match s.mem.flights.find? fun f => f.outside && lineOf f.addr == line with
    | some f =>
      if bytes.isEmpty then s.acknowledge f else s.nodeData line tagOk bytes
    | none => s.nodeData line tagOk bytes))

/-- TRIGGER: the watches registered on a node line trigger (R388). -/
def execNodeTrigger (line : Nat) (s : State) : Result :=
  .next (if inNode (line * 128) && (s.node (nodeOf (line * 128))).watches.contains line then s.wakeLine line else s)

/-- An MGMT message carries the next step of an attestation, which the security processor answers (R392). -/
def execBamlosMgmt (x node : BitVec 12) (_msg : List (BitVec 8)) (s : State) : Result :=
  .next (match (s.ctx x.toNat).pair? node with
  | some p => if p.state = 1 ∧ s.reachable node.toNat then s.emitMessage else s
  | none => s)

/-! ## NODE_CMD (R391 to R394) -/

def State.nodeDone (s : State) (x : BitVec 12) (result : BitVec 3) : State :=
  { s.modRegs fun g => { g with nodeResult := result, nodeCtx := x, nodeBusy := false } with nodePend := none }

/-- A command, ignored while another is BUSY; it waits for the atomics and the REDUCEs that its node has been sent (R394). -/
def State.nodeCommand (s : State) (op : Nat) (x node : BitVec 12) (f : State → State) : State :=
  let me : NodePend := { op := op, ctx := x, node := node }
  if s.regs.nodeBusy ∧ s.nodePend ≠ some me then s
  else if (op = 2 ∨ op = 3) ∧ s.reachable node.toNat ∧ s.atomicsAt x.toNat node.toNat then
    { s.modRegs fun g => { g with nodeBusy := true, nodeCtx := x } with nodePend := some me }
  else f s

/-- The request of ATTEST at NODE_ARG: the reference digest and the port. -/
def State.attestArg (s : State) : Option (List Byte × Nat) :=
  let a := s.regs.nodeArg.toNat
  let b := s.physRead a 64
  let port := field b 32 1
  if s.rangeReserved a 64 ∧ (port < 24 ∨ port = 255) ∧ field b 33 31 = 0 then some (b.take 32, port) else none

/-- ATTEST (R392, R393). -/
def State.nodeAttest (s : State) (x node : BitVec 12) : State :=
  s.nodeCommand 1 x node fun s =>
    let C := s.ctx x.toNat
    let old := C.pair? node
    if x = 0 ∨ !C.state.inUse then s.nodeDone x 3
    else
      match s.attestArg with
      | none => s.nodeDone x 2
      | some (ref, port) =>
        let state := match old with
          | some p => p.state
          | none => 0
        if state ≠ 0 ∨ (s.node node.toNat).fenced then s.nodeDone x 1
        else if !s.reachable node.toNat ∨ (port ≠ 255 ∧ (s.port port).state ≠ .up) then s.nodeDone x 4
        else if old.isNone ∧ 64 ≤ C.pairs.length then s.nodeDone x 7
        else
          let p : Pair := match old with
            | some p => p
            | none => { node := node, entry := C.pairs.length }
          (((s.setPair x.toNat { p with state := 1, ref := ref }).modRegs fun g => { g with nodeBusy := true, nodeCtx := x }).emitMessage)

def execNodeAttest (x node : BitVec 12) (s : State) : Result := .next (s.asHost fun s => s.nodeAttest x node)

/-- How an attestation ends (R392): a measured digest that is not the reference one fails with RESULT 6; so does, with a RESULT that the rule
does not give, the delivery of a key that the context does not hold (DESIGN CHOICE, log 103). -/
def State.attestEnd (s : State) (x : Nat) (p : Pair) (result : BitVec 3) (digest : List Byte) : BitVec 3 :=
  if result ≠ 0 then result
  else if digest ≠ p.ref then 6
  else if (s.ctx x).jobKey.isNone then
    let r : BitVec 3 := (Config.freeWord s.fresh).setWidth 3
    if r = 0 then 1 else r
  else 0

/-- The end of an attestation (R392): 0 succeeds, any other RESULT fails. -/
def execAttestResult (x node : BitVec 12) (result : BitVec 3) (digest : List (BitVec 8)) (s : State) : Result :=
  .next (match (s.ctx x.toNat).pair? node with
  | none => if s.regs.nodeBusy ∧ s.regs.nodeCtx = x ∧ s.nodePend.isNone then s.nodeDone x result else s
  | some p =>
    if p.state ≠ 1 then s
    else
      let result := s.attestEnd x.toNat p result digest
      let p := { p with digest := if digest.isEmpty then p.digest else digest }
      let p := if result = 0 then { p with state := 2, epoch := p.epoch + 1 } else { p with state := 0 }
      (s.setPair x.toNat p).nodeDone x result)

/-- REVOKE: the pair is UP-UNTRUSTED, and the node erases the key if it can be reached. -/
def State.nodeRevoke (s : State) (x node : BitVec 12) : State :=
  s.nodeCommand 2 x node fun s =>
    if x = 0 ∨ !(s.ctx x.toNat).state.inUse then s.nodeDone x 3
    else
      match (s.ctx x.toNat).pair? node with
      | some p =>
        if p.state = 2 then (s.untrust x.toNat node).nodeDone x 0 else s.nodeDone x 1
      | none => s.nodeDone x 1

def execNodeRevoke (x node : BitVec 12) (s : State) : Result := .next (s.asHost fun s => s.nodeRevoke x node)

/-- FENCE of a node (R389, R393). -/
def State.nodeFence (s : State) (x node : BitVec 12) : State :=
  s.nodeCommand 3 x node fun s =>
    let n := node.toNat
    if x ≠ 0 then s.nodeDone x 3
    else if (s.node n).fenced then s.nodeDone x 1
    else
      let s := if s.reachable n then s.emitMessage else s
      let s := s.loseNode n (s.node n).esc.toNat true
      (s.modNode n fun N => { N with fenced := true, watches := [] }).nodeDone x 0

def execNodeFence (x node : BitVec 12) (s : State) : Result := .next (s.asHost fun s => s.nodeFence x node)

def State.nodeUnfence (s : State) (x node : BitVec 12) : State :=
  s.nodeCommand 4 x node fun s =>
    if x ≠ 0 then s.nodeDone x 3
    else if (s.node node.toNat).fenced then
      (s.modNode node.toNat fun N => { N with fenced := false }).nodeDone x 0
    else s.nodeDone x 1

def execNodeUnfence (x node : BitVec 12) (s : State) : Result := .next (s.asHost fun s => s.nodeUnfence x node)

/-- RETRAIN of the port NODE[4:0]. -/
def State.nodeRetrain (s : State) (x node : BitVec 12) : State :=
  s.nodeCommand 5 x node fun s =>
    let p := node.toNat % 32
    if x ≠ 0 then s.nodeDone x 3
    else if !portOk p then s.nodeDone x 2
    else
      match (s.port p).state with
      | .down => (s.setPort p .training 0 0).nodeDone x 0
      | .up => (s.portDown p .training).nodeDone x 0
      | .training => s.nodeDone x 1

def execNodeRetrain (x node : BitVec 12) (s : State) : Result := .next (s.asHost fun s => s.nodeRetrain x node)

end Sys2Proof.Machine
end

