-- ==== Sys2Proof/Machine/Queue.lean ====
section
/-! DEFINITION. Queues: the host's commands (R97 to R99, R103), the records (R100 to R102), faults (R104), and the turn of the
launch front end (R105). -/

namespace Sys2Proof.Machine

/-! ## The host's commands (R97, R103) -/

/-- Q_STAT after a command on a slot. -/
def State.qDone (s : State) (q : Nat) (result : BitVec 3) : State :=
  let Q := s.queue q
  s.modRegs fun g => { g with qResult := result, qState := BitVec.ofNat 4 Q.state.code
                              qFcode := if Q.state = .faulted then Q.fcode else 0, qSlot := BitVec.ofNat 8 q }

/-- A command on a slot, with the states that allow it. -/
def State.qCommand (s : State) (q : Nat) (ok : QState → Bool) (f : State → State × BitVec 3) : State :=
  if ok (s.queue q).state then
    let r := f s
    r.1.qDone q r.2
  else s.qDone q 1

/-- A queue descriptor's 64 bytes (R98). -/
def queueDesc (b : List Byte) : Queue :=
  { ctx := field b 0 2, prio := field b 2 1, maxinfl := field b 3 1, size := field b 4 4
    base := BitVec.ofNat 64 (field b 8 8), widxA := BitVec.ofNat 64 (field b 16 8), ridxA := BitVec.ofNat 64 (field b 24 8)
    vector := BitVec.ofNat 16 (field b 32 2) }

/-- The descriptor's fields are in range (R98). -/
def State.queueOk (s : State) (b : List Byte) (Q : Queue) : Bool :=
  let c := (s.ctx Q.ctx).state
  decide (1 ≤ Q.ctx) && decide (Q.ctx ≤ 4095) && c != .created && c != .fenced && c != .destroyed && decide (Q.prio ≤ 3) &&
    decide (1 ≤ Q.maxinfl) && decide (Q.maxinfl ≤ 64) && (List.range 13).any (fun e => Q.size == 2 ^ (e + 4)) &&
    Q.base.toNat % 4096 == 0 && Q.widxA.toNat % 128 == 0 && Q.ridxA.toNat % 8 == 0 && field b 34 30 == 0

/-- The part writes the read index of a queue, a release at .sys (R102); none where it cannot be written. -/
def State.writeRidx (s : State) (Q : Queue) (n : Nat) : Option State :=
  (s.front? Q.ctx Q.ridxA.toNat true).map fun pa => s.report pa (toBytes 8 (n % 2 ^ 64))

def State.qBind (s : State) (q : Nat) : State :=
  s.qCommand q (fun c => c == .unbound || c == .destroyed) fun s =>
    let b := s.physRead (s.regs.qDesc.toNat / 64 * 64) 64
    let Q := queueDesc b
    if !s.queueOk b Q || !s.residentPage Q.ctx Q.widxA.toNat then (s, 2)
    else
      match s.frontRead Q.ctx Q.widxA.toNat 8 with
      | none => (s, 2)
      | some w =>
        match s.writeRidx Q (ofBytes w) with
        | none => (s, 2)
        | some s =>
          (({ s with queues := tput q { Q with ridx := ofBytes w, widx := ofBytes w } s.queues }).setQueue q .bound 0, 0)

def execQBind (slot : BitVec 8) (s : State) : Result := .next (s.asHost fun s => s.qBind slot.toNat)

/-- The front end claims an entry of the watch tables, with the event of one that is evicted or refused (R298, R405). -/
def State.queueWatch (s : State) (x pa : Nat) : State :=
  match s.claimWatch x pa with
  | (s, none) => s
  | (s, some e) =>
    s.tap (homeDie pa) { source := 29, ctx := x, core := noCore, clock := s.clock, p0 := BitVec.ofNat 32 e, p1 := BitVec.ofNat 32 (sliceOf pa) }

/-- The front end watches the line of a word for a queue (R103), with an entry of the watch tables (R298). No stash holds the line
owned (R296). -/
def State.watchFor (s : State) (q va : Nat) : State :=
  let Q := s.queue q
  match s.front? Q.ctx va false with
  | none => s.modQueue q fun Q => { Q with watchLine := none, fired := true }
  | some pa =>
    let s := (if inHbm pa then s.queueWatch Q.ctx pa else s).recall (lineOf pa) none false
    s.modQueue q fun Q => { Q with watchLine := some (lineOf pa), fired := false }

/-- The front end watches the write index of a queue. -/
def State.armQueue (s : State) (q : Nat) : State := s.watchFor q (s.queue q).widxA.toNat

def State.qStart (s : State) (q : Nat) : State :=
  s.qCommand q (fun c => c == .bound) fun s =>
    ((s.armQueue q).setQueue q (if (s.queue q).kept.isSome then .active else .watching) 0, 0)

def execQStart (slot : BitVec 8) (s : State) : Result := .next (s.asHost fun s => s.qStart slot.toNat)

/-- The slot's watch ends. -/
def State.disarmQueue (s : State) (q : Nat) : State := s.modQueue q fun Q => { Q with watchLine := none, fired := false }

def State.qDrain (s : State) (q : Nat) : State :=
  s.qCommand q (fun c => c == .watching || c == .active || c == .blocked || c == .faulted) fun s =>
    (((s.disarmQueue q).setQueue q .draining 0).settleDrain q, 0)

def execQDrain (slot : BitVec 8) (s : State) : Result := .next (s.asHost fun s => s.qDrain slot.toNat)

def State.qClear (s : State) (q : Nat) : State :=
  s.qCommand q (fun c => c == .faulted) fun s => (s.setQueue q .active 0, 0)

def execQClear (slot : BitVec 8) (s : State) : Result := .next (s.asHost fun s => s.qClear slot.toNat)

def State.qDestroy (s : State) (q : Nat) : State :=
  s.qCommand q (fun c => c == .bound || c == .faulted) fun s =>
    let s := (s.inFlight q).foldl (fun s G => s.killTree G.ctx G.gid) s
    let s := s.modQueue q fun Q => { Q with kept := none, keptKernel := none }
    ((s.disarmQueue q).setQueue q .destroyed 0, 0)

def execQDestroy (slot : BitVec 8) (s : State) : Result := .next (s.asHost fun s => s.qDestroy slot.toNat)

def State.qQuery (s : State) (q : Nat) : State := s.qDone q 0
def execQQuery (slot : BitVec 8) (s : State) : Result := .next (s.asHost fun s => s.qQuery slot.toNat)

/-! ## Reading a record (R99, R101, R104) -/

/-- What the front end finds when it reads for a queue. -/
inductive QRead where
  | fault (fcode : BitVec 8)
  | empty
  | record (b : List Byte) (kernel : Option Kernel)
  deriving DecidableEq, Repr

/-- The write index, none where it cannot be read. -/
def State.widxOf (s : State) (Q : Queue) : Option Nat := (s.frontRead Q.ctx Q.widxA.toNat 8).map ofBytes

def recKind (b : List Byte) : Nat := field b 0 1
def recFlag (b : List Byte) (n : Nat) : Bool := (field b 1 1 / 2 ^ n) % 2 == 1

/-- The record's fields are as R101 states. -/
def recordOk (b : List Byte) : Bool :=
  match recKind b with
  | 0 => field b 1 63 == 0
  | 1 => decide (field b 1 1 < 4) && field b 2 2 == 0 && field b 4 4 != 0 && field b 8 2 != 0 && field b 10 2 != 0 &&
      field b 12 4 == 0 && field b 24 8 % 8 == 0 && field b 32 8 % 8 == 0 && field b 48 16 == 0
  | 2 | 3 => decide (field b 1 1 < 4) && field b 2 6 == 0 && field b 8 8 % 8 == 0 && field b 24 40 == 0
  | _ => false

/-- Reads the next record of a queue, with the kernel descriptor of a launch. Where several causes of R104 apply the spec does not say which
FCODE the fault gets: it gets that of the first in the order of these tests (DESIGN CHOICE, log 99). -/
def State.readRecord (s : State) (Q : Queue) : QRead :=
  match s.widxOf Q with
  | none => .fault 3
  | some w =>
    if w < Q.ridx ∨ Q.size < w - Q.ridx then .fault 2
    else if w = Q.ridx then .empty
    else
      match s.frontRead Q.ctx (Q.base.toNat + 64 * (Q.ridx % Q.size)) 64 with
      | none => .fault 3
      | some b =>
        if !recordOk b then .fault 1
        else if recKind b = 1 then
          match s.readKernel Q.ctx (BitVec.ofNat 64 (field b 16 8)) with
          | none => .fault 4
          | some k => .record b (some k)
        else if recKind b = 2 ∧ (s.front? Q.ctx (field b 8 8) false).isNone then .fault 3
        else .record b none

/-! ## Starting a record (R102, R103) -/

/-- Whether a record that has been read may start. -/
inductive QStart where
  | go
  | blocked
  | fault (fcode : BitVec 8)
  deriving DecidableEq, Repr

/-- The word of a signal is a release at .sys: it follows the stores outside the package that the front end's die holds and that are still
to be acknowledged (R102, R216). -/
def State.startable (s : State) (q : Nat) (b : List Byte) : QStart :=
  let Q := s.queue q
  let live := s.inFlight q
  match (s.ctx Q.ctx).state with
  | .preempted | .faulted => .blocked
  | .fenced | .destroyed | .created => .fault 7
  | .bound | .runnable | .running =>
    if (recFlag b 0 ∨ recKind b = 3) ∧ !live.isEmpty then .blocked
    else if recKind b = 1 ∧ Q.maxinfl ≤ live.length then .blocked
    else if recKind b = 3 ∧ s.unackedOn 0 ≠ [] then .blocked
    else if recKind b = 2 then
      match s.frontRead Q.ctx (field b 8 8) 8 with
      | none => .fault 3
      | some w => if ofBytes w < field b 16 8 then .blocked else .go
    else .go

/-- The grid of a launch record. -/
def recordGrid (q : Nat) (Q : Queue) (b : List Byte) (k : Option Kernel) : Grid :=
  { ctx := Q.ctx, gid := 0, depth := 0, parent := none, queue := some q, state := .queued
    x := field b 4 4, y := field b 8 2, z := field b 10 2, kaddr := BitVec.ofNat 64 (field b 16 8), kernel := k
    args := BitVec.ofNat 64 (field b 24 8), complWord := BitVec.ofNat 64 (field b 32 8)
    complValue := BitVec.ofNat 64 (field b 40 8), intr := recFlag b 1 }

/-- The record is complete: with INTR its vector is raised. -/
def State.recordDone (s : State) (q : Nat) (b : List Byte) : State :=
  if recFlag b 1 then s.raisePf (s.queue q).vector else s

/-- A record starts: a launch queues its grid, a wait has been met and is an acquire, a signal writes its word. -/
def State.runRecord (s : State) (q : Nat) (b : List Byte) : State :=
  let Q := s.queue q
  let s := s.modQueue q fun Q => { Q with kept := none, keptKernel := none }
  match recKind b with
  | 1 => (s.newGrid (recordGrid q Q b Q.keptKernel)).1
  | 2 => s.acquireSys.recordDone q b
  | 3 =>
    match s.maxWord Q.ctx (field b 8 8) (BitVec.ofNat 64 (field b 16 8)) with
    | none => s.faultQueue q 8
    | some s => s.recordDone q b
  | _ => s.recordDone q b

/-- A fault that leaves the read index at a record already read (R104). -/
def State.unread (s : State) (q : Nat) (fcode : BitVec 8) : State :=
  let Q := s.queue q
  let n := (Q.ridx + 2 ^ 64 - 1) % 2 ^ 64
  let s := (s.writeRidx Q n).getD s
  (s.modQueue q fun Q => { Q with ridx := n, kept := none, keptKernel := none }).faultQueue q fcode

/-- The record that the slot holds starts, waits, or faults. -/
def State.startKept (s : State) (q : Nat) (b : List Byte) : State :=
  match s.startable q b with
  | .go => s.runRecord q b
  | .blocked => (if recKind b = 2 then s.watchFor q (field b 8 8) else s).setQueue q .blocked 0
  | .fault 7 => s.faultQueue q 7
  | .fault c => s.unread q c

/-- The front end reads the next record of a queue, after its acquire of the write index at .sys (R100, R103), and starts it. -/
def State.consume (s : State) (q : Nat) : State :=
  let Q := s.queue q
  let s := s.acquireSys
  match s.readRecord Q with
  | .fault c => s.faultQueue q c
  | .empty => (s.armQueue q).setQueue q .watching 0
  | .record b k =>
    match s.writeRidx Q (Q.ridx + 1) with
    | none => s.faultQueue q 3
    | some s =>
      (s.modQueue q fun Q => { Q with ridx := (Q.ridx + 1) % 2 ^ 64, kept := some b, keptKernel := k }).startKept q b

/-! ## The turn (R105) -/

/-- The priority that counts. -/
def Queue.rank (Q : Queue) : Nat := if Q.aged then 3 else Q.prio

/-- The key of a context among the positions of a priority. -/
def turnKey (rank x : Nat) : Nat := rank * 4096 + x

/-- The queue whose turn it is: the highest priority, and in it round-robin over contexts, then over the queues of the context. -/
def State.nextQueue? (s : State) : Option Nat :=
  let act := s.queues.filter fun q => q.2.state == .active
  let top := act.foldl (fun m q => max m q.2.rank) 0
  let best := act.filter fun q => q.2.rank == top
  match nextAfter (tget 0 top s.lastCtxQueue) (best.map fun q => q.2.ctx) with
  | none => none
  | some x => nextAfter (tget 0 (turnKey top x) s.lastQueue) ((best.filter fun q => q.2.ctx == x).map fun q => q.1)

/-- The kind of record that the turn of a queue meets: that of the record it holds, or of the one it reads; 0 where it reads
none. -/
def State.turnKind (s : State) (q : Nat) : Nat :=
  match (s.queue q).kept with
  | some b => recKind b
  | none =>
    match s.readRecord (s.queue q) with
    | .record b _ => recKind b
    | .fault _ | .empty => 0

/-- One turn of a queue. A queue of a fenced context meets FCODE 7. A record that the slot holds, read and not started, starts before the
next one is read, also after CLEAR of a queue that had faulted while it held it (DEDUCED, log 38). -/
def State.takeTurn (s : State) (q : Nat) : State :=
  let x := (s.queue q).ctx
  let p := (s.queue q).rank
  let s := { s with lastCtxQueue := tput p x s.lastCtxQueue, lastQueue := tput (turnKey p x) q s.lastQueue }
  let s := s.modQueue q fun Q => { Q with waiting := s.clock, aged := false }
  if (s.ctx x).state = .fenced then s.faultQueue q 7
  else
    match (s.queue q).kept with
    | some b => s.startKept q b
    | none => s.consume q

/-- The turn, if it is this queue's and meets a record of this kind. -/
def State.turn (s : State) (q kind : Nat) : State :=
  if s.nextQueue? = some q ∧ s.turnKind q = kind then s.takeTurn q else s

def execQueueRecordNop (slot : BitVec 8) (s : State) : Result := .next (s.turn slot.toNat 0)
def execQueueRecordLaunch (slot : BitVec 8) (s : State) : Result := .next (s.turn slot.toNat 1)
def execQueueRecordWait (slot : BitVec 8) (s : State) : Result := .next (s.turn slot.toNat 2)
def execQueueRecordSignal (slot : BitVec 8) (s : State) : Result := .next (s.turn slot.toNat 3)

/-- A store has been performed to the line of a WATCHING queue's write index (R103): the front end reads it. -/
def State.watchFire (s : State) (q : Nat) : State :=
  let Q := s.queue q
  if Q.state = .watching ∧ Q.fired then
    let s := s.modQueue q fun Q => { Q with fired := false }
    match s.widxOf Q with
    | none => s.faultQueue q 3
    | some w => if w < Q.ridx ∨ Q.size < w - Q.ridx then s.faultQueue q 2 else s.acquireSys.setQueue q .active 0
  else s

def execQueueWatchFire (slot : BitVec 8) (s : State) : Result := .next (s.watchFire slot.toNat)

/-- A BLOCKED queue whose cause has cleared, or whose wait word has become unreadable. -/
def State.mayUnblock (s : State) (q : Nat) : Bool :=
  let Q := s.queue q
  Q.state == .blocked && match Q.kept with
    | some b => s.startable q b != .blocked
    | none => true

def execQueueUnblock (slot : BitVec 8) (s : State) : Result :=
  .next (if s.mayUnblock slot.toNat then s.setQueue slot.toNat .active 0 else s)

/-- 64 µs in cycles. -/
def ageCycles : Nat := 112000

/-- A queue that has waited 64 µs for its turn. -/
def State.mayAge (s : State) (q : Nat) : Bool :=
  let Q := s.queue q
  Q.state == .active && !Q.aged && decide (Q.waiting + ageCycles ≤ s.clock)

def execQueueAgePromote (slot : BitVec 8) (s : State) : Result :=
  .next (if s.mayAge slot.toNat then s.modQueue slot.toNat fun Q => { Q with aged := true } else s)

end Sys2Proof.Machine
end

