-- ==== Sys2Proof/Machine/Regs.lean ====
section
/-! DEFINITION. The registers of BAR 0 as the host writes and reads them (R5, R19 to R22, R73, R74, R96, R97, R266, R267, R355,
R378, R382, R383, R391, R401, R402, R424, R425, R433). -/

namespace Sys2Proof.Machine

/-! ## Command registers -/

/-- A write of CTX_CMD (R74). A reserved bit is told before the rest of the command is looked at, as in every command register (DESIGN CHOICE,
log 104). -/
def State.writeCtxCmd (s : State) (v : Word) : State :=
  let x := (v.extractLsb' 0 12).toNat
  if s.ctxPend.isSome then s
  else if v.extractLsb' 12 16 ≠ 0 then s.ctxDone x 3
  else
    match (v.extractLsb' 28 4).toNat with
    | 1 => s.ctxBind x
    | 2 => s.ctxSuspend x
    | 3 => s.ctxResume x
    | 4 => s.ctxClearf x
    | 5 => s.ctxFence x
    | 6 => s.ctxDestroy x
    | _ => s.ctxDone x 3

/-- A write of Q_CMD (R97). Where a reserved bit is set and the OP is not allowed in the slot's state too, the rule does not say which RESULT
the command gets: the reserved bit decides (DESIGN CHOICE, log 104). -/
def State.writeQCmd (s : State) (v : Word) : State :=
  let q := (v.extractLsb' 0 8).toNat
  if v.extractLsb' 8 20 ≠ 0 then s.qDone q 3
  else
    match (v.extractLsb' 28 4).toNat with
    | 1 => s.qBind q
    | 2 => s.qStart q
    | 3 => s.qDrain q
    | 4 => s.qClear q
    | 5 => s.qDestroy q
    | 6 => s.qQuery q
    | _ => s.qDone q 3

/-- A write of PG_CMD (R267). -/
def State.writePgCmd (s : State) (v : Word) : State :=
  let x := (v.extractLsb' 0 12).toNat
  if s.pgPend.isSome then s
  else if v.extractLsb' 12 16 ≠ 0 then s.pgDone x 3
  else
    match (v.extractLsb' 28 4).toNat with
    | 1 => s.pgInval x
    | 2 => s.pgReside x
    | 3 => s.pgMigpub x
    | 4 => s.pgAssign x
    | 5 => s.pgShare x
    | 6 => s.pgFree x
    | 7 => s.pgUnpoison x
    | _ => s.pgDone x 3

/-- A write of MH_CMD (R355). -/
def State.writeMhCmd (s : State) (v : Word) : State :=
  let x := (v.extractLsb' 0 12).toNat
  let r := v.extractLsb' 12 4
  if s.regs.mhBusy then s
  else if v.extractLsb' 16 12 ≠ 0 then s.mhDone 3
  else
    match (v.extractLsb' 28 4).toNat with
    | 1 => s.mhDefine x r
    | 2 => s.mhBegin x r
    | 3 => s.mhEnd x r
    | 4 => s.mhUndefine x r
    | _ => s.mhDone 3

/-- A write of NODE_CMD (R391). -/
def State.writeNodeCmd (s : State) (v : Word) : State :=
  let x := v.extractLsb' 0 12
  let n := v.extractLsb' 16 12
  if s.regs.nodeBusy then s
  else if v.extractLsb' 12 4 ≠ 0 then s.nodeDone x 3
  else
    match (v.extractLsb' 28 4).toNat with
    | 1 => s.nodeAttest x n
    | 2 => s.nodeRevoke x n
    | 3 => s.nodeFence x n
    | 4 => s.nodeUnfence x n
    | 5 => s.nodeRetrain x n
    | _ => s.nodeDone x 3

/-- A write of YW_CMD (R402). A field that the command does not use must be zero. -/
def State.writeYwCmd (s : State) (v : Word) : State :=
  let x := v.extractLsb' 0 12
  let bank := (v.extractLsb' 12 4).toNat
  let slot := (v.extractLsb' 16 4).toNat
  let die := (v.extractLsb' 20 3).toNat
  if s.ywPend.isSome then s
  else if v.extractLsb' 23 5 ≠ 0 then s.ywDone 3 0 x
  else
    match (v.extractLsb' 28 4).toNat with
    | 1 => if bank = 0 ∧ x = 0 then s.ywLoad die slot else s.ywDone 3 0 x
    | 2 => if bank = 0 ∧ x = 0 then s.ywUnload die slot else s.ywDone 3 0 x
    | 3 => if x = 0 then s.ywDump die slot bank else s.ywDone 3 0 x
    | 4 => if x = 0 then s.ywClear die slot bank else s.ywDone 3 0 x
    | 5 => if bank = 0 ∧ slot = 0 then s.ywBudget die x else s.ywDone 3 0 x
    | 6 => if bank % 8 = 0 then s.ywSample die (slot + 2 * bank) x else s.ywDone 3 0 x
    | _ => s.ywDone 3 0 x

/-! ## Writes -/

/-- An entry of the node route table (R382): what can no longer be reached is lost, what can be is reached again. -/
def State.writeRoute (s : State) (n : Nat) (v : Word) : State :=
  let t := s.modNode n fun N => { N with en := v.getLsbD 31, esc := v.extractLsb' 24 5, mask := v.extractLsb' 0 24 }
  State.settleReach s t (v.extractLsb' 24 5).toNat

/-- Registers beside the tables of BAR 0. A register of 32 bits takes the low half of the value. -/
def State.writePlain (s : State) (off : Nat) (v : DWord) : State :=
  let w := v.setWidth 32
  let set (f : HostRegs → HostRegs) : State := s.modRegs f
  match off with
  | 0x1000 => s.writeModeCfg w
  | 0x1004 => set fun g => { g with badw := g.badw && !w.getLsbD 11 }
  | 0x2000 => set fun g => { g with ctxTbl := v &&& ~~~0xFFF#64 }
  | 0x2008 => s.writeCtxCmd w
  | 0x3000 => s.writeQCmd w
  | 0x3008 => set fun g => { g with qDesc := v &&& ~~~0x3F#64 }
  | 0x4000 => s.writeFrmTbl v
  | 0x4008 => s.writePgCmd w
  | 0x400C => set fun g => { g with pgPoison := g.pgPoison && !w.getLsbD 27 }
  | 0x4010 => set fun g => { g with pgArg0 := v }
  | 0x4018 => set fun g => { g with pgArg1 := v }
  | 0x4020 => set fun g => { g with prqBase := v }
  | 0x4028 => (set fun g => { g with prqVector := w.extractLsb' 16 16, prqLog2 := w.extractLsb' 0 5 }).drainPageReqs
      s.prqList.length
  | 0x4038 => s.writePrqRidx v
  | 0x5000 => s.writeMhCmd w
  | 0x5008 => set fun g => { g with mhArg := v }
  | 0x6080 => s.writeNodeCmd w
  | 0x6088 => set fun g => { g with nodeArg := v }
  | 0x8000 => s.writeYwCmd w
  | 0x8008 => set fun g => { g with ywArg := v }
  | 0x9010 => set fun g => { g with confBase := v }
  | 0x9018 => set fun g => { g with susBase := v }
  | 0x9020 => set fun g => { g with susVector := w.extractLsb' 16 16, susLog2 := w.extractLsb' 0 5 }
  | 0x9030 => set fun g => { g with susRidx := v }
  | 0x9038 => set fun g => { g with dumpBase := v }
  | 0x9040 => set fun g => { g with dumpVector := w.extractLsb' 16 16, dumpLog2 := w.extractLsb' 0 5 }
  | 0x9050 => set fun g => { g with dumpRidx := v }
  | _ => s

/-- A write to a register of BAR 0 by the physical function: RW fields are stored, W1C bits that are written 1 are cleared, RO
fields and offsets that name no register are left (R5). -/
def State.writeReg (s : State) (off : Nat) (v : DWord) : State :=
  if 0x10000 ≤ off ∧ off < 0x14000 ∧ off % 4 = 0 then s.writeRoute ((off - 0x10000) / 4) (v.setWidth 32)
  else if 0x7000 ≤ off ∧ off < 0x7000 + 8 * 63 ∧ off % 8 = 0 then s.writeVfBind ((off - 0x7000) / 8 + 1) v
  else s.writePlain off v

/-- REG_WRITE. A write by another function is ignored (R19). -/
def execRegWrite (pf : Bool) (off : Nat) (v : BitVec 64) (s : State) : Result :=
  .next (s.asHost fun s => if pf then s.writeReg off v else s)

/-! ## Reads -/

/-- MODE_STAT (R22). -/
def HostRegs.modeStat (g : HostRegs) : Word :=
  0#20 ++ BitVec.ofBool g.badw ++ BitVec.ofBool g.lpend ++ BitVec.ofBool g.spend ++ BitVec.ofBool g.caplim ++ g.lease ++ g.scan ++
    g.mirror ++ g.pcap
/-- MODE_CFG (R20). -/
def HostRegs.modeCfg (g : HostRegs) : Word := 0#24 ++ g.cfgLease ++ g.cfgScan ++ g.cfgMirror ++ g.cfgPcap
/-- CTX_STAT (R74): BUSY while a DESTROY is in progress. -/
def State.ctxStat (s : State) : Word := BitVec.ofBool s.ctxPend.isSome ++ s.regs.ctxResult ++ 0#16 ++ s.regs.ctxCtx
/-- Q_STAT (R97). -/
def HostRegs.qStat (g : HostRegs) : Word := 0#1 ++ g.qResult ++ g.qState ++ g.qFcode ++ 0#8 ++ g.qSlot
/-- PG_STAT (R267): BUSY while a command is in progress. -/
def State.pgStat (s : State) : Word :=
  BitVec.ofBool s.pgPend.isSome ++ s.regs.pgResult ++ BitVec.ofBool s.regs.pgPoison ++ 0#15 ++ s.regs.pgCtx
/-- MH_STAT (R355). -/
def HostRegs.mhStat (g : HostRegs) : Word := BitVec.ofBool g.mhBusy ++ g.mhResult ++ 0#28
/-- NODE_STAT (R391). -/
def HostRegs.nodeStat (g : HostRegs) : Word := BitVec.ofBool g.nodeBusy ++ g.nodeResult ++ 0#16 ++ g.nodeCtx
/-- YW_STAT (R402). -/
def State.ywStat (s : State) : Word :=
  BitVec.ofBool s.ywPend.isSome ++ s.regs.ywResult ++ s.regs.ywWord ++ 0#8 ++ s.regs.ywCtx
/-- BOOT_STAT (R433). -/
def HostRegs.bootStat (g : HostRegs) : Word :=
  BitVec.ofBool g.bootReady ++ BitVec.ofBool g.bootFatal ++ 0#6 ++ g.bootStep ++ g.bootFail ++ g.bootFenced
/-- PRQ_CTL, SUS_CTL and DUMP_CTL (R267, R425). -/
def HostRegs.prqCtl (g : HostRegs) : Word := g.prqVector ++ 0#11 ++ g.prqLog2
def HostRegs.susCtl (g : HostRegs) : Word := g.susVector ++ g.susDrops ++ 0#3 ++ g.susLog2
def HostRegs.dumpCtl (g : HostRegs) : Word := g.dumpVector ++ g.dumpDrops ++ 0#3 ++ g.dumpLog2

/-- PORT_STAT of a port (R383). -/
def Port.stat (p : Port) : Word := 0#4 ++ (if p.state = .up then p.node else 0) ++ p.lanes ++ 0#5 ++ BitVec.ofNat 3 p.state.code
/-- An entry of the node route table (R382). -/
def Node.route (n : Node) : Word := BitVec.ofBool n.en ++ 0#2 ++ n.esc ++ n.mask
/-- VF_BIND (R378). -/
def Vf.bindReg (v : Vf) : DWord := v.vbase ++ 0#4 ++ v.ctx
/-- CORE_FENCE word w (R424). -/
def State.coreFence (s : State) (w : Nat) : DWord :=
  (List.range 64).foldl (fun v c => if (s.core (64 * w + c)).fenced then v ||| 1#64 <<< c else v) 0

/-- What the physical function reads at an offset of BAR 0; write-only registers, reserved fields and offsets that name no register
read zero (R5). -/
def State.readPlain (s : State) (off : Nat) : DWord :=
  let g := s.regs
  if 0x10000 ≤ off ∧ off < 0x14000 ∧ off % 4 = 0 then (s.node ((off - 0x10000) / 4)).route.setWidth 64
  else if 0x7000 ≤ off ∧ off < 0x7000 + 8 * 63 ∧ off % 8 = 0 then (s.vf ((off - 0x7000) / 8 + 1)).bindReg
  else if 0x6000 ≤ off ∧ off < 0x6060 ∧ off % 4 = 0 then (s.port ((off - 0x6000) / 4)).stat.setWidth 64
  else if 0x8010 ≤ off ∧ off < 0x8050 ∧ off % 8 = 0 then (s.die ((off - 0x8010) / 8)).yarrow.refused
  else if 0x9060 ≤ off ∧ off < 0x9080 ∧ off % 8 = 0 then s.coreFence ((off - 0x9060) / 8)
  else
    match off with
    | 0x1000 => g.modeCfg.setWidth 64
    | 0x1004 => g.modeStat.setWidth 64
    | 0x2000 => g.ctxTbl
    | 0x200C => s.ctxStat.setWidth 64
    | 0x3004 => g.qStat.setWidth 64
    | 0x3008 => g.qDesc
    | 0x4000 => g.frmTbl
    | 0x400C => s.pgStat.setWidth 64
    | 0x4010 => g.pgArg0
    | 0x4018 => g.pgArg1
    | 0x4020 => g.prqBase
    | 0x4028 => g.prqCtl.setWidth 64
    | 0x4030 => g.prqWidx
    | 0x4038 => g.prqRidx
    | 0x5004 => g.mhStat.setWidth 64
    | 0x5008 => g.mhArg
    | 0x6084 => g.nodeStat.setWidth 64
    | 0x6088 => g.nodeArg
    | 0x8004 => s.ywStat.setWidth 64
    | 0x8008 => g.ywArg
    | 0x9000 => g.bootStat.setWidth 64
    | 0x9004 => g.hostRsv.setWidth 64
    | 0x9008 => BitVec.ofNat 64 s.clock
    | 0x9010 => g.confBase
    | 0x9018 => g.susBase
    | 0x9020 => g.susCtl.setWidth 64
    | 0x9028 => g.susWidx
    | 0x9030 => g.susRidx
    | 0x9038 => g.dumpBase
    | 0x9040 => g.dumpCtl.setWidth 64
    | 0x9048 => g.dumpWidx
    | 0x9050 => g.dumpRidx
    | _ => 0

/-- What a function reads at an offset of BAR 0: any other than the physical one reads zero (R19, R96, R266). -/
def State.readReg (s : State) (pf : Bool) (off : Nat) : DWord := if pf then s.readPlain off else 0

/-- How the host port answers a read of BAR 0: with what the function reads there, and until BOOT_STAT.READY is 1 as Unsupported Request
(R432). -/
def State.answerRead (s : State) (pf : Bool) (off : Nat) : State :=
  s.asHost fun s => s.emit (.completion (toBytes 8 (s.readReg pf off).toNat))

end Sys2Proof.Machine
end

