-- ==== Sys2Proof/Machine/Requests.lean ====
section
/-! DEFINITION. What becomes of requests and stores after their issue (R201 to R204, R229 to R238, R240, R263): store arrivals, the
shared queues, the hold time, backoff, reissue, commits and the ends of walks. -/

namespace Sys2Proof.Machine

/-- STORE_ARRIVAL: a store, and those that must not arrive later, arrive on a further die (R199, R201). -/
def execStoreArrival (id die : Nat) (s : State) : Result :=
  .next (if die < 8 then { s with mem := (s.mem.arrive [id] die).settled } else s)

/-- The request of a number, with its team. -/
def State.req? (s : State) (id : Nat) : Option (Nat × Team × Req) :=
  s.teams.findSome? fun kt => (kt.2.req? id).map fun r => (kt.1, kt.2, r)

/-- The request of a number of an agent that is no thread. -/
def State.agent? (s : State) (id : Nat) : Option AgentReq := s.agents.find? fun a => a.id == id

/-! ## REQUEST_ENQUEUE (R230, R231) -/

/-- A request that has been translated arrives at its cluster's queue; the one at the door takes the slot that has come free. -/
def State.arrives (s : State) (k : Nat) (T : Team) (r : Req) : State :=
  match r.stage with
  | .translated pa => s.enterQueue k T r (clusterOf T.core) pa
  | .atDoor q (some pa) _ =>
    if s.doorOpen q r.id then
      (if s.nowMigrating T r then s.bounce k T r .onPublish 0 else s.takeSlot k T r q pa)
    else s
  | .atDoor q none _ =>
    if s.doorOpen q r.id then
      let y := s.resolveAgain k T { r with stage := .behind }
      let s := y.1
      let r := y.2
      match s.walkVa? T r with
      | some va => (s.modTeam k fun U => U.setReq r).beginWalk k T r va true
      | none =>
        let s := s.decided k T r
        match s.req? r.id with
        | none => s
        | some (_, U, x) =>
          match x.stage.holds? with
          | some pa => if s.nowMigrating U x then s.bounce k U x .onPublish 0 else s.takeSlot k U x q pa
          | none => s
    else s
  | .backoff _ | .onPage _ | .onPublish | .onWalk _ | .behind | .atCore _ | .walking _ _ _ | .queued _ _ _ _ | .outside _
  | .arrived _ _ _ | .settling _ => s

def execRequestEnqueue (r : Nat) (s : State) : Result :=
  .next (match s.req? r with
  | none => s
  | some (k, T, q) => s.arrives k T q)

/-! ## REQUEST_ADVANCE (R229) -/

/-- A plain load: it may obtain its value before the older requests of its thread have performed (R238). -/
def AccOp.isPlainLoad : AccOp → Bool
  | .load _ _ fresh sc => !fresh && sc == .unscoped
  | .watch | .store _ _ _ | .atomic _ _ _ _ _ | .flagStore _ _ _ _ | .reduce _ _ _ _ | .share _ | .publish _ _ _ => false

/-- The queue that a request of a team goes to next from one: across the crossbar to the home die, to the home slice, and from there to
the memory of the line where it misses, or to the way outside the package. -/
def State.nextQueue (s : State) (T : Team) (r : Req) (q pa : Nat) : Option Nat :=
  match queueKind q with
  | 0 => some (if homeDie pa = dieOf T.core then sliceQueue (sliceOf pa) else crossbarQueue (dieOf T.core))
  | 1 => some (sliceQueue (sliceOf pa))
  | 2 =>
    if inHbm pa then (if s.llcHit pa then none else some (memQueue (pa / 2 ^ 36)))
    else if s.goesOutside T.ctx r.op pa then some (s.egressOf pa)
    else none
  | _ => none

/-- A port takes no further request message: it is not UP, or its request channels are stopped (R381). -/
def State.portStopped (s : State) (p : Nat) : Bool :=
  decide (p < 24) && (s.port p).state == .up && ([0, 1, 2, 3].all fun c => (s.port p).stopped.contains c)

/-- A further miss of a slice finds an entry (R14). -/
def State.missRoom (s : State) (slice : Nat) : Bool :=
  let waiting : List Nat := s.teams.flatMap fun kt => kt.2.reqs.filterMap fun r => match r.stage with
    | .queued q pa _ _ => if queueKind q = 3 ∧ sliceOf pa = slice then some r.id else none
    | .backoff _ | .onPage _ | .onPublish | .onWalk _ | .behind | .translated _ | .atCore _ | .walking _ _ _ | .atDoor _ _ _
    | .outside _ | .arrived _ _ _ | .settling _ => none
  decide (waiting.length < missEntries)

/-- What a request in a queue needs next is free: a place downstream, or its turn in its thread, or a channel to a node (R229, R381). -/
def State.advanceable (s : State) (k : Nat) (T : Team) (r : Req) : Bool :=
  match r.stage with
  | .queued q pa _ _ =>
    match s.nextQueue T r q pa with
    | some n => s.admits n k && (queueKind n != 3 || s.missRoom (sliceOf pa))
    | none =>
      if T.mayPerform r then !s.egressBlocked pa else r.op.isPlainLoad && inHbm pa && (s.badBlock? pa r.op.width).isNone
  | .backoff _ | .onPage _ | .onPublish | .onWalk _ | .behind | .translated _ | .atCore _ | .walking _ _ _ | .atDoor _ _ _ | .outside _
  | .arrived _ _ _ | .settling _ => false

/-- What a request of another agent needs next is free: a place in the next queue on its way, or a channel to a node. -/
def State.agentReady (s : State) (a : AgentReq) : Bool :=
  match a.next? with
  | some n =>
    s.admits n a.owner && (queueKind n != 3 || s.missRoom (a.q - sliceQueue 0))
  | none => queueKind a.q != 4 || !s.portStopped (a.q - egressQueue 0)

/-- A member of a queue is advanceable. -/
def State.memberReady (s : State) (m : Member) : Bool :=
  let agent : Bool := match s.agent? m.id with
    | some a => s.agentReady a
    | none => false
  match s.team? m.owner with
  | some T => match T.req? m.id with
    | some r => s.advanceable m.owner T r
    | none => agent
  | none => agent

/-- The member that a queue picks: the oldest advanceable one of the next owner in turn (R229). -/
def State.nextMember (s : State) (q : Nat) : Option Member :=
  let l := (s.queueOf q).filter fun m => s.memberReady m
  let last := tget 0 q s.lastOwner
  let after := l.filter fun m => decide (last < m.owner)
  let least (l : List Member) : Option Nat := l.foldl (fun b m => match b with
    | none => some m.owner
    | some y => some (min m.owner y)) none
  match least (if after.isEmpty then l else after) with
  | none => none
  | some o => longest (l.filter fun m => m.owner == o)

/-- A request leaves its queue: for the next one, or to perform; a younger plain load obtains its value early. -/
def State.advanceReq (s : State) (k : Nat) (T : Team) (r : Req) : State :=
  match r.stage with
  | .queued q pa _ _ =>
    match s.nextQueue T r q pa with
    | some n => s.enterQueue k T r n pa
    | none =>
      if T.mayPerform r then
        let s := s.modTeam k fun U => U.setReq { r with stage := .translated pa }
        (s.attempt k T { r with stage := .translated pa } pa).1.pumpAll k r.tid
      else
        let v := s.mem.read (accessDie (dieOf T.core) pa) pa r.op.width
        (s.touchLlc pa r.hint).modTeam k fun U => U.setReq { r with stage := .arrived pa true v }
  | .backoff _ | .onPage _ | .onPublish | .onWalk _ | .behind | .translated _ | .atCore _ | .walking _ _ _ | .atDoor _ _ _ | .outside _
  | .arrived _ _ _ | .settling _ => s

/-- A request of another agent goes on to the next queue on its way, where its hold time starts again (R232), or from the last one to
perform. -/
def State.advanceAgent (s : State) (id : Nat) : State :=
  match s.agent? id with
  | none => s
  | some a =>
    match a.next? with
    | some n => s.standAgent { a with door := false } n
    | none => { s with agents := s.agents.map fun a => if a.id == id then { a with ready := true } else a }

/-- The queue passes on the member that it picks. -/
def State.advance (s : State) (q : Nat) : State :=
  match s.nextMember q with
  | none => s
  | some m =>
    let s := { s with lastOwner := tput q m.owner s.lastOwner }
    match s.req? m.id with
    | some (k, T, r) => s.advanceReq k T r
    | none => s.advanceAgent m.id

def execRequestAdvance (q : Nat) (s : State) : Result := .next (s.advance q)

/-! ## REQUEST_HOLD_TIMEOUT (R232) -/

/-- The wait of a request in its queue has reached its hold time. -/
def State.heldOut (s : State) (T : Team) (r : Req) : Bool :=
  match T.place? r with
  | some x => decide (x.2.1 + x.2.2 ≤ s.clock)
  | none => false

/-- The same of a request of another agent. -/
def State.agentHeldOut (s : State) (a : AgentReq) : Bool :=
  a.parked.isNone && !a.ready && !a.door && decide (a.since + a.hold ≤ s.clock)

/-- The request parks: one that waits for a walk until the walk ends, any other under backoff. -/
def State.holdTimeout (s : State) (k : Nat) (T : Team) (r : Req) : State :=
  match r.stage with
  | .queued _ _ _ _ => s.bounce k T r (.backoff (s.clock + backoffTime r.k)) 1
  | .walking w _ _ => s.bounce k T r (.onWalk w) 1
  | .backoff _ | .onPage _ | .onPublish | .onWalk _ | .behind | .translated _ | .atCore _ | .atDoor _ _ _ | .outside _
  | .arrived _ _ _ | .settling _ => s

def execRequestHoldTimeout (r : Nat) (s : State) : Result :=
  .next (match s.req? r with
  | some (k, T, q) => if s.heldOut T q then s.holdTimeout k T q else s
  | none => match s.agent? r with
    | some a => if s.agentHeldOut a then s.bounceAgent r else s
    | none => match s.cmd? r with
      | some m => if s.cmdHeldOut m then s.bounceCmd r else s
      | none => s)

/-! ## REQUEST_BACKOFF_EXPIRY and REQUEST_REISSUE (R234 to R236) -/

/-- The threads that waited for a walk go on, or for the check of a request: those of one team as one group (R173). -/
def State.walkersReady (s : State) (k : Nat) (tids : List Nat) : State :=
  s.releaseGroups k (tids.filter fun i => match s.thread? k i with
    | some t => t.status != .exited
    | none => false)

/-- The threads of a team that wait for the check of one of these requests. -/
def Team.checkersOf (T : Team) (ids : List Nat) : List Nat :=
  (T.threads.zipIdx.filter fun x => ids.any fun id => x.1.status == .waiting (.check id)).map fun x => x.2

/-- A request reissues, with its Yarrow event: it is translated again, and what can now move on in its thread does. One whose check has
all its walks is checked. -/
def State.reissue (s : State) (k : Nat) (T : Team) (r : Req) (more : Nat) : State :=
  let r := { r with stage := .behind, k := r.k + more }
  let s := (s.tapTeam T 1 0 (r.k - more) (s.clock - r.parkedAt) T.slot).modTeam k fun U => U.setReq r
  match r.unchecked with
  | some (a, []) => ((s.decideUnchecked k r a).walkersReady k (T.checkersOf [r.id])).pumpAll k r.tid
  | some (_, _ :: _) | none => (s.retranslate k T r).pumpAll k r.tid

/-- The backoff of a request has run out. -/
def State.backoffOver (s : State) (T : Team) (r : Req) : Bool :=
  match r.stage with
  | .backoff til => decide (til ≤ s.clock) && T.olderReissued r
  | .onPage _ | .onPublish | .onWalk _ | .behind | .translated _ | .atCore _ | .walking _ _ _ | .queued _ _ _ _ | .atDoor _ _ _
  | .outside _ | .arrived _ _ _ | .settling _ => false

/-- The backoff of a request of another agent has run out; or it is the first outside its queue, which has a slot. -/
def State.agentBackoffOver (s : State) (a : AgentReq) : Bool :=
  match a.parked with
  | some til => decide (til ≤ s.clock)
  | none => a.door && s.doorOpen a.q a.id

/-- A request of another agent that has parked sets out again on its way; one at the door of a queue enters it. -/
def State.reissueAgent (s : State) (a : AgentReq) : State :=
  if a.parked.isSome then s.standAgent { a with k := a.k + 1 } (a.route.headD a.q) else s.standAgent a a.q

def execRequestBackoffExpiry (r : Nat) (s : State) : Result :=
  .next (match s.req? r with
  | some (k, T, q) => if s.backoffOver T q then s.reissue k T q 1 else s
  | none => match s.agent? r with
    | some a => if s.agentBackoffOver a then s.reissueAgent a else s
    | none => s)

/-- A request whose cause has cleared, or that joined an older bounce, reissues once the older parked ones of its thread have (R227,
R234); one whose turn has come in its thread goes on. -/
def execRequestReissue (r : Nat) (s : State) : Result :=
  .next (match s.req? r with
  | none => s
  | some (k, T, q) =>
    match q.stage with
    | .behind => if T.olderReissued q then s.reissue k T q 0 else s
    | .translated _ | .atCore _ | .settling _ | .arrived _ _ _ => s.pumpAll k q.tid
    | .backoff _ | .onPage _ | .onPublish | .onWalk _ | .walking _ _ _ | .queued _ _ _ _ | .atDoor _ _ _ | .outside _ => s)

/-- LOAD_COMMIT: the values that have arrived are committed in program order (R237); one whose early value is not covered is
read again (R238). -/
def execLoadCommit (r : Nat) (s : State) : Result :=
  .next (match s.req? r with
  | none => s
  | some (k, _, q) =>
    match q.stage with
    | .arrived _ _ _ => s.pumpAll k q.tid
    | .behind | .translated _ | .atCore _ | .settling _ | .backoff _ | .onPage _ | .onPublish | .onWalk _ | .walking _ _ _
    | .queued _ _ _ _ | .atDoor _ _ _ | .outside _ => s)

/-! ## WALK_COMPLETE (R240, R263) -/

/-- The request waits for the walk. -/
def Stage.onThisWalk (w : Nat) : Stage → Bool
  | .walking id _ _ => id == w
  | .onWalk id => id == w
  | .backoff _ | .onPage _ | .onPublish | .behind | .translated _ | .atCore _ | .queued _ _ _ _ | .atDoor _ _ _ | .outside _
  | .arrived _ _ _ | .settling _ => false

/-- The walks that are left for a request whose check is still to be decided. -/
def Req.walked (r : Req) : Req := { r with unchecked := r.unchecked.map fun x => (x.1, x.2.tail) }

/-- A request whose walk has ended is decided; after an INVAL it walks again (R269). One whose check is still open makes its next walk,
or is checked; so is one whose first address decides it. One that had parked waits for the older parked ones of its thread (R234). -/
def State.walkEnded (s : State) (stale : Bool) (k id : Nat) : State :=
  match s.team? k with
  | none => s
  | some T =>
    match T.req? id with
    | none => s
    | some r =>
      let s := match r.stage with
        | .onWalk _ => s.tapTeam T 1 0 r.k (s.clock - r.parkedAt) T.slot
        | .walking _ _ _ | .backoff _ | .onPage _ | .onPublish | .behind | .translated _ | .atCore _ | .queued _ _ _ _ | .atDoor _ _ _
        | .outside _ | .arrived _ _ _ | .settling _ => s
      let r1 := if stale then { r with stage := .behind } else { r.walked with stage := .behind }
      let s := s.modTeam k fun U => U.setReq r1
      if r.stage.isParked && !T.olderReissued r then s
      else match r1.unchecked with
      | some (a, []) => s.decideUnchecked k r1 a
      | some (a, _ :: _) => if !stale && s.firstTraps T a then s.decideUnchecked k r1 a else s.retranslate k T r1
      | none => if stale then s.retranslate k T r1
        else
          let y := s.resolveAgain k T r1
          (y.1.decided k T y.2).pumpAll k r.tid

/-- The threads of a team whose requests of a list have been checked, or that share one of those. -/
def Team.checkedOf (old new : Team) (ids : List Nat) : List Nat :=
  old.checkersOf (ids.filter fun id => match new.req? id with
    | some r => r.unchecked.isNone
    | none => true)

/-- The end of a walk is cached, whoever has asked for it, where it is a translation that may be (R263). -/
def State.walkCached (s : State) (w : Walk) : State :=
  if w.stale then s
  else
    match s.walkIn w.cluster w.ctx (swapVa (s.ctx w.ctx).swaps w.va.toNat) with
    | .leaf e => if cacheable e then (s.translate w.core w.ctx w.va.toNat).1 else s
    | .refused _ | .poisoned _ _ => s

/-- The threads of a team that wait for a walk of their own, or for that of their bundle's fetch, go on. -/
def State.walkSeen (s : State) (k : Nat) (w : Walk) : State :=
  match s.team? k with
  | none => s
  | some T =>
    let who := (T.threads.zipIdx.filter fun x => x.1.status == .waiting (.walk w.id)).map fun x => x.2
    (who.foldl (fun s i => s.modThread k i fun t => { t with walked := if w.stale then [] else t.walked ++ [w.va] }) s).walkersReady k who

def State.walkComplete (s : State) (w : Walk) : State :=
  let s0 := { s with walks := s.walks.filter fun v => v.id != w.id }
  let s1 := s.teams.foldl (fun s kt =>
    let ids := (kt.2.reqs.filter fun r => r.stage.onThisWalk w.id).map fun r => r.id
    let s1 := ids.foldl (fun s id => s.walkEnded w.stale kt.1 id) s
    match s1.team? kt.1 with
    | some T => s1.walkersReady kt.1 (kt.2.checkedOf T ids)
    | none => s1) s0
  match w.who with
  | none => s1
  | some (k, _) => (s1.walkCached w).walkSeen k w

/-- The next line outside the package that a walk has to read: of a table in host memory (R443), and for a fetch its own (R385). -/
def State.walkNeeds? (s : State) (w : Walk) : Option Nat :=
  match s.walkFar? w.cluster w.ctx (swapVa (s.ctx w.ctx).swaps w.va.toNat) w.fetched with
  | some n => some n
  | none =>
    if !w.code then none
    else
      match s.phys? w.core w.ctx w.va.toNat with
      | some pa => if inHbm pa || w.fetched.contains (lineOf pa) || s.proxied w.ctx (lineOf pa) then none else some (lineOf pa)
      | none => none

/-- A walk has taken its time, and waits for no line that it has asked for, nor behind an atomic at the host. -/
def State.walkOver (s : State) (w : Walk) : Bool :=
  decide (w.startedAt + s.walkDelay ≤ s.clock) && !(s.outside.any fun o => o.req == w.id) && match s.walkNeeds? w with
    | some n => !s.lineBusy (n * 128) && !s.egressBlocked (n * 128)
    | none => true

/-- A walk goes on: it asks for the next line that it needs from outside the package, or it completes. -/
def State.walkGoesOn (s : State) (w : Walk) : State :=
  match s.walkNeeds? w with
  | some n => { s with outside := s.outside ++ [{ line := n, req := w.id, team := 0 }] }
  | none => s.walkComplete w

def execWalkComplete (w : Nat) (s : State) : Result :=
  .next (match s.walks.find? fun v => v.id == w with
  | some v => if s.outside.any fun o => o.req == w then s else s.walkGoesOn v
  | none => s)

end Sys2Proof.Machine
end

