-- ==== Sys2Proof/Machine/Watch.lean ====
section
/-! DEFINITION. MWATCH and MWAIT, and the events that end an MWAIT (R295 to R302, R388). -/

namespace Sys2Proof.Machine

/-- MWATCH: a load of width 4 that arms the thread's watch where it performs (R299). -/
def execMwatch (d a : BitVec 7) (s : State) : Result :=
  .next (s.memLanes 1 0 fun t => { va := t.gx a, op := .watch, dest := .reg (t.pos d) 1, counter := 1 })

/-- The older MWATCHes of a thread that have not performed (R300). -/
def Team.olderWatches (T : Team) (i : Nat) : List Nat :=
  ((T.reqsOf i).filter fun r => r.op == .watch).map fun r => r.id

/-- MWAIT in one lane (R300). An unreliable watch ends it with code 2 at once. -/
def Thread.mwait (t : Thread) (d : BitVec 7) (n now : Nat) (older : List Nat) : Thread :=
  if !older.isEmpty then t.wait (.older older)
  else
    match t.watch with
    | .idle => (t.setG d 2).next
    | .triggered => { (t.setG d 0).next with watch := .idle }
    | .armed _ ok =>
      if ok then
        { t.next with
          status := .watching (t.pos d) (if n = 0 then none else some (now + n)) now
          bundle := none }
      else { (t.setG d 2).next with watch := .idle }

def execMwait (d b : BitVec 7) (s : State) : Result :=
  .next (match s.issuing? with
  | none => s
  | some T => (s.onLanes fun _ i t => .done (t.mwait d (t.g b).toNat s.clock (T.olderWatches i))).dropNodeWatches)

/-! ## The end of an MWAIT -/

/-- A watch on a node line whose node is FENCED or cannot be reached (R388). -/
def State.nodeLost (s : State) (line : Nat) : Bool :=
  inNode (line * 128) && ((s.node (nodeOf (line * 128))).fenced || s.unreachable (line * 128))

/-- The code with which a parked MWAIT may end now, none while it must stay: where causes coincide the lowest wins (R300,
R301). A watch on a host line may end with 2 whenever expiry says so (R297). -/
def State.watchCode (s : State) (t : Thread) (expiry : Bool) : Option Word :=
  match t.status with
  | .watching _ deadline _ =>
    match t.watch with
    | .triggered => some 0
    | .idle => some 2
    | .armed line ok =>
      let timed := match deadline with
        | some c => decide (c ≤ s.clock)
        | none => false
      if timed then some 1
      else if !ok || s.nodeLost line || (expiry && inHost (line * 128)) then some 2
      else none
  | .ready | .waiting _ | .parked | .sleeping _ | .exited => none

/-- The value of a parked MWAIT is written and its watch ends. -/
def Thread.endWatch (t : Thread) (code : Word) : Thread :=
  match t.status with
  | .watching p _ _ => { t.putAt p code with watch := .idle }
  | .ready | .waiting _ | .parked | .sleeping _ | .exited => t

/-- Two threads whose MWAITs end with one code end them by the same event (R173): one store (R300), one deadline, or the loss of what
serves one line (log 71). -/
def Thread.sameEnd (code : Word) (t u : Thread) : Bool :=
  if code = 0 then t.trigBy == u.trigBy
  else
    match t.status, u.status with
    | .watching _ c _, .watching _ d _ => if code = 1 then c == d else t.watch == u.watch
    | _, _ => false

/-- Every thread of a team whose MWAIT the same event ends as that of thread i becomes READY, in bundles as at team start (R173). -/
def State.endWatches (s : State) (k i : Nat) (expiry : Bool) : State :=
  match s.team? k, s.thread? k i with
  | some T, some t =>
    match s.watchCode t expiry with
    | none => s
    | some c =>
      let who := (T.threads.zipIdx.filter fun x => x.2 == i || (s.watchCode x.1 false == some c && x.1.sameEnd c t)).map fun x => x.2
      let s := who.foldl (fun s j =>
        match s.thread? k j with
        | some u =>
          match u.status with
          | .watching _ _ since => s.tapTeam T 4 c.toNat (s.clock - since) 0 T.slot
          | .ready | .waiting _ | .parked | .sleeping _ | .exited => s
        | none => s) s
      (s.modTeam k fun T => { T with threads := T.threads.mapIdx fun j u => if who.contains j then u.endWatch c else u }).dropNodeWatches.releaseGroups
        k who
  | _, _ => s

def execMwaitWake (k i : Nat) (s : State) : Result := .next (s.endWatches k i false)
def execMwaitTimeout (k i : Nat) (s : State) : Result := .next (s.endWatches k i false)
def execHostWatchExpiry (k i : Nat) (s : State) : Result := .next (s.endWatches k i true)

end Sys2Proof.Machine
end

