-- ==== Sys2Proof/Machine/Waits.lean ====
section
/-! DEFINITION. The ends of waits (R89, R91, R92, R173, R176, R184): THREAD_WAIT_END, SLEEP_END, YIELD_TIMEOUT,
THOLD_PROPAGATION and BIN_DRAW. -/

namespace Sys2Proof.Machine

/-! ## Waits (R184) -/

/-- The threads that wait as one group: same next PC, same 32 indices (R173). -/
def Team.groupOf (T : Team) (i : Nat) (t : Thread) : List (Nat × Thread) :=
  (T.threads.zipIdx.map fun x => (x.2, x.1)).filter fun x => x.1 / 32 == i / 32 && x.2.pc == t.pc &&
    match x.2.status with
    | .waiting _ => true
    | .ready | .parked | .watching _ _ _ | .sleeping _ | .exited => false

/-- Operations of the sequencer, fills and requests that are still under way. -/
def State.stillOpen (s : State) (T : Team) (id : Nat) : Bool :=
  (T.req? id).isSome || ((s.core T.core).seq.any fun o => o.id == id) || (s.core T.core).fills.any fun f => f.id == id

/-- What TBWAIT would answer for a phase (R290): 2 also while the object cannot be read. -/
def State.phaseCode (s : State) (T : Team) (ta : DWord) (p : Word) : Word :=
  match T.mapped? ta.toNat, s.phys? T.core T.ctx ta.toNat with
  | some _, some pa => (s.tbarAt (dieOf T.core) pa).code p
  | _, _ => 2

/-- The awaited condition holds. -/
def State.waitOver (s : State) (k i : Nat) (T : Team) (t : Thread) (w : Wait) : Bool :=
  let C := s.core T.core
  match w with
  | .operand regs preds refs =>
    !((regs.any fun p => (tget? p t.pendRegs).isSome) || (preds.any fun p => (tget? p t.pendPreds).isSome) ||
      refs.any fun p => (tget? p t.pendRefs).isSome)
  | .window above => !(t.pendRegs.any fun x => decide (above < x.1))
  | .slab => t.slabs.any fun x => !t.pinned x.1
  | .entry n ld st => decide (T.entries + n ≤ T.size) && decide (t.cntLd + ld ≤ 30) && decide (t.cntSt + st ≤ 30)
  | .announce => !s.announceFull T.ctx 0 false false
  | .kick => decide (t.cntCp < 30)
  | .walker c => decide (s.walksIn c < 16)
  | .walk _ | .check _ => false
  | .tile n =>
    match (C.tile n).state with
    | .ready | .poisoned => true
    | .filling | .draining => false
    | .empty => !s.fillPending k T n
  | .transfer => C.accown == T.ctx || C.wants != some T.ctx
  | .sequencer => decide (C.seq.length < 8) && decide (t.cntTl < 30)
  | .barrier n g => laterGen (T.bar n).gen g
  | .phase ta p _ => s.phaseCode T ta p != 2
  | .counters ld st cp tl => t.countersUnder ld st cp tl
  | .completion n limit => decide ((T.ccAt n).toNat < limit)
  | .grid g =>
    match s.grid? T.ctx g with
    | some G => G.state.ended
    | none => true
  | .engine _ => false
  | .fence reqs _ _ _ _ _ _ =>
    if reqs.isEmpty then s.fenceOver k i T w else !(reqs.any fun id => (T.req? id).isSome)
  | .flags ops _ => !(ops.any fun id => C.seq.any fun o => o.id == id)
  | .older ids => !(ids.any fun id => s.stillOpen T id)

/-- A FENCE ends: younger loads are fresh, a long one is told to Yarrow. -/
def State.endFence (s : State) (T : Team) (since : Nat) (sc : Scope) (kinds : BitVec 4) : State :=
  let code : Nat := match sc with
    | .unscoped => 0 | .team => 1 | .clu => 2 | .die => 3 | .pkg => 4 | .sys => 5
  let s := s.fenceEnd sc kinds
  if since + 1024 ≤ s.clock then s.tapTeam T 44 (s.clock - since) code kinds.toNat T.slot else s

/-- What the end of a thread's wait does, and whether the thread is READY after it: a FENCE whose requests have performed may
still wait for what they leave; TBWAIT writes its code, and its return and that of WAITB acquire (R291, R294). -/
def State.endWait (s : State) (k i : Nat) (T : Team) (w : Wait) : State × Bool :=
  match w with
  | .fence reqs _ _ _ since sc kinds =>
    if reqs.isEmpty then (s.endFence T since sc kinds, true)
    else
      match s.fenceRest k i T since sc kinds with
      | (s, v) =>
        if s.fenceOver k i T v then (s.endFence T since sc kinds, true)
        else (s.modThread k i fun t => t.wait v, false)
  | .flags _ clear => (s.modTeam k fun T => T.clearFlags clear, true)
  | .phase ta p pos => ((s.modThread k i fun t => t.putAt pos (s.phaseCode T ta p)).acquireSys, true)
  | .completion _ _ => (s.acquireSys, true)
  | .operand _ _ _ | .window _ | .slab | .entry _ _ _ | .announce | .kick | .walker _ | .walk _ | .check _ | .tile _ | .transfer | .sequencer
  | .barrier _ _ | .counters _ _ _ _ | .grid _ | .engine _ | .older _ => (s, true)

/-- Two waits are for the same event: for one kind of condition of their threads, or for one and the same object (log 71). -/
def Wait.sameKind : Wait → Wait → Bool
  | .operand _ _ _, .operand _ _ _ => true
  | .entry _ _ _, .entry _ _ _ => true
  | .window _, .window _ => true
  | .slab, .slab => true
  | .fence _ _ _ _ _ _ _, .fence _ _ _ _ _ _ _ => true
  | .flags _ _, .flags _ _ => true
  | .counters _ _ _ _, .counters _ _ _ _ => true
  | .older _, .older _ => true
  | .phase ta p _, .phase tb q _ => ta == tb && p == q
  | v, w => v == w

/-- Thread i's wait is over: so are those of its group that wait for the same event, and they become READY together (R173). -/
def State.endWaits (s : State) (k i : Nat) : State :=
  match s.team? k, s.thread? k i with
  | some T, some t =>
    match t.status with
    | .waiting w =>
      if s.waitOver k i T t w then
        let who := (T.groupOf i t).filter fun x => match x.2.status with
          | .waiting v => v.sameKind w && s.waitOver k x.1 T x.2 v
          | .ready | .parked | .watching _ _ _ | .sleeping _ | .exited => false
        let r := who.foldl (fun (acc : State × List Nat) x => match x.2.status with
          | .waiting v =>
            match acc.1.endWait k x.1 T v with
            | (s, true) => (s, acc.2 ++ [x.1])
            | (s, false) => (s, acc.2)
          | .ready | .parked | .watching _ _ _ | .sleeping _ | .exited => acc) (s, [])
        r.1.releaseGroups k r.2
      else s
    | .ready | .parked | .watching _ _ _ | .sleeping _ | .exited => s
  | _, _ => s

def execThreadWaitEnd (k i : Nat) (s : State) : Result := .next (s.endWaits k i)

/-! ## SLEEP, YIELD, sr.thold -/

/-- A sleep's time has passed. -/
def Thread.slept (t : Thread) (now : Nat) : Bool :=
  match t.status with
  | .sleeping til => decide (til ≤ now)
  | .ready | .waiting _ | .parked | .watching _ _ _ | .exited => false

/-- The sleepers of the team whose time has passed, and that were to wake at the same clock, become READY together (R91, R173; log 71). -/
def execSleepEnd (k i : Nat) (s : State) : Result :=
  .next (match s.team? k, s.thread? k i with
  | some T, some t =>
    if t.slept s.clock then
      s.releaseGroups k ((T.threads.zipIdx.filter fun x => x.1.slept s.clock && x.1.status == t.status).map fun x => x.2)
    else s
  | _, _ => s)

/-- A YIELD of 256 cycles ago holds its thread back no longer (R92). -/
def execYieldTimeout (k i : Nat) (s : State) : Result :=
  .next (match s.thread? k i with
  | some t =>
    match t.yielded with
    | some y => if y.1 + 256 ≤ s.clock then s.modThread k i fun t => { t with yielded := none } else s
    | none => s
  | none => s)

/-- A write of sr.thold reaches a further core (R89). -/
def execTholdPropagation (x : BitVec 12) (c : Nat) (s : State) : Result :=
  .next (s.modCtx x.toNat fun C => { C with tholdAt := tdel c C.tholdAt })

/-! ## Bins (R176) -/

/-- The clock at which a bin's oldest thread was filed. -/
def Bin.oldest (b : Bin) : Nat :=
  match b.tids with
  | [] => 0
  | x :: r => r.foldl (fun m y => min m y.2) x.2

/-- The bin holds a thread of every lane of the team that has a thread that is not EXITED. -/
def Bin.isFull (b : Bin) (T : Team) : Bool :=
  T.threads.zipIdx.all fun x => x.1.status == .exited || b.tids.any fun y => laneOf y.1 == laneOf x.2

/-- A bin may be drawn now: why, as R405 numbers it. A bin is drawn in the slice of its team's context. -/
def State.drawable (s : State) (c : Nat) (b : Bin) : Option Nat :=
  match s.team? b.team with
  | none => some 2
  | some T =>
    if (s.core c).slice ≠ some T.ctx then none
    else if b.closed then some 2
    else if b.isFull T then some 0
    else if b.oldest + 64 ≤ s.clock then some 1
    else none

/-- Draws bin n of a core: its threads become one READY bundle. -/
def State.draw (s : State) (c n : Nat) : State :=
  match (s.core c).bins[n]? with
  | none => s
  | some b =>
    match s.drawable c b with
    | none => s
    | some why =>
      let s := s.modCore c fun C => { C with bins := C.bins.eraseIdx n }
      match s.team? b.team with
      | none => s
      | some T =>
        if b.tids.isEmpty then s
        else (s.makeReady b.team (b.tids.map fun x => x.1)).tapTeam T 45 why b.tids.length (s.clock - b.oldest) T.slot

def execBinDraw (c n : Nat) (s : State) : Result := .next (s.draw c n)

end Sys2Proof.Machine
end

