-- ==== Sys2Proof/Machine/Dispatch.lean ====
section
/-! DEFINITION. The meaning of every constructor of Instr: one arm each, a direct call of the definition that carries it. -/

namespace Sys2Proof.Machine

/-- One instruction or event. Core instructions act on the bundle that issues (State.issue). -/
def exec (i : Instr) (s : State) : Host.Outcome State Fault Refusal :=
  match i with
  | .bra off => Sys2Proof.Machine.execBra off s
  | .brc neg p off => Sys2Proof.Machine.execBrc neg p off s
  | .call slide off => Sys2Proof.Machine.execCall slide off s
  | .callr a slide => Sys2Proof.Machine.execCallr a slide s
  | .jmpr a => Sys2Proof.Machine.execJmpr a s
  | .winbase n => Sys2Proof.Machine.execWinbase n s
  | .trap code => Sys2Proof.Machine.execTrap code s
  | .srd d sr => Sys2Proof.Machine.execSrd d sr s
  | .swr sr a => Sys2Proof.Machine.execSwr sr a s
  | .rdcnt d n => Sys2Proof.Machine.execRdcnt d n s
  | .tmark code a => Sys2Proof.Machine.execTmark code a s
  | .sleep a => Sys2Proof.Machine.execSleep a s
  | .launch d a b => Sys2Proof.Machine.execLaunch d a b s
  | .gwait d a => Sys2Proof.Machine.execGwait d a s
  | .elect d p => Sys2Proof.Machine.execElect d p s
  | .electS d p q => Sys2Proof.Machine.execElectS d p q s
  | .wakel d a => Sys2Proof.Machine.execWakel d a s
  | .matchW d a => Sys2Proof.Machine.execMatchW d a s
  | .matchX d a => Sys2Proof.Machine.execMatchX d a s
  | .voteAny d a => Sys2Proof.Machine.execVoteAny d a s
  | .voteAll d a => Sys2Proof.Machine.execVoteAll d a s
  | .voteBal d p => Sys2Proof.Machine.execVoteBal d p s
  | .actmask d => Sys2Proof.Machine.execActmask d s
  | .shflIdx d a b => Sys2Proof.Machine.execShflIdx d a b s
  | .shflUp d a b => Sys2Proof.Machine.execShflUp d a b s
  | .shflDown d a b => Sys2Proof.Machine.execShflDown d a b s
  | .shflXor d a b => Sys2Proof.Machine.execShflXor d a b s
  | .pand d a b => Sys2Proof.Machine.execPand d a b s
  | .por d a b => Sys2Proof.Machine.execPor d a b s
  | .pxor d a b => Sys2Proof.Machine.execPxor d a b s
  | .pandn d a b => Sys2Proof.Machine.execPandn d a b s
  | .pnot d a => Sys2Proof.Machine.execPnot d a s
  | .pmov d a => Sys2Proof.Machine.execPmov d a s
  | .pget d => Sys2Proof.Machine.execPget d s
  | .psetm a b => Sys2Proof.Machine.execPsetm a b s
  | .add d a b => Sys2Proof.Machine.execAdd d a b s
  | .sub d a b => Sys2Proof.Machine.execSub d a b s
  | .and d a b => Sys2Proof.Machine.execAnd d a b s
  | .or d a b => Sys2Proof.Machine.execOr d a b s
  | .xor d a b => Sys2Proof.Machine.execXor d a b s
  | .andn d a b => Sys2Proof.Machine.execAndn d a b s
  | .shl d a b => Sys2Proof.Machine.execShl d a b s
  | .shr d a b => Sys2Proof.Machine.execShr d a b s
  | .sar d a b => Sys2Proof.Machine.execSar d a b s
  | .minS d a b => Sys2Proof.Machine.execMinS d a b s
  | .minU d a b => Sys2Proof.Machine.execMinU d a b s
  | .maxS d a b => Sys2Proof.Machine.execMaxS d a b s
  | .maxU d a b => Sys2Proof.Machine.execMaxU d a b s
  | .mul d a b => Sys2Proof.Machine.execMul d a b s
  | .mulhiS d a b => Sys2Proof.Machine.execMulhiS d a b s
  | .mulhiU d a b => Sys2Proof.Machine.execMulhiU d a b s
  | .mad d a b => Sys2Proof.Machine.execMad d a b s
  | .mulwS d a b => Sys2Proof.Machine.execMulwS d a b s
  | .mulwU d a b => Sys2Proof.Machine.execMulwU d a b s
  | .abs d a => Sys2Proof.Machine.execAbs d a s
  | .clz d a => Sys2Proof.Machine.execClz d a s
  | .popc d a => Sys2Proof.Machine.execPopc d a s
  | .brev d a => Sys2Proof.Machine.execBrev d a s
  | .bfeS d a b => Sys2Proof.Machine.execBfeS d a b s
  | .bfeU d a b => Sys2Proof.Machine.execBfeU d a b s
  | .bfi d a b => Sys2Proof.Machine.execBfi d a b s
  | .mov d a => Sys2Proof.Machine.execMov d a s
  | .extS d a n => Sys2Proof.Machine.execExtS d a n s
  | .extU d a n => Sys2Proof.Machine.execExtU d a n s
  | .sel d a b inv p => Sys2Proof.Machine.execSel d a b inv p s
  | .iset c p a b => Sys2Proof.Machine.execIset c p a b s
  | .isetX c p a b => Sys2Proof.Machine.execIsetX c p a b s
  | .iseti c p a imm => Sys2Proof.Machine.execIseti c p a imm s
  | .addi d a imm => Sys2Proof.Machine.execAddi d a imm s
  | .andi d a imm => Sys2Proof.Machine.execAndi d a imm s
  | .ori d a imm => Sys2Proof.Machine.execOri d a imm s
  | .xori d a imm => Sys2Proof.Machine.execXori d a imm s
  | .shli d a n => Sys2Proof.Machine.execShli d a n s
  | .shri d a n => Sys2Proof.Machine.execShri d a n s
  | .sari d a n => Sys2Proof.Machine.execSari d a n s
  | .roli d a n => Sys2Proof.Machine.execRoli d a n s
  | .muli d a imm => Sys2Proof.Machine.execMuli d a imm s
  | .movi d imm => Sys2Proof.Machine.execMovi d imm s
  | .addX d a b => Sys2Proof.Machine.execAddX d a b s
  | .subX d a b => Sys2Proof.Machine.execSubX d a b s
  | .shlX d a b => Sys2Proof.Machine.execShlX d a b s
  | .shrX d a b => Sys2Proof.Machine.execShrX d a b s
  | .sarX d a b => Sys2Proof.Machine.execSarX d a b s
  | .movX d a => Sys2Proof.Machine.execMovX d a s
  | .lea d a b k => Sys2Proof.Machine.execLea d a b k s
  | .addiX d a imm => Sys2Proof.Machine.execAddiX d a imm s
  | .fadd d a b abs neg rm => Sys2Proof.Machine.execFadd d a b abs neg rm s
  | .fsub d a b abs neg rm => Sys2Proof.Machine.execFsub d a b abs neg rm s
  | .fmul d a b abs neg rm => Sys2Proof.Machine.execFmul d a b abs neg rm s
  | .ffma d a b abs neg rm => Sys2Proof.Machine.execFfma d a b abs neg rm s
  | .fmin d a b => Sys2Proof.Machine.execFmin d a b s
  | .fmax d a b => Sys2Proof.Machine.execFmax d a b s
  | .fset c p a b => Sys2Proof.Machine.execFset c p a b s
  | .rcp d a => Sys2Proof.Machine.execRcp d a s
  | .rsq d a => Sys2Proof.Machine.execRsq d a s
  | .sqrt d a => Sys2Proof.Machine.execSqrt d a s
  | .exp2 d a => Sys2Proof.Machine.execExp2 d a s
  | .log2 d a => Sys2Proof.Machine.execLog2 d a s
  | .sinpi d a => Sys2Proof.Machine.execSinpi d a s
  | .cospi d a => Sys2Proof.Machine.execCospi d a s
  | .rndn d a => Sys2Proof.Machine.execRndn d a s
  | .rndz d a => Sys2Proof.Machine.execRndz d a s
  | .rndd d a => Sys2Proof.Machine.execRndd d a s
  | .rndu d a => Sys2Proof.Machine.execRndu d a s
  | .fcvtF32I32 d a rm => Sys2Proof.Machine.execFcvtF32I32 d a rm s
  | .fcvtF32Ui32 d a rm => Sys2Proof.Machine.execFcvtF32Ui32 d a rm s
  | .fcvtI32F32 d a rm => Sys2Proof.Machine.execFcvtI32F32 d a rm s
  | .fcvtUi32F32 d a rm => Sys2Proof.Machine.execFcvtUi32F32 d a rm s
  | .fcvtF32I64 d a rm => Sys2Proof.Machine.execFcvtF32I64 d a rm s
  | .fcvtI64F32 d a rm => Sys2Proof.Machine.execFcvtI64F32 d a rm s
  | .fcvtF16F32 d a rm => Sys2Proof.Machine.execFcvtF16F32 d a rm s
  | .fcvtBf16F32 d a rm => Sys2Proof.Machine.execFcvtBf16F32 d a rm s
  | .fcvtF16hF32 d a rm => Sys2Proof.Machine.execFcvtF16hF32 d a rm s
  | .fcvtBf16hF32 d a rm => Sys2Proof.Machine.execFcvtBf16hF32 d a rm s
  | .fcvtF32F16 d a => Sys2Proof.Machine.execFcvtF32F16 d a s
  | .fcvtF32Bf16 d a => Sys2Proof.Machine.execFcvtF32Bf16 d a s
  | .fcvtF32F16h d a => Sys2Proof.Machine.execFcvtF32F16h d a s
  | .fcvtF32Bf16h d a => Sys2Proof.Machine.execFcvtF32Bf16h d a s
  | .fcvtF32Ui64 d a rm => Sys2Proof.Machine.execFcvtF32Ui64 d a rm s
  | .fcvtUi64F32 d a rm => Sys2Proof.Machine.execFcvtUi64F32 d a rm s
  | .pk8 d a rm f => Sys2Proof.Machine.execPk8 d a rm f s
  | .upk8 d a f => Sys2Proof.Machine.execUpk8 d a f s
  | .pk6 d a rm f => Sys2Proof.Machine.execPk6 d a rm f s
  | .upk6 d a f => Sys2Proof.Machine.execUpk6 d a f s
  | .hadd2Bf16 d a b => Sys2Proof.Machine.execHadd2Bf16 d a b s
  | .hmul2Bf16 d a b => Sys2Proof.Machine.execHmul2Bf16 d a b s
  | .hfma2Bf16 d a b => Sys2Proof.Machine.execHfma2Bf16 d a b s
  | .hadd2F16 d a b => Sys2Proof.Machine.execHadd2F16 d a b s
  | .hmul2F16 d a b => Sys2Proof.Machine.execHmul2F16 d a b s
  | .hfma2F16 d a b => Sys2Proof.Machine.execHfma2F16 d a b s
  | .hmin2 d a b => Sys2Proof.Machine.execHmin2 d a b s
  | .hmax2 d a b => Sys2Proof.Machine.execHmax2 d a b s
  | .scx d a t => Sys2Proof.Machine.execScx d a t s
  | .sca d a b => Sys2Proof.Machine.execSca d a b s
  | .scm d a t => Sys2Proof.Machine.execScm d a t s
  | .ldB d a imm => Sys2Proof.Machine.execLdB d a imm s
  | .ldBs d a imm => Sys2Proof.Machine.execLdBs d a imm s
  | .ldH d a imm => Sys2Proof.Machine.execLdH d a imm s
  | .ldHs d a imm => Sys2Proof.Machine.execLdHs d a imm s
  | .ldW d a imm => Sys2Proof.Machine.execLdW d a imm s
  | .ldX d a imm => Sys2Proof.Machine.execLdX d a imm s
  | .ldQ d a imm => Sys2Proof.Machine.execLdQ d a imm s
  | .stB d a imm => Sys2Proof.Machine.execStB d a imm s
  | .stH d a imm => Sys2Proof.Machine.execStH d a imm s
  | .stW d a imm => Sys2Proof.Machine.execStW d a imm s
  | .stX d a imm => Sys2Proof.Machine.execStX d a imm s
  | .stQ d a imm => Sys2Proof.Machine.execStQ d a imm s
  | .ldm d a sem sc w hint => Sys2Proof.Machine.execLdm d a sem sc w hint s
  | .stm d a sem sc w hint => Sys2Proof.Machine.execStm d a sem sc w hint s
  | .prefLlc a imm => Sys2Proof.Machine.execPrefLlc a imm s
  | .prefStash a imm => Sys2Proof.Machine.execPrefStash a imm s
  | .pgreq d a b => Sys2Proof.Machine.execPgreq d a b s
  | .pgreqNp d a b => Sys2Proof.Machine.execPgreqNp d a b s
  | .atomT d a b op => Sys2Proof.Machine.execAtomT d a b op s
  | .atomC d a b op => Sys2Proof.Machine.execAtomC d a b op s
  | .atomD d a b op => Sys2Proof.Machine.execAtomD d a b op s
  | .atomP d a b op => Sys2Proof.Machine.execAtomP d a b op s
  | .atomS d a b op => Sys2Proof.Machine.execAtomS d a b op s
  | .redD a b op => Sys2Proof.Machine.execRedD a b op s
  | .redP a b op => Sys2Proof.Machine.execRedP a b op s
  | .redS a b op => Sys2Proof.Machine.execRedS a b op s
  | .stfl d a b wide sc => Sys2Proof.Machine.execStfl d a b wide sc s
  | .redn d a b op => Sys2Proof.Machine.execRedn d a b op s
  | .smap d a b => Sys2Proof.Machine.execSmap d a b s
  | .sunmap d a => Sys2Proof.Machine.execSunmap d a s
  | .sflush a b => Sys2Proof.Machine.execSflush a b s
  | .sinv a b => Sys2Proof.Machine.execSinv a b s
  | .pub d a b => Sys2Proof.Machine.execPub d a b s
  | .mwatch d a => Sys2Proof.Machine.execMwatch d a s
  | .mwait d b => Sys2Proof.Machine.execMwait d b s
  | .fence sc tile eng st ld scope => Sys2Proof.Machine.execFence sc tile eng st ld scope s
  | .barSync n => Sys2Proof.Machine.execBarSync n s
  | .barArrive n a => Sys2Proof.Machine.execBarArrive n a s
  | .barWait n a => Sys2Proof.Machine.execBarWait n a s
  | .tbinit a b => Sys2Proof.Machine.execTbinit a b s
  | .tbexp a b => Sys2Proof.Machine.execTbexp a b s
  | .tbarr d a => Sys2Proof.Machine.execTbarr d a s
  | .tbwait d a b => Sys2Proof.Machine.execTbwait d a b s
  | .tbtest d a b => Sys2Proof.Machine.execTbtest d a b s
  | .tberr d a => Sys2Proof.Machine.execTberr d a s
  | .waitc ld st cp tl => Sys2Proof.Machine.execWaitc ld st cp tl s
  | .waitb n imm => Sys2Proof.Machine.execWaitb n imm s
  | .ccset n a => Sys2Proof.Machine.execCcset n a s
  | .ccadd n a => Sys2Proof.Machine.execCcadd n a s
  | .ccrd d n => Sys2Proof.Machine.execCcrd d n s
  | .mxacq d => Sys2Proof.Machine.execMxacq d s
  | .mxrel d => Sys2Proof.Machine.execMxrel d s
  | .tmma acc abuf bslot f free zero all => Sys2Proof.Machine.execTmma acc abuf bslot f free zero all s
  | .tmmai acc abuf bslot f free zero all => Sys2Proof.Machine.execTmmai acc abuf bslot f free zero all s
  | .tzero acc all => Sys2Proof.Machine.execTzero acc all s
  | .trd d acc b => Sys2Proof.Machine.execTrd d acc b s
  | .twr d acc b => Sys2Proof.Machine.execTwr d acc b s
  | .trowsum d acc => Sys2Proof.Machine.execTrowsum d acc s
  | .trowssq d acc => Sys2Proof.Machine.execTrowssq d acc s
  | .trowmax d acc => Sys2Proof.Machine.execTrowmax d acc s
  | .trowmul acc b => Sys2Proof.Machine.execTrowmul acc b s
  | .trowadd acc b => Sys2Proof.Machine.execTrowadd acc b s
  | .tcvt acc abuf q f all => Sys2Proof.Machine.execTcvt acc abuf q f all s
  | .tscale accD accS b => Sys2Proof.Machine.execTscale accD accS b s
  | .tlda a b => Sys2Proof.Machine.execTlda a b s
  | .tstate d a => Sys2Proof.Machine.execTstate d a s
  | .trel a => Sys2Proof.Machine.execTrel a s
  | .cbld cb a => Sys2Proof.Machine.execCbld cb a s
  | .rldW d r imm => Sys2Proof.Machine.execRldW d r imm s
  | .rldX d r imm => Sys2Proof.Machine.execRldX d r imm s
  | .rstW d r imm => Sys2Proof.Machine.execRstW d r imm s
  | .rstX d r imm => Sys2Proof.Machine.execRstX d r imm s
  | .rldr d r b => Sys2Proof.Machine.execRldr d r b s
  | .rstr d r b => Sys2Proof.Machine.execRstr d r b s
  | .pin d r => Sys2Proof.Machine.execPin d r s
  | .unpin d r => Sys2Proof.Machine.execUnpin d r s
  | .refeq p r q => Sys2Proof.Machine.execRefeq p r q s
  | .rget d r => Sys2Proof.Machine.execRget d r s
  | .rput r a => Sys2Proof.Machine.execRput r a s
  | .rchk d r => Sys2Proof.Machine.execRchk d r s
  | .rnull r => Sys2Proof.Machine.execRnull r s
  | .lit p => Sys2Proof.Machine.execLit p s
  | .yadd d a b => Sys2Proof.Machine.execYadd d a b s
  | .ysub d a b => Sys2Proof.Machine.execYsub d a b s
  | .yand d a b => Sys2Proof.Machine.execYand d a b s
  | .yor d a b => Sys2Proof.Machine.execYor d a b s
  | .yxor d a b => Sys2Proof.Machine.execYxor d a b s
  | .yshl d a b => Sys2Proof.Machine.execYshl d a b s
  | .yshr d a b => Sys2Proof.Machine.execYshr d a b s
  | .yminu d a b => Sys2Proof.Machine.execYminu d a b s
  | .ymaxu d a b => Sys2Proof.Machine.execYmaxu d a b s
  | .yaddi d a imm => Sys2Proof.Machine.execYaddi d a imm s
  | .yandi d a imm => Sys2Proof.Machine.execYandi d a imm s
  | .yshi d a k n => Sys2Proof.Machine.execYshi d a k n s
  | .ymovi d imm => Sys2Proof.Machine.execYmovi d imm s
  | .yins d imm => Sys2Proof.Machine.execYins d imm s
  | .yclz d a => Sys2Proof.Machine.execYclz d a s
  | .yhash d a r => Sys2Proof.Machine.execYhash d a r s
  | .ybr c a b imm => Sys2Proof.Machine.execYbr c a b imm s
  | .yhist n a b => Sys2Proof.Machine.execYhist n a b s
  | .ycms n a b => Sys2Proof.Machine.execYcms n a b s
  | .ycmq d n a => Sys2Proof.Machine.execYcmq d n a s
  | .yldb d n a => Sys2Proof.Machine.execYldb d n a s
  | .ytrigArm a => Sys2Proof.Machine.execYtrigArm a s
  | .yrds d n => Sys2Proof.Machine.execYrds d n s
  | .nop => Sys2Proof.Machine.execNop s
  | .ret => Sys2Proof.Machine.execRet s
  | .exit => Sys2Proof.Machine.execExit s
  | .reform => Sys2Proof.Machine.execReform s
  | .rft => Sys2Proof.Machine.execRft s
  | .yield => Sys2Proof.Machine.execYield s
  | .brk => Sys2Proof.Machine.execBrk s
  | .ytrigRecord => Sys2Proof.Machine.execYtrigRecord s
  | .ytrigInterrupt => Sys2Proof.Machine.execYtrigInterrupt s
  | .ytrigFreeze => Sys2Proof.Machine.execYtrigFreeze s
  | .yend => Sys2Proof.Machine.execYend s
  | .regWrite pf off v => Sys2Proof.Machine.execRegWrite pf off v s
  | .modeCfgWrite pf v => Sys2Proof.Machine.execModeCfgWrite pf v s
  | .powerCapApply => Sys2Proof.Machine.execPowerCapApply s
  | .mirrorRelease => Sys2Proof.Machine.execMirrorRelease s
  | .leaseChangeSettle => Sys2Proof.Machine.execLeaseChangeSettle s
  | .railOvercurrent die => Sys2Proof.Machine.execRailOvercurrent die s
  | .ctxBind x => Sys2Proof.Machine.execCtxBind x s
  | .ctxSuspend x => Sys2Proof.Machine.execCtxSuspend x s
  | .ctxResume x => Sys2Proof.Machine.execCtxResume x s
  | .ctxClearf x => Sys2Proof.Machine.execCtxClearf x s
  | .ctxFence x => Sys2Proof.Machine.execCtxFence x s
  | .ctxDestroy x => Sys2Proof.Machine.execCtxDestroy x s
  | .sliceLengthExpiry c => Sys2Proof.Machine.execSliceLengthExpiry c s
  | .sliceSwitch c => Sys2Proof.Machine.execSliceSwitch c s
  | .tileOwnershipTransfer c x => Sys2Proof.Machine.execTileOwnershipTransfer c x s
  | .debugResume k => Sys2Proof.Machine.execDebugResume k s
  | .sleepEnd k j => Sys2Proof.Machine.execSleepEnd k j s
  | .yieldTimeout k j => Sys2Proof.Machine.execYieldTimeout k j s
  | .tholdPropagation x c => Sys2Proof.Machine.execTholdPropagation x c s
  | .threadWaitEnd k j => Sys2Proof.Machine.execThreadWaitEnd k j s
  | .qBind slot => Sys2Proof.Machine.execQBind slot s
  | .qStart slot => Sys2Proof.Machine.execQStart slot s
  | .qDrain slot => Sys2Proof.Machine.execQDrain slot s
  | .qClear slot => Sys2Proof.Machine.execQClear slot s
  | .qDestroy slot => Sys2Proof.Machine.execQDestroy slot s
  | .qQuery slot => Sys2Proof.Machine.execQQuery slot s
  | .queueWatchFire slot => Sys2Proof.Machine.execQueueWatchFire slot s
  | .queueRecordNop slot => Sys2Proof.Machine.execQueueRecordNop slot s
  | .queueRecordLaunch slot => Sys2Proof.Machine.execQueueRecordLaunch slot s
  | .queueRecordWait slot => Sys2Proof.Machine.execQueueRecordWait slot s
  | .queueRecordSignal slot => Sys2Proof.Machine.execQueueRecordSignal slot s
  | .queueUnblock slot => Sys2Proof.Machine.execQueueUnblock slot s
  | .queueAgePromote slot => Sys2Proof.Machine.execQueueAgePromote slot s
  | .gridDescriptorRead x g => Sys2Proof.Machine.execGridDescriptorRead x g s
  | .gridTranslate x g => Sys2Proof.Machine.execGridTranslate x g s
  | .teamPlace k => Sys2Proof.Machine.execTeamPlace k s
  | .placementReserve k => Sys2Proof.Machine.execPlacementReserve k s
  | .teamDone k => Sys2Proof.Machine.execTeamDone k s
  | .slabSpill k j slab => Sys2Proof.Machine.execSlabSpill k j slab s
  | .slabFill k j slab => Sys2Proof.Machine.execSlabFill k j slab s
  | .binDraw c n => Sys2Proof.Machine.execBinDraw c n s
  | .storeArrival id die => Sys2Proof.Machine.execStoreArrival id die s
  | .requestEnqueue r => Sys2Proof.Machine.execRequestEnqueue r s
  | .requestAdvance cluster => Sys2Proof.Machine.execRequestAdvance cluster s
  | .requestHoldTimeout r => Sys2Proof.Machine.execRequestHoldTimeout r s
  | .requestBackoffExpiry r => Sys2Proof.Machine.execRequestBackoffExpiry r s
  | .requestReissue r => Sys2Proof.Machine.execRequestReissue r s
  | .loadCommit r => Sys2Proof.Machine.execLoadCommit r s
  | .walkComplete w => Sys2Proof.Machine.execWalkComplete w s
  | .instructionFetch k j => Sys2Proof.Machine.execInstructionFetch k j s
  | .runAheadFetch c x va => Sys2Proof.Machine.execRunAheadFetch c x va s
  | .frmTblWrite pf v => Sys2Proof.Machine.execFrmTblWrite pf v s
  | .pgInval x => Sys2Proof.Machine.execPgInval x s
  | .pgReside x => Sys2Proof.Machine.execPgReside x s
  | .pgMigpub x => Sys2Proof.Machine.execPgMigpub x s
  | .pgAssign x => Sys2Proof.Machine.execPgAssign x s
  | .pgShare x => Sys2Proof.Machine.execPgShare x s
  | .pgFree x => Sys2Proof.Machine.execPgFree x s
  | .pgUnpoison x => Sys2Proof.Machine.execPgUnpoison x s
  | .prqRidxWrite pf v => Sys2Proof.Machine.execPrqRidxWrite pf v s
  | .mwaitWake k j => Sys2Proof.Machine.execMwaitWake k j s
  | .mwaitTimeout k j => Sys2Proof.Machine.execMwaitTimeout k j s
  | .hostWatchExpiry k j => Sys2Proof.Machine.execHostWatchExpiry k j s
  | .tileOpStart c => Sys2Proof.Machine.execTileOpStart c s
  | .tileOpComplete c => Sys2Proof.Machine.execTileOpComplete c s
  | .tileFillComplete id => Sys2Proof.Machine.execTileFillComplete id s
  | .selftestInject c sub ok => Sys2Proof.Machine.execSelftestInject c sub ok s
  | .selftestForced c sub ok => Sys2Proof.Machine.execSelftestForced c sub ok s
  | .requestEngineTake k => Sys2Proof.Machine.execRequestEngineTake k s
  | .cmdNop id => Sys2Proof.Machine.execCmdNop id s
  | .cmdCpy id => Sys2Proof.Machine.execCmdCpy id s
  | .cmdCpy2d id => Sys2Proof.Machine.execCmdCpy2d id s
  | .cmdCpyt id => Sys2Proof.Machine.execCmdCpyt id s
  | .cmdCpyp id => Sys2Proof.Machine.execCmdCpyp id s
  | .cmdCpyr id => Sys2Proof.Machine.execCmdCpyr id s
  | .cmdFill id => Sys2Proof.Machine.execCmdFill id s
  | .cmdComplete id => Sys2Proof.Machine.execCmdComplete id s
  | .mhDefine x region => Sys2Proof.Machine.execMhDefine x region s
  | .mhBegin x region => Sys2Proof.Machine.execMhBegin x region s
  | .mhEnd x region => Sys2Proof.Machine.execMhEnd x region s
  | .mhUndefine x region => Sys2Proof.Machine.execMhUndefine x region s
  | .teaselTake x region => Sys2Proof.Machine.execTeaselTake x region s
  | .teaselRetry x region => Sys2Proof.Machine.execTeaselRetry x region s
  | .hostWrite pa bytes => Sys2Proof.Machine.execHostWrite pa bytes s
  | .hostRead pa len => Sys2Proof.Machine.execHostRead pa len s
  | .hostAtomicop pa op wide v cmp => Sys2Proof.Machine.execHostAtomicop pa op wide v cmp s
  | .vfAccess vf off write len bytes => Sys2Proof.Machine.execVfAccess vf off write len bytes s
  | .hostConfigRequest off => Sys2Proof.Machine.execHostConfigRequest off s
  | .hostCompletion line bytes => Sys2Proof.Machine.execHostCompletion line bytes s
  | .vfBindWrite pf vf v => Sys2Proof.Machine.execVfBindWrite pf vf v s
  | .doeDiscovery index => Sys2Proof.Machine.execDoeDiscovery index s
  | .spdmRequest secured msg => Sys2Proof.Machine.execSpdmRequest secured msg s
  | .ideKmMessage stream vf => Sys2Proof.Machine.execIdeKmMessage stream vf s
  | .tdispLockInterface vf => Sys2Proof.Machine.execTdispLockInterface vf s
  | .tdispStartInterface vf => Sys2Proof.Machine.execTdispStartInterface vf s
  | .tdispStopInterface vf => Sys2Proof.Machine.execTdispStopInterface vf s
  | .ideIntegrityFailure vf => Sys2Proof.Machine.execIdeIntegrityFailure vf s
  | .portSignalDetect p => Sys2Proof.Machine.execPortSignalDetect p s
  | .portTrainingResult p lanes node => Sys2Proof.Machine.execPortTrainingResult p lanes node s
  | .portLinkLoss p => Sys2Proof.Machine.execPortLinkLoss p s
  | .bamlosResponse line tagOk bytes => Sys2Proof.Machine.execBamlosResponse line tagOk bytes s
  | .nodeTrigger line => Sys2Proof.Machine.execNodeTrigger line s
  | .bamlosMgmt x node msg => Sys2Proof.Machine.execBamlosMgmt x node msg s
  | .nodeAttest x node => Sys2Proof.Machine.execNodeAttest x node s
  | .attestResult x node result digest => Sys2Proof.Machine.execAttestResult x node result digest s
  | .nodeRevoke x node => Sys2Proof.Machine.execNodeRevoke x node s
  | .nodeFence x node => Sys2Proof.Machine.execNodeFence x node s
  | .nodeUnfence x node => Sys2Proof.Machine.execNodeUnfence x node s
  | .nodeRetrain x node => Sys2Proof.Machine.execNodeRetrain x node s
  | .reduceRoundComplete id => Sys2Proof.Machine.execReduceRoundComplete id s
  | .ywLoad die slot => Sys2Proof.Machine.execYwLoad die slot s
  | .ywUnload die slot => Sys2Proof.Machine.execYwUnload die slot s
  | .ywDump die slot bank => Sys2Proof.Machine.execYwDump die slot bank s
  | .ywClear die slot bank => Sys2Proof.Machine.execYwClear die slot bank s
  | .ywBudget die x => Sys2Proof.Machine.execYwBudget die x s
  | .ywSample die pos x => Sys2Proof.Machine.execYwSample die pos x s
  | .yarrowRun die => Sys2Proof.Machine.execYarrowRun die s
  | .yarrowWindow die => Sys2Proof.Machine.execYarrowWindow die s
  | .yarrowTimerEvent die => Sys2Proof.Machine.execYarrowTimerEvent die s
  | .samplerTick c => Sys2Proof.Machine.execSamplerTick c s
  | .scanRotationStart => Sys2Proof.Machine.execScanRotationStart s
  | .coreScan c ok => Sys2Proof.Machine.execCoreScan c ok s
  | .scanDrainTimeout c => Sys2Proof.Machine.execScanDrainTimeout c s
  | .partReset fail badCores => Sys2Proof.Machine.execPartReset fail badCores s
  | .partFatal => Sys2Proof.Machine.execPartFatal s
  | .illegalOpcode w cause => Sys2Proof.Machine.execIllegalOpcode w cause s
  | .leaseExpiry kind holder line => Sys2Proof.Machine.execLeaseExpiry kind holder line s
  | .caplimWindow => Sys2Proof.Machine.execCaplimWindow s
  | .flowControlStopGo p vc go => Sys2Proof.Machine.execFlowControlStopGo p vc go s

end Sys2Proof.Machine
end

