-- ==== Sys2Proof/Machine/Events.lean ====
section
/-! DEFINITION. What an event of the opcode table does when it comes: the same definitions that exec calls for it. -/

namespace Sys2Proof.Machine

/-- An event comes. -/
def runEvent (e : Event) (s : State) : Result :=
  match e with
  | .regWrite pf off v => execRegWrite pf off v s
  | .modeCfgWrite pf v => execModeCfgWrite pf v s
  | .powerCapApply => execPowerCapApply s
  | .mirrorRelease => execMirrorRelease s
  | .leaseChangeSettle => execLeaseChangeSettle s
  | .railOvercurrent die => execRailOvercurrent die s
  | .ctxBind x => execCtxBind x s
  | .ctxSuspend x => execCtxSuspend x s
  | .ctxResume x => execCtxResume x s
  | .ctxClearf x => execCtxClearf x s
  | .ctxFence x => execCtxFence x s
  | .ctxDestroy x => execCtxDestroy x s
  | .sliceLengthExpiry c => execSliceLengthExpiry c s
  | .sliceSwitch c => execSliceSwitch c s
  | .tileOwnershipTransfer c x => execTileOwnershipTransfer c x s
  | .debugResume k => execDebugResume k s
  | .sleepEnd k i => execSleepEnd k i s
  | .yieldTimeout k i => execYieldTimeout k i s
  | .tholdPropagation x c => execTholdPropagation x c s
  | .threadWaitEnd k i => execThreadWaitEnd k i s
  | .qBind slot => execQBind slot s
  | .qStart slot => execQStart slot s
  | .qDrain slot => execQDrain slot s
  | .qClear slot => execQClear slot s
  | .qDestroy slot => execQDestroy slot s
  | .qQuery slot => execQQuery slot s
  | .queueWatchFire slot => execQueueWatchFire slot s
  | .queueRecordNop slot => execQueueRecordNop slot s
  | .queueRecordLaunch slot => execQueueRecordLaunch slot s
  | .queueRecordWait slot => execQueueRecordWait slot s
  | .queueRecordSignal slot => execQueueRecordSignal slot s
  | .queueUnblock slot => execQueueUnblock slot s
  | .queueAgePromote slot => execQueueAgePromote slot s
  | .gridDescriptorRead x g => execGridDescriptorRead x g s
  | .gridTranslate x g => execGridTranslate x g s
  | .teamPlace k => execTeamPlace k s
  | .placementReserve k => execPlacementReserve k s
  | .teamDone k => execTeamDone k s
  | .slabSpill k i slab => execSlabSpill k i slab s
  | .slabFill k i slab => execSlabFill k i slab s
  | .binDraw c n => execBinDraw c n s
  | .storeArrival id die => execStoreArrival id die s
  | .requestEnqueue r => execRequestEnqueue r s
  | .requestAdvance cluster => execRequestAdvance cluster s
  | .requestHoldTimeout r => execRequestHoldTimeout r s
  | .requestBackoffExpiry r => execRequestBackoffExpiry r s
  | .requestReissue r => execRequestReissue r s
  | .loadCommit r => execLoadCommit r s
  | .walkComplete w => execWalkComplete w s
  | .instructionFetch k i => execInstructionFetch k i s
  | .runAheadFetch c x va => execRunAheadFetch c x va s
  | .frmTblWrite pf v => execFrmTblWrite pf v s
  | .pgInval x => execPgInval x s
  | .pgReside x => execPgReside x s
  | .pgMigpub x => execPgMigpub x s
  | .pgAssign x => execPgAssign x s
  | .pgShare x => execPgShare x s
  | .pgFree x => execPgFree x s
  | .pgUnpoison x => execPgUnpoison x s
  | .prqRidxWrite pf v => execPrqRidxWrite pf v s
  | .mwaitWake k i => execMwaitWake k i s
  | .mwaitTimeout k i => execMwaitTimeout k i s
  | .hostWatchExpiry k i => execHostWatchExpiry k i s
  | .tileOpStart c => execTileOpStart c s
  | .tileOpComplete c => execTileOpComplete c s
  | .tileFillComplete id => execTileFillComplete id s
  | .selftestInject c sub ok => execSelftestInject c sub ok s
  | .selftestForced c sub ok => execSelftestForced c sub ok s
  | .requestEngineTake k => execRequestEngineTake k s
  | .cmdNop id => execCmdNop id s
  | .cmdCpy id => execCmdCpy id s
  | .cmdCpy2d id => execCmdCpy2d id s
  | .cmdCpyt id => execCmdCpyt id s
  | .cmdCpyp id => execCmdCpyp id s
  | .cmdCpyr id => execCmdCpyr id s
  | .cmdFill id => execCmdFill id s
  | .cmdComplete id => execCmdComplete id s
  | .mhDefine x region => execMhDefine x region s
  | .mhBegin x region => execMhBegin x region s
  | .mhEnd x region => execMhEnd x region s
  | .mhUndefine x region => execMhUndefine x region s
  | .teaselTake x region => execTeaselTake x region s
  | .teaselRetry x region => execTeaselRetry x region s
  | .hostWrite pa bytes => execHostWrite pa bytes s
  | .hostRead pa len => execHostRead pa len s
  | .hostAtomicop pa op wide v cmp => execHostAtomicop pa op wide v cmp s
  | .vfAccess vf off write len bytes => execVfAccess vf off write len bytes s
  | .hostConfigRequest off => execHostConfigRequest off s
  | .hostCompletion line bytes => execHostCompletion line bytes s
  | .vfBindWrite pf vf v => execVfBindWrite pf vf v s
  | .doeDiscovery index => execDoeDiscovery index s
  | .spdmRequest secured msg => execSpdmRequest secured msg s
  | .ideKmMessage stream vf => execIdeKmMessage stream vf s
  | .tdispLockInterface vf => execTdispLockInterface vf s
  | .tdispStartInterface vf => execTdispStartInterface vf s
  | .tdispStopInterface vf => execTdispStopInterface vf s
  | .ideIntegrityFailure vf => execIdeIntegrityFailure vf s
  | .portSignalDetect p => execPortSignalDetect p s
  | .portTrainingResult p lanes node => execPortTrainingResult p lanes node s
  | .portLinkLoss p => execPortLinkLoss p s
  | .bamlosResponse line tagOk bytes => execBamlosResponse line tagOk bytes s
  | .nodeTrigger line => execNodeTrigger line s
  | .bamlosMgmt x node msg => execBamlosMgmt x node msg s
  | .nodeAttest x node => execNodeAttest x node s
  | .attestResult x node result digest => execAttestResult x node result digest s
  | .nodeRevoke x node => execNodeRevoke x node s
  | .nodeFence x node => execNodeFence x node s
  | .nodeUnfence x node => execNodeUnfence x node s
  | .nodeRetrain x node => execNodeRetrain x node s
  | .reduceRoundComplete id => execReduceRoundComplete id s
  | .ywLoad die slot => execYwLoad die slot s
  | .ywUnload die slot => execYwUnload die slot s
  | .ywDump die slot bank => execYwDump die slot bank s
  | .ywClear die slot bank => execYwClear die slot bank s
  | .ywBudget die x => execYwBudget die x s
  | .ywSample die pos x => execYwSample die pos x s
  | .yarrowRun die => execYarrowRun die s
  | .yarrowWindow die => execYarrowWindow die s
  | .yarrowTimerEvent die => execYarrowTimerEvent die s
  | .samplerTick c => execSamplerTick c s
  | .scanRotationStart => execScanRotationStart s
  | .coreScan c ok => execCoreScan c ok s
  | .scanDrainTimeout c => execScanDrainTimeout c s
  | .partReset fail badCores => execPartReset fail badCores s
  | .partFatal => execPartFatal s
  | .illegalOpcode w cause => execIllegalOpcode w cause s
  | .leaseExpiry kind holder line => execLeaseExpiry kind holder line s
  | .caplimWindow => execCaplimWindow s
  | .flowControlStopGo p vc go => execFlowControlStopGo p vc go s

end Sys2Proof.Machine
end

