-- ==== Sys2Proof/Machine/Due.lean ====
section
/-! DEFINITION. The events that come by themselves: what each state has due, in the order in which the model takes them
(log 1). Every meaning checks its own condition again. -/

namespace Sys2Proof.Machine

/-- The event, where its condition holds. -/
def when (c : Bool) (e : Event) : List Event := if c then [e] else []

/-- Modes, leases, windows of the power cap (R18 to R25). -/
def State.dueModes (s : State) : List Event :=
  let g := s.regs
  when (g.pcap != g.cfgPcap) .powerCapApply ++
    when (g.cfgMirror == 0 && g.mirror != 0) .mirrorRelease ++
    when (g.lpend && !s.otherLeases g.leaseLen) .leaseChangeSettle ++
    (s.teams.flatMap fun kt => kt.2.lines.flatMap fun l =>
      when (!l.owned && decide (l.since + l.lease ≤ s.clock)) (.leaseExpiry .stash kt.1 l.line)) ++
    s.proxies.flatMap fun p => when (decide (p.since + p.lease ≤ s.clock)) (.leaseExpiry .proxy 0 p.line)

/-- Stores that have not arrived on every die although the bound of eventual visibility has come (R205). -/
def State.overdue (s : State) : List Event :=
  s.mem.flights.flatMap fun f =>
    if f.born + s.regs.leaseBound ≤ s.clock then (allDies.filter fun d => !f.at_.contains d).map fun d => Event.storeArrival f.id d
    else []

/-- Stores that arrive on a further die (R199), within the bound of eventual visibility (R205). -/
def State.dueArrivals (s : State) : List Event :=
  s.mem.flights.flatMap fun f =>
    if f.born + min s.arrivalDelay s.regs.leaseBound ≤ s.clock then
      (allDies.filter fun d => !f.at_.contains d).map fun d => Event.storeArrival f.id d
    else []

/-- What a request of a team has due. -/
def State.dueReq (s : State) (T : Team) (r : Req) : List Event :=
  match r.stage with
  | .backoff _ => when (s.backoffOver T r) (.requestBackoffExpiry r.id)
  | .behind => when (T.olderReissued r) (.requestReissue r.id)
  | .translated _ => if s.viaQueues then [.requestEnqueue r.id] else when (T.mayPerform r) (.requestReissue r.id)
  | .atCore _ => when (T.mayPerform r) (.requestReissue r.id)
  | .atDoor q _ _ => when (s.doorOpen q r.id) (.requestEnqueue r.id)
  | .settling ids => when (!s.unacked ids) (.requestReissue r.id)
  | .arrived _ _ _ => when (T.isHead r) (.loadCommit r.id)
  | .queued _ _ _ _ | .walking _ _ _ => when (s.heldOut T r) (.requestHoldTimeout r.id)
  | .onWalk _ | .onPage _ | .onPublish | .outside _ => []

/-- What a request of another agent has due. -/
def State.dueAgent (s : State) (a : AgentReq) : List Event :=
  when (s.agentHeldOut a) (.requestHoldTimeout a.id) ++ when (s.agentBackoffOver a) (.requestBackoffExpiry a.id)

/-- The shared queues in use. -/
def State.queuesInUse (s : State) : List Nat :=
  distinct ((s.teams.flatMap fun kt => kt.2.reqs.filterMap fun r => (kt.2.place? r).map fun x => x.1) ++
    s.agents.map fun a => a.q)

/-- Requests, their queues, and walks (R229 to R238, R263). -/
def State.dueRequests (s : State) : List Event :=
  ((s.walks.filter fun w => s.walkOver w).map fun w => Event.walkComplete w.id) ++
    (s.queuesInUse.flatMap fun q => when (s.nextMember q).isSome (.requestAdvance q)) ++
    (s.teams.flatMap fun kt => kt.2.reqs.flatMap fun r => s.dueReq kt.2 r) ++ (s.agents.flatMap fun a => s.dueAgent a) ++
    s.cmds.flatMap fun m => when (s.cmdHeldOut m) (.requestHoldTimeout m.id)

/-- An INVAL or RESIDE whose waits are over (R267, R269). -/
def State.duePages (s : State) : List Event :=
  match s.pgPend with
  | some p => when (s.pgOver p) (if p.op = 1 then .pgInval (BitVec.ofNat 12 p.ctx) else .pgReside (BitVec.ofNat 12 p.ctx))
  | none => []

/-- A DESTROY whose teams can end (R79). -/
def State.dueDestroy (s : State) : List Event :=
  match s.ctxPend with
  | some x => when (s.teamsOver x) (.ctxDestroy (BitVec.ofNat 12 x))
  | none => []

/-- A BEGIN or UNDEFINE whose waits are over (R355, R362). -/
def State.dueRegions (s : State) : List Event :=
  match s.mhPend with
  | some p => when (s.mhOver p) (if p.op = 2 then .mhBegin (BitVec.ofNat 12 p.ctx) p.region else .mhUndefine (BitVec.ofNat 12 p.ctx) p.region)
  | none => []

/-- A sub-array of a core that never idles is due for its forced test (R317): one whose result nothing outside gave passes (log 13). -/
def State.dueSelftest (s : State) (c : Nat) (C : Core) : List Event :=
  if C.seq.isEmpty || C.fenced then []
  else
    (List.range 16).flatMap fun n =>
      when (!C.fencedSub.contains n && decide (tget 0 n C.passes + 64000 * oneUs ≤ s.clock)) (.selftestForced c n true)

/-- The sequencer and the fills of a core (R310, R327). -/
def State.dueTiles (s : State) : List Event :=
  s.cores.flatMap fun c =>
    (match c.2.seq with
      | o :: _ => if o.startedAt.isSome then [.tileOpComplete c.1] else when c.2.canStart (.tileOpStart c.1)
      | [] => []) ++
    (c.2.fills.flatMap fun f => when (s.fillReady c.1 f) (.tileFillComplete f.id)) ++
    s.dueSelftest c.1 c.2

/-- Transfers of tile ownership (R94). They come after the engines, so that a fill that a transfer restarted runs before the next
one parks it again. -/
def State.dueTransfers (s : State) : List Event :=
  s.cores.flatMap fun c => match c.2.slice with
    | some x => when (s.transferReady c.1 x) (.tileOwnershipTransfer c.1 (BitVec.ofNat 12 x))
    | none => []

/-- The event that runs a command of a kind. -/
def Cmd.runs (m : Cmd) : List Event :=
  match m.kind with
  | 0 => [.cmdNop m.id]
  | 1 => [.cmdCpy m.id]
  | 2 => [.cmdCpy2d m.id]
  | 3 => [.cmdCpyt m.id]
  | 4 => [.cmdCpyp m.id]
  | 5 => [.cmdCpyr m.id]
  | 6 => [.cmdFill m.id]
  | _ => []

/-- Request engines and copy engines (R336 to R346). -/
def State.dueEngines (s : State) : List Event :=
  (s.cmds.flatMap fun m => if m.err.isSome || m.moved then [.cmdComplete m.id] else m.runs) ++
    s.teams.flatMap fun kt => when (kt.2.takable || (s.unchecked? kt.1).isSome) (.requestEngineTake kt.1)

/-- Teasel (R363, R364). -/
def State.dueTeasel (s : State) : List Event :=
  s.contexts.flatMap fun c => c.2.regions.flatMap fun r =>
    when (r.2.mayTake && !s.doneWaits c.1 r.2) (.teaselTake (BitVec.ofNat 12 c.1) (BitVec.ofNat 4 r.1)) ++
      when (r.2.mayRetry s.clock) (.teaselRetry (BitVec.ofNat 12 c.1) (BitVec.ofNat 4 r.1))

/-- VF accesses and node commands that wait, and reduction rounds (R231, R387, R394, R398). -/
def State.dueOutside (s : State) : List Event :=
  (s.vfWaits.map fun w => Event.vfAccess w.vf w.off w.write w.len w.data) ++
    (match s.nodePend with
      | some p => if p.op = 2 then [.nodeRevoke p.ctx p.node] else if p.op = 3 then [.nodeFence p.ctx p.node] else []
      | none => []) ++
    s.rounds.flatMap fun r => when (s.roundReady r) (.reduceRoundComplete r.id)

/-- A YW_CMD in progress (R402). -/
def State.dueYw (s : State) : List Event :=
  match s.ywPend with
  | some p =>
    let slot : BitVec 4 := BitVec.ofNat 4 p.slot
    let bank : BitVec 4 := BitVec.ofNat 4 p.bank
    if p.op = 2 then [.ywUnload p.die slot] else if p.op = 3 then [.ywDump p.die slot bank] else [.ywClear p.die slot bank]
  | none => []

/-- Windows of Yarrow and its timer (R400, R405, R407). -/
def State.yarrowTime (s : State) : List Event :=
  (s.dies.flatMap fun d =>
    let y := d.2.yarrow
    when (decide (y.window < s.clock / 1024) && !(y.progs.isEmpty && y.spent.isEmpty && y.written == 0)) (.yarrowWindow d.1)) ++
    allDies.flatMap fun d => when (decide ((s.die d).yarrow.timer < s.clock / 65536)) (.yarrowTimerEvent d)

/-- What a clock brings, whatever else its cycle does: bounds and windows that have come, and the scan rotation (R22, R205, R400, R426). -/
def State.dueOnTime (s : State) : List Event :=
  s.overdue ++ when (decide (s.capWindow < s.clock / (1000 * oneUs))) .caplimWindow ++ s.yarrowTime ++
    when s.scanDue .scanRotationStart

/-- The event of a turn that meets a record of a kind. -/
def turnEvent (q : BitVec 8) (kind : Nat) : Event :=
  match kind with
  | 1 => .queueRecordLaunch q
  | 2 => .queueRecordWait q
  | 3 => .queueRecordSignal q
  | _ => .queueRecordNop q

/-- Queues (R103, R105). -/
def State.dueQueues (s : State) : List Event :=
  (s.queues.flatMap fun q =>
    when (q.2.state == .watching && q.2.fired) (.queueWatchFire (BitVec.ofNat 8 q.1)) ++
      when (s.mayUnblock q.1) (.queueUnblock (BitVec.ofNat 8 q.1)) ++
      when (s.mayAge q.1) (.queueAgePromote (BitVec.ofNat 8 q.1))) ++
    match s.nextQueue? with
    | some q => [turnEvent (BitVec.ofNat 8 q) (s.turnKind q)]
    | none => []

/-- What a team that waits for a place has due. -/
def State.duePending (s : State) (k : Nat) : List Event :=
  match s.waiting? k with
  | none => []
  | some (T, _, K) =>
    if (s.bestCore T.ctx k K).isSome then [.teamPlace k] else when (s.mayReserve k T) (.placementReserve k)

/-- Grids and teams (R112 to R119, R181). -/
def State.dueGrids (s : State) : List Event :=
  (s.grids.flatMap fun G =>
    when (G.state == .queued && s.launchReady G && !s.frozen G) (.gridDescriptorRead (BitVec.ofNat 12 G.ctx) G.gid) ++
      when (G.state == .translating && !s.frozen G) (.gridTranslate (BitVec.ofNat 12 G.ctx) G.gid)) ++
    s.teams.flatMap fun kt =>
      match kt.2.phase with
      | .pending => s.duePending kt.1
      | .exiting => when (s.mayEnd kt.1 kt.2) (.teamDone kt.1)
      | .resident | .running | .preempted | .done => []

/-- The scan rotation (R426): a scan whose result nothing outside gave passes (log 13). -/
def State.dueScan (s : State) : List Event :=
  match s.scan.at_ with
  | none => []
  | some c =>
    match (s.core c).drainAt, (s.core c).scanAt with
    | none, _ => [.coreScan c true]
    | some _, none => when (s.drained c) (.coreScan c true) ++ when (s.drainLate c) (.scanDrainTimeout c)
    | some _, some b => when (decide (b + 48 * oneUs ≤ s.clock)) (.coreScan c true)

/-- A watch on a line of host memory is lost 4 µs after its thread parked (R297). -/
def State.hostWatchOver (s : State) (t : Thread) : Bool :=
  match t.status, t.watch with
  | .watching _ _ since, .armed line _ => inHost (line * 128) && decide (since + 4 * oneUs ≤ s.clock)
  | _, _ => false

/-- What a thread that sleeps, yields or watches has due. -/
def State.dueThread (s : State) (k i : Nat) (t : Thread) : List Event :=
  when (t.slept s.clock) (.sleepEnd k i) ++
    (match t.yielded with
      | some y => when (!y.2.isEmpty && decide (y.1 + 256 ≤ s.clock)) (.yieldTimeout k i)
      | none => []) ++
    (match s.watchCode t false with
      | some c => [if c = 1 then .mwaitTimeout k i else .mwaitWake k i]
      | none => []) ++
    when (s.hostWatchOver t) (.hostWatchExpiry k i)

/-- Threads (R89, R91, R92, R300). -/
def State.dueThreads (s : State) : List Event :=
  (s.contexts.flatMap fun c => c.2.tholdAt.map fun x => Event.tholdPropagation (BitVec.ofNat 12 c.1) x.1) ++
    s.teams.flatMap fun kt => kt.2.threads.zipIdx.flatMap fun x => s.dueThread kt.1 x.2 x.1

/-- The bin of a core that is drawn next: the one filed longest ago of those that may be drawn (R176). -/
def State.dueBin (s : State) (c : Nat) (C : Core) : List Event :=
  match (C.bins.zipIdx.filter fun b => (s.drawable c b.1).isSome).foldl (fun (best : Option (Bin × Nat)) b =>
    match best with
    | none => some b
    | some x => if b.1.oldest < x.1.oldest then some b else some x) none with
  | some b => [.binDraw c b.2]
  | none => []

/-- Waits that are over (R173, R184). -/
def State.dueWaits (s : State) : List Event :=
  s.teams.flatMap fun kt => kt.2.threads.zipIdx.flatMap fun x =>
    match x.1.status with
    | .waiting w => when (s.waitOver kt.1 x.2 kt.2 x.1 w) (.threadWaitEnd kt.1 x.2)
    | .ready | .parked | .watching _ _ _ | .sleeping _ | .exited => []

/-- Slices (R81). -/
def State.dueSlices (s : State) : List Event :=
  s.cores.flatMap fun c => when (s.maySwitch c.1) (.sliceSwitch c.1) ++ when (s.sliceOver c.1) (.sliceLengthExpiry c.1)

/-- An uncorrectable error in the frame table is one of the part (R421). -/
def State.dueFatal (s : State) : List Event :=
  when (s.regs.frmSet && s.badWords.any fun w =>
    decide (s.regs.frmTbl.toNat ≤ 8 * w) && decide (8 * w < s.regs.frmTbl.toNat + 8 * 2 ^ 24)) .partFatal

/-- Everything that a state has due. -/
def State.due (s : State) : List Event :=
  s.dueFatal ++ s.dueSlices ++ s.dueModes ++ s.dueArrivals ++ s.dueRequests ++ s.duePages ++ s.dueRegions ++ s.dueDestroy ++ s.dueTiles ++ s.dueEngines ++ s.dueTransfers ++ s.dueTeasel ++
    s.dueOutside ++ s.dueYw ++ s.dueQueues ++ s.dueGrids ++ s.dueScan ++ s.dueThreads ++
    (s.cores.flatMap fun c => s.dueBin c.1 c.2) ++ s.dueWaits

/-! ## Agents that are not threads (R229, R232) -/

/-- An agent whose accesses pass through the shared queues, with the die it stands on, its T_hold, and the address that the request in the
queues stands for. -/
structure Agent where
  owner : Nat
  die : Nat
  hold : Nat
  pa : Option Nat := none
  deriving DecidableEq, Repr

/-- T_hold of a context as the agents of a core see it. -/
def State.holdFor (s : State) (x core : Nat) : Nat := (tget (s.ctx x).thold core (s.ctx x).tholdAt).toNat

/-- A command's requests are its team's (R342). -/
def State.cmdAgent? (s : State) (id : Nat) : Option Agent :=
  match s.cmd? id with
  | none => none
  | some m => (s.team? m.team).map fun T =>
    { owner := m.team, die := dieOf T.core, hold := s.holdFor T.ctx T.core
      pa := ((m.sources ++ m.targets).head?).bind fun p => s.phys? T.core T.ctx p.1 }

/-- A command has a copy engine, or the queue picks it for one: its requests go. -/
def State.cmdGoes (s : State) (id : Nat) : Bool :=
  match s.cmd? id with
  | some m => (s.engineFor m).isSome
  | none => false

/-- A TLDA fill's requests are the request engine's, under its team's T_hold. -/
def State.fillAgent? (s : State) (id : Nat) : Option Agent :=
  match s.fill? id with
  | none => none
  | some (c, f) => (s.team? f.team).map fun T =>
    { owner := agentNumber 0 c, die := dieOf c, hold := s.holdFor T.ctx c, pa := s.phys? c T.ctx f.src.toNat }

/-- The address that a Teasel engine is about to access: of the object or the list at hand, else of the ring. -/
def State.teaselPa (s : State) (core x : Nat) (R : Region) : Option Nat :=
  s.phys? core x (match R.job with
    | some j => (match j.pair with
      | some p => p.1
      | none => j.list.toNat + 16 * j.next)
    | none => R.ring.toNat)

/-- The address of the first entry that a walk reads. -/
def State.walkPa (s : State) (cluster x va : Nat) : Option Nat :=
  let w := s.walkStart cluster x va
  w.1.head?.map fun l => w.2.1 + 8 * (va % 2 ^ 57 / 2 ^ l.shift % 2 ^ l.bits)

/-- The end of a team with which its grid writes its completion word (R102): the context and the word's address. -/
def State.lastTeam? (s : State) (k : Nat) : Option (Nat × Nat) :=
  match s.team? k with
  | none => none
  | some T =>
    match s.grid? T.ctx T.gid with
    | none => none
    | some G =>
      let others := (s.teamsOf T.ctx).any fun kt => kt.1 != k && kt.2.gid == T.gid && kt.2.phase != .done
      if G.complWord = 0 ∨ others then none else some (T.ctx, G.complWord.toNat)

/-- The agent that makes the accesses of an event: an engine, a Teasel engine, a page-table walker, the launch front end, a Yarrow
coprocessor, the host port, or a Bamlos port. One request in the queues on the way of its first access stands for them (log 78). -/
def State.agentOf (s : State) (e : Event) : Option Agent :=
  let front (x va : Nat) : Option Agent :=
    some { owner := agentNumber 3 0, die := 0, hold := (s.ctx x).thold.toNat, pa := s.front? x va false }
  let host (pa : Option Nat) : Option Agent := some { owner := agentNumber 5 0, die := 0, hold := 1024, pa := pa }
  match e with
  | .cmdCpy id | .cmdCpy2d id | .cmdCpyt id | .cmdCpyp id | .cmdCpyr id | .cmdFill id =>
    if s.cmdGoes id then s.cmdAgent? id else none
  | .tileFillComplete id => s.fillAgent? id
  | .teaselTake x r | .teaselRetry x r =>
    let R := (s.ctx x.toNat).region r
    let d := dieOf (s.teaselCore x.toNat R)
    some { owner := agentNumber 1 d, die := d, hold := (s.ctx x.toNat).thold.toNat, pa := s.teaselPa (32 * d) x.toNat R }
  | .walkComplete id =>
    (s.walks.find? fun w => w.id == id).map fun w =>
      { owner := agentNumber 2 w.cluster, die := dieOf w.core, hold := s.holdFor w.ctx w.core
        pa := s.walkPa w.cluster w.ctx (swapVa (s.ctx w.ctx).swaps w.va.toNat) }
  | .gridDescriptorRead x g => front x.toNat (((s.grid? x.toNat g).map fun G => G.kaddr.toNat).getD 0)
  | .gridTranslate x _ =>
    some { owner := agentNumber 3 0, die := 0, hold := (s.ctx x.toNat).thold.toNat, pa := some (s.ctx x.toNat).desc.ptroot.toNat }
  | .teamDone k => (s.lastTeam? k).bind fun y => front y.1 y.2
  | .cmdComplete id => (s.cmdAgent? id).map fun a => { a with pa := none }
  | .queueRecordNop q | .queueRecordLaunch q | .queueRecordWait q | .queueRecordSignal q | .queueUnblock q =>
    front (s.queue q.toNat).ctx (s.queue q.toNat).base.toNat
  | .ywDump d n _ =>
    let owner := ((tget? n.toNat (s.die d).yarrow.progs).map fun p => p.owner).getD 0
    some { owner := agentNumber 4 d, die := d, hold := s.yarrowHold owner, pa := some s.regs.ywArg.toNat }
  | .hostWrite a _ | .hostRead a _ | .hostAtomicop a _ _ _ _ => host (some a)
  | .vfAccess vf off _ _ _ =>
    host (((s.vfPieces vf off 1).head?).bind fun p => s.phys? 0 (s.vf vf).ctx.toNat p.1)
  | .nodeTrigger line => some { owner := agentNumber 6 (nodeOf (line * 128)), die := 0, hold := 1024 }
  | _ => none

/-! ## The walks of agents that are not threads (R263, R275) -/

/-- The words that a turn of a queue's front end uses: the write and read index, the record at hand, and what the record names. -/
def State.recordWords (s : State) (q : Nat) : List Nat :=
  let Q := s.queue q
  let named (b : List Byte) : List Nat := if recKind b = 1 then [field b 16 8] else if recKind b = 2 ∨ recKind b = 3 then [field b 8 8] else []
  match Q.kept with
  | some b => named b
  | none =>
    let slot := Q.base.toNat + 64 * (Q.ridx % Q.size)
    [Q.widxA.toNat, Q.ridxA.toNat, slot] ++ match s.frontRead Q.ctx slot 64 with
      | some b => named b
      | none => []

/-- The words that a Teasel engine uses next: of its ring, of the entry's list, of the pair at hand and of its slots. -/
def Region.teaselWords (R : Region) : List Nat :=
  R.ring.toNat :: match R.job with
    | none => []
    | some j => (j.list.toNat + 16 * j.next) :: match j.pair with
      | some (A, N) => [A, N] ++ (List.range 16).map fun i => R.slotAddr A i
      | none => []

/-- The walks that the accesses of an event need: the core for whose cluster they are made, the context, and the addresses. The engines and
the walks of threads make theirs in their own events. -/
def State.eventWalks (s : State) (e : Event) : Nat × Nat × List Nat :=
  match e with
  | .queueRecordNop q | .queueRecordLaunch q | .queueRecordWait q | .queueRecordSignal q | .queueUnblock q =>
    (0, (s.queue q.toNat).ctx, s.recordWords q.toNat)
  | .queueWatchFire q => (0, (s.queue q.toNat).ctx, [(s.queue q.toNat).widxA.toNat])
  | .gridDescriptorRead x g => (0, x.toNat, match s.grid? x.toNat g with
      | some G => if G.kernel.isNone then [G.kaddr.toNat] else []
      | none => [])
  | .teamDone k => match s.lastTeam? k with
    | some y => (0, y.1, [y.2])
    | none => (0, 0, [])
  | .teaselTake x r | .teaselRetry x r =>
    let R := (s.ctx x.toNat).region r
    (s.teaselCore x.toNat R, x.toNat, R.teaselWords)
  | .vfAccess vf off write len data =>
    let n := if write then data.length else len
    if s.vfOpen vf off n then (0, (s.vf vf).ctx.toNat, (s.vfPieces vf off n).map fun p => p.1) else (0, 0, [])
  | _ => (0, 0, [])

/-- The walks of an event are made: what they find is cached, and a block that they find uncorrectable is marked. -/
def State.walked (s : State) (e : Event) : State :=
  let w := s.eventWalks e
  s.engineWalks w.1 w.2.1 w.2.2

/-- The walks of an event need a slot that its cluster's walker does not have. -/
def State.noSlot (s : State) (e : Event) : Bool :=
  let w := s.eventWalks e
  decide (16 ≤ s.walksIn (clusterOf w.1)) && w.2.2.any fun va => s.engineNeeds w.1 w.2.1 va

/-- Whether the accesses of an event stand in a queue already. -/
def State.underWayBy (s : State) (e : Event) : Bool := s.agents.any fun a => a.event == e

/-- The agent whose request must be through before an event comes: none where accesses do not pass through the shared queues. -/
def State.sends? (s : State) (e : Event) : Option Agent := if s.viaQueues then s.agentOf e else none

/-- The shared queues on the way of an agent's access. -/
def State.routeOf (s : State) (a : Agent) : List Nat := s.routeFrom a.die a.pa

/-- The request of an agent enters the first queue on its way. -/
def State.send (s : State) (a : Agent) (e : Event) : State := s.enterAgent a.owner a.hold (s.routeOf a) e

/-- An event comes: at once, or, where accesses pass through the shared queues, when the request of its agent is through. -/
def State.comes (s : State) (e : Event) : Result :=
  match s.sends? e with
  | none => runEvent e (s.walked e)
  | some a => .next (s.send a e)

/-- What an agent's request that is through does; those of one owner keep their order. -/
def State.readyAgent? (s : State) : Option AgentReq :=
  s.agents.find? fun a => a.ready && ((s.agents.find? fun b => b.owner == a.owner).map fun b => b.id) == some a.id

/-- The state after an event, where the event changes anything. An agent sends no request for what has nothing to do, and waits for a slot
of its walker. -/
def State.after? (s : State) (e : Event) : Option State :=
  if s.underWayBy e || s.noSlot e then none
  else
    let u := s.walked e
    match runEvent e u with
    | .next t =>
      if t = u then none
      else
        match s.sends? e with
        | none => some t
        | some a => some (s.send a e)
    | .fault _ | .refused _ => none

/-- The next state by a request of an agent that is through, or by the first due event that changes anything. -/
def State.dueStep? (s : State) : Option State :=
  match s.readyAgent? with
  | some a =>
    let s := { s with agents := s.agents.filter fun b => b.id != a.id }
    match s.yOut? a.id with
    | some (d, o) => some (s.yWritten d o)
    | none =>
      match runEvent a.event (s.walked a.event) with
      | .next t => some t
      | .fault _ | .refused _ => none
  | none => s.due.findSome? fun e => s.after? e

end Sys2Proof.Machine
end

