-- ==== Sys2Proof/Machine/Sched.lean ====
section
/-! DEFINITION. One cycle of the part (log 1): which bundle issues (R178), the issue of one word with the split of its bundle
(R172), the words of a Yarrow run (R408), the time counters (R415), and the order of these with events from outside. -/

namespace Sys2Proof.Machine

/-- What follows a next state. -/
def andThen (r : Result) (f : State → State) : Result :=
  match r with
  | .next s => .next (f s)
  | .fault x => .fault x
  | .refused x => .refused x

/-! ## The bundle that issues (R178, R92) -/

/-- The older of two bundles, each with its team. -/
def older (x : Option (Nat × Nat)) (k b : Nat) : Option (Nat × Nat) :=
  match x with
  | none => some (k, b)
  | some y => if b < y.2 then some (k, b) else some y

/-- The bundle that has been READY longest, with its team. -/
def State.nextBundle? (s : State) : Option (Nat × Nat) :=
  s.teams.foldl (fun best kt =>
    if s.canIssue kt.2 then
      kt.2.threads.foldl (fun best t => match t.bundle with
        | some b => if t.status = .ready ∧ t.yields = false then older best kt.1 b else best
        | none => best) best
    else best) none

/-- The bundle takes the issue slot. -/
def State.pick (s : State) (k b : Nat) : State :=
  match s.team? k with
  | some T => { s with issue := { team := k, tids := T.membersOf b } }
  | none => s

/-! ## One word -/

/-- The issue is noted: the address that telemetry reports (R419), and that the team runs. -/
def State.noteIssue (s : State) : State :=
  s.modTeam s.issue.team fun T =>
    { T with
      phase := if T.phase = .resident then .running else T.phase
      threads := T.threads.mapIdx fun i t =>
        if s.issue.tids.contains i then { t with lastPc := s.trapPc t, fetching := false } else t }

/-- The instruction acts in the lanes that pass the gate. A lane that traps STACK_LIMIT has no part in it, nor in the leader's value of SCM
(DEDUCED, log 83). -/
def State.gated (s : State) (i : Instr) : Result :=
  match s.gate (Instr.uses i) with
  | (g, pass, limit) =>
    let g := { g with issue := { s.issue with tids := pass, stage := if pass.isEmpty && limit.isEmpty then .fetching else .issued } }
    andThen (if pass.isEmpty then .next g else exec i g) fun t =>
      limit.foldl (fun t j => t.deliver s.issue.team j 0x0C 0 0) (g.retag t (Instr.uses i))

/-- Threads of the group that wait to issue their word again start from its first LIT; one whose request waits for its check has issued
its word (R61, R240). -/
def State.retryGroup (old s : State) (pc : DWord) : State :=
  if old.lits.payloads.isEmpty then s
  else old.issue.tids.foldl (fun s i => s.modThread old.issue.team i fun (t : Thread) => match t.status with
    | .waiting w => match w with
      | .check _ => t
      | .operand _ _ _ | .window _ | .slab | .entry _ _ _ | .announce | .kick | .walker _ | .walk _ | .tile _ | .transfer | .sequencer
      | .barrier _ _ | .phase _ _ _ | .counters _ _ _ _ | .completion _ _ | .grid _ | .engine _ | .fence _ _ _ _ _ _ _ | .flags _ _
      | .older _ => if t.pc = pc then { t with pc := old.lits.pc0 } else t
    | .ready | .parked | .watching _ _ _ | .sleeping _ | .exited => t) s

/-- A thread of bundle b that is still READY at an address joins bundle n. -/
def Thread.rebundle (b n : Nat) (pc : DWord) (t : Thread) : Thread :=
  if t.status = .ready ∧ t.bundle = some b ∧ t.pc = pc then { t with bundle := some n } else t

/-- The threads of a bundle that are still READY at an address form a new bundle. -/
def State.rebundle (s : State) (k b : Nat) (pc : DWord) : State :=
  { s.modTeam k fun T => { T with threads := T.threads.map (Thread.rebundle b s.fresh pc) } with fresh := s.fresh + 1 }

/-- A bundle that has issued splits by next PC (R172). -/
def State.split (s : State) (k b : Nat) : State :=
  match s.team? k with
  | none => s
  | some T =>
    let pcs := T.threads.foldl (fun (acc : List DWord) t =>
      if t.status = .ready ∧ t.bundle = some b ∧ acc.contains t.pc = false then acc ++ [t.pc] else acc) []
    pcs.foldl (fun s pc => s.rebundle k b pc) s

/-- No thread yields to a bundle that has issued (R92). -/
def Thread.letGo (b : Nat) (t : Thread) : Thread :=
  { t with yielded := t.yielded.map fun y => (y.1, y.2.filter fun x => x != b) }
def State.letGo (s : State) (b : Nat) : State :=
  { s with teams := s.teams.map fun (kt : Nat × Team) => (kt.1, { kt.2 with threads := kt.2.threads.map (Thread.letGo b) }) }

/-- The thread issues its instruction again after a further walk, or after a transfer (R94): the walks made for it still serve it. -/
def Status.keepsWalks : Status → Bool
  | .waiting w => match w with
    | .transfer | .walk _ | .walker _ => true
    | .operand _ _ _ | .window _ | .slab | .entry _ _ _ | .announce | .kick | .check _ | .tile _ | .sequencer | .barrier _ _ | .phase _ _ _
    | .counters _ _ _ _ | .completion _ _ | .grid _ | .engine _ | .fence _ _ _ _ _ _ _ | .flags _ _ | .older _ => false
  | .ready | .parked | .watching _ _ _ | .sleeping _ | .exited => false

/-- The walks that an issuing thread has waited for served this issue alone (R240). -/
def State.forgetWalks (s : State) (k : Nat) : State :=
  s.modTeam k fun T =>
    { T with threads := T.threads.mapIdx fun i t =>
        if s.issue.tids.contains i && !t.status.keepsWalks then { t with walked := [] } else t }

/-- The end of an issue. -/
def State.endIssue (k b : Nat) (s : State) : State := (({ s with lits := {} }.forgetWalks k).split k b).letGo b

def isLit : Instr → Bool
  | .lit _ => true
  | _ => false

/-- The word of the issuing bundle: its effect, and the end of the issue unless it was a LIT. -/
def State.runWord (s : State) (w : Word) (pc : DWord) (b : Nat) : Result :=
  match decodeAfter s.lits.payloads.length w with
  | .error c =>
    andThen (execIllegalOpcode w c { s with issue := { s.issue with stage := .issued } }) (State.endIssue s.issue.team b)
  | .ok i =>
    andThen (s.gated i) fun t =>
      if isLit i then t else (s.retryGroup t pc).endIssue s.issue.team b

/-- The issuing bundle fetches its next word and issues it. -/
def State.issueWord (s : State) : Result :=
  match s.issue.tids.head?.bind fun i => s.thread? s.issue.team i with
  | none => .next { s with lits := {} }
  | some t =>
    let b := t.bundle.getD 0
    let s := { s with issue := { s.issue with stage := .fetching } }.noteIssue
    match s.fetch s.issue.team s.issue.tids with
    | (s, none) => .next (s.endIssue s.issue.team b)
    | (s, some w) => s.runWord w t.pc b

/-- A bundle takes the issue slot, unless it is withheld. -/
def State.issueBundle (s : State) (k b : Nat) : Result :=
  match s.team? k with
  | none => .next s
  | some T =>
    let s1 := s.countDemand T.core T.ctx
    if s.withheld T then .next (s1.withhold T.core (s.capped T.core T.ctx)) else (s1.pick k b).issueWord

/-! ## A Yarrow word (R408) -/

/-- The word at hand of the run in progress. LOAD has checked every word (R411). -/
def State.filterWord (s : State) (a : YAt) : Result :=
  match decodeFilter (a.p.words.getD a.r.pc 0) with
  | some i => exec i s
  | none => execYend s

/-- What a meaning leaves, where it answers a next state. -/
def afterOr (s : State) (r : Result) : State :=
  match r with
  | .next t => t
  | .fault _ | .refused _ => s

/-- One cycle of the coprocessor of a die (R400): the word at hand of its run; with no run in progress, the event at the head of its
FIFO starts one. -/
def State.filterTurn (s : State) (d : Nat) : State :=
  let s := match { s with filterDie := d }.yAt? with
    | some a => if a.die = d then { afterOr { s with filterDie := d } ({ s with filterDie := d }.filterWord a) with filterDie := 0 } else s
    | none => s
  if (s.die d).yarrow.run.isNone && !(s.die d).yarrow.fifo.isEmpty then afterOr s (execYarrowRun d s) else s

/-- The coprocessors of all dies, beside whatever else the cycle does (R414). -/
def State.filters (s : State) : State := (s.dies.map fun d => d.1).foldl State.filterTurn s

/-! ## Time counters (R415) -/

def Wait.isSync : Wait → Bool
  | .barrier _ _ | .phase _ _ _ | .counters _ _ _ _ | .completion _ _ | .grid _ | .engine _ | .fence _ _ _ _ _ _ _ => true
  | .operand _ _ _ | .window _ | .slab | .entry _ _ _ | .announce | .kick | .walker _ | .walk _ | .check _ | .tile _ | .transfer
  | .sequencer | .flags _ _ | .older _ => false
def Wait.isOperand : Wait → Bool
  | .operand _ _ _ => true
  | .barrier _ _ | .phase _ _ _ | .counters _ _ _ _ | .completion _ _ | .grid _ | .engine _ | .fence _ _ _ _ _ _ _ | .window _
  | .slab | .entry _ _ _ | .announce | .kick | .walker _ | .walk _ | .check _ | .tile _ | .transfer | .sequencer | .flags _ _
  | .older _ => false
def Wait.isTile : Wait → Bool
  | .tile _ => true
  | .barrier _ _ | .phase _ _ _ | .counters _ _ _ _ | .completion _ _ | .grid _ | .engine _ | .fence _ _ _ _ _ _ _ | .window _
  | .slab | .entry _ _ _ | .announce | .kick | .walker _ | .walk _ | .check _ | .operand _ _ _ | .transfer | .sequencer | .flags _ _
  | .older _ => false

/-- Some thread waits in a way. -/
def Team.waits (T : Team) (p : Wait → Bool) : Bool :=
  T.threads.any fun t => match t.status with
    | .waiting w => p w
    | .ready | .parked | .watching _ _ _ | .sleeping _ | .exited => false
def Team.anyReady (T : Team) : Bool := T.threads.any fun t => t.status == .ready && t.bundle.isSome
def Team.anyParked (T : Team) : Bool :=
  T.threads.any fun t => match t.status with
    | .parked | .watching _ _ _ => true
    | .ready | .waiting _ | .sleeping _ | .exited => false
def Team.anyAsleep (T : Team) : Bool :=
  T.threads.any fun t => match t.status with
    | .sleeping _ => true
    | .ready | .waiting _ | .parked | .watching _ _ _ | .exited => false

/-- Slabs held and spilled, thread by thread. -/
def Team.slabMap (T : Team) : List (List Nat × List Nat) := T.threads.map fun t => (t.slabs.map fun x => x.1, t.spilled)

/-- Whether each counter's condition held for team k in the cycle that led from one state to another. -/
def counted (old new : State) (k : Nat) (T N : Team) (issued : Bool) : List Bool :=
  let moved := T.slabOps != N.slabOps || T.slabMap != N.slabMap
  let slice := (old.core T.core).slice == some T.ctx
  let stalled := slice && T.anyReady && !issued
  [ true, slice, issued, stalled, stalled && decide ((old.core T.core).held < (new.core T.core).held),
    T.waits Wait.isOperand && !issued, T.waits Wait.isSync, T.waits Wait.isTile, T.anyParked, T.anyAsleep,
    T.reqs.any (fun r => r.stage.isParked), T.reqs.any (fun r => (T.place? r).isSome), moved,
    (old.core T.core).seq.any (fun o => o.team == k && o.startedAt.isSome), old.cmds.any (fun m => m.team == k),
    (old.core T.core).accown != (new.core T.core).accown ]

/-- A team's time counters after a cycle. -/
def Team.count (T : Team) (l : List Bool) : Team :=
  { T with timers := (List.finRange 16).foldl (fun v n => if l.getD n.val false then v.set n.val (v[n] + 1) else v) T.timers }

/-- The team whose instruction issued in this cycle. -/
def State.issuer (s : State) : Option Nat := if s.issue.stage = .issued then some s.issue.team else none

/-- The end of a cycle: the clock and the time counters of every team that held a core. -/
def countCycle (old new : State) : State :=
  let issued := new.issuer
  { new with
    clock := old.clock + 1
    issue := { new.issue with stage := .idle }
    teams := new.teams.map fun (kt : Nat × Team) =>
      (kt.1, match old.team? kt.1 with
        | some T => if T.phase.isResident then kt.2.count (counted old new kt.1 T kt.2 (issued == some kt.1)) else kt.2
        | none => kt.2) }

/-- The end of a cycle, and of the windows of 1 µs in which withheld issue is told. -/
def tick (old new : State) : State :=
  let s := countCycle old new
  if (old.clock + 1) % oneUs = 0 then s.endCapUs else s

/-! ## The cycle -/

def isPartReset : Event → Bool
  | .partReset _ _ => true
  | _ => false

/-- What the host port still answers after a part-class error (R434): accesses of memory, configuration requests, and the indices with
which the host follows the SUSPECT ring and the dump ring. -/
def portAnswers : Event → Bool
  | .hostRead _ _ | .hostWrite _ _ | .hostAtomicop _ _ _ _ _ | .vfAccess _ _ _ _ _ | .hostConfigRequest _ => true
  | .regWrite _ off _ => off == 0x9030 || off == 0x9050
  | _ => false

/-- A cycle of a part that has met a part-class error, or whose bring-up failed: the host port stays up, and nothing else happens until
part reset (R432 to R434). After a failed bring-up every access but a configuration request is answered as Unsupported Request; what else
comes from outside has no effect. -/
def State.stopped (s : State) : State :=
  match s.agenda with
  | [] => s
  | e :: r =>
    let t := { s with agenda := r }
    match runEvent e t with
    | .next u => if portAnswers e ∨ (s.regs.bootReady = false ∧ u = t.emit .unsupported) then u else t
    | .fault _ | .refused _ => t

/-- With nothing from outside: bring-up, else the first due event, else the oldest READY bundle. -/
def State.workInside (s : State) : Result :=
  if s.regs.bootReady = false then execBringUp s
  else
    match s.dueStep? with
    | some t => .next t
    | none =>
      match s.nextBundle? with
      | some (k, b) => s.issueBundle k b
      | none => .next s

/-- What happens in a cycle: a group of LITs goes on, then what comes from outside, then the part's own work. -/
def State.work (s : State) : Result :=
  if s.lits.payloads.isEmpty = false then s.issueWord
  else
    match s.agenda with
    | e :: r => { s with agenda := r }.comes e
    | [] => s.workInside

/-- What happens at its own clock, beside whatever else the cycle does: stores whose bound of eventual visibility has come (R205), the
windows of the power cap (R22) and of Yarrow, its timer (R400, R405, R407), and the scan rotation (R426). -/
def State.onTime (s : State) : State := s.dueOnTime.foldl (fun s e => afterOr s (runEvent e s)) s

/-- Samplers whose interval ends take their samples: they see what has issued in the cycle (R419). -/
def State.sampled (s : State) : State :=
  (s.cores.map fun c => c.1).foldl (fun s c => afterOr s (execSamplerTick c s)) s

/-- A cycle of a part that is up: what its clock brings, its work, its samplers, the coprocessors of its dies, and the end of the cycle. -/
def State.upCycle (s : State) : Result :=
  andThen s.onTime.work fun t => tick s t.sampled.filters

/-- Bring-up has failed: READY stays 0, and the part has halted at STEP (R433). -/
def State.bootFailed (s : State) : Bool := !s.regs.bootReady && s.regs.bootFail != 0

/-- Part reset comes at any time. A part whose bring-up failed has halted once nothing from outside is left to answer. Bring-up takes no
cycle of sr.clock. -/
def State.cycle (s : State) : Result :=
  match s.agenda.head?.filter isPartReset with
  | some e => runEvent e { s with agenda := s.agenda.tail }
  | none =>
    if s.bootFailed then (if s.agenda.isEmpty then .fault .bootHalted else .next s.stopped)
    else if s.regs.bootFatal then .next { s.stopped with clock := s.clock + 1 }
    else if s.regs.bootReady then s.upCycle
    else s.work

end Sys2Proof.Machine
end

