-- ==== Sys2Proof/Machine/Step.lean ====
section
/-! DEFINITION. One step of the part, and the state that fetches a given instruction next. -/

namespace Sys2Proof.Machine

/-- One step: one cycle of the part (log 1, log 2). -/
def step (s : State) : Host.Outcome State Fault Refusal := s.cycle

/-! ## A given instruction next (log 8)

A program of the cores comes to run through a context, a queue, a launch record and a placed team; a filter program through LOAD.
What follows stands for all of that: context 1 with one grid of one team of one thread on core 0, whose slice runs, and one
executable page; or one filter program whose run is open. -/

/-- The page that holds the word: virtual and physical base. -/
def codePage : Nat := 65536

/-- Its cached translation: RESIDENT, readable, writable, executable. -/
def codeEntry : TlbEntry := { ctx := 1, va := codePage, size := 65536, pa := codePage, pte := 0x100000000001001F }

def fetchKernel : Kernel :=
  { code := BitVec.ofNat 64 codePage, regs := 512, tx := 1, ty := 1, tz := 1, stash := 0, nacc := 4, nabuf := 4, nbslot := 4
    ringoff := 0, ringlen := 0, fThold := false, fTiles := true, fMirror := false, thold := 0, argsize := 0, stamps := 0
    scratch := 0, corepin := 0xFFFF, exts := [] }

def fetchGrid : Grid :=
  { ctx := 1, gid := 1, depth := 0, parent := none, queue := none, state := .running, x := 1, y := 1, z := 1
    kaddr := 0, kernel := some fetchKernel, args := 0, nextTeam := 1 }

/-- The thread at the word, in the bundle that has waited longest. -/
def fetchThread : Thread :=
  { pc := BitVec.ofNat 64 codePage, trapvec := 0, bundle := some 0, slabs := [(0, true)] }

def fetchTeam : Team :=
  { ctx := 1, gid := 1, index := 0, size := 1, phase := .running, accs := 4, abufs := 4, bslots := 4, slabs := 32
    threads := [fetchThread] }

/-- The part with bring-up over. -/
def State.up (s : State) : State := if s.regs.bootReady then s else s.bringUp 0 []

/-- The word stands where the oldest bundle fetches. -/
def State.withCoreWord (s : State) (w : Word) : State :=
  let s := s.up
  { (s.modCtx 1 fun C => { C with state := .running, desc := { C.desc with priv := true, tiles := true, slice := 10000 } }).modCore 0
      fun C => { C with slice := some 1, sliceAt := s.clock, accown := 1, tlb := [codeEntry] } with
    grids := [fetchGrid], teams := tput s.fresh fetchTeam s.teams, fresh := s.fresh + 1
    mem := { s.mem with cells := putBytes codePage (toBytes 4 w.toNat) s.mem.cells }, lits := {}, agenda := [] }

/-- The word is the one at hand of a filter run on die 0, whose program has every bank. -/
def State.withFilterWord (s : State) (w : Word) : State :=
  let s := s.up
  let e : YEvent := { source := 0, ctx := 0, core := noCore, clock := s.clock }
  let p : YProg := { owner := 0, words := [w], ringlog2 := 0, hbins := [16, 16, 16, 16], nsketch := 2, vector := 0xFFFF
                     sources := 0, ring := 0 }
  { s.modDie 0 fun D => { D with yarrow := { D.yarrow with
      progs := tput 0 p D.yarrow.progs, run := some { slot := 0, pc := 0, event := e, regs := startRegs p e } } } with
    lits := {}, agenda := [] }

/-- A core word is placed for a core, a word of the filter set for a Yarrow run (log 9). -/
def State.withFetchWord (s : State) (_nbits w : Nat) : State :=
  let v : Word := BitVec.ofNat 32 w
  match decodeWord v with
  | .ok _ => s.withCoreWord v
  | .error _ => if (decodeFilter v).isSome then s.withFilterWord v else s.withCoreWord v

end Sys2Proof.Machine
end

