-- ==== Sys2Proof/Safety.lean ====
section
/-! DEFINITION. What claims say of states and steps, in the terms that they share: runs, the model's own invariants, what a
lane writes, and what an instruction leaves alone. -/

namespace Sys2Proof.Machine

/-! ## Runs -/

/-- The part does no further work of its own: bring-up has failed, or a part-class error has been met (R433, R434). -/
def State.halted (s : State) : Bool := s.bootFailed || s.regs.bootFatal

/-- A run of n steps. -/
def State.runFor : Nat → State → Option State
  | 0, s => some s
  | n + 1, s =>
    match step s with
    | .next t => t.runFor n
    | .fault _ | .refused _ => none

/-! ## What the issuing bundle does (R69, R70) -/

/-- From s to t nothing has changed but threads of the issuing bundle. -/
structure OnlyLanes (s t : State) : Prop where
  rest : t = { s with teams := t.teams }
  others : ∀ k, k ≠ s.issue.team → t.team? k = s.team? k
  team : ∀ T, s.team? s.issue.team = some T →
    ∃ l, l.length = T.threads.length ∧ t.team? s.issue.team = some { T with threads := l }
  noTeam : s.team? s.issue.team = none → t.team? s.issue.team = none
  idle : ∀ j, j ∉ s.issue.tids → t.thread? s.issue.team j = s.thread? s.issue.team j

/-- The instruction answers a next state in which each thread of the issuing bundle is as R says of it and of what it was, and
nothing else has changed. -/
def Lanes (i : Instr) (s : State) (R : Nat → Thread → Thread → Prop) : Prop :=
  ∃ t, exec i s = .next t ∧ OnlyLanes s t ∧
    ∀ j, j ∈ s.issue.tids → ∀ T, s.thread? s.issue.team j = some T →
      ∃ T', t.thread? s.issue.team j = some T' ∧ R j T T'

/-- A thread as it was but for its program counter and register stack. -/
def Thread.sameButRegs (T T' : Thread) : Prop :=
  T' = { T with pc := T'.pc, stack := T'.stack, pendRegs := T'.pendRegs, slabs := T'.slabs, parity := T'.parity }

/-- The thread has gone on to the next word, and of all its registers g(d) alone has changed, to v. -/
def WritesReg (d : BitVec 7) (v : Word) (T T' : Thread) : Prop :=
  T'.g d = v ∧ (∀ p, p ≠ T.pos d → T'.at p = T.at p) ∧ T'.pc = T.pc + 4 ∧ T.sameButRegs T'

/-- The same of the pair gx(d). -/
def WritesPair (d : BitVec 7) (v : DWord) (T T' : Thread) : Prop :=
  T'.gx d = v ∧ (∀ p, p ≠ T.pos d → p ≠ T.pos d + 1 → T'.at p = T.at p) ∧ T'.pc = T.pc + 4 ∧ T.sameButRegs T'

/-- The same of the predicate p. -/
def WritesPred (p : BitVec 3) (v : Bool) (T T' : Thread) : Prop :=
  T'.p p = v ∧ (∀ q, q ≠ p → T'.p q = T.p q) ∧ T'.pc = T.pc + 4 ∧
    T' = { T with pc := T'.pc, preds := T'.preds, pendPreds := T'.pendPreds }

/-- Consecutive registers from g(d) on change, to the words given, and flags are ORed into sr.fpflags. -/
def WritesWords (d : BitVec 7) (v : List Word) (f : Flags) (T T' : Thread) : Prop :=
  (∀ n, n < v.length → T'.at (T.pos d + n) = v.getD n 0) ∧
    (∀ p, (p < T.pos d ∨ T.pos d + v.length ≤ p) → T'.at p = T.at p) ∧ T'.fpflags = T.fpflags ||| f ∧ T'.pc = T.pc + 4 ∧
    ({ T with fpflags := T'.fpflags } : Thread).sameButRegs T'

/-- A floating-point result: g(d) changes to its value, and its flags are ORed into sr.fpflags (R31). -/
def WritesFloat (d : BitVec 7) (r : FRes) (T T' : Thread) : Prop := WritesWords d [r.1] r.2 T T'

/-- The thread has jumped, and is as it was but for that. -/
def JumpsTo (pc : DWord) (T T' : Thread) : Prop := T' = { T with pc := pc }

/-- An immediate of n bits after its LIT prefix (R59): signed from the top bit of the first payload; without a LIT, extended as
its format says (R55, R64). -/
def widened {n : Nat} (l : List (BitVec 25)) (f : BitVec n) (signed : Bool) : DWord :=
  match l with
  | [] => if signed then f.signExtend 64 else f.setWidth 64
  | [p] => (p ++ f).signExtend 64
  | p :: q :: _ => (p ++ q ++ f).signExtend 64

/-- The immediate that the issuing instruction sees, at 64 bits and at 32. -/
def State.immX (s : State) {n : Nat} (f : BitVec n) : DWord := widened s.lits.payloads f true
def State.immW (s : State) {n : Nat} (f : BitVec n) (signed : Bool) : Word := (widened s.lits.payloads f signed).setWidth 32

/-- The link word below the window (R145): its slide and its return address. -/
def Thread.linkWord (t : Thread) : DWord := t.at (t.wb - 1) ++ t.at (t.wb - 2)
def Thread.linkSlide (t : Thread) : Nat := (t.linkWord >>> 57).toNat
def Thread.linkPc (t : Thread) : DWord := (t.linkWord.setWidth 57).signExtend 64

/-- A thread that has called (R145, R146): its window has moved up by the slide, the link word stands below it, and no other
register has changed. -/
def Called (slide : Nat) (target : DWord) (T T' : Thread) : Prop :=
  T'.wb = T.wb + slide ∧ T'.pc = target ∧ T'.linkWord = (BitVec.ofNat 64 slide <<< 57) ||| ((T.pc + 4).setWidth 57).setWidth 64 ∧
    (∀ p, p ≠ T.wb + slide - 2 → p ≠ T.wb + slide - 1 → T'.at p = T.at p) ∧
    ({ T with wb := T'.wb } : Thread).sameButRegs T'

/-- A thread whose window base has moved (R125, R128): what lies above a lower window reads zero. Where a write to such a position is
still in flight, the thread waits for it instead. -/
def Rebased (w : Nat) (pc : DWord) (T T' : Thread) : Prop :=
  if T.lateWrite w then T' = T.wait (.window (w + 127))
  else T'.wb = w ∧ T'.pc = pc ∧ (∀ p, T'.at p = if T.wb ≤ w ∨ p ≤ w + 127 then T.at p else 0) ∧
    T' = { T with wb := T'.wb, pc := T'.pc, stack := T'.stack }

/-- cmp(cond, x, y) (R141), on the values the bits stand for. -/
def ordered {w : Nat} (c : Cond) (x y : BitVec w) : Bool :=
  match c with
  | .eq => decide (x.toInt = y.toInt)
  | .ne => decide (x.toInt ≠ y.toInt)
  | .lt => decide (x.toInt < y.toInt)
  | .le => decide (x.toInt ≤ y.toInt)
  | .gt => decide (y.toInt < x.toInt)
  | .ge => decide (y.toInt ≤ x.toInt)
  | .ltu => decide (x.toNat < y.toNat)
  | .leu => decide (x.toNat ≤ y.toNat)
  | .gtu => decide (y.toNat < x.toNat)
  | .geu => decide (y.toNat ≤ x.toNat)

/-- The condition of YBR (R409), on the values the bits stand for. -/
def branches (c : YCond) (x y : Word) : Bool :=
  match c with
  | .eq => decide (x.toInt = y.toInt)
  | .ne => decide (x.toInt ≠ y.toInt)
  | .ltu => decide (x.toNat < y.toNat)
  | .geu => decide (y.toNat ≤ x.toNat)
  | .lt => decide (x.toInt < y.toInt)
  | .ge => decide (y.toInt ≤ x.toInt)
  | .al => true

/-- Thread i alone is the issuing bundle: thread t of team T. -/
structure Alone (s : State) (i : Nat) (T : Team) (t : Thread) : Prop where
  tids : s.issue.tids = [i]
  team : s.team? s.issue.team = some T
  thread : T.threads[i]? = some t
  live : t.status ≠ .exited

/-- The least lane number among the issuing threads that meet a test, 32 where none does (R191). -/
def State.leastLane (s : State) (P : Thread → Bool) : Nat :=
  (((s.lanes.filter fun x => P x.2).map fun x => laneOf x.1).min?).getD 32

/-- A mask of lanes: bit k stands for lane k of the issuing threads that meet a test (R195). -/
def State.masks (s : State) (v : Word) (P : Thread → Bool) : Prop :=
  ∀ k, k < 32 → (v.getLsbD k = true ↔ ∃ x ∈ s.lanes, laneOf x.1 = k ∧ P x.2 = true)

/-- What SHFL reads from a source lane: the register there, the reader's own where no issuing thread holds that lane (R196). -/
def State.fromLane (s : State) (T : Thread) (a : BitVec 7) (source : Option Nat) : Word :=
  (((source.bind fun l => s.lanes.find? fun x => laneOf x.1 == l).map fun x => x.2.g a)).getD (T.g a)

/-! ## Traps (R87) -/

/-- Only the Yarrow units of the dies differ: taps may have raised events (R405, R414). -/
def SameDies (s t : State) : Prop := ∀ n, t.die n = { s.die n with yarrow := (t.die n).yarrow }

/-- A thread as it enters its handler (R87 step 2): the trap registers written, HANDLER set, at sr.trapvec. -/
def Thread.inHandler (t : Thread) (cause : BitVec 8) (code : BitVec 18) (pc addr : DWord) : Thread :=
  { t with trapcause := (code.setWidth 32 <<< 8) ||| cause.setWidth 32, trappc := pc, trapaddr := addr, handler := true
           pc := t.trapvec, status := .ready }

/-- The instruction traps: of the whole part only thread i has changed, which enters its handler, and Yarrow may have seen it. -/
def EntersHandler (i : Instr) (s : State) (j : Nat) (t : Thread) (cause : BitVec 8) (code : BitVec 18) (addr : DWord) : Prop :=
  ∃ u, exec i s = .next u ∧ u = { s with teams := u.teams, dies := u.dies } ∧ SameDies s u ∧
    (∀ k, k ≠ s.issue.team → u.team? k = s.team? k) ∧
    ∀ n, u.thread? s.issue.team n =
      if n = j then some (t.inHandler cause code (if s.lits.payloads = [] then t.pc else s.lits.pc0) addr)
      else s.thread? s.issue.team n

/-! ## Memory -/

/-- The byte at an address as a core's die sees it (R199). -/
def State.byteFor (s : State) (core a : Nat) : Byte := s.mem.byte (dieOf core) a

/-- The address of an access with an immediate offset in units of its width (R65). -/
def State.addressOf (s : State) (t : Thread) (a : BitVec 7) (imm : BitVec 11) (n : Nat) : DWord :=
  t.gx a + s.immX imm * BitVec.ofNat 64 n

/-- An access of n bytes at va passes its check (R240, R241) through a cached translation of a RESIDENT page in HBM that permits it,
and pa is its physical address; its bytes are good. -/
structure Reaches (s : State) (T : Team) (va : DWord) (n : Nat) (need : Need) (pa : Nat) : Prop where
  aligned : va.toNat % n = 0
  canon : canonical va = true
  window : inWindow va = false
  backing : (s.ctx T.ctx).desc.inBacking va.toNat = false
  extent : s.extent? T va.toNat need.writes = none
  entry : ∃ e, s.cached? T.core T.ctx (swapVa (s.ctx T.ctx).swaps va.toNat) = some e ∧ need.allowed e.pte = true ∧
    pteSt e.pte = 1 ∧ e.phys (s.ctx T.ctx).swaps va.toNat = pa
  hbm : inHbm pa = true
  good : s.badBlock? pa n = none
  line : (s.badWords.any fun w => w / 16 == lineOf pa) = false

/-- The page of an access that has passed its check so far is ABSENT, as a walk finds that is made in the same step (R240, R242, R243). -/
structure FindsAbsent (s : State) (T : Team) (va : DWord) (n : Nat) (need : Need) (e : TlbEntry) : Prop where
  aligned : va.toNat % n = 0
  canon : canonical va = true
  window : inWindow va = false
  backing : (s.ctx T.ctx).desc.inBacking va.toNat = false
  extent : s.extent? T va.toNat need.writes = none
  uncached : s.cached? T.core T.ctx (swapVa (s.ctx T.ctx).swaps va.toNat) = none
  quick : s.slowWalk T va = false
  walked : s.walkIn (clusterOf T.core) T.ctx (swapVa (s.ctx T.ctx).swaps va.toNat) = .leaf e
  allowed : need.allowed e.pte = true
  absent : pteSt e.pte = 0

/-- The page of an access that passes its check is MIGRATING, in HBM, its translation cached (R231, R274). -/
structure FindsMoving (s : State) (T : Team) (va : DWord) (n : Nat) (need : Need) : Prop where
  aligned : va.toNat % n = 0
  canon : canonical va = true
  window : inWindow va = false
  backing : (s.ctx T.ctx).desc.inBacking va.toNat = false
  extent : s.extent? T va.toNat need.writes = none
  entry : ∃ e, s.cached? T.core T.ctx (swapVa (s.ctx T.ctx).swaps va.toNat) = some e ∧ need.allowed e.pte = true ∧
    pteSt e.pte = 2 ∧ inHbm (e.phys (s.ctx T.ctx).swaps va.toNat) = true

/-- A memory instruction of a thread: its address, its width in bytes, and what it needs of its page (R240). -/
structure AccessForm where
  instr : Instr
  va : DWord
  n : Nat
  need : Need

/-- LD, ST, LDM, STM, MWATCH, ATOM and RED of every width and scope, and STFL, of whose addresses the first is checked first (R253). -/
def State.accessForms (s : State) (t : Thread) (d a b : BitVec 7) (imm : BitVec 11) (op : AOp) (sem : Sem) (sc : Scope) (wd : Width)
    (hint : BitVec 3) (wide : Bool) : List AccessForm :=
  let n := if op = .addX then 8 else 4
  [⟨.ldB d a imm, s.addressOf t a imm 1, 1, .load⟩, ⟨.ldBs d a imm, s.addressOf t a imm 1, 1, .load⟩,
    ⟨.ldH d a imm, s.addressOf t a imm 2, 2, .load⟩, ⟨.ldHs d a imm, s.addressOf t a imm 2, 2, .load⟩,
    ⟨.ldW d a imm, s.addressOf t a imm 4, 4, .load⟩, ⟨.ldX d a imm, s.addressOf t a imm 8, 8, .load⟩,
    ⟨.ldQ d a imm, s.addressOf t a imm 16, 16, .load⟩, ⟨.ldm d a sem sc wd hint, t.gx a, widthBytes wd, .load⟩,
    ⟨.mwatch d a, t.gx a, 4, .load⟩,
    ⟨.stB d a imm, s.addressOf t a imm 1, 1, .store⟩, ⟨.stH d a imm, s.addressOf t a imm 2, 2, .store⟩,
    ⟨.stW d a imm, s.addressOf t a imm 4, 4, .store⟩, ⟨.stX d a imm, s.addressOf t a imm 8, 8, .store⟩,
    ⟨.stQ d a imm, s.addressOf t a imm 16, 16, .store⟩, ⟨.stm d a sem sc wd hint, t.gx a, widthBytes wd, .store⟩,
    ⟨.stfl d a b wide sc, t.gx a, if wide then 8 else 4, .store⟩,
    ⟨.atomT d a b op, t.gx a, n, .atomic⟩, ⟨.atomC d a b op, t.gx a, n, .atomic⟩, ⟨.atomD d a b op, t.gx a, n, .atomic⟩,
    ⟨.atomP d a b op, t.gx a, n, .atomic⟩, ⟨.atomS d a b op, t.gx a, n, .atomic⟩,
    ⟨.redD a b op, t.gx a, n, .red⟩, ⟨.redP a b op, t.gx a, n, .red⟩, ⟨.redS a b op, t.gx a, n, .red⟩]

/-- The thread has no access in progress, its team's partition and its class counters have room for one (R226, R228), the requests
of its team bear numbers already given out, and accesses perform where nothing holds them up (log 3). -/
structure Free (s : State) (j : Nat) (T : Team) (t : Thread) : Prop where
  alone : Alone s j T t
  older : T.reqsOf j = []
  room : T.entries < T.size
  loads : t.cntLd < 30
  stores : t.cntSt < 30
  numbers : ∀ q ∈ T.reqs, q.id < s.fresh ∧ q.group < s.fresh
  direct : s.viaQueues = false

/-- No store on its way touches the bytes, and nothing watches their line: a store there is seen by its die alone until it arrives
elsewhere (R199, R204). -/
structure Calm (s : State) (pa n : Nat) : Prop where
  settled : ∀ f ∈ s.mem.flights, f.touches pa n = false
  watched : s.isWatched (lineOf pa) = false

/-- Nothing has changed in any team but the issuing one, and of it only thread j and the lines its stash holds. -/
def OnlyThread (s t : State) (j : Nat) (T : Team) (t' : Thread) : Prop :=
  (∀ k, k ≠ s.issue.team → t.team? k = s.team? k) ∧
    ∃ l, t.team? s.issue.team = some { T with lines := l, threads := T.threads.set j t' }

/-- The thread enters its handler; besides, the step has marked a block of the page tables as poisoned and announced it (R275). -/
def EntersMarked (i : Instr) (s : State) (j : Nat) (t : Thread) (block : Nat) (addr : DWord) : Prop :=
  ∃ u t', exec i s = .next u ∧ u.thread? s.issue.team j = some t' ∧
    t' = { t.inHandler 0x12 0 (if s.lits.payloads = [] then t.pc else s.lits.pc0) addr with watch := t'.watch, trigBy := t'.trigBy } ∧
    (inHbm (block * 4096) = true → block ∈ u.poison ∧ u.regs.pgPoison = true)

/-- The access joins the table as the thread's last request, at va, in a stage; the thread goes on past its instruction, as R says of it. -/
def Joins (i : Instr) (s : State) (j : Nat) (T : Team) (t : Thread) (va : DWord) (st : Stage) (R : State → Thread → Prop) : Prop :=
  ∃ u U q t', exec i s = .next u ∧ u.team? s.issue.team = some U ∧ U.reqs = T.reqs ++ [q] ∧ q.tid = j ∧ q.va = va ∧ q.stage = st ∧
    U.threads[j]? = some t' ∧ t'.pc = t.pc + 4 ∧ t'.stack = t.stack ∧ R u t'

/-- It waits in the table for the page p, and its thread is PARKED: p is in its missing set, and announced as one to be written (R243, R270,
R271). Memory is as it was where no record of the page is written. -/
def ParksOn (i : Instr) (s : State) (j : Nat) (T : Team) (t : Thread) (va : DWord) (p : Nat) : Prop :=
  Joins i s j T t va (.onPage p) fun u t' => t'.status = .parked ∧ p ∈ t'.missing ∧
    (∃ r ∈ u.pageReqs, r.ctx = T.ctx ∧ r.addr = BitVec.ofNat 64 p ∧ r.write = true) ∧
    (s.prqUsable = false ∨ s.prqRoom = false ∨ s.prqList ≠ [] → u.mem = s.mem)

/-- It bounces until the publish, and the thread goes on (R231, R274). -/
def AwaitsPublish (i : Instr) (s : State) (j : Nat) (T : Team) (t : Thread) (va : DWord) : Prop :=
  Joins i s j T t va .onPublish fun u t' => t'.status = t.status ∧ u = { s with teams := u.teams, fresh := u.fresh }

/-- A team but for the lines that its stash holds. -/
def Team.apart (T : Team) : Team := { T with lines := [] }

/-- The same, where an access may have recalled lines that stashes of other teams held (R254). -/
def AccessThread (s t : State) (j : Nat) (T : Team) (t' : Thread) : Prop :=
  (∀ k, k ≠ s.issue.team → (t.team? k).map Team.apart = (s.team? k).map Team.apart) ∧
    ∃ l, t.team? s.issue.team = some { T with lines := l, threads := T.threads.set j t' }

/-- No line that a stash owns holds an uncorrectable word: a write back of one marks no block (R422). -/
def State.ownsClean (s : State) : Prop :=
  ∀ kt ∈ s.teams, ∀ l ∈ kt.2.lines, l.owned = true → (s.badWords.any fun w => w / 16 == l.phys) = false

/-- The instruction answers a next state in which each thread of the issuing bundle is as R says, and nothing else has changed but that
nodes hold no registration any more of a line that nothing watches (R380, R388). -/
def Unwatches (i : Instr) (s : State) (R : Thread → Thread → Prop) : Prop :=
  ∃ u, exec i s = .next u ∧ OnlyLanes s { u with nodes := s.nodes } ∧
    (u.nodes = s.nodes.map fun n => (n.1, { n.2 with watches := n.2.watches.filter fun l => u.isServed l })) ∧
    ∀ j, j ∈ s.issue.tids → ∀ t, s.thread? s.issue.team j = some t → ∃ t', u.thread? s.issue.team j = some t' ∧ R t t'

/-- What an access leaves beside its result: the lines that stashes and LLC slices hold, and single-bit errors that it met corrected,
which Yarrow sees (R254, R405, R444). Everything else is as in s. -/
def State.beside (s u : State) : State := { s with teams := u.teams, llc := u.llc, softWords := u.softWords, dies := u.dies }

/-- The words of bytes in memory order, least significant first (R4). -/
def wordAt (b : List Byte) (i : Nat) : Word :=
  b.getD (4 * i + 3) 0 ++ b.getD (4 * i + 2) 0 ++ b.getD (4 * i + 1) 0 ++ b.getD (4 * i) 0

/-- What a load of a width writes (R245): one register extended, or two or four words. -/
def loadedWords (wd : Width) (b : List Byte) : List Word :=
  match wd with
  | .b => [(b.getD 0 0).setWidth 32]
  | .bs => [(b.getD 0 0).signExtend 32]
  | .h => [(b.getD 1 0 ++ b.getD 0 0).setWidth 32]
  | .hs => [(b.getD 1 0 ++ b.getD 0 0).signExtend 32]
  | .w => [wordAt b 0]
  | .x => [wordAt b 0, wordAt b 1]
  | .q => [wordAt b 0, wordAt b 1, wordAt b 2, wordAt b 3]

/-- A thread that has loaded words (R237, R242, R245): the destination registers, p7, sr.resm and the program counter, and no more. -/
def Loaded (d : BitVec 7) (v : List Word) (resident : Bool) (T T' : Thread) : Prop :=
  (∀ n, n < v.length → T'.at (T.pos d + n) = v.getD n 0) ∧
    (∀ p, (p < T.pos d ∨ T.pos d + v.length ≤ p) → T'.at p = T.at p) ∧
    T'.p 7 = resident ∧ (∀ q, q ≠ 7 → T'.p q = T.p q) ∧ T'.resm = (if resident then BitVec.ofNat 4 (2 ^ v.length - 1) else 0) ∧
    T'.pc = T.pc + 4 ∧ ({ T with preds := T'.preds, pendPreds := T'.pendPreds, resm := T'.resm } : Thread).sameButRegs T'

/-- The instruction loads n bytes from pa into the words of a width. -/
def Loads (i : Instr) (s : State) (j : Nat) (T : Team) (t : Thread) (d : BitVec 7) (wd : Width) (pa : Nat) : Prop :=
  ∃ u t', exec i s = .next u ∧ AccessThread s u j T t' ∧
    Loaded d (loadedWords wd ((List.range (widthBytes wd)).map fun k => s.byteFor T.core (pa + k))) true t t' ∧
    u = s.beside u ∧ SameDies s u

/-- Of the whole memory, as every die sees it, only the bytes given have changed, and those as the storing die sees them (R199). -/
def Stored (s u : State) (core pa : Nat) (b : List Byte) : Prop :=
  (∀ k, k < b.length → u.byteFor core (pa + k) = b.getD k 0) ∧
    (∀ d a, d ≠ dieOf core ∨ a < pa ∨ pa + b.length ≤ a → u.mem.byte d a = s.mem.byte d a)

/-- n bytes from an address as a core's die sees them. -/
def State.bytesFor (s : State) (core a n : Nat) : List Byte := (List.range n).map fun k => s.byteFor core (a + k)

/-- The new value of R250 for 32-bit values; none where nothing is written. -/
def atomicValue (op : AOp) (old v new : Word) : Option Word :=
  match op with
  | .add | .addX => some (old + v)
  | .minS => some (if old.toInt ≤ v.toInt then old else v)
  | .maxS => some (if v.toInt ≤ old.toInt then old else v)
  | .minU => some (if old.toNat ≤ v.toNat then old else v)
  | .maxU => some (if v.toNat ≤ old.toNat then old else v)
  | .and => some (old &&& v)
  | .or => some (old ||| v)
  | .xor => some (old ^^^ v)
  | .xchg => some v
  | .cas => if old = v then some new else none
  | .incw => some (if v.toNat ≤ old.toNat then 0 else old + 1)
  | .decw => some (if old = 0 ∨ v.toNat < old.toNat then v else old - 1)
  | .fadd => some (f32Add .rn old v).1

/-- Memory after an atomic of a thread: the new value at the address, and every other byte as it was. -/
def AtomicStored (s u : State) (T : Team) (t : Thread) (b : BitVec 7) (op : AOp) (pa : Nat) : Prop :=
  if op = .addX then
    (wordAt (u.bytesFor T.core pa 8) 1 ++ wordAt (u.bytesFor T.core pa 8) 0 =
      (wordAt (s.bytesFor T.core pa 8) 1 ++ wordAt (s.bytesFor T.core pa 8) 0) + t.gx b) ∧
      ∀ d c, d ≠ dieOf T.core ∨ c < pa ∨ pa + 8 ≤ c → u.mem.byte d c = s.mem.byte d c
  else
    (wordAt (u.bytesFor T.core pa 4) 0 =
      (atomicValue op (wordAt (s.bytesFor T.core pa 4) 0) (t.g b) (t.at (t.pos b + 1))).getD (wordAt (s.bytesFor T.core pa 4) 0)) ∧
      ∀ d c, d ≠ dieOf T.core ∨ c < pa ∨ pa + 4 ≤ c → u.mem.byte d c = s.mem.byte d c

/-- The low bytes of registers from g(d) on (R246). -/
def Thread.bytesFrom (t : Thread) (d : BitVec 7) (n : Nat) : List Byte :=
  (List.range n).map fun k => (t.at (t.pos d + k / 4)).extractLsb' (8 * (k % 4)) 8

/-- The instruction stores n bytes of registers from g(d) on at pa. -/
def Stores (i : Instr) (s : State) (j : Nat) (T : Team) (t : Thread) (d : BitVec 7) (n pa : Nat) : Prop :=
  ∃ u, exec i s = .next u ∧ AccessThread s u j T { t with pc := t.pc + 4 } ∧ Stored s u T.core pa (t.bytesFrom d n) ∧
    u = { s.beside u with mem := u.mem, fresh := u.fresh } ∧ SameDies s u

/-- Memory has changed at no address that a store on its way touches: what an acquire brings in (R199, R208). -/
def Untouched (s u : State) : Prop :=
  ∀ d a, (∀ f ∈ s.mem.flights, f.touches a 1 = false) → u.mem.byte d a = s.mem.byte d a

/-- What a die holds it holds with every store that arrives no later (R201, R212), and no store has an identifier yet to come. -/
def State.inOrderOn (s : State) (d : Nat) : Prop :=
  d < 8 ∧ ∀ f ∈ s.mem.flights, f.id < s.fresh ∧ (d ∈ f.at_ → ∀ g ∈ s.mem.flights, g.id = f.id ∨ g.id ∈ f.deps → d ∈ g.at_)

/-- The instruction leaves the issuing team as T', and nothing else changes but that. -/
def OnlyTeam (i : Instr) (s : State) (T' : Team) : Prop :=
  ∃ u, exec i s = .next u ∧ u = { s with teams := u.teams } ∧ (∀ k, k ≠ s.issue.team → u.team? k = s.team? k) ∧
    u.team? s.issue.team = some T'

/-- The instruction acquires (R208) and thread j goes on as t'; nothing else changes. -/
def Acquires (i : Instr) (s : State) (j : Nat) (T : Team) (t' : Thread) : Prop :=
  ∃ u, exec i s = .next u ∧ OnlyThread s u j T t' ∧ Untouched s u ∧ u.proxies = [] ∧
    u = { s with teams := u.teams, mem := u.mem, proxies := u.proxies }

/-- The instruction reads a TBAR as ATOM.T reaches its line (R287), and thread j goes on as t'. -/
def ReadsTbar (i : Instr) (s : State) (j : Nat) (T : Team) (t' : Thread) : Prop :=
  ∃ u, exec i s = .next u ∧ AccessThread s u j T t' ∧ SameDies s u ∧ u = s.beside u

/-- It reads it as an acquire (R291). -/
def AcquiresTbar (i : Instr) (s : State) (j : Nat) (T : Team) (t' : Thread) : Prop :=
  ∃ u, exec i s = .next u ∧ AccessThread s u j T t' ∧ SameDies s u ∧ Untouched s u ∧ u.proxies = [] ∧
    u = { s.beside u with mem := u.mem, proxies := u.proxies }

/-- The instruction writes the TBAR at pa and thread j goes on as t' (R289, R290). -/
def SetsTbar (i : Instr) (s : State) (j : Nat) (T : Team) (pa : Nat) (o : Tbar) (t' : Thread) : Prop :=
  ∃ u, exec i s = .next u ∧ AccessThread s u j T t' ∧ Stored s u T.core pa o.out ∧ SameDies s u ∧
    u = { s.beside u with mem := u.mem, fresh := u.fresh }

/-- A reference that resolves on the fast path (R358): of a defined region, of its colour, to an object that is not in evacuation. -/
structure Resolves (s : State) (T : Team) (r : DWord) : Prop where
  notNull : refNull r = false
  reserved : r.extractLsb' 52 4 = 0
  defined : ((s.ctx T.ctx).region (refRegion r)).state ≠ .undefined
  colour : refColour r = ((s.ctx T.ctx).region (refRegion r)).colour
  still : s.inEvac T.core T.ctx (refObj r) = false

/-- The managed tests of an address (R370): inside the region, on a page of the region. -/
structure InRegion (s : State) (T : Team) (rg : BitVec 4) (ea : DWord) : Prop where
  above : ((s.ctx T.ctx).region rg).base ≤ ea.toNat
  below : ea.toNat < ((s.ctx T.ctx).region rg).base + ((s.ctx T.ctx).region rg).size
  page : ∀ e, s.cached? T.core T.ctx (swapVa (s.ctx T.ctx).swaps ea.toNat) = some e → pteMreg e.pte = rg

/-- An access through a reference to an EVAC page in HBM passes its check, and pa is its physical address (R241, R366); the translation that
the check of a managed page reads besides changes nothing. -/
structure ReachesEvac (s : State) (T : Team) (va : DWord) (n : Nat) (need : Need) (pa : Nat) : Prop where
  aligned : va.toNat % n = 0
  canon : canonical va = true
  window : inWindow va = false
  backing : (s.ctx T.ctx).desc.inBacking va.toNat = false
  extent : s.extent? T va.toNat need.writes = none
  entry : ∃ e, s.cached? T.core T.ctx (swapVa (s.ctx T.ctx).swaps va.toNat) = some e ∧ need.allowed e.pte = true ∧
    pteSt e.pte = 3 ∧ e.phys (s.ctx T.ctx).swaps va.toNat = pa ∧ s.walkHold T.core T.ctx e va.toNat = s
  hbm : inHbm pa = true
  good : s.badBlock? pa n = none
  line : (s.badWords.any fun w => w / 16 == lineOf pa) = false

/-- The state word of the header of an object can be read, at pa (R354, R358). -/
def ReachesHeader (s : State) (T : Team) (obj pa : Nat) : Prop :=
  Reaches s T (BitVec.ofNat 64 (obj + 4)) 4 .load pa ∨ ReachesEvac s T (BitVec.ofNat 64 (obj + 4)) 4 .load pa

/-- n bytes of a context lie in one page of HBM that is not ABSENT, at pa, and a core holds its translation. -/
def State.holdsPage (s : State) (core x va n pa : Nat) : Prop :=
  pieces (n / 2 ^ 16 + 2) va n = [(va, n)] ∧ inHbm pa = true ∧ pa + n ≤ 2 ^ 40 ∧
    ∃ e, s.cached? core x (swapVa (s.ctx x).swaps va) = some e ∧ pteSt e.pte ≠ 0 ∧ e.phys (s.ctx x).swaps va = pa

/-- The team's context may use tiles and owns those of the core, the sequencer has room for an instruction of the bundle (R310), and no
entry of the tile table holds an uncorrectable error (R316). -/
structure TileReady (s : State) (T : Team) : Prop where
  team : s.team? s.issue.team = some T
  tiles : (s.ctx T.ctx).desc.tiles = true
  owned : (s.core T.core).accown = T.ctx
  room : (s.core T.core).seq.length < 8
  counts : ∀ x ∈ s.lanes, x.2.cntTl < 30
  table : ∀ n, ((s.core T.core).tile n).badEntry = false

/-- The operation enters the sequencer behind those before it, and every lane goes on with its cnt.tl one higher and no register written
(R310); memory does not change, and P holds of what follows. -/
def Accepted (i : Instr) (s : State) (T : Team) (o : SeqOp) (P : State → Prop) : Prop :=
  ∃ u, exec i s = .next u ∧ u.mem = s.mem ∧ P u ∧
    (u.core T.core).seq = (s.core T.core).seq ++ [{ o with id := s.fresh, team := s.issue.team, tids := s.issue.tids }] ∧
    ∀ j ∈ s.issue.tids, ∀ t, s.thread? s.issue.team j = some t →
      ∃ t', u.thread? s.issue.team j = some t' ∧ t' = { t with pc := t.pc + 4, cntTl := t.cntTl + 1, pendRegs := t'.pendRegs }

/-! ## Events -/

/-- An event answers a next state of which P holds. -/
def Answers (i : Instr) (s : State) (P : State → Prop) : Prop := ∃ u, exec i s = .next u ∧ P u

/-- An event changes registers of BAR 0 alone. -/
def SetsRegs (i : Instr) (s : State) (g : HostRegs) : Prop := exec i s = .next { s with regs := g }

/-- A context command answers with a result (R74). -/
def CtxAnswers (i : Instr) (s : State) (x : BitVec 12) (r : BitVec 3) (P : State → Prop) : Prop :=
  ∃ u, exec i s = .next u ∧ u.regs.ctxResult = r ∧ u.regs.ctxCtx = x ∧ P u

/-- What Q_STAT shows of a slot (R97). -/
def State.qStatOf (s u : State) (q : BitVec 8) (r : BitVec 3) : HostRegs :=
  { s.regs with qResult := r, qState := BitVec.ofNat 4 (u.queue q.toNat).state.code, qSlot := q
                qFcode := if (u.queue q.toNat).state = .faulted then (u.queue q.toNat).fcode else 0 }

/-- A queue command answers with a result, and Q_STAT shows the slot as it then is (R97). -/
def QueueAnswers (i : Instr) (s : State) (q : BitVec 8) (r : BitVec 3) (P : State → Prop) : Prop :=
  ∃ u, exec i s = .next u ∧ u.regs = s.qStatOf u q r ∧ P u

/-- A page command answers with a result (R267). -/
def PageAnswers (i : Instr) (s : State) (x : BitVec 12) (r : BitVec 3) (P : State → Prop) : Prop :=
  ∃ u, exec i s = .next u ∧ u.regs.pgResult = r ∧ u.regs.pgCtx = x ∧ P u

/-- A load of four bytes into one register commits: the request leaves the table with its counter, the word, p7, and no byte of memory
change (R227, R228, R237). -/
def Commits (i : Instr) (s : State) (k : Nat) (t : Thread) (r : Req) (p : Nat) (w : Word) (resident : Bool) : Prop :=
  ∃ u U t', exec i s = .next u ∧ u.team? k = some U ∧ U.reqs = [] ∧ U.threads[r.tid]? = some t' ∧ t'.at p = w ∧ t'.p 7 = resident ∧
    (∀ q, q ≠ p → t'.at q = t.at q) ∧ t'.pc = t.pc ∧ t'.cntLd = t.cntLd - 1 ∧ u.mem = s.mem

/-- A team whose one request is such a load, for which its thread's destination and p7 still wait. -/
structure OneLoad (s : State) (k : Nat) (T : Team) (t : Thread) (r : Req) (p : Nat) : Prop where
  team : s.team? k = some T
  only : s.req? r.id = some (k, T, r)
  reqs : T.reqs = [r]
  thread : T.threads[r.tid]? = some t
  op : r.op = .load 4 false false .unscoped
  dest : r.dest = .reg p 1
  counter : r.counter = 1
  raw : r.region = 0
  checked : r.unchecked = none
  waits : tget? p t.pendRegs = some r.id
  flag : tget? 7 t.pendPreds = some r.id

/-- A thread's wait ends: it is READY in a bundle, where it stood (R173). -/
def Thread.readyAs (t t' : Thread) : Prop :=
  t' = { t with status := .ready, bundle := t'.bundle } ∧ t'.bundle.isSome = true

/-! ## A step -/

/-- Nothing of the part but a bundle and the coprocessors act in the next step: bring-up is over, nothing comes from outside, the clock brings
nothing and no event is due (log 1). -/
structure Quiet (s : State) : Prop where
  ready : s.regs.bootReady = true
  alive : s.regs.bootFatal = false
  outside : s.agenda = []
  onTime : s.dueOnTime = []
  due : s.dueStep? = none

/-- No filter run is in progress on any die (R408). -/
def State.noRuns (s : State) : Prop := ∀ d, (s.die d).yarrow.run = none

/-- The fetch at an address reads a word (R53, R277): the page is cached, RESIDENT, executable and in HBM, and its bytes are good. -/
structure Fetches (s : State) (T : Team) (pc : DWord) (w : Word) : Prop where
  canon : canonical pc = true
  window : inWindow pc = false
  backing : (s.ctx T.ctx).desc.inBacking pc.toNat = false
  entry : ∃ e, s.cached? T.core T.ctx (swapVa (s.ctx T.ctx).swaps pc.toNat) = some e ∧ pteX e.pte = true ∧ pteSt e.pte = 1 ∧
    inHbm (e.phys (s.ctx T.ctx).swaps pc.toNat) = true ∧ s.badBlock? (e.phys (s.ctx T.ctx).swaps pc.toNat) 4 = none ∧
    w = wordAt (s.bytesFor T.core (e.phys (s.ctx T.ctx).swaps pc.toNat) 4) 0

/-- Bundle b of team k takes the issue slot, its first thread is at pc, and nothing withholds issue: no overcurrent warning of its die
(R16) and no power cap (R23, log 69). -/
structure TakesSlot (s : State) (k b : Nat) (T : Team) (pc : DWord) : Prop where
  next : s.nextBundle? = some (k, b)
  team : s.team? k = some T
  head : ∃ j t, (T.membersOf b).head? = some j ∧ T.threads[j]? = some t ∧ t.pc = pc ∧ t.bundle = some b
  power : (s.die (dieOf T.core)).warned = false
  cap : s.regs.pcap = 0 ∨ s.capEvery < 2

/-- The state in which bundle b of team k issues (R170): its threads are the issuing ones, and the issue is noted. -/
def State.issuing (s : State) (k b : Nat) : State :=
  { s.pick k b with issue := { (s.pick k b).issue with stage := .fetching } }.noteIssue

/-- The issue is that of these threads of team k. -/
def State.issuedBy (s : State) (k : Nat) (tids : List Nat) : State := { s with issue := { team := k, tids := tids, stage := .issued } }

/-- What a step adds to a state that an instruction answered: the clock, and of each thread its bundle (R172), its tags (R131), whom it
yields to (R92) and the walks made for its issue (R240); of each team its time counters (R415); at the end of each 1 µs what its cores
withheld, and the samples that are due, which Yarrow sees (R405, R419). A LIT prefix ends with its instruction, as the issue does. -/
def StepsTo (s x u : State) : Prop :=
  u = { x with clock := s.clock + 1, teams := u.teams, lits := u.lits, fresh := u.fresh, cores := u.cores, dies := u.dies
               issue := { x.issue with stage := .idle } } ∧
    (∀ c, u.core c = { x.core c with held := (u.core c).held, sampler := (u.core c).sampler }) ∧ SameDies x u ∧
    ∀ k, (u.team? k).map (fun U => { U with threads := [], timers := default }) =
        (x.team? k).map (fun X => { X with threads := [], timers := default }) ∧
      ∀ j, (u.thread? k j).map (fun t => { t with bundle := none, tags := [], yielded := none, walked := [] }) =
        (x.thread? k j).map (fun t => { t with bundle := none, tags := [], yielded := none, walked := [] })

/-- The memory is in its canonical form. -/
def State.memOk (s : State) : Prop := s.mem.wf = true

end Sys2Proof.Machine
end

