-- ==== Sys2Proof/Certificates/Slice0/Obligations.lean ====
section
/-! DEFINITION. The statements for the provers. Each says which rule of the spec it formalises; a clause that rests on a choice of
the model names the log entry. -/

open Sys2Proof Sys2Proof.Machine

/-! ## Integer instructions -/

/-- IALU and IALU2 (R133, R135, R137, R138): in every lane g(d) alone changes, to the value that R135 gives. -/
def Obligations.IntegerResults : Prop :=
  ∀ (s : State) (d a b : BitVec 7) (n : BitVec 5),
    Lanes (.add d a b) s (fun _ T => WritesReg d (T.g a + T.g b) T) ∧
    Lanes (.sub d a b) s (fun _ T => WritesReg d (T.g a - T.g b) T) ∧
    Lanes (.and d a b) s (fun _ T => WritesReg d (T.g a &&& T.g b) T) ∧
    Lanes (.or d a b) s (fun _ T => WritesReg d (T.g a ||| T.g b) T) ∧
    Lanes (.xor d a b) s (fun _ T => WritesReg d (T.g a ^^^ T.g b) T) ∧
    Lanes (.andn d a b) s (fun _ T => WritesReg d (T.g a &&& ~~~T.g b) T) ∧
    Lanes (.shl d a b) s (fun _ T => WritesReg d (BitVec.ofNat 32 ((T.g a).toNat * 2 ^ (T.g b).toNat)) T) ∧
    Lanes (.shr d a b) s (fun _ T => WritesReg d (BitVec.ofNat 32 ((T.g a).toNat / 2 ^ (T.g b).toNat)) T) ∧
    Lanes (.sar d a b) s (fun _ T => WritesReg d (BitVec.ofInt 32 ((T.g a).toInt / 2 ^ (T.g b).toNat)) T) ∧
    Lanes (.minS d a b) s (fun _ T => WritesReg d (BitVec.ofInt 32 (min (T.g a).toInt (T.g b).toInt)) T) ∧
    Lanes (.minU d a b) s (fun _ T => WritesReg d (BitVec.ofNat 32 (min (T.g a).toNat (T.g b).toNat)) T) ∧
    Lanes (.maxS d a b) s (fun _ T => WritesReg d (BitVec.ofInt 32 (max (T.g a).toInt (T.g b).toInt)) T) ∧
    Lanes (.maxU d a b) s (fun _ T => WritesReg d (BitVec.ofNat 32 (max (T.g a).toNat (T.g b).toNat)) T) ∧
    Lanes (.mul d a b) s (fun _ T => WritesReg d (T.g a * T.g b) T) ∧
    Lanes (.mulhiS d a b) s (fun _ T => WritesReg d (BitVec.ofInt 32 ((T.g a).toInt * (T.g b).toInt / 2 ^ 32)) T) ∧
    Lanes (.mulhiU d a b) s (fun _ T => WritesReg d (BitVec.ofNat 32 ((T.g a).toNat * (T.g b).toNat / 2 ^ 32)) T) ∧
    Lanes (.mad d a b) s (fun _ T => WritesReg d (T.g a * T.g b + T.g d) T) ∧
    Lanes (.mulwS d a b) s (fun _ T => WritesPair d (BitVec.ofInt 64 ((T.g a).toInt * (T.g b).toInt)) T) ∧
    Lanes (.mulwU d a b) s (fun _ T => WritesPair d (BitVec.ofNat 64 ((T.g a).toNat * (T.g b).toNat)) T) ∧
    Lanes (.abs d a) s (fun _ T => WritesReg d (BitVec.ofInt 32 (T.g a).toInt.natAbs) T) ∧
    Lanes (.clz d a) s (fun _ T => WritesReg d (T.g a).clz T) ∧
    Lanes (.popc d a) s (fun _ T => WritesReg d (BitVec.ofNat 32 ((List.range 32).countP fun k => (T.g a).getLsbD k)) T) ∧
    Lanes (.brev d a) s (fun _ T => WritesReg d (T.g a).reverse T) ∧
    Lanes (.bfeS d a b) s (fun _ T => WritesReg d ((((T.g a) >>> bfPos (T.g b)).setWidth (bfLen (T.g b))).signExtend 32) T) ∧
    Lanes (.bfeU d a b) s (fun _ T => WritesReg d ((((T.g a) >>> bfPos (T.g b)).setWidth (bfLen (T.g b))).setWidth 32) T) ∧
    Lanes (.bfi d a b) s (fun _ T T' => WritesReg d (T'.g d) T T' ∧ ∀ k, k < 32 → (T'.g d).getLsbD k =
      if bfPos (T.g b) ≤ k ∧ k < bfPos (T.g b) + bfLen (T.g b) then (T.g a).getLsbD (k - bfPos (T.g b)) else (T.g d).getLsbD k) ∧
    Lanes (.mov d a) s (fun _ T => WritesReg d (T.g a) T) ∧
    Lanes (.extS d a n) s (fun _ T => WritesReg d (((T.g a).setWidth (n.toNat + 1)).signExtend 32) T) ∧
    Lanes (.extU d a n) s (fun _ T => WritesReg d (((T.g a).setWidth (n.toNat + 1)).setWidth 32) T)

/-- SEL, MOVI, the immediate forms with or without a LIT prefix (R59, R134, R140, R142, R143), and the 64-bit operations (R139): in every lane
the destination alone changes. -/
def Obligations.ImmediateResults : Prop :=
  (∀ (s : State) (d a b : BitVec 7) (imm : BitVec 11) (n : BitVec 5) (imm18 : BitVec 18) (p : BitVec 3) (inv : Bool),
     Lanes (.sel d a b inv p) s (fun _ T => WritesReg d (if T.p p ≠ inv then T.g a else T.g b) T) ∧
     Lanes (.movi d imm18) s (fun _ T => WritesReg d (s.immW imm18 true) T) ∧
     Lanes (.addi d a imm) s (fun _ T => WritesReg d (T.g a + s.immW imm true) T) ∧
     Lanes (.muli d a imm) s (fun _ T => WritesReg d (T.g a * s.immW imm true) T) ∧
     Lanes (.andi d a imm) s (fun _ T => WritesReg d (T.g a &&& s.immW imm false) T) ∧
     Lanes (.ori d a imm) s (fun _ T => WritesReg d (T.g a ||| s.immW imm false) T) ∧
     Lanes (.xori d a imm) s (fun _ T => WritesReg d (T.g a ^^^ s.immW imm false) T) ∧
     Lanes (.shli d a n) s (fun _ T => WritesReg d (T.g a <<< n.toNat) T) ∧
     Lanes (.shri d a n) s (fun _ T => WritesReg d (T.g a >>> n.toNat) T) ∧
     Lanes (.sari d a n) s (fun _ T => WritesReg d ((T.g a).sshiftRight n.toNat) T) ∧
     Lanes (.roli d a n) s (fun _ T => WritesReg d ((T.g a).rotateLeft n.toNat) T) ∧
     Lanes (.addiX d a imm) s (fun _ T => WritesPair d (T.gx a + s.immX imm) T)) ∧
  (∀ (s : State) (d a b : BitVec 7) (k : BitVec 3),
     Lanes (.addX d a b) s (fun _ T => WritesPair d (T.gx a + T.gx b) T) ∧
     Lanes (.subX d a b) s (fun _ T => WritesPair d (T.gx a - T.gx b) T) ∧
     Lanes (.shlX d a b) s (fun _ T => WritesPair d (BitVec.ofNat 64 ((T.gx a).toNat * 2 ^ (T.g b).toNat)) T) ∧
     Lanes (.shrX d a b) s (fun _ T => WritesPair d (BitVec.ofNat 64 ((T.gx a).toNat / 2 ^ (T.g b).toNat)) T) ∧
     Lanes (.sarX d a b) s (fun _ T => WritesPair d (BitVec.ofInt 64 ((T.gx a).toInt / 2 ^ (T.g b).toNat)) T) ∧
     Lanes (.movX d a) s (fun _ T => WritesPair d (T.gx a) T) ∧
     Lanes (.lea d a b k) s (fun _ T => WritesPair d (BitVec.ofInt 64 ((T.gx a).toInt + (T.g b).toInt * 2 ^ k.toNat)) T))

/-- ISET, ISETI, predicate logic and NOP (R134, R141, R144): in every lane one predicate alone changes; PGET writes a register,
PSETM the predicates of a mask. -/
def Obligations.PredicateResults : Prop :=
  ∀ (s : State) (c : Cond) (d p q : BitVec 3) (a b g : BitVec 7) (imm : BitVec 11),
    Lanes (.iset c p a b) s (fun _ T => WritesPred p (ordered c (T.g a) (T.g b)) T) ∧
    Lanes (.isetX c p a b) s (fun _ T => WritesPred p (ordered c (T.gx a) (T.gx b)) T) ∧
    Lanes (.iseti c p a imm) s (fun _ T => WritesPred p (ordered c (T.g a) (s.immW imm true)) T) ∧
    Lanes (.pand d p q) s (fun _ T => WritesPred d (T.p p && T.p q) T) ∧
    Lanes (.por d p q) s (fun _ T => WritesPred d (T.p p || T.p q) T) ∧
    Lanes (.pxor d p q) s (fun _ T => WritesPred d (T.p p != T.p q) T) ∧
    Lanes (.pandn d p q) s (fun _ T => WritesPred d (T.p p && !T.p q) T) ∧
    Lanes (.pnot d p) s (fun _ T => WritesPred d (!T.p p) T) ∧
    Lanes (.pmov d p) s (fun _ T => WritesPred d (T.p p) T) ∧
    Lanes (.pget g) s (fun _ T T' => WritesReg g (T'.g g) T T' ∧ ∀ k, k < 32 → (T'.g g).getLsbD k = (decide (k < 8) && T.p (BitVec.ofNat 3 k))) ∧
    Lanes (.psetm a b) s (fun _ T T' => T'.pc = T.pc + 4 ∧ T' = { T with pc := T'.pc, preds := T'.preds, pendPreds := T'.pendPreds } ∧
      ∀ n : BitVec 3, T'.p n = if (T.g b).getLsbD n.toNat then (T.g a).getLsbD n.toNat else T.p n) ∧
    Lanes .nop s (fun _ T => JumpsTo (T.pc + 4) T)

/-! ## Floating point -/

/-- Format-A float arithmetic and the conversions (R27, R29 to R38, R153 to R166): the value of the destination, and the flags ORed into
sr.fpflags. -/
def Obligations.FloatResults : Prop :=
  (∀ (s : State) (d a b : BitVec 7) (p : BitVec 3) (ab ng : Bool) (rm : RMode) (c : FCond),
     Lanes (.fadd d a b ab ng rm) s (fun _ T => WritesFloat d (f32Add rm (signMarks ab ng (T.g a)) (T.g b)) T) ∧
     Lanes (.fsub d a b ab ng rm) s (fun _ T => WritesFloat d (f32Sub rm (signMarks ab ng (T.g a)) (T.g b)) T) ∧
     Lanes (.fmul d a b ab ng rm) s (fun _ T => WritesFloat d (f32Mul rm (signMarks ab ng (T.g a)) (T.g b)) T) ∧
     Lanes (.ffma d a b ab ng rm) s (fun _ T => WritesFloat d (f32Fma rm (signMarks ab ng (T.g a)) (T.g b) (T.g d)) T) ∧
     Lanes (.fmin d a b) s (fun _ T => WritesFloat d (resultOf (fp32.extreme false (T.g a).toNat (T.g b).toNat)) T) ∧
     Lanes (.fmax d a b) s (fun _ T => WritesFloat d (resultOf (fp32.extreme true (T.g a).toNat (T.g b).toNat)) T) ∧
     Lanes (.fset c p a b) s (fun _ T T' => T'.p p = (fcompare c (T.g a) (T.g b)).1 ∧ (∀ q, q ≠ p → T'.p q = T.p q) ∧
       T'.fpflags = T.fpflags ||| (fcompare c (T.g a) (T.g b)).2 ∧ T'.pc = T.pc + 4 ∧
       T' = { T with pc := T'.pc, preds := T'.preds, pendPreds := T'.pendPreds, fpflags := T'.fpflags }) ∧
     Lanes (.rcp d a) s (fun _ T => WritesFloat d (f32Rcp (T.g a)) T) ∧
     Lanes (.rsq d a) s (fun _ T => WritesFloat d (f32Rsq (T.g a)) T) ∧
     Lanes (.sqrt d a) s (fun _ T => WritesFloat d (f32Sqrt (T.g a)) T) ∧
     Lanes (.exp2 d a) s (fun _ T => WritesFloat d (f32Exp2 (T.g a)) T) ∧
     Lanes (.log2 d a) s (fun _ T => WritesFloat d (f32Log2 (T.g a)) T) ∧
     Lanes (.sinpi d a) s (fun _ T => WritesFloat d (f32Sinpi (T.g a)) T) ∧
     Lanes (.cospi d a) s (fun _ T => WritesFloat d (f32Cospi (T.g a)) T) ∧
     Lanes (.rndn d a) s (fun _ T => WritesFloat d (f32Rnd .rn (T.g a)) T) ∧
     Lanes (.rndz d a) s (fun _ T => WritesFloat d (f32Rnd .rz (T.g a)) T) ∧
     Lanes (.rndd d a) s (fun _ T => WritesFloat d (f32Rnd .rd (T.g a)) T) ∧
     Lanes (.rndu d a) s (fun _ T => WritesFloat d (f32Rnd .ru (T.g a)) T)) ∧
  (∀ (s : State) (d a b : BitVec 7) (rm : RMode) (f : F8) (g : F6) (x : ScaleT),
     Lanes (.fcvtF32I32 d a rm) s (fun _ T => WritesFloat d (intToF32 rm (T.g a).toInt) T) ∧
     Lanes (.fcvtF32Ui32 d a rm) s (fun _ T => WritesFloat d (intToF32 rm (T.g a).toNat) T) ∧
     Lanes (.fcvtF32I64 d a rm) s (fun _ T => WritesFloat d (intToF32 rm (T.gx a).toInt) T) ∧
     Lanes (.fcvtF32Ui64 d a rm) s (fun _ T => WritesFloat d (intToF32 rm (T.gx a).toNat) T) ∧
     Lanes (.fcvtI32F32 d a rm) s (fun _ T => let r := f32ToInt rm (-2 ^ 31) (2 ^ 31 - 1) (T.g a)
       WritesFloat d (BitVec.ofInt 32 r.1, r.2) T) ∧
     Lanes (.fcvtUi32F32 d a rm) s (fun _ T => let r := f32ToInt rm 0 (2 ^ 32 - 1) (T.g a)
       WritesFloat d (BitVec.ofInt 32 r.1, r.2) T) ∧
     Lanes (.fcvtI64F32 d a rm) s (fun _ T => let r := f32ToInt rm (-2 ^ 63) (2 ^ 63 - 1) (T.g a)
       WritesWords d [BitVec.ofInt 32 r.1, BitVec.ofInt 32 (r.1 / 2 ^ 32)] r.2 T) ∧
     Lanes (.fcvtUi64F32 d a rm) s (fun _ T => let r := f32ToInt rm 0 (2 ^ 64 - 1) (T.g a)
       WritesWords d [BitVec.ofInt 32 r.1, BitVec.ofInt 32 (r.1 / 2 ^ 32)] r.2 T) ∧
     Lanes (.fcvtF16F32 d a rm) s (fun _ T => WritesFloat d (toLow fp16 rm (T.g a)) T) ∧
     Lanes (.fcvtBf16F32 d a rm) s (fun _ T => WritesFloat d (toLow bf16 rm (T.g a)) T) ∧
     Lanes (.fcvtF16hF32 d a rm) s (fun _ T => WritesFloat d (toHigh fp16 rm (T.g a) (T.g d)) T) ∧
     Lanes (.fcvtBf16hF32 d a rm) s (fun _ T => WritesFloat d (toHigh bf16 rm (T.g a) (T.g d)) T) ∧
     Lanes (.fcvtF32F16 d a) s (fun _ T => WritesFloat d (widen fp16 ((T.g a).extractLsb' 0 16).toNat) T) ∧
     Lanes (.fcvtF32Bf16 d a) s (fun _ T => WritesFloat d (widen bf16 ((T.g a).extractLsb' 0 16).toNat) T) ∧
     Lanes (.fcvtF32F16h d a) s (fun _ T => WritesFloat d (widen fp16 ((T.g a).extractLsb' 16 16).toNat) T) ∧
     Lanes (.fcvtF32Bf16h d a) s (fun _ T => WritesFloat d (widen bf16 ((T.g a).extractLsb' 16 16).toNat) T) ∧
     Lanes (.pk8 d a rm f) s (fun _ T => let r := convertAll (fmt8 f) rm (T.regsFrom a 4)
       WritesFloat d (BitVec.ofNat 32 (packBits 8 r.1), r.2) T) ∧
     Lanes (.upk8 d a f) s (fun _ T =>
       let r := (List.range 4).map fun n => widen (fmt8 f) ((T.g a).extractLsb' (8 * n) 8).toNat
       WritesWords d (r.map fun y => y.1) (r.foldl (fun w y => w ||| y.2) 0) T) ∧
     Lanes (.pk6 d a rm g) s (fun _ T => let r := convertAll (fmt6 g) rm (T.regsFrom a 8)
       WritesWords d [(planes r.1).1, (planes r.1).2] r.2 T) ∧
     Lanes (.upk6 d a g) s (fun _ T =>
       let r := (sixBit (T.g a) (T.at (T.pos a + 1))).map fun c => widen (fmt6 g) c
       WritesWords d (r.map fun y => y.1) (r.foldl (fun w y => w ||| y.2) 0) T) ∧
     Lanes (.hadd2Bf16 d a b) s (fun _ T => WritesFloat d (halves (halfAdd bf16) (T.g a) (T.g b) (T.g d)) T) ∧
     Lanes (.hmul2Bf16 d a b) s (fun _ T => WritesFloat d (halves (halfMul bf16) (T.g a) (T.g b) (T.g d)) T) ∧
     Lanes (.hfma2Bf16 d a b) s (fun _ T => WritesFloat d (halves (halfFma bf16) (T.g a) (T.g b) (T.g d)) T) ∧
     Lanes (.hadd2F16 d a b) s (fun _ T => WritesFloat d (halves (halfAdd fp16) (T.g a) (T.g b) (T.g d)) T) ∧
     Lanes (.hmul2F16 d a b) s (fun _ T => WritesFloat d (halves (halfMul fp16) (T.g a) (T.g b) (T.g d)) T) ∧
     Lanes (.hfma2F16 d a b) s (fun _ T => WritesFloat d (halves (halfFma fp16) (T.g a) (T.g b) (T.g d)) T) ∧
     Lanes (.hmin2 d a b) s (fun _ T => WritesFloat d (halves (halfExtreme false) (T.g a) (T.g b) (T.g d)) T) ∧
     Lanes (.hmax2 d a b) s (fun _ T => WritesFloat d (halves (halfExtreme true) (T.g a) (T.g b) (T.g d)) T) ∧
     Lanes (.scx d a x) s (fun _ T => WritesReg d (scaleOf (T.g a) x) T) ∧
     Lanes (.sca d a b) s (fun _ T => WritesFloat d (scaleApply (T.g a) (T.g b)) T) ∧
     Lanes (.scm d a x) s (fun _ T => WritesReg d (bundleScale (s.lanes.map fun y => y.2.g a) x) T))

/-- A NaN that the part produces is the canonical quiet NaN (R28): every FP32 operation. -/
def Obligations.NansAreCanonical : Prop :=
  ∀ (rm : RMode) (x y z : Word),
    ∀ r ∈ [f32Add rm x y, f32Sub rm x y, f32Mul rm x y, f32Fma rm x y z, resultOf (fp32.extreme false x.toNat y.toNat),
        resultOf (fp32.extreme true x.toNat y.toNat), f32Rcp x, f32Rsq x, f32Sqrt x, f32Exp2 x, f32Log2 x, f32Sinpi x,
        f32Cospi x, f32Rnd rm x, intToF32 rm x.toInt, scaleApply x y, widen fp16 (x.toNat % 65536), widen bf16 (x.toNat % 65536)],
      (f32 r.1).isNan = true → r.1 = 0x7FC00000

/-! ## Groups of lanes -/

/-- ELECT, VOTE, MATCH, ACTMASK and SHFL (R191, R195, R196): what each lane reads of the others, as they stood before any lane
wrote (R70). -/
def Obligations.LaneResults : Prop :=
  ∀ (s : State) (d a b : BitVec 7) (p q r : BitVec 3),
    Lanes (.elect d p) s (fun j T T' => T'.g d = BitVec.ofNat 32 (s.leastLane fun _ => true) ∧
      T'.p p = decide (j % 32 = s.leastLane fun _ => true) ∧ (∀ n, n ≠ T.pos d → T'.at n = T.at n) ∧
      (∀ n, n ≠ p → T'.p n = T.p n) ∧ T'.pc = T.pc + 4 ∧
      ({ T with preds := T'.preds, pendPreds := T'.pendPreds } : Thread).sameButRegs T') ∧
    Lanes (.electS d p q) s (fun j T T' => T'.g d = BitVec.ofNat 32 (s.leastLane fun u => u.p q) ∧
      T'.p p = decide (j % 32 = s.leastLane fun u => u.p q) ∧ (∀ n, n ≠ T.pos d → T'.at n = T.at n) ∧
      (∀ n, n ≠ p → T'.p n = T.p n) ∧ T'.pc = T.pc + 4 ∧
      ({ T with preds := T'.preds, pendPreds := T'.pendPreds } : Thread).sameButRegs T') ∧
    Lanes (.voteAny p q) s (fun _ T => WritesPred p (s.lanes.any fun x => x.2.p q) T) ∧
    Lanes (.voteAll p q) s (fun _ T => WritesPred p (s.lanes.all fun x => x.2.p q) T) ∧
    Lanes (.voteBal d r) s (fun _ T T' => WritesReg d (T'.g d) T T' ∧ s.masks (T'.g d) fun u => u.p r) ∧
    Lanes (.actmask d) s (fun _ T T' => WritesReg d (T'.g d) T T' ∧ s.masks (T'.g d) fun _ => true) ∧
    Lanes (.matchW d a) s (fun _ T T' => WritesReg d (T'.g d) T T' ∧ s.masks (T'.g d) fun u => u.g a == T.g a) ∧
    Lanes (.matchX d a) s (fun _ T T' => WritesReg d (T'.g d) T T' ∧ s.masks (T'.g d) fun u => u.gx a == T.gx a) ∧
    Lanes (.shflIdx d a b) s (fun _ T => WritesReg d (s.fromLane T a (some ((T.g b).toNat % 32))) T) ∧
    Lanes (.shflUp d a b) s (fun j T => WritesReg d (s.fromLane T a
      (if (T.g b).toNat ≤ j % 32 then some (j % 32 - (T.g b).toNat) else none)) T) ∧
    Lanes (.shflDown d a b) s (fun j T => WritesReg d (s.fromLane T a
      (if j % 32 + (T.g b).toNat < 32 then some (j % 32 + (T.g b).toNat) else none)) T) ∧
    Lanes (.shflXor d a b) s (fun j T => WritesReg d (s.fromLane T a (some ((j % 32) ^^^ ((T.g b).toNat % 32)))) T)

/-! ## Control flow and traps -/

/-- BRA, BRC and JMPR (R187, R188): the program counter alone changes. -/
def Obligations.BranchResults : Prop :=
  ∀ (s : State) (off : BitVec 21) (neg : Bool) (p : BitVec 3) (a : BitVec 7),
    Lanes (.bra off) s (fun _ T => JumpsTo (T.pc + 4 * s.immX off) T) ∧
    Lanes (.brc neg p off) s (fun _ T => JumpsTo (if T.p p ≠ neg then T.pc + 4 * s.immX off else T.pc + 4) T) ∧
    ((∀ x ∈ s.lanes, (x.2.gx a).toNat % 4 = 0 ∧ canonical (x.2.gx a) = true) →
      Lanes (.jmpr a) s fun _ T => JumpsTo (T.gx a) T)

/-- CALL and CALLR move the window up and store the link word; RET moves it back; WINBASE moves it (R124, R125, R128, R145 to
R149). -/
def Obligations.CallResults : Prop :=
  (∀ (s : State) (a slide : BitVec 7) (off n : BitVec 18),
     ((∀ x ∈ s.lanes, x.2.wb + slide.toNat ≤ 8064) → 2 ≤ slide.toNat →
       Lanes (.call slide off) s fun _ T T' => Called slide.toNat (T.pc + 4 * s.immX off) T T') ∧
     ((∀ x ∈ s.lanes, x.2.wb + slide.toNat ≤ 8064 ∧ (x.2.gx a).toNat % 4 = 0 ∧ canonical (x.2.gx a) = true) → 2 ≤ slide.toNat →
       Lanes (.callr a slide) s fun _ T T' => Called slide.toNat (T.gx a) T T') ∧
     ((∀ x ∈ s.lanes, 2 ≤ x.2.wb ∧ x.2.linkSlide ≠ 0 ∧ x.2.linkSlide % 2 = 0 ∧ x.2.linkSlide ≤ x.2.wb ∧ x.2.linkPc.toNat % 4 = 0) →
       Lanes .ret s fun _ T T' => Rebased (T.wb - T.linkSlide) T.linkPc T T') ∧
     ((∀ x ∈ s.lanes, 0 ≤ (x.2.wb : Int) + n.toInt ∧ (x.2.wb : Int) + n.toInt ≤ 8064) →
       Lanes (.winbase n) s fun _ T T' => Rebased ((T.wb : Int) + n.toInt).toNat (T.pc + 4) T T')) ∧
  (∀ (s t : State) (slide : BitVec 7) (off : BitVec 18), 2 ≤ slide.toNat → slide.toNat % 2 = 0 →
     (∀ x ∈ s.lanes, x.2.wb + slide.toNat ≤ 8064 ∧ x.2.pendRegs = [] ∧ x.2.pc.toNat % 4 = 0 ∧ canonical (x.2.pc + 4) = true) →
     exec (.call slide off) s = .next t →
       Lanes .ret t fun j _ U => ∀ T, s.thread? s.issue.team j = some T →
         U.pc = T.pc + 4 ∧ U.wb = T.wb ∧
           ∀ m : BitVec 7, m.toNat + 2 ≠ slide.toNat → m.toNat + 1 ≠ slide.toNat → U.g m = T.g m)

/-- A trap whose thread is not in its handler and has one (R87, R90, R93, R146, R147, R148, R188, and the privilege checks of
R83, R93 and R374): which cause, and which address sr.trapaddr receives. -/
def Obligations.TrapsTaken : Prop :=
  ∀ (s : State) (j : Nat) (T : Team) (t : Thread) (code : BitVec 18) (a sr slide : BitVec 7) (off n : BitVec 18) (r : BitVec 4),
    Alone s j T t → t.handler = false → t.trapvec ≠ 0 → t.status = .ready →
      EntersHandler (.trap code) s j t 0x15 code 0 ∧
      ((s.ctx T.ctx).desc.dbg = false → EntersHandler .brk s j t 0x14 0 0) ∧
      ((t.gx a).toNat % 4 ≠ 0 → EntersHandler (.jmpr a) s j t 0x05 0 (t.gx a) ∧ EntersHandler (.callr a slide) s j t 0x05 0 (t.gx a)) ∧
      ((t.gx a).toNat % 4 = 0 → canonical (t.gx a) = false →
        EntersHandler (.jmpr a) s j t 0x13 0 (t.gx a) ∧ EntersHandler (.callr a slide) s j t 0x13 0 (t.gx a)) ∧
      (8064 < t.wb + slide.toNat → EntersHandler (.call slide off) s j t 0x0C 0 0) ∧
      (t.wb < 2 → EntersHandler .ret s j t 0x0C 0 0) ∧
      ((t.wb : Int) + n.toInt < 0 ∨ 8064 < (t.wb : Int) + n.toInt → EntersHandler (.winbase n) s j t 0x0C 0 0) ∧
      ((s.ctx T.ctx).desc.priv = false → EntersHandler .rft s j t 0x04 0 0 ∧ EntersHandler (.rput r a) s j t 0x04 0 0 ∧
        (sr ∈ [13, 14, 16, 18] → EntersHandler (.swr sr a) s j t 0x04 0 0)) ∧
      (∀ w c, EntersHandler (.illegalOpcode w c) s j t (causeCode c) 0 0)

/-- RFT returns to sr.trappc and clears HANDLER, in a privileged context or in a handler (R85, R93). -/
def Obligations.ReturnsFromTraps : Prop :=
  ∀ s : State, (∀ x ∈ s.lanes, s.issueCtx.desc.priv = true ∨ x.2.handler = true) →
    Lanes .rft s fun _ T T' => T' = { T with handler := false, pc := T.trappc }

/-! ## Special registers and services of a thread -/

/-- SRD (R83, R84, R89): the value of every special register that the spec lists, a pair for the 64-bit ones; and RDCNT (R416). -/
def Obligations.SpecialRegisterReads : Prop :=
  ∀ (s : State) (T : Team) (d n : BitVec 7), s.team? s.issue.team = some T →
    Lanes (.srd d 0) s (fun j t => WritesReg d (BitVec.ofNat 32 j) t) ∧
    Lanes (.srd d 1) s (fun j t => WritesReg d (BitVec.ofNat 32 (j % 32)) t) ∧
    Lanes (.srd d 2) s (fun _ t => WritesReg d (BitVec.ofNat 32 T.index) t) ∧
    Lanes (.srd d 3) s (fun _ t => WritesReg d T.gid t) ∧
    Lanes (.srd d 4) s (fun _ t => WritesReg d (BitVec.ofNat 32 T.core) t) ∧
    Lanes (.srd d 5) s (fun _ t => WritesReg d (BitVec.ofNat 32 (T.core / 32)) t) ∧
    Lanes (.srd d 6) s (fun _ t => WritesReg d (BitVec.ofNat 32 T.ctx) t) ∧
    (∀ G, s.grid? T.ctx T.gid = some G → Lanes (.srd d 7) s (fun _ t => WritesReg d (BitVec.ofNat 32 G.depth) t)) ∧
    Lanes (.srd d 8) s (fun _ t => WritesReg d
      ((BitVec.ofBool T.tuf ++ BitVec.ofBool T.tof ++ BitVec.ofBool T.tnv ++ 0#3 ++ t.fpflags).setWidth 32) t) ∧
    Lanes (.srd d 9) s (fun _ t => WritesReg d (t.resm.setWidth 32) t) ∧
    Lanes (.srd d 10) s (fun _ t => WritesPair d (BitVec.ofNat 64 s.clock) t) ∧
    Lanes (.srd d 12) s (fun _ t => WritesReg d ((s.ctx T.ctx).tholdOn T.core) t) ∧
    Lanes (.srd d 13) s (fun _ t => WritesReg d t.trapcause t) ∧
    Lanes (.srd d 14) s (fun _ t => WritesPair d t.trappc t) ∧
    Lanes (.srd d 16) s (fun _ t => WritesPair d t.trapaddr t) ∧
    Lanes (.srd d 18) s (fun _ t => WritesPair d t.trapvec t) ∧
    Lanes (.srd d 20) s (fun _ t => WritesReg d (if (s.core T.core).accown = T.ctx then BitVec.ofNat 32 T.ctx else 0) t) ∧
    Lanes (.srd d 21) s (fun _ t => WritesReg d (if t.handler then 1 else 0) t) ∧
    Lanes (.srd d 22) s (fun _ t => WritesPair d (if T.scratchLen = 0 then 0 else T.scratchBase) t) ∧
    (∀ m : Fin 16, n.toNat = m.val → Lanes (.rdcnt d n) s (fun _ t => WritesPair d T.timers[m] t))

/-- SWR in a bundle of one thread (R83, R84, R89): the thread's flags and the team flags that a zero bit clears, sr.resm, the clipped
T_hold, and the trap registers, with nothing else changed. A clear of team flags waits while tile operations of the team are in the
sequencer. -/
def Obligations.SpecialRegisterWrites : Prop :=
  ∀ (s : State) (j : Nat) (T : Team) (t : Thread) (a : BitVec 7), Alone s j T t →
    (((t.g a).extractLsb' 8 3 = 7#3 ∨ s.teamOps s.issue.team T = []) →
      ∃ u, exec (.swr 8 a) s = .next u ∧ u = { s with teams := u.teams } ∧
        u.team? s.issue.team = some { T with
          tnv := T.tnv && (t.g a).getLsbD 8, tof := T.tof && (t.g a).getLsbD 9, tuf := T.tuf && (t.g a).getLsbD 10
          threads := T.threads.set j { t with pc := t.pc + 4, fpflags := (t.g a).setWidth 5 } }) ∧
    ((t.g a).extractLsb' 8 3 ≠ 7#3 → s.teamOps s.issue.team T ≠ [] →
      Lanes (.swr 8 a) s fun _ t t' => t'.fpflags = (t.g a).setWidth 5 ∧
        t'.status = .waiting (.flags (s.teamOps s.issue.team T) (~~~(t.g a).extractLsb' 8 3))) ∧
    Lanes (.swr 9 a) s (fun _ t t' => t' = { t with pc := t.pc + 4, resm := (t.g a).setWidth 4, pendPreds := t'.pendPreds }) ∧
    (∃ u, exec (.swr 12 a) s = .next u ∧ u = { s with teams := u.teams, contexts := u.contexts } ∧
      u.thread? s.issue.team j = some { t with pc := t.pc + 4 } ∧
      ((u.ctx T.ctx).tholdOn T.core).toNat = max 128 (min 65536 (t.g a).toNat) ∧ (u.ctx T.ctx).thold = (u.ctx T.ctx).tholdOn T.core ∧
      ∀ x, x ≠ T.ctx → u.ctx x = s.ctx x) ∧
    ((s.ctx T.ctx).desc.priv = true ∨ t.handler = true →
      Lanes (.swr 13 a) s (fun _ t t' => t' = { t with pc := t.pc + 4, trapcause := t.g a &&& 0x3FFFFFF }) ∧
      Lanes (.swr 14 a) s (fun _ t t' => t' = { t with pc := t.pc + 4, trappc := t.gx a &&& ~~~3#64 }) ∧
      Lanes (.swr 16 a) s (fun _ t t' => t' = { t with pc := t.pc + 4, trapaddr := t.gx a }) ∧
      Lanes (.swr 18 a) s (fun _ t t' => t' = { t with pc := t.pc + 4, trapvec := t.gx a &&& ~~~3#64 }))

/-- The services of a thread (R91, R92, R192, R193, R416): SLEEP, YIELD, TMARK, and WAKEL with its tokens. -/
def Obligations.ThreadServices : Prop :=
  (∀ (s : State) (T : Team) (a code : BitVec 7), s.team? s.issue.team = some T →
     Lanes (.sleep a) s (fun _ t t' =>
       if (t.g a).toNat = 0 then t' = { t with pc := t.pc + 4 }
       else if t.wake then t' = { t with pc := t.pc + 4, wake := false }
       else t' = { t with pc := t.pc + 4, status := .sleeping (s.clock + min (t.g a).toNat 16777215), bundle := none }) ∧
     Lanes .yield s (fun _ t t' => t' = { t with pc := t.pc + 4, yielded := t'.yielded } ∧
       ∃ l, t'.yielded = some (s.clock, l) ∧ ∀ b, b ∈ l ↔ t.bundle ≠ some b ∧
         ∃ k U, (k, U) ∈ s.teams ∧ U.ctx = T.ctx ∧ U.core = T.core ∧ U.phase.isResident = true ∧
           ∃ v ∈ U.threads, v.status = .ready ∧ v.bundle = some b) ∧
     (∀ j t, Alone s j T t → ∃ u, exec (.tmark code a) s = .next u ∧ u = { s with teams := u.teams, dies := u.dies } ∧ SameDies s u ∧
       u.thread? s.issue.team j = some { t with pc := t.pc + 4 } ∧
       (∀ n, n ≠ j → u.thread? s.issue.team n = s.thread? s.issue.team n))) ∧
  (∀ (s : State) (j : Nat) (T : Team) (t : Thread) (d a : BitVec 7), Alone s j T t → t.status = .ready →
     (∀ v, T.threads[(t.g a).toNat]? = some v → t.g a ≠ 0xFFFFFFFF → v.asleep = true → v.missing = [] →
       ∃ u, exec (.wakel d a) s = .next u ∧ (u.thread? s.issue.team (t.g a).toNat).map (fun w => (w.status, w.pc)) = some (.ready, v.pc) ∧
         ∃ t', u.thread? s.issue.team j = some t' ∧ WritesReg d 1 t t') ∧
     (∀ v, T.threads[(t.g a).toNat]? = some v → t.g a ≠ 0xFFFFFFFF → v.asleep = false → v.status ≠ .exited →
       ∃ u, exec (.wakel d a) s = .next u ∧ (u.thread? s.issue.team (t.g a).toNat).map (fun w => w.wake) = some true ∧
         ∃ t', u.thread? s.issue.team j = some t' ∧ t'.g d = 0 ∧ t'.pc = t.pc + 4) ∧
     ((∀ v, T.threads[(t.g a).toNat]? = some v → v.status = .exited) → t.g a ≠ 0xFFFFFFFF →
       Lanes (.wakel d a) s fun _ t => WritesReg d 0xFFFFFFFF t) ∧
     (t.g a = 0xFFFFFFFF → ∃ u, exec (.wakel d a) s = .next u ∧
       (∀ n v, T.threads[n]? = some v → v.asleep = true → v.missing = [] →
         (u.thread? s.issue.team n).map (fun w => w.status) = some .ready) ∧
       ∃ t', u.thread? s.issue.team j = some t' ∧ t'.g d = BitVec.ofNat 32 (T.threads.countP fun v => v.asleep) ∧ t'.pc = t.pc + 4))

/-- EXIT (R180, R182, R189): every thread of the bundle is EXITED, and a team none of whose threads is left enters EXITING. REFORM in a
bundle of one thread (R175, R190): the thread is filed at the next address under its team; with 64 bins in use it is a bundle at once. -/
def Obligations.ExitResults : Prop :=
  (∀ (s : State) (T : Team), s.team? s.issue.team = some T →
     ∃ u U, exec .exit s = .next u ∧ u.team? s.issue.team = some U ∧ u.mem = s.mem ∧ u.contexts = s.contexts ∧
       U.threads.length = T.threads.length ∧
       (∀ j t, j ∈ s.issue.tids → T.threads[j]? = some t →
         U.threads[j]? = some { t with status := .exited, bundle := none, watch := .idle }) ∧
       (∀ j t, j ∉ s.issue.tids → T.threads[j]? = some t → t.status = .ready → U.threads[j]? = some t) ∧
       (T.phase = .resident ∨ T.phase = .running →
         (U.phase = .exiting ↔ ∀ j t, T.threads[j]? = some t → j ∈ s.issue.tids ∨ t.status = .exited))) ∧
  (∀ (s : State) (j : Nat) (T : Team) (t : Thread), Alone s j T t →
     ∃ u, exec .reform s = .next u ∧ u = { s with teams := u.teams, cores := u.cores, fresh := u.fresh } ∧
       (∀ c, c ≠ T.core → u.core c = s.core c) ∧
       ((s.core T.core).bins.length < 64 → u.thread? s.issue.team j = some { t with pc := t.pc + 4, bundle := none } ∧
         ∃ b ∈ (u.core T.core).bins, b.team = s.issue.team ∧ b.pc = t.pc + 4 ∧ b.closed = false ∧ (j, s.clock) ∈ b.tids) ∧
       (64 ≤ (s.core T.core).bins.length → (∀ b ∈ (s.core T.core).bins, b.team = s.issue.team → b.pc ≠ t.pc + 4) →
         u.thread? s.issue.team j = some { t with pc := t.pc + 4, bundle := some s.fresh }))

/-- LAUNCH and GWAIT (R110 to R112, R120 to R122): a new grid of the leader's operands is QUEUED as a child, and every lane receives its
identifier; LAUNCH at depth 9 traps DEPTH; GWAIT of an ended child returns its status, of a running one waits, of any other grid
returns 4. -/
def Obligations.LaunchResults : Prop :=
  ∀ (s : State) (j : Nat) (T : Team) (t : Thread) (d a b : BitVec 7) (P : Grid), Alone s j T t →
    s.grid? T.ctx T.gid = some P → P.depth < 10 →
    (P.depth ≠ 9 → s.childCount T.ctx < 4096 →
      ∃ u G, exec (.launch d a b) s = .next u ∧ G ∈ u.grids ∧ G.ctx = T.ctx ∧ G.parent = some T.gid ∧ G.depth = P.depth + 1 ∧
        G.state = .queued ∧ G.kaddr = t.gx a ∧ G.args = (t.gq b).setWidth 64 ∧ G.x = (t.at (t.pos b + 2)).toNat ∧
        G.z = (t.at (t.pos b + 3)).toNat % 65536 ∧ G.y = (t.at (t.pos b + 3)).toNat / 65536 ∧
        ∃ t', u.thread? s.issue.team j = some t' ∧ WritesReg d G.gid t t') ∧
    (P.depth ≠ 9 → 4096 ≤ s.childCount T.ctx → Lanes (.launch d a b) s fun _ t => WritesReg d 0 t) ∧
    (P.depth = 9 → t.handler = false → t.trapvec ≠ 0 → t.status = .ready → EntersHandler (.launch d a b) s j t 0x0D 0 0) ∧
    (∀ G, s.grid? T.ctx (t.g a) = some G → G.parent = some T.gid → G.state.ended = true →
      ∃ u t', exec (.gwait d a) s = .next u ∧ u.thread? s.issue.team j = some t' ∧ WritesReg d G.status t t') ∧
    (∀ G, s.grid? T.ctx (t.g a) = some G → G.parent = some T.gid → G.state.ended = false →
      Lanes (.gwait d a) s fun _ t t' => t' = t.wait (.grid (t.g a))) ∧
    ((∀ G, s.grid? T.ctx (t.g a) = some G → G.parent ≠ some T.gid) → Lanes (.gwait d a) s fun _ t => WritesReg d 4 t)

/-! ## Memory accesses

A bundle of one thread with no access in progress; the page of the access is RESIDENT in HBM and its translation cached. The value comes
from the die's own order of stores (R199). That an access performs in the step that issues it is the model's choice of timing (log 3). -/

/-- LD and LDM (R242, R245, R247): the words loaded, p7 and sr.resm, and no byte of memory changed; a load of an ABSENT page returns zero
with p7 and sr.resm zero and traps nothing. -/
def Obligations.LoadResults : Prop :=
  (∀ (s : State) (j : Nat) (T : Team) (t : Thread) (d a : BitVec 7) (imm : BitVec 11) (pa : Nat), Free s j T t →
     (Reaches s T (s.addressOf t a imm 1) 1 .load pa →
       Loads (.ldB d a imm) s j T t d .b pa ∧ Loads (.ldBs d a imm) s j T t d .bs pa) ∧
     (Reaches s T (s.addressOf t a imm 2) 2 .load pa →
       Loads (.ldH d a imm) s j T t d .h pa ∧ Loads (.ldHs d a imm) s j T t d .hs pa) ∧
     (Reaches s T (s.addressOf t a imm 4) 4 .load pa → Loads (.ldW d a imm) s j T t d .w pa) ∧
     (Reaches s T (s.addressOf t a imm 8) 8 .load pa → Loads (.ldX d a imm) s j T t d .x pa) ∧
     (Reaches s T (s.addressOf t a imm 16) 16 .load pa → Loads (.ldQ d a imm) s j T t d .q pa) ∧
     (∀ (wd : Width) (hint : BitVec 3), Reaches s T (t.gx a) (widthBytes wd) .load pa →
       Loads (.ldm d a .plain .unscoped wd hint) s j T t d wd pa)) ∧
  (∀ (s : State) (j : Nat) (T : Team) (t : Thread) (d a : BitVec 7) (imm : BitVec 11) (wd : Width) (hint : BitVec 3) (e : TlbEntry),
     Free s j T t →
     let zeros (i : Instr) (n : Nat) := ∃ u t', exec i s = .next u ∧ OnlyThread s u j T t' ∧ Loaded d (List.replicate n 0) false t t' ∧
       u = { s with teams := u.teams, dies := u.dies } ∧ SameDies s u
     (FindsAbsent s T (t.gx a) (widthBytes wd) .load e → ∀ sem sc, zeros (.ldm d a sem sc wd hint) (widthRegs wd)) ∧
     (FindsAbsent s T (s.addressOf t a imm 1) 1 .load e → zeros (.ldB d a imm) 1 ∧ zeros (.ldBs d a imm) 1) ∧
     (FindsAbsent s T (s.addressOf t a imm 2) 2 .load e → zeros (.ldH d a imm) 1 ∧ zeros (.ldHs d a imm) 1) ∧
     (FindsAbsent s T (s.addressOf t a imm 4) 4 .load e → zeros (.ldW d a imm) 1) ∧
     (FindsAbsent s T (s.addressOf t a imm 8) 8 .load e → zeros (.ldX d a imm) 2) ∧
     (FindsAbsent s T (s.addressOf t a imm 16) 16 .load e → zeros (.ldQ d a imm) 4))

/-- An acquiring or sequentially consistent LDM (R208, R213, R214): the value, no copy that a proxy read earlier, and for .sc the fences,
which leave every byte as the die sees it. -/
def Obligations.OrderedLoads : Prop :=
  ∀ (s : State) (j : Nat) (T : Team) (t : Thread) (d a : BitVec 7) (sc : Scope) (wd : Width) (hint : BitVec 3) (pa : Nat), Free s j T t →
    Reaches s T (t.gx a) (widthBytes wd) .load pa →
      (∃ u t', exec (.ldm d a .acq sc wd hint) s = .next u ∧ AccessThread s u j T t' ∧
        Loaded d (loadedWords wd ((List.range (widthBytes wd)).map fun k => s.byteFor T.core (pa + k))) true t t' ∧
        u = { s.beside u with proxies := [] } ∧ SameDies s u) ∧
      ((∀ f ∈ s.mem.flights, f.outside = false) → s.inOrderOn (dieOf T.core) →
        ∃ u t', exec (.ldm d a .sc sc wd hint) s = .next u ∧ AccessThread s u j T t' ∧
          Loaded d (loadedWords wd ((List.range (widthBytes wd)).map fun k => s.byteFor T.core (pa + k))) true t t' ∧
          u = { s.beside u with proxies := [], mem := u.mem } ∧ SameDies s u ∧ ∀ b, u.byteFor T.core b = s.byteFor T.core b)

/-- ST and STM (R199, R246, R247): the bytes stored are those of the address that the operands give; every other byte, as every die sees
it, is as it was. A store, ATOM, RED or STFL that meets an ABSENT page parks its thread, where the list of announcements is not full
(R243, R270, R271); one on a MIGRATING page bounces until the publish (R231, R274). -/
def Obligations.StoreResults : Prop :=
  (∀ (s : State) (j : Nat) (T : Team) (t : Thread) (d a : BitVec 7) (imm : BitVec 11) (pa : Nat), Free s j T t →
    (Reaches s T (s.addressOf t a imm 1) 1 .store pa → Calm s pa 1 → Stores (.stB d a imm) s j T t d 1 pa) ∧
    (Reaches s T (s.addressOf t a imm 2) 2 .store pa → Calm s pa 2 → Stores (.stH d a imm) s j T t d 2 pa) ∧
    (Reaches s T (s.addressOf t a imm 4) 4 .store pa → Calm s pa 4 → Stores (.stW d a imm) s j T t d 4 pa) ∧
    (Reaches s T (s.addressOf t a imm 8) 8 .store pa → Calm s pa 8 → Stores (.stX d a imm) s j T t d 8 pa) ∧
    (Reaches s T (s.addressOf t a imm 16) 16 .store pa → Calm s pa 16 → Stores (.stQ d a imm) s j T t d 16 pa) ∧
    (∀ (sem : Sem) (sc : Scope) (wd : Width) (hint : BitVec 3), sem = .plain ∨ sem = .rel →
      (sem = .rel → sc = .sys → ∀ f ∈ s.mem.flights, f.outside = false) → Reaches s T (t.gx a) (widthBytes wd) .store pa → Calm s pa (widthBytes wd) → Stores (.stm d a sem sc wd hint) s j T t d (widthBytes wd) pa) ∧
    (∀ (sc : Scope) (wd : Width) (hint : BitVec 3), Reaches s T (t.gx a) (widthBytes wd) .store pa → Calm s pa (widthBytes wd) →
      (∀ f ∈ s.mem.flights, f.outside = false) → s.inOrderOn (dieOf T.core) →
      ∃ u, exec (.stm d a .sc sc wd hint) s = .next u ∧ AccessThread s u j T { t with pc := t.pc + 4 } ∧
        u = { s.beside u with mem := u.mem, fresh := u.fresh } ∧ SameDies s u ∧
        (∀ k, k < widthBytes wd → u.byteFor T.core (pa + k) = (t.bytesFrom d 16).getD k 0) ∧
        ∀ b, b < pa ∨ pa + widthBytes wd ≤ b → u.byteFor T.core b = s.byteFor T.core b)) ∧
  (∀ (s : State) (j : Nat) (T : Team) (t : Thread) (d a b : BitVec 7) (imm : BitVec 11) (op : AOp) (sem : Sem) (sc : Scope) (wd : Width)
     (hint : BitVec 3) (wide : Bool), Free s j T t → t.status = .ready →
     let page (va : DWord) (e : TlbEntry) := pageBase (swapVa (s.ctx T.ctx).swaps va.toNat) e.size
     (∀ f ∈ s.accessForms t d a b imm op sem sc wd hint wide, f.need.writes = true →
       (f.instr = .stfl d a b wide sc → ∃ pf, Reaches s T (t.gx b) 4 .store pf) →
       (∀ e, FindsAbsent s T f.va f.n f.need e → s.announceFull T.ctx (BitVec.ofNat 64 (page f.va e)) true false = false →
         ParksOn f.instr s j T t f.va (page f.va e)) ∧
       (∀ e, FindsAbsent s T f.va f.n f.need e → s.announceFull T.ctx (BitVec.ofNat 64 (page f.va e)) true false = true →
         Joins f.instr s j T t f.va (.backoff (s.clock + 256)) fun u t' => t'.status = t.status ∧ u.mem = s.mem) ∧
       (FindsMoving s T f.va f.n f.need → AwaitsPublish f.instr s j T t f.va)) ∧
     (∀ pa e, Reaches s T (t.gx a) (if wide then 8 else 4) .store pa → FindsAbsent s T (t.gx b) 4 .store e →
       s.announceFull T.ctx (BitVec.ofNat 64 (page (t.gx b) e)) true false = false →
         ParksOn (.stfl d a b wide sc) s j T t (t.gx a) (page (t.gx b) e)))

/-- ATOM and RED of every scope (R210, R250, R251, R262), a RED on a page that need not be readable: the old value goes to the destination of
ATOM, the new value of R250 to memory; where a CAS does not match, nothing is written. -/
def Obligations.AtomicResults : Prop :=
  ∀ (s : State) (j : Nat) (T : Team) (t : Thread) (d a b : BitVec 7) (op : AOp) (pa : Nat), Free s j T t →
    let n := if op = .addX then 8 else 4
    Calm s pa n →
      (Reaches s T (t.gx a) n .atomic pa →
        ∀ i ∈ [Instr.atomT d a b op, .atomC d a b op, .atomD d a b op, .atomP d a b op, .atomS d a b op],
        ∃ u t', exec i s = .next u ∧ AccessThread s u j T t' ∧ SameDies s u ∧
          (if op = .addX then WritesPair d (wordAt (s.bytesFor T.core pa 8) 1 ++ wordAt (s.bytesFor T.core pa 8) 0) t t'
           else WritesReg d (wordAt (s.bytesFor T.core pa 4) 0) t t') ∧
          AtomicStored s u T t b op pa ∧ u = { s.beside u with mem := u.mem, fresh := u.fresh }) ∧
      (Reaches s T (t.gx a) n .red pa → ∀ i ∈ [Instr.redD a b op, .redP a b op, .redS a b op],
        ∃ u, exec i s = .next u ∧ AccessThread s u j T { t with pc := t.pc + 4 } ∧ SameDies s u ∧ AtomicStored s u T t b op pa ∧
          u = { s.beside u with mem := u.mem, fresh := u.fresh })

/-- STFL (R253): the data are stored, and the flag is one more, in one step where both addresses pass their checks. -/
def Obligations.FlagStores : Prop :=
  ∀ (s : State) (j : Nat) (T : Team) (t : Thread) (d a b : BitVec 7) (wide : Bool) (sc : Scope) (pa pf : Nat), Free s j T t →
    Reaches s T (t.gx a) (if wide then 8 else 4) .store pa → Reaches s T (t.gx b) 4 .store pf →
    (∀ f ∈ s.mem.flights, f.outside = false) → s.inOrderOn (dieOf T.core) →
    s.isWatched (lineOf pa) = false → s.isWatched (lineOf pf) = false →
    (∀ f ∈ s.mem.flights, f.touches pa 8 = false ∧ f.touches pf 4 = false) → (pa + 8 ≤ pf ∨ pf + 4 ≤ pa) →
      ∃ u t', exec (.stfl d a b wide sc) s = .next u ∧ u.thread? s.issue.team j = some t' ∧ t'.pc = t.pc + 4 ∧ t'.stack = t.stack ∧
        t'.cntSt = t.cntSt ∧ (∀ k, k < (if wide then 8 else 4) → u.byteFor T.core (pa + k) = (t.bytesFrom d 8).getD k 0) ∧
        wordAt (u.bytesFor T.core pf 4) 0 = wordAt (s.bytesFor T.core pf 4) 0 + 1 ∧
        ∀ c, (c < pa ∨ pa + (if wide then 8 else 4) ≤ c) → (c < pf ∨ pf + 4 ≤ c) → u.byteFor T.core c = s.byteFor T.core c

/-- The traps of an access at issue, of every width and scope, in the order of R240: MISALIGNED, ACCESS, UNMAPPED, PTE_POISON and MANAGED_RAW
(R240, R241, R275), and the wait of a memory instruction for a free entry (R228). -/
def Obligations.AccessTraps : Prop :=
  (∀ (s : State) (j : Nat) (T : Team) (t : Thread) (d a b : BitVec 7) (imm : BitVec 11) (op : AOp) (sem : Sem) (sc : Scope) (wd : Width)
     (hint : BitVec 3) (wide : Bool), Free s j T t → t.handler = false → t.trapvec ≠ 0 → t.status = .ready →
     ∀ f ∈ s.accessForms t d a b imm op sem sc wd hint wide,
       let C := s.ctx T.ctx
       let x := swapVa C.swaps f.va.toNat
       let traps (cause : BitVec 8) := EntersHandler f.instr s j t cause 0 f.va
       (f.va.toNat % f.n ≠ 0 → traps 0x05) ∧
       (f.va.toNat % f.n = 0 → inWindow f.va = true → T.ringLen = 0 → traps 0x06) ∧
       (f.va.toNat % f.n = 0 → inWindow f.va = false →
         (canonical f.va = false → traps 0x06) ∧
         (canonical f.va = true → s.extent? T f.va.toNat f.need.writes = none →
           (s.cached? T.core T.ctx x = none → s.slowWalk T f.va = false →
             (∀ c, s.walkIn (clusterOf T.core) T.ctx x = .refused c → traps c) ∧
             (∀ n, s.walkIn (clusterOf T.core) T.ctx x = .poisoned n false → traps 0x12) ∧
             ∀ n, s.walkIn (clusterOf T.core) T.ctx x = .poisoned n true → EntersMarked f.instr s j t n f.va) ∧
           ∀ e, s.cached? T.core T.ctx x = some e →
             ((f.need.allowed e.pte = false ∨ C.desc.inBacking f.va.toNat = true) → C.managed? e f.va.toNat = none ∨ pteSt e.pte ≠ 3 → traps 0x06) ∧
             (f.need.allowed e.pte = true → C.desc.inBacking f.va.toNat = false → pteSt e.pte = 3 → pteMreg e.pte ≠ 0 →
               (∀ r, C.managed? e f.va.toNat = some r → s.holdCount T.core T.ctx r f.va.toNat = 0 ∧ s.walkHold T.core T.ctx e f.va.toNat = s) →
                 traps 0x08)))) ∧
  (∀ (s : State) (j : Nat) (T : Team) (t : Thread) (d a b : BitVec 7) (op : AOp) (sem : Sem) (sc : Scope) (wd : Width) (hint : BitVec 3)
     (imm : BitVec 11), Free s j T t → t.handler = false → t.trapvec ≠ 0 → t.status = .ready →
     ((s.addressOf t a imm 4).toNat % 4 ≠ 0 →
       EntersHandler (.ldW d a imm) s j t 0x05 0 (s.addressOf t a imm 4) ∧ EntersHandler (.stW d a imm) s j t 0x05 0 (s.addressOf t a imm 4)) ∧
     ((t.gx a).toNat % widthBytes wd ≠ 0 →
       EntersHandler (.ldm d a sem sc wd hint) s j t 0x05 0 (t.gx a) ∧ EntersHandler (.stm d a sem sc wd hint) s j t 0x05 0 (t.gx a)) ∧
     ((t.gx a).toNat % 4 ≠ 0 → EntersHandler (.mwatch d a) s j t 0x05 0 (t.gx a)) ∧
     ((t.gx a).toNat % (if op = .addX then 8 else 4) ≠ 0 →
       EntersHandler (.atomD d a b op) s j t 0x05 0 (t.gx a) ∧ EntersHandler (.redD a b op) s j t 0x05 0 (t.gx a)) ∧
     ((t.gx a).toNat % widthBytes wd = 0 → canonical (t.gx a) = false → inWindow (t.gx a) = false →
       EntersHandler (.ldm d a sem sc wd hint) s j t 0x06 0 (t.gx a) ∧ EntersHandler (.stm d a sem sc wd hint) s j t 0x06 0 (t.gx a)) ∧
     (∀ e, (t.gx a).toNat % widthBytes wd = 0 → canonical (t.gx a) = true → inWindow (t.gx a) = false →
       s.cached? T.core T.ctx (swapVa (s.ctx T.ctx).swaps (t.gx a).toNat) = some e →
       (pteR e.pte = false → s.extent? T (t.gx a).toNat false = none → EntersHandler (.ldm d a sem sc wd hint) s j t 0x06 0 (t.gx a)) ∧
       (pteW e.pte = false → s.extent? T (t.gx a).toNat true = none → EntersHandler (.stm d a sem sc wd hint) s j t 0x06 0 (t.gx a)))) ∧
  (∀ (s : State) (T : Team) (d a b : BitVec 7) (imm : BitVec 11) (op : AOp), s.team? s.issue.team = some T →
     let n := s.issue.tids.length
     T.size < T.entries + n →
       Lanes (.ldW d a imm) s (fun _ t t' => t' = { t with status := .waiting (.entry n 1 0), bundle := none }) ∧
       Lanes (.stW d a imm) s (fun _ t t' => t' = { t with status := .waiting (.entry n 0 1), bundle := none }) ∧
       Lanes (.atomD d a b op) s (fun _ t t' => t' = { t with status := .waiting (.entry n 1 0), bundle := none }) ∧
       Lanes (.redD a b op) s (fun _ t t' => t' = { t with status := .waiting (.entry n 0 1), bundle := none }))

/-- REDN in a bundle of one thread (R395, R397): its units are in the staging area, and its request waits for the node; and the end of a round
(R396, R398, R399): it asks for the lines of its staging areas that are still to be read; then done rises by one, and without an error the
result is the contributions combined. -/
def Obligations.ReductionResults : Prop :=
  (∀ (s : State) (j : Nat) (T : Team) (t : Thread) (d a b : BitVec 7) (op : RedOp) (pa pc : Nat), Free s j T t →
     s.slowWalk T (t.gx a) = false → s.slowWalk T (t.gx b) = false → (t.gx a).toNat % 16 = 0 → (t.gx b).toNat % 128 = 0 →
     s.check T (t.gx a) 16 .store false true = (s, .ok pa false) → s.checkControl T (t.gx b) = (s, .ok pc false) →
     inNode pa = true → inNode pc = true → nodeOf pa = nodeOf pc → pa % 2 ^ 38 < 2 ^ 37 → 2 ^ 37 ≤ pc % 2 ^ 38 → s.unreachable pa = false →
     (∀ f ∈ s.mem.flights, f.touches pa 16 = false) →
       ∃ u U q, exec (.redn d a b op) s = .next u ∧ u.team? s.issue.team = some U ∧ U.reqs = T.reqs ++ [q] ∧ q.tid = j ∧
         q.counter = 2 ∧ (∃ l ids, q.op = .reduce l (t.gx b) op true ∧ q.stage = .settling ids ∧ ids ≠ []) ∧
         (u.thread? s.issue.team j).map (fun v => (v.pc, v.cntSt)) = some (t.pc + 4, t.cntSt + 1) ∧
         ∀ k, k < 16 → u.mem.byte (homeDie pa) (pa + k) = (t.bytesFrom d 16).getD k 0) ∧
  (∀ (s : State) (r : Round), s.rounds.find? (fun q => q.id == r.id) = some r → s.mem.flights = [] → 2 ^ 37 ≤ r.cl →
     (∀ c ∈ s.contexts, ∀ p ∈ c.2.pairs, p.leaving = false) →
     let rd (a n : Nat) := ofBytes (s.homeRead (r.cl + a) n)
     let S := r.cl - 2 ^ 37
     let L := rd 4 4
     let asked := r.asked = true ∨ s.roundLines r = []
     (s.roundReady r = false → exec (.reduceRoundComplete r.id) s = .next s) ∧
     (s.unreachable r.cl = true → s.roundReady r = false) ∧
     (s.roundReady r = true → ¬asked → exec (.reduceRoundComplete r.id) s = .next { s with
       outside := s.outside ++ (s.roundLines r).map fun n => { line := n, req := r.id, team := 0 }
       rounds := s.rounds.map fun q => if q.id = r.id then { q with asked := true } else q }) ∧
     (s.roundReady r = true → asked → Answers (.reduceRoundComplete r.id) s fun u => (∀ q ∈ u.rounds, q.id ≠ r.id) ∧ tget [] r.cl u.counts = [] ∧
       ofBytes (u.homeRead (r.cl + 16) 4) = (rd 16 4 + 1) % 2 ^ 32) ∧
     (s.roundReady r = true → rd 14 2 % 2 = 1 → Answers (.reduceRoundComplete r.id) s fun u => ofBytes (u.homeRead (r.cl + 14) 2) = rd 14 2 ∧
       ∀ d b, b < r.cl + 14 ∨ r.cl + 20 ≤ b → u.mem.byte d b = s.mem.byte d b) ∧
     (s.roundReady r = true → asked → rd 14 2 % 2 = 0 → s.badWords = [] → s.poison = [] → s.hostPoison = [] → (s.ctx r.ctx).desc.redpol = 1 →
       Answers (.reduceRoundComplete r.id) s fun u => (∀ k, k < L / 4 → 0 < rd 0 4 →
         ofBytes (u.homeRead (S + 4 * k) 4) = (((List.range (rd 0 4 - 1)).foldl
           (fun (acc : Word) c => redElement r.op acc (BitVec.ofNat 32 (ofBytes (s.homeRead (S + L * (2 + c) + 4 * k) 4))))
           (BitVec.ofNat 32 (ofBytes (s.homeRead (S + L + 4 * k) 4)))).toNat)) ∧
         ∀ d b, b < S ∨ S + L ≤ b → b < r.cl + 14 ∨ r.cl + 20 ≤ b → u.mem.byte d b = s.mem.byte d b))

/-- PREF, PGREQ (R249, R271, R272), and SMAP, SUNMAP, SFLUSH, SINV (R254 to R258): what each changes; no byte of memory. -/
def Obligations.StashResults : Prop :=
  (∀ (s : State) (j : Nat) (T : Team) (t : Thread) (d a b : BitVec 7) (imm : BitVec 11), Free s j T t →
     (∀ i ∈ [Instr.prefLlc a imm, .prefStash a imm],
       s.ownsClean → ∃ u, exec i s = .next u ∧ AccessThread s u j T { t with pc := t.pc + 4 } ∧
         u = { s with teams := u.teams, llc := u.llc, outside := u.outside }) ∧
     (∀ l, s.examine T t 64 (t.gx a).toNat ((t.gx a).toNat + (t.g b).toNat) = (s, .absent l) → s.announcesFull T.ctx l = true →
       ∀ i ∈ [Instr.pgreqNp d a b, .pgreq d a b], Lanes i s fun _ t t' => t' = t.wait .announce) ∧
     (∀ l, s.announcesFull T.ctx l = false → s.examine T t 64 (t.gx a).toNat ((t.gx a).toNat + (t.g b).toNat) = (s, .absent l) →
       (∃ u t', exec (.pgreqNp d a b) s = .next u ∧ u.thread? s.issue.team j = some t' ∧
         WritesReg d (BitVec.ofNat 32 l.length) { t with watch := t'.watch } t' ∧ (t'.watch = t.watch ∨ t'.watch = .triggered) ∧
         ∀ p ∈ l, ∃ r ∈ u.pageReqs, r.ctx = T.ctx ∧ r.addr = BitVec.ofNat 64 p) ∧
       (∃ u t', exec (.pgreq d a b) s = .next u ∧ u.thread? s.issue.team j = some t' ∧ t'.g d = BitVec.ofNat 32 l.length ∧
         t'.pc = t.pc + 4 ∧ (∀ p ∈ l, p ∈ t'.missing ∧ ∃ r ∈ u.pageReqs, r.ctx = T.ctx ∧ r.addr = BitVec.ofNat 64 p) ∧
         (l ≠ [] → t'.status = .parked) ∧ (l = [] → t'.status = t.status)))) ∧
  (∀ (s : State) (j : Nat) (T : Team) (t : Thread) (d a b : BitVec 7), Free s j T t →
     (∃ u t', exec (.smap d a b) s = .next u ∧ u = { s with teams := u.teams } ∧
       u.team? s.issue.team = some { T with
         maps := if t'.g d = 0 then T.maps ++ [{ base := t.gx a, offset := (t.g b).toNat, len := (t.at (t.pos b + 1)).toNat }] else T.maps
         threads := T.threads.set j t' } ∧
       WritesReg d (T.smapStatus (t.gx a).toNat (t.g b).toNat (t.at (t.pos b + 1)).toNat) t t') ∧
     (T.mapped? (t.gx a).toNat = none → Lanes (.sunmap d a) s fun _ t => WritesReg d 1 t) ∧
     (∀ m, T.mapped? (t.gx a).toNat = some m → m.scratch = true → Lanes (.sunmap d a) s fun _ t => WritesReg d 2 t) ∧
     (∀ m, s.ownsClean → T.mapped? (t.gx a).toNat = some m → m.scratch = false →
       ∃ u t' U, exec (.sunmap d a) s = .next u ∧ u = { s with teams := u.teams } ∧ u.team? s.issue.team = some U ∧
         U.maps = T.maps.filter (fun x => x != m) ∧ U.threads = T.threads.set j t' ∧ WritesReg d 0 t t') ∧
     (s.ownsClean → ∃ u, exec (.sflush a b) s = .next u ∧ OnlyThread s u j T { t with pc := t.pc + 4 } ∧ u = { s with teams := u.teams }) ∧
     (s.ownsClean → ∃ u, exec (.sinv a b) s = .next u ∧ OnlyThread s u j T { t with pc := t.pc + 4 } ∧ u = { s with teams := u.teams, proxies := [] }))

/-- PUB (R219, R263, R348, R349): what the walks of its pages cache and mark aside, a range that cannot be published gives its status and
changes nothing; otherwise, the pages of both ranges being cached, status 0, and the pair stands in the swap table, or leaves it where it
stood there before. -/
def Obligations.PublishResults : Prop :=
  ∀ (s : State) (j : Nat) (T : Team) (t : Thread) (d a b : BitVec 7), Free s j T t →
    let B := (t.gx a).toNat
    let S := ((t.gq b).setWidth 64).toNat
    let n := (t.at (t.pos b + 2)).toNat
    let w := s.publishWalks T B S n
    ((w.publishStatus T.core T.ctx B S n).1 ≠ 0 → ∃ u t', exec (.pub d a b) s = .next u ∧ u = { w with teams := u.teams } ∧
      u.thread? s.issue.team j = some t' ∧ WritesReg d (BitVec.ofNat 32 (w.publishStatus T.core T.ctx B S n).1) t t') ∧
    (w = s → (s.publishStatus T.core T.ctx B S n).1 = 0 →
      ∃ u t', exec (.pub d a b) s = .next u ∧ u.thread? s.issue.team j = some t' ∧ t'.g d = 0 ∧ t'.pc = t.pc + 4 ∧
        (u.ctx T.ctx).swaps = (if (s.ctx T.ctx).swaps.any (fun q => sameSwap q B S n) then
            (s.ctx T.ctx).swaps.filter fun q => !sameSwap q B S n
          else (s.ctx T.ctx).swaps ++ [{ b := B, s := S, len := n }]) ∧
        ∀ e ∈ (u.core T.core).tlb, e.ctx = T.ctx → e.meets T.ctx (B % 2 ^ 57) n = false ∧ e.meets T.ctx (S % 2 ^ 57) n = false)

/-- MWATCH and MWAIT (R295, R296, R299, R300, R380): MWATCH loads the word and arms the thread's watch on its line; MWAIT returns 2 without a
watch, 0 where it has triggered, and parks while it is armed, until its timeout. -/
def Obligations.WatchResults : Prop :=
  ∀ (s : State) (j : Nat) (T : Team) (t : Thread) (d a b : BitVec 7) (pa : Nat), Free s j T t →
    (Reaches s T (t.gx a) 4 .load pa → Calm s (lineOf pa * 128) 128 → (s.die (homeDie pa)).watches = [] →
      ∃ u t', exec (.mwatch d a) s = .next u ∧ u.thread? s.issue.team j = some t' ∧ t'.watch = .armed (lineOf pa) true ∧
        t'.g d = wordAt (s.bytesFor T.core pa 4) 0 ∧ t'.p 7 = true ∧ t'.pc = t.pc + 4 ∧ u.mem = s.mem ∧
        (lineOf pa, T.ctx) ∈ (u.die (homeDie pa)).watches) ∧
    (t.watch = .idle → Unwatches (.mwait d b) s fun t => WritesReg d 2 t) ∧
    (t.watch = .triggered → Unwatches (.mwait d b) s fun t t' => t'.watch = .idle ∧ WritesReg d 0 { t with watch := .idle } t') ∧
    (∀ l, t.watch = .armed l true → Unwatches (.mwait d b) s fun t t' => t' = { t with
      pc := t.pc + 4, bundle := none
      status := .watching (t.pos d) (if (t.g b).toNat = 0 then none else some (s.clock + (t.g b).toNat)) s.clock }) ∧
    (∀ l, t.watch = .armed l false → Unwatches (.mwait d b) s fun t t' => t'.watch = .idle ∧ WritesReg d 2 { t with watch := .idle } t')

/-! ## Fences, barriers and counters -/

/-- FENCE (R223), WAITC (R292), and the completion counters (R293, R294). -/
def Obligations.FenceResults : Prop :=
  (∀ (s : State) (j : Nat) (T : Team) (t : Thread) (sc tile eng st ld : Bool) (scope : Scope) (a b c d : BitVec 5), Alone s j T t →
     let kinds := kindsOf tile eng (st || sc) (ld || sc)
     ((∀ r ∈ T.reqs, r.tid = j → r.fenced kinds = false) → (eng = true → T.kicksOf j = []) →
       (tile = true → s.tileOpsOf s.issue.team j T = []) → (∀ f ∈ s.mem.flights, f.outside = false) →
       ∃ u, exec (.fence sc tile eng st ld scope) s = .next u ∧ OnlyThread s u j T { t with pc := t.pc + 4 } ∧ Untouched s u ∧
         u = { s with teams := u.teams, mem := u.mem, proxies := u.proxies } ∧
         (s.inOrderOn (dieOf T.core) → ∀ n, u.byteFor T.core n = s.byteFor T.core n) ∧
         ((st = true ∨ sc = true) → scope = .pkg ∨ scope = .sys → ∀ f ∈ u.mem.flights, dieOf T.core ∈ f.at_ → ∀ e, e < 8 → e ∈ f.at_)) ∧
     ((∃ r ∈ T.reqs, r.tid = j ∧ r.fenced kinds = true) → ∃ w, Lanes (.fence sc tile eng st ld scope) s fun _ t t' =>
       t' = { t with pc := t.pc + 4, bundle := none, status := .waiting w }) ∧
     Lanes (.waitc a b c d) s (fun _ t t' =>
       if (a = 31 ∨ t.cntLd ≤ a.toNat) ∧ (b = 31 ∨ t.cntSt ≤ b.toNat) ∧ (c = 31 ∨ t.cntCp ≤ c.toNat) ∧ (d = 31 ∨ t.cntTl ≤ d.toNat)
       then t' = { t with pc := t.pc + 4 }
       else t' = { t with pc := t.pc + 4, bundle := none, status := .waiting (.counters a b c d) })) ∧
  (∀ (s : State) (j : Nat) (T : Team) (t : Thread) (n : BitVec 3) (a d : BitVec 7) (imm : BitVec 11), Alone s j T t →
     let next := T.threads.set j { t with pc := t.pc + 4 }
     OnlyTeam (.ccset n a) s { T with cc := T.cc.set n.toNat (t.g a), threads := next } ∧
     OnlyTeam (.ccadd n a) s { T with cc := T.cc.set n.toNat (T.cc[n.toNat] + t.g a), threads := next } ∧
     Lanes (.ccrd d n) s (fun _ => WritesReg d T.cc[n.toNat]) ∧
     (T.cc[n.toNat].toNat < imm.toNat → Acquires (.waitb n imm) s j T { t with pc := t.pc + 4 }) ∧
     (imm.toNat ≤ T.cc[n.toNat].toNat → OnlyTeam (.waitb n imm) s { T with
       threads := T.threads.set j { t with pc := t.pc + 4, bundle := none, status := .waiting (.completion n imm.toNat) } }))

/-- BAR.SYNC, BAR.ARRIVE and BAR.WAIT (R282 to R286), of a thread that has not arrived in the open generation: it waits for its own older
accesses (R200, R285); with none left, while another thread has neither arrived nor exited, it arrives, and SYNC waits; where it is the last, the generation completes, the next one opens with no
arrivals, and the threads that wait for it become READY, or PARKED on a missing page. WAIT compares generations as signed 32-bit differences:
it goes on for one past and waits for the open one. A second arrival, and a WAIT on a future generation, or on the open one without an
arrival, is BARRIER_MISUSE. -/
def Obligations.BarrierResults : Prop :=
  ∀ (s : State) (j : Nat) (T : Team) (t : Thread) (n : BitVec 4) (a : BitVec 7), Alone s j T t → t.status = .ready → t.missing = [] →
    let b := T.bars[n.toNat]
    let last := ∀ i x, T.threads[i]? = some x → i ≠ j → x.status = .exited ∨ i ∈ b.arrived
    let arrive : Barrier := { b with arrived := b.arrived ++ [j], since := if b.arrived = [] then s.clock else b.since }
    (j ∈ b.arrived → t.handler = false → t.trapvec ≠ 0 →
      EntersHandler (.barSync n) s j t 0x16 0 0 ∧ EntersHandler (.barArrive n a) s j t 0x16 0 0) ∧
    (j ∉ b.arrived → T.reqsOf j ≠ [] → ∀ i, i = .barSync n ∨ i = .barArrive n a →
      Lanes i s fun _ t t' => t' = t.wait (.older ((T.reqsOf j).map fun r => r.id))) ∧
    (j ∉ b.arrived → T.reqsOf j = [] → ¬ last →
      OnlyTeam (.barSync n) s { T with bars := T.bars.set n.toNat arrive
                                       threads := T.threads.set j { t with
                                         pc := t.pc + 4, bundle := none, status := .waiting (.barrier n b.gen) } } ∧
      ∃ t', WritesReg a b.gen t t' ∧
        OnlyTeam (.barArrive n a) s { T with bars := T.bars.set n.toNat arrive, threads := T.threads.set j t' }) ∧
    (j ∉ b.arrived → T.reqsOf j = [] → last → ∀ i, i = .barSync n ∨ i = .barArrive n a →
      ∃ u U, exec i s = .next u ∧ u = { s with teams := u.teams, dies := u.dies, fresh := u.fresh } ∧ SameDies s u ∧
        (∀ k, k ≠ s.issue.team → u.team? k = s.team? k) ∧ u.team? s.issue.team = some U ∧
        U = { T with bars := T.bars.set n.toNat { gen := b.gen + 1 }, threads := U.threads } ∧
        (∃ t', U.threads[j]? = some t' ∧ t'.status = .ready ∧ t'.pc = t.pc + 4 ∧ (i = .barArrive n a → t'.g a = b.gen)) ∧
        ∀ k x, T.threads[k]? = some x → k ≠ j →
          ∃ x', U.threads[k]? = some x' ∧ x' = { x with status := x'.status, bundle := x'.bundle } ∧
            x'.status = if x.status = .waiting (.barrier n b.gen) then (if x.missing = [] then .ready else .parked)
              else if ∃ g, x.status = .waiting (.barrier n g) then x'.status else x.status) ∧
    (0 < (b.gen - t.g a).toInt → (t.g a - b.gen).toInt ≤ 0 →
      OnlyTeam (.barWait n a) s { T with threads := T.threads.set j { t with pc := t.pc + 4 } }) ∧
    (t.g a ≠ b.gen → (b.gen - t.g a).toInt ≤ 0 → (t.g a - b.gen).toInt ≤ 0 → OnlyTeam (.barWait n a) s { T with
      threads := T.threads.set j { t with pc := t.pc + 4, bundle := none, status := .waiting (.barrier n (t.g a)) } }) ∧
    (t.g a = b.gen → j ∈ b.arrived → OnlyTeam (.barWait n a) s { T with
      threads := T.threads.set j { t with pc := t.pc + 4, bundle := none, status := .waiting (.barrier n b.gen) } }) ∧
    (0 < (t.g a - b.gen).toInt ∨ (t.g a = b.gen ∧ j ∉ b.arrived) → t.handler = false → t.trapvec ≠ 0 → EntersHandler (.barWait n a) s j t 0x16 0 0)

/-- The TBAR instructions (R287 to R291) in one lane whose address the thread reaches, after its own older accesses (R200). In no stash
mapping of the team they are ACCESS. In one, TBINIT opens the first phase with its count, TBEXP adds to BYTES, TBARR takes one from PENDING
and returns GEN, each completing the phase when nothing is left; TBERR clears the error and returns it; TBWAIT and TBTEST answer for a
phase; TBWAIT acquires, TBTEST where the phase has passed. An object that is none, and a count out of range, is BARRIER_MISUSE. -/
def Obligations.TbarResults : Prop :=
  ∀ (s : State) (j : Nat) (T : Team) (t : Thread) (d a b : BitVec 7) (pa : Nat), Alone s j T t → t.status = .ready →
    T.reqsOf j = [] → Reaches s T (t.gx a) 32 .atomic pa → Calm s pa 32 →
    let o := Tbar.of (s.bytesFor T.core pa 32)
    let n := (t.g b).toNat
    let next := { t with pc := t.pc + 4 }
    let ask := [.tbexp a b, .tbarr d a, .tbwait d a b, .tbtest d a b, .tberr d a]
    (T.mapped? (t.gx a).toNat = none → t.handler = false → t.trapvec ≠ 0 →
      ∀ i ∈ .tbinit a b :: ask, EntersHandler i s j t 0x06 0 (t.gx a)) ∧
    ((T.mapped? (t.gx a).toNat).isSome = true →
      (1 ≤ n → n ≤ 65535 → SetsTbar (.tbinit a b) s j T pa
        { gen := if o.flags % 2 = 1 then o.gen else 0, bytes := 0, pending := n, expected := n, error := 0, flags := 1, bitmap := 0, detail := 0 } next) ∧
      ((n = 0 ∨ 65535 < n) → t.handler = false → t.trapvec ≠ 0 → EntersHandler (.tbinit a b) s j t 0x16 0 (t.gx a)) ∧
      ((o.flags ≠ 1 ∨ o.expected < o.pending) → t.handler = false → t.trapvec ≠ 0 → ∀ i ∈ ask, EntersHandler i s j t 0x16 0 (t.gx a)) ∧
      (o.flags = 1 → o.pending ≤ o.expected →
        SetsTbar (.tbexp a b) s j T pa ({ o with bytes := o.bytes + t.g b } : Tbar).complete next ∧
        (o.pending ≠ 0 → ∃ t', WritesReg d o.gen t t' ∧ SetsTbar (.tbarr d a) s j T pa ({ o with pending := o.pending - 1 } : Tbar).complete t') ∧
        (o.pending = 0 → t.handler = false → t.trapvec ≠ 0 → EntersHandler (.tbarr d a) s j t 0x16 0 (t.gx a)) ∧
        (∃ t', WritesWords d [o.error.setWidth 32, 1, o.detail.extractLsb' 0 32, o.detail.extractLsb' 32 32] 0 t t' ∧
          SetsTbar (.tberr d a) s j T pa ({ o with error := 0, detail := 0 } : Tbar).complete t') ∧
        (0 < (o.gen - t.g b).toInt → ∀ i, i = .tbwait d a b ∨ i = .tbtest d a b → ∃ t', WritesReg d 0 t t' ∧ AcquiresTbar i s j T t') ∧
        ((o.gen - t.g b).toInt ≤ 0 → o.error ≠ 0 →
          (∃ t', WritesReg d 1 t t' ∧ AcquiresTbar (.tbwait d a b) s j T t') ∧ ∃ t', WritesReg d 1 t t' ∧ ReadsTbar (.tbtest d a b) s j T t') ∧
        ((o.gen - t.g b).toInt ≤ 0 → o.error = 0 →
          (∃ t', WritesReg d 2 t t' ∧ ReadsTbar (.tbtest d a b) s j T t') ∧
          OnlyTeam (.tbwait d a b) s { T with threads := T.threads.set j { t with
            pc := t.pc + 4, bundle := none, status := .waiting (.phase (t.gx a) (t.g b) (t.pos d)) } })))

/-! ## Tiles -/

/-- MXACQ, MXREL, and what every tile instruction meets first (R94, R313, R319, R320): without TILES it is PRIVILEGE; where another context
owns the core's tiles it asks for the transfer and waits. MXACQ gives a free engine to the team, queues it behind an owner, and returns
2 where thirteen teams wait; MXREL passes the engine on. The transfer makes its context the owner. -/
def Obligations.TileOwnership : Prop :=
  ∀ (s : State) (j : Nat) (T : Team) (t : Thread) (d a b : BitVec 7) (acc src : BitVec 6) (abuf cb : BitVec 3) (bslot : BitVec 9)
    (f : TFmt) (g : TIFmt) (q : BitVec 2) (x y z : Bool), Alone s j T t → t.status = .ready →
    let k := s.issue.team
    let C := s.core T.core
    let all := [.mxacq d, .mxrel d, .tmma acc abuf bslot f x y z, .tmmai acc abuf bslot g x y z, .tzero acc x, .trd d acc b, .twr d acc b,
      .trowsum d acc, .trowssq d acc, .trowmax d acc, .trowmul acc b, .trowadd acc b, .tcvt acc abuf q f x, .tscale acc src b,
      .tlda a b, .tstate d a, .trel a, .cbld cb a]
    ((s.ctx T.ctx).desc.tiles = false → t.handler = false → t.trapvec ≠ 0 → ∀ i ∈ all, EntersHandler i s j t 0x04 0 0) ∧
    ((s.ctx T.ctx).desc.tiles = true → C.accown ≠ T.ctx → ∀ i ∈ all, ∃ u, exec i s = .next u ∧
      u = { s with teams := u.teams, cores := u.cores } ∧ (u.core T.core).wants = some T.ctx ∧
      u.thread? k j = some { t with bundle := none, status := .waiting .transfer }) ∧
    ((s.ctx T.ctx).desc.tiles = true → C.accown = T.ctx →
      (T.accs = 0 → T.abufs = 0 → T.bslots = 0 → t.handler = false → t.trapvec ≠ 0 → EntersHandler (.mxacq d) s j t 0x06 0 0) ∧
      (0 < T.accs + T.abufs + T.bslots →
        (C.owner = some k → Lanes (.mxacq d) s fun _ => WritesReg d 0) ∧
        (C.owner = none → C.ownerQueue = [] → ∃ u t', exec (.mxacq d) s = .next u ∧ (u.core T.core).owner = some k ∧
          u.thread? k j = some t' ∧ WritesReg d 0 t t') ∧
        (C.owner ≠ none → C.owner ≠ some k → (∀ e ∈ C.ownerQueue, e.1 ≠ k) →
          (C.ownerQueue.length < 13 → ∃ u, exec (.mxacq d) s = .next u ∧ (u.core T.core).owner = C.owner ∧
            (u.core T.core).ownerQueue = C.ownerQueue ++ [(k, s.clock)] ∧
            u.thread? k j = some { t with pc := t.pc + 4, bundle := none, status := .waiting (.engine (t.pos d)) }) ∧
          (13 ≤ C.ownerQueue.length → Lanes (.mxacq d) s fun _ => WritesReg d 2))) ∧
      (C.owner = some k → ∃ u t', exec (.mxrel d) s = .next u ∧ u.thread? k j = some t' ∧ WritesReg d 0 t t' ∧
        (u.core T.core).owner = C.ownerQueue.head?.map (fun e => e.1) ∧ (u.core T.core).ownerQueue = C.ownerQueue.drop 1) ∧
      (C.owner ≠ some k → (∃ e ∈ C.ownerQueue, e.1 = k) → ∃ u t', exec (.mxrel d) s = .next u ∧ u.thread? k j = some t' ∧
        WritesReg d 1 t t' ∧ (u.core T.core).owner = C.owner ∧ ∀ e ∈ (u.core T.core).ownerQueue, e.1 ≠ k) ∧
      (C.owner ≠ some k → (∀ e ∈ C.ownerQueue, e.1 ≠ k) → Lanes (.mxrel d) s fun _ => WritesReg d 2)) ∧
    (∀ c n, s.transferReady c (BitVec.toNat n) = true → ∃ u, exec (.tileOwnershipTransfer c n) s = .next u ∧
      (u.core c).accown = n.toNat ∧ (u.core c).wants = none ∧ ((s.core c).accown = 0 → s.badWords = [] → u.mem = s.mem))

/-- The instructions of the sequencer (R306 to R311, R314, R318 to R325): with the engine owned, room in the sequencer and each operand
tile READY (or EMPTY with no fill to come, where the instruction may write an EMPTY one), the operation is accepted with the lanes' rows and register
operands. With an operand tile EMPTY and no fill to come the bundle traps TILE_EMPTY. -/
def Obligations.TileOperations : Prop :=
  ∀ (s : State) (T : Team) (d a b : BitVec 7) (acc src : BitVec 6) (abuf cb : BitVec 3) (bslot : BitVec 9) (f : TFmt) (g : TIFmt)
    (q : BitVec 2) (free all : Bool), TileReady s T →
    let C := s.core T.core
    let x := T.accBase + acc.toNat
    let y := 64 + T.abufBase + abuf.toNat
    let z := 72 + T.bslotBase + bslot.toNat
    let w := T.accBase + src.toNat
    let o : SeqOp := { id := 0, team := 0, tids := [], rows := s.rowMask false, op := .zero, acc := some x }
    let dest := s.lanes.map fun l => (l.1, l.2.pos d)
    (∀ l, leader? s.lanes = some l → Accepted (.cbld cb a) s T { o with
      rows := [], acc := none, op := .cbld cb ((List.range 8).flatMap fun n => toBytes 4 (l.2.at (l.2.pos a + n)).toNat) } fun _ => True) ∧
    let pending (n : Nat) := s.fillPending s.issue.team T n
    (C.owner = some s.issue.team → acc.toNat < T.accs →
      ((C.tile x).state = .ready ∨ ((C.tile x).state = .empty ∧ pending x = false) →
        Accepted (.tzero acc all) s T { o with rows := s.rowMask all } (fun u => ((u.core T.core).tile x).state = .ready) ∧
        Accepted (.twr d acc b) s T { o with op := .twr (s.lanes.map fun l => (laneOf l.1, (l.2.g b).toNat % 8,
          [l.2.g d, l.2.at (l.2.pos d + 1), l.2.at (l.2.pos d + 2), l.2.at (l.2.pos d + 3)])) } (fun u => ((u.core T.core).tile x).state = .ready)) ∧
      ((C.tile x).state = .ready →
        Accepted (.trd d acc b) s T { o with
          op := .trd (s.lanes.map fun l => (laneOf l.1, (l.2.g b).toNat % 8)), dest := dest } (fun _ => True) ∧
        Accepted (.trowsum d acc) s T { o with op := .rowsum, dest := dest } (fun _ => True) ∧
        Accepted (.trowssq d acc) s T { o with op := .rowssq, dest := dest } (fun _ => True) ∧
        Accepted (.trowmax d acc) s T { o with op := .rowmax, dest := dest } (fun _ => True) ∧
        Accepted (.trowmul acc b) s T { o with op := .rowmul (rowValues s.lanes b) } (fun _ => True) ∧
        Accepted (.trowadd acc b) s T { o with op := .rowadd (rowValues s.lanes b) } (fun _ => True) ∧
        (src.toNat < T.accs → (C.tile w).state = .ready → ∀ l, leader? s.lanes = some l →
          let columns := (List.range 8).map fun n => l.2.at (l.2.pos b + n)
          let rows := s.lanes.foldl (fun m l => tput (laneOf l.1) (l.2.at (l.2.pos b + 8)) m) []
          Accepted (.tscale acc src b) s T { o with src := some w, op := .scale columns rows } (fun _ => True)) ∧
        (abuf.toNat < T.abufs → (C.tile y).state = .ready ∨ ((C.tile y).state = .empty ∧ pending y = false) →
          Accepted (.tcvt acc abuf q f all) s T { o with abuf := some y, rows := s.rowMask all, op := .cvt f q.toNat }
            (fun u => ((u.core T.core).tile y).state = .ready ∧ ((u.core T.core).tile y).cb = none))) ∧
      (∀ zero : Bool, abuf.toNat < T.abufs → bslot.toNat < T.bslots →
        (C.tile x).state = .ready ∨ (zero = true ∧ (C.tile x).state = .empty ∧ pending x = false) →
        (C.tile y).state = .ready → (C.tile z).state = .ready →
        Accepted (.tmmai acc abuf bslot g free zero all) s T { o with
          abuf := some y, bslot := some z, rows := s.rowMask all, op := .mmai g zero, free := free }
          (fun u => ((u.core T.core).tile y).state = if free then .draining else .ready) ∧
        (∀ slots, (if f = .cb4 then ∃ m n, (C.tile y).cb = some m ∧ (C.tile z).cb = some n ∧ slots = some (m.toNat, n.toNat) else slots = none) →
          Accepted (.tmma acc abuf bslot f free zero all) s T { o with
            abuf := some y, bslot := some z, slots := slots, rows := s.rowMask all, op := .mma f zero, free := free }
            (fun u => ((u.core T.core).tile y).state = if free then .draining else .ready)))) ∧
    (∀ j t, Alone s j T t → t.status = .ready → t.handler = false → t.trapvec ≠ 0 →
      (C.owner ≠ some s.issue.team → acc.toNat < T.accs → EntersHandler (.trowsum d acc) s j t 0x10 0 0 ∧ EntersHandler (.tzero acc all) s j t 0x10 0 0) ∧
      (T.accs ≤ acc.toNat → EntersHandler (.trowsum d acc) s j t 0x06 0 0 ∧ EntersHandler (.tzero acc all) s j t 0x06 0 0) ∧
      (C.owner = some s.issue.team → acc.toNat < T.accs → (C.tile x).state = .poisoned → EntersHandler (.trowsum d acc) s j t 0x0F 0 0) ∧
      (C.owner = some s.issue.team → acc.toNat < T.accs → (C.tile x).state = .empty → s.fillPending s.issue.team T x = false →
        EntersHandler (.trowsum d acc) s j t 0x0E 0 0))

/-- The sequencer and fills (R310, R314, R321 to R325, R327): the oldest operation that has not started takes its operands at its start; at
its completion its result is written to its tile, marked dirty, or to its lanes' registers, with the flags of the team and of the
threads ORed in, and cnt.tl falls. A fill ends with its tile READY, byte by byte as its source reads. -/
def Obligations.TileSequencer : Prop :=
  ∀ (s : State) (c k : Nat) (T : Team),
    let C := s.core c
    (∀ o r, C.seq = o :: r → (∀ p ∈ r, p.id ≠ o.id) → o.startedAt = none → ∃ u o', exec (.tileOpStart c) s = .next u ∧ u.mem = s.mem ∧ (u.core c).seq = o' :: r ∧
      o'.startedAt = some s.clock ∧ o'.op = o.op ∧ o'.rows = o.rows ∧ o'.dest = o.dest ∧
      (∀ n, o.isProduct = true → o.abuf = some n → o'.opA = (C.tile n).data) ∧
      (∀ n, o.isProduct = true → o.bslot = some n → o'.opB = (C.tile n).data) ∧
      ∀ m n, o.slots = some (m, n) → o'.cbA = C.codebook m ∧ o'.cbB = C.codebook n) ∧
    (∀ o r, C.seq = o :: r → (∀ p ∈ r, p.id ≠ o.id) → s.team? o.team = some T → o.startedAt ≠ none → o.errs = [] → (∀ x ∈ C.tiles, x.2.state ≠ .draining) →
      (∀ n ∈ o.tiles, (C.tile n).state = .ready ∧ (C.tile n).bad = false) →
      ∃ u U, exec (.tileOpComplete c) s = .next u ∧ u.mem = s.mem ∧ (u.core c).seq = r ∧ u.team? o.team = some U ∧
        (∀ n, o.acc = some n →
          let D := (C.tile n).data
          let E := ((u.core c).tile n).data
          (∀ f z, o.op = .mma f z → E = (tmmaRows f z o.opA o.opB o.cbA o.cbB o.rows D).1 ∧
            U.tnv = (T.tnv || (tmmaRows f z o.opA o.opB o.cbA o.cbB o.rows D).2.nv)) ∧
          (∀ f z, o.op = .mmai f z → E = tmmaiRows f z o.opA o.opB o.rows D) ∧
          (o.op = .zero → E = tzeroRows o.rows D ∧ ((u.core c).tile n).dirty = true) ∧
          (∀ v, o.op = .twr v → E = v.foldl (fun m x => putAcc m x.1 (4 * x.2.1) x.2.2) D) ∧
          (∀ sb sa m, o.op = .scale sb sa → o.src = some m → E = (tscaleRows sb sa (C.tile m).data D).1) ∧
          (∀ v, o.op = .rowmul v → E = (rowOp true v D).1 ∧ U.tof = (T.tof || (rowOp true v D).2.of)) ∧
          (∀ v, o.op = .rowadd v → E = (rowOp false v D).1 ∧ U.tof = (T.tof || (rowOp false v D).2.of)) ∧
          (∀ f q m, o.op = .cvt f q → o.abuf = some m → m ≠ n → ((u.core c).tile m).data = (tcvtRows f q D o.rows (C.tile m).data).1 ∧ E = D) ∧
          (∀ i p t, o.tids = [i] → o.dest = [(i, p)] → T.threads[i]? = some t → tget? p t.pendRegs = some o.id →
            ∃ t', U.threads[i]? = some t' ∧ t'.cntTl = t.cntTl - 1 ∧ t'.pc = t.pc ∧
              ((∀ l, o.op ≠ .trd l) → ∀ m, m ≠ p → t'.at m = t.at m) ∧
              (∀ q, o.op = .trd [(laneOf i, q)] → q < 8 → (∀ m, m < 4 → tget? (p + m) t.pendRegs = some o.id) →
                ∀ m, m < 4 → t'.at (p + m) = (accRow D (laneOf i)).getD (4 * q + m) 0) ∧
              (o.op = .rowsum → t'.at p = (rowSum (accRow D (laneOf i))).1 ∧ t'.fpflags = t.fpflags ||| (rowSum (accRow D (laneOf i))).2) ∧
              (o.op = .rowssq → t'.at p = (rowSsq (accRow D (laneOf i))).1) ∧
              (o.op = .rowmax → t'.at p = (rowMax (accRow D (laneOf i))).1))) ∧
        (∀ n b, o.op = .cbld n b → o.acc = none → (u.core c).codebook n.toNat = b)) ∧
    (∀ f, s.fill? k = some (c, f) → s.team? f.team = some T → s.fillReady c f = true → (∀ m ∈ s.cmds, m.id ≠ f.id) → T.killed = false →
      s.ownsClean → (∀ p ∈ piecesOf f.source, s.engineNeeds c T.ctx p.1 = false) →
      s.asking f.id = false → f.asked = true ∨ s.farLines c T.ctx f.source = [] →
      (∀ n, n < tileSize f.tile / 256 → f.blocks.getD n true = true ∧ ∃ pa, s.engineAt c T.ctx (f.src.toNat + 256 * n) false = .at_ pa ∧
        s.unreachable pa = false ∧ s.badBlock? pa 256 = none) →
      ∃ u, exec (.tileFillComplete k) s = .next u ∧ u.mem = s.mem ∧ ((u.core c).tile f.tile).state = .ready ∧
        ((u.core c).tile f.tile).dirty = true ∧ ∀ n pa m, n < tileSize f.tile / 256 → m < 256 →
          s.engineAt c T.ctx (f.src.toNat + 256 * n) false = .at_ pa →
            sget (256 * n + m) ((u.core c).tile f.tile).data = s.mem.byte (accessDie (dieOf c) pa) (pa + m))

/-- TSTATE, TREL and TLDA in a bundle of one thread (R326 to R329): TSTATE writes the tile's state, dirty bit, binding and the engine's
owner; TREL empties a READY or POISONED tile that no accepted operation names; TLDA takes an EMPTY tile for a fill, sets p7 where every
block is resident, and counts in cnt.tl. -/
def Obligations.TileBuffers : Prop :=
  ∀ (s : State) (j : Nat) (T : Team) (t : Thread) (d a b : BitVec 7), Alone s j T t → TileReady s T →
    let C := s.core T.core
    (T.selected? (t.g a) = none → Lanes (.tstate d a) s fun _ => WritesReg d 0xFFFFFFFF) ∧
    (∀ n, T.selected? (t.g a) = some n → Lanes (.tstate d a) s fun _ t t' => WritesReg d (t'.g d) t t' ∧
      (t'.g d).extractLsb' 0 3 = (match (C.tile n).state with
        | .empty => 0#3 | .filling => 1 | .ready => 2 | .draining => 3 | .poisoned => 4) ∧
      (t'.g d).getLsbD 4 = (C.tile n).dirty ∧ (t'.g d).extractLsb' 5 3 = (C.tile n).cb.getD 0 ∧ (t'.g d).getLsbD 8 = (C.tile n).cb.isSome ∧
      (t'.g d).getLsbD 9 = decide (C.owner = some s.issue.team) ∧ (t'.g d) >>> 10 = 0) ∧
    (∀ n, T.selected? (t.g a) = some n → (∀ o ∈ C.seq, n ∉ o.tiles) → (C.tile n).state = .ready ∨ (C.tile n).state = .poisoned →
      ∃ u, exec (.trel a) s = .next u ∧ (u.core T.core).tile n = {} ∧ (u.thread? s.issue.team j).map (fun v => v.pc) = some (t.pc + 4)) ∧
    (∀ n, T.selected? (t.g a) = some n → (C.tile n).state = .filling ∨ (C.tile n).state = .draining →
      Lanes (.trel a) s fun _ t t' => t' = { t with bundle := none, status := .waiting (.tile n) }) ∧
    (∀ n, T.selected? (t.g b) = some n → (t.gx a).toNat % 256 = 0 → (C.tile n).state = .empty → s.fillPending s.issue.team T n = false →
      T.reqsOf j = [] → (∀ m, m < tileSize n / 256 → ∃ pa, Reaches s T (t.gx a + BitVec.ofNat 64 (256 * m)) 256 .load pa) →
      ∃ u t', exec (.tlda a b) s = .next u ∧ u.mem = s.mem ∧ u.thread? s.issue.team j = some t' ∧ t'.pc = t.pc + 4 ∧ t'.p 7 = true ∧
        t'.cntTl = t.cntTl + 1 ∧ ((u.core T.core).tile n).state = .filling ∧ ((u.core T.core).tile n).fill = some s.fresh ∧
        ∃ f ∈ (u.core T.core).fills, f.id = s.fresh ∧ f.tile = n ∧ f.src = t.gx a)

/-! ## References -/

/-- Managed references (R353, R354, R358 to R360, R366 to R374): the loads and stores through a reference, the three steps of a store to an object
in evacuation, and the REFOP forms. -/
def Obligations.ReferenceResults : Prop :=
  (∀ (s : State) (j : Nat) (T : Team) (t : Thread) (d b : BitVec 7) (r q : BitVec 4) (imm : BitVec 11) (pa : Nat), Free s j T t →
     let rg := refRegion (t.ref r)
     let obj := BitVec.ofNat 64 (refObj (t.ref r))
     let ea (n : Nat) : DWord := obj + s.immX imm * BitVec.ofNat 64 n
     let er := obj + (t.g b).signExtend 64
     (refNull (t.ref r) = true → t.handler = false → t.trapvec ≠ 0 → t.status = .ready →
       ∀ i ∈ [.rldW d r imm, .rldX d r imm, .rstW d r imm, .rstX d r imm, .rldr q r b, .pin d r, .unpin d r], EntersHandler i s j t 0x09 0 0) ∧
     (Resolves s T (t.ref r) →
       (InRegion s T rg (ea 4) → Reaches s T (ea 4) 4 .load pa → Loads (.rldW d r imm) s j T t d .w pa) ∧
       (InRegion s T rg (ea 8) → Reaches s T (ea 8) 8 .load pa → Loads (.rldX d r imm) s j T t d .x pa) ∧
       (InRegion s T rg (ea 4) → Reaches s T (ea 4) 4 .store pa → Calm s pa 4 → Stores (.rstW d r imm) s j T t d 4 pa) ∧
       (InRegion s T rg (ea 8) → Reaches s T (ea 8) 8 .store pa → Calm s pa 8 → Stores (.rstX d r imm) s j T t d 8 pa) ∧
       (InRegion s T rg er → Reaches s T er 8 .load pa →
         ∃ u t', exec (.rldr q r b) s = .next u ∧ AccessThread s u j T t' ∧ SameDies s u ∧ u = s.beside u ∧
           t'.ref q = wordAt (s.bytesFor T.core pa 8) 1 ++ wordAt (s.bytesFor T.core pa 8) 0 ∧ (∀ n, n ≠ q → t'.ref n = t.ref n) ∧
           t'.p 7 = true ∧ t'.stack = t.stack ∧ t'.pc = t.pc + 4) ∧
       (InRegion s T rg er → Reaches s T er 8 .store pa → Calm s pa 8 → refNull (t.ref q) = true ∨ Resolves s T (t.ref q) →
         ∃ u, exec (.rstr q r b) s = .next u ∧ AccessThread s u j T { t with pc := t.pc + 4 } ∧ SameDies s u ∧
           Stored s u T.core pa ((List.range 8).map fun n => (t.ref q).extractLsb' (8 * n) 8) ∧
           u = { s.beside u with mem := u.mem, fresh := u.fresh }) ∧
       (t.handler = false → t.trapvec ≠ 0 → t.status = .ready → Reaches s T (ea 4) 4 .load pa →
         (ea 4).toNat < ((s.ctx T.ctx).region rg).base ∨ ((s.ctx T.ctx).region rg).base + ((s.ctx T.ctx).region rg).size ≤ (ea 4).toNat →
           EntersHandler (.rldW d r imm) s j t 0x0A 0 (ea 4)))) ∧
  (∀ (s : State) (j : Nat) (T : Team) (t : Thread) (d : BitVec 7) (r : BitVec 4) (imm : BitVec 11) (pa ph : Nat), Free s j T t →
     let R := (s.ctx T.ctx).region (refRegion (t.ref r))
     let obj := refObj (t.ref r)
     let w := (wordAt (s.bytesFor T.core ph 4) 0).toNat
     refNull (t.ref r) = false → (t.ref r).extractLsb' 52 4 = 0 → R.state ≠ .undefined → s.mem.flights = [] →
     s.inEvac T.core T.ctx obj = true → ReachesHeader s T obj ph → s.isWatched (lineOf ph) = false → s.isWatched (lineOf pa) = false →
     (ph + 4 ≤ pa ∨ pa + 8 ≤ ph) →
       ∀ n, n = 4 ∨ n = 8 →
         let i : Instr := if n = 4 then .rstW d r imm else .rstX d r imm
         let ea : DWord := BitVec.ofNat 64 obj + s.immX imm * BitVec.ofNat 64 n
         InRegion s T (refRegion (t.ref r)) ea → ReachesEvac s T ea n .store pa →
         (w % 65536 < 0xFFFE → ∃ u t', exec i s = .next u ∧ u.thread? s.issue.team j = some t' ∧ t'.pc = t.pc + 4 ∧ t'.stack = t.stack ∧
           refObj (t'.ref r) = obj ∧ refColour (t'.ref r) = R.colour ∧ t'.cntSt = t.cntSt ∧
           (wordAt (u.bytesFor T.core ph 4) 0).toNat = (w / 65536 + 1) % 65536 * 65536 + w % 65536 ∧
           (∀ k, k < n → u.byteFor T.core (pa + k) = (t.bytesFrom d 8).getD k 0) ∧
           ∀ c e, e ≠ dieOf T.core ∨ ((c < pa ∨ pa + n ≤ c) ∧ (c < ph ∨ ph + 4 ≤ c)) → u.mem.byte e c = s.mem.byte e c) ∧
         (w % 65536 = 0xFFFE → Joins i s j T t ea (.backoff (s.clock + 256)) fun u _ => ∀ e c, u.mem.byte e c = s.mem.byte e c)) ∧
  (∀ (s : State) (d a : BitVec 7) (p : BitVec 3) (r q : BitVec 4),
     Lanes (.rget d r) s (fun _ t => WritesPair d (t.ref r) t) ∧
     Lanes (.rnull r) s (fun _ t t' => t'.ref r = 0 ∧ (∀ n, n ≠ r → t'.ref n = t.ref n) ∧
       t' = { t with pc := t.pc + 4, refs := t'.refs, pendRefs := t'.pendRefs }) ∧
     ((∀ x ∈ s.lanes, s.issueCtx.desc.priv = true ∨ x.2.handler = true) →
       Lanes (.rput r a) s fun _ t t' => t'.ref r = t.gx a ∧ (∀ n, n ≠ r → t'.ref n = t.ref n) ∧
         t' = { t with pc := t.pc + 4, refs := t'.refs, pendRefs := t'.pendRefs }) ∧
     (∀ j T t, Alone s j T t →
       let R := (s.ctx T.ctx).region (refRegion (t.ref r))
       let obj := refObj (t.ref r)
       let rn := refNull (t.ref r)
       let qn := refNull (t.ref q)
       (rn = true → Lanes (.rchk d r) s fun _ => WritesReg d 0) ∧
       (Resolves s T (t.ref r) → Lanes (.rchk d r) s fun _ => WritesReg d 1) ∧
       (∀ pa, rn = false → T.reqsOf j = [] → (t.ref r).extractLsb' 52 4 = 0 → R.state ≠ .undefined → refColour (t.ref r) ≠ R.colour →
         Reaches s T (BitVec.ofNat 64 (obj + 4)) 4 .load pa → (∀ f ∈ s.mem.flights, f.touches pa 4 = false) →
         (wordAt (s.bytesFor T.core pa 4) 0).toNat % 65536 ≠ 0xFFFF →
         ∃ u t', exec (.rchk d r) s = .next u ∧ u.thread? s.issue.team j = some t' ∧ t'.g d = 2 ∧ t'.pc = t.pc + 4 ∧
           refColour (t'.ref r) = R.colour ∧ refObj (t'.ref r) = obj ∧ refRegion (t'.ref r) = refRegion (t.ref r) ∧ Untouched s u) ∧
       (∀ pa pb c, rn = false → T.reqsOf j = [] → s.mem.flights = [] → (t.ref r).extractLsb' 52 4 = 0 → R.state ≠ .undefined → 16 ≤ R.size →
         refColour (t.ref r) ≠ R.colour ∨ s.inEvac T.core T.ctx obj = true →
         ReachesHeader s T obj pa → (wordAt (s.bytesFor T.core pa 4) 0).toNat % 65536 = 0xFFFF →
         s.badLookup? T.core T.ctx R obj = none → s.lookup T.core T.ctx R obj = some c → c % 16 = 0 → c < 2 ^ 52 →
         ReachesHeader s T c pb → (wordAt (s.bytesFor T.core pb 4) 0).toNat % 65536 ≠ 0xFFFF →
         ∃ u t', exec (.rchk d r) s = .next u ∧ u.thread? s.issue.team j = some t' ∧ t'.g d = 3 ∧ t'.pc = t.pc + 4 ∧
           refColour (t'.ref r) = R.colour ∧ refObj (t'.ref r) = c ∧ refRegion (t'.ref r) = refRegion (t.ref r) ∧
           ∀ e n, u.mem.byte e n = s.mem.byte e n) ∧
       ((rn = true ∨ Resolves s T (t.ref r)) → (qn = true ∨ Resolves s T (t.ref q)) →
         Lanes (.refeq p r q) s fun _ => WritesPred p (if rn = true ∨ qn = true then rn && qn
           else decide (obj = refObj (t.ref q) ∧ refRegion (t.ref r) = refRegion (t.ref q)))) ∧
       (Resolves s T (t.ref r) → T.reqsOf j = [] →
         let size := ofBytes (s.peek T.core T.ctx obj 4)
         let mine := fun (x : Pin) => x.region = refRegion (t.ref r) ∧ x.obj.toNat = obj
         (∀ pa, Reaches s T (BitVec.ofNat 64 (obj + 4)) 4 .load pa → Calm s pa 4 → (wordAt (s.bytesFor T.core pa 4) 0).toNat % 65536 < 0xFFFE →
           s.ownsClean → s.badPin? T.core T.ctx obj (R.holdEntries obj size) = none → s.headerMigrates T.core T.ctx obj = false →
           0 < size → size % 16 = 0 → R.base ≤ obj → obj + size ≤ R.base + R.size → T.pins.length < 64 →
           (∀ va ∈ R.holdEntries obj size, ofBytes (s.peek T.core T.ctx va 2) < 0xFFFF ∧
             ∃ e, s.cached? T.core T.ctx (swapVa (s.ctx T.ctx).swaps va) = some e ∧ pteSt e.pte = 1 ∧
               (e.phys (s.ctx T.ctx).swaps va + 2 ≤ pa ∨ pa + 4 ≤ e.phys (s.ctx T.ctx).swaps va)) →
           ∃ u U t', exec (.pin d r) s = .next u ∧ u.team? s.issue.team = some U ∧ U.threads[j]? = some t' ∧
             U.pins = T.pins ++ [{ region := refRegion (t.ref r), obj := BitVec.ofNat 64 obj, size := size
                                   holds := R.holdEntries obj size }] ∧
             t'.gx d = BitVec.ofNat 64 obj ∧ t'.pc = t.pc + 4 ∧
             (wordAt (u.bytesFor T.core pa 4) 0).toNat % 65536 = (wordAt (s.bytesFor T.core pa 4) 0).toNat % 65536 + 1) ∧
         ((∀ x ∈ T.pins, ¬ mine x) → Lanes (.unpin d r) s fun _ => WritesReg d 1) ∧
         (∀ l x m, T.pins = l ++ x :: m → mine x → (∀ y ∈ m, ¬ mine y) → s.badPin? T.core T.ctx obj x.holds = none →
           s.headerMigrates T.core T.ctx obj = false →
           ∃ u U t', exec (.unpin d r) s = .next u ∧ u.team? s.issue.team = some U ∧ U.threads[j]? = some t' ∧
             U.pins = l ++ m ∧ t'.g d = 0 ∧ t'.pc = t.pc + 4))))

/-! ## Yarrow -/

/-- The filter words (R408 to R413), inside a program: one register changes, or one bin or four cells, and the run goes on with the next
word, or at the target of a YBR that is taken; a trigger has its effect besides. YEND ends the run, and y12 to y15 stay with the program. -/
def Obligations.FilterResults : Prop :=
  ∀ (s : State) (z : YAt) (d a b : BitVec 4) (n2 : BitVec 2) (n1 : BitVec 1) (imm : BitVec 15) (k : BitVec 5) (c : YCond),
    s.yAt? = some z → z.r.pc + 1 < z.p.words.length →
    let x := z.r.y a
    let y := z.r.y b
    let goes (u : State) (r : YRun) := (u.die z.die).yarrow.run = some r ∧ (∀ n, n ≠ z.die → u.die n = s.die n)
    let sets (i : Instr) (v : Word) := ∃ u, exec i s = .next u ∧ u = { s with dies := u.dies } ∧
      goes u { z.r with pc := z.r.pc + 1, regs := z.r.regs.set d.toNat v }
    let next := { z.r with pc := z.r.pc + 1 }
    let hash (r : Nat) : Word := (x ^^^ [0#32, 0x85EBCA6B, 0xC2B2AE35, 0x27D4EB2F].getD r 0) * 0x9E3779B9
    let bin := min x.toNat (z.p.hbins.getD n2.toNat 0 - 1)
    let cell (r : Nat) := 1024 * r + (hash r).toNat / 2 ^ 22
    let sum (v : Word) : Word := BitVec.ofNat 32 (min (v.toNat + y.toNat) 0xFFFFFFFF)
    (sets (.yadd d a b) (x + y) ∧ sets (.ysub d a b) (x - y) ∧ sets (.yand d a b) (x &&& y) ∧ sets (.yor d a b) (x ||| y) ∧
      sets (.yxor d a b) (x ^^^ y) ∧ sets (.yshl d a b) (BitVec.ofNat 32 (x.toNat * 2 ^ y.toNat)) ∧
      sets (.yshr d a b) (BitVec.ofNat 32 (x.toNat / 2 ^ y.toNat)) ∧ sets (.yminu d a b) (BitVec.ofNat 32 (min x.toNat y.toNat)) ∧
      sets (.ymaxu d a b) (BitVec.ofNat 32 (max x.toNat y.toNat)) ∧ sets (.yaddi d a imm) (x + imm.signExtend 32) ∧
      sets (.yandi d a imm) (x &&& imm.setWidth 32) ∧ sets (.yshi d a .shl k) (x <<< k.toNat) ∧ sets (.yshi d a .shr k) (x >>> k.toNat) ∧
      sets (.yshi d a .sar k) (x.sshiftRight k.toNat) ∧ sets (.ymovi d imm) (imm.signExtend 32) ∧
      sets (.yins d imm) ((z.r.y d <<< 15) ||| imm.setWidth 32) ∧ sets (.yclz d a) x.clz ∧ sets (.yhash d a n2) (hash n2.toNat)) ∧
    (z.r.pc + imm.toNat < z.p.words.length → ∃ u, exec (.ybr c a b imm) s = .next u ∧ u = { s with dies := u.dies } ∧
      goes u { z.r with pc := z.r.pc + if branches c x y then imm.toNat else 1 }) ∧
    (∃ u p, exec (.yhist n2 a b) s = .next u ∧ u = { s with dies := u.dies } ∧ goes u next ∧
      tget? z.r.slot (u.die z.die).yarrow.progs = some p ∧ p = { z.p with banks := p.banks } ∧
      ∀ m i, sget i (p.bank m) = if m = n2.toNat ∧ i = bin then sum (sget i (z.p.bank m)) else sget i (z.p.bank m)) ∧
    (∃ u p, exec (.ycms n1 a b) s = .next u ∧ u = { s with dies := u.dies } ∧ goes u next ∧
      tget? z.r.slot (u.die z.die).yarrow.progs = some p ∧ p = { z.p with banks := p.banks } ∧
      ∀ m i, sget i (p.bank m) =
        if m = 4 + n1.toNat ∧ i ∈ [cell 0, cell 1, cell 2, cell 3] then sum (sget i (z.p.bank m)) else sget i (z.p.bank m)) ∧
    sets (.ycmq d n1 a) (BitVec.ofNat 32 (min
      (min (sget (cell 0) (z.p.bank (4 + n1.toNat))).toNat (sget (cell 1) (z.p.bank (4 + n1.toNat))).toNat)
      (min (sget (cell 2) (z.p.bank (4 + n1.toNat))).toNat (sget (cell 3) (z.p.bank (4 + n1.toNat))).toNat))) ∧
    sets (.yldb d n2 a) (sget bin (z.p.bank n2.toNat)) ∧
    (sets (.yrds d 0) (BitVec.ofNat 32 s.clock) ∧ sets (.yrds d 1) (BitVec.ofNat 32 (s.clock / 2 ^ 32)) ∧
      sets (.yrds d 2) (z.y.refused.setWidth 32) ∧ sets (.yrds d 3) (BitVec.ofNat 32 (tget 0 z.p.owner z.y.drops)) ∧
      sets (.yrds d 4) (BitVec.ofNat 32 (tget 0 z.p.owner z.y.budgets - tget 0 z.p.owner z.y.spent))) ∧
    (∃ u p, exec .yend s = .next u ∧ u = { s with dies := u.dies } ∧ tget? z.r.slot (u.die z.die).yarrow.progs = some p ∧
      p = { z.p with keep := [z.r.y 12, z.r.y 13, z.r.y 14, z.r.y 15] } ∧ (z.y.todo = [] → (u.die z.die).yarrow.run = none)) ∧
    (∃ u, exec (.ytrigArm a) s = .next u ∧ u = { s with dies := u.dies, cores := u.cores } ∧ goes u next ∧
      (z.r.event.core ≠ noCore → 6 ≤ x.toNat / 2 ^ 16 % 32 → x.toNat / 2 ^ 16 % 32 ≤ 20 → (u.core z.r.event.core).sampler =
        { count := x.toNat % 2 ^ 16, log2 := x.toNat / 2 ^ 16 % 32, ctx := z.p.owner, last := 0, next := s.clock + 2 ^ (x.toNat / 2 ^ 16 % 32) }) ∧
      (z.r.event.core = noCore ∨ x.toNat / 2 ^ 16 % 32 < 6 ∨ 20 < x.toNat / 2 ^ 16 % 32 → u.cores = s.cores)) ∧
    (∃ u, exec .ytrigInterrupt s = .next u ∧ u = { s with dies := u.dies, out := u.out } ∧ goes u next ∧
      (∀ f, s.ownerFn? z.p.owner = some f → z.p.vector ≠ 0xFFFF → tget? z.r.slot z.y.intrs ≠ some z.y.window →
        u.out = s.out ++ [.interrupt f z.p.vector]) ∧
      (s.ownerFn? z.p.owner = none ∨ z.p.vector = 0xFFFF ∨ tget? z.r.slot z.y.intrs = some z.y.window → u.out = s.out)) ∧
    (∃ u, exec .ytrigRecord s = .next u ∧ (u.die z.die).yarrow.run = some next ∧ (s.ringAddr? z 0 = none → u.mem = s.mem) ∧
      ∀ cl pa, s.ringAddr? z 0 = some cl →
        let n := z.y.widx cl (ofBytes (s.homeRead cl 4))
        s.ringAddr? z (128 + 32 * (n % 2 ^ z.p.ringlog2)) = some pa → ofBytes (s.homeRead (cl + 12) 4) % 2 = 0 →
        (n + 2 ^ 32 - ofBytes (s.homeRead (cl + 4) 4)) % 2 ^ 32 ≠ 2 ^ z.p.ringlog2 → z.y.written + 32 ≤ 16384 → z.y.outs.length < 64 →
          (s.viaQueues = false → ofBytes (u.homeRead cl 4) = (n + 1) % 2 ^ 32 ∧
            (cl + 4 ≤ pa ∨ pa + 32 ≤ cl → u.homeRead pa 32 = z.record n)) ∧
          (s.viaQueues = true → u.mem = s.mem ∧ ∃ o, (u.die z.die).yarrow.outs = z.y.outs ++ [o] ∧ o.cl = cl ∧
            o.writes = [(pa, z.record n), (cl, toBytes 4 (n + 1))])) ∧
    (∃ u, exec .ytrigFreeze s = .next u ∧ (u.die z.die).yarrow.run = some next ∧
      ∀ pa, s.ringAddr? z 12 = some pa → ofBytes (u.homeRead pa 4) % 2 = 1)

/-- Yarrow's own events and its commands (R400, R402 to R407, R411, R413, R419). A run starts when its owner's budget covers the programs of
the event, and the copy is dropped otherwise; a window renews budgets; the timer and the samplers raise their events. LOAD, UNLOAD, DUMP,
CLEAR, BUDGET and SAMPLE answer with their results; a command that fails changes nothing but YW_STAT. UNLOAD, DUMP and CLEAR are BUSY while a
run of their slot is in progress, and a DUMP while the window takes no more bytes; another command is then ignored. -/
def Obligations.YarrowCommands : Prop :=
  ∀ (s : State) (n : Nat) (slot bank : BitVec 4) (pos : BitVec 5) (x : BitVec 12),
    let y := (s.die n).yarrow
    let a := s.regs.ywArg.toNat
    let fails := fun (i : Instr) (r : BitVec 3) => ∃ u, exec i s = .next u ∧ u = { s with regs := u.regs } ∧ u.regs.ywResult = r
    let done := fun (i : Instr) (P : State → Prop) =>
      ∃ u, exec i s = .next u ∧ u.regs.ywResult = 0 ∧ (∀ m, m ≠ n → u.die m = s.die m) ∧ u.teams = s.teams ∧ P u
    let slotCmds := [Instr.ywUnload n slot, .ywDump n slot bank, .ywClear n slot bank]
    let pend (op b : Nat) : YwPend := { op := op, die := n, slot := slot.toNat, bank := b }
    let room := 16384 - y.written
    (∀ o e rest p k more, y.run = none → y.fifo = (o, e) :: rest → y.attached o e = k :: more → tget? k y.progs = some p →
      ∃ u, exec (.yarrowRun n) s = .next u ∧ u = { s with dies := u.dies } ∧ (u.die n).yarrow.fifo = rest ∧
        (((k :: more).map fun m => ((tget? m y.progs).map fun q => q.words.length).getD 0).sum ≤ y.left o →
          (u.die n).yarrow.run = some { slot := k, pc := 0, event := e, regs := startRegs p e } ∧ (u.die n).yarrow.todo = more) ∧
        (y.left o < ((k :: more).map fun m => ((tget? m y.progs).map fun q => q.words.length).getD 0).sum →
          (u.die n).yarrow.run = none ∧ tget 0 o (u.die n).yarrow.drops = tget 0 o y.drops + 1)) ∧
    (y.window < s.clock / 1024 → ∃ u, exec (.yarrowWindow n) s = .next u ∧ u = { s with dies := u.dies } ∧
      (u.die n).yarrow = { y with window := s.clock / 1024, spent := [], written := y.written - 16384 }) ∧
    (y.timer < s.clock / 65536 → ∃ u, exec (.yarrowTimerEvent n) s = .next u ∧ u = { s with dies := u.dies } ∧
      (u.die n).yarrow = ({ y with timer := s.clock / 65536 } : Yarrow).raise
        { source := 43, ctx := 0, core := noCore, clock := s.clock, p0 := BitVec.ofNat 32 (s.clock / 65536) }) ∧
    (∀ q l, (s.core n).sampler.count ≠ 0 → (s.core n).sampler.next ≤ s.clock → s.sampledOn n (s.core n).sampler.ctx = q :: l →
      ∃ u, exec (.samplerTick n) s = .next u ∧ u = { s with dies := u.dies, cores := u.cores } ∧
        (u.core n).sampler.count = (s.core n).sampler.count - 1 ∧
        (u.core n).sampler.next = (s.core n).sampler.next + 2 ^ (s.core n).sampler.log2 ∧
        ∃ z ∈ q :: l, (u.core n).sampler.last = z.1.place ∧ (u.die (dieOf n)).yarrow = (s.die (dieOf n)).yarrow.raise
          { source := 34, ctx := z.2, core := n, clock := s.clock, p0 := z.1.pc.extractLsb' 0 32
            p1 := BitVec.ofNat 32 (z.1.code * 2 ^ 24 + z.1.tid), p2 := z.1.gid, p3 := BitVec.ofNat 32 z.1.team }) ∧
    (s.regs.bootReady = true → ∀ p, s.ywPend = some p →
      (∀ i ∈ [Instr.ywLoad n slot, .ywBudget n x, .ywSample n pos x], exec i s = .next s) ∧
      (p.die ≠ n ∨ p.slot ≠ slot.toNat → ∀ i ∈ slotCmds, exec i s = .next s) ∧
      (p.rest = [] → y.runs slot.toNat = true → ∀ i ∈ slotCmds, exec i s = .next s) ∧
      (p = { pend 3 bank.toNat with addr := p.addr, rest := p.rest } → p.rest ≠ [] → p.rest.length ≤ room → y.outs.length < 64 →
        ∃ u, exec (.ywDump n slot bank) s = .next u ∧ u.regs.ywResult = 0 ∧ u.ywPend = none ∧
          u.homeRead p.addr p.rest.length = p.rest)) ∧
    (s.regs.bootReady = true → s.ywPend = none → y.runs slot.toNat = true →
      exec (.ywUnload n slot) s = .next { s with ywPend := some (pend 2 0) } ∧
      exec (.ywDump n slot bank) s = .next { s with ywPend := some (pend 3 bank.toNat) } ∧
      exec (.ywClear n slot bank) s = .next { s with ywPend := some (pend 4 bank.toNat) }) ∧
    (s.regs.bootReady = true → s.ywPend = none → y.runs slot.toNat = false →
      (5 < bank.toNat → fails (.ywDump n slot bank) 3 ∧ fails (.ywClear n slot bank) 3) ∧
      (∀ p, tget? slot.toNat y.progs = some p →
        fails (.ywLoad n slot) 1 ∧
        done (.ywUnload n slot) (fun u => tget? slot.toNat (u.die n).yarrow.progs = none) ∧
        (bank.toNat ≤ 5 → p.bankSize bank.toNat ≠ 0 →
          done (.ywClear n slot bank) (fun u => ∃ q, tget? slot.toNat (u.die n).yarrow.progs = some q ∧
            q.bank bank.toNat = [] ∧ ∀ m, m ≠ bank.toNat → q.bank m = p.bank m) ∧
          (a % 4096 ≠ 0 ∨ s.hostReserved a = false → fails (.ywDump n slot bank) 2) ∧
          (a % 4096 = 0 → s.hostReserved a = true → s.hostReserved (a + p.bankSize bank.toNat - 1) = true → y.outs.length < 64 →
            let data := (List.range (p.bankSize bank.toNat / 4)).flatMap fun i => toBytes 4 (sget i (p.bank bank.toNat)).toNat
            ∃ u, exec (.ywDump n slot bank) s = .next u ∧ u.homeRead a (min room data.length) = data.take room ∧
              (data.length ≤ room → u.regs.ywResult = 0 ∧ u.ywPend = none) ∧
              (room < data.length → u.ywPend = some { pend 3 bank.toNat with addr := a + room, rest := data.drop room }))) ∧
        (bank.toNat ≤ 5 → p.bankSize bank.toNat = 0 → fails (.ywDump n slot bank) 2 ∧ fails (.ywClear n slot bank) 2)) ∧
      (tget? slot.toNat y.progs = none →
        fails (.ywUnload n slot) 1 ∧ (bank.toNat ≤ 5 → fails (.ywDump n slot bank) 1 ∧ fails (.ywClear n slot bank) 1) ∧
        (a % 64 ≠ 0 ∨ s.hostReserved a = false → fails (.ywLoad n slot) 2) ∧
        let d := s.homeRead a 64
        let words := (List.range (field d 2 1)).map fun i => BitVec.ofNat 32 (ofBytes (s.homeRead (field d 24 8 + 4 * i) 4))
        (a % 64 = 0 → s.hostReserved a = true →
          (s.loadFieldsOk d (loadProg d) = false → fails (.ywLoad n slot) 2) ∧
          (s.loadFieldsOk d (loadProg d) = true →
            (∀ i, i < words.length → (loadProg d).wordOk (field d 2 1) i (words.getD i 0) = false →
              fails (.ywLoad n slot) 2) ∧
            ((∀ i, i < words.length → (loadProg d).wordOk (field d 2 1) i (words.getD i 0) = true) →
              (262144 < (y.progs.map fun q => q.2.storage).sum + (loadProg d).storage → fails (.ywLoad n slot) 4) ∧
              ((y.progs.map fun q => q.2.storage).sum + (loadProg d).storage ≤ 262144 →
                done (.ywLoad n slot) fun u =>
                  tget? slot.toNat (u.die n).yarrow.progs = some { loadProg d with words := words }))))) ∧
      (1024 < ((y.budgets.filter fun q => q.1 ≠ x.toNat).map fun q => q.2).sum + a → fails (.ywBudget n x) 5) ∧
      (((y.budgets.filter fun q => q.1 ≠ x.toNat).map fun q => q.2).sum + a ≤ 1024 →
        done (.ywBudget n x) fun u => tget 0 x.toNat (u.die n).yarrow.budgets = a ∧
          ∀ m, m ≠ x.toNat → tget 0 m (u.die n).yarrow.budgets = tget 0 m y.budgets) ∧
      (a / 2 ^ 16 % 32 < 6 ∨ 20 < a / 2 ^ 16 % 32 → fails (.ywSample n pos x) 2) ∧
      (6 ≤ a / 2 ^ 16 % 32 → a / 2 ^ 16 % 32 ≤ 20 → done (.ywSample n pos x) fun u =>
        (u.core (32 * n + pos.toNat)).sampler =
          { count := a % 2 ^ 16, log2 := a / 2 ^ 16 % 32, ctx := x.toNat, last := 0, next := s.clock + 2 ^ (a / 2 ^ 16 % 32) }))

/-! ## The host's registers and the modes -/

/-- Registers of BAR 0 (R5, R19, R432): before bring-up has ended what the host asks completes as Unsupported Request; then a write by
another function than the physical one is ignored, and one by the physical function is stored; one of FRM_TBL while a page command is in
progress is ignored. -/
def Obligations.HostRegisters : Prop :=
  (∀ (s : State) (x nd : BitVec 12) (q : BitVec 8) (rg : BitVec 4) (pf b : Bool) (v c : DWord) (w : Word) (n m : Nat) (l : List Byte)
     (o : PcieOp), s.regs.bootReady = false →
     ∀ i ∈ [Instr.ctxBind x, .ctxSuspend x, .ctxResume x, .ctxClearf x, .ctxFence x, .ctxDestroy x, .qBind q, .qStart q, .qDrain q,
         .qClear q, .qDestroy q, .qQuery q, .pgInval x, .pgReside x, .pgMigpub x, .pgAssign x, .pgShare x, .pgFree x, .pgUnpoison x,
         .mhDefine x rg, .mhBegin x rg, .mhEnd x rg, .mhUndefine x rg, .nodeAttest x nd, .nodeRevoke x nd, .nodeFence x nd,
         .nodeUnfence x nd, .nodeRetrain x nd, .regWrite pf n v, .modeCfgWrite pf w, .frmTblWrite pf v, .prqRidxWrite pf v,
         .vfBindWrite pf n v, .hostWrite n l, .hostRead n m, .hostAtomicop n o b v c, .vfAccess n m b n l],
       exec i s = .next (s.emit .unsupported)) ∧
  (∀ (s : State) (n : Nat) (v : DWord) (w : Word), s.regs.bootReady = true →
     (∀ i ∈ [Instr.regWrite false n v, .modeCfgWrite false w, .frmTblWrite false v, .prqRidxWrite false v, .vfBindWrite false n v],
       exec i s = .next s) ∧
     SetsRegs (.regWrite true 0x1004 v) s { s.regs with badw := s.regs.badw && !v.getLsbD 11 } ∧
     SetsRegs (.regWrite true 0x2000 v) s { s.regs with ctxTbl := v &&& ~~~0xFFF#64 } ∧
     SetsRegs (.regWrite true 0x3008 v) s { s.regs with qDesc := v &&& ~~~0x3F#64 } ∧
     SetsRegs (.regWrite true 0x400C v) s { s.regs with pgPoison := s.regs.pgPoison && !v.getLsbD 27 } ∧
     SetsRegs (.regWrite true 0x4010 v) s { s.regs with pgArg0 := v } ∧
     SetsRegs (.regWrite true 0x4018 v) s { s.regs with pgArg1 := v } ∧
     SetsRegs (.regWrite true 0x5008 v) s { s.regs with mhArg := v } ∧
     SetsRegs (.regWrite true 0x6088 v) s { s.regs with nodeArg := v } ∧
     SetsRegs (.regWrite true 0x8008 v) s { s.regs with ywArg := v } ∧
     SetsRegs (.regWrite true 0x9010 v) s { s.regs with confBase := v } ∧
     SetsRegs (.regWrite true 0x9030 v) s { s.regs with susRidx := v } ∧
     SetsRegs (.regWrite true 0x9040 v) s { s.regs with dumpVector := v.extractLsb' 16 16, dumpLog2 := v.extractLsb' 0 5 } ∧
     (n < 4096 → Answers (.regWrite true (0x10000 + 4 * n) v) s fun u =>
       (u.node n).en = v.getLsbD 31 ∧ (u.node n).esc = v.extractLsb' 24 5 ∧ (u.node n).mask = v.extractLsb' 0 24) ∧
     (s.prqList = [] → s.prqOwed = [] → SetsRegs (.prqRidxWrite true v) s { s.regs with prqRidx := v }) ∧
     (∀ vf, 1 ≤ vf → vf ≤ 63 → (s.vf vf).state = .unlocked → Answers (.vfBindWrite true vf v) s fun u =>
       u.vf vf = { s.vf vf with vbase := v.extractLsb' 16 48, ctx := v.extractLsb' 0 12 } ∧ (∀ k, k ≠ vf → u.vf k = s.vf k) ∧
         u = { s with vfs := u.vfs }) ∧
     (∀ vf, (s.vf vf).state ≠ .unlocked → exec (.vfBindWrite true vf v) s = .next s) ∧
     (s.pgPend ≠ none → exec (.frmTblWrite true v) s = .next s) ∧
     (s.pgPend = none → Answers (.frmTblWrite true v) s fun u => u.regs = { s.regs with frmTbl := v &&& ~~~0xFFFF#64, frmSet := true } ∧
       ∀ f, f < 2 ^ 24 → u.homeRead ((v &&& ~~~0xFFFF#64).toNat + 8 * f) 8 = toBytes 8 (s.frameEntry f)))

/-- MODE_CFG and the modes in force (R20 to R25, R205): a value that is not allowed sets BADW and leaves the modes; another is taken. Then
the cap is applied, copies are released, and a lease length settles once no lease of another length lives. An expired lease gives its copy
up; a new window of the cap reports begins. -/
def Obligations.ModeResults : Prop :=
  ∀ (s : State) (v : Word) (k line d : Nat), s.regs.bootReady = true →
    let bad := v.extractLsb' 8 24 ≠ 0 ∨ 2 ≤ (v.extractLsb' 6 2).toNat ∨ v.extractLsb' 4 2 = 3 ∨ v.extractLsb' 2 2 = 3 ∨ v.extractLsb' 0 2 = 3
    (bad → SetsRegs (.modeCfgWrite true v) s { s.regs with badw := true }) ∧
    (¬bad → Answers (.modeCfgWrite true v) s fun u => u = { s with regs := u.regs } ∧
      u.regs.cfgLease = v.extractLsb' 6 2 ∧ u.regs.cfgScan = v.extractLsb' 4 2 ∧ u.regs.cfgMirror = v.extractLsb' 2 2 ∧
      u.regs.cfgPcap = v.extractLsb' 0 2 ∧ u.regs.pcap = s.regs.pcap ∧ u.regs.lease = v.extractLsb' 6 2 ∧
      u.regs.mirror = (if v.extractLsb' 2 2 = 0 ∧ s.regs.mirror ≠ 0 then s.regs.mirror else v.extractLsb' 2 2) ∧
      (v.extractLsb' 6 2 ≠ s.regs.lease → u.regs.lpend = s.otherLeases u.regs.leaseLen) ∧
      (v.extractLsb' 6 2 = s.regs.lease → u.regs.lpend = s.regs.lpend) ∧
      (s.scan.at_ = none → u.regs.scan = v.extractLsb' 4 2 ∧ u.regs.spend = false) ∧
      (s.scan.at_ ≠ none → u.regs.scan = s.regs.scan)) ∧
    SetsRegs .powerCapApply s { s.regs with pcap := s.regs.cfgPcap } ∧
    (s.regs.cfgMirror = 0 → s.regs.mirror ≠ 0 → Answers .mirrorRelease s fun u => u.regs = { s.regs with mirror := 0 } ∧
      ∀ k T, s.team? k = some T → u.team? k = some { T with mirrored := false }) ∧
    (s.regs.lpend = true → s.otherLeases s.regs.leaseLen = false → SetsRegs .leaseChangeSettle s { s.regs with lpend := false }) ∧
    (∀ T, s.team? k = some T → Answers (.leaseExpiry .stash k line) s fun u => u = { s with teams := u.teams } ∧
      u.team? k = some { T with lines := T.lines.filter fun l => l.owned || l.line != line } ∧ ∀ j, j ≠ k → u.team? j = s.team? j) ∧
    exec (.leaseExpiry .icache k line) s = .next s ∧
    exec (.leaseExpiry .proxy k line) s = .next { s with proxies := s.proxies.filter fun p => p.line != line } ∧
    (d < 8 → Answers (.railOvercurrent d) s fun u => u.regs = { s.regs with caplim := true } ∧
      u.die d = { s.die d with warned := true } ∧ ∀ n, n ≠ d → u.die n = s.die n) ∧
    (s.capWindow < s.clock / 1750000 →
      exec .caplimWindow s = .next { s with regs := { s.regs with caplim := false }, capWindow := s.clock / 1750000 }) ∧
    (s.clock / 1750000 ≤ s.capWindow → exec .caplimWindow s = .next s)

/-! ## Contexts -/

/-- The host's context commands (R74, R76, R78, R79, R80): the result, and what the context is after it, where no transfer of tile
ownership is under way, which would end first. While a DESTROY is BUSY every other command is ignored; it completes when the requests of
the context's teams that their homes had accepted have performed, and its pairs' atomics and REDUCEs have completed at their nodes (R393). -/
def Obligations.ContextCommands : Prop :=
  ∀ (s : State) (x : BitVec 12), s.regs.bootReady = true → (∀ c, s.inTransfer c = false) →
    let gone (u : State) := u.ctxPend = none ∧ (u.ctx x.toNat).state = .destroyed ∧ (u.ctx x.toNat).swaps = [] ∧
      (u.ctx x.toNat).regions = [] ∧ (u.ctx x.toNat).pairs = [] ∧ (∀ r ∈ u.pageReqs, r.ctx ≠ x.toNat) ∧ ∀ G ∈ u.grids, G.ctx ≠ x.toNat
    (∀ y, s.ctxPend = some y →
      (∀ i ∈ [Instr.ctxBind x, .ctxSuspend x, .ctxResume x, .ctxClearf x, .ctxFence x], exec i s = .next s) ∧
      (y ≠ x.toNat ∨ s.teamsOver x.toNat = false → exec (.ctxDestroy x) s = .next s) ∧
      (y = x.toNat → s.teamsOver x.toNat = true → CtxAnswers (.ctxDestroy x) s x 0 gone)) ∧
    (s.ctxPend = none →
    (∀ i ∈ [Instr.ctxBind 0, .ctxSuspend 0, .ctxResume 0, .ctxClearf 0, .ctxFence 0, .ctxDestroy 0],
      SetsRegs i s { s.regs with ctxResult := 3, ctxCtx := 0 }) ∧
    (x ≠ 0 →
      let st := (s.ctx x.toNat).state
      let wrong := { s.regs with ctxResult := 1, ctxCtx := x }
      let b := s.physRead (s.regs.ctxTbl.toNat / 4096 * 4096 + 128 * x.toNat) 128
      (st ≠ .created → st ≠ .destroyed → SetsRegs (.ctxBind x) s wrong) ∧
      (st ≠ .bound → st ≠ .runnable → st ≠ .running → SetsRegs (.ctxSuspend x) s wrong) ∧
      (st ≠ .preempted → SetsRegs (.ctxResume x) s wrong) ∧
      (st ≠ .faulted → SetsRegs (.ctxClearf x) s wrong) ∧
      (st = .destroyed → SetsRegs (.ctxFence x) s wrong) ∧
      (st ≠ .bound → st ≠ .preempted → st ≠ .faulted → st ≠ .fenced → SetsRegs (.ctxDestroy x) s wrong) ∧
      (st = .created ∨ st = .destroyed → ctxDescOk x.toNat b (ctxDescOf b) = false ∨ s.areasOk (ctxDescOf b) = false →
        SetsRegs (.ctxBind x) s { s.regs with ctxResult := 2, ctxCtx := x }) ∧
      (st = .created ∨ st = .destroyed → ctxDescOk x.toNat b (ctxDescOf b) = true → s.areasOk (ctxDescOf b) = true → CtxAnswers (.ctxBind x) s x 0 fun u =>
        (u.ctx x.toNat).state = .bound ∧ (u.ctx x.toNat).desc = ctxDescOf b ∧ (u.ctx x.toNat).nextGrid = 1 ∧
          (u.ctx x.toNat).thold = BitVec.ofNat 32 (field b 60 4) ∧ ∀ y, y ≠ x.toNat → u.ctx y = s.ctx y) ∧
      (st = .bound ∨ st = .runnable ∨ st = .running → rising s.teams = true → CtxAnswers (.ctxSuspend x) s x 0 fun u =>
        (u.ctx x.toNat).state = .preempted ∧ (∀ c, (u.core c).slice ≠ some x.toNat) ∧
          (∀ k T, s.team? k = some T → T.ctx ≠ x.toNat → u.team? k = some T) ∧
          ∀ k T, s.team? k = some T → T.ctx = x.toNat → u.team? k = some { T with
            phase := if T.phase = .resident ∨ T.phase = .running then .preempted else T.phase }) ∧
      (st = .preempted → (s.ctx x.toNat).held = none → rising s.teams = true → CtxAnswers (.ctxResume x) s x 0 fun u =>
        (u.ctx x.toNat).state = (if s.teams.any fun kt => kt.2.ctx == x.toNat && kt.2.phase.isResident then .runnable else .bound) ∧
          u.mem = s.mem ∧ ∀ k T, s.team? k = some T → T.ctx = x.toNat → T.phase = .preempted →
            (u.team? k).map (fun U => (U.phase, U.threads.map fun t => (t.pc, t.stack, t.status))) =
              some (.resident, T.threads.map fun t => (t.pc, t.stack, t.status))) ∧
      (∀ f, st = .preempted → (s.ctx x.toNat).held = some f → CtxAnswers (.ctxResume x) s x 0 fun u =>
        (u.ctx x.toNat).state = .faulted ∧ (u.ctx x.toNat).fault = some f ∧ (u.ctx x.toNat).held = none) ∧
      (st = .faulted → CtxAnswers (.ctxClearf x) s x 0 fun u =>
        ((u.ctx x.toNat).state = .runnable ∨ (u.ctx x.toNat).state = .bound) ∧ (u.ctx x.toNat).fault = none) ∧
      (st ≠ .destroyed → CtxAnswers (.ctxFence x) s x 0 fun u =>
        (u.ctx x.toNat).state = .fenced ∧ (u.ctx x.toNat).fault = none ∧ (∀ c, (u.core c).slice ≠ some x.toNat) ∧
          ∀ q, (s.queue q).ctx = x.toNat → (s.queue q).state ≠ .unbound → (s.queue q).state ≠ .destroyed →
            (u.queue q).state = .faulted ∧ (u.queue q).fcode = 7) ∧
      (st = .bound ∨ st = .preempted ∨ st = .faulted ∨ st = .fenced →
        ((∀ kt ∈ s.teams, kt.2.ctx = x.toNat → kt.2.reqs = []) → (∀ r ∈ s.rounds, r.ctx ≠ x.toNat) →
          (∀ p ∈ (s.ctx x.toNat).pairs, p.leaving = false) → CtxAnswers (.ctxDestroy x) s x 0 gone) ∧
        (∀ r p, r ∈ s.rounds → r.ctx = x.toNat → (s.ctx x.toNat).pair? p.node = some p → p.state = 2 → toNode p.node.toNat r.cl = true →
          (s.ctx x.toNat).desc.redpol ≠ 1 → s.reachable p.node.toNat = true → CtxAnswers (.ctxDestroy x) s x 0 fun u =>
            u.ctxPend = some x.toNat ∧ (u.ctx x.toNat).state ≠ .destroyed) ∧
        ∀ k T r, s.team? k = some T → T.ctx = x.toNat → T.phase ≠ .pending → T.phase ≠ .done → r ∈ T.reqs → r.stage.accepted = true →
          CtxAnswers (.ctxDestroy x) s x 0 fun u => u.ctxPend = some x.toNat ∧ (u.ctx x.toNat).state ≠ .destroyed)))

/-- Slices (R81, R281): a core that stood idle begins that of the context that could take it first; after a slice that has ended the next
context in ascending order takes the core; a slice that has reached its length ends for another context that has an issuable thread there, and
counts again without one. A team stopped for the debugger goes on at
sr.trappc (R90). -/
def Obligations.SliceResults : Prop :=
  ∀ (s : State) (c x y : Nat),
    ((s.core c).slice = some x → s.inTransfer c = false → s.wantsSlice c x = false → nextAfter x ((s.endSlice c).candidates c) = some y →
      Answers (.sliceSwitch c) s fun u => (u.core c).slice = some y ∧ (u.core c).sliceAt = s.clock) ∧
    ((s.core c).slice = none → (s.stoodIdle c = true ∧ s.firstAsking c (s.candidates c) = some y) ∨
        ((s.stoodIdle c = true → s.firstAsking c (s.candidates c) = none) ∧ nextAfter (s.core c).lastCtx (s.candidates c) = some y) →
      Answers (.sliceSwitch c) s fun u =>
      (u.core c).slice = some y ∧ (u.core c).sliceAt = s.clock ∧ (∀ d, d ≠ c → u.core d = s.core d) ∧
        ∀ k T, s.team? k = some T → T.ctx = y → T.core = c → T.phase = .resident → (u.team? k).map (fun U => U.phase) = some .running) ∧
    ((s.core c).slice = some x → s.wantsSlice c x = true → exec (.sliceSwitch c) s = .next s) ∧
    ((s.core c).slice = some x → s.inTransfer c = false → (s.core c).sliceAt + (s.ctx x).desc.slice * 1750 ≤ s.clock →
      (∀ z ∈ s.candidates c, z = x) → Answers (.sliceLengthExpiry c) s fun u =>
        u = { s with cores := u.cores } ∧ u.core c = { s.core c with sliceAt := s.clock } ∧ ∀ d, d ≠ c → u.core d = s.core d) ∧
    ((s.core c).slice = some x → s.clock < (s.core c).sliceAt + (s.ctx x).desc.slice * 1750 →
      exec (.sliceLengthExpiry c) s = .next s) ∧
    ((s.core c).slice = some x → s.inTransfer c = false → (s.core c).sliceAt + (s.ctx x).desc.slice * 1750 ≤ s.clock →
      (∃ z ∈ s.candidates c, z ≠ x) → nextAfter x ((s.endSlice c).candidates c) = some y → Answers (.sliceLengthExpiry c) s fun u =>
        (u.core c).slice = some y ∧ (u.core c).sliceAt = s.clock) ∧
    ∀ k T j t, s.team? k = some T → T.stopped = some j → T.threads[j]? = some t → Answers (.debugResume k) s fun u =>
      u = { s with teams := u.teams } ∧ u.team? k = some { T with stopped := none, threads := T.threads.set j { t with pc := t.trappc } } ∧
        ∀ n, n ≠ k → u.team? n = s.team? n

/-! ## Queues -/

/-- The host's queue commands (R97, R98, R103): in a state that does not allow a command RESULT 1 and no change; else the slot's state
after it. -/
def Obligations.QueueCommands : Prop :=
  ∀ (s : State) (q : BitVec 8), s.regs.bootReady = true →
    let Q := s.queue q.toNat
    let b := s.physRead (s.regs.qDesc.toNat / 64 * 64) 64
    (Q.state ≠ .unbound → Q.state ≠ .destroyed → SetsRegs (.qBind q) s (s.qStatOf s q 1)) ∧
    (Q.state ≠ .bound → SetsRegs (.qStart q) s (s.qStatOf s q 1)) ∧
    (Q.state ≠ .watching → Q.state ≠ .active → Q.state ≠ .blocked → Q.state ≠ .faulted → SetsRegs (.qDrain q) s (s.qStatOf s q 1)) ∧
    (Q.state ≠ .faulted → SetsRegs (.qClear q) s (s.qStatOf s q 1)) ∧
    (Q.state ≠ .bound → Q.state ≠ .faulted → SetsRegs (.qDestroy q) s (s.qStatOf s q 1)) ∧
    SetsRegs (.qQuery q) s (s.qStatOf s q 0) ∧
    let widx := field b 16 8
    let ridx := field b 24 8
    (Q.state = .unbound ∨ Q.state = .destroyed →
      s.queueOk b (queueDesc b) = false ∨ s.residentPage (field b 0 2) widx = false ∨ s.front? (field b 0 2) ridx true = none →
        SetsRegs (.qBind q) s (s.qStatOf s q 2)) ∧
    (∀ w pa, Q.state = .unbound ∨ Q.state = .destroyed → s.queueOk b (queueDesc b) = true → s.residentPage (field b 0 2) widx = true →
      s.frontRead (field b 0 2) widx 8 = some w → s.front? (field b 0 2) ridx true = some pa →
        QueueAnswers (.qBind q) s q 0 fun u => (u.queue q.toNat).state = .bound ∧ (u.queue q.toNat).ctx = field b 0 2 ∧
          (u.queue q.toNat).size = field b 4 4 ∧ (u.queue q.toNat).ridx = ofBytes w ∧ ofBytes (u.homeRead pa 8) = ofBytes w) ∧
    (Q.state = .bound → QueueAnswers (.qStart q) s q 0 fun u =>
      (u.queue q.toNat).state = (if Q.kept = none then .watching else .active) ∧ (u.queue q.toNat).ridx = Q.ridx ∧
        (s.ownsClean → u.mem = s.mem)) ∧
    (Q.state = .watching ∨ Q.state = .active ∨ Q.state = .blocked ∨ Q.state = .faulted → QueueAnswers (.qDrain q) s q 0 fun u =>
      (u.queue q.toNat).state = (if s.inFlight q.toNat = [] then .bound else .draining) ∧ (u.queue q.toNat).ridx = Q.ridx ∧ u.mem = s.mem) ∧
    (Q.state = .faulted → QueueAnswers (.qClear q) s q 0 fun u =>
      (u.queue q.toNat).state = .active ∧ (u.queue q.toNat).fcode = 0 ∧ (u.queue q.toNat).ridx = Q.ridx ∧
        (u.queue q.toNat).kept = Q.kept ∧ u.mem = s.mem) ∧
    (Q.state = .bound ∨ Q.state = .faulted → QueueAnswers (.qDestroy q) s q 0 fun u =>
      (u.queue q.toNat).state = .destroyed ∧ (u.queue q.toNat).kept = none)

/-- The turn of a queue and the record that it meets, and what brings it to its turn (R100 to R105). -/
def Obligations.QueueRecords : Prop :=
  (∀ (s : State) (q : BitVec 8) (b : List Byte),
     let Q := s.queue q.toNat
     let live := s.inFlight q.toNat
     let intr := if recFlag b 1 then [Out.interrupt 0 Q.vector] else []
     s.nextQueue? = some q.toNat → Q.state = .active →
     (s.ctx Q.ctx).state = .bound ∨ (s.ctx Q.ctx).state = .runnable ∨ (s.ctx Q.ctx).state = .running →
     (Q.kept = some b →
       (recKind b = 0 → recFlag b 0 = false ∨ live = [] → Answers (.queueRecordNop q) s fun u =>
         (u.queue q.toNat).state = .active ∧ (u.queue q.toNat).kept = none ∧ u.out = s.out ++ intr ∧ u.mem = s.mem) ∧
       (recKind b = 1 → recFlag b 0 = false ∨ live = [] → live.length < Q.maxinfl → Answers (.queueRecordLaunch q) s fun u =>
         (u.queue q.toNat).state = .active ∧ (u.queue q.toNat).kept = none ∧ ∃ G ∈ u.grids, G.ctx = Q.ctx ∧ G.queue = some q.toNat ∧
           G.state = .queued ∧ G.parent = none ∧ G.x = field b 4 4 ∧ G.y = field b 8 2 ∧ G.z = field b 10 2 ∧
           G.kaddr = BitVec.ofNat 64 (field b 16 8) ∧ G.args = BitVec.ofNat 64 (field b 24 8) ∧ G.kernel = Q.keptKernel ∧
           G.complWord = BitVec.ofNat 64 (field b 32 8) ∧ G.complValue = BitVec.ofNat 64 (field b 40 8) ∧ G.intr = recFlag b 1) ∧
       (∀ w, recKind b = 2 → recFlag b 0 = false ∨ live = [] → s.frontRead Q.ctx (field b 8 8) 8 = some w →
         (field b 16 8 ≤ ofBytes w → Answers (.queueRecordWait q) s fun u =>
           (u.queue q.toNat).state = .active ∧ (u.queue q.toNat).kept = none ∧ u.proxies = [] ∧ u.out = s.out ++ intr ∧ Untouched s u) ∧
         (ofBytes w < field b 16 8 → Answers (.queueRecordWait q) s fun u =>
           (u.queue q.toNat).state = .blocked ∧ (u.queue q.toNat).kept = some b ∧ (s.ownsClean → u.mem = s.mem))) ∧
       (recKind b = 3 → live = [] → s.unackedOn 0 ≠ [] → Answers (.queueRecordSignal q) s fun u =>
         (u.queue q.toNat).state = .blocked ∧ (u.queue q.toNat).kept = some b ∧ u.mem = s.mem) ∧
       (∀ pa, recKind b = 3 → live = [] → s.unackedOn 0 = [] → s.front? Q.ctx (field b 8 8) true = some pa → (∀ f ∈ s.mem.flights, f.touches pa 8 = false) →
         Answers (.queueRecordSignal q) s fun u => (u.queue q.toNat).state = .active ∧ (u.queue q.toNat).kept = none ∧
           ofBytes (u.homeRead pa 8) = max (ofBytes (s.homeRead pa 8)) (field b 16 8) ∧ u.out = s.out ++ intr) ∧
       (recFlag b 0 = true → live ≠ [] → ∀ i, (recKind b = 0 ∧ i = Instr.queueRecordNop q) ∨ (recKind b = 1 ∧ i = .queueRecordLaunch q) ∨
         (recKind b = 2 ∧ i = .queueRecordWait q) ∨ (recKind b = 3 ∧ i = .queueRecordSignal q) →
           Answers i s fun u => (u.queue q.toNat).state = .blocked ∧ (u.queue q.toNat).kept = some b)) ∧
     (∀ k pa, Q.kept = none → s.turnKind q.toNat = 0 → s.acquireSys.readRecord Q = .record b k → recKind b = 0 →
       recFlag b 0 = false ∨ live = [] → s.acquireSys.front? Q.ctx Q.ridxA.toNat true = some pa →
         Answers (.queueRecordNop q) s fun u => (u.queue q.toNat).state = .active ∧ (u.queue q.toNat).kept = none ∧
           (u.queue q.toNat).ridx = (Q.ridx + 1) % 2 ^ 64 ∧ ofBytes (u.homeRead pa 8) = (Q.ridx + 1) % 2 ^ 64) ∧
     (∀ c, Q.kept = none → s.turnKind q.toNat = 0 → s.acquireSys.readRecord Q = .fault c → Answers (.queueRecordNop q) s fun u =>
       (u.queue q.toNat).state = .faulted ∧ (u.queue q.toNat).fcode = c ∧ (u.queue q.toNat).ridx = Q.ridx ∧
         u.out = s.out ++ [Out.interrupt 0 Q.vector]) ∧
     (Q.kept = none → s.turnKind q.toNat = 0 → s.acquireSys.readRecord Q = .empty → Answers (.queueRecordNop q) s fun u =>
       (u.queue q.toNat).state = .watching ∧ (s.ownsClean → Untouched s u))) ∧
  (∀ (s : State) (q : BitVec 8) (w b : List Byte),
     let Q := s.queue q.toNat
     (Q.state = .watching → Q.fired = true → s.frontRead Q.ctx Q.widxA.toNat 8 = some w →
       (Q.ridx ≤ ofBytes w → ofBytes w - Q.ridx ≤ Q.size → Answers (.queueWatchFire q) s fun u =>
         (u.queue q.toNat).state = .active ∧ u.proxies = [] ∧ Untouched s u) ∧
       (ofBytes w < Q.ridx ∨ Q.size < ofBytes w - Q.ridx → Answers (.queueWatchFire q) s fun u =>
         (u.queue q.toNat).state = .faulted ∧ (u.queue q.toNat).fcode = 2 ∧ u.out = s.out ++ [Out.interrupt 0 Q.vector])) ∧
     (Q.state = .watching → Q.fired = true → s.frontRead Q.ctx Q.widxA.toNat 8 = none → Answers (.queueWatchFire q) s fun u =>
       (u.queue q.toNat).state = .faulted ∧ (u.queue q.toNat).fcode = 3) ∧
     (Q.state = .blocked → Q.kept = some b → s.startable q.toNat b ≠ .blocked → Answers (.queueUnblock q) s fun u =>
       (u.queue q.toNat).state = .active ∧ (u.queue q.toNat).kept = some b ∧ u.mem = s.mem) ∧
     (Q.state = .active → Q.aged = false → Q.waiting + 112000 ≤ s.clock → Answers (.queueAgePromote q) s fun u =>
       u = { s with queues := u.queues } ∧ u.queue q.toNat = { Q with aged := true } ∧ (u.queue q.toNat).rank = 3 ∧
         ∀ n, n ≠ q.toNat → u.queue n = s.queue n))

/-! ## Pages and frames -/

/-- The host's page commands on a context (R267 to R271, R274): ignored while one is BUSY, which ends when nothing that it waits for is
left; a context that is not in use gives RESULT 2; INVAL leaves no cached translation and no page request on the range; RESIDE takes the
pages that now serve what waits on them out of the missing sets, and threads whose set is empty wake; MIGPUB publishes a MIGRATING page at
its new address. -/
def Obligations.PageCommands : Prop :=
  ∀ (s : State) (x : BitVec 12), s.regs.bootReady = true →
    let st := (s.ctx x.toNat).state
    let a := s.regs.pgArg0.toNat
    let n := s.regs.pgArg1.toNat
    let answer (r : BitVec 3) := { s.regs with pgResult := r, pgCtx := x }
    (∀ p, s.pgPend = some p →
      (∀ i ∈ [Instr.pgMigpub x, .pgAssign x, .pgShare x, .pgFree x, .pgUnpoison x], exec i s = .next s) ∧
      (∀ i, (i = Instr.pgInval x ∧ p.op = 1) ∨ (i = .pgReside x ∧ p.op = 2) → p.ctx = x.toNat →
        (s.pgOver p = false → exec i s = .next s) ∧
        (s.pgOver p = true → PageAnswers i s x 0 fun u => u.pgPend = none))) ∧
    (s.pgPend = none →
      (st = .created ∨ st = .destroyed → ∀ i ∈ [Instr.pgInval x, .pgReside x, .pgMigpub x, .pgAssign x], SetsRegs i s (answer 2)) ∧
      (st ≠ .created → st ≠ .destroyed → (∀ r ∈ (s.ctx x.toNat).regions, r.2.owes = false) →
        (a % 65536 ≠ 0 ∨ n % 65536 ≠ 0 → SetsRegs (.pgInval x) s (answer 2) ∧ SetsRegs (.pgReside x) s (answer 2)) ∧
        (rangeOk a n = true → (∃ f ∈ s.mem.flights, f.outside = true) → ∀ i ∈ [Instr.pgInval x, .pgReside x],
          Answers i s fun u => u.pgPend.isSome = true ∧ u.regs = s.regs) ∧
        (rangeOk a n = true → s.invalAwaits x.toNat a n = ([], []) → PageAnswers (.pgInval x) s x 0 fun u => Untouched s u ∧
          (∀ c, ∀ e ∈ (u.core c).tlb, e.ctx = x.toNat → n ≠ 0 ∧ e.meets x.toNat a n = false) ∧
          (∀ e ∈ u.nonLeaf, e.ctx = x.toNat → n ≠ 0 ∧ e.meets x.toNat a n = false) ∧
          ∀ r ∈ u.pageReqs, r.ctx = x.toNat → r.kind ≠ 4 → u.inRange x.toNat a n r.addr.toNat = false) ∧
        (rangeOk a n = true → s.invalAwaits x.toNat a n = ([], []) → s.badWords = [] →
          let v := s.inval x.toNat a n
          let served (p : Nat) := ∀ w ∈ v.waitersOf x.toNat p, ∃ e, v.walk x.toNat (swapVa (v.ctx x.toNat).swaps w.1) = .leaf e ∧
            pteSt e.pte ≠ 0 ∧ w.2.allowed e.pte = true
          PageAnswers (.pgReside x) s x 0 fun u =>
            ∀ k T j t, s.team? k = some T → T.ctx = x.toNat → T.threads[j]? = some t → ∃ t', u.thread? k j = some t' ∧
              (∀ p, p ∈ t'.missing ↔ p ∈ t.missing ∧ ¬(v.inRange x.toNat a n p = true ∧ served p)) ∧
              (t.status = .parked → t.missing ≠ [] → t'.missing = [] → t'.status = .ready)) ∧
        (∀ e ea, canonical s.regs.pgArg0 = true → s.walk x.toNat a = .leaf e →
          s.leafAddr? (a % 2 ^ 57) levels (s.ctx x.toNat).desc.ptroot.toNat = some ea →
          (pteSt e.pte ≠ 2 → SetsRegs (.pgMigpub x) s (answer 1)) ∧
          (pteSt e.pte = 2 → a % e.size ≠ 0 ∨ n % e.size ≠ 0 ∨ s.assignedTo x.toNat n e.size = false →
            SetsRegs (.pgMigpub x) s (answer 2)) ∧
          (pteSt e.pte = 2 → a % e.size = 0 → n % e.size = 0 → s.assignedTo x.toNat n e.size = true →
            PageAnswers (.pgMigpub x) s x 0 fun u => u.homeRead ea 8 = toBytes 8 (residentPte e.pte n).toNat ∧
              ∀ c, ∀ f ∈ (u.core c).tlb, f.meets x.toNat a e.size = false))))

/-- The host's frame commands (R264, R265, R268, R273, R275), while no page command is in progress: the frames that are taken, those that are
freed, whose bytes then read zero and whose entries the part rewrites where the host has named a frame table, and the marks that are cleared. -/
def Obligations.FrameCommands : Prop :=
  ∀ (s : State) (x : BitVec 12), s.regs.bootReady = true → s.pgPend = none →
    let a := s.regs.pgArg0.toNat
    let n := s.regs.pgArg1.toNat
    let answer (r : BitVec 3) := { s.regs with pgResult := r, pgCtx := x }
    let named := a % 65536 = 0 ∧ 1 ≤ n ∧ a + n * 65536 ≤ 2 ^ 40
    let all (p : FState → Prop) := ∀ f, a / 65536 ≤ f → f < a / 65536 + n → p (s.frame f)
    let becomes (u : State) (y : FState) := ∀ f, u.frame f = if a / 65536 ≤ f ∧ f < a / 65536 + n then y else s.frame f
    let inUse := (s.ctx x.toNat).state ≠ .created ∧ (s.ctx x.toNat).state ≠ .destroyed
    (inUse → ¬named → SetsRegs (.pgAssign x) s (answer 2)) ∧
    (inUse → named → ¬all (fun y => y = .freeClean) → SetsRegs (.pgAssign x) s (answer 1)) ∧
    (inUse → named → all (fun y => y = .freeClean) → PageAnswers (.pgAssign x) s x 0 fun u => becomes u (.assigned x.toNat)) ∧
    (x ≠ 0 → ∀ i ∈ [Instr.pgShare x, .pgFree x, .pgUnpoison x], SetsRegs i s (answer 3)) ∧
    (x = 0 → ¬named → SetsRegs (.pgShare x) s (answer 2) ∧ SetsRegs (.pgFree x) s (answer 2)) ∧
    (x = 0 → named → ¬all (fun y => y = .freeClean) → SetsRegs (.pgShare x) s (answer 1)) ∧
    (x = 0 → named → all (fun y => y = .freeClean) → PageAnswers (.pgShare x) s x 0 fun u => becomes u .shared) ∧
    (x = 0 → named → ¬all (fun y => y ≠ .scrubbing ∧ y ≠ .freeClean) → SetsRegs (.pgFree x) s (answer 1)) ∧
    (x = 0 → named → all (fun y => y ≠ .scrubbing ∧ y ≠ .freeClean) → PageAnswers (.pgFree x) s x 0 fun u =>
      let table := s.regs.frmTbl.toNat
      let entry (b : Nat) := s.regs.frmSet = true ∧ table + 8 * (a / 65536) ≤ b ∧ b < table + 8 * (a / 65536 + n)
      becomes u .freeClean ∧ (∀ d b, a ≤ b → b < a + n * 65536 → ¬entry b → u.mem.byte d b = 0) ∧
        (s.regs.frmSet = true → ∀ f, a / 65536 ≤ f → f < a / 65536 + n → u.homeRead (table + 8 * f) 8 = toBytes 8 (u.frameEntry f)) ∧
        (s.mem.flights = [] → s.cmds = [] → ∀ d b, b < a ∨ a + n * 65536 ≤ b → ¬entry b → u.mem.byte d b = s.mem.byte d b) ∧
        ∀ c, ∀ e ∈ (u.core c).tlb, e.pa + e.size ≤ a ∨ a + n * 65536 ≤ e.pa) ∧
    (x = 0 → a % 4096 = 0 → n = 0 → inHbm a = true → PageAnswers (.pgUnpoison x) s x 0 fun u =>
      u.poison = s.poison.filter (fun b => b != a / 4096) ∧ u.hostPoison = s.hostPoison) ∧
    (x = 0 → a % 4096 = 0 → n = 0 → inHost a = true → PageAnswers (.pgUnpoison x) s x 0 fun u =>
      u = { s with regs := u.regs, hostPoison := s.hostPoison.filter fun b => b != a / 4096 }) ∧
    (x = 0 → a % 4096 ≠ 0 ∨ n ≠ 0 → SetsRegs (.pgUnpoison x) s (answer 2))

/-! ## The managed heap -/

/-- The host's region commands (R355 to R357, R362, R365): ignored while one is BUSY; the result; the region after it. -/
def Obligations.RegionCommands : Prop :=
  ∀ (s : State) (x : BitVec 12) (r : BitVec 4), s.regs.bootReady = true →
    let st := (s.ctx x.toNat).state
    let R := (s.ctx x.toNat).region r
    let answer (c : BitVec 3) := { s.regs with mhResult := c, mhBusy := false }
    let mayCommand := r ≠ 0 ∧ (st = .bound ∨ st = .runnable ∨ st = .running ∨ st = .preempted)
    let all := [Instr.mhDefine x r, .mhBegin x r, .mhEnd x r, .mhUndefine x r]
    (s.regs.mhBusy = true → (∀ i ∈ [Instr.mhDefine x r, .mhEnd x r], exec i s = .next s) ∧
      (s.mhPend = none → ∀ i ∈ all, exec i s = .next s) ∧
      ∀ p, s.mhPend = some p → ∀ i, (i = Instr.mhBegin x r ∧ p.op = 2) ∨ (i = .mhUndefine x r ∧ p.op = 4) → p.ctx = x.toNat → p.region = r →
        (s.mhOver p = false → exec i s = .next s) ∧
        (s.mhOver p = true → Answers i s fun u => u = { s with regs := answer 0, mhPend := none })) ∧
    (s.regs.mhBusy = false → s.mhPend = none →
      (¬mayCommand → ∀ i ∈ all, SetsRegs i s (answer 3)) ∧
      (mayCommand →
        (R.state ≠ .undefined → SetsRegs (.mhDefine x r) s (answer 1)) ∧
        (R.state ≠ .idle → SetsRegs (.mhBegin x r) s (answer 1) ∧ SetsRegs (.mhUndefine x r) s (answer 1)) ∧
        (R.state ≠ .relocating → SetsRegs (.mhEnd x r) s (answer 1)) ∧
        (R.state = .undefined → s.regs.mhArg.toNat % 64 ≠ 0 → SetsRegs (.mhDefine x r) s (answer 2)) ∧
        (∀ b, R.state = .undefined → s.regs.mhArg.toNat % 64 = 0 → s.frontRead x.toNat s.regs.mhArg.toNat 64 = some b →
          (s.regionOk x.toNat r b (regionOf s.regs.mhArg b) = false → SetsRegs (.mhDefine x r) s (answer 2)) ∧
          (s.regionOk x.toNat r b (regionOf s.regs.mhArg b) = true → Answers (.mhDefine x r) s fun u => u.regs = answer 0 ∧
            ((u.ctx x.toNat).region r).state = .idle ∧ ((u.ctx x.toNat).region r).base = field b 0 8 ∧
            ((u.ctx x.toNat).region r).size = field b 8 8 ∧ ((u.ctx x.toNat).region r).colour = 0)) ∧
        (R.state = .idle → Answers (.mhBegin x r) s fun u =>
          (s.regionAwaits x.toNat R = ([], []) → u.regs = answer 0 ∧ u.mhPend = none) ∧
          ((∃ f ∈ s.mem.flights, f.outside = true) → u.regs = { s.regs with mhBusy := true } ∧ u.mhPend.isSome = true) ∧
          ((u.ctx x.toNat).region r).state = .relocating ∧ ((u.ctx x.toNat).region r).colour = R.colour + 1 ∧
          ((u.ctx x.toNat).region r).moved = 0 ∧ ((u.ctx x.toNat).region r).kept = 0 ∧
          ∀ c, ∀ e ∈ (u.core c).tlb, e.meets x.toNat R.base R.size = false) ∧
        (R.state = .idle → Answers (.mhUndefine x r) s fun u => ((u.ctx x.toNat).region r).state = .undefined ∧
          ((s.front? x.toNat (R.desc.toNat + 48) true).isSome = true → (u.ctx x.toNat).region r = {}) ∧
          (s.regionAwaits x.toNat R = ([], []) → u.regs = answer 0 ∧ u.mhPend = none) ∧
          ((∃ f ∈ s.mem.flights, f.outside = true) → u.regs = { s.regs with mhBusy := true } ∧ u.mhPend.isSome = true)) ∧
        (∀ pt, R.state = .relocating → R.job = none → s.ringIndices x.toNat R = some pt →
          (64 < ahead pt → SetsRegs (.mhEnd x r) s (answer 1)) ∧
          (ahead pt = 0 → Answers (.mhEnd x r) s fun u => u.regs = answer 0 ∧
            ((u.ctx x.toNat).region r).state = .idle ∧ ((u.ctx x.toNat).region r).slots = []) ∧
          (0 < ahead pt → ahead pt ≤ 64 → Answers (.mhEnd x r) s fun u => u.regs = { s.regs with mhBusy := true } ∧
            (u.ctx x.toNat).region r = { R with ending := true, kicked := true } ∧ u.mem = s.mem))))

/-- Teasel (R359, R363, R364). A kick makes it look at the ring: with nothing to take, or too much, the kick is dropped; else it takes the next
entry, which becomes the job where its fields are in range, its list can be read and the region is RELOCATING, and is counted as kept
otherwise. A pair is kept where it cannot be read, or its addresses or pages are not as R364 asks. An attempt keeps it where its size is wrong,
it is forwarded, or no slot is free; it is made again 256 cycles later, five times at most, while the object is pinned; else the object is
copied and a slot claimed. The CAS at its end makes the object FORWARDED where its state word is still the one read, and else frees the slot. -/
def Obligations.TeaselResults : Prop :=
  ∀ (s : State) (x : BitVec 12) (r : BitVec 4) (pt : Nat × Nat) (j : Job) (b : List Byte),
    let R := (s.ctx x.toNat).region r
    let after (u : State) := (u.ctx x.toNat).region r
    (R.state ≠ .undefined → R.job = none → R.kicked = true → R.ending = false → s.ringIndices x.toNat R = some pt →
      (ahead pt = 0 ∨ 64 < ahead pt → Answers (.teaselTake x r) s fun u => u = { s with contexts := u.contexts } ∧
        after u = { R with kicked := false }) ∧
      (0 < ahead pt → ahead pt ≤ 64 → s.acquireSys.frontRead x.toNat (R.ring.toNat + 128 + 32 * (pt.2 % 64)) 32 = some b →
        let t := s.acquireSys.poke (s.teaselCore x.toNat R) x.toNat (R.ring.toNat + 4) (toBytes 4 ((pt.2 + 1) % 2 ^ 32)) true
        let n := field b 8 4
        let none_ := if 1 ≤ n ∧ n ≤ 65535 then n else 0
        let good := R.state = .relocating ∧ field b 0 8 % 16 = 0 ∧ 1 ≤ n ∧ n ≤ 65535 ∧ field b 12 4 = 0 ∧ field b 16 8 % 8 = 0 ∧
          field b 24 8 = 0 ∧ ∀ p ∈ pieces (n / 4096 + 2) (field b 0 8) (16 * n), (t.front? x.toNat p.1 false).isSome = true
        (good → Answers (.teaselTake x r) s fun u => u.mem = t.mem ∧ (after u).job =
          some { list := BitVec.ofNat 64 (field b 0 8), count := n, done := BitVec.ofNat 64 (field b 16 8) }) ∧
        (¬good → Answers (.teaselTake x r) s fun u => u.mem = t.mem ∧ (after u).kept = R.kept + BitVec.ofNat 32 none_ ∧
          (after u).job = some { list := 0, count := n, done := BitVec.ofNat 64 (field b 16 8), next := n, kept := none_ }))) ∧
    (R.state ≠ .undefined → R.job = some j →
      let core := s.teaselCore x.toNat R
      let ends (m k : Nat) (u : State) := (after u).moved = R.moved + BitVec.ofNat 32 m ∧ (after u).kept = R.kept + BitVec.ofNat 32 k ∧
        (after u).job = some { j with next := j.next + 1, attempt := 1, moved := j.moved + m, kept := j.kept + k, pair := none, claimed := none }
      let again (u : State) := (after u).moved = R.moved ∧
        (5 ≤ j.attempt → ends 0 1 u) ∧ (j.attempt < 5 → (after u).kept = R.kept ∧
          (after u).job = some { j with attempt := j.attempt + 1, after := s.clock + 256, claimed := none })
      (j.count ≤ j.next →
        (s.doneWaits x.toNat R = true → exec (.teaselTake x r) s = .next s) ∧
        (s.doneWaits x.toNat R = false → Answers (.teaselTake x r) s fun u => (after u).job = none ∧ (after u).kicked = true ∧
          ∀ pa pd, pieces 2 j.done.toNat 8 = [(j.done.toNat, 8)] → s.front? x.toNat j.done.toNat true = some pa →
            s.front? x.toNat (R.desc.toNat + 48) true = some pd → s.badWords = [] → s.mem.flights = [] →
            (∀ v, v = j.done.toNat ∨ v = R.desc.toNat + 48 → (s.cached? 0 x.toNat (swapVa (s.ctx x.toNat).swaps v)).isSome = true) →
            (pd + 16 ≤ pa ∨ pa + 8 ≤ pd) → u.homeRead pa 8 = toBytes 4 j.moved ++ toBytes 4 j.kept)) ∧
      (j.next < j.count →
        ∀ i, (i = Instr.teaselTake x r ∧ (j.attempt = 1 ∨ j.claimed.isSome = true)) ∨
            (i = .teaselRetry x r ∧ 1 < j.attempt ∧ j.claimed = none ∧ j.after ≤ s.clock) →
          (j.pair = none → s.frontRead x.toNat (j.list.toNat + 16 * j.next) 16 = none → Answers i s fun u => u.mem = s.mem ∧ ends 0 1 u) ∧
          (j.pair = none → s.frontRead x.toNat (j.list.toNat + 16 * j.next) 16 = some b →
            let f : State := s.acquireSys
            let A := field b 0 8
            let N := field b 8 8
            let size := ofBytes (f.peek core x.toNat A 4)
            let fits := A % 16 = 0 ∧ N % 16 = 0 ∧ R.base ≤ A ∧ A + 16 ≤ R.base + R.size ∧ R.base ≤ N ∧ N + 16 ≤ R.base + R.size ∧
              f.pageIs core x.toNat N r 1 = true ∧ f.pageIs core x.toNat A r 3 = true ∧ (A + size ≤ N ∨ N + size ≤ A)
            (¬fits → Answers i s fun u => u.mem = s.mem ∧ ends 0 1 u) ∧
            (fits → Answers i s fun u => u = { s with contexts := u.contexts } ∧ (after u).job = some { j with pair := some (A, N) })) ∧
          (∀ A N, j.pair = some (A, N) → j.claimed = none →
            let f : State := s.acquireSys
            let size := ofBytes (f.peek core x.toNat A 4)
            let w := f.headerState core x.toNat A
            let fits := size ≠ 0 ∧ size % 16 = 0 ∧ R.base ≤ A ∧ A + size ≤ R.base + R.size ∧ R.base ≤ N ∧ N + size ≤ R.base + R.size
            (¬fits ∨ w % 65536 = 0xFFFF → Answers i s fun u => Untouched s u ∧ ends 0 1 u) ∧
            (fits → w % 65536 ≠ 0xFFFF → w % 65536 ≠ 0 → Answers i s fun u => Untouched s u ∧ again u) ∧
            (fits → w % 65536 = 0 → ∀ old new, f.objBytes core x.toNat A size = some old → f.objBytes core x.toNat N size = some new →
              (f.freeSlotOf core x.toNat R A = none → Answers i s fun u => Untouched s u ∧ ends 0 1 u) ∧
              (∀ slot, f.freeSlotOf core x.toNat R A = some slot → Answers i s fun u =>
                (after u).moved = R.moved ∧ (after u).kept = R.kept ∧ slot ∈ (after u).slots ∧
                (after u).job = some { j with claimed := some (w, slot) } ∧
                ∀ pa pn ps, s.ownsClean → s.mem.flights = [] → s.holdsPage core x.toNat A size pa → s.holdsPage core x.toNat N size pn →
                  s.holdsPage core x.toNat slot 16 ps → (ps + 16 ≤ pn ∨ pn + size ≤ ps) →
                    (∀ k, k < size → u.byteFor core (pn + k) = s.byteFor core (pa + k)) ∧
                    u.bytesFor core ps 16 = toBytes 8 (A + 1) ++ toBytes 8 N))) ∧
          (∀ A N w slot, j.pair = some (A, N) → j.claimed = some (w, slot) →
            (s.headerState core x.toNat A = w → Answers i s fun u => ends 1 0 u ∧
              ∀ ph, s.holdsPage core x.toNat (A + 4) 4 ph → ∀ d, d < 8 → ofBytes (u.mem.read d ph 4) = w % 2 ^ 32 / 65536 * 65536 + 0xFFFF) ∧
            (s.headerState core x.toNat A ≠ w → Answers i s fun u => again u ∧ slot ∉ (after u).slots ∧
              ∀ ps, s.ownsClean → s.holdsPage core x.toNat slot 16 ps → u.bytesFor core ps 16 = List.replicate 16 0))))

/-! ## Links and memory nodes -/

/-- Bamlos ports (R381, R383, R393): training, the lanes and node of a port that comes UP, the loss of a link, flow control; the
acknowledgement of a store by its node (R385), and a TRIGGER (R388). -/
def Obligations.PortEvents : Prop :=
  ∀ (s : State) (p vc : Nat) (lanes : BitVec 8) (node : BitVec 12) (ok : Bool) (line : Nat), p < 24 →
    let P := s.port p
    (P.state = .down → Answers (.portSignalDetect p) s fun u => u.port p = { P with state := .training, lanes := 0, node := 0 } ∧
      (∀ n, n ≠ p → u.port n = s.port n) ∧ u = { s with ports := u.ports, dies := u.dies } ∧ SameDies s u) ∧
    (P.state = .training → laneCount lanes = 8 ∨ laneCount lanes = 4 → Answers (.portTrainingResult p lanes node) s fun u =>
      u.port p = { P with state := .up, lanes := lanes, node := node } ∧ u = { s with ports := u.ports, dies := u.dies }) ∧
    (P.state = .training → laneCount lanes ≠ 8 → laneCount lanes ≠ 4 → Answers (.portTrainingResult p lanes node) s fun u =>
      u.port p = { P with state := .down, lanes := 0, node := 0 } ∧ u = { s with ports := u.ports, dies := u.dies }) ∧
    (P.state = .up → Answers (.portLinkLoss p) s fun u => u.port p = { P with state := .down, lanes := 0, node := 0 } ∧
      ∀ n, n ≠ p → u.port n = s.port n) ∧
    (vc < 8 → Answers (.flowControlStopGo p vc ok) s fun u => u = { s with ports := u.ports } ∧ (u.port p).state = P.state ∧
      ∀ c, c ∈ (u.port p).stopped ↔ if c = vc then ok = false else c ∈ P.stopped) ∧
    (∀ f, inNode (line * 128) = true → s.unreachable (line * 128) = false → nodeOf (line * 128) < 4096 →
      s.unreachable (nodeBase (nodeOf (line * 128))) = false →
      s.mem.flights.find? (fun g => g.outside && lineOf g.addr == line) = some f → (∀ G ∈ s.grids, G.acks = []) →
      (∀ c ∈ s.contexts, ∀ p ∈ c.2.pairs, p.leaving = false) →
        Answers (.bamlosResponse line ok []) s fun u => u = { s with mem := u.mem } ∧
          (∀ g ∈ u.mem.flights, g.id = f.id → g.addr = f.addr → g.outside = false) ∧
          ∀ d a, d < 8 → u.mem.byte d a = s.mem.byte d a) ∧
    (∀ k j t b, inNode (line * 128) = true → line ∈ (s.node (nodeOf (line * 128))).watches → s.thread? k j = some t →
      t.watch = .armed line b → Answers (.nodeTrigger line) s fun u => u.mem = s.mem ∧
        (u.thread? k j).map (fun t => t.watch) = some .triggered ∧ line ∉ (u.node (nodeOf (line * 128))).watches)

/-- NODE_CMD and attestation (R389, R391 to R394): a command while one is BUSY is ignored; the result; the state of the pair of a context
and a node, and of the node. -/
def Obligations.NodeCommands : Prop :=
  ∀ (s : State) (x node : BitVec 12) (res : BitVec 3) (digest msg : List Byte), s.regs.bootReady = true →
    let C := s.ctx x.toNat
    let inUse := x ≠ 0 ∧ C.state ≠ .created ∧ C.state ≠ .destroyed
    let answers (i : Instr) (c : BitVec 3) :=
      exec i s = .next { s with regs := { s.regs with nodeResult := c, nodeCtx := x, nodeBusy := false }, nodePend := none }
    let quiet := s.reachable node.toNat = false ∨ s.atomicsAt x.toNat node.toNat = false
    (s.regs.nodeBusy = true → s.nodePend = none →
      ∀ i ∈ [Instr.nodeAttest x node, .nodeRevoke x node, .nodeFence x node, .nodeUnfence x node, .nodeRetrain x node], exec i s = .next s) ∧
    (s.regs.nodeBusy = false →
      (¬inUse → answers (.nodeAttest x node) 3 ∧ (quiet → answers (.nodeRevoke x node) 3)) ∧
      (inUse → s.attestArg = none → answers (.nodeAttest x node) 2) ∧
      (∀ d p, inUse → s.attestArg = some (d, p) →
        ((s.node node.toNat).fenced = true → answers (.nodeAttest x node) 1) ∧
        (C.pair? node = none → (s.node node.toNat).fenced = false → s.reachable node.toNat = false → answers (.nodeAttest x node) 4) ∧
        (C.pair? node = none → (s.node node.toNat).fenced = false → s.reachable node.toNat = true → p = 255 → 64 ≤ C.pairs.length →
          answers (.nodeAttest x node) 7) ∧
        (C.pair? node = none → (s.node node.toNat).fenced = false → s.reachable node.toNat = true → p = 255 → C.pairs.length < 64 →
          Answers (.nodeAttest x node) s fun u => u.regs.nodeBusy = true ∧ u.regs.nodeCtx = x ∧
            ((u.ctx x.toNat).pair? node).map (fun q => (q.state, q.entry, q.ref)) = some (1, C.pairs.length, d) ∧
            ∃ m, u.out = s.out ++ [.message m])) ∧
      (∀ q, inUse → quiet → C.pair? node = some q →
        (q.state = 2 → Answers (.nodeRevoke x node) s fun u => u.regs.nodeResult = 0 ∧
          ((u.ctx x.toNat).pair? node).map (fun q => q.state) = some 0) ∧
        (q.state ≠ 2 → answers (.nodeRevoke x node) 1)) ∧
      (x ≠ 0 → (quiet → answers (.nodeFence x node) 3) ∧ answers (.nodeUnfence x node) 3 ∧ answers (.nodeRetrain x node) 3) ∧
      (x = 0 →
        (quiet → (s.node node.toNat).fenced = true → answers (.nodeFence x node) 1) ∧
        (quiet → (s.node node.toNat).fenced = false → Answers (.nodeFence x node) s fun u => u.regs.nodeResult = 0 ∧
          (u.node node.toNat).fenced = true ∧ (u.node node.toNat).watches = [] ∧
          ∀ y q, (u.ctx y).pair? node = some q → q.state = 0) ∧
        ((s.node node.toNat).fenced = true → Answers (.nodeUnfence x node) s fun u => u.regs.nodeResult = 0 ∧
          u.node node.toNat = { s.node node.toNat with fenced := false } ∧ u.mem = s.mem) ∧
        ((s.node node.toNat).fenced = false → answers (.nodeUnfence x node) 1) ∧
        (24 ≤ node.toNat % 32 → answers (.nodeRetrain x node) 2) ∧
        (node.toNat % 32 < 24 → (s.port (node.toNat % 32)).state = .training → answers (.nodeRetrain x node) 1) ∧
        (node.toNat % 32 < 24 → (s.port (node.toNat % 32)).state ≠ .training → Answers (.nodeRetrain x node) s fun u =>
          u.regs.nodeResult = 0 ∧ (u.port (node.toNat % 32)).state = .training))) ∧
    (∀ q, C.pair? node = some q → q.state = 1 →
      let ends (c : BitVec 3) (st : Nat) (e : Word) := Answers (.attestResult x node res digest) s fun u => u.regs.nodeResult = c ∧
        u.regs.nodeBusy = false ∧ ((u.ctx x.toNat).pair? node).map (fun p => (p.state, p.epoch)) = some (st, e)
      (res ≠ 0 → ends res 0 q.epoch) ∧ (res = 0 → digest ≠ q.ref → ends 6 0 q.epoch) ∧
      (res = 0 → digest = q.ref → C.jobKey.isSome = true → ends 0 2 (q.epoch + 1)) ∧
      (res = 0 → digest = q.ref → C.jobKey = none → ∃ c, c ≠ 0 ∧ ends c 0 q.epoch) ∧
      (s.reachable node.toNat = true → Answers (.bamlosMgmt x node msg) s fun u =>
        u = { s with out := u.out, fresh := u.fresh } ∧ ∃ m, u.out = s.out ++ [.message m]))

/-! ## The host port and the trusted interfaces -/

/-- What the host does to device memory, host memory and configuration space (R1, R220, R377, R432, R443), and the trusted interfaces
(R378, R379, R392): the bytes written and read, the completions, good and poisoned, the states of a VF. -/
def Obligations.HostPortResults : Prop :=
  (∀ (s : State) (pa n : Nat) (b : List Byte) (op : PcieOp) (wide : Bool) (v c : DWord), s.regs.bootReady = true →
    (1 ≤ b.length → pa + b.length ≤ 2 ^ 40 → s.closedTo pa b.length = false → Answers (.hostWrite pa b) s fun u =>
      (∀ d k, d < 8 → k < b.length → u.mem.byte d (pa + k) = b.getD k 0) ∧
        (s.mem.flights = [] → s.ownsClean → ∀ d a, a < pa ∨ pa + b.length ≤ a → u.mem.byte d a = s.mem.byte d a)) ∧
    (s.closedTo pa b.length = true → exec (.hostWrite pa b) s = .next s) ∧
    (1 ≤ n → pa + n ≤ 2 ^ 40 → s.closedTo pa n = false → s.anyBad pa n = true → Answers (.hostRead pa n) s fun u =>
      (∃ l, u.out = s.out ++ [.completion l] ∧ l.length = n) ∧
        ∀ w ∈ s.badWords, pa / 8 ≤ w → w ≤ (pa + n - 1) / 8 → w / 512 ∈ u.poison ∨ w / 512 ∈ s.hostPoison) ∧
    (1 ≤ n → pa + n ≤ 2 ^ 40 → s.closedTo pa n = false → s.anyBad pa n = false → s.ownsClean → Answers (.hostRead pa n) s fun u =>
      u = { s.beside u with mem := u.mem, out := u.out } ∧ SameDies s u ∧
        (∀ k, (u.team? k).map Team.apart = (s.team? k).map Team.apart) ∧
        u.out = s.out ++ [.completion (u.mem.read (homeDie pa) pa n)] ∧
        ((∀ f ∈ s.mem.flights, f.touches pa n = false) → u.mem.read (homeDie pa) pa n = s.mem.read (homeDie pa) pa n)) ∧
    (n = 0 ∨ 2 ^ 40 < pa + n ∨ s.closedTo pa n = true → exec (.hostRead pa n) s = .next (s.emit .unsupported)) ∧
    (∀ w, w = (if wide then 8 else 4) → pa + w ≤ 2 ^ 40 → pa % w = 0 → s.closedTo pa w = false → s.badBlock? pa w = none → Calm s pa w → s.ownsClean →
      let old := ofBytes (s.homeRead pa w)
      Answers (.hostAtomicop pa op wide v c) s fun u => u.out = s.out ++ [.completion (toBytes w old)] ∧
        ofBytes (u.homeRead pa w) = match op with
          | .fetchAdd => (old + v.toNat) % 2 ^ (8 * w)
          | .swap => v.toNat % 2 ^ (8 * w)
          | .cas => if old = c.toNat % 2 ^ (8 * w) then v.toNat % 2 ^ (8 * w) else old) ∧
    (pa % (if wide then 8 else 4) ≠ 0 → exec (.hostAtomicop pa op wide v c) s = .next (s.emit .unsupported))) ∧
  (∀ (s : State) (vf off n pa : Nat) (w : Bool) (b : List Byte), s.regs.bootReady = true →
    let x := (s.vf vf).ctx.toNat
    let va := (s.vf vf).vbase.toNat * 65536 + off
    let len := if w then b.length else n
    let me : VfWait := { vf := vf, off := off, write := w, len := n, data := b }
    let waits := Answers (.vfAccess vf off w n b) s fun u => u = { s with vfWaits := u.vfWaits } ∧ ∃ q ∈ u.vfWaits, q.same me = true
    (s.vfOpen vf off len = false → Answers (.vfAccess vf off w n b) s fun u => u.out = s.out ++ [.unsupported] ∧ u.mem = s.mem) ∧
    (s.vfOpen vf off len = true → off % 65536 + len ≤ 65536 →
      (s.vfAt x va w = .unsupported → Answers (.vfAccess vf off w n b) s fun u => u.out = s.out ++ [.unsupported] ∧ u.mem = s.mem) ∧
      (s.vfAt x va w = .wait → waits) ∧
      (s.vfAt x va w = .at_ pa → s.lineBusy pa = true → waits) ∧
      (∀ f ∈ s.mem.flights, s.vfAt x va w = .at_ pa → w = false → f.outside = true → f.touches pa n = true → waits) ∧
      (∀ q ∈ s.vfWaits, s.vfAt x va w = .at_ pa → w = true → q.vf = vf → q.write = true → (∀ p ∈ s.vfWaits, p.same me = false) → waits) ∧
      ((∀ q ∈ s.vfWaits, q.vf ≠ vf) → s.lineBusy pa = false →
        (s.vfAt x va w = .at_ pa → w = true → Answers (.vfAccess vf off w n b) s fun u => u.out = s.out ∧
          ∀ d k, d < 8 → k < b.length → u.mem.byte d (pa + k) = b.getD k 0) ∧
        (s.vfAt x va w = .at_ pa → w = false → (∀ f ∈ s.mem.flights, f.touches pa n = false) →
          (s.farLines 0 x (s.vfPieces vf off n) ≠ [] → Answers (.vfAccess vf off w n b) s fun u =>
            u.mem = s.mem ∧ u.out = s.out ∧ ∃ q ∈ u.vfWaits, q.same me = true) ∧
          (s.farLines 0 x (s.vfPieces vf off n) = [] → s.anyBad pa n = false → s.ownsClean → Answers (.vfAccess vf off w n b) s fun u =>
            u.out = s.out ++ [.completion (s.mem.read (homeDie pa) pa n)]))))) ∧
  (∀ (s : State) (off line : Nat) (b : List Byte),
    (s.regs.bootReady = false → exec (.hostConfigRequest off) s = .next (s.emit .retryStatus)) ∧
    (s.regs.bootReady = true → Answers (.hostConfigRequest off) s fun u => ∃ l, u.out = s.out ++ [.completion l] ∧ l.length = 4 ∧
      (off / 4 = 2 → l.head? = some 0x10) ∧ u.mem = s.mem) ∧
    (inHost (line * 128) = true → s.mem.flights = [] → (∀ o ∈ s.outside, o.line ≠ line) → Answers (.hostCompletion line b) s fun u =>
      (∀ d k, k < b.length → k < 128 → u.mem.byte d (line * 128 + k) = b.getD k 0) ∧
        (∀ d a, a < line * 128 ∨ line * 128 + min b.length 128 ≤ a → u.mem.byte d a = s.mem.byte d a) ∧ u.teams = s.teams) ∧
    (inHost (line * 128) = true → (∀ o ∈ s.outside, o.line ≠ line) → Answers (.hostCompletion line []) s fun u =>
      u = { s with badWords := u.badWords } ∧ ∀ k, k < 16 → 16 * line + k ∈ u.badWords) ∧
    (∀ k T t r p pa, OneLoad s k T t r p → r.stage = .outside pa → s.outside = [{ line := line, req := r.id, team := k }] →
      inHost (line * 128) = true → lineOf pa = line → pa % 4 = 0 → s.mem.flights = [] → s.badBlock? pa 4 = none → b.length = 128 → T.killed = false →
      ∃ u U t', exec (.hostCompletion line b) s = .next u ∧ u.team? k = some U ∧ U.reqs = [] ∧ U.threads[r.tid]? = some t' ∧
        t'.at p = BitVec.ofNat 32 (field b (pa % 128) 4) ∧ t'.p 7 = true ∧ t'.cntLd = t.cntLd - 1 ∧ u.outside = [])) ∧
  (∀ (s : State) (n vf stream : Nat) (sec : Bool) (msg : List Byte),
    (Answers (.doeDiscovery n) s fun u => u = { s with out := u.out, fresh := u.fresh } ∧ ∃ m, u.out = s.out ++ [.message m]) ∧
    (Answers (.spdmRequest sec msg) s fun u => (∃ m, u.out = s.out ++ [.message m]) ∧ u.mem = s.mem ∧
      ∀ x, (u.ctx x).jobKey = if sec = true ∧ x = field msg 0 2 ∧ x < 4096 ∧ (s.ctx x).state.inUse = true then some (msg.drop 2)
        else (s.ctx x).jobKey) ∧
    (stream < 4 → 1 ≤ vf → vf ≤ 63 → Answers (.ideKmMessage stream vf) s fun u => stream ∈ u.ideStreams ∧
      u.vf vf = { s.vf vf with stream := some stream } ∧ ∃ m, u.out = s.out ++ [.message m]) ∧
    (1 ≤ vf → vf ≤ 63 →
      ((s.vf vf).state = .unlocked → Answers (.tdispLockInterface vf) s fun u => u.vf vf = { s.vf vf with state := .locked } ∧
        u = { s with vfs := u.vfs }) ∧
      ((s.vf vf).state = .locked → s.hasStream vf = true → Answers (.tdispStartInterface vf) s fun u =>
        u.vf vf = { s.vf vf with state := .run } ∧ u = { s with vfs := u.vfs }) ∧
      (s.hasStream vf = false → exec (.tdispStartInterface vf) s = .next s) ∧
      ((s.vf vf).state ≠ .unlocked → Answers (.tdispStopInterface vf) s fun u => (u.vf vf).state = .unlocked ∧
        ((s.vf vf).ctx ≠ 0 → (s.ctx (s.vf vf).ctx.toNat).state ≠ .destroyed → (u.ctx (s.vf vf).ctx.toNat).state = .fenced)) ∧
      ((s.vf vf).stream.isSome = true → (s.vf vf).state ≠ .error → Answers (.ideIntegrityFailure vf) s fun u =>
        (u.vf vf).state = .error ∧
        ((s.vf vf).ctx ≠ 0 → (s.ctx (s.vf vf).ctx.toNat).state ≠ .destroyed → (u.ctx (s.vf vf).ctx.toNat).state = .fenced))))

/-! ## Grids and teams -/

/-- A grid from QUEUED to its end (R102, R107, R112 to R119, R181): what waits for CLEARF, the descriptor read, the translation of its extents, the placement of a
team with the registers that R119 gives each thread, the reservation of a core, and the end of a team. -/
def Obligations.GridEvents : Prop :=
  ∀ (s : State) (x : BitVec 12) (g : Word) (G : Grid) (key : Nat) (T : Team) (K : Kernel),
    (s.grid? x.toNat g = some G → s.frozen G = true → exec (.gridDescriptorRead x g) s = .next s ∧ exec (.gridTranslate x g) s = .next s) ∧
    (s.grid? x.toNat g = some G → G.state = .queued → s.launchReady G = true → s.frozen G = false → s.mem.flights = [] →
      (G.kernel = some K ∨ (G.kernel = none ∧ s.readKernel G.ctx G.kaddr = some K) → G.queue.isSome = true ∨ G.operandsOk = true →
        Answers (.gridDescriptorRead x g) s fun u => u = { s with grids := u.grids } ∧
          u.grid? x.toNat g = some { G with state := .translating, kernel := some K }) ∧
      (G.kernel = none → s.readKernel G.ctx G.kaddr = none → Answers (.gridDescriptorRead x g) s fun u =>
        (u.grid? x.toNat g).map (fun H => (H.state, H.early)) = some (.faulted, true))) ∧
    (s.grid? x.toNat g = some G → G.state = .translating → G.kernel = some K → s.frozen G = false → s.badWords = [] →
      Answers (.gridTranslate x g) s fun u =>
      (u.grid? x.toNat g).map (fun H => (H.state, H.nextTeam)) = some (.placing, G.nextTeam) ∧ u.mem = s.mem ∧
      (G.nextTeam < G.x * G.y * G.z → (u.team? s.fresh).map (fun P => (P.phase, P.gid, P.index, P.size)) =
        some (.pending, g, G.nextTeam, K.tx * K.ty * K.tz))) ∧
    (∀ c p, key < s.fresh → s.waiting? key = some (T, G, K) → s.bestCore T.ctx key K = some (c, p) → Answers (.teamPlace key) s fun u =>
      (∃ N, u.team? key = some N ∧ N.phase = .resident ∧ N.core = c ∧ N.ctx = T.ctx ∧ N.gid = T.gid ∧ N.index = T.index ∧
        N.threads.length = K.tx * K.ty * K.tz ∧ N.accs = K.nacc ∧
        ∀ j t, N.threads[j]? = some t → t.pc = K.code ∧ t.status = .ready ∧ t.trapvec = (s.ctx T.ctx).desc.trapvec ∧ t.wb = 0 ∧
          t.at 0 = G.args.setWidth 32 ∧ t.at 1 = (G.args >>> 32).setWidth 32 ∧ t.at 2 = BitVec.ofNat 32 T.index ∧
          (∀ n, 2 < n → t.at n = 0) ∧ t.preds = 0 ∧ t.fpflags = 0 ∧ t.handler = false ∧ t.bundle = some (s.fresh + j / 32)) ∧
      (u.grid? T.ctx T.gid).map (fun H => (H.state, H.nextTeam)) = some (.running, G.nextTeam + 1) ∧
      ((s.ctx T.ctx).state = .bound → (u.ctx T.ctx).state = .runnable)) ∧
    (∀ c, s.waiting? key = some (T, G, K) → s.mayReserve key T = true → s.reserveCore T.ctx key K = some c →
      Answers (.placementReserve key) s fun u => u.core c = { s.core c with reserved := some key } ∧ u = { s with cores := u.cores }) ∧
    (s.team? key = some T → s.mayEnd key T = true → Answers (.teamDone key) s fun u => u.team? key = none ∧
      ((∀ kt ∈ s.teams, kt.1 = key) → (s.ctx T.ctx).state = .runnable ∨ (s.ctx T.ctx).state = .running → (u.ctx T.ctx).state = .bound) ∧
      (s.grid? T.ctx T.gid = some G → s.frozen G = false → (∀ kt ∈ s.teams, kt.1 = key) → G.state = .running → G.x * G.y * G.z ≤ G.nextTeam →
        s.liveChildren T.ctx T.gid = [] → G.queue = none → G.parent = none → s.mem.flights = [] → (∀ m ∈ s.cmds, m.team ≠ key) → T.pins = [] →
          (u.grid? T.ctx T.gid).map (fun H => H.state) = some .retired))

/-! ## Request engines and copy engines -/

/-- The engines (R14, R17, R229, R289, R293, R336 to R347): the take of a ring entry, whose checks may wait for a walk; the engine that a command
needs, and gives up where it stalls; each kind of command, whose bytes go where its entry says, on one page that no store on its way touches and
nothing watches; an error; the completion. -/
def Obligations.EngineEvents : Prop :=
  ∀ (s : State) (k id : Nat) (T : Team) (m : Cmd),
    (∀ c, s.team? k = some T → s.unchecked? k = some c → c.1.fieldError T c.2 = none →
      (s.walksWait? T.core T.ctx c.1.fetched c.1.pages = some .slot → exec (.requestEngineTake k) s = .next s) ∧
      (s.walksWait? T.core T.ctx c.1.fetched c.1.pages = none → Answers (.requestEngineTake k) s fun u =>
        (u.cmd? c.1.id).map (fun q => q.unchecked) = some none)) ∧
    (s.team? k = some T → s.unchecked? k = none → T.takable = true → Answers (.requestEngineTake k) s fun u =>
      (u.team? k).map (fun U => U.notify 4) = some ((T.notify 4 + 1) % 2 ^ 32) ∧
      ∃ q ∈ u.cmds, q.id = s.fresh ∧ q.team = k ∧ q.index = T.notify 4 ∧ q.takenAt = s.clock ∧
        let e := getBytes T.ring (32 * (T.notify 4 % T.ringLen)) 32
        q.kind = field e 0 1 ∧ q.src = BitVec.ofNat 64 (field e 8 8) ∧ q.dst = BitVec.ofNat 64 (field e 16 8) ∧
          q.aux = BitVec.ofNat 64 (field e 24 8)) ∧
    (s.cmd? id = some m → s.team? m.team = some T →
      (∀ i, (m.kind = 0 ∧ i = Instr.cmdNop id) ∨ (m.kind = 1 ∧ i = .cmdCpy id) ∨ (m.kind = 2 ∧ i = .cmdCpy2d id) ∨
          (m.kind = 4 ∧ i = .cmdCpyp id) ∨ (m.kind = 5 ∧ i = .cmdCpyr id) ∨ (m.kind = 6 ∧ i = .cmdFill id) →
        (T.killed = true → exec i s = .next s) ∧
        (m.engine = none → s.freeEngine? (dieOf m.core) = none → Answers i s fun u => u = { s with cmds := u.cmds } ∧
          ∃ w, u.cmd? id = some { m with since := w })) ∧
      (m.kind = 0 → s.unmoved m = true → T.killed = false →
        (m.engine.isSome = true → Answers (.cmdNop id) s fun u => u = { s with cmds := u.cmds } ∧ u.cmd? id = some { m with moved := true }) ∧
        (∀ e, m.engine = none → s.freeEngine? (dieOf m.core) = some e → s.nextCmd? (dieOf m.core) = some m → Answers (.cmdNop id) s fun u =>
          u = { s with cmds := u.cmds, lastOwner := u.lastOwner } ∧
          u.cmd? id = some { m with moved := true, engine := some e, since := none })) ∧
      (∀ i, (m.kind = 1 ∧ i = Instr.cmdCpy id) ∨ (m.kind = 2 ∧ i = .cmdCpy2d id) ∨ (m.kind = 6 ∧ i = .cmdFill id) ∨
          (m.kind = 5 ∧ m.aux.toNat % 256 = 255 ∧ i = .cmdCpyr id) ∨ (m.kind = 4 ∧ m.pub = false ∧ i = .cmdCpyp id) →
        m.engine.isSome = true → s.unmoved m = true → T.killed = false →
        let stalls := Answers i s fun u => u = { s with cmds := u.cmds } ∧ u.cmd? id = some { m with engine := none, since := none }
        let far := s.farLines T.core T.ctx m.sources
        (s.walksWait? T.core T.ctx m.fetched m.pages = some .slot → stalls) ∧
        ((∀ va ∈ m.pages, s.engineNeeds T.core T.ctx va = false) →
        (s.spanState T.core T.ctx m = .later → stalls) ∧
        (s.spanState T.core T.ctx m = .ready → s.asking id = true → stalls) ∧
        (s.spanState T.core T.ctx m = .ready → s.asking id = false → m.asked = false → far ≠ [] →
          (∀ l ∈ far, s.egressBlocked (l * 128) = false) → Answers i s fun u => u = { s with cmds := u.cmds, outside := u.outside } ∧
            u.outside = s.outside ++ far.map (fun l => { line := l, req := id, team := m.team }) ∧
            u.cmd? id = some { m with engine := none, since := none, asked := true }) ∧
        (∀ n vd pd vs ps, s.asking id = false → s.ownsClean → s.spanState T.core T.ctx m = .ready → piecesOf m.targets = [(vd, n)] →
          s.engineAt T.core T.ctx vd true = .at_ pd → pd + n ≤ 2 ^ 40 → 8 * (m.count / 8) = n →
          (m.kind ≠ 6 → piecesOf m.sources = [(vs, n)] ∧ s.engineAt T.core T.ctx vs false = .at_ ps ∧ inHbm ps = true) →
          (∀ f ∈ s.mem.flights, f.touches pd n = false) → (∀ l, lineOf pd ≤ l → l ≤ lineOf (pd + n) → s.isWatched l = false) →
            Answers i s fun u => (u.cmd? id).map (fun q => (q.moved, q.err)) = some (true, m.err) ∧
              Stored s u T.core pd (if m.kind = 6 then (List.range n).map (fun j => m.src.extractLsb' (8 * (j % 8)) 8)
                else s.bytesFor T.core ps n)) ∧
        (∀ c a, s.spanState T.core T.ctx m = .fails c a → c ≠ 3 → Answers i s fun u =>
          u = { s with cmds := u.cmds } ∧ u.cmd? id = some { m with err := some (c, a) }))) ∧
      (m.kind = 5 → m.engine.isSome = true → s.unmoved m = true → T.killed = false → m.aux.toNat % 256 ≠ 255 → (s.port (m.aux.toNat % 256)).state ≠ .up → Answers (.cmdCpyr id) s fun u =>
        u = { s with cmds := u.cmds } ∧ u.cmd? id = some { m with err := some (8, BitVec.ofNat 64 (m.aux.toNat % 256)) }) ∧
      (∀ n, m.kind = 3 → m.tile = some n → m.err = none → m.moved = false → m.parked = false → s.fill? id = none → T.killed = false →
        ((s.core T.core).accown = T.ctx → ((s.core T.core).tile n).state ≠ .empty → exec (.cmdCpyt id) s = .next s) ∧
        ((s.core T.core).accown = T.ctx → ((s.core T.core).tile n).state = .empty → Answers (.cmdCpyt id) s fun u => ((u.core T.core).tile n).state = .filling ∧
          ((u.core T.core).tile n).fill = some id ∧ (∃ f ∈ (u.core T.core).fills, f.id = id ∧ f.tile = n ∧ f.src = m.src) ∧ u.mem = s.mem) ∧
        ((s.core T.core).accown ≠ T.ctx → Answers (.cmdCpyt id) s fun u => u = { s with cmds := u.cmds } ∧
          u.cmd? id = some { m with parked := true })) ∧
      (s.cmdOver m T = true → Answers (.cmdComplete id) s fun u => (∀ q ∈ u.cmds, q.id ≠ id) ∧
        (∀ c a, m.tbe = false → m.err = some (c, a) → (u.team? m.team).map (fun U => getBytes U.ring (32 * T.ringLen + 12) 2) =
          some (toBytes 2 c.toNat)) ∧
        (m.cce = true → (u.team? m.team).map (fun U => U.ccAt m.cc) = some (T.ccAt m.cc - 1))))

/-! ## Requests -/

/-- What becomes of requests (R199, R201, R227 to R238, R263): a store arrives on a die; a request takes a slot of its cluster's queue, waits
outside a full one, or parks; it goes from queue to queue, times out, backs off; a younger load obtains its value early; a load that is
the one request of its team commits. -/
def Obligations.RequestEvents : Prop :=
  (∀ (s : State) (id d : Nat), d < 8 → Answers (.storeArrival id d) s fun u => u = { s with mem := u.mem } ∧
    (∀ f ∈ u.mem.flights, f.id = id → d ∈ f.at_) ∧ ∀ e a, e < 8 → e ≠ d → u.mem.byte e a = s.mem.byte e a) ∧
  (∀ (s : State) (k : Nat) (T : Team) (r : Req) (pa since hold : Nat), s.team? k = some T → s.req? r.id = some (k, T, r) → T.core < 256 →
    let e := s.cached? T.core T.ctx (swapVa (s.ctx T.ctx).swaps r.va.toNat)
    let c := clusterOf T.core
    let taken := (s.queueOf c).length + (s.doorOf c).length
    let stands (u : State) (st : Stage) := ((u.team? k).bind fun U => U.req? r.id).map (fun q => q.stage) = some st
    (r.stage = .translated pa → e = none → taken < 64 → Answers (.requestEnqueue r.id) s fun u =>
      u = { s with teams := u.teams } ∧ u.team? k = some (T.setReq { r with stage := .queued c pa s.clock (s.holdOf T) })) ∧
    (r.stage = .translated pa → e = none → 64 ≤ taken → displaced? 64 (s.queueOf c) k = none → Answers (.requestEnqueue r.id) s fun u =>
      u = { s with teams := u.teams } ∧ u.team? k = some (T.setReq { r with stage := .atDoor c (some pa) s.clock })) ∧
    (∀ p, r.stage = .translated pa → e = some p → pteSt p.pte = 2 → r.op.need.writes = true → Answers (.requestEnqueue r.id) s fun u =>
      stands u .onPublish ∧ u.mem = s.mem) ∧
    (∀ q, r.stage = .queued q pa since hold → since + hold ≤ s.clock → Answers (.requestHoldTimeout r.id) s fun u =>
      stands u (.backoff (s.clock + 256 * 2 ^ min r.k 8)) ∧ u.mem = s.mem) ∧
    (∀ w, r.stage = .walking w since hold → since + hold ≤ s.clock → Answers (.requestHoldTimeout r.id) s fun u =>
      stands u (.onWalk w) ∧ u.mem = s.mem) ∧
    (∀ q m, s.nextMember q = some m → m.owner = k → m.id = r.id → r.stage = .queued q pa since hold →
      (∀ n, s.nextQueue T r q pa = some n → s.hasSlot n = true → e = none → Answers (.requestAdvance q) s fun u => u.mem = s.mem ∧
        u.team? k = some (T.setReq { r with stage := .queued n pa s.clock (s.holdOf T) })) ∧
      (s.nextQueue T r q pa = none → T.mayPerform r = false → inHbm pa = true → Answers (.requestAdvance q) s fun u => u.mem = s.mem ∧
        u.team? k = some (T.setReq { r with stage := .arrived pa true (s.bytesFor T.core pa r.op.width) })))) ∧
  (∀ (s : State) (k : Nat) (T : Team) (t : Thread) (r : Req) (p pa since hold : Nat), OneLoad s k T t r p →
    let w := wordAt (s.bytesFor T.core pa 4) 0
    (inHbm pa = true → s.badBlock? pa 4 = none → (s.badWords.any fun v => v / 16 == lineOf pa) = false →
      (∀ q m, s.nextMember q = some m → m.owner = k → m.id = r.id → r.stage = .queued q pa since hold → s.nextQueue T r q pa = none →
        Commits (.requestAdvance q) s k t r p w true) ∧
      (r.stage = .translated pa → s.viaQueues = false → Commits (.requestReissue r.id) s k t r p w true) ∧
      (∀ v, r.stage = .arrived pa true v → Commits (.loadCommit r.id) s k t r p w true)) ∧
    (∀ v, r.stage = .arrived pa false v → v.length = 4 → Commits (.loadCommit r.id) s k t r p (wordAt v 0) false) ∧
    (Reaches s T r.va 4 .load pa → s.viaQueues = false →
      (r.stage = .behind → Commits (.requestReissue r.id) s k t r p w true) ∧
      (∀ til, r.stage = .backoff til → til ≤ s.clock → Commits (.requestBackoffExpiry r.id) s k t r p w true) ∧
      (∀ x, s.walks.find? (fun v => v.id == x.id) = some x → x.stale = false → r.stage = .walking x.id since hold → s.teams = [(k, T)] →
        (s.outside.any fun o => o.req == x.id) = false → s.walkNeeds? x = none → Commits (.walkComplete x.id) s k t r p w true))) ∧
  (∀ (s : State) (x : Walk), s.walks.find? (fun v => v.id == x.id) = some x →
    ((s.outside.any fun o => o.req == x.id) = true → exec (.walkComplete x.id) s = .next s) ∧
    ((s.outside.any fun o => o.req == x.id) = false →
      (∀ n, s.walkNeeds? x = some n → exec (.walkComplete x.id) s =
        .next { s with outside := s.outside ++ [{ line := n, req := x.id, team := 0 }] }) ∧
      (s.walkNeeds? x = none → x.id < s.fresh → Answers (.walkComplete x.id) s fun u => ∀ v ∈ u.walks, v.id ≠ x.id)))

/-! ## Threads -/

/-- The ends of waits (R89, R91, R92, R173, R176, R184, R290, R300, R301), slabs (R126, R127) and fetch (R263, R277, R279): a thread whose
missing set is empty is READY where it stood, a TBWAIT or an MWAIT has its code, and a fetch whose walk takes time waits for it. -/
def Obligations.ThreadEvents : Prop :=
  (∀ (s : State) (k j : Nat) (T : Team) (t : Thread), s.team? k = some T → T.threads[j]? = some t → t.missing = [] →
    (∀ w, t.status = .waiting w → s.waitOver k j T t w = true → (∀ r a b c d e f, w = .fence r a b c d e f → r = []) →
      (∀ ta p q, w ≠ .phase ta p q) → Answers (.threadWaitEnd k j) s fun u => ∃ t', u.thread? k j = some t' ∧ t.readyAs t') ∧
    (∀ ta p q, t.status = .waiting (.phase ta p q) → s.phaseCode T ta p ≠ 2 → T.groupOf j t = [(j, t)] →
      Answers (.threadWaitEnd k j) s fun u => Untouched s u ∧ u.proxies = [] ∧
        ∃ t', u.thread? k j = some t' ∧ (t.putAt q (s.phaseCode T ta p)).readyAs t') ∧
    (∀ til, t.status = .sleeping til → til ≤ s.clock → Answers (.sleepEnd k j) s fun u =>
      (∃ t', u.thread? k j = some t' ∧ t.readyAs t') ∧ u = { s with teams := u.teams, fresh := u.fresh }) ∧
    (∀ p dl since, t.status = .watching p dl since →
      let ends (i : Instr) (c : Word) := Answers i s fun u => ∃ t', u.thread? k j = some t' ∧
        ({ t.putAt p c with watch := .idle } : Thread).readyAs t'
      (t.watch = .triggered → ends (.mwaitWake k j) 0 ∧ ends (.mwaitTimeout k j) 0) ∧
      (t.watch = .idle → ends (.mwaitWake k j) 2) ∧
      (∀ l ok, t.watch = .armed l ok → (∃ c, dl = some c ∧ c ≤ s.clock) → ends (.mwaitTimeout k j) 1) ∧
      (∀ l, t.watch = .armed l false → dl = none → ends (.mwaitWake k j) 2) ∧
      (∀ l ok, t.watch = .armed l ok → dl = none → inHost (l * 128) = true → ends (.hostWatchExpiry k j) 2) ∧
      (∀ l, t.watch = .armed l true → dl = none → s.nodeLost l = false → exec (.mwaitWake k j) s = .next s))) ∧
  (∀ (s : State) (k j : Nat) (T : Team) (t : Thread), s.team? k = some T → T.threads[j]? = some t →
    (∀ y, t.yielded = some y → y.1 + 256 ≤ s.clock → Answers (.yieldTimeout k j) s fun u => u = { s with teams := u.teams } ∧
      u.team? k = some { T with threads := T.threads.set j { t with yielded := none } }) ∧
    (∀ n, tget? n t.slabs = some true → t.pinned n = false → (s.ctx T.ctx).blocks < (s.ctx T.ctx).desc.blockLimit →
      Answers (.slabSpill k j n) s fun u => (u.ctx T.ctx).blocks = (s.ctx T.ctx).blocks + 1 ∧
        ∃ t', u.thread? k j = some t' ∧ tget? n t'.slabs = none ∧ n ∈ t'.spilled ∧ t'.stack = t.stack ∧ t'.pc = t.pc ∧ t'.status = t.status) ∧
    (∀ n, tget? n t.slabs = some false → t.pinned n = false → Answers (.slabSpill k j n) s fun u => u = { s with teams := u.teams } ∧
      u.thread? k j = some { t with slabs := tdel n t.slabs }) ∧
    (∀ n, tget? n t.slabs = none → n < 512 → t.status ≠ .exited → t.slabs.length < T.slabs →
      (n ∉ t.badSpills → Answers (.slabFill k j n) s fun u =>
        (u.ctx T.ctx).blocks = (s.ctx T.ctx).blocks - (if n ∈ t.spilled then 1 else 0) ∧
          u.thread? k j = some { t with slabs := tput n false t.slabs, spilled := t.spilled.filter fun x => x != n }) ∧
      (n ∈ t.badSpills → n ∈ t.spilled → T.phase.isResident = true → Answers (.slabFill k j n) s fun u =>
        (u.team? k).map (fun U => (U.phase, U.killed)) = some (.exiting, true))) ∧
    (∀ e, s.lits.payloads = [] → T.bundleOf j ≠ [] → (∀ i v, i ∈ T.bundleOf j → T.threads[i]? = some v → v.pc = t.pc) →
      canonical t.pc = true → inWindow t.pc = false → (s.ctx T.ctx).desc.inBacking t.pc.toNat = false →
      s.cached? T.core T.ctx (swapVa (s.ctx T.ctx).swaps t.pc.toNat) = some e → pteX e.pte = true → pteSt e.pte ≠ 0 →
      inHbm (e.phys (s.ctx T.ctx).swaps t.pc.toNat) = true → s.badBlock? (e.phys (s.ctx T.ctx).swaps t.pc.toNat) 4 = none →
        exec (.instructionFetch k j) s = .next s) ∧
    (∀ e, s.lits.payloads = [] → T.bundleOf j = [j] → t.status = .ready →
      canonical t.pc = true → inWindow t.pc = false → (s.ctx T.ctx).desc.inBacking t.pc.toNat = false →
      s.cached? T.core T.ctx (swapVa (s.ctx T.ctx).swaps t.pc.toNat) = none → s.walkIn (clusterOf T.core) T.ctx (swapVa (s.ctx T.ctx).swaps t.pc.toNat) = .leaf e →
      let page := pageBase (swapVa (s.ctx T.ctx).swaps t.pc.toNat) e.size
      pteX e.pte = true → pteSt e.pte = 0 → s.announceFull T.ctx (BitVec.ofNat 64 page) false false = false →
      s.wouldIssue T j = true → s.slowWalk T t.pc = false → Answers (.instructionFetch k j) s fun u =>
        ∃ t', u.thread? k j = some t' ∧ t'.status = .parked ∧ page ∈ t'.missing ∧ t'.pc = t.pc ∧
          ∃ q ∈ u.pageReqs, q.ctx = T.ctx ∧ q.addr = BitVec.ofNat 64 page) ∧
    (s.wouldIssue T j = false → exec (.instructionFetch k j) s = .next s) ∧
    (s.lits.payloads = [] → T.bundleOf j = [j] → s.wouldIssue T j = true → s.fetchWalks T t = true →
      let waits (w : Wait) (u : State) := u.thread? k j = some { t.wait w with fetching := true }
      (s.walksIn (clusterOf T.core) < 16 → Answers (.instructionFetch k j) s fun u =>
        (∃ w, u.walks = s.walks ++ [w] ∧ w.id = s.fresh ∧ w.ctx = T.ctx ∧ w.va = t.pc ∧ w.code = true) ∧ waits (.walk s.fresh) u) ∧
      (16 ≤ s.walksIn (clusterOf T.core) → Answers (.instructionFetch k j) s fun u => u.walks = s.walks ∧
        waits (.walker (clusterOf T.core)) u))) ∧
  (∀ (s : State) (x : BitVec 12) (c n : Nat) (va : DWord) (b : Bin) (T : Team),
    exec (.runAheadFetch c x va) s = .next s ∧
    (Answers (.tholdPropagation x c) s fun u => u = { s with contexts := u.contexts } ∧
      (u.ctx x.toNat).tholdOn c = (s.ctx x.toNat).thold ∧ (u.ctx x.toNat).thold = (s.ctx x.toNat).thold) ∧
    ((s.core c).bins[n]? = some b → s.drawable c b ≠ none → s.team? b.team = some T → b.tids ≠ [] → Answers (.binDraw c n) s fun u =>
      (u.core c).bins = (s.core c).bins.eraseIdx n ∧ ∀ y t, y ∈ b.tids → T.threads[y.1]? = some t → t.missing = [] →
        u.thread? b.team y.1 = some { t with status := .ready, bundle := some s.fresh }))

/-! ## Containment and part reset -/

/-- Self-test, scan rotation, part reset and part failure (R183, R317, R426 to R434). -/
def Obligations.ContainmentResults : Prop :=
  (∀ (s : State) (c sub : Nat), c < 256 → sub < 16 → (s.core c).fenced = false → sub ∉ (s.core c).fencedSub →
    ∀ i ok, (i = Instr.selftestForced c sub ok) ∨ (i = .selftestInject c sub ok ∧ (s.core c).canStart = false) →
      (ok = true → Answers i s fun u => u = { s with cores := u.cores, dies := u.dies } ∧ SameDies s u ∧
        u.core c = { s.core c with passes := tput sub s.clock (s.core c).passes }) ∧
      (ok = false → (s.core c).fencedSub.length < 2 → Answers i s fun u =>
        (u.core c).fencedSub = (s.core c).fencedSub ++ [sub] ∧ (u.core c).fenced = false ∧ u.teams.map Prod.fst = s.teams.map Prod.fst) ∧
      (ok = false → 2 ≤ (s.core c).fencedSub.length → Answers i s fun u => (u.core c).fenced = true ∧
        ∀ k T, s.team? k = some T → T.core = c → T.phase.isResident = true → (u.team? k).map (fun U => U.phase) = some .exiting)) ∧
  (∀ (s : State) (c d at_ : Nat) (ok : Bool),
    (s.scanDue = true → s.scanFrom 0 = some d → s.inTransfer d = false → Answers .scanRotationStart s fun u => u.scan.at_ = some d ∧ u.scan.last = s.clock ∧
      (u.core d).drainAt = some s.clock ∧ (u.core d).slice = none ∧
      ∀ k T, s.team? k = some T → T.core = d → T.phase = .resident ∨ T.phase = .running →
        (u.team? k).map (fun U => U.phase) = some .preempted) ∧
    (s.scan.at_ = some c → (s.core c).drainAt = some at_ → (s.core c).scanAt = none → s.drained c = true →
      Answers (.coreScan c ok) s fun u => (u.core c).scanAt = some s.clock ∧ (u.core c).drainAt = some at_ ∧ u.scan = s.scan ∧
        (u.core c).accown = 0) ∧
    (∀ began, s.scan.at_ = some c → (s.core c).drainAt = some at_ → (s.core c).scanAt = some began → began + 48 * 1750 ≤ s.clock →
      Answers (.coreScan c ok) s fun u => (u.core c).drainAt = none ∧ (if ok then (u.core c).scanPass = at_ else (u.core c).fenced = true) ∧
        u.scan.at_ ≠ some c) ∧
    (s.scan.at_ = some c → (s.core c).drainAt = some at_ → (s.core c).scanAt = none → s.drained c = false → at_ + 1750000 ≤ s.clock →
      Answers (.scanDrainTimeout c) s fun u => (u.core c).drainAt = none ∧ (u.core c).scanPass = (s.core c).scanPass ∧ u.scan.at_ ≠ some c)) ∧
  (∀ (s : State) (fail : BitVec 8) (bad : List Nat),
    let failed := (s.fenceSubs bad).failedCores bad
    (failed.length ≤ 16 → Answers (.partReset 0 bad) s fun u => u.regs = { ({} : HostRegs) with
        bootReady := true, bootStep := 7, bootFenced := BitVec.ofNat 8 failed.length, hostRsv := BitVec.ofNat 32 s.hostRsvSize } ∧
      u.measured = true ∧ u.boot = some s.fresh ∧ s.fresh < u.fresh ∧
      u.clock = 0 ∧ u.contexts = [] ∧ u.teams = [] ∧ u.grids = [] ∧ u.queues = [] ∧ u.frames = [] ∧
      (∀ d a, a < 2 ^ 40 → u.mem.byte d a = 0) ∧ ∀ c, ((u.core c).fenced = true ↔ c ∈ failed) ∧
        ∀ n, n < 16 → c < 256 → (n ∈ (u.core c).fencedSub ↔ n ∈ (s.core c).fencedSub ∨ 256 + 16 * c + n ∈ bad)) ∧
    (1 ≤ fail.toNat → fail.toNat ≤ 4 → failed.length ≤ 16 → Answers (.partReset fail bad) s fun u =>
      u.regs.bootReady = false ∧ u.regs.bootFail = fail ∧ u.halted = true) ∧
    (Answers .partFatal s fun u => u.regs.bootFatal = true ∧ u.halted = true ∧
      ∀ x, 1 ≤ x → x ≤ 4095 → (s.ctx x).state ≠ .destroyed → (u.ctx x).state = .fenced))

/-- An unhandled trap (R78, R87, R112, R180, R445): in a handler, or with sr.trapvec zero, the team is killed, its grid and its context go
FAULTED, the fault record tells of it, and the fvector is raised. -/
def Obligations.UnhandledTraps : Prop :=
  ∀ (s : State) (j : Nat) (T : Team) (t : Thread) (G : Grid) (code : BitVec 18), Alone s j T t → t.handler = true ∨ t.trapvec = 0 →
    (s.ctx T.ctx).state = .bound ∨ (s.ctx T.ctx).state = .runnable ∨ (s.ctx T.ctx).state = .running → T.phase.isResident = true →
    s.grid? T.ctx T.gid = some G → G.state.ended = false → G.queue = none → s.lits.payloads = [] →
      ∃ u, exec (.trap code) s = .next u ∧ (u.team? s.issue.team).map (fun U => (U.phase, U.killed)) = some (.exiting, true) ∧
        (u.grid? T.ctx T.gid).map (fun H => H.state) = some .faulted ∧ (u.ctx T.ctx).state = .faulted ∧
        (u.ctx T.ctx).fault = some { cause := 0x15, core := T.core, gid := T.gid, team := T.index, thread := j, trappc := t.pc,
                                     trapaddr := 0, trapcause := (code.setWidth 32 <<< 8) ||| 0x15, clock := s.clock } ∧
        u.homeRead (s.ctx T.ctx).desc.faultrec.toNat 1 = [0x15] ∧
        u.out = s.out ++ (if (s.ctx T.ctx).desc.fvector = 0xFFFF then [] else [.interrupt 0 (s.ctx T.ctx).desc.fvector])

/-! ## Words and steps -/

/-- Decode and encode agree, both ways (R55, R64 to R67, R409): a well-formed instruction's word decodes to it with every operand, a word that
decodes to an instruction is that instruction's word, and what decodes is well-formed. -/
def Obligations.RoundTrip : Prop :=
  (∀ i w, encode i = some w → i.wf = true → if isFilter i then decodeFilter w = some i else decodeWord w = .ok i) ∧
  (∀ w i, decodeWord w = .ok i → i.wf = true ∧ encode i = some w) ∧
  (∀ w i, decodeFilter w = some i → i.wf = true ∧ encode i = some w)

/-- Words written out from the encodings of R55, R64 to R67 and R409, and the three refusals of R68, in their order. -/
def Obligations.DecodeWords : Prop :=
  decodeWord 0b0010100_0000011_0000001_0000010_0000#32 = .ok (.add 3 1 2) ∧
  decodeWord 0b0000010_0000_111111111111111111111#32 = .ok (.bra 0x1FFFFF) ∧
  decodeWord 0x00000000#32 = .error .opcode ∧
  decodeWord 0b0000001_0000000_000000000000000001#32 = .error .field ∧
  decodeAfter 1 0b0000001_0000000_000000000000000000#32 = .error .lit ∧
  decodeAfter 2 0b1111111_0000000000000000000000000#32 = .error .lit ∧
  decodeFilter 0b01001_0011_0001_0000_000000000000101#32 = some (.yaddi 3 1 5)

/-- The part right after part reset: the reset values of the registers of R20, R22, R74, R97, R267, R355, R382, R391, R402, R424 and R433, no
context, queue, grid or team in use, every frame still to be scrubbed (R432), and nothing in memory. -/
def Obligations.ResetState : Prop :=
  State.reset.regs.bootReady = false ∧ State.reset.regs.bootFatal = false ∧ State.reset.regs.bootStep = 0 ∧
  State.reset.regs.bootFail = 0 ∧ State.reset.regs.bootFenced = 0 ∧
  State.reset.regs.cfgLease = 0 ∧ State.reset.regs.cfgScan = 1 ∧ State.reset.regs.cfgMirror = 1 ∧ State.reset.regs.cfgPcap = 0 ∧
  State.reset.regs.lease = 0 ∧ State.reset.regs.scan = 1 ∧ State.reset.regs.mirror = 1 ∧ State.reset.regs.pcap = 0 ∧
  State.reset.regs.badw = false ∧ State.reset.regs.lpend = false ∧ State.reset.regs.spend = false ∧ State.reset.regs.caplim = false ∧
  State.reset.regs.ctxResult = 0 ∧ State.reset.regs.ctxCtx = 0 ∧ State.reset.regs.qResult = 0 ∧ State.reset.regs.qSlot = 0 ∧
  State.reset.regs.pgResult = 0 ∧ State.reset.regs.pgPoison = false ∧ State.reset.regs.prqVector = 0 ∧ State.reset.regs.prqLog2 = 8 ∧
  State.reset.regs.mhResult = 0 ∧ State.reset.regs.nodeResult = 0 ∧ State.reset.regs.ywResult = 0 ∧
  State.reset.regs.susLog2 = 8 ∧ State.reset.regs.dumpLog2 = 8 ∧ State.reset.regs.susDrops = 0 ∧ State.reset.regs.dumpDrops = 0 ∧
  (∀ n, (State.reset.node n).en = false) ∧ (∀ x, (State.reset.ctx x).state = .created) ∧ (∀ q, (State.reset.queue q).state = .unbound) ∧
  State.reset.grids = [] ∧ (∀ k, State.reset.team? k = none) ∧ (∀ f, State.reset.frame f = .scrubbing) ∧
  (∀ c, (State.reset.core c).fenced = false) ∧ ∀ d a, State.reset.mem.byte d a = 0

/-- The memory that reset leaves is in its canonical form: what every step keeps holds at the start. -/
def Obligations.InvariantAtReset : Prop := State.reset.memOk

/-- Every step, whatever instruction or event it runs, keeps the memory in its canonical form (log 5: an unlisted byte reads zero). -/
def Obligations.InvariantStep : Prop := ∀ s t : State, s.memOk → step s = .next t → t.memOk

/-- A step runs what is next (log 1): a LIT (R59, R61); the decoded word at the oldest READY bundle's pc (R53, R60, R170, R172, R178), with the lanes
that pass the gate; a word that is no instruction (R68); the word at hand of a filter run (R408); what comes from outside; else nothing but
time (R83). A part whose bring-up has failed has halted (R433), one that has met a part-class error does no further work (R434), and bring-up
is the first step after part reset (R432). -/
def Obligations.StepRuns : Prop :=
  (∀ (s : State) (p : BitVec 25), Answers (.lit p) s fun u => u = { s with teams := u.teams, lits := u.lits } ∧
    u.lits.payloads = s.lits.payloads ++ [p] ∧ (s.lits.payloads ≠ [] → u.lits.pc0 = s.lits.pc0) ∧
    (∀ x, s.lits.payloads = [] → s.lanes.head? = some x → u.lits.pc0 = x.2.pc) ∧
    (∀ j t, j ∈ s.issue.tids → s.thread? s.issue.team j = some t → u.thread? s.issue.team j = some { t with pc := t.pc + 4 }) ∧
    ∀ k j, (k ≠ s.issue.team ∨ j ∉ s.issue.tids) → u.thread? k j = s.thread? k j) ∧
  (∀ (s : State) (k b : Nat) (T : Team) (pc : DWord) (w : Word), Quiet s → s.lits.payloads = [] → TakesSlot s k b T pc → Fetches s T pc w →
    (∀ i g pass x, decodeWord w = .ok i → (s.issuing k b).gate (Instr.uses i) = (g, pass, []) → pass ≠ [] →
      exec i (g.issuedBy k pass) = .next x → x.noRuns → ∃ u, step s = .next u ∧ StepsTo s x u) ∧
    (∀ c x, decodeWord w = .error c → exec (.illegalOpcode w c) ((s.issuing k b).issuedBy k (T.membersOf b)) = .next x → x.noRuns →
      ∃ u, step s = .next u ∧ StepsTo s x u)) ∧
  (∀ (s x : State) (d : Nat) (a : YAt) (i : Instr), Quiet s → s.lits.payloads = [] → s.nextBundle? = none →
    (∀ c, (s.core c).sampler.count = 0) →
    (∀ e, e ≠ d → (s.die e).yarrow.run = none ∧ (s.die e).yarrow.fifo = [] ∧ (x.die e).yarrow.run = none) →
    { s with filterDie := d }.yAt? = some a → decodeFilter (a.p.words.getD a.r.pc 0) = some i → exec i { s with filterDie := d } = .next x →
      ∃ u, step s = .next u ∧ StepsTo s { x with filterDie := 0 } u ∧
        ((x.die d).yarrow.run ≠ none → (u.die d).yarrow.run = (x.die d).yarrow.run)) ∧
  (∀ (s x : State) (e : Event) (r : List Event), s.regs.bootReady = true → s.regs.bootFatal = false → s.lits.payloads = [] →
    s.dueOnTime = [] → s.agenda = e :: r → isPartReset e = false → s.viaQueues = false →
      runEvent e ({ s with agenda := r }.walked e) = .next x → x.noRuns → ∃ u, step s = .next u ∧ StepsTo s x u) ∧
  (∀ s : State, Quiet s → s.lits.payloads = [] → s.nextBundle? = none → s.noRuns → ∃ u, step s = .next u ∧ StepsTo s s u) ∧
  (∀ s : State, s.agenda = [] → (s.regs.bootReady = false → s.regs.bootFail ≠ 0 → step s = .fault .bootHalted) ∧
    (s.regs.bootReady = true → s.regs.bootFatal = true → step s = .next { s with clock := s.clock + 1 }) ∧
    (s.regs.bootFatal = false → s.regs.bootReady = false → s.regs.bootFail = 0 → s.lits.payloads = [] →
      step s = exec (.partReset (if 16 < (s.failedCores []).length then 5 else 0) []) s)) ∧
  (∀ (s : State) (e : Event) (r : List Event), s.regs.bootReady = false → s.regs.bootFail ≠ 0 → s.agenda = e :: r → isPartReset e = false →
    runEvent e { s with agenda := r } = .next ({ s with agenda := r }.emit .unsupported) →
      step s = .next ({ s with agenda := r }.emit .unsupported))
end

