-- ==== Sys2Proof/Laws/Encoding.lean ====
section
/-! SUPPORT. Fields of the words that the formats of R55 and R409 make, the narrow names in them, and the decoder of each major. -/

namespace Sys2Proof

theorem extract_high {n m : Nat} (x : BitVec n) (y : BitVec m) (lo len : Nat) (h : m ≤ lo) :
    (x ++ y).extractLsb' lo len = x.extractLsb' (lo - m) len := BitVec.extractLsb'_append_eq_of_le h
theorem extract_low {n m : Nat} (x : BitVec n) (y : BitVec m) (lo len : Nat) (h : lo + len ≤ m) :
    (x ++ y).extractLsb' lo len = y.extractLsb' lo len := BitVec.extractLsb'_append_eq_of_add_le h
theorem extract_all {n : Nat} (x : BitVec n) : x.extractLsb' 0 n = x := BitVec.extractLsb'_eq_self

/-! ## Fields of the formats -/

@[simp] theorem fOp_fmtA (op : BitVec 7) (d : BitVec 7) (a : BitVec 7) (b : BitVec 7) (fn : BitVec 4) : fOp (fmtA op d a b fn) = op := by
  show BitVec.extractLsb' (n := 7+7+7+7+4) 25 7 (op ++ d ++ a ++ b ++ fn) = op
  simp (disch := decide) only [extract_high, extract_all, Nat.reduceSub]
@[simp] theorem fD_fmtA (op : BitVec 7) (d : BitVec 7) (a : BitVec 7) (b : BitVec 7) (fn : BitVec 4) : fD (fmtA op d a b fn) = d := by
  show BitVec.extractLsb' (n := 7+7+7+7+4) 18 7 (op ++ d ++ a ++ b ++ fn) = d
  simp (disch := decide) only [extract_high, extract_low, extract_all, Nat.reduceSub]
@[simp] theorem fA_fmtA (op : BitVec 7) (d : BitVec 7) (a : BitVec 7) (b : BitVec 7) (fn : BitVec 4) : fA (fmtA op d a b fn) = a := by
  show BitVec.extractLsb' (n := 7+7+7+7+4) 11 7 (op ++ d ++ a ++ b ++ fn) = a
  simp (disch := decide) only [extract_high, extract_low, extract_all, Nat.reduceSub]
@[simp] theorem fB_fmtA (op : BitVec 7) (d : BitVec 7) (a : BitVec 7) (b : BitVec 7) (fn : BitVec 4) : fB (fmtA op d a b fn) = b := by
  show BitVec.extractLsb' (n := 7+7+7+7+4) 4 7 (op ++ d ++ a ++ b ++ fn) = b
  simp (disch := decide) only [extract_high, extract_low, extract_all, Nat.reduceSub]
@[simp] theorem fFn_fmtA (op : BitVec 7) (d : BitVec 7) (a : BitVec 7) (b : BitVec 7) (fn : BitVec 4) : fFn (fmtA op d a b fn) = fn := by
  show BitVec.extractLsb' (n := 7+7+7+7+4) 0 4 (op ++ d ++ a ++ b ++ fn) = fn
  simp (disch := decide) only [extract_low, extract_all]
@[simp] theorem fOp_fmtB (op : BitVec 7) (d : BitVec 7) (a : BitVec 7) (imm : BitVec 11) : fOp (fmtB op d a imm) = op := by
  show BitVec.extractLsb' (n := 7+7+7+11) 25 7 (op ++ d ++ a ++ imm) = op
  simp (disch := decide) only [extract_high, extract_all, Nat.reduceSub]
@[simp] theorem fD_fmtB (op : BitVec 7) (d : BitVec 7) (a : BitVec 7) (imm : BitVec 11) : fD (fmtB op d a imm) = d := by
  show BitVec.extractLsb' (n := 7+7+7+11) 18 7 (op ++ d ++ a ++ imm) = d
  simp (disch := decide) only [extract_high, extract_low, extract_all, Nat.reduceSub]
@[simp] theorem fA_fmtB (op : BitVec 7) (d : BitVec 7) (a : BitVec 7) (imm : BitVec 11) : fA (fmtB op d a imm) = a := by
  show BitVec.extractLsb' (n := 7+7+7+11) 11 7 (op ++ d ++ a ++ imm) = a
  simp (disch := decide) only [extract_high, extract_low, extract_all, Nat.reduceSub]
@[simp] theorem fImm11_fmtB (op : BitVec 7) (d : BitVec 7) (a : BitVec 7) (imm : BitVec 11) : fImm11 (fmtB op d a imm) = imm := by
  show BitVec.extractLsb' (n := 7+7+7+11) 0 11 (op ++ d ++ a ++ imm) = imm
  simp (disch := decide) only [extract_low, extract_all]
@[simp] theorem fOp_fmtC (op : BitVec 7) (d : BitVec 7) (imm : BitVec 18) : fOp (fmtC op d imm) = op := by
  show BitVec.extractLsb' (n := 7+7+18) 25 7 (op ++ d ++ imm) = op
  simp (disch := decide) only [extract_high, extract_all, Nat.reduceSub]
@[simp] theorem fD_fmtC (op : BitVec 7) (d : BitVec 7) (imm : BitVec 18) : fD (fmtC op d imm) = d := by
  show BitVec.extractLsb' (n := 7+7+18) 18 7 (op ++ d ++ imm) = d
  simp (disch := decide) only [extract_high, extract_low, extract_all, Nat.reduceSub]
@[simp] theorem fImm18_fmtC (op : BitVec 7) (d : BitVec 7) (imm : BitVec 18) : fImm18 (fmtC op d imm) = imm := by
  show BitVec.extractLsb' (n := 7+7+18) 0 18 (op ++ d ++ imm) = imm
  simp (disch := decide) only [extract_low, extract_all]
@[simp] theorem fOp_fmtJ (op : BitVec 7) (c : BitVec 4) (off : BitVec 21) : fOp (fmtJ op c off) = op := by
  show BitVec.extractLsb' (n := 7+4+21) 25 7 (op ++ c ++ off) = op
  simp (disch := decide) only [extract_high, extract_all, Nat.reduceSub]
@[simp] theorem fC_fmtJ (op : BitVec 7) (c : BitVec 4) (off : BitVec 21) : fC (fmtJ op c off) = c := by
  show BitVec.extractLsb' (n := 7+4+21) 21 4 (op ++ c ++ off) = c
  simp (disch := decide) only [extract_high, extract_low, extract_all, Nat.reduceSub]
@[simp] theorem fOff21_fmtJ (op : BitVec 7) (c : BitVec 4) (off : BitVec 21) : fOff21 (fmtJ op c off) = off := by
  show BitVec.extractLsb' (n := 7+4+21) 0 21 (op ++ c ++ off) = off
  simp (disch := decide) only [extract_low, extract_all]
@[simp] theorem fOp_fmtM (op : BitVec 7) (d : BitVec 7) (a : BitVec 7) (sem : BitVec 2) (sc : BitVec 3) (w : BitVec 3) (hint : BitVec 3) : fOp (fmtM op d a sem sc w hint) = op := by
  show BitVec.extractLsb' (n := 7+7+7+2+3+3+3) 25 7 (op ++ d ++ a ++ sem ++ sc ++ w ++ hint) = op
  simp (disch := decide) only [extract_high, extract_all, Nat.reduceSub]
@[simp] theorem fD_fmtM (op : BitVec 7) (d : BitVec 7) (a : BitVec 7) (sem : BitVec 2) (sc : BitVec 3) (w : BitVec 3) (hint : BitVec 3) : fD (fmtM op d a sem sc w hint) = d := by
  show BitVec.extractLsb' (n := 7+7+7+2+3+3+3) 18 7 (op ++ d ++ a ++ sem ++ sc ++ w ++ hint) = d
  simp (disch := decide) only [extract_high, extract_low, extract_all, Nat.reduceSub]
@[simp] theorem fA_fmtM (op : BitVec 7) (d : BitVec 7) (a : BitVec 7) (sem : BitVec 2) (sc : BitVec 3) (w : BitVec 3) (hint : BitVec 3) : fA (fmtM op d a sem sc w hint) = a := by
  show BitVec.extractLsb' (n := 7+7+7+2+3+3+3) 11 7 (op ++ d ++ a ++ sem ++ sc ++ w ++ hint) = a
  simp (disch := decide) only [extract_high, extract_low, extract_all, Nat.reduceSub]
@[simp] theorem fSem_fmtM (op : BitVec 7) (d : BitVec 7) (a : BitVec 7) (sem : BitVec 2) (sc : BitVec 3) (w : BitVec 3) (hint : BitVec 3) : fSem (fmtM op d a sem sc w hint) = sem := by
  show BitVec.extractLsb' (n := 7+7+7+2+3+3+3) 9 2 (op ++ d ++ a ++ sem ++ sc ++ w ++ hint) = sem
  simp (disch := decide) only [extract_high, extract_low, extract_all, Nat.reduceSub]
@[simp] theorem fSc_fmtM (op : BitVec 7) (d : BitVec 7) (a : BitVec 7) (sem : BitVec 2) (sc : BitVec 3) (w : BitVec 3) (hint : BitVec 3) : fSc (fmtM op d a sem sc w hint) = sc := by
  show BitVec.extractLsb' (n := 7+7+7+2+3+3+3) 6 3 (op ++ d ++ a ++ sem ++ sc ++ w ++ hint) = sc
  simp (disch := decide) only [extract_high, extract_low, extract_all, Nat.reduceSub]
@[simp] theorem fW_fmtM (op : BitVec 7) (d : BitVec 7) (a : BitVec 7) (sem : BitVec 2) (sc : BitVec 3) (w : BitVec 3) (hint : BitVec 3) : fW (fmtM op d a sem sc w hint) = w := by
  show BitVec.extractLsb' (n := 7+7+7+2+3+3+3) 3 3 (op ++ d ++ a ++ sem ++ sc ++ w ++ hint) = w
  simp (disch := decide) only [extract_high, extract_low, extract_all, Nat.reduceSub]
@[simp] theorem fHint_fmtM (op : BitVec 7) (d : BitVec 7) (a : BitVec 7) (sem : BitVec 2) (sc : BitVec 3) (w : BitVec 3) (hint : BitVec 3) : fHint (fmtM op d a sem sc w hint) = hint := by
  show BitVec.extractLsb' (n := 7+7+7+2+3+3+3) 0 3 (op ++ d ++ a ++ sem ++ sc ++ w ++ hint) = hint
  simp (disch := decide) only [extract_low, extract_all]
@[simp] theorem fOp_fmtT (op : BitVec 7) (acc : BitVec 6) (abuf : BitVec 3) (bslot : BitVec 9) (fmt : BitVec 4) (fl : BitVec 3) : fOp (fmtT op acc abuf bslot fmt fl) = op := by
  show BitVec.extractLsb' (n := 7+6+3+9+4+3) 25 7 (op ++ acc ++ abuf ++ bslot ++ fmt ++ fl) = op
  simp (disch := decide) only [extract_high, extract_all, Nat.reduceSub]
@[simp] theorem fAcc_fmtT (op : BitVec 7) (acc : BitVec 6) (abuf : BitVec 3) (bslot : BitVec 9) (fmt : BitVec 4) (fl : BitVec 3) : fAcc (fmtT op acc abuf bslot fmt fl) = acc := by
  show BitVec.extractLsb' (n := 7+6+3+9+4+3) 19 6 (op ++ acc ++ abuf ++ bslot ++ fmt ++ fl) = acc
  simp (disch := decide) only [extract_high, extract_low, extract_all, Nat.reduceSub]
@[simp] theorem fAbuf_fmtT (op : BitVec 7) (acc : BitVec 6) (abuf : BitVec 3) (bslot : BitVec 9) (fmt : BitVec 4) (fl : BitVec 3) : fAbuf (fmtT op acc abuf bslot fmt fl) = abuf := by
  show BitVec.extractLsb' (n := 7+6+3+9+4+3) 16 3 (op ++ acc ++ abuf ++ bslot ++ fmt ++ fl) = abuf
  simp (disch := decide) only [extract_high, extract_low, extract_all, Nat.reduceSub]
@[simp] theorem fBslot_fmtT (op : BitVec 7) (acc : BitVec 6) (abuf : BitVec 3) (bslot : BitVec 9) (fmt : BitVec 4) (fl : BitVec 3) : fBslot (fmtT op acc abuf bslot fmt fl) = bslot := by
  show BitVec.extractLsb' (n := 7+6+3+9+4+3) 7 9 (op ++ acc ++ abuf ++ bslot ++ fmt ++ fl) = bslot
  simp (disch := decide) only [extract_high, extract_low, extract_all, Nat.reduceSub]
@[simp] theorem fFmt_fmtT (op : BitVec 7) (acc : BitVec 6) (abuf : BitVec 3) (bslot : BitVec 9) (fmt : BitVec 4) (fl : BitVec 3) : fFmt (fmtT op acc abuf bslot fmt fl) = fmt := by
  show BitVec.extractLsb' (n := 7+6+3+9+4+3) 3 4 (op ++ acc ++ abuf ++ bslot ++ fmt ++ fl) = fmt
  simp (disch := decide) only [extract_high, extract_low, extract_all, Nat.reduceSub]
@[simp] theorem fFl_fmtT (op : BitVec 7) (acc : BitVec 6) (abuf : BitVec 3) (bslot : BitVec 9) (fmt : BitVec 4) (fl : BitVec 3) : fFl (fmtT op acc abuf bslot fmt fl) = fl := by
  show BitVec.extractLsb' (n := 7+6+3+9+4+3) 0 3 (op ++ acc ++ abuf ++ bslot ++ fmt ++ fl) = fl
  simp (disch := decide) only [extract_low, extract_all]
@[simp] theorem fOp_fmtW (op : BitVec 7) (ld : BitVec 5) (st : BitVec 5) (cp : BitVec 5) (tl : BitVec 5) : fOp (fmtW op ld st cp tl) = op := by
  show BitVec.extractLsb' (n := 7+5+5+5+5+5) 25 7 (op ++ ld ++ st ++ cp ++ tl ++ 0#5) = op
  simp (disch := decide) only [extract_high, extract_all, Nat.reduceSub]
@[simp] theorem fLd_fmtW (op : BitVec 7) (ld : BitVec 5) (st : BitVec 5) (cp : BitVec 5) (tl : BitVec 5) : fLd (fmtW op ld st cp tl) = ld := by
  show BitVec.extractLsb' (n := 7+5+5+5+5+5) 20 5 (op ++ ld ++ st ++ cp ++ tl ++ 0#5) = ld
  simp (disch := decide) only [extract_high, extract_low, extract_all, Nat.reduceSub]
@[simp] theorem fSt_fmtW (op : BitVec 7) (ld : BitVec 5) (st : BitVec 5) (cp : BitVec 5) (tl : BitVec 5) : fSt (fmtW op ld st cp tl) = st := by
  show BitVec.extractLsb' (n := 7+5+5+5+5+5) 15 5 (op ++ ld ++ st ++ cp ++ tl ++ 0#5) = st
  simp (disch := decide) only [extract_high, extract_low, extract_all, Nat.reduceSub]
@[simp] theorem fCp_fmtW (op : BitVec 7) (ld : BitVec 5) (st : BitVec 5) (cp : BitVec 5) (tl : BitVec 5) : fCp (fmtW op ld st cp tl) = cp := by
  show BitVec.extractLsb' (n := 7+5+5+5+5+5) 10 5 (op ++ ld ++ st ++ cp ++ tl ++ 0#5) = cp
  simp (disch := decide) only [extract_high, extract_low, extract_all, Nat.reduceSub]
@[simp] theorem fTl_fmtW (op : BitVec 7) (ld : BitVec 5) (st : BitVec 5) (cp : BitVec 5) (tl : BitVec 5) : fTl (fmtW op ld st cp tl) = tl := by
  show BitVec.extractLsb' (n := 7+5+5+5+5+5) 5 5 (op ++ ld ++ st ++ cp ++ tl ++ 0#5) = tl
  simp (disch := decide) only [extract_high, extract_low, extract_all, Nat.reduceSub]
@[simp] theorem fZero5_fmtW (op : BitVec 7) (ld : BitVec 5) (st : BitVec 5) (cp : BitVec 5) (tl : BitVec 5) : fZero5 (fmtW op ld st cp tl) = 0#5 := by
  show BitVec.extractLsb' (n := 7+5+5+5+5+5) 0 5 (op ++ ld ++ st ++ cp ++ tl ++ 0#5) = 0#5
  simp (disch := decide) only [extract_low, extract_all]
@[simp] theorem yOp_fmtY (op : BitVec 5) (d : BitVec 4) (a : BitVec 4) (b : BitVec 4) (imm : BitVec 15) : yOp (fmtY op d a b imm) = op := by
  show BitVec.extractLsb' (n := 5+4+4+4+15) 27 5 (op ++ d ++ a ++ b ++ imm) = op
  simp (disch := decide) only [extract_high, extract_all, Nat.reduceSub]
@[simp] theorem yD_fmtY (op : BitVec 5) (d : BitVec 4) (a : BitVec 4) (b : BitVec 4) (imm : BitVec 15) : yD (fmtY op d a b imm) = d := by
  show BitVec.extractLsb' (n := 5+4+4+4+15) 23 4 (op ++ d ++ a ++ b ++ imm) = d
  simp (disch := decide) only [extract_high, extract_low, extract_all, Nat.reduceSub]
@[simp] theorem yA_fmtY (op : BitVec 5) (d : BitVec 4) (a : BitVec 4) (b : BitVec 4) (imm : BitVec 15) : yA (fmtY op d a b imm) = a := by
  show BitVec.extractLsb' (n := 5+4+4+4+15) 19 4 (op ++ d ++ a ++ b ++ imm) = a
  simp (disch := decide) only [extract_high, extract_low, extract_all, Nat.reduceSub]
@[simp] theorem yB_fmtY (op : BitVec 5) (d : BitVec 4) (a : BitVec 4) (b : BitVec 4) (imm : BitVec 15) : yB (fmtY op d a b imm) = b := by
  show BitVec.extractLsb' (n := 5+4+4+4+15) 15 4 (op ++ d ++ a ++ b ++ imm) = b
  simp (disch := decide) only [extract_high, extract_low, extract_all, Nat.reduceSub]
@[simp] theorem yImm_fmtY (op : BitVec 5) (d : BitVec 4) (a : BitVec 4) (b : BitVec 4) (imm : BitVec 15) : yImm (fmtY op d a b imm) = imm := by
  show BitVec.extractLsb' (n := 5+4+4+4+15) 0 15 (op ++ d ++ a ++ b ++ imm) = imm
  simp (disch := decide) only [extract_low, extract_all]

theorem fOp_lit (p : BitVec 25) : fOp (0x7F#7 ++ p) = 0x7F#7 := by
  show BitVec.extractLsb' (n := 7+25) 25 7 (0x7F#7 ++ p) = 0x7F#7
  simp (disch := decide) only [extract_high, extract_all, Nat.reduceSub]
theorem fPayload_lit (p : BitVec 25) : fPayload (0x7F#7 ++ p) = p := by
  show BitVec.extractLsb' (n := 7+25) 0 25 (0x7F#7 ++ p) = p
  simp (disch := decide) only [extract_low, extract_all]

/-! ## Narrow names, bits and codes -/

@[simp] theorem narrow1_wide1 (x : BitVec 1) : narrow1 (wide1 x) = some x := by
  have h : (wide1 x).extractLsb' 1 6 = 0#6 := by
    show BitVec.extractLsb' (n := 6+1) 1 6 (0#6 ++ x) = 0#6
    simp (disch := decide) only [extract_high, extract_all, Nat.sub_self]
  have l : (wide1 x).extractLsb' 0 1 = x := by
    show BitVec.extractLsb' (n := 6+1) 0 1 (0#6 ++ x) = x
    simp (disch := decide) only [extract_low, extract_all]
  simp only [narrow1, h, l, if_true]
@[simp] theorem narrow2_wide2 (x : BitVec 2) : narrow2 (wide2 x) = some x := by
  have h : (wide2 x).extractLsb' 2 5 = 0#5 := by
    show BitVec.extractLsb' (n := 5+2) 2 5 (0#5 ++ x) = 0#5
    simp (disch := decide) only [extract_high, extract_all, Nat.sub_self]
  have l : (wide2 x).extractLsb' 0 2 = x := by
    show BitVec.extractLsb' (n := 5+2) 0 2 (0#5 ++ x) = x
    simp (disch := decide) only [extract_low, extract_all]
  simp only [narrow2, h, l, if_true]
@[simp] theorem narrow3_wide3 (x : BitVec 3) : narrow3 (wide3 x) = some x := by
  have h : (wide3 x).extractLsb' 3 4 = 0#4 := by
    show BitVec.extractLsb' (n := 4+3) 3 4 (0#4 ++ x) = 0#4
    simp (disch := decide) only [extract_high, extract_all, Nat.sub_self]
  have l : (wide3 x).extractLsb' 0 3 = x := by
    show BitVec.extractLsb' (n := 4+3) 0 3 (0#4 ++ x) = x
    simp (disch := decide) only [extract_low, extract_all]
  simp only [narrow3, h, l, if_true]
@[simp] theorem narrow4_wide4 (x : BitVec 4) : narrow4 (wide4 x) = some x := by
  have h : (wide4 x).extractLsb' 4 3 = 0#3 := by
    show BitVec.extractLsb' (n := 3+4) 4 3 (0#3 ++ x) = 0#3
    simp (disch := decide) only [extract_high, extract_all, Nat.sub_self]
  have l : (wide4 x).extractLsb' 0 4 = x := by
    show BitVec.extractLsb' (n := 3+4) 0 4 (0#3 ++ x) = x
    simp (disch := decide) only [extract_low, extract_all]
  simp only [narrow4, h, l, if_true]
@[simp] theorem narrow5_wide5 (x : BitVec 5) : narrow5 (wide5 x) = some x := by
  have h : (wide5 x).extractLsb' 5 2 = 0#2 := by
    show BitVec.extractLsb' (n := 2+5) 5 2 (0#2 ++ x) = 0#2
    simp (disch := decide) only [extract_high, extract_all, Nat.sub_self]
  have l : (wide5 x).extractLsb' 0 5 = x := by
    show BitVec.extractLsb' (n := 2+5) 0 5 (0#2 ++ x) = x
    simp (disch := decide) only [extract_low, extract_all]
  simp only [narrow5, h, l, if_true]
@[simp] theorem narrow6_wide6 (x : BitVec 6) : narrow6 (wide6 x) = some x := by
  have h : (wide6 x).extractLsb' 6 1 = 0#1 := by
    show BitVec.extractLsb' (n := 1+6) 6 1 (0#1 ++ x) = 0#1
    simp (disch := decide) only [extract_high, extract_all, Nat.sub_self]
  have l : (wide6 x).extractLsb' 0 6 = x := by
    show BitVec.extractLsb' (n := 1+6) 0 6 (0#1 ++ x) = x
    simp (disch := decide) only [extract_low, extract_all]
  simp only [narrow6, h, l, if_true]
@[simp] theorem flag_bit (b : Bool) : flag (bit b) = b := by cases b <;> rfl
@[simp] theorem RMode.ofCode_code (x : RMode) : RMode.ofCode x.code = some x := by cases x <;> rfl
@[simp] theorem Cond.ofCode_code (x : Cond) : Cond.ofCode x.code = some x := by cases x <;> rfl
@[simp] theorem FCond.ofCode_code (x : FCond) : FCond.ofCode x.code = some x := by cases x <;> rfl
@[simp] theorem Sem.ofCode_code (x : Sem) : Sem.ofCode x.code = some x := by cases x <;> rfl
@[simp] theorem Scope.ofCode_code (x : Scope) : Scope.ofCode x.code = some x := by cases x <;> rfl
@[simp] theorem Width.ofCode_code (x : Width) : Width.ofCode x.code = some x := by cases x <;> rfl
@[simp] theorem AOp.ofCode_code (x : AOp) : AOp.ofCode x.code = some x := by cases x <;> rfl
@[simp] theorem TFmt.ofCode_code (x : TFmt) : TFmt.ofCode x.code = some x := by cases x <;> rfl
@[simp] theorem TIFmt.ofCode_code (x : TIFmt) : TIFmt.ofCode x.code = some x := by cases x <;> rfl
@[simp] theorem F8.ofCode_code (x : F8) : F8.ofCode x.code = some x := by cases x <;> rfl
@[simp] theorem F6.ofCode_code (x : F6) : F6.ofCode x.code = some x := by cases x <;> rfl
@[simp] theorem ScaleT.ofCode_code (x : ScaleT) : ScaleT.ofCode x.code = some x := by cases x <;> rfl
@[simp] theorem RedOp.ofCode_code (x : RedOp) : RedOp.ofCode x.code = some x := by cases x <;> rfl
@[simp] theorem YCond.ofCode_code (x : YCond) : YCond.ofCode x.code = some x := by cases x <;> rfl
@[simp] theorem ShKind.ofCode_code (x : ShKind) : ShKind.ofCode x.code = some x := by cases x <;> rfl

@[simp] theorem part0_of_4_3 (x : BitVec 4) (y : BitVec 3) : BitVec.extractLsb' 3 4 (x ++ y : BitVec 7) = x := by
  show BitVec.extractLsb' (n := 4+3) 3 4 (x ++ y) = x
  simp (disch := decide) only [extract_high, extract_all, Nat.reduceSub]
@[simp] theorem part1_of_4_3 (x : BitVec 4) (y : BitVec 3) : BitVec.extractLsb' 0 3 (x ++ y : BitVec 7) = y := by
  show BitVec.extractLsb' (n := 4+3) 0 3 (x ++ y) = y
  simp (disch := decide) only [extract_low, extract_all]
@[simp] theorem part0_of_1_3 (x : BitVec 1) (y : BitVec 3) : BitVec.extractLsb' 3 1 (x ++ y : BitVec 4) = x := by
  show BitVec.extractLsb' (n := 1+3) 3 1 (x ++ y) = x
  simp (disch := decide) only [extract_high, extract_all, Nat.reduceSub]
@[simp] theorem part1_of_1_3 (x : BitVec 1) (y : BitVec 3) : BitVec.extractLsb' 0 3 (x ++ y : BitVec 4) = y := by
  show BitVec.extractLsb' (n := 1+3) 0 3 (x ++ y) = y
  simp (disch := decide) only [extract_low, extract_all]
@[simp] theorem part0_of_1_1_2 (x : BitVec 1) (y : BitVec 1) (z : BitVec 2) : BitVec.extractLsb' 3 1 (x ++ y ++ z : BitVec 4) = x := by
  show BitVec.extractLsb' (n := 1+1+2) 3 1 (x ++ y ++ z) = x
  simp (disch := decide) only [extract_high, extract_all, Nat.reduceSub]
@[simp] theorem part1_of_1_1_2 (x : BitVec 1) (y : BitVec 1) (z : BitVec 2) : BitVec.extractLsb' 2 1 (x ++ y ++ z : BitVec 4) = y := by
  show BitVec.extractLsb' (n := 1+1+2) 2 1 (x ++ y ++ z) = y
  simp (disch := decide) only [extract_high, extract_low, extract_all, Nat.reduceSub]
@[simp] theorem part2_of_1_1_2 (x : BitVec 1) (y : BitVec 1) (z : BitVec 2) : BitVec.extractLsb' 0 2 (x ++ y ++ z : BitVec 4) = z := by
  show BitVec.extractLsb' (n := 1+1+2) 0 2 (x ++ y ++ z) = z
  simp (disch := decide) only [extract_low, extract_all]
@[simp] theorem part0_of_2_1 (x : BitVec 2) (y : BitVec 1) : BitVec.extractLsb' 1 2 (x ++ y : BitVec 3) = x := by
  show BitVec.extractLsb' (n := 2+1) 1 2 (x ++ y) = x
  simp (disch := decide) only [extract_high, extract_all, Nat.reduceSub]
@[simp] theorem part1_of_2_1 (x : BitVec 2) (y : BitVec 1) : BitVec.extractLsb' 0 1 (x ++ y : BitVec 3) = y := by
  show BitVec.extractLsb' (n := 2+1) 0 1 (x ++ y) = y
  simp (disch := decide) only [extract_low, extract_all]
@[simp] theorem part0_of_1_1_1 (x : BitVec 1) (y : BitVec 1) (z : BitVec 1) : BitVec.extractLsb' 2 1 (x ++ y ++ z : BitVec 3) = x := by
  show BitVec.extractLsb' (n := 1+1+1) 2 1 (x ++ y ++ z) = x
  simp (disch := decide) only [extract_high, extract_all, Nat.reduceSub]
@[simp] theorem part1_of_1_1_1 (x : BitVec 1) (y : BitVec 1) (z : BitVec 1) : BitVec.extractLsb' 1 1 (x ++ y ++ z : BitVec 3) = y := by
  show BitVec.extractLsb' (n := 1+1+1) 1 1 (x ++ y ++ z) = y
  simp (disch := decide) only [extract_high, extract_low, extract_all, Nat.reduceSub]
@[simp] theorem part2_of_1_1_1 (x : BitVec 1) (y : BitVec 1) (z : BitVec 1) : BitVec.extractLsb' 0 1 (x ++ y ++ z : BitVec 3) = z := by
  show BitVec.extractLsb' (n := 1+1+1) 0 1 (x ++ y ++ z) = z
  simp (disch := decide) only [extract_low, extract_all]
@[simp] theorem part0_of_2_7 (x : BitVec 2) (y : BitVec 7) : BitVec.extractLsb' 7 2 (x ++ y : BitVec 9) = x := by
  show BitVec.extractLsb' (n := 2+7) 7 2 (x ++ y) = x
  simp (disch := decide) only [extract_high, extract_all, Nat.reduceSub]
@[simp] theorem part1_of_2_7 (x : BitVec 2) (y : BitVec 7) : BitVec.extractLsb' 0 7 (x ++ y : BitVec 9) = y := by
  show BitVec.extractLsb' (n := 2+7) 0 7 (x ++ y) = y
  simp (disch := decide) only [extract_low, extract_all]
@[simp] theorem part0_of_2_4_5 (x : BitVec 2) (y : BitVec 4) (z : BitVec 5) : BitVec.extractLsb' 9 2 (x ++ y ++ z : BitVec 11) = x := by
  show BitVec.extractLsb' (n := 2+4+5) 9 2 (x ++ y ++ z) = x
  simp (disch := decide) only [extract_high, extract_all, Nat.reduceSub]
@[simp] theorem part1_of_2_4_5 (x : BitVec 2) (y : BitVec 4) (z : BitVec 5) : BitVec.extractLsb' 5 4 (x ++ y ++ z : BitVec 11) = y := by
  show BitVec.extractLsb' (n := 2+4+5) 5 4 (x ++ y ++ z) = y
  simp (disch := decide) only [extract_high, extract_low, extract_all, Nat.reduceSub]
@[simp] theorem part2_of_2_4_5 (x : BitVec 2) (y : BitVec 4) (z : BitVec 5) : BitVec.extractLsb' 0 5 (x ++ y ++ z : BitVec 11) = z := by
  show BitVec.extractLsb' (n := 2+4+5) 0 5 (x ++ y ++ z) = z
  simp (disch := decide) only [extract_low, extract_all]
@[simp] theorem part0_of_2_8_5 (x : BitVec 2) (y : BitVec 8) (z : BitVec 5) : BitVec.extractLsb' 13 2 (x ++ y ++ z : BitVec 15) = x := by
  show BitVec.extractLsb' (n := 2+8+5) 13 2 (x ++ y ++ z) = x
  simp (disch := decide) only [extract_high, extract_all, Nat.reduceSub]
@[simp] theorem part1_of_2_8_5 (x : BitVec 2) (y : BitVec 8) (z : BitVec 5) : BitVec.extractLsb' 5 8 (x ++ y ++ z : BitVec 15) = y := by
  show BitVec.extractLsb' (n := 2+8+5) 5 8 (x ++ y ++ z) = y
  simp (disch := decide) only [extract_high, extract_low, extract_all, Nat.reduceSub]
@[simp] theorem part2_of_2_8_5 (x : BitVec 2) (y : BitVec 8) (z : BitVec 5) : BitVec.extractLsb' 0 5 (x ++ y ++ z : BitVec 15) = z := by
  show BitVec.extractLsb' (n := 2+8+5) 0 5 (x ++ y ++ z) = z
  simp (disch := decide) only [extract_low, extract_all]
@[simp] theorem part0_of_13_2 (x : BitVec 13) (y : BitVec 2) : BitVec.extractLsb' 2 13 (x ++ y : BitVec 15) = x := by
  show BitVec.extractLsb' (n := 13+2) 2 13 (x ++ y) = x
  simp (disch := decide) only [extract_high, extract_all, Nat.reduceSub]
@[simp] theorem part1_of_13_2 (x : BitVec 13) (y : BitVec 2) : BitVec.extractLsb' 0 2 (x ++ y : BitVec 15) = y := by
  show BitVec.extractLsb' (n := 13+2) 0 2 (x ++ y) = y
  simp (disch := decide) only [extract_low, extract_all]
@[simp] theorem part0_of_14_1 (x : BitVec 14) (y : BitVec 1) : BitVec.extractLsb' 1 14 (x ++ y : BitVec 15) = x := by
  show BitVec.extractLsb' (n := 14+1) 1 14 (x ++ y) = x
  simp (disch := decide) only [extract_high, extract_all, Nat.reduceSub]
@[simp] theorem part1_of_14_1 (x : BitVec 14) (y : BitVec 1) : BitVec.extractLsb' 0 1 (x ++ y : BitVec 15) = y := by
  show BitVec.extractLsb' (n := 14+1) 0 1 (x ++ y) = y
  simp (disch := decide) only [extract_low, extract_all]
theorem part0_of_fence (z : BitVec 10) (a : BitVec 1) (b : BitVec 1) (c : BitVec 1) (d : BitVec 1) (e : BitVec 1) (f : BitVec 3) : BitVec.extractLsb' 8 10 (z ++ a ++ b ++ c ++ d ++ e ++ f : BitVec 18) = z := by
  show BitVec.extractLsb' (n := 10+1+1+1+1+1+3) 8 10 (z ++ a ++ b ++ c ++ d ++ e ++ f) = z
  simp (disch := decide) only [extract_high, extract_all, Nat.reduceSub]
theorem part1_of_fence (z : BitVec 10) (a : BitVec 1) (b : BitVec 1) (c : BitVec 1) (d : BitVec 1) (e : BitVec 1) (f : BitVec 3) : BitVec.extractLsb' 7 1 (z ++ a ++ b ++ c ++ d ++ e ++ f : BitVec 18) = a := by
  show BitVec.extractLsb' (n := 10+1+1+1+1+1+3) 7 1 (z ++ a ++ b ++ c ++ d ++ e ++ f) = a
  simp (disch := decide) only [extract_high, extract_low, extract_all, Nat.reduceSub]
theorem part2_of_fence (z : BitVec 10) (a : BitVec 1) (b : BitVec 1) (c : BitVec 1) (d : BitVec 1) (e : BitVec 1) (f : BitVec 3) : BitVec.extractLsb' 6 1 (z ++ a ++ b ++ c ++ d ++ e ++ f : BitVec 18) = b := by
  show BitVec.extractLsb' (n := 10+1+1+1+1+1+3) 6 1 (z ++ a ++ b ++ c ++ d ++ e ++ f) = b
  simp (disch := decide) only [extract_high, extract_low, extract_all, Nat.reduceSub]
theorem part3_of_fence (z : BitVec 10) (a : BitVec 1) (b : BitVec 1) (c : BitVec 1) (d : BitVec 1) (e : BitVec 1) (f : BitVec 3) : BitVec.extractLsb' 5 1 (z ++ a ++ b ++ c ++ d ++ e ++ f : BitVec 18) = c := by
  show BitVec.extractLsb' (n := 10+1+1+1+1+1+3) 5 1 (z ++ a ++ b ++ c ++ d ++ e ++ f) = c
  simp (disch := decide) only [extract_high, extract_low, extract_all, Nat.reduceSub]
theorem part4_of_fence (z : BitVec 10) (a : BitVec 1) (b : BitVec 1) (c : BitVec 1) (d : BitVec 1) (e : BitVec 1) (f : BitVec 3) : BitVec.extractLsb' 4 1 (z ++ a ++ b ++ c ++ d ++ e ++ f : BitVec 18) = d := by
  show BitVec.extractLsb' (n := 10+1+1+1+1+1+3) 4 1 (z ++ a ++ b ++ c ++ d ++ e ++ f) = d
  simp (disch := decide) only [extract_high, extract_low, extract_all, Nat.reduceSub]
theorem part5_of_fence (z : BitVec 10) (a : BitVec 1) (b : BitVec 1) (c : BitVec 1) (d : BitVec 1) (e : BitVec 1) (f : BitVec 3) : BitVec.extractLsb' 3 1 (z ++ a ++ b ++ c ++ d ++ e ++ f : BitVec 18) = e := by
  show BitVec.extractLsb' (n := 10+1+1+1+1+1+3) 3 1 (z ++ a ++ b ++ c ++ d ++ e ++ f) = e
  simp (disch := decide) only [extract_high, extract_low, extract_all, Nat.reduceSub]
theorem part6_of_fence (z : BitVec 10) (a : BitVec 1) (b : BitVec 1) (c : BitVec 1) (d : BitVec 1) (e : BitVec 1) (f : BitVec 3) : BitVec.extractLsb' 0 3 (z ++ a ++ b ++ c ++ d ++ e ++ f : BitVec 18) = f := by
  show BitVec.extractLsb' (n := 10+1+1+1+1+1+3) 0 3 (z ++ a ++ b ++ c ++ d ++ e ++ f) = f
  simp (disch := decide) only [extract_low, extract_all]
@[simp] theorem shImm_kind (k : BitVec 2) (n : BitVec 5) : (shImm k n).extractLsb' 9 2 = k := by
  show BitVec.extractLsb' (n := 2+4+5) 9 2 (k ++ 0#4 ++ n) = k
  simp (disch := decide) only [extract_high, extract_all, Nat.reduceSub]
@[simp] theorem shImm_zero (k : BitVec 2) (n : BitVec 5) : (shImm k n).extractLsb' 5 4 = 0#4 := by
  show BitVec.extractLsb' (n := 2+4+5) 5 4 (k ++ 0#4 ++ n) = 0#4
  simp (disch := decide) only [extract_high, extract_low, extract_all, Nat.reduceSub]
@[simp] theorem shImm_amount (k : BitVec 2) (n : BitVec 5) : (shImm k n).extractLsb' 0 5 = n := by
  show BitVec.extractLsb' (n := 2+4+5) 0 5 (k ++ 0#4 ++ n) = n
  simp (disch := decide) only [extract_low, extract_all]

/-! ## The decoder of each major (R64) -/

theorem decodeWord_of {w : Word} {i : Instr} {op : BitVec 7} (h : fOp w = op)
    (hr : (reservedColumns (op.extractLsb' 4 3)).contains (op.extractLsb' 0 4) = false) (hd : decodeFields w = some i)
    (hi : i.wf = true) : decodeWord w = .ok i := by
  subst h
  unfold decodeWord reservedMajor
  rw [hr, hd]
  simp [hi]

theorem fields_01 {w : Word} (h : fOp w = 0x01#7) : decodeFields w = decBare .nop w := by simp only [decodeFields, h]; rfl
theorem fields_02 {w : Word} (h : fOp w = 0x02#7) : decodeFields w = decBra w := by simp only [decodeFields, h]; rfl
theorem fields_03 {w : Word} (h : fOp w = 0x03#7) : decodeFields w = decBrc w := by simp only [decodeFields, h]; rfl
theorem fields_04 {w : Word} (h : fOp w = 0x04#7) : decodeFields w = decCall w := by simp only [decodeFields, h]; rfl
theorem fields_05 {w : Word} (h : fOp w = 0x05#7) : decodeFields w = decCallr w := by simp only [decodeFields, h]; rfl
theorem fields_06 {w : Word} (h : fOp w = 0x06#7) : decodeFields w = decBare .ret w := by simp only [decodeFields, h]; rfl
theorem fields_07 {w : Word} (h : fOp w = 0x07#7) : decodeFields w = decJmpr w := by simp only [decodeFields, h]; rfl
theorem fields_08 {w : Word} (h : fOp w = 0x08#7) : decodeFields w = decBare .exit w := by simp only [decodeFields, h]; rfl
theorem fields_09 {w : Word} (h : fOp w = 0x09#7) : decodeFields w = decBare .reform w := by simp only [decodeFields, h]; rfl
theorem fields_0A {w : Word} (h : fOp w = 0x0A#7) : decodeFields w = decWinbase w := by simp only [decodeFields, h]; rfl
theorem fields_0B {w : Word} (h : fOp w = 0x0B#7) : decodeFields w = decTrap w := by simp only [decodeFields, h]; rfl
theorem fields_0C {w : Word} (h : fOp w = 0x0C#7) : decodeFields w = decBare .rft w := by simp only [decodeFields, h]; rfl
theorem fields_0D {w : Word} (h : fOp w = 0x0D#7) : decodeFields w = decSys w := by simp only [decodeFields, h]; rfl
theorem fields_0E {w : Word} (h : fOp w = 0x0E#7) : decodeFields w = decLaunch w := by simp only [decodeFields, h]; rfl
theorem fields_0F {w : Word} (h : fOp w = 0x0F#7) : decodeFields w = decGwait w := by simp only [decodeFields, h]; rfl
theorem fields_10 {w : Word} (h : fOp w = 0x10#7) : decodeFields w = decElect w := by simp only [decodeFields, h]; rfl
theorem fields_11 {w : Word} (h : fOp w = 0x11#7) : decodeFields w = decMatch w := by simp only [decodeFields, h]; rfl
theorem fields_12 {w : Word} (h : fOp w = 0x12#7) : decodeFields w = decShfl w := by simp only [decodeFields, h]; rfl
theorem fields_13 {w : Word} (h : fOp w = 0x13#7) : decodeFields w = decPlog w := by simp only [decodeFields, h]; rfl
theorem fields_14 {w : Word} (h : fOp w = 0x14#7) : decodeFields w = decIalu w := by simp only [decodeFields, h]; rfl
theorem fields_15 {w : Word} (h : fOp w = 0x15#7) : decodeFields w = decIalu2 w := by simp only [decodeFields, h]; rfl
theorem fields_16 {w : Word} (h : fOp w = 0x16#7) : decodeFields w = decSel w := by simp only [decodeFields, h]; rfl
theorem fields_17 {w : Word} (h : fOp w = 0x17#7) : decodeFields w = decIset w := by simp only [decodeFields, h]; rfl
theorem fields_18 {w : Word} (h : fOp w = 0x18#7) : decodeFields w = decIseti w := by simp only [decodeFields, h]; rfl
theorem fields_19 {w : Word} (h : fOp w = 0x19#7) : decodeFields w = decImm .addi w := by simp only [decodeFields, h]; rfl
theorem fields_1A {w : Word} (h : fOp w = 0x1A#7) : decodeFields w = decImm .andi w := by simp only [decodeFields, h]; rfl
theorem fields_1B {w : Word} (h : fOp w = 0x1B#7) : decodeFields w = decImm .ori w := by simp only [decodeFields, h]; rfl
theorem fields_1C {w : Word} (h : fOp w = 0x1C#7) : decodeFields w = decImm .xori w := by simp only [decodeFields, h]; rfl
theorem fields_1D {w : Word} (h : fOp w = 0x1D#7) : decodeFields w = decShi w := by simp only [decodeFields, h]; rfl
theorem fields_1E {w : Word} (h : fOp w = 0x1E#7) : decodeFields w = decImm .muli w := by simp only [decodeFields, h]; rfl
theorem fields_1F {w : Word} (h : fOp w = 0x1F#7) : decodeFields w = decMovi w := by simp only [decodeFields, h]; rfl
theorem fields_20 {w : Word} (h : fOp w = 0x20#7) : decodeFields w = decIalu64 w := by simp only [decodeFields, h]; rfl
theorem fields_21 {w : Word} (h : fOp w = 0x21#7) : decodeFields w = decImm .addiX w := by simp only [decodeFields, h]; rfl
theorem fields_28 {w : Word} (h : fOp w = 0x28#7) : decodeFields w = decFarith .fadd w := by simp only [decodeFields, h]; rfl
theorem fields_29 {w : Word} (h : fOp w = 0x29#7) : decodeFields w = decFarith .fsub w := by simp only [decodeFields, h]; rfl
theorem fields_2A {w : Word} (h : fOp w = 0x2A#7) : decodeFields w = decFarith .fmul w := by simp only [decodeFields, h]; rfl
theorem fields_2B {w : Word} (h : fOp w = 0x2B#7) : decodeFields w = decFarith .ffma w := by simp only [decodeFields, h]; rfl
theorem fields_2C {w : Word} (h : fOp w = 0x2C#7) : decodeFields w = decFmin w := by simp only [decodeFields, h]; rfl
theorem fields_2D {w : Word} (h : fOp w = 0x2D#7) : decodeFields w = decFmax w := by simp only [decodeFields, h]; rfl
theorem fields_2E {w : Word} (h : fOp w = 0x2E#7) : decodeFields w = decFset w := by simp only [decodeFields, h]; rfl
theorem fields_2F {w : Word} (h : fOp w = 0x2F#7) : decodeFields w = decFsfu w := by simp only [decodeFields, h]; rfl
theorem fields_30 {w : Word} (h : fOp w = 0x30#7) : decodeFields w = decFcvt w := by simp only [decodeFields, h]; rfl
theorem fields_31 {w : Word} (h : fOp w = 0x31#7) : decodeFields w = decPk8 w := by simp only [decodeFields, h]; rfl
theorem fields_32 {w : Word} (h : fOp w = 0x32#7) : decodeFields w = decUpk8 w := by simp only [decodeFields, h]; rfl
theorem fields_33 {w : Word} (h : fOp w = 0x33#7) : decodeFields w = decPk6 w := by simp only [decodeFields, h]; rfl
theorem fields_34 {w : Word} (h : fOp w = 0x34#7) : decodeFields w = decUpk6 w := by simp only [decodeFields, h]; rfl
theorem fields_35 {w : Word} (h : fOp w = 0x35#7) : decodeFields w = decHop2 w := by simp only [decodeFields, h]; rfl
theorem fields_36 {w : Word} (h : fOp w = 0x36#7) : decodeFields w = decXsc w := by simp only [decodeFields, h]; rfl
theorem fields_38 {w : Word} (h : fOp w = 0x38#7) : decodeFields w = decImm .ldB w := by simp only [decodeFields, h]; rfl
theorem fields_39 {w : Word} (h : fOp w = 0x39#7) : decodeFields w = decImm .ldBs w := by simp only [decodeFields, h]; rfl
theorem fields_3A {w : Word} (h : fOp w = 0x3A#7) : decodeFields w = decImm .ldH w := by simp only [decodeFields, h]; rfl
theorem fields_3B {w : Word} (h : fOp w = 0x3B#7) : decodeFields w = decImm .ldHs w := by simp only [decodeFields, h]; rfl
theorem fields_3C {w : Word} (h : fOp w = 0x3C#7) : decodeFields w = decImm .ldW w := by simp only [decodeFields, h]; rfl
theorem fields_3D {w : Word} (h : fOp w = 0x3D#7) : decodeFields w = decImm .ldX w := by simp only [decodeFields, h]; rfl
theorem fields_3E {w : Word} (h : fOp w = 0x3E#7) : decodeFields w = decImm .ldQ w := by simp only [decodeFields, h]; rfl
theorem fields_3F {w : Word} (h : fOp w = 0x3F#7) : decodeFields w = decImm .stB w := by simp only [decodeFields, h]; rfl
theorem fields_40 {w : Word} (h : fOp w = 0x40#7) : decodeFields w = decImm .stH w := by simp only [decodeFields, h]; rfl
theorem fields_41 {w : Word} (h : fOp w = 0x41#7) : decodeFields w = decImm .stW w := by simp only [decodeFields, h]; rfl
theorem fields_42 {w : Word} (h : fOp w = 0x42#7) : decodeFields w = decImm .stX w := by simp only [decodeFields, h]; rfl
theorem fields_43 {w : Word} (h : fOp w = 0x43#7) : decodeFields w = decImm .stQ w := by simp only [decodeFields, h]; rfl
theorem fields_44 {w : Word} (h : fOp w = 0x44#7) : decodeFields w = decM .ldm w := by simp only [decodeFields, h]; rfl
theorem fields_45 {w : Word} (h : fOp w = 0x45#7) : decodeFields w = decM .stm w := by simp only [decodeFields, h]; rfl
theorem fields_46 {w : Word} (h : fOp w = 0x46#7) : decodeFields w = decPref w := by simp only [decodeFields, h]; rfl
theorem fields_47 {w : Word} (h : fOp w = 0x47#7) : decodeFields w = decPgreq w := by simp only [decodeFields, h]; rfl
theorem fields_48 {w : Word} (h : fOp w = 0x48#7) : decodeFields w = decAtom .atomT w := by simp only [decodeFields, h]; rfl
theorem fields_49 {w : Word} (h : fOp w = 0x49#7) : decodeFields w = decAtom .atomC w := by simp only [decodeFields, h]; rfl
theorem fields_4A {w : Word} (h : fOp w = 0x4A#7) : decodeFields w = decAtom .atomD w := by simp only [decodeFields, h]; rfl
theorem fields_4B {w : Word} (h : fOp w = 0x4B#7) : decodeFields w = decAtom .atomP w := by simp only [decodeFields, h]; rfl
theorem fields_4C {w : Word} (h : fOp w = 0x4C#7) : decodeFields w = decAtom .atomS w := by simp only [decodeFields, h]; rfl
theorem fields_4D {w : Word} (h : fOp w = 0x4D#7) : decodeFields w = decRed .redD w := by simp only [decodeFields, h]; rfl
theorem fields_4E {w : Word} (h : fOp w = 0x4E#7) : decodeFields w = decRed .redP w := by simp only [decodeFields, h]; rfl
theorem fields_4F {w : Word} (h : fOp w = 0x4F#7) : decodeFields w = decRed .redS w := by simp only [decodeFields, h]; rfl
theorem fields_50 {w : Word} (h : fOp w = 0x50#7) : decodeFields w = decStfl w := by simp only [decodeFields, h]; rfl
theorem fields_51 {w : Word} (h : fOp w = 0x51#7) : decodeFields w = decRedn w := by simp only [decodeFields, h]; rfl
theorem fields_52 {w : Word} (h : fOp w = 0x52#7) : decodeFields w = decSctl w := by simp only [decodeFields, h]; rfl
theorem fields_53 {w : Word} (h : fOp w = 0x53#7) : decodeFields w = decPub w := by simp only [decodeFields, h]; rfl
theorem fields_54 {w : Word} (h : fOp w = 0x54#7) : decodeFields w = decMwatch w := by simp only [decodeFields, h]; rfl
theorem fields_55 {w : Word} (h : fOp w = 0x55#7) : decodeFields w = decMwait w := by simp only [decodeFields, h]; rfl
theorem fields_56 {w : Word} (h : fOp w = 0x56#7) : decodeFields w = decFence w := by simp only [decodeFields, h]; rfl
theorem fields_58 {w : Word} (h : fOp w = 0x58#7) : decodeFields w = decBar w := by simp only [decodeFields, h]; rfl
theorem fields_59 {w : Word} (h : fOp w = 0x59#7) : decodeFields w = decTbar w := by simp only [decodeFields, h]; rfl
theorem fields_5A {w : Word} (h : fOp w = 0x5A#7) : decodeFields w = decWaitc w := by simp only [decodeFields, h]; rfl
theorem fields_5B {w : Word} (h : fOp w = 0x5B#7) : decodeFields w = decWaitb w := by simp only [decodeFields, h]; rfl
theorem fields_5C {w : Word} (h : fOp w = 0x5C#7) : decodeFields w = decCcop w := by simp only [decodeFields, h]; rfl
theorem fields_60 {w : Word} (h : fOp w = 0x60#7) : decodeFields w = decMx .mxacq w := by simp only [decodeFields, h]; rfl
theorem fields_61 {w : Word} (h : fOp w = 0x61#7) : decodeFields w = decMx .mxrel w := by simp only [decodeFields, h]; rfl
theorem fields_62 {w : Word} (h : fOp w = 0x62#7) : decodeFields w = decTmma w := by simp only [decodeFields, h]; rfl
theorem fields_63 {w : Word} (h : fOp w = 0x63#7) : decodeFields w = decTmmai w := by simp only [decodeFields, h]; rfl
theorem fields_64 {w : Word} (h : fOp w = 0x64#7) : decodeFields w = decTzero w := by simp only [decodeFields, h]; rfl
theorem fields_65 {w : Word} (h : fOp w = 0x65#7) : decodeFields w = decTacc w := by simp only [decodeFields, h]; rfl
theorem fields_66 {w : Word} (h : fOp w = 0x66#7) : decodeFields w = decTcvt w := by simp only [decodeFields, h]; rfl
theorem fields_67 {w : Word} (h : fOp w = 0x67#7) : decodeFields w = decTscale w := by simp only [decodeFields, h]; rfl
theorem fields_68 {w : Word} (h : fOp w = 0x68#7) : decodeFields w = decTlda w := by simp only [decodeFields, h]; rfl
theorem fields_69 {w : Word} (h : fOp w = 0x69#7) : decodeFields w = decTstate w := by simp only [decodeFields, h]; rfl
theorem fields_6A {w : Word} (h : fOp w = 0x6A#7) : decodeFields w = decTrel w := by simp only [decodeFields, h]; rfl
theorem fields_6B {w : Word} (h : fOp w = 0x6B#7) : decodeFields w = decCbld w := by simp only [decodeFields, h]; rfl
theorem fields_70 {w : Word} (h : fOp w = 0x70#7) : decodeFields w = decRef .rldW w := by simp only [decodeFields, h]; rfl
theorem fields_71 {w : Word} (h : fOp w = 0x71#7) : decodeFields w = decRef .rldX w := by simp only [decodeFields, h]; rfl
theorem fields_72 {w : Word} (h : fOp w = 0x72#7) : decodeFields w = decRef .rstW w := by simp only [decodeFields, h]; rfl
theorem fields_73 {w : Word} (h : fOp w = 0x73#7) : decodeFields w = decRef .rstX w := by simp only [decodeFields, h]; rfl
theorem fields_74 {w : Word} (h : fOp w = 0x74#7) : decodeFields w = decRefr .rldr w := by simp only [decodeFields, h]; rfl
theorem fields_75 {w : Word} (h : fOp w = 0x75#7) : decodeFields w = decRefr .rstr w := by simp only [decodeFields, h]; rfl
theorem fields_76 {w : Word} (h : fOp w = 0x76#7) : decodeFields w = decRefop w := by simp only [decodeFields, h]; rfl
theorem fields_7F {w : Word} (h : fOp w = 0x7F#7) : decodeFields w = some (.lit (fPayload w)) := by simp only [decodeFields, h]; rfl

end Sys2Proof
end

