-- ==== Sys2Proof/Laws/State.lean ====
section
/-! SUPPORT. What each update of a record leaves in every field, and what the named reads find after the named updates. -/

namespace Sys2Proof.Machine

/-! ## Updates of the whole state -/

@[simp] theorem State.setTeam_clock (s : State) (k : Nat) (T : Team) : (s.setTeam k T).clock = s.clock := rfl
@[simp] theorem State.setTeam_regs (s : State) (k : Nat) (T : Team) : (s.setTeam k T).regs = s.regs := rfl
@[simp] theorem State.setTeam_contexts (s : State) (k : Nat) (T : Team) : (s.setTeam k T).contexts = s.contexts := rfl
@[simp] theorem State.setTeam_queues (s : State) (k : Nat) (T : Team) : (s.setTeam k T).queues = s.queues := rfl
@[simp] theorem State.setTeam_grids (s : State) (k : Nat) (T : Team) : (s.setTeam k T).grids = s.grids := rfl
@[simp] theorem State.setTeam_cores (s : State) (k : Nat) (T : Team) : (s.setTeam k T).cores = s.cores := rfl
@[simp] theorem State.setTeam_dies (s : State) (k : Nat) (T : Team) : (s.setTeam k T).dies = s.dies := rfl
@[simp] theorem State.setTeam_walks (s : State) (k : Nat) (T : Team) : (s.setTeam k T).walks = s.walks := rfl
@[simp] theorem State.setTeam_nonLeaf (s : State) (k : Nat) (T : Team) : (s.setTeam k T).nonLeaf = s.nonLeaf := rfl
@[simp] theorem State.setTeam_mem (s : State) (k : Nat) (T : Team) : (s.setTeam k T).mem = s.mem := rfl
@[simp] theorem State.setTeam_frames (s : State) (k : Nat) (T : Team) : (s.setTeam k T).frames = s.frames := rfl
@[simp] theorem State.setTeam_poison (s : State) (k : Nat) (T : Team) : (s.setTeam k T).poison = s.poison := rfl
@[simp] theorem State.setTeam_hostPoison (s : State) (k : Nat) (T : Team) : (s.setTeam k T).hostPoison = s.hostPoison := rfl
@[simp] theorem State.setTeam_badWords (s : State) (k : Nat) (T : Team) : (s.setTeam k T).badWords = s.badWords := rfl
@[simp] theorem State.setTeam_softWords (s : State) (k : Nat) (T : Team) : (s.setTeam k T).softWords = s.softWords := rfl
@[simp] theorem State.setTeam_pageReqs (s : State) (k : Nat) (T : Team) : (s.setTeam k T).pageReqs = s.pageReqs := rfl
@[simp] theorem State.setTeam_prqList (s : State) (k : Nat) (T : Team) : (s.setTeam k T).prqList = s.prqList := rfl
@[simp] theorem State.setTeam_prqOwed (s : State) (k : Nat) (T : Team) : (s.setTeam k T).prqOwed = s.prqOwed := rfl
@[simp] theorem State.setTeam_cmds (s : State) (k : Nat) (T : Team) : (s.setTeam k T).cmds = s.cmds := rfl
@[simp] theorem State.setTeam_proxies (s : State) (k : Nat) (T : Team) : (s.setTeam k T).proxies = s.proxies := rfl
@[simp] theorem State.setTeam_llc (s : State) (k : Nat) (T : Team) : (s.setTeam k T).llc = s.llc := rfl
@[simp] theorem State.setTeam_outside (s : State) (k : Nat) (T : Team) : (s.setTeam k T).outside = s.outside := rfl
@[simp] theorem State.setTeam_agents (s : State) (k : Nat) (T : Team) : (s.setTeam k T).agents = s.agents := rfl
@[simp] theorem State.setTeam_rounds (s : State) (k : Nat) (T : Team) : (s.setTeam k T).rounds = s.rounds := rfl
@[simp] theorem State.setTeam_counts (s : State) (k : Nat) (T : Team) : (s.setTeam k T).counts = s.counts := rfl
@[simp] theorem State.setTeam_vfs (s : State) (k : Nat) (T : Team) : (s.setTeam k T).vfs = s.vfs := rfl
@[simp] theorem State.setTeam_vfWaits (s : State) (k : Nat) (T : Team) : (s.setTeam k T).vfWaits = s.vfWaits := rfl
@[simp] theorem State.setTeam_nodePend (s : State) (k : Nat) (T : Team) : (s.setTeam k T).nodePend = s.nodePend := rfl
@[simp] theorem State.setTeam_pgPend (s : State) (k : Nat) (T : Team) : (s.setTeam k T).pgPend = s.pgPend := rfl
@[simp] theorem State.setTeam_mhPend (s : State) (k : Nat) (T : Team) : (s.setTeam k T).mhPend = s.mhPend := rfl
@[simp] theorem State.setTeam_ywPend (s : State) (k : Nat) (T : Team) : (s.setTeam k T).ywPend = s.ywPend := rfl
@[simp] theorem State.setTeam_ctxPend (s : State) (k : Nat) (T : Team) : (s.setTeam k T).ctxPend = s.ctxPend := rfl
@[simp] theorem State.setTeam_ports (s : State) (k : Nat) (T : Team) : (s.setTeam k T).ports = s.ports := rfl
@[simp] theorem State.setTeam_nodes (s : State) (k : Nat) (T : Team) : (s.setTeam k T).nodes = s.nodes := rfl
@[simp] theorem State.setTeam_ideStreams (s : State) (k : Nat) (T : Team) : (s.setTeam k T).ideStreams = s.ideStreams := rfl
@[simp] theorem State.setTeam_measured (s : State) (k : Nat) (T : Team) : (s.setTeam k T).measured = s.measured := rfl
@[simp] theorem State.setTeam_boot (s : State) (k : Nat) (T : Team) : (s.setTeam k T).boot = s.boot := rfl
@[simp] theorem State.setTeam_scan (s : State) (k : Nat) (T : Team) : (s.setTeam k T).scan = s.scan := rfl
@[simp] theorem State.setTeam_capWindow (s : State) (k : Nat) (T : Team) : (s.setTeam k T).capWindow = s.capWindow := rfl
@[simp] theorem State.setTeam_out (s : State) (k : Nat) (T : Team) : (s.setTeam k T).out = s.out := rfl
@[simp] theorem State.setTeam_issue (s : State) (k : Nat) (T : Team) : (s.setTeam k T).issue = s.issue := rfl
@[simp] theorem State.setTeam_lits (s : State) (k : Nat) (T : Team) : (s.setTeam k T).lits = s.lits := rfl
@[simp] theorem State.setTeam_fresh (s : State) (k : Nat) (T : Team) : (s.setTeam k T).fresh = s.fresh := rfl
@[simp] theorem State.setTeam_lastQueue (s : State) (k : Nat) (T : Team) : (s.setTeam k T).lastQueue = s.lastQueue := rfl
@[simp] theorem State.setTeam_lastCtxQueue (s : State) (k : Nat) (T : Team) : (s.setTeam k T).lastCtxQueue = s.lastCtxQueue := rfl
@[simp] theorem State.setTeam_lastOwner (s : State) (k : Nat) (T : Team) : (s.setTeam k T).lastOwner = s.lastOwner := rfl
@[simp] theorem State.setTeam_arrivalDelay (s : State) (k : Nat) (T : Team) : (s.setTeam k T).arrivalDelay = s.arrivalDelay := rfl
@[simp] theorem State.setTeam_viaQueues (s : State) (k : Nat) (T : Team) : (s.setTeam k T).viaQueues = s.viaQueues := rfl
@[simp] theorem State.setTeam_walkDelay (s : State) (k : Nat) (T : Team) : (s.setTeam k T).walkDelay = s.walkDelay := rfl
@[simp] theorem State.setTeam_capEvery (s : State) (k : Nat) (T : Team) : (s.setTeam k T).capEvery = s.capEvery := rfl
@[simp] theorem State.setTeam_filterDie (s : State) (k : Nat) (T : Team) : (s.setTeam k T).filterDie = s.filterDie := rfl
@[simp] theorem State.setTeam_hostRsvCfg (s : State) (k : Nat) (T : Team) : (s.setTeam k T).hostRsvCfg = s.hostRsvCfg := rfl
@[simp] theorem State.setTeam_agenda (s : State) (k : Nat) (T : Team) : (s.setTeam k T).agenda = s.agenda := rfl
@[simp] theorem State.modCore_clock (s : State) (k : Nat) (f : Core → Core) : (s.modCore k f).clock = s.clock := rfl
@[simp] theorem State.modCore_regs (s : State) (k : Nat) (f : Core → Core) : (s.modCore k f).regs = s.regs := rfl
@[simp] theorem State.modCore_contexts (s : State) (k : Nat) (f : Core → Core) : (s.modCore k f).contexts = s.contexts := rfl
@[simp] theorem State.modCore_queues (s : State) (k : Nat) (f : Core → Core) : (s.modCore k f).queues = s.queues := rfl
@[simp] theorem State.modCore_grids (s : State) (k : Nat) (f : Core → Core) : (s.modCore k f).grids = s.grids := rfl
@[simp] theorem State.modCore_teams (s : State) (k : Nat) (f : Core → Core) : (s.modCore k f).teams = s.teams := rfl
@[simp] theorem State.modCore_dies (s : State) (k : Nat) (f : Core → Core) : (s.modCore k f).dies = s.dies := rfl
@[simp] theorem State.modCore_walks (s : State) (k : Nat) (f : Core → Core) : (s.modCore k f).walks = s.walks := rfl
@[simp] theorem State.modCore_nonLeaf (s : State) (k : Nat) (f : Core → Core) : (s.modCore k f).nonLeaf = s.nonLeaf := rfl
@[simp] theorem State.modCore_mem (s : State) (k : Nat) (f : Core → Core) : (s.modCore k f).mem = s.mem := rfl
@[simp] theorem State.modCore_frames (s : State) (k : Nat) (f : Core → Core) : (s.modCore k f).frames = s.frames := rfl
@[simp] theorem State.modCore_poison (s : State) (k : Nat) (f : Core → Core) : (s.modCore k f).poison = s.poison := rfl
@[simp] theorem State.modCore_hostPoison (s : State) (k : Nat) (f : Core → Core) : (s.modCore k f).hostPoison = s.hostPoison := rfl
@[simp] theorem State.modCore_badWords (s : State) (k : Nat) (f : Core → Core) : (s.modCore k f).badWords = s.badWords := rfl
@[simp] theorem State.modCore_softWords (s : State) (k : Nat) (f : Core → Core) : (s.modCore k f).softWords = s.softWords := rfl
@[simp] theorem State.modCore_pageReqs (s : State) (k : Nat) (f : Core → Core) : (s.modCore k f).pageReqs = s.pageReqs := rfl
@[simp] theorem State.modCore_prqList (s : State) (k : Nat) (f : Core → Core) : (s.modCore k f).prqList = s.prqList := rfl
@[simp] theorem State.modCore_prqOwed (s : State) (k : Nat) (f : Core → Core) : (s.modCore k f).prqOwed = s.prqOwed := rfl
@[simp] theorem State.modCore_cmds (s : State) (k : Nat) (f : Core → Core) : (s.modCore k f).cmds = s.cmds := rfl
@[simp] theorem State.modCore_proxies (s : State) (k : Nat) (f : Core → Core) : (s.modCore k f).proxies = s.proxies := rfl
@[simp] theorem State.modCore_llc (s : State) (k : Nat) (f : Core → Core) : (s.modCore k f).llc = s.llc := rfl
@[simp] theorem State.modCore_outside (s : State) (k : Nat) (f : Core → Core) : (s.modCore k f).outside = s.outside := rfl
@[simp] theorem State.modCore_agents (s : State) (k : Nat) (f : Core → Core) : (s.modCore k f).agents = s.agents := rfl
@[simp] theorem State.modCore_rounds (s : State) (k : Nat) (f : Core → Core) : (s.modCore k f).rounds = s.rounds := rfl
@[simp] theorem State.modCore_counts (s : State) (k : Nat) (f : Core → Core) : (s.modCore k f).counts = s.counts := rfl
@[simp] theorem State.modCore_vfs (s : State) (k : Nat) (f : Core → Core) : (s.modCore k f).vfs = s.vfs := rfl
@[simp] theorem State.modCore_vfWaits (s : State) (k : Nat) (f : Core → Core) : (s.modCore k f).vfWaits = s.vfWaits := rfl
@[simp] theorem State.modCore_nodePend (s : State) (k : Nat) (f : Core → Core) : (s.modCore k f).nodePend = s.nodePend := rfl
@[simp] theorem State.modCore_pgPend (s : State) (k : Nat) (f : Core → Core) : (s.modCore k f).pgPend = s.pgPend := rfl
@[simp] theorem State.modCore_mhPend (s : State) (k : Nat) (f : Core → Core) : (s.modCore k f).mhPend = s.mhPend := rfl
@[simp] theorem State.modCore_ywPend (s : State) (k : Nat) (f : Core → Core) : (s.modCore k f).ywPend = s.ywPend := rfl
@[simp] theorem State.modCore_ctxPend (s : State) (k : Nat) (f : Core → Core) : (s.modCore k f).ctxPend = s.ctxPend := rfl
@[simp] theorem State.modCore_ports (s : State) (k : Nat) (f : Core → Core) : (s.modCore k f).ports = s.ports := rfl
@[simp] theorem State.modCore_nodes (s : State) (k : Nat) (f : Core → Core) : (s.modCore k f).nodes = s.nodes := rfl
@[simp] theorem State.modCore_ideStreams (s : State) (k : Nat) (f : Core → Core) : (s.modCore k f).ideStreams = s.ideStreams := rfl
@[simp] theorem State.modCore_measured (s : State) (k : Nat) (f : Core → Core) : (s.modCore k f).measured = s.measured := rfl
@[simp] theorem State.modCore_boot (s : State) (k : Nat) (f : Core → Core) : (s.modCore k f).boot = s.boot := rfl
@[simp] theorem State.modCore_scan (s : State) (k : Nat) (f : Core → Core) : (s.modCore k f).scan = s.scan := rfl
@[simp] theorem State.modCore_capWindow (s : State) (k : Nat) (f : Core → Core) : (s.modCore k f).capWindow = s.capWindow := rfl
@[simp] theorem State.modCore_out (s : State) (k : Nat) (f : Core → Core) : (s.modCore k f).out = s.out := rfl
@[simp] theorem State.modCore_issue (s : State) (k : Nat) (f : Core → Core) : (s.modCore k f).issue = s.issue := rfl
@[simp] theorem State.modCore_lits (s : State) (k : Nat) (f : Core → Core) : (s.modCore k f).lits = s.lits := rfl
@[simp] theorem State.modCore_fresh (s : State) (k : Nat) (f : Core → Core) : (s.modCore k f).fresh = s.fresh := rfl
@[simp] theorem State.modCore_lastQueue (s : State) (k : Nat) (f : Core → Core) : (s.modCore k f).lastQueue = s.lastQueue := rfl
@[simp] theorem State.modCore_lastCtxQueue (s : State) (k : Nat) (f : Core → Core) : (s.modCore k f).lastCtxQueue = s.lastCtxQueue := rfl
@[simp] theorem State.modCore_lastOwner (s : State) (k : Nat) (f : Core → Core) : (s.modCore k f).lastOwner = s.lastOwner := rfl
@[simp] theorem State.modCore_arrivalDelay (s : State) (k : Nat) (f : Core → Core) : (s.modCore k f).arrivalDelay = s.arrivalDelay := rfl
@[simp] theorem State.modCore_viaQueues (s : State) (k : Nat) (f : Core → Core) : (s.modCore k f).viaQueues = s.viaQueues := rfl
@[simp] theorem State.modCore_walkDelay (s : State) (k : Nat) (f : Core → Core) : (s.modCore k f).walkDelay = s.walkDelay := rfl
@[simp] theorem State.modCore_capEvery (s : State) (k : Nat) (f : Core → Core) : (s.modCore k f).capEvery = s.capEvery := rfl
@[simp] theorem State.modCore_filterDie (s : State) (k : Nat) (f : Core → Core) : (s.modCore k f).filterDie = s.filterDie := rfl
@[simp] theorem State.modCore_hostRsvCfg (s : State) (k : Nat) (f : Core → Core) : (s.modCore k f).hostRsvCfg = s.hostRsvCfg := rfl
@[simp] theorem State.modCore_agenda (s : State) (k : Nat) (f : Core → Core) : (s.modCore k f).agenda = s.agenda := rfl
@[simp] theorem State.modCtx_clock (s : State) (k : Nat) (f : Context → Context) : (s.modCtx k f).clock = s.clock := rfl
@[simp] theorem State.modCtx_regs (s : State) (k : Nat) (f : Context → Context) : (s.modCtx k f).regs = s.regs := rfl
@[simp] theorem State.modCtx_queues (s : State) (k : Nat) (f : Context → Context) : (s.modCtx k f).queues = s.queues := rfl
@[simp] theorem State.modCtx_grids (s : State) (k : Nat) (f : Context → Context) : (s.modCtx k f).grids = s.grids := rfl
@[simp] theorem State.modCtx_teams (s : State) (k : Nat) (f : Context → Context) : (s.modCtx k f).teams = s.teams := rfl
@[simp] theorem State.modCtx_cores (s : State) (k : Nat) (f : Context → Context) : (s.modCtx k f).cores = s.cores := rfl
@[simp] theorem State.modCtx_dies (s : State) (k : Nat) (f : Context → Context) : (s.modCtx k f).dies = s.dies := rfl
@[simp] theorem State.modCtx_walks (s : State) (k : Nat) (f : Context → Context) : (s.modCtx k f).walks = s.walks := rfl
@[simp] theorem State.modCtx_nonLeaf (s : State) (k : Nat) (f : Context → Context) : (s.modCtx k f).nonLeaf = s.nonLeaf := rfl
@[simp] theorem State.modCtx_mem (s : State) (k : Nat) (f : Context → Context) : (s.modCtx k f).mem = s.mem := rfl
@[simp] theorem State.modCtx_frames (s : State) (k : Nat) (f : Context → Context) : (s.modCtx k f).frames = s.frames := rfl
@[simp] theorem State.modCtx_poison (s : State) (k : Nat) (f : Context → Context) : (s.modCtx k f).poison = s.poison := rfl
@[simp] theorem State.modCtx_hostPoison (s : State) (k : Nat) (f : Context → Context) : (s.modCtx k f).hostPoison = s.hostPoison := rfl
@[simp] theorem State.modCtx_badWords (s : State) (k : Nat) (f : Context → Context) : (s.modCtx k f).badWords = s.badWords := rfl
@[simp] theorem State.modCtx_softWords (s : State) (k : Nat) (f : Context → Context) : (s.modCtx k f).softWords = s.softWords := rfl
@[simp] theorem State.modCtx_pageReqs (s : State) (k : Nat) (f : Context → Context) : (s.modCtx k f).pageReqs = s.pageReqs := rfl
@[simp] theorem State.modCtx_prqList (s : State) (k : Nat) (f : Context → Context) : (s.modCtx k f).prqList = s.prqList := rfl
@[simp] theorem State.modCtx_prqOwed (s : State) (k : Nat) (f : Context → Context) : (s.modCtx k f).prqOwed = s.prqOwed := rfl
@[simp] theorem State.modCtx_cmds (s : State) (k : Nat) (f : Context → Context) : (s.modCtx k f).cmds = s.cmds := rfl
@[simp] theorem State.modCtx_proxies (s : State) (k : Nat) (f : Context → Context) : (s.modCtx k f).proxies = s.proxies := rfl
@[simp] theorem State.modCtx_llc (s : State) (k : Nat) (f : Context → Context) : (s.modCtx k f).llc = s.llc := rfl
@[simp] theorem State.modCtx_outside (s : State) (k : Nat) (f : Context → Context) : (s.modCtx k f).outside = s.outside := rfl
@[simp] theorem State.modCtx_agents (s : State) (k : Nat) (f : Context → Context) : (s.modCtx k f).agents = s.agents := rfl
@[simp] theorem State.modCtx_rounds (s : State) (k : Nat) (f : Context → Context) : (s.modCtx k f).rounds = s.rounds := rfl
@[simp] theorem State.modCtx_counts (s : State) (k : Nat) (f : Context → Context) : (s.modCtx k f).counts = s.counts := rfl
@[simp] theorem State.modCtx_vfs (s : State) (k : Nat) (f : Context → Context) : (s.modCtx k f).vfs = s.vfs := rfl
@[simp] theorem State.modCtx_vfWaits (s : State) (k : Nat) (f : Context → Context) : (s.modCtx k f).vfWaits = s.vfWaits := rfl
@[simp] theorem State.modCtx_nodePend (s : State) (k : Nat) (f : Context → Context) : (s.modCtx k f).nodePend = s.nodePend := rfl
@[simp] theorem State.modCtx_pgPend (s : State) (k : Nat) (f : Context → Context) : (s.modCtx k f).pgPend = s.pgPend := rfl
@[simp] theorem State.modCtx_mhPend (s : State) (k : Nat) (f : Context → Context) : (s.modCtx k f).mhPend = s.mhPend := rfl
@[simp] theorem State.modCtx_ywPend (s : State) (k : Nat) (f : Context → Context) : (s.modCtx k f).ywPend = s.ywPend := rfl
@[simp] theorem State.modCtx_ctxPend (s : State) (k : Nat) (f : Context → Context) : (s.modCtx k f).ctxPend = s.ctxPend := rfl
@[simp] theorem State.modCtx_ports (s : State) (k : Nat) (f : Context → Context) : (s.modCtx k f).ports = s.ports := rfl
@[simp] theorem State.modCtx_nodes (s : State) (k : Nat) (f : Context → Context) : (s.modCtx k f).nodes = s.nodes := rfl
@[simp] theorem State.modCtx_ideStreams (s : State) (k : Nat) (f : Context → Context) : (s.modCtx k f).ideStreams = s.ideStreams := rfl
@[simp] theorem State.modCtx_measured (s : State) (k : Nat) (f : Context → Context) : (s.modCtx k f).measured = s.measured := rfl
@[simp] theorem State.modCtx_boot (s : State) (k : Nat) (f : Context → Context) : (s.modCtx k f).boot = s.boot := rfl
@[simp] theorem State.modCtx_scan (s : State) (k : Nat) (f : Context → Context) : (s.modCtx k f).scan = s.scan := rfl
@[simp] theorem State.modCtx_capWindow (s : State) (k : Nat) (f : Context → Context) : (s.modCtx k f).capWindow = s.capWindow := rfl
@[simp] theorem State.modCtx_out (s : State) (k : Nat) (f : Context → Context) : (s.modCtx k f).out = s.out := rfl
@[simp] theorem State.modCtx_issue (s : State) (k : Nat) (f : Context → Context) : (s.modCtx k f).issue = s.issue := rfl
@[simp] theorem State.modCtx_lits (s : State) (k : Nat) (f : Context → Context) : (s.modCtx k f).lits = s.lits := rfl
@[simp] theorem State.modCtx_fresh (s : State) (k : Nat) (f : Context → Context) : (s.modCtx k f).fresh = s.fresh := rfl
@[simp] theorem State.modCtx_lastQueue (s : State) (k : Nat) (f : Context → Context) : (s.modCtx k f).lastQueue = s.lastQueue := rfl
@[simp] theorem State.modCtx_lastCtxQueue (s : State) (k : Nat) (f : Context → Context) : (s.modCtx k f).lastCtxQueue = s.lastCtxQueue := rfl
@[simp] theorem State.modCtx_lastOwner (s : State) (k : Nat) (f : Context → Context) : (s.modCtx k f).lastOwner = s.lastOwner := rfl
@[simp] theorem State.modCtx_arrivalDelay (s : State) (k : Nat) (f : Context → Context) : (s.modCtx k f).arrivalDelay = s.arrivalDelay := rfl
@[simp] theorem State.modCtx_viaQueues (s : State) (k : Nat) (f : Context → Context) : (s.modCtx k f).viaQueues = s.viaQueues := rfl
@[simp] theorem State.modCtx_walkDelay (s : State) (k : Nat) (f : Context → Context) : (s.modCtx k f).walkDelay = s.walkDelay := rfl
@[simp] theorem State.modCtx_capEvery (s : State) (k : Nat) (f : Context → Context) : (s.modCtx k f).capEvery = s.capEvery := rfl
@[simp] theorem State.modCtx_filterDie (s : State) (k : Nat) (f : Context → Context) : (s.modCtx k f).filterDie = s.filterDie := rfl
@[simp] theorem State.modCtx_hostRsvCfg (s : State) (k : Nat) (f : Context → Context) : (s.modCtx k f).hostRsvCfg = s.hostRsvCfg := rfl
@[simp] theorem State.modCtx_agenda (s : State) (k : Nat) (f : Context → Context) : (s.modCtx k f).agenda = s.agenda := rfl
@[simp] theorem State.modDie_clock (s : State) (k : Nat) (f : Die → Die) : (s.modDie k f).clock = s.clock := rfl
@[simp] theorem State.modDie_regs (s : State) (k : Nat) (f : Die → Die) : (s.modDie k f).regs = s.regs := rfl
@[simp] theorem State.modDie_contexts (s : State) (k : Nat) (f : Die → Die) : (s.modDie k f).contexts = s.contexts := rfl
@[simp] theorem State.modDie_queues (s : State) (k : Nat) (f : Die → Die) : (s.modDie k f).queues = s.queues := rfl
@[simp] theorem State.modDie_grids (s : State) (k : Nat) (f : Die → Die) : (s.modDie k f).grids = s.grids := rfl
@[simp] theorem State.modDie_teams (s : State) (k : Nat) (f : Die → Die) : (s.modDie k f).teams = s.teams := rfl
@[simp] theorem State.modDie_cores (s : State) (k : Nat) (f : Die → Die) : (s.modDie k f).cores = s.cores := rfl
@[simp] theorem State.modDie_walks (s : State) (k : Nat) (f : Die → Die) : (s.modDie k f).walks = s.walks := rfl
@[simp] theorem State.modDie_nonLeaf (s : State) (k : Nat) (f : Die → Die) : (s.modDie k f).nonLeaf = s.nonLeaf := rfl
@[simp] theorem State.modDie_mem (s : State) (k : Nat) (f : Die → Die) : (s.modDie k f).mem = s.mem := rfl
@[simp] theorem State.modDie_frames (s : State) (k : Nat) (f : Die → Die) : (s.modDie k f).frames = s.frames := rfl
@[simp] theorem State.modDie_poison (s : State) (k : Nat) (f : Die → Die) : (s.modDie k f).poison = s.poison := rfl
@[simp] theorem State.modDie_hostPoison (s : State) (k : Nat) (f : Die → Die) : (s.modDie k f).hostPoison = s.hostPoison := rfl
@[simp] theorem State.modDie_badWords (s : State) (k : Nat) (f : Die → Die) : (s.modDie k f).badWords = s.badWords := rfl
@[simp] theorem State.modDie_softWords (s : State) (k : Nat) (f : Die → Die) : (s.modDie k f).softWords = s.softWords := rfl
@[simp] theorem State.modDie_pageReqs (s : State) (k : Nat) (f : Die → Die) : (s.modDie k f).pageReqs = s.pageReqs := rfl
@[simp] theorem State.modDie_prqList (s : State) (k : Nat) (f : Die → Die) : (s.modDie k f).prqList = s.prqList := rfl
@[simp] theorem State.modDie_prqOwed (s : State) (k : Nat) (f : Die → Die) : (s.modDie k f).prqOwed = s.prqOwed := rfl
@[simp] theorem State.modDie_cmds (s : State) (k : Nat) (f : Die → Die) : (s.modDie k f).cmds = s.cmds := rfl
@[simp] theorem State.modDie_proxies (s : State) (k : Nat) (f : Die → Die) : (s.modDie k f).proxies = s.proxies := rfl
@[simp] theorem State.modDie_llc (s : State) (k : Nat) (f : Die → Die) : (s.modDie k f).llc = s.llc := rfl
@[simp] theorem State.modDie_outside (s : State) (k : Nat) (f : Die → Die) : (s.modDie k f).outside = s.outside := rfl
@[simp] theorem State.modDie_agents (s : State) (k : Nat) (f : Die → Die) : (s.modDie k f).agents = s.agents := rfl
@[simp] theorem State.modDie_rounds (s : State) (k : Nat) (f : Die → Die) : (s.modDie k f).rounds = s.rounds := rfl
@[simp] theorem State.modDie_counts (s : State) (k : Nat) (f : Die → Die) : (s.modDie k f).counts = s.counts := rfl
@[simp] theorem State.modDie_vfs (s : State) (k : Nat) (f : Die → Die) : (s.modDie k f).vfs = s.vfs := rfl
@[simp] theorem State.modDie_vfWaits (s : State) (k : Nat) (f : Die → Die) : (s.modDie k f).vfWaits = s.vfWaits := rfl
@[simp] theorem State.modDie_nodePend (s : State) (k : Nat) (f : Die → Die) : (s.modDie k f).nodePend = s.nodePend := rfl
@[simp] theorem State.modDie_pgPend (s : State) (k : Nat) (f : Die → Die) : (s.modDie k f).pgPend = s.pgPend := rfl
@[simp] theorem State.modDie_mhPend (s : State) (k : Nat) (f : Die → Die) : (s.modDie k f).mhPend = s.mhPend := rfl
@[simp] theorem State.modDie_ywPend (s : State) (k : Nat) (f : Die → Die) : (s.modDie k f).ywPend = s.ywPend := rfl
@[simp] theorem State.modDie_ctxPend (s : State) (k : Nat) (f : Die → Die) : (s.modDie k f).ctxPend = s.ctxPend := rfl
@[simp] theorem State.modDie_ports (s : State) (k : Nat) (f : Die → Die) : (s.modDie k f).ports = s.ports := rfl
@[simp] theorem State.modDie_nodes (s : State) (k : Nat) (f : Die → Die) : (s.modDie k f).nodes = s.nodes := rfl
@[simp] theorem State.modDie_ideStreams (s : State) (k : Nat) (f : Die → Die) : (s.modDie k f).ideStreams = s.ideStreams := rfl
@[simp] theorem State.modDie_measured (s : State) (k : Nat) (f : Die → Die) : (s.modDie k f).measured = s.measured := rfl
@[simp] theorem State.modDie_boot (s : State) (k : Nat) (f : Die → Die) : (s.modDie k f).boot = s.boot := rfl
@[simp] theorem State.modDie_scan (s : State) (k : Nat) (f : Die → Die) : (s.modDie k f).scan = s.scan := rfl
@[simp] theorem State.modDie_capWindow (s : State) (k : Nat) (f : Die → Die) : (s.modDie k f).capWindow = s.capWindow := rfl
@[simp] theorem State.modDie_out (s : State) (k : Nat) (f : Die → Die) : (s.modDie k f).out = s.out := rfl
@[simp] theorem State.modDie_issue (s : State) (k : Nat) (f : Die → Die) : (s.modDie k f).issue = s.issue := rfl
@[simp] theorem State.modDie_lits (s : State) (k : Nat) (f : Die → Die) : (s.modDie k f).lits = s.lits := rfl
@[simp] theorem State.modDie_fresh (s : State) (k : Nat) (f : Die → Die) : (s.modDie k f).fresh = s.fresh := rfl
@[simp] theorem State.modDie_lastQueue (s : State) (k : Nat) (f : Die → Die) : (s.modDie k f).lastQueue = s.lastQueue := rfl
@[simp] theorem State.modDie_lastCtxQueue (s : State) (k : Nat) (f : Die → Die) : (s.modDie k f).lastCtxQueue = s.lastCtxQueue := rfl
@[simp] theorem State.modDie_lastOwner (s : State) (k : Nat) (f : Die → Die) : (s.modDie k f).lastOwner = s.lastOwner := rfl
@[simp] theorem State.modDie_arrivalDelay (s : State) (k : Nat) (f : Die → Die) : (s.modDie k f).arrivalDelay = s.arrivalDelay := rfl
@[simp] theorem State.modDie_viaQueues (s : State) (k : Nat) (f : Die → Die) : (s.modDie k f).viaQueues = s.viaQueues := rfl
@[simp] theorem State.modDie_walkDelay (s : State) (k : Nat) (f : Die → Die) : (s.modDie k f).walkDelay = s.walkDelay := rfl
@[simp] theorem State.modDie_capEvery (s : State) (k : Nat) (f : Die → Die) : (s.modDie k f).capEvery = s.capEvery := rfl
@[simp] theorem State.modDie_filterDie (s : State) (k : Nat) (f : Die → Die) : (s.modDie k f).filterDie = s.filterDie := rfl
@[simp] theorem State.modDie_hostRsvCfg (s : State) (k : Nat) (f : Die → Die) : (s.modDie k f).hostRsvCfg = s.hostRsvCfg := rfl
@[simp] theorem State.modDie_agenda (s : State) (k : Nat) (f : Die → Die) : (s.modDie k f).agenda = s.agenda := rfl
@[simp] theorem State.modQueue_clock (s : State) (k : Nat) (f : Queue → Queue) : (s.modQueue k f).clock = s.clock := rfl
@[simp] theorem State.modQueue_regs (s : State) (k : Nat) (f : Queue → Queue) : (s.modQueue k f).regs = s.regs := rfl
@[simp] theorem State.modQueue_contexts (s : State) (k : Nat) (f : Queue → Queue) : (s.modQueue k f).contexts = s.contexts := rfl
@[simp] theorem State.modQueue_grids (s : State) (k : Nat) (f : Queue → Queue) : (s.modQueue k f).grids = s.grids := rfl
@[simp] theorem State.modQueue_teams (s : State) (k : Nat) (f : Queue → Queue) : (s.modQueue k f).teams = s.teams := rfl
@[simp] theorem State.modQueue_cores (s : State) (k : Nat) (f : Queue → Queue) : (s.modQueue k f).cores = s.cores := rfl
@[simp] theorem State.modQueue_dies (s : State) (k : Nat) (f : Queue → Queue) : (s.modQueue k f).dies = s.dies := rfl
@[simp] theorem State.modQueue_walks (s : State) (k : Nat) (f : Queue → Queue) : (s.modQueue k f).walks = s.walks := rfl
@[simp] theorem State.modQueue_nonLeaf (s : State) (k : Nat) (f : Queue → Queue) : (s.modQueue k f).nonLeaf = s.nonLeaf := rfl
@[simp] theorem State.modQueue_mem (s : State) (k : Nat) (f : Queue → Queue) : (s.modQueue k f).mem = s.mem := rfl
@[simp] theorem State.modQueue_frames (s : State) (k : Nat) (f : Queue → Queue) : (s.modQueue k f).frames = s.frames := rfl
@[simp] theorem State.modQueue_poison (s : State) (k : Nat) (f : Queue → Queue) : (s.modQueue k f).poison = s.poison := rfl
@[simp] theorem State.modQueue_hostPoison (s : State) (k : Nat) (f : Queue → Queue) : (s.modQueue k f).hostPoison = s.hostPoison := rfl
@[simp] theorem State.modQueue_badWords (s : State) (k : Nat) (f : Queue → Queue) : (s.modQueue k f).badWords = s.badWords := rfl
@[simp] theorem State.modQueue_softWords (s : State) (k : Nat) (f : Queue → Queue) : (s.modQueue k f).softWords = s.softWords := rfl
@[simp] theorem State.modQueue_pageReqs (s : State) (k : Nat) (f : Queue → Queue) : (s.modQueue k f).pageReqs = s.pageReqs := rfl
@[simp] theorem State.modQueue_prqList (s : State) (k : Nat) (f : Queue → Queue) : (s.modQueue k f).prqList = s.prqList := rfl
@[simp] theorem State.modQueue_prqOwed (s : State) (k : Nat) (f : Queue → Queue) : (s.modQueue k f).prqOwed = s.prqOwed := rfl
@[simp] theorem State.modQueue_cmds (s : State) (k : Nat) (f : Queue → Queue) : (s.modQueue k f).cmds = s.cmds := rfl
@[simp] theorem State.modQueue_proxies (s : State) (k : Nat) (f : Queue → Queue) : (s.modQueue k f).proxies = s.proxies := rfl
@[simp] theorem State.modQueue_llc (s : State) (k : Nat) (f : Queue → Queue) : (s.modQueue k f).llc = s.llc := rfl
@[simp] theorem State.modQueue_outside (s : State) (k : Nat) (f : Queue → Queue) : (s.modQueue k f).outside = s.outside := rfl
@[simp] theorem State.modQueue_agents (s : State) (k : Nat) (f : Queue → Queue) : (s.modQueue k f).agents = s.agents := rfl
@[simp] theorem State.modQueue_rounds (s : State) (k : Nat) (f : Queue → Queue) : (s.modQueue k f).rounds = s.rounds := rfl
@[simp] theorem State.modQueue_counts (s : State) (k : Nat) (f : Queue → Queue) : (s.modQueue k f).counts = s.counts := rfl
@[simp] theorem State.modQueue_vfs (s : State) (k : Nat) (f : Queue → Queue) : (s.modQueue k f).vfs = s.vfs := rfl
@[simp] theorem State.modQueue_vfWaits (s : State) (k : Nat) (f : Queue → Queue) : (s.modQueue k f).vfWaits = s.vfWaits := rfl
@[simp] theorem State.modQueue_nodePend (s : State) (k : Nat) (f : Queue → Queue) : (s.modQueue k f).nodePend = s.nodePend := rfl
@[simp] theorem State.modQueue_pgPend (s : State) (k : Nat) (f : Queue → Queue) : (s.modQueue k f).pgPend = s.pgPend := rfl
@[simp] theorem State.modQueue_mhPend (s : State) (k : Nat) (f : Queue → Queue) : (s.modQueue k f).mhPend = s.mhPend := rfl
@[simp] theorem State.modQueue_ywPend (s : State) (k : Nat) (f : Queue → Queue) : (s.modQueue k f).ywPend = s.ywPend := rfl
@[simp] theorem State.modQueue_ctxPend (s : State) (k : Nat) (f : Queue → Queue) : (s.modQueue k f).ctxPend = s.ctxPend := rfl
@[simp] theorem State.modQueue_ports (s : State) (k : Nat) (f : Queue → Queue) : (s.modQueue k f).ports = s.ports := rfl
@[simp] theorem State.modQueue_nodes (s : State) (k : Nat) (f : Queue → Queue) : (s.modQueue k f).nodes = s.nodes := rfl
@[simp] theorem State.modQueue_ideStreams (s : State) (k : Nat) (f : Queue → Queue) : (s.modQueue k f).ideStreams = s.ideStreams := rfl
@[simp] theorem State.modQueue_measured (s : State) (k : Nat) (f : Queue → Queue) : (s.modQueue k f).measured = s.measured := rfl
@[simp] theorem State.modQueue_boot (s : State) (k : Nat) (f : Queue → Queue) : (s.modQueue k f).boot = s.boot := rfl
@[simp] theorem State.modQueue_scan (s : State) (k : Nat) (f : Queue → Queue) : (s.modQueue k f).scan = s.scan := rfl
@[simp] theorem State.modQueue_capWindow (s : State) (k : Nat) (f : Queue → Queue) : (s.modQueue k f).capWindow = s.capWindow := rfl
@[simp] theorem State.modQueue_out (s : State) (k : Nat) (f : Queue → Queue) : (s.modQueue k f).out = s.out := rfl
@[simp] theorem State.modQueue_issue (s : State) (k : Nat) (f : Queue → Queue) : (s.modQueue k f).issue = s.issue := rfl
@[simp] theorem State.modQueue_lits (s : State) (k : Nat) (f : Queue → Queue) : (s.modQueue k f).lits = s.lits := rfl
@[simp] theorem State.modQueue_fresh (s : State) (k : Nat) (f : Queue → Queue) : (s.modQueue k f).fresh = s.fresh := rfl
@[simp] theorem State.modQueue_lastQueue (s : State) (k : Nat) (f : Queue → Queue) : (s.modQueue k f).lastQueue = s.lastQueue := rfl
@[simp] theorem State.modQueue_lastCtxQueue (s : State) (k : Nat) (f : Queue → Queue) : (s.modQueue k f).lastCtxQueue = s.lastCtxQueue := rfl
@[simp] theorem State.modQueue_lastOwner (s : State) (k : Nat) (f : Queue → Queue) : (s.modQueue k f).lastOwner = s.lastOwner := rfl
@[simp] theorem State.modQueue_arrivalDelay (s : State) (k : Nat) (f : Queue → Queue) : (s.modQueue k f).arrivalDelay = s.arrivalDelay := rfl
@[simp] theorem State.modQueue_viaQueues (s : State) (k : Nat) (f : Queue → Queue) : (s.modQueue k f).viaQueues = s.viaQueues := rfl
@[simp] theorem State.modQueue_walkDelay (s : State) (k : Nat) (f : Queue → Queue) : (s.modQueue k f).walkDelay = s.walkDelay := rfl
@[simp] theorem State.modQueue_capEvery (s : State) (k : Nat) (f : Queue → Queue) : (s.modQueue k f).capEvery = s.capEvery := rfl
@[simp] theorem State.modQueue_filterDie (s : State) (k : Nat) (f : Queue → Queue) : (s.modQueue k f).filterDie = s.filterDie := rfl
@[simp] theorem State.modQueue_hostRsvCfg (s : State) (k : Nat) (f : Queue → Queue) : (s.modQueue k f).hostRsvCfg = s.hostRsvCfg := rfl
@[simp] theorem State.modQueue_agenda (s : State) (k : Nat) (f : Queue → Queue) : (s.modQueue k f).agenda = s.agenda := rfl
@[simp] theorem State.modNode_clock (s : State) (k : Nat) (f : Node → Node) : (s.modNode k f).clock = s.clock := rfl
@[simp] theorem State.modNode_regs (s : State) (k : Nat) (f : Node → Node) : (s.modNode k f).regs = s.regs := rfl
@[simp] theorem State.modNode_contexts (s : State) (k : Nat) (f : Node → Node) : (s.modNode k f).contexts = s.contexts := rfl
@[simp] theorem State.modNode_queues (s : State) (k : Nat) (f : Node → Node) : (s.modNode k f).queues = s.queues := rfl
@[simp] theorem State.modNode_grids (s : State) (k : Nat) (f : Node → Node) : (s.modNode k f).grids = s.grids := rfl
@[simp] theorem State.modNode_teams (s : State) (k : Nat) (f : Node → Node) : (s.modNode k f).teams = s.teams := rfl
@[simp] theorem State.modNode_cores (s : State) (k : Nat) (f : Node → Node) : (s.modNode k f).cores = s.cores := rfl
@[simp] theorem State.modNode_dies (s : State) (k : Nat) (f : Node → Node) : (s.modNode k f).dies = s.dies := rfl
@[simp] theorem State.modNode_walks (s : State) (k : Nat) (f : Node → Node) : (s.modNode k f).walks = s.walks := rfl
@[simp] theorem State.modNode_nonLeaf (s : State) (k : Nat) (f : Node → Node) : (s.modNode k f).nonLeaf = s.nonLeaf := rfl
@[simp] theorem State.modNode_mem (s : State) (k : Nat) (f : Node → Node) : (s.modNode k f).mem = s.mem := rfl
@[simp] theorem State.modNode_frames (s : State) (k : Nat) (f : Node → Node) : (s.modNode k f).frames = s.frames := rfl
@[simp] theorem State.modNode_poison (s : State) (k : Nat) (f : Node → Node) : (s.modNode k f).poison = s.poison := rfl
@[simp] theorem State.modNode_hostPoison (s : State) (k : Nat) (f : Node → Node) : (s.modNode k f).hostPoison = s.hostPoison := rfl
@[simp] theorem State.modNode_badWords (s : State) (k : Nat) (f : Node → Node) : (s.modNode k f).badWords = s.badWords := rfl
@[simp] theorem State.modNode_softWords (s : State) (k : Nat) (f : Node → Node) : (s.modNode k f).softWords = s.softWords := rfl
@[simp] theorem State.modNode_pageReqs (s : State) (k : Nat) (f : Node → Node) : (s.modNode k f).pageReqs = s.pageReqs := rfl
@[simp] theorem State.modNode_prqList (s : State) (k : Nat) (f : Node → Node) : (s.modNode k f).prqList = s.prqList := rfl
@[simp] theorem State.modNode_prqOwed (s : State) (k : Nat) (f : Node → Node) : (s.modNode k f).prqOwed = s.prqOwed := rfl
@[simp] theorem State.modNode_cmds (s : State) (k : Nat) (f : Node → Node) : (s.modNode k f).cmds = s.cmds := rfl
@[simp] theorem State.modNode_proxies (s : State) (k : Nat) (f : Node → Node) : (s.modNode k f).proxies = s.proxies := rfl
@[simp] theorem State.modNode_llc (s : State) (k : Nat) (f : Node → Node) : (s.modNode k f).llc = s.llc := rfl
@[simp] theorem State.modNode_outside (s : State) (k : Nat) (f : Node → Node) : (s.modNode k f).outside = s.outside := rfl
@[simp] theorem State.modNode_agents (s : State) (k : Nat) (f : Node → Node) : (s.modNode k f).agents = s.agents := rfl
@[simp] theorem State.modNode_rounds (s : State) (k : Nat) (f : Node → Node) : (s.modNode k f).rounds = s.rounds := rfl
@[simp] theorem State.modNode_counts (s : State) (k : Nat) (f : Node → Node) : (s.modNode k f).counts = s.counts := rfl
@[simp] theorem State.modNode_vfs (s : State) (k : Nat) (f : Node → Node) : (s.modNode k f).vfs = s.vfs := rfl
@[simp] theorem State.modNode_vfWaits (s : State) (k : Nat) (f : Node → Node) : (s.modNode k f).vfWaits = s.vfWaits := rfl
@[simp] theorem State.modNode_nodePend (s : State) (k : Nat) (f : Node → Node) : (s.modNode k f).nodePend = s.nodePend := rfl
@[simp] theorem State.modNode_pgPend (s : State) (k : Nat) (f : Node → Node) : (s.modNode k f).pgPend = s.pgPend := rfl
@[simp] theorem State.modNode_mhPend (s : State) (k : Nat) (f : Node → Node) : (s.modNode k f).mhPend = s.mhPend := rfl
@[simp] theorem State.modNode_ywPend (s : State) (k : Nat) (f : Node → Node) : (s.modNode k f).ywPend = s.ywPend := rfl
@[simp] theorem State.modNode_ctxPend (s : State) (k : Nat) (f : Node → Node) : (s.modNode k f).ctxPend = s.ctxPend := rfl
@[simp] theorem State.modNode_ports (s : State) (k : Nat) (f : Node → Node) : (s.modNode k f).ports = s.ports := rfl
@[simp] theorem State.modNode_ideStreams (s : State) (k : Nat) (f : Node → Node) : (s.modNode k f).ideStreams = s.ideStreams := rfl
@[simp] theorem State.modNode_measured (s : State) (k : Nat) (f : Node → Node) : (s.modNode k f).measured = s.measured := rfl
@[simp] theorem State.modNode_boot (s : State) (k : Nat) (f : Node → Node) : (s.modNode k f).boot = s.boot := rfl
@[simp] theorem State.modNode_scan (s : State) (k : Nat) (f : Node → Node) : (s.modNode k f).scan = s.scan := rfl
@[simp] theorem State.modNode_capWindow (s : State) (k : Nat) (f : Node → Node) : (s.modNode k f).capWindow = s.capWindow := rfl
@[simp] theorem State.modNode_out (s : State) (k : Nat) (f : Node → Node) : (s.modNode k f).out = s.out := rfl
@[simp] theorem State.modNode_issue (s : State) (k : Nat) (f : Node → Node) : (s.modNode k f).issue = s.issue := rfl
@[simp] theorem State.modNode_lits (s : State) (k : Nat) (f : Node → Node) : (s.modNode k f).lits = s.lits := rfl
@[simp] theorem State.modNode_fresh (s : State) (k : Nat) (f : Node → Node) : (s.modNode k f).fresh = s.fresh := rfl
@[simp] theorem State.modNode_lastQueue (s : State) (k : Nat) (f : Node → Node) : (s.modNode k f).lastQueue = s.lastQueue := rfl
@[simp] theorem State.modNode_lastCtxQueue (s : State) (k : Nat) (f : Node → Node) : (s.modNode k f).lastCtxQueue = s.lastCtxQueue := rfl
@[simp] theorem State.modNode_lastOwner (s : State) (k : Nat) (f : Node → Node) : (s.modNode k f).lastOwner = s.lastOwner := rfl
@[simp] theorem State.modNode_arrivalDelay (s : State) (k : Nat) (f : Node → Node) : (s.modNode k f).arrivalDelay = s.arrivalDelay := rfl
@[simp] theorem State.modNode_viaQueues (s : State) (k : Nat) (f : Node → Node) : (s.modNode k f).viaQueues = s.viaQueues := rfl
@[simp] theorem State.modNode_walkDelay (s : State) (k : Nat) (f : Node → Node) : (s.modNode k f).walkDelay = s.walkDelay := rfl
@[simp] theorem State.modNode_capEvery (s : State) (k : Nat) (f : Node → Node) : (s.modNode k f).capEvery = s.capEvery := rfl
@[simp] theorem State.modNode_filterDie (s : State) (k : Nat) (f : Node → Node) : (s.modNode k f).filterDie = s.filterDie := rfl
@[simp] theorem State.modNode_hostRsvCfg (s : State) (k : Nat) (f : Node → Node) : (s.modNode k f).hostRsvCfg = s.hostRsvCfg := rfl
@[simp] theorem State.modNode_agenda (s : State) (k : Nat) (f : Node → Node) : (s.modNode k f).agenda = s.agenda := rfl
@[simp] theorem State.modPort_clock (s : State) (k : Nat) (f : Port → Port) : (s.modPort k f).clock = s.clock := rfl
@[simp] theorem State.modPort_regs (s : State) (k : Nat) (f : Port → Port) : (s.modPort k f).regs = s.regs := rfl
@[simp] theorem State.modPort_contexts (s : State) (k : Nat) (f : Port → Port) : (s.modPort k f).contexts = s.contexts := rfl
@[simp] theorem State.modPort_queues (s : State) (k : Nat) (f : Port → Port) : (s.modPort k f).queues = s.queues := rfl
@[simp] theorem State.modPort_grids (s : State) (k : Nat) (f : Port → Port) : (s.modPort k f).grids = s.grids := rfl
@[simp] theorem State.modPort_teams (s : State) (k : Nat) (f : Port → Port) : (s.modPort k f).teams = s.teams := rfl
@[simp] theorem State.modPort_cores (s : State) (k : Nat) (f : Port → Port) : (s.modPort k f).cores = s.cores := rfl
@[simp] theorem State.modPort_dies (s : State) (k : Nat) (f : Port → Port) : (s.modPort k f).dies = s.dies := rfl
@[simp] theorem State.modPort_walks (s : State) (k : Nat) (f : Port → Port) : (s.modPort k f).walks = s.walks := rfl
@[simp] theorem State.modPort_nonLeaf (s : State) (k : Nat) (f : Port → Port) : (s.modPort k f).nonLeaf = s.nonLeaf := rfl
@[simp] theorem State.modPort_mem (s : State) (k : Nat) (f : Port → Port) : (s.modPort k f).mem = s.mem := rfl
@[simp] theorem State.modPort_frames (s : State) (k : Nat) (f : Port → Port) : (s.modPort k f).frames = s.frames := rfl
@[simp] theorem State.modPort_poison (s : State) (k : Nat) (f : Port → Port) : (s.modPort k f).poison = s.poison := rfl
@[simp] theorem State.modPort_hostPoison (s : State) (k : Nat) (f : Port → Port) : (s.modPort k f).hostPoison = s.hostPoison := rfl
@[simp] theorem State.modPort_badWords (s : State) (k : Nat) (f : Port → Port) : (s.modPort k f).badWords = s.badWords := rfl
@[simp] theorem State.modPort_softWords (s : State) (k : Nat) (f : Port → Port) : (s.modPort k f).softWords = s.softWords := rfl
@[simp] theorem State.modPort_pageReqs (s : State) (k : Nat) (f : Port → Port) : (s.modPort k f).pageReqs = s.pageReqs := rfl
@[simp] theorem State.modPort_prqList (s : State) (k : Nat) (f : Port → Port) : (s.modPort k f).prqList = s.prqList := rfl
@[simp] theorem State.modPort_prqOwed (s : State) (k : Nat) (f : Port → Port) : (s.modPort k f).prqOwed = s.prqOwed := rfl
@[simp] theorem State.modPort_cmds (s : State) (k : Nat) (f : Port → Port) : (s.modPort k f).cmds = s.cmds := rfl
@[simp] theorem State.modPort_proxies (s : State) (k : Nat) (f : Port → Port) : (s.modPort k f).proxies = s.proxies := rfl
@[simp] theorem State.modPort_llc (s : State) (k : Nat) (f : Port → Port) : (s.modPort k f).llc = s.llc := rfl
@[simp] theorem State.modPort_outside (s : State) (k : Nat) (f : Port → Port) : (s.modPort k f).outside = s.outside := rfl
@[simp] theorem State.modPort_agents (s : State) (k : Nat) (f : Port → Port) : (s.modPort k f).agents = s.agents := rfl
@[simp] theorem State.modPort_rounds (s : State) (k : Nat) (f : Port → Port) : (s.modPort k f).rounds = s.rounds := rfl
@[simp] theorem State.modPort_counts (s : State) (k : Nat) (f : Port → Port) : (s.modPort k f).counts = s.counts := rfl
@[simp] theorem State.modPort_vfs (s : State) (k : Nat) (f : Port → Port) : (s.modPort k f).vfs = s.vfs := rfl
@[simp] theorem State.modPort_vfWaits (s : State) (k : Nat) (f : Port → Port) : (s.modPort k f).vfWaits = s.vfWaits := rfl
@[simp] theorem State.modPort_nodePend (s : State) (k : Nat) (f : Port → Port) : (s.modPort k f).nodePend = s.nodePend := rfl
@[simp] theorem State.modPort_pgPend (s : State) (k : Nat) (f : Port → Port) : (s.modPort k f).pgPend = s.pgPend := rfl
@[simp] theorem State.modPort_mhPend (s : State) (k : Nat) (f : Port → Port) : (s.modPort k f).mhPend = s.mhPend := rfl
@[simp] theorem State.modPort_ywPend (s : State) (k : Nat) (f : Port → Port) : (s.modPort k f).ywPend = s.ywPend := rfl
@[simp] theorem State.modPort_ctxPend (s : State) (k : Nat) (f : Port → Port) : (s.modPort k f).ctxPend = s.ctxPend := rfl
@[simp] theorem State.modPort_nodes (s : State) (k : Nat) (f : Port → Port) : (s.modPort k f).nodes = s.nodes := rfl
@[simp] theorem State.modPort_ideStreams (s : State) (k : Nat) (f : Port → Port) : (s.modPort k f).ideStreams = s.ideStreams := rfl
@[simp] theorem State.modPort_measured (s : State) (k : Nat) (f : Port → Port) : (s.modPort k f).measured = s.measured := rfl
@[simp] theorem State.modPort_boot (s : State) (k : Nat) (f : Port → Port) : (s.modPort k f).boot = s.boot := rfl
@[simp] theorem State.modPort_scan (s : State) (k : Nat) (f : Port → Port) : (s.modPort k f).scan = s.scan := rfl
@[simp] theorem State.modPort_capWindow (s : State) (k : Nat) (f : Port → Port) : (s.modPort k f).capWindow = s.capWindow := rfl
@[simp] theorem State.modPort_out (s : State) (k : Nat) (f : Port → Port) : (s.modPort k f).out = s.out := rfl
@[simp] theorem State.modPort_issue (s : State) (k : Nat) (f : Port → Port) : (s.modPort k f).issue = s.issue := rfl
@[simp] theorem State.modPort_lits (s : State) (k : Nat) (f : Port → Port) : (s.modPort k f).lits = s.lits := rfl
@[simp] theorem State.modPort_fresh (s : State) (k : Nat) (f : Port → Port) : (s.modPort k f).fresh = s.fresh := rfl
@[simp] theorem State.modPort_lastQueue (s : State) (k : Nat) (f : Port → Port) : (s.modPort k f).lastQueue = s.lastQueue := rfl
@[simp] theorem State.modPort_lastCtxQueue (s : State) (k : Nat) (f : Port → Port) : (s.modPort k f).lastCtxQueue = s.lastCtxQueue := rfl
@[simp] theorem State.modPort_lastOwner (s : State) (k : Nat) (f : Port → Port) : (s.modPort k f).lastOwner = s.lastOwner := rfl
@[simp] theorem State.modPort_arrivalDelay (s : State) (k : Nat) (f : Port → Port) : (s.modPort k f).arrivalDelay = s.arrivalDelay := rfl
@[simp] theorem State.modPort_viaQueues (s : State) (k : Nat) (f : Port → Port) : (s.modPort k f).viaQueues = s.viaQueues := rfl
@[simp] theorem State.modPort_walkDelay (s : State) (k : Nat) (f : Port → Port) : (s.modPort k f).walkDelay = s.walkDelay := rfl
@[simp] theorem State.modPort_capEvery (s : State) (k : Nat) (f : Port → Port) : (s.modPort k f).capEvery = s.capEvery := rfl
@[simp] theorem State.modPort_filterDie (s : State) (k : Nat) (f : Port → Port) : (s.modPort k f).filterDie = s.filterDie := rfl
@[simp] theorem State.modPort_hostRsvCfg (s : State) (k : Nat) (f : Port → Port) : (s.modPort k f).hostRsvCfg = s.hostRsvCfg := rfl
@[simp] theorem State.modPort_agenda (s : State) (k : Nat) (f : Port → Port) : (s.modPort k f).agenda = s.agenda := rfl
@[simp] theorem State.modVf_clock (s : State) (k : Nat) (f : Vf → Vf) : (s.modVf k f).clock = s.clock := rfl
@[simp] theorem State.modVf_regs (s : State) (k : Nat) (f : Vf → Vf) : (s.modVf k f).regs = s.regs := rfl
@[simp] theorem State.modVf_contexts (s : State) (k : Nat) (f : Vf → Vf) : (s.modVf k f).contexts = s.contexts := rfl
@[simp] theorem State.modVf_queues (s : State) (k : Nat) (f : Vf → Vf) : (s.modVf k f).queues = s.queues := rfl
@[simp] theorem State.modVf_grids (s : State) (k : Nat) (f : Vf → Vf) : (s.modVf k f).grids = s.grids := rfl
@[simp] theorem State.modVf_teams (s : State) (k : Nat) (f : Vf → Vf) : (s.modVf k f).teams = s.teams := rfl
@[simp] theorem State.modVf_cores (s : State) (k : Nat) (f : Vf → Vf) : (s.modVf k f).cores = s.cores := rfl
@[simp] theorem State.modVf_dies (s : State) (k : Nat) (f : Vf → Vf) : (s.modVf k f).dies = s.dies := rfl
@[simp] theorem State.modVf_walks (s : State) (k : Nat) (f : Vf → Vf) : (s.modVf k f).walks = s.walks := rfl
@[simp] theorem State.modVf_nonLeaf (s : State) (k : Nat) (f : Vf → Vf) : (s.modVf k f).nonLeaf = s.nonLeaf := rfl
@[simp] theorem State.modVf_mem (s : State) (k : Nat) (f : Vf → Vf) : (s.modVf k f).mem = s.mem := rfl
@[simp] theorem State.modVf_frames (s : State) (k : Nat) (f : Vf → Vf) : (s.modVf k f).frames = s.frames := rfl
@[simp] theorem State.modVf_poison (s : State) (k : Nat) (f : Vf → Vf) : (s.modVf k f).poison = s.poison := rfl
@[simp] theorem State.modVf_hostPoison (s : State) (k : Nat) (f : Vf → Vf) : (s.modVf k f).hostPoison = s.hostPoison := rfl
@[simp] theorem State.modVf_badWords (s : State) (k : Nat) (f : Vf → Vf) : (s.modVf k f).badWords = s.badWords := rfl
@[simp] theorem State.modVf_softWords (s : State) (k : Nat) (f : Vf → Vf) : (s.modVf k f).softWords = s.softWords := rfl
@[simp] theorem State.modVf_pageReqs (s : State) (k : Nat) (f : Vf → Vf) : (s.modVf k f).pageReqs = s.pageReqs := rfl
@[simp] theorem State.modVf_prqList (s : State) (k : Nat) (f : Vf → Vf) : (s.modVf k f).prqList = s.prqList := rfl
@[simp] theorem State.modVf_prqOwed (s : State) (k : Nat) (f : Vf → Vf) : (s.modVf k f).prqOwed = s.prqOwed := rfl
@[simp] theorem State.modVf_cmds (s : State) (k : Nat) (f : Vf → Vf) : (s.modVf k f).cmds = s.cmds := rfl
@[simp] theorem State.modVf_proxies (s : State) (k : Nat) (f : Vf → Vf) : (s.modVf k f).proxies = s.proxies := rfl
@[simp] theorem State.modVf_llc (s : State) (k : Nat) (f : Vf → Vf) : (s.modVf k f).llc = s.llc := rfl
@[simp] theorem State.modVf_outside (s : State) (k : Nat) (f : Vf → Vf) : (s.modVf k f).outside = s.outside := rfl
@[simp] theorem State.modVf_agents (s : State) (k : Nat) (f : Vf → Vf) : (s.modVf k f).agents = s.agents := rfl
@[simp] theorem State.modVf_rounds (s : State) (k : Nat) (f : Vf → Vf) : (s.modVf k f).rounds = s.rounds := rfl
@[simp] theorem State.modVf_counts (s : State) (k : Nat) (f : Vf → Vf) : (s.modVf k f).counts = s.counts := rfl
@[simp] theorem State.modVf_vfWaits (s : State) (k : Nat) (f : Vf → Vf) : (s.modVf k f).vfWaits = s.vfWaits := rfl
@[simp] theorem State.modVf_nodePend (s : State) (k : Nat) (f : Vf → Vf) : (s.modVf k f).nodePend = s.nodePend := rfl
@[simp] theorem State.modVf_pgPend (s : State) (k : Nat) (f : Vf → Vf) : (s.modVf k f).pgPend = s.pgPend := rfl
@[simp] theorem State.modVf_mhPend (s : State) (k : Nat) (f : Vf → Vf) : (s.modVf k f).mhPend = s.mhPend := rfl
@[simp] theorem State.modVf_ywPend (s : State) (k : Nat) (f : Vf → Vf) : (s.modVf k f).ywPend = s.ywPend := rfl
@[simp] theorem State.modVf_ctxPend (s : State) (k : Nat) (f : Vf → Vf) : (s.modVf k f).ctxPend = s.ctxPend := rfl
@[simp] theorem State.modVf_ports (s : State) (k : Nat) (f : Vf → Vf) : (s.modVf k f).ports = s.ports := rfl
@[simp] theorem State.modVf_nodes (s : State) (k : Nat) (f : Vf → Vf) : (s.modVf k f).nodes = s.nodes := rfl
@[simp] theorem State.modVf_ideStreams (s : State) (k : Nat) (f : Vf → Vf) : (s.modVf k f).ideStreams = s.ideStreams := rfl
@[simp] theorem State.modVf_measured (s : State) (k : Nat) (f : Vf → Vf) : (s.modVf k f).measured = s.measured := rfl
@[simp] theorem State.modVf_boot (s : State) (k : Nat) (f : Vf → Vf) : (s.modVf k f).boot = s.boot := rfl
@[simp] theorem State.modVf_scan (s : State) (k : Nat) (f : Vf → Vf) : (s.modVf k f).scan = s.scan := rfl
@[simp] theorem State.modVf_capWindow (s : State) (k : Nat) (f : Vf → Vf) : (s.modVf k f).capWindow = s.capWindow := rfl
@[simp] theorem State.modVf_out (s : State) (k : Nat) (f : Vf → Vf) : (s.modVf k f).out = s.out := rfl
@[simp] theorem State.modVf_issue (s : State) (k : Nat) (f : Vf → Vf) : (s.modVf k f).issue = s.issue := rfl
@[simp] theorem State.modVf_lits (s : State) (k : Nat) (f : Vf → Vf) : (s.modVf k f).lits = s.lits := rfl
@[simp] theorem State.modVf_fresh (s : State) (k : Nat) (f : Vf → Vf) : (s.modVf k f).fresh = s.fresh := rfl
@[simp] theorem State.modVf_lastQueue (s : State) (k : Nat) (f : Vf → Vf) : (s.modVf k f).lastQueue = s.lastQueue := rfl
@[simp] theorem State.modVf_lastCtxQueue (s : State) (k : Nat) (f : Vf → Vf) : (s.modVf k f).lastCtxQueue = s.lastCtxQueue := rfl
@[simp] theorem State.modVf_lastOwner (s : State) (k : Nat) (f : Vf → Vf) : (s.modVf k f).lastOwner = s.lastOwner := rfl
@[simp] theorem State.modVf_arrivalDelay (s : State) (k : Nat) (f : Vf → Vf) : (s.modVf k f).arrivalDelay = s.arrivalDelay := rfl
@[simp] theorem State.modVf_viaQueues (s : State) (k : Nat) (f : Vf → Vf) : (s.modVf k f).viaQueues = s.viaQueues := rfl
@[simp] theorem State.modVf_walkDelay (s : State) (k : Nat) (f : Vf → Vf) : (s.modVf k f).walkDelay = s.walkDelay := rfl
@[simp] theorem State.modVf_capEvery (s : State) (k : Nat) (f : Vf → Vf) : (s.modVf k f).capEvery = s.capEvery := rfl
@[simp] theorem State.modVf_filterDie (s : State) (k : Nat) (f : Vf → Vf) : (s.modVf k f).filterDie = s.filterDie := rfl
@[simp] theorem State.modVf_hostRsvCfg (s : State) (k : Nat) (f : Vf → Vf) : (s.modVf k f).hostRsvCfg = s.hostRsvCfg := rfl
@[simp] theorem State.modVf_agenda (s : State) (k : Nat) (f : Vf → Vf) : (s.modVf k f).agenda = s.agenda := rfl
@[simp] theorem State.modRegs_clock (s : State) (f : HostRegs → HostRegs) : (s.modRegs f).clock = s.clock := rfl
@[simp] theorem State.modRegs_contexts (s : State) (f : HostRegs → HostRegs) : (s.modRegs f).contexts = s.contexts := rfl
@[simp] theorem State.modRegs_queues (s : State) (f : HostRegs → HostRegs) : (s.modRegs f).queues = s.queues := rfl
@[simp] theorem State.modRegs_grids (s : State) (f : HostRegs → HostRegs) : (s.modRegs f).grids = s.grids := rfl
@[simp] theorem State.modRegs_teams (s : State) (f : HostRegs → HostRegs) : (s.modRegs f).teams = s.teams := rfl
@[simp] theorem State.modRegs_cores (s : State) (f : HostRegs → HostRegs) : (s.modRegs f).cores = s.cores := rfl
@[simp] theorem State.modRegs_dies (s : State) (f : HostRegs → HostRegs) : (s.modRegs f).dies = s.dies := rfl
@[simp] theorem State.modRegs_walks (s : State) (f : HostRegs → HostRegs) : (s.modRegs f).walks = s.walks := rfl
@[simp] theorem State.modRegs_nonLeaf (s : State) (f : HostRegs → HostRegs) : (s.modRegs f).nonLeaf = s.nonLeaf := rfl
@[simp] theorem State.modRegs_mem (s : State) (f : HostRegs → HostRegs) : (s.modRegs f).mem = s.mem := rfl
@[simp] theorem State.modRegs_frames (s : State) (f : HostRegs → HostRegs) : (s.modRegs f).frames = s.frames := rfl
@[simp] theorem State.modRegs_poison (s : State) (f : HostRegs → HostRegs) : (s.modRegs f).poison = s.poison := rfl
@[simp] theorem State.modRegs_hostPoison (s : State) (f : HostRegs → HostRegs) : (s.modRegs f).hostPoison = s.hostPoison := rfl
@[simp] theorem State.modRegs_badWords (s : State) (f : HostRegs → HostRegs) : (s.modRegs f).badWords = s.badWords := rfl
@[simp] theorem State.modRegs_softWords (s : State) (f : HostRegs → HostRegs) : (s.modRegs f).softWords = s.softWords := rfl
@[simp] theorem State.modRegs_pageReqs (s : State) (f : HostRegs → HostRegs) : (s.modRegs f).pageReqs = s.pageReqs := rfl
@[simp] theorem State.modRegs_prqList (s : State) (f : HostRegs → HostRegs) : (s.modRegs f).prqList = s.prqList := rfl
@[simp] theorem State.modRegs_prqOwed (s : State) (f : HostRegs → HostRegs) : (s.modRegs f).prqOwed = s.prqOwed := rfl
@[simp] theorem State.modRegs_cmds (s : State) (f : HostRegs → HostRegs) : (s.modRegs f).cmds = s.cmds := rfl
@[simp] theorem State.modRegs_proxies (s : State) (f : HostRegs → HostRegs) : (s.modRegs f).proxies = s.proxies := rfl
@[simp] theorem State.modRegs_llc (s : State) (f : HostRegs → HostRegs) : (s.modRegs f).llc = s.llc := rfl
@[simp] theorem State.modRegs_outside (s : State) (f : HostRegs → HostRegs) : (s.modRegs f).outside = s.outside := rfl
@[simp] theorem State.modRegs_agents (s : State) (f : HostRegs → HostRegs) : (s.modRegs f).agents = s.agents := rfl
@[simp] theorem State.modRegs_rounds (s : State) (f : HostRegs → HostRegs) : (s.modRegs f).rounds = s.rounds := rfl
@[simp] theorem State.modRegs_counts (s : State) (f : HostRegs → HostRegs) : (s.modRegs f).counts = s.counts := rfl
@[simp] theorem State.modRegs_vfs (s : State) (f : HostRegs → HostRegs) : (s.modRegs f).vfs = s.vfs := rfl
@[simp] theorem State.modRegs_vfWaits (s : State) (f : HostRegs → HostRegs) : (s.modRegs f).vfWaits = s.vfWaits := rfl
@[simp] theorem State.modRegs_nodePend (s : State) (f : HostRegs → HostRegs) : (s.modRegs f).nodePend = s.nodePend := rfl
@[simp] theorem State.modRegs_pgPend (s : State) (f : HostRegs → HostRegs) : (s.modRegs f).pgPend = s.pgPend := rfl
@[simp] theorem State.modRegs_mhPend (s : State) (f : HostRegs → HostRegs) : (s.modRegs f).mhPend = s.mhPend := rfl
@[simp] theorem State.modRegs_ywPend (s : State) (f : HostRegs → HostRegs) : (s.modRegs f).ywPend = s.ywPend := rfl
@[simp] theorem State.modRegs_ctxPend (s : State) (f : HostRegs → HostRegs) : (s.modRegs f).ctxPend = s.ctxPend := rfl
@[simp] theorem State.modRegs_ports (s : State) (f : HostRegs → HostRegs) : (s.modRegs f).ports = s.ports := rfl
@[simp] theorem State.modRegs_nodes (s : State) (f : HostRegs → HostRegs) : (s.modRegs f).nodes = s.nodes := rfl
@[simp] theorem State.modRegs_ideStreams (s : State) (f : HostRegs → HostRegs) : (s.modRegs f).ideStreams = s.ideStreams := rfl
@[simp] theorem State.modRegs_measured (s : State) (f : HostRegs → HostRegs) : (s.modRegs f).measured = s.measured := rfl
@[simp] theorem State.modRegs_boot (s : State) (f : HostRegs → HostRegs) : (s.modRegs f).boot = s.boot := rfl
@[simp] theorem State.modRegs_scan (s : State) (f : HostRegs → HostRegs) : (s.modRegs f).scan = s.scan := rfl
@[simp] theorem State.modRegs_capWindow (s : State) (f : HostRegs → HostRegs) : (s.modRegs f).capWindow = s.capWindow := rfl
@[simp] theorem State.modRegs_out (s : State) (f : HostRegs → HostRegs) : (s.modRegs f).out = s.out := rfl
@[simp] theorem State.modRegs_issue (s : State) (f : HostRegs → HostRegs) : (s.modRegs f).issue = s.issue := rfl
@[simp] theorem State.modRegs_lits (s : State) (f : HostRegs → HostRegs) : (s.modRegs f).lits = s.lits := rfl
@[simp] theorem State.modRegs_fresh (s : State) (f : HostRegs → HostRegs) : (s.modRegs f).fresh = s.fresh := rfl
@[simp] theorem State.modRegs_lastQueue (s : State) (f : HostRegs → HostRegs) : (s.modRegs f).lastQueue = s.lastQueue := rfl
@[simp] theorem State.modRegs_lastCtxQueue (s : State) (f : HostRegs → HostRegs) : (s.modRegs f).lastCtxQueue = s.lastCtxQueue := rfl
@[simp] theorem State.modRegs_lastOwner (s : State) (f : HostRegs → HostRegs) : (s.modRegs f).lastOwner = s.lastOwner := rfl
@[simp] theorem State.modRegs_arrivalDelay (s : State) (f : HostRegs → HostRegs) : (s.modRegs f).arrivalDelay = s.arrivalDelay := rfl
@[simp] theorem State.modRegs_viaQueues (s : State) (f : HostRegs → HostRegs) : (s.modRegs f).viaQueues = s.viaQueues := rfl
@[simp] theorem State.modRegs_walkDelay (s : State) (f : HostRegs → HostRegs) : (s.modRegs f).walkDelay = s.walkDelay := rfl
@[simp] theorem State.modRegs_capEvery (s : State) (f : HostRegs → HostRegs) : (s.modRegs f).capEvery = s.capEvery := rfl
@[simp] theorem State.modRegs_filterDie (s : State) (f : HostRegs → HostRegs) : (s.modRegs f).filterDie = s.filterDie := rfl
@[simp] theorem State.modRegs_hostRsvCfg (s : State) (f : HostRegs → HostRegs) : (s.modRegs f).hostRsvCfg = s.hostRsvCfg := rfl
@[simp] theorem State.modRegs_agenda (s : State) (f : HostRegs → HostRegs) : (s.modRegs f).agenda = s.agenda := rfl
@[simp] theorem State.modGrid_clock (s : State) (x : Nat) (g : Word) (f : Grid → Grid) : (s.modGrid x g f).clock = s.clock := rfl
@[simp] theorem State.modGrid_regs (s : State) (x : Nat) (g : Word) (f : Grid → Grid) : (s.modGrid x g f).regs = s.regs := rfl
@[simp] theorem State.modGrid_contexts (s : State) (x : Nat) (g : Word) (f : Grid → Grid) : (s.modGrid x g f).contexts = s.contexts := rfl
@[simp] theorem State.modGrid_queues (s : State) (x : Nat) (g : Word) (f : Grid → Grid) : (s.modGrid x g f).queues = s.queues := rfl
@[simp] theorem State.modGrid_teams (s : State) (x : Nat) (g : Word) (f : Grid → Grid) : (s.modGrid x g f).teams = s.teams := rfl
@[simp] theorem State.modGrid_cores (s : State) (x : Nat) (g : Word) (f : Grid → Grid) : (s.modGrid x g f).cores = s.cores := rfl
@[simp] theorem State.modGrid_dies (s : State) (x : Nat) (g : Word) (f : Grid → Grid) : (s.modGrid x g f).dies = s.dies := rfl
@[simp] theorem State.modGrid_walks (s : State) (x : Nat) (g : Word) (f : Grid → Grid) : (s.modGrid x g f).walks = s.walks := rfl
@[simp] theorem State.modGrid_nonLeaf (s : State) (x : Nat) (g : Word) (f : Grid → Grid) : (s.modGrid x g f).nonLeaf = s.nonLeaf := rfl
@[simp] theorem State.modGrid_mem (s : State) (x : Nat) (g : Word) (f : Grid → Grid) : (s.modGrid x g f).mem = s.mem := rfl
@[simp] theorem State.modGrid_frames (s : State) (x : Nat) (g : Word) (f : Grid → Grid) : (s.modGrid x g f).frames = s.frames := rfl
@[simp] theorem State.modGrid_poison (s : State) (x : Nat) (g : Word) (f : Grid → Grid) : (s.modGrid x g f).poison = s.poison := rfl
@[simp] theorem State.modGrid_hostPoison (s : State) (x : Nat) (g : Word) (f : Grid → Grid) : (s.modGrid x g f).hostPoison = s.hostPoison := rfl
@[simp] theorem State.modGrid_badWords (s : State) (x : Nat) (g : Word) (f : Grid → Grid) : (s.modGrid x g f).badWords = s.badWords := rfl
@[simp] theorem State.modGrid_softWords (s : State) (x : Nat) (g : Word) (f : Grid → Grid) : (s.modGrid x g f).softWords = s.softWords := rfl
@[simp] theorem State.modGrid_pageReqs (s : State) (x : Nat) (g : Word) (f : Grid → Grid) : (s.modGrid x g f).pageReqs = s.pageReqs := rfl
@[simp] theorem State.modGrid_prqList (s : State) (x : Nat) (g : Word) (f : Grid → Grid) : (s.modGrid x g f).prqList = s.prqList := rfl
@[simp] theorem State.modGrid_prqOwed (s : State) (x : Nat) (g : Word) (f : Grid → Grid) : (s.modGrid x g f).prqOwed = s.prqOwed := rfl
@[simp] theorem State.modGrid_cmds (s : State) (x : Nat) (g : Word) (f : Grid → Grid) : (s.modGrid x g f).cmds = s.cmds := rfl
@[simp] theorem State.modGrid_proxies (s : State) (x : Nat) (g : Word) (f : Grid → Grid) : (s.modGrid x g f).proxies = s.proxies := rfl
@[simp] theorem State.modGrid_llc (s : State) (x : Nat) (g : Word) (f : Grid → Grid) : (s.modGrid x g f).llc = s.llc := rfl
@[simp] theorem State.modGrid_outside (s : State) (x : Nat) (g : Word) (f : Grid → Grid) : (s.modGrid x g f).outside = s.outside := rfl
@[simp] theorem State.modGrid_agents (s : State) (x : Nat) (g : Word) (f : Grid → Grid) : (s.modGrid x g f).agents = s.agents := rfl
@[simp] theorem State.modGrid_rounds (s : State) (x : Nat) (g : Word) (f : Grid → Grid) : (s.modGrid x g f).rounds = s.rounds := rfl
@[simp] theorem State.modGrid_counts (s : State) (x : Nat) (g : Word) (f : Grid → Grid) : (s.modGrid x g f).counts = s.counts := rfl
@[simp] theorem State.modGrid_vfs (s : State) (x : Nat) (g : Word) (f : Grid → Grid) : (s.modGrid x g f).vfs = s.vfs := rfl
@[simp] theorem State.modGrid_vfWaits (s : State) (x : Nat) (g : Word) (f : Grid → Grid) : (s.modGrid x g f).vfWaits = s.vfWaits := rfl
@[simp] theorem State.modGrid_nodePend (s : State) (x : Nat) (g : Word) (f : Grid → Grid) : (s.modGrid x g f).nodePend = s.nodePend := rfl
@[simp] theorem State.modGrid_pgPend (s : State) (x : Nat) (g : Word) (f : Grid → Grid) : (s.modGrid x g f).pgPend = s.pgPend := rfl
@[simp] theorem State.modGrid_mhPend (s : State) (x : Nat) (g : Word) (f : Grid → Grid) : (s.modGrid x g f).mhPend = s.mhPend := rfl
@[simp] theorem State.modGrid_ywPend (s : State) (x : Nat) (g : Word) (f : Grid → Grid) : (s.modGrid x g f).ywPend = s.ywPend := rfl
@[simp] theorem State.modGrid_ctxPend (s : State) (x : Nat) (g : Word) (f : Grid → Grid) : (s.modGrid x g f).ctxPend = s.ctxPend := rfl
@[simp] theorem State.modGrid_ports (s : State) (x : Nat) (g : Word) (f : Grid → Grid) : (s.modGrid x g f).ports = s.ports := rfl
@[simp] theorem State.modGrid_nodes (s : State) (x : Nat) (g : Word) (f : Grid → Grid) : (s.modGrid x g f).nodes = s.nodes := rfl
@[simp] theorem State.modGrid_ideStreams (s : State) (x : Nat) (g : Word) (f : Grid → Grid) : (s.modGrid x g f).ideStreams = s.ideStreams := rfl
@[simp] theorem State.modGrid_measured (s : State) (x : Nat) (g : Word) (f : Grid → Grid) : (s.modGrid x g f).measured = s.measured := rfl
@[simp] theorem State.modGrid_boot (s : State) (x : Nat) (g : Word) (f : Grid → Grid) : (s.modGrid x g f).boot = s.boot := rfl
@[simp] theorem State.modGrid_scan (s : State) (x : Nat) (g : Word) (f : Grid → Grid) : (s.modGrid x g f).scan = s.scan := rfl
@[simp] theorem State.modGrid_capWindow (s : State) (x : Nat) (g : Word) (f : Grid → Grid) : (s.modGrid x g f).capWindow = s.capWindow := rfl
@[simp] theorem State.modGrid_out (s : State) (x : Nat) (g : Word) (f : Grid → Grid) : (s.modGrid x g f).out = s.out := rfl
@[simp] theorem State.modGrid_issue (s : State) (x : Nat) (g : Word) (f : Grid → Grid) : (s.modGrid x g f).issue = s.issue := rfl
@[simp] theorem State.modGrid_lits (s : State) (x : Nat) (g : Word) (f : Grid → Grid) : (s.modGrid x g f).lits = s.lits := rfl
@[simp] theorem State.modGrid_fresh (s : State) (x : Nat) (g : Word) (f : Grid → Grid) : (s.modGrid x g f).fresh = s.fresh := rfl
@[simp] theorem State.modGrid_lastQueue (s : State) (x : Nat) (g : Word) (f : Grid → Grid) : (s.modGrid x g f).lastQueue = s.lastQueue := rfl
@[simp] theorem State.modGrid_lastCtxQueue (s : State) (x : Nat) (g : Word) (f : Grid → Grid) : (s.modGrid x g f).lastCtxQueue = s.lastCtxQueue := rfl
@[simp] theorem State.modGrid_lastOwner (s : State) (x : Nat) (g : Word) (f : Grid → Grid) : (s.modGrid x g f).lastOwner = s.lastOwner := rfl
@[simp] theorem State.modGrid_arrivalDelay (s : State) (x : Nat) (g : Word) (f : Grid → Grid) : (s.modGrid x g f).arrivalDelay = s.arrivalDelay := rfl
@[simp] theorem State.modGrid_viaQueues (s : State) (x : Nat) (g : Word) (f : Grid → Grid) : (s.modGrid x g f).viaQueues = s.viaQueues := rfl
@[simp] theorem State.modGrid_walkDelay (s : State) (x : Nat) (g : Word) (f : Grid → Grid) : (s.modGrid x g f).walkDelay = s.walkDelay := rfl
@[simp] theorem State.modGrid_capEvery (s : State) (x : Nat) (g : Word) (f : Grid → Grid) : (s.modGrid x g f).capEvery = s.capEvery := rfl
@[simp] theorem State.modGrid_filterDie (s : State) (x : Nat) (g : Word) (f : Grid → Grid) : (s.modGrid x g f).filterDie = s.filterDie := rfl
@[simp] theorem State.modGrid_hostRsvCfg (s : State) (x : Nat) (g : Word) (f : Grid → Grid) : (s.modGrid x g f).hostRsvCfg = s.hostRsvCfg := rfl
@[simp] theorem State.modGrid_agenda (s : State) (x : Nat) (g : Word) (f : Grid → Grid) : (s.modGrid x g f).agenda = s.agenda := rfl
@[simp] theorem State.emit_clock (s : State) (o : Out) : (s.emit o).clock = s.clock := rfl
@[simp] theorem State.emit_regs (s : State) (o : Out) : (s.emit o).regs = s.regs := rfl
@[simp] theorem State.emit_contexts (s : State) (o : Out) : (s.emit o).contexts = s.contexts := rfl
@[simp] theorem State.emit_queues (s : State) (o : Out) : (s.emit o).queues = s.queues := rfl
@[simp] theorem State.emit_grids (s : State) (o : Out) : (s.emit o).grids = s.grids := rfl
@[simp] theorem State.emit_teams (s : State) (o : Out) : (s.emit o).teams = s.teams := rfl
@[simp] theorem State.emit_cores (s : State) (o : Out) : (s.emit o).cores = s.cores := rfl
@[simp] theorem State.emit_dies (s : State) (o : Out) : (s.emit o).dies = s.dies := rfl
@[simp] theorem State.emit_walks (s : State) (o : Out) : (s.emit o).walks = s.walks := rfl
@[simp] theorem State.emit_nonLeaf (s : State) (o : Out) : (s.emit o).nonLeaf = s.nonLeaf := rfl
@[simp] theorem State.emit_mem (s : State) (o : Out) : (s.emit o).mem = s.mem := rfl
@[simp] theorem State.emit_frames (s : State) (o : Out) : (s.emit o).frames = s.frames := rfl
@[simp] theorem State.emit_poison (s : State) (o : Out) : (s.emit o).poison = s.poison := rfl
@[simp] theorem State.emit_hostPoison (s : State) (o : Out) : (s.emit o).hostPoison = s.hostPoison := rfl
@[simp] theorem State.emit_badWords (s : State) (o : Out) : (s.emit o).badWords = s.badWords := rfl
@[simp] theorem State.emit_softWords (s : State) (o : Out) : (s.emit o).softWords = s.softWords := rfl
@[simp] theorem State.emit_pageReqs (s : State) (o : Out) : (s.emit o).pageReqs = s.pageReqs := rfl
@[simp] theorem State.emit_prqList (s : State) (o : Out) : (s.emit o).prqList = s.prqList := rfl
@[simp] theorem State.emit_prqOwed (s : State) (o : Out) : (s.emit o).prqOwed = s.prqOwed := rfl
@[simp] theorem State.emit_cmds (s : State) (o : Out) : (s.emit o).cmds = s.cmds := rfl
@[simp] theorem State.emit_proxies (s : State) (o : Out) : (s.emit o).proxies = s.proxies := rfl
@[simp] theorem State.emit_llc (s : State) (o : Out) : (s.emit o).llc = s.llc := rfl
@[simp] theorem State.emit_outside (s : State) (o : Out) : (s.emit o).outside = s.outside := rfl
@[simp] theorem State.emit_agents (s : State) (o : Out) : (s.emit o).agents = s.agents := rfl
@[simp] theorem State.emit_rounds (s : State) (o : Out) : (s.emit o).rounds = s.rounds := rfl
@[simp] theorem State.emit_counts (s : State) (o : Out) : (s.emit o).counts = s.counts := rfl
@[simp] theorem State.emit_vfs (s : State) (o : Out) : (s.emit o).vfs = s.vfs := rfl
@[simp] theorem State.emit_vfWaits (s : State) (o : Out) : (s.emit o).vfWaits = s.vfWaits := rfl
@[simp] theorem State.emit_nodePend (s : State) (o : Out) : (s.emit o).nodePend = s.nodePend := rfl
@[simp] theorem State.emit_pgPend (s : State) (o : Out) : (s.emit o).pgPend = s.pgPend := rfl
@[simp] theorem State.emit_mhPend (s : State) (o : Out) : (s.emit o).mhPend = s.mhPend := rfl
@[simp] theorem State.emit_ywPend (s : State) (o : Out) : (s.emit o).ywPend = s.ywPend := rfl
@[simp] theorem State.emit_ctxPend (s : State) (o : Out) : (s.emit o).ctxPend = s.ctxPend := rfl
@[simp] theorem State.emit_ports (s : State) (o : Out) : (s.emit o).ports = s.ports := rfl
@[simp] theorem State.emit_nodes (s : State) (o : Out) : (s.emit o).nodes = s.nodes := rfl
@[simp] theorem State.emit_ideStreams (s : State) (o : Out) : (s.emit o).ideStreams = s.ideStreams := rfl
@[simp] theorem State.emit_measured (s : State) (o : Out) : (s.emit o).measured = s.measured := rfl
@[simp] theorem State.emit_boot (s : State) (o : Out) : (s.emit o).boot = s.boot := rfl
@[simp] theorem State.emit_scan (s : State) (o : Out) : (s.emit o).scan = s.scan := rfl
@[simp] theorem State.emit_capWindow (s : State) (o : Out) : (s.emit o).capWindow = s.capWindow := rfl
@[simp] theorem State.emit_issue (s : State) (o : Out) : (s.emit o).issue = s.issue := rfl
@[simp] theorem State.emit_lits (s : State) (o : Out) : (s.emit o).lits = s.lits := rfl
@[simp] theorem State.emit_fresh (s : State) (o : Out) : (s.emit o).fresh = s.fresh := rfl
@[simp] theorem State.emit_lastQueue (s : State) (o : Out) : (s.emit o).lastQueue = s.lastQueue := rfl
@[simp] theorem State.emit_lastCtxQueue (s : State) (o : Out) : (s.emit o).lastCtxQueue = s.lastCtxQueue := rfl
@[simp] theorem State.emit_lastOwner (s : State) (o : Out) : (s.emit o).lastOwner = s.lastOwner := rfl
@[simp] theorem State.emit_arrivalDelay (s : State) (o : Out) : (s.emit o).arrivalDelay = s.arrivalDelay := rfl
@[simp] theorem State.emit_viaQueues (s : State) (o : Out) : (s.emit o).viaQueues = s.viaQueues := rfl
@[simp] theorem State.emit_walkDelay (s : State) (o : Out) : (s.emit o).walkDelay = s.walkDelay := rfl
@[simp] theorem State.emit_capEvery (s : State) (o : Out) : (s.emit o).capEvery = s.capEvery := rfl
@[simp] theorem State.emit_filterDie (s : State) (o : Out) : (s.emit o).filterDie = s.filterDie := rfl
@[simp] theorem State.emit_hostRsvCfg (s : State) (o : Out) : (s.emit o).hostRsvCfg = s.hostRsvCfg := rfl
@[simp] theorem State.emit_agenda (s : State) (o : Out) : (s.emit o).agenda = s.agenda := rfl
@[simp] theorem State.modTeam_clock (s : State) (k : Nat) (f : Team → Team) : (s.modTeam k f).clock = s.clock := by
  unfold State.modTeam; split <;> rfl
@[simp] theorem State.modTeam_regs (s : State) (k : Nat) (f : Team → Team) : (s.modTeam k f).regs = s.regs := by
  unfold State.modTeam; split <;> rfl
@[simp] theorem State.modTeam_contexts (s : State) (k : Nat) (f : Team → Team) : (s.modTeam k f).contexts = s.contexts := by
  unfold State.modTeam; split <;> rfl
@[simp] theorem State.modTeam_queues (s : State) (k : Nat) (f : Team → Team) : (s.modTeam k f).queues = s.queues := by
  unfold State.modTeam; split <;> rfl
@[simp] theorem State.modTeam_grids (s : State) (k : Nat) (f : Team → Team) : (s.modTeam k f).grids = s.grids := by
  unfold State.modTeam; split <;> rfl
@[simp] theorem State.modTeam_cores (s : State) (k : Nat) (f : Team → Team) : (s.modTeam k f).cores = s.cores := by
  unfold State.modTeam; split <;> rfl
@[simp] theorem State.modTeam_dies (s : State) (k : Nat) (f : Team → Team) : (s.modTeam k f).dies = s.dies := by
  unfold State.modTeam; split <;> rfl
@[simp] theorem State.modTeam_walks (s : State) (k : Nat) (f : Team → Team) : (s.modTeam k f).walks = s.walks := by
  unfold State.modTeam; split <;> rfl
@[simp] theorem State.modTeam_nonLeaf (s : State) (k : Nat) (f : Team → Team) : (s.modTeam k f).nonLeaf = s.nonLeaf := by
  unfold State.modTeam; split <;> rfl
@[simp] theorem State.modTeam_mem (s : State) (k : Nat) (f : Team → Team) : (s.modTeam k f).mem = s.mem := by
  unfold State.modTeam; split <;> rfl
@[simp] theorem State.modTeam_frames (s : State) (k : Nat) (f : Team → Team) : (s.modTeam k f).frames = s.frames := by
  unfold State.modTeam; split <;> rfl
@[simp] theorem State.modTeam_poison (s : State) (k : Nat) (f : Team → Team) : (s.modTeam k f).poison = s.poison := by
  unfold State.modTeam; split <;> rfl
@[simp] theorem State.modTeam_hostPoison (s : State) (k : Nat) (f : Team → Team) : (s.modTeam k f).hostPoison = s.hostPoison := by
  unfold State.modTeam; split <;> rfl
@[simp] theorem State.modTeam_badWords (s : State) (k : Nat) (f : Team → Team) : (s.modTeam k f).badWords = s.badWords := by
  unfold State.modTeam; split <;> rfl
@[simp] theorem State.modTeam_softWords (s : State) (k : Nat) (f : Team → Team) : (s.modTeam k f).softWords = s.softWords := by
  unfold State.modTeam; split <;> rfl
@[simp] theorem State.modTeam_pageReqs (s : State) (k : Nat) (f : Team → Team) : (s.modTeam k f).pageReqs = s.pageReqs := by
  unfold State.modTeam; split <;> rfl
@[simp] theorem State.modTeam_prqList (s : State) (k : Nat) (f : Team → Team) : (s.modTeam k f).prqList = s.prqList := by
  unfold State.modTeam; split <;> rfl
@[simp] theorem State.modTeam_prqOwed (s : State) (k : Nat) (f : Team → Team) : (s.modTeam k f).prqOwed = s.prqOwed := by
  unfold State.modTeam; split <;> rfl
@[simp] theorem State.modTeam_cmds (s : State) (k : Nat) (f : Team → Team) : (s.modTeam k f).cmds = s.cmds := by
  unfold State.modTeam; split <;> rfl
@[simp] theorem State.modTeam_proxies (s : State) (k : Nat) (f : Team → Team) : (s.modTeam k f).proxies = s.proxies := by
  unfold State.modTeam; split <;> rfl
@[simp] theorem State.modTeam_llc (s : State) (k : Nat) (f : Team → Team) : (s.modTeam k f).llc = s.llc := by
  unfold State.modTeam; split <;> rfl
@[simp] theorem State.modTeam_outside (s : State) (k : Nat) (f : Team → Team) : (s.modTeam k f).outside = s.outside := by
  unfold State.modTeam; split <;> rfl
@[simp] theorem State.modTeam_agents (s : State) (k : Nat) (f : Team → Team) : (s.modTeam k f).agents = s.agents := by
  unfold State.modTeam; split <;> rfl
@[simp] theorem State.modTeam_rounds (s : State) (k : Nat) (f : Team → Team) : (s.modTeam k f).rounds = s.rounds := by
  unfold State.modTeam; split <;> rfl
@[simp] theorem State.modTeam_counts (s : State) (k : Nat) (f : Team → Team) : (s.modTeam k f).counts = s.counts := by
  unfold State.modTeam; split <;> rfl
@[simp] theorem State.modTeam_vfs (s : State) (k : Nat) (f : Team → Team) : (s.modTeam k f).vfs = s.vfs := by
  unfold State.modTeam; split <;> rfl
@[simp] theorem State.modTeam_vfWaits (s : State) (k : Nat) (f : Team → Team) : (s.modTeam k f).vfWaits = s.vfWaits := by
  unfold State.modTeam; split <;> rfl
@[simp] theorem State.modTeam_nodePend (s : State) (k : Nat) (f : Team → Team) : (s.modTeam k f).nodePend = s.nodePend := by
  unfold State.modTeam; split <;> rfl
@[simp] theorem State.modTeam_pgPend (s : State) (k : Nat) (f : Team → Team) : (s.modTeam k f).pgPend = s.pgPend := by
  unfold State.modTeam; split <;> rfl
@[simp] theorem State.modTeam_mhPend (s : State) (k : Nat) (f : Team → Team) : (s.modTeam k f).mhPend = s.mhPend := by
  unfold State.modTeam; split <;> rfl
@[simp] theorem State.modTeam_ywPend (s : State) (k : Nat) (f : Team → Team) : (s.modTeam k f).ywPend = s.ywPend := by
  unfold State.modTeam; split <;> rfl
@[simp] theorem State.modTeam_ctxPend (s : State) (k : Nat) (f : Team → Team) : (s.modTeam k f).ctxPend = s.ctxPend := by
  unfold State.modTeam; split <;> rfl
@[simp] theorem State.modTeam_ports (s : State) (k : Nat) (f : Team → Team) : (s.modTeam k f).ports = s.ports := by
  unfold State.modTeam; split <;> rfl
@[simp] theorem State.modTeam_nodes (s : State) (k : Nat) (f : Team → Team) : (s.modTeam k f).nodes = s.nodes := by
  unfold State.modTeam; split <;> rfl
@[simp] theorem State.modTeam_ideStreams (s : State) (k : Nat) (f : Team → Team) : (s.modTeam k f).ideStreams = s.ideStreams := by
  unfold State.modTeam; split <;> rfl
@[simp] theorem State.modTeam_measured (s : State) (k : Nat) (f : Team → Team) : (s.modTeam k f).measured = s.measured := by
  unfold State.modTeam; split <;> rfl
@[simp] theorem State.modTeam_boot (s : State) (k : Nat) (f : Team → Team) : (s.modTeam k f).boot = s.boot := by
  unfold State.modTeam; split <;> rfl
@[simp] theorem State.modTeam_scan (s : State) (k : Nat) (f : Team → Team) : (s.modTeam k f).scan = s.scan := by
  unfold State.modTeam; split <;> rfl
@[simp] theorem State.modTeam_capWindow (s : State) (k : Nat) (f : Team → Team) : (s.modTeam k f).capWindow = s.capWindow := by
  unfold State.modTeam; split <;> rfl
@[simp] theorem State.modTeam_out (s : State) (k : Nat) (f : Team → Team) : (s.modTeam k f).out = s.out := by
  unfold State.modTeam; split <;> rfl
@[simp] theorem State.modTeam_issue (s : State) (k : Nat) (f : Team → Team) : (s.modTeam k f).issue = s.issue := by
  unfold State.modTeam; split <;> rfl
@[simp] theorem State.modTeam_lits (s : State) (k : Nat) (f : Team → Team) : (s.modTeam k f).lits = s.lits := by
  unfold State.modTeam; split <;> rfl
@[simp] theorem State.modTeam_fresh (s : State) (k : Nat) (f : Team → Team) : (s.modTeam k f).fresh = s.fresh := by
  unfold State.modTeam; split <;> rfl
@[simp] theorem State.modTeam_lastQueue (s : State) (k : Nat) (f : Team → Team) : (s.modTeam k f).lastQueue = s.lastQueue := by
  unfold State.modTeam; split <;> rfl
@[simp] theorem State.modTeam_lastCtxQueue (s : State) (k : Nat) (f : Team → Team) : (s.modTeam k f).lastCtxQueue = s.lastCtxQueue := by
  unfold State.modTeam; split <;> rfl
@[simp] theorem State.modTeam_lastOwner (s : State) (k : Nat) (f : Team → Team) : (s.modTeam k f).lastOwner = s.lastOwner := by
  unfold State.modTeam; split <;> rfl
@[simp] theorem State.modTeam_arrivalDelay (s : State) (k : Nat) (f : Team → Team) : (s.modTeam k f).arrivalDelay = s.arrivalDelay := by
  unfold State.modTeam; split <;> rfl
@[simp] theorem State.modTeam_viaQueues (s : State) (k : Nat) (f : Team → Team) : (s.modTeam k f).viaQueues = s.viaQueues := by
  unfold State.modTeam; split <;> rfl
@[simp] theorem State.modTeam_walkDelay (s : State) (k : Nat) (f : Team → Team) : (s.modTeam k f).walkDelay = s.walkDelay := by
  unfold State.modTeam; split <;> rfl
@[simp] theorem State.modTeam_capEvery (s : State) (k : Nat) (f : Team → Team) : (s.modTeam k f).capEvery = s.capEvery := by
  unfold State.modTeam; split <;> rfl
@[simp] theorem State.modTeam_filterDie (s : State) (k : Nat) (f : Team → Team) : (s.modTeam k f).filterDie = s.filterDie := by
  unfold State.modTeam; split <;> rfl
@[simp] theorem State.modTeam_hostRsvCfg (s : State) (k : Nat) (f : Team → Team) : (s.modTeam k f).hostRsvCfg = s.hostRsvCfg := by
  unfold State.modTeam; split <;> rfl
@[simp] theorem State.modTeam_agenda (s : State) (k : Nat) (f : Team → Team) : (s.modTeam k f).agenda = s.agenda := by
  unfold State.modTeam; split <;> rfl
@[simp] theorem State.modThread_clock (s : State) (k i : Nat) (f : Thread → Thread) : (s.modThread k i f).clock = s.clock := State.modTeam_clock _ _ _
@[simp] theorem State.modThread_regs (s : State) (k i : Nat) (f : Thread → Thread) : (s.modThread k i f).regs = s.regs := State.modTeam_regs _ _ _
@[simp] theorem State.modThread_contexts (s : State) (k i : Nat) (f : Thread → Thread) : (s.modThread k i f).contexts = s.contexts := State.modTeam_contexts _ _ _
@[simp] theorem State.modThread_queues (s : State) (k i : Nat) (f : Thread → Thread) : (s.modThread k i f).queues = s.queues := State.modTeam_queues _ _ _
@[simp] theorem State.modThread_grids (s : State) (k i : Nat) (f : Thread → Thread) : (s.modThread k i f).grids = s.grids := State.modTeam_grids _ _ _
@[simp] theorem State.modThread_cores (s : State) (k i : Nat) (f : Thread → Thread) : (s.modThread k i f).cores = s.cores := State.modTeam_cores _ _ _
@[simp] theorem State.modThread_dies (s : State) (k i : Nat) (f : Thread → Thread) : (s.modThread k i f).dies = s.dies := State.modTeam_dies _ _ _
@[simp] theorem State.modThread_walks (s : State) (k i : Nat) (f : Thread → Thread) : (s.modThread k i f).walks = s.walks := State.modTeam_walks _ _ _
@[simp] theorem State.modThread_nonLeaf (s : State) (k i : Nat) (f : Thread → Thread) : (s.modThread k i f).nonLeaf = s.nonLeaf := State.modTeam_nonLeaf _ _ _
@[simp] theorem State.modThread_mem (s : State) (k i : Nat) (f : Thread → Thread) : (s.modThread k i f).mem = s.mem := State.modTeam_mem _ _ _
@[simp] theorem State.modThread_frames (s : State) (k i : Nat) (f : Thread → Thread) : (s.modThread k i f).frames = s.frames := State.modTeam_frames _ _ _
@[simp] theorem State.modThread_poison (s : State) (k i : Nat) (f : Thread → Thread) : (s.modThread k i f).poison = s.poison := State.modTeam_poison _ _ _
@[simp] theorem State.modThread_hostPoison (s : State) (k i : Nat) (f : Thread → Thread) : (s.modThread k i f).hostPoison = s.hostPoison := State.modTeam_hostPoison _ _ _
@[simp] theorem State.modThread_badWords (s : State) (k i : Nat) (f : Thread → Thread) : (s.modThread k i f).badWords = s.badWords := State.modTeam_badWords _ _ _
@[simp] theorem State.modThread_softWords (s : State) (k i : Nat) (f : Thread → Thread) : (s.modThread k i f).softWords = s.softWords := State.modTeam_softWords _ _ _
@[simp] theorem State.modThread_pageReqs (s : State) (k i : Nat) (f : Thread → Thread) : (s.modThread k i f).pageReqs = s.pageReqs := State.modTeam_pageReqs _ _ _
@[simp] theorem State.modThread_prqList (s : State) (k i : Nat) (f : Thread → Thread) : (s.modThread k i f).prqList = s.prqList := State.modTeam_prqList _ _ _
@[simp] theorem State.modThread_prqOwed (s : State) (k i : Nat) (f : Thread → Thread) : (s.modThread k i f).prqOwed = s.prqOwed := State.modTeam_prqOwed _ _ _
@[simp] theorem State.modThread_cmds (s : State) (k i : Nat) (f : Thread → Thread) : (s.modThread k i f).cmds = s.cmds := State.modTeam_cmds _ _ _
@[simp] theorem State.modThread_proxies (s : State) (k i : Nat) (f : Thread → Thread) : (s.modThread k i f).proxies = s.proxies := State.modTeam_proxies _ _ _
@[simp] theorem State.modThread_llc (s : State) (k i : Nat) (f : Thread → Thread) : (s.modThread k i f).llc = s.llc := State.modTeam_llc _ _ _
@[simp] theorem State.modThread_outside (s : State) (k i : Nat) (f : Thread → Thread) : (s.modThread k i f).outside = s.outside := State.modTeam_outside _ _ _
@[simp] theorem State.modThread_agents (s : State) (k i : Nat) (f : Thread → Thread) : (s.modThread k i f).agents = s.agents := State.modTeam_agents _ _ _
@[simp] theorem State.modThread_rounds (s : State) (k i : Nat) (f : Thread → Thread) : (s.modThread k i f).rounds = s.rounds := State.modTeam_rounds _ _ _
@[simp] theorem State.modThread_counts (s : State) (k i : Nat) (f : Thread → Thread) : (s.modThread k i f).counts = s.counts := State.modTeam_counts _ _ _
@[simp] theorem State.modThread_vfs (s : State) (k i : Nat) (f : Thread → Thread) : (s.modThread k i f).vfs = s.vfs := State.modTeam_vfs _ _ _
@[simp] theorem State.modThread_vfWaits (s : State) (k i : Nat) (f : Thread → Thread) : (s.modThread k i f).vfWaits = s.vfWaits := State.modTeam_vfWaits _ _ _
@[simp] theorem State.modThread_nodePend (s : State) (k i : Nat) (f : Thread → Thread) : (s.modThread k i f).nodePend = s.nodePend := State.modTeam_nodePend _ _ _
@[simp] theorem State.modThread_pgPend (s : State) (k i : Nat) (f : Thread → Thread) : (s.modThread k i f).pgPend = s.pgPend := State.modTeam_pgPend _ _ _
@[simp] theorem State.modThread_mhPend (s : State) (k i : Nat) (f : Thread → Thread) : (s.modThread k i f).mhPend = s.mhPend := State.modTeam_mhPend _ _ _
@[simp] theorem State.modThread_ywPend (s : State) (k i : Nat) (f : Thread → Thread) : (s.modThread k i f).ywPend = s.ywPend := State.modTeam_ywPend _ _ _
@[simp] theorem State.modThread_ctxPend (s : State) (k i : Nat) (f : Thread → Thread) : (s.modThread k i f).ctxPend = s.ctxPend := State.modTeam_ctxPend _ _ _
@[simp] theorem State.modThread_ports (s : State) (k i : Nat) (f : Thread → Thread) : (s.modThread k i f).ports = s.ports := State.modTeam_ports _ _ _
@[simp] theorem State.modThread_nodes (s : State) (k i : Nat) (f : Thread → Thread) : (s.modThread k i f).nodes = s.nodes := State.modTeam_nodes _ _ _
@[simp] theorem State.modThread_ideStreams (s : State) (k i : Nat) (f : Thread → Thread) : (s.modThread k i f).ideStreams = s.ideStreams := State.modTeam_ideStreams _ _ _
@[simp] theorem State.modThread_measured (s : State) (k i : Nat) (f : Thread → Thread) : (s.modThread k i f).measured = s.measured := State.modTeam_measured _ _ _
@[simp] theorem State.modThread_boot (s : State) (k i : Nat) (f : Thread → Thread) : (s.modThread k i f).boot = s.boot := State.modTeam_boot _ _ _
@[simp] theorem State.modThread_scan (s : State) (k i : Nat) (f : Thread → Thread) : (s.modThread k i f).scan = s.scan := State.modTeam_scan _ _ _
@[simp] theorem State.modThread_capWindow (s : State) (k i : Nat) (f : Thread → Thread) : (s.modThread k i f).capWindow = s.capWindow := State.modTeam_capWindow _ _ _
@[simp] theorem State.modThread_out (s : State) (k i : Nat) (f : Thread → Thread) : (s.modThread k i f).out = s.out := State.modTeam_out _ _ _
@[simp] theorem State.modThread_issue (s : State) (k i : Nat) (f : Thread → Thread) : (s.modThread k i f).issue = s.issue := State.modTeam_issue _ _ _
@[simp] theorem State.modThread_lits (s : State) (k i : Nat) (f : Thread → Thread) : (s.modThread k i f).lits = s.lits := State.modTeam_lits _ _ _
@[simp] theorem State.modThread_fresh (s : State) (k i : Nat) (f : Thread → Thread) : (s.modThread k i f).fresh = s.fresh := State.modTeam_fresh _ _ _
@[simp] theorem State.modThread_lastQueue (s : State) (k i : Nat) (f : Thread → Thread) : (s.modThread k i f).lastQueue = s.lastQueue := State.modTeam_lastQueue _ _ _
@[simp] theorem State.modThread_lastCtxQueue (s : State) (k i : Nat) (f : Thread → Thread) : (s.modThread k i f).lastCtxQueue = s.lastCtxQueue := State.modTeam_lastCtxQueue _ _ _
@[simp] theorem State.modThread_lastOwner (s : State) (k i : Nat) (f : Thread → Thread) : (s.modThread k i f).lastOwner = s.lastOwner := State.modTeam_lastOwner _ _ _
@[simp] theorem State.modThread_arrivalDelay (s : State) (k i : Nat) (f : Thread → Thread) : (s.modThread k i f).arrivalDelay = s.arrivalDelay := State.modTeam_arrivalDelay _ _ _
@[simp] theorem State.modThread_viaQueues (s : State) (k i : Nat) (f : Thread → Thread) : (s.modThread k i f).viaQueues = s.viaQueues := State.modTeam_viaQueues _ _ _
@[simp] theorem State.modThread_walkDelay (s : State) (k i : Nat) (f : Thread → Thread) : (s.modThread k i f).walkDelay = s.walkDelay := State.modTeam_walkDelay _ _ _
@[simp] theorem State.modThread_capEvery (s : State) (k i : Nat) (f : Thread → Thread) : (s.modThread k i f).capEvery = s.capEvery := State.modTeam_capEvery _ _ _
@[simp] theorem State.modThread_filterDie (s : State) (k i : Nat) (f : Thread → Thread) : (s.modThread k i f).filterDie = s.filterDie := State.modTeam_filterDie _ _ _
@[simp] theorem State.modThread_hostRsvCfg (s : State) (k i : Nat) (f : Thread → Thread) : (s.modThread k i f).hostRsvCfg = s.hostRsvCfg := State.modTeam_hostRsvCfg _ _ _
@[simp] theorem State.modThread_agenda (s : State) (k i : Nat) (f : Thread → Thread) : (s.modThread k i f).agenda = s.agenda := State.modTeam_agenda _ _ _
@[simp] theorem State.setThread_clock (s : State) (i : Nat) (t : Thread) : (s.setThread i t).clock = s.clock := State.modTeam_clock _ _ _
@[simp] theorem State.setThread_regs (s : State) (i : Nat) (t : Thread) : (s.setThread i t).regs = s.regs := State.modTeam_regs _ _ _
@[simp] theorem State.setThread_contexts (s : State) (i : Nat) (t : Thread) : (s.setThread i t).contexts = s.contexts := State.modTeam_contexts _ _ _
@[simp] theorem State.setThread_queues (s : State) (i : Nat) (t : Thread) : (s.setThread i t).queues = s.queues := State.modTeam_queues _ _ _
@[simp] theorem State.setThread_grids (s : State) (i : Nat) (t : Thread) : (s.setThread i t).grids = s.grids := State.modTeam_grids _ _ _
@[simp] theorem State.setThread_cores (s : State) (i : Nat) (t : Thread) : (s.setThread i t).cores = s.cores := State.modTeam_cores _ _ _
@[simp] theorem State.setThread_dies (s : State) (i : Nat) (t : Thread) : (s.setThread i t).dies = s.dies := State.modTeam_dies _ _ _
@[simp] theorem State.setThread_walks (s : State) (i : Nat) (t : Thread) : (s.setThread i t).walks = s.walks := State.modTeam_walks _ _ _
@[simp] theorem State.setThread_nonLeaf (s : State) (i : Nat) (t : Thread) : (s.setThread i t).nonLeaf = s.nonLeaf := State.modTeam_nonLeaf _ _ _
@[simp] theorem State.setThread_mem (s : State) (i : Nat) (t : Thread) : (s.setThread i t).mem = s.mem := State.modTeam_mem _ _ _
@[simp] theorem State.setThread_frames (s : State) (i : Nat) (t : Thread) : (s.setThread i t).frames = s.frames := State.modTeam_frames _ _ _
@[simp] theorem State.setThread_poison (s : State) (i : Nat) (t : Thread) : (s.setThread i t).poison = s.poison := State.modTeam_poison _ _ _
@[simp] theorem State.setThread_hostPoison (s : State) (i : Nat) (t : Thread) : (s.setThread i t).hostPoison = s.hostPoison := State.modTeam_hostPoison _ _ _
@[simp] theorem State.setThread_badWords (s : State) (i : Nat) (t : Thread) : (s.setThread i t).badWords = s.badWords := State.modTeam_badWords _ _ _
@[simp] theorem State.setThread_softWords (s : State) (i : Nat) (t : Thread) : (s.setThread i t).softWords = s.softWords := State.modTeam_softWords _ _ _
@[simp] theorem State.setThread_pageReqs (s : State) (i : Nat) (t : Thread) : (s.setThread i t).pageReqs = s.pageReqs := State.modTeam_pageReqs _ _ _
@[simp] theorem State.setThread_prqList (s : State) (i : Nat) (t : Thread) : (s.setThread i t).prqList = s.prqList := State.modTeam_prqList _ _ _
@[simp] theorem State.setThread_prqOwed (s : State) (i : Nat) (t : Thread) : (s.setThread i t).prqOwed = s.prqOwed := State.modTeam_prqOwed _ _ _
@[simp] theorem State.setThread_cmds (s : State) (i : Nat) (t : Thread) : (s.setThread i t).cmds = s.cmds := State.modTeam_cmds _ _ _
@[simp] theorem State.setThread_proxies (s : State) (i : Nat) (t : Thread) : (s.setThread i t).proxies = s.proxies := State.modTeam_proxies _ _ _
@[simp] theorem State.setThread_llc (s : State) (i : Nat) (t : Thread) : (s.setThread i t).llc = s.llc := State.modTeam_llc _ _ _
@[simp] theorem State.setThread_outside (s : State) (i : Nat) (t : Thread) : (s.setThread i t).outside = s.outside := State.modTeam_outside _ _ _
@[simp] theorem State.setThread_agents (s : State) (i : Nat) (t : Thread) : (s.setThread i t).agents = s.agents := State.modTeam_agents _ _ _
@[simp] theorem State.setThread_rounds (s : State) (i : Nat) (t : Thread) : (s.setThread i t).rounds = s.rounds := State.modTeam_rounds _ _ _
@[simp] theorem State.setThread_counts (s : State) (i : Nat) (t : Thread) : (s.setThread i t).counts = s.counts := State.modTeam_counts _ _ _
@[simp] theorem State.setThread_vfs (s : State) (i : Nat) (t : Thread) : (s.setThread i t).vfs = s.vfs := State.modTeam_vfs _ _ _
@[simp] theorem State.setThread_vfWaits (s : State) (i : Nat) (t : Thread) : (s.setThread i t).vfWaits = s.vfWaits := State.modTeam_vfWaits _ _ _
@[simp] theorem State.setThread_nodePend (s : State) (i : Nat) (t : Thread) : (s.setThread i t).nodePend = s.nodePend := State.modTeam_nodePend _ _ _
@[simp] theorem State.setThread_pgPend (s : State) (i : Nat) (t : Thread) : (s.setThread i t).pgPend = s.pgPend := State.modTeam_pgPend _ _ _
@[simp] theorem State.setThread_mhPend (s : State) (i : Nat) (t : Thread) : (s.setThread i t).mhPend = s.mhPend := State.modTeam_mhPend _ _ _
@[simp] theorem State.setThread_ywPend (s : State) (i : Nat) (t : Thread) : (s.setThread i t).ywPend = s.ywPend := State.modTeam_ywPend _ _ _
@[simp] theorem State.setThread_ctxPend (s : State) (i : Nat) (t : Thread) : (s.setThread i t).ctxPend = s.ctxPend := State.modTeam_ctxPend _ _ _
@[simp] theorem State.setThread_ports (s : State) (i : Nat) (t : Thread) : (s.setThread i t).ports = s.ports := State.modTeam_ports _ _ _
@[simp] theorem State.setThread_nodes (s : State) (i : Nat) (t : Thread) : (s.setThread i t).nodes = s.nodes := State.modTeam_nodes _ _ _
@[simp] theorem State.setThread_ideStreams (s : State) (i : Nat) (t : Thread) : (s.setThread i t).ideStreams = s.ideStreams := State.modTeam_ideStreams _ _ _
@[simp] theorem State.setThread_measured (s : State) (i : Nat) (t : Thread) : (s.setThread i t).measured = s.measured := State.modTeam_measured _ _ _
@[simp] theorem State.setThread_boot (s : State) (i : Nat) (t : Thread) : (s.setThread i t).boot = s.boot := State.modTeam_boot _ _ _
@[simp] theorem State.setThread_scan (s : State) (i : Nat) (t : Thread) : (s.setThread i t).scan = s.scan := State.modTeam_scan _ _ _
@[simp] theorem State.setThread_capWindow (s : State) (i : Nat) (t : Thread) : (s.setThread i t).capWindow = s.capWindow := State.modTeam_capWindow _ _ _
@[simp] theorem State.setThread_out (s : State) (i : Nat) (t : Thread) : (s.setThread i t).out = s.out := State.modTeam_out _ _ _
@[simp] theorem State.setThread_issue (s : State) (i : Nat) (t : Thread) : (s.setThread i t).issue = s.issue := State.modTeam_issue _ _ _
@[simp] theorem State.setThread_lits (s : State) (i : Nat) (t : Thread) : (s.setThread i t).lits = s.lits := State.modTeam_lits _ _ _
@[simp] theorem State.setThread_fresh (s : State) (i : Nat) (t : Thread) : (s.setThread i t).fresh = s.fresh := State.modTeam_fresh _ _ _
@[simp] theorem State.setThread_lastQueue (s : State) (i : Nat) (t : Thread) : (s.setThread i t).lastQueue = s.lastQueue := State.modTeam_lastQueue _ _ _
@[simp] theorem State.setThread_lastCtxQueue (s : State) (i : Nat) (t : Thread) : (s.setThread i t).lastCtxQueue = s.lastCtxQueue := State.modTeam_lastCtxQueue _ _ _
@[simp] theorem State.setThread_lastOwner (s : State) (i : Nat) (t : Thread) : (s.setThread i t).lastOwner = s.lastOwner := State.modTeam_lastOwner _ _ _
@[simp] theorem State.setThread_arrivalDelay (s : State) (i : Nat) (t : Thread) : (s.setThread i t).arrivalDelay = s.arrivalDelay := State.modTeam_arrivalDelay _ _ _
@[simp] theorem State.setThread_viaQueues (s : State) (i : Nat) (t : Thread) : (s.setThread i t).viaQueues = s.viaQueues := State.modTeam_viaQueues _ _ _
@[simp] theorem State.setThread_walkDelay (s : State) (i : Nat) (t : Thread) : (s.setThread i t).walkDelay = s.walkDelay := State.modTeam_walkDelay _ _ _
@[simp] theorem State.setThread_capEvery (s : State) (i : Nat) (t : Thread) : (s.setThread i t).capEvery = s.capEvery := State.modTeam_capEvery _ _ _
@[simp] theorem State.setThread_filterDie (s : State) (i : Nat) (t : Thread) : (s.setThread i t).filterDie = s.filterDie := State.modTeam_filterDie _ _ _
@[simp] theorem State.setThread_hostRsvCfg (s : State) (i : Nat) (t : Thread) : (s.setThread i t).hostRsvCfg = s.hostRsvCfg := State.modTeam_hostRsvCfg _ _ _
@[simp] theorem State.setThread_agenda (s : State) (i : Nat) (t : Thread) : (s.setThread i t).agenda = s.agenda := State.modTeam_agenda _ _ _

/-! ## Updates of a thread -/

@[simp] theorem Thread.next_lastPc (t : Thread) : t.next.lastPc = t.lastPc := rfl
@[simp] theorem Thread.next_wb (t : Thread) : t.next.wb = t.wb := rfl
@[simp] theorem Thread.next_stack (t : Thread) : t.next.stack = t.stack := rfl
@[simp] theorem Thread.next_preds (t : Thread) : t.next.preds = t.preds := rfl
@[simp] theorem Thread.next_refs (t : Thread) : t.next.refs = t.refs := rfl
@[simp] theorem Thread.next_fpflags (t : Thread) : t.next.fpflags = t.fpflags := rfl
@[simp] theorem Thread.next_resm (t : Thread) : t.next.resm = t.resm := rfl
@[simp] theorem Thread.next_trapcause (t : Thread) : t.next.trapcause = t.trapcause := rfl
@[simp] theorem Thread.next_trappc (t : Thread) : t.next.trappc = t.trappc := rfl
@[simp] theorem Thread.next_trapaddr (t : Thread) : t.next.trapaddr = t.trapaddr := rfl
@[simp] theorem Thread.next_trapvec (t : Thread) : t.next.trapvec = t.trapvec := rfl
@[simp] theorem Thread.next_handler (t : Thread) : t.next.handler = t.handler := rfl
@[simp] theorem Thread.next_cntLd (t : Thread) : t.next.cntLd = t.cntLd := rfl
@[simp] theorem Thread.next_cntSt (t : Thread) : t.next.cntSt = t.cntSt := rfl
@[simp] theorem Thread.next_cntCp (t : Thread) : t.next.cntCp = t.cntCp := rfl
@[simp] theorem Thread.next_cntTl (t : Thread) : t.next.cntTl = t.cntTl := rfl
@[simp] theorem Thread.next_status (t : Thread) : t.next.status = t.status := rfl
@[simp] theorem Thread.next_bundle (t : Thread) : t.next.bundle = t.bundle := rfl
@[simp] theorem Thread.next_wake (t : Thread) : t.next.wake = t.wake := rfl
@[simp] theorem Thread.next_missing (t : Thread) : t.next.missing = t.missing := rfl
@[simp] theorem Thread.next_parkedAt (t : Thread) : t.next.parkedAt = t.parkedAt := rfl
@[simp] theorem Thread.next_misses (t : Thread) : t.next.misses = t.misses := rfl
@[simp] theorem Thread.next_watch (t : Thread) : t.next.watch = t.watch := rfl
@[simp] theorem Thread.next_trigBy (t : Thread) : t.next.trigBy = t.trigBy := rfl
@[simp] theorem Thread.next_slabs (t : Thread) : t.next.slabs = t.slabs := rfl
@[simp] theorem Thread.next_spilled (t : Thread) : t.next.spilled = t.spilled := rfl
@[simp] theorem Thread.next_badSpills (t : Thread) : t.next.badSpills = t.badSpills := rfl
@[simp] theorem Thread.next_tags (t : Thread) : t.next.tags = t.tags := rfl
@[simp] theorem Thread.next_moved (t : Thread) : t.next.moved = t.moved := rfl
@[simp] theorem Thread.next_pendRegs (t : Thread) : t.next.pendRegs = t.pendRegs := rfl
@[simp] theorem Thread.next_pendPreds (t : Thread) : t.next.pendPreds = t.pendPreds := rfl
@[simp] theorem Thread.next_pendRefs (t : Thread) : t.next.pendRefs = t.pendRefs := rfl
@[simp] theorem Thread.next_parity (t : Thread) : t.next.parity = t.parity := rfl
@[simp] theorem Thread.next_yielded (t : Thread) : t.next.yielded = t.yielded := rfl
@[simp] theorem Thread.next_walked (t : Thread) : t.next.walked = t.walked := rfl
@[simp] theorem Thread.next_fetching (t : Thread) : t.next.fetching = t.fetching := rfl
@[simp] theorem Thread.putAt_pc (t : Thread) (p : Nat) (v : Word) : (t.putAt p v).pc = t.pc := rfl
@[simp] theorem Thread.putAt_lastPc (t : Thread) (p : Nat) (v : Word) : (t.putAt p v).lastPc = t.lastPc := rfl
@[simp] theorem Thread.putAt_wb (t : Thread) (p : Nat) (v : Word) : (t.putAt p v).wb = t.wb := rfl
@[simp] theorem Thread.putAt_preds (t : Thread) (p : Nat) (v : Word) : (t.putAt p v).preds = t.preds := rfl
@[simp] theorem Thread.putAt_refs (t : Thread) (p : Nat) (v : Word) : (t.putAt p v).refs = t.refs := rfl
@[simp] theorem Thread.putAt_fpflags (t : Thread) (p : Nat) (v : Word) : (t.putAt p v).fpflags = t.fpflags := rfl
@[simp] theorem Thread.putAt_resm (t : Thread) (p : Nat) (v : Word) : (t.putAt p v).resm = t.resm := rfl
@[simp] theorem Thread.putAt_trapcause (t : Thread) (p : Nat) (v : Word) : (t.putAt p v).trapcause = t.trapcause := rfl
@[simp] theorem Thread.putAt_trappc (t : Thread) (p : Nat) (v : Word) : (t.putAt p v).trappc = t.trappc := rfl
@[simp] theorem Thread.putAt_trapaddr (t : Thread) (p : Nat) (v : Word) : (t.putAt p v).trapaddr = t.trapaddr := rfl
@[simp] theorem Thread.putAt_trapvec (t : Thread) (p : Nat) (v : Word) : (t.putAt p v).trapvec = t.trapvec := rfl
@[simp] theorem Thread.putAt_handler (t : Thread) (p : Nat) (v : Word) : (t.putAt p v).handler = t.handler := rfl
@[simp] theorem Thread.putAt_cntLd (t : Thread) (p : Nat) (v : Word) : (t.putAt p v).cntLd = t.cntLd := rfl
@[simp] theorem Thread.putAt_cntSt (t : Thread) (p : Nat) (v : Word) : (t.putAt p v).cntSt = t.cntSt := rfl
@[simp] theorem Thread.putAt_cntCp (t : Thread) (p : Nat) (v : Word) : (t.putAt p v).cntCp = t.cntCp := rfl
@[simp] theorem Thread.putAt_cntTl (t : Thread) (p : Nat) (v : Word) : (t.putAt p v).cntTl = t.cntTl := rfl
@[simp] theorem Thread.putAt_status (t : Thread) (p : Nat) (v : Word) : (t.putAt p v).status = t.status := rfl
@[simp] theorem Thread.putAt_bundle (t : Thread) (p : Nat) (v : Word) : (t.putAt p v).bundle = t.bundle := rfl
@[simp] theorem Thread.putAt_wake (t : Thread) (p : Nat) (v : Word) : (t.putAt p v).wake = t.wake := rfl
@[simp] theorem Thread.putAt_missing (t : Thread) (p : Nat) (v : Word) : (t.putAt p v).missing = t.missing := rfl
@[simp] theorem Thread.putAt_parkedAt (t : Thread) (p : Nat) (v : Word) : (t.putAt p v).parkedAt = t.parkedAt := rfl
@[simp] theorem Thread.putAt_misses (t : Thread) (p : Nat) (v : Word) : (t.putAt p v).misses = t.misses := rfl
@[simp] theorem Thread.putAt_watch (t : Thread) (p : Nat) (v : Word) : (t.putAt p v).watch = t.watch := rfl
@[simp] theorem Thread.putAt_trigBy (t : Thread) (p : Nat) (v : Word) : (t.putAt p v).trigBy = t.trigBy := rfl
@[simp] theorem Thread.putAt_spilled (t : Thread) (p : Nat) (v : Word) : (t.putAt p v).spilled = t.spilled := rfl
@[simp] theorem Thread.putAt_badSpills (t : Thread) (p : Nat) (v : Word) : (t.putAt p v).badSpills = t.badSpills := rfl
@[simp] theorem Thread.putAt_tags (t : Thread) (p : Nat) (v : Word) : (t.putAt p v).tags = t.tags := rfl
@[simp] theorem Thread.putAt_moved (t : Thread) (p : Nat) (v : Word) : (t.putAt p v).moved = t.moved := rfl
@[simp] theorem Thread.putAt_pendPreds (t : Thread) (p : Nat) (v : Word) : (t.putAt p v).pendPreds = t.pendPreds := rfl
@[simp] theorem Thread.putAt_pendRefs (t : Thread) (p : Nat) (v : Word) : (t.putAt p v).pendRefs = t.pendRefs := rfl
@[simp] theorem Thread.putAt_yielded (t : Thread) (p : Nat) (v : Word) : (t.putAt p v).yielded = t.yielded := rfl
@[simp] theorem Thread.putAt_walked (t : Thread) (p : Nat) (v : Word) : (t.putAt p v).walked = t.walked := rfl
@[simp] theorem Thread.putAt_fetching (t : Thread) (p : Nat) (v : Word) : (t.putAt p v).fetching = t.fetching := rfl
@[simp] theorem Thread.setG_pc (t : Thread) (n : BitVec 7) (v : Word) : (t.setG n v).pc = t.pc := rfl
@[simp] theorem Thread.setG_lastPc (t : Thread) (n : BitVec 7) (v : Word) : (t.setG n v).lastPc = t.lastPc := rfl
@[simp] theorem Thread.setG_wb (t : Thread) (n : BitVec 7) (v : Word) : (t.setG n v).wb = t.wb := rfl
@[simp] theorem Thread.setG_preds (t : Thread) (n : BitVec 7) (v : Word) : (t.setG n v).preds = t.preds := rfl
@[simp] theorem Thread.setG_refs (t : Thread) (n : BitVec 7) (v : Word) : (t.setG n v).refs = t.refs := rfl
@[simp] theorem Thread.setG_fpflags (t : Thread) (n : BitVec 7) (v : Word) : (t.setG n v).fpflags = t.fpflags := rfl
@[simp] theorem Thread.setG_resm (t : Thread) (n : BitVec 7) (v : Word) : (t.setG n v).resm = t.resm := rfl
@[simp] theorem Thread.setG_trapcause (t : Thread) (n : BitVec 7) (v : Word) : (t.setG n v).trapcause = t.trapcause := rfl
@[simp] theorem Thread.setG_trappc (t : Thread) (n : BitVec 7) (v : Word) : (t.setG n v).trappc = t.trappc := rfl
@[simp] theorem Thread.setG_trapaddr (t : Thread) (n : BitVec 7) (v : Word) : (t.setG n v).trapaddr = t.trapaddr := rfl
@[simp] theorem Thread.setG_trapvec (t : Thread) (n : BitVec 7) (v : Word) : (t.setG n v).trapvec = t.trapvec := rfl
@[simp] theorem Thread.setG_handler (t : Thread) (n : BitVec 7) (v : Word) : (t.setG n v).handler = t.handler := rfl
@[simp] theorem Thread.setG_cntLd (t : Thread) (n : BitVec 7) (v : Word) : (t.setG n v).cntLd = t.cntLd := rfl
@[simp] theorem Thread.setG_cntSt (t : Thread) (n : BitVec 7) (v : Word) : (t.setG n v).cntSt = t.cntSt := rfl
@[simp] theorem Thread.setG_cntCp (t : Thread) (n : BitVec 7) (v : Word) : (t.setG n v).cntCp = t.cntCp := rfl
@[simp] theorem Thread.setG_cntTl (t : Thread) (n : BitVec 7) (v : Word) : (t.setG n v).cntTl = t.cntTl := rfl
@[simp] theorem Thread.setG_status (t : Thread) (n : BitVec 7) (v : Word) : (t.setG n v).status = t.status := rfl
@[simp] theorem Thread.setG_bundle (t : Thread) (n : BitVec 7) (v : Word) : (t.setG n v).bundle = t.bundle := rfl
@[simp] theorem Thread.setG_wake (t : Thread) (n : BitVec 7) (v : Word) : (t.setG n v).wake = t.wake := rfl
@[simp] theorem Thread.setG_missing (t : Thread) (n : BitVec 7) (v : Word) : (t.setG n v).missing = t.missing := rfl
@[simp] theorem Thread.setG_parkedAt (t : Thread) (n : BitVec 7) (v : Word) : (t.setG n v).parkedAt = t.parkedAt := rfl
@[simp] theorem Thread.setG_misses (t : Thread) (n : BitVec 7) (v : Word) : (t.setG n v).misses = t.misses := rfl
@[simp] theorem Thread.setG_watch (t : Thread) (n : BitVec 7) (v : Word) : (t.setG n v).watch = t.watch := rfl
@[simp] theorem Thread.setG_trigBy (t : Thread) (n : BitVec 7) (v : Word) : (t.setG n v).trigBy = t.trigBy := rfl
@[simp] theorem Thread.setG_spilled (t : Thread) (n : BitVec 7) (v : Word) : (t.setG n v).spilled = t.spilled := rfl
@[simp] theorem Thread.setG_badSpills (t : Thread) (n : BitVec 7) (v : Word) : (t.setG n v).badSpills = t.badSpills := rfl
@[simp] theorem Thread.setG_tags (t : Thread) (n : BitVec 7) (v : Word) : (t.setG n v).tags = t.tags := rfl
@[simp] theorem Thread.setG_moved (t : Thread) (n : BitVec 7) (v : Word) : (t.setG n v).moved = t.moved := rfl
@[simp] theorem Thread.setG_pendPreds (t : Thread) (n : BitVec 7) (v : Word) : (t.setG n v).pendPreds = t.pendPreds := rfl
@[simp] theorem Thread.setG_pendRefs (t : Thread) (n : BitVec 7) (v : Word) : (t.setG n v).pendRefs = t.pendRefs := rfl
@[simp] theorem Thread.setG_yielded (t : Thread) (n : BitVec 7) (v : Word) : (t.setG n v).yielded = t.yielded := rfl
@[simp] theorem Thread.setG_walked (t : Thread) (n : BitVec 7) (v : Word) : (t.setG n v).walked = t.walked := rfl
@[simp] theorem Thread.setG_fetching (t : Thread) (n : BitVec 7) (v : Word) : (t.setG n v).fetching = t.fetching := rfl
@[simp] theorem Thread.setGx_pc (t : Thread) (n : BitVec 7) (v : DWord) : (t.setGx n v).pc = t.pc := rfl
@[simp] theorem Thread.setGx_lastPc (t : Thread) (n : BitVec 7) (v : DWord) : (t.setGx n v).lastPc = t.lastPc := rfl
@[simp] theorem Thread.setGx_wb (t : Thread) (n : BitVec 7) (v : DWord) : (t.setGx n v).wb = t.wb := rfl
@[simp] theorem Thread.setGx_preds (t : Thread) (n : BitVec 7) (v : DWord) : (t.setGx n v).preds = t.preds := rfl
@[simp] theorem Thread.setGx_refs (t : Thread) (n : BitVec 7) (v : DWord) : (t.setGx n v).refs = t.refs := rfl
@[simp] theorem Thread.setGx_fpflags (t : Thread) (n : BitVec 7) (v : DWord) : (t.setGx n v).fpflags = t.fpflags := rfl
@[simp] theorem Thread.setGx_resm (t : Thread) (n : BitVec 7) (v : DWord) : (t.setGx n v).resm = t.resm := rfl
@[simp] theorem Thread.setGx_trapcause (t : Thread) (n : BitVec 7) (v : DWord) : (t.setGx n v).trapcause = t.trapcause := rfl
@[simp] theorem Thread.setGx_trappc (t : Thread) (n : BitVec 7) (v : DWord) : (t.setGx n v).trappc = t.trappc := rfl
@[simp] theorem Thread.setGx_trapaddr (t : Thread) (n : BitVec 7) (v : DWord) : (t.setGx n v).trapaddr = t.trapaddr := rfl
@[simp] theorem Thread.setGx_trapvec (t : Thread) (n : BitVec 7) (v : DWord) : (t.setGx n v).trapvec = t.trapvec := rfl
@[simp] theorem Thread.setGx_handler (t : Thread) (n : BitVec 7) (v : DWord) : (t.setGx n v).handler = t.handler := rfl
@[simp] theorem Thread.setGx_cntLd (t : Thread) (n : BitVec 7) (v : DWord) : (t.setGx n v).cntLd = t.cntLd := rfl
@[simp] theorem Thread.setGx_cntSt (t : Thread) (n : BitVec 7) (v : DWord) : (t.setGx n v).cntSt = t.cntSt := rfl
@[simp] theorem Thread.setGx_cntCp (t : Thread) (n : BitVec 7) (v : DWord) : (t.setGx n v).cntCp = t.cntCp := rfl
@[simp] theorem Thread.setGx_cntTl (t : Thread) (n : BitVec 7) (v : DWord) : (t.setGx n v).cntTl = t.cntTl := rfl
@[simp] theorem Thread.setGx_status (t : Thread) (n : BitVec 7) (v : DWord) : (t.setGx n v).status = t.status := rfl
@[simp] theorem Thread.setGx_bundle (t : Thread) (n : BitVec 7) (v : DWord) : (t.setGx n v).bundle = t.bundle := rfl
@[simp] theorem Thread.setGx_wake (t : Thread) (n : BitVec 7) (v : DWord) : (t.setGx n v).wake = t.wake := rfl
@[simp] theorem Thread.setGx_missing (t : Thread) (n : BitVec 7) (v : DWord) : (t.setGx n v).missing = t.missing := rfl
@[simp] theorem Thread.setGx_parkedAt (t : Thread) (n : BitVec 7) (v : DWord) : (t.setGx n v).parkedAt = t.parkedAt := rfl
@[simp] theorem Thread.setGx_misses (t : Thread) (n : BitVec 7) (v : DWord) : (t.setGx n v).misses = t.misses := rfl
@[simp] theorem Thread.setGx_watch (t : Thread) (n : BitVec 7) (v : DWord) : (t.setGx n v).watch = t.watch := rfl
@[simp] theorem Thread.setGx_trigBy (t : Thread) (n : BitVec 7) (v : DWord) : (t.setGx n v).trigBy = t.trigBy := rfl
@[simp] theorem Thread.setGx_spilled (t : Thread) (n : BitVec 7) (v : DWord) : (t.setGx n v).spilled = t.spilled := rfl
@[simp] theorem Thread.setGx_badSpills (t : Thread) (n : BitVec 7) (v : DWord) : (t.setGx n v).badSpills = t.badSpills := rfl
@[simp] theorem Thread.setGx_tags (t : Thread) (n : BitVec 7) (v : DWord) : (t.setGx n v).tags = t.tags := rfl
@[simp] theorem Thread.setGx_moved (t : Thread) (n : BitVec 7) (v : DWord) : (t.setGx n v).moved = t.moved := rfl
@[simp] theorem Thread.setGx_pendPreds (t : Thread) (n : BitVec 7) (v : DWord) : (t.setGx n v).pendPreds = t.pendPreds := rfl
@[simp] theorem Thread.setGx_pendRefs (t : Thread) (n : BitVec 7) (v : DWord) : (t.setGx n v).pendRefs = t.pendRefs := rfl
@[simp] theorem Thread.setGx_yielded (t : Thread) (n : BitVec 7) (v : DWord) : (t.setGx n v).yielded = t.yielded := rfl
@[simp] theorem Thread.setGx_walked (t : Thread) (n : BitVec 7) (v : DWord) : (t.setGx n v).walked = t.walked := rfl
@[simp] theorem Thread.setGx_fetching (t : Thread) (n : BitVec 7) (v : DWord) : (t.setGx n v).fetching = t.fetching := rfl
@[simp] theorem Thread.setGq_pc (t : Thread) (n : BitVec 7) (v : BitVec 128) : (t.setGq n v).pc = t.pc := rfl
@[simp] theorem Thread.setGq_lastPc (t : Thread) (n : BitVec 7) (v : BitVec 128) : (t.setGq n v).lastPc = t.lastPc := rfl
@[simp] theorem Thread.setGq_wb (t : Thread) (n : BitVec 7) (v : BitVec 128) : (t.setGq n v).wb = t.wb := rfl
@[simp] theorem Thread.setGq_preds (t : Thread) (n : BitVec 7) (v : BitVec 128) : (t.setGq n v).preds = t.preds := rfl
@[simp] theorem Thread.setGq_refs (t : Thread) (n : BitVec 7) (v : BitVec 128) : (t.setGq n v).refs = t.refs := rfl
@[simp] theorem Thread.setGq_fpflags (t : Thread) (n : BitVec 7) (v : BitVec 128) : (t.setGq n v).fpflags = t.fpflags := rfl
@[simp] theorem Thread.setGq_resm (t : Thread) (n : BitVec 7) (v : BitVec 128) : (t.setGq n v).resm = t.resm := rfl
@[simp] theorem Thread.setGq_trapcause (t : Thread) (n : BitVec 7) (v : BitVec 128) : (t.setGq n v).trapcause = t.trapcause := rfl
@[simp] theorem Thread.setGq_trappc (t : Thread) (n : BitVec 7) (v : BitVec 128) : (t.setGq n v).trappc = t.trappc := rfl
@[simp] theorem Thread.setGq_trapaddr (t : Thread) (n : BitVec 7) (v : BitVec 128) : (t.setGq n v).trapaddr = t.trapaddr := rfl
@[simp] theorem Thread.setGq_trapvec (t : Thread) (n : BitVec 7) (v : BitVec 128) : (t.setGq n v).trapvec = t.trapvec := rfl
@[simp] theorem Thread.setGq_handler (t : Thread) (n : BitVec 7) (v : BitVec 128) : (t.setGq n v).handler = t.handler := rfl
@[simp] theorem Thread.setGq_cntLd (t : Thread) (n : BitVec 7) (v : BitVec 128) : (t.setGq n v).cntLd = t.cntLd := rfl
@[simp] theorem Thread.setGq_cntSt (t : Thread) (n : BitVec 7) (v : BitVec 128) : (t.setGq n v).cntSt = t.cntSt := rfl
@[simp] theorem Thread.setGq_cntCp (t : Thread) (n : BitVec 7) (v : BitVec 128) : (t.setGq n v).cntCp = t.cntCp := rfl
@[simp] theorem Thread.setGq_cntTl (t : Thread) (n : BitVec 7) (v : BitVec 128) : (t.setGq n v).cntTl = t.cntTl := rfl
@[simp] theorem Thread.setGq_status (t : Thread) (n : BitVec 7) (v : BitVec 128) : (t.setGq n v).status = t.status := rfl
@[simp] theorem Thread.setGq_bundle (t : Thread) (n : BitVec 7) (v : BitVec 128) : (t.setGq n v).bundle = t.bundle := rfl
@[simp] theorem Thread.setGq_wake (t : Thread) (n : BitVec 7) (v : BitVec 128) : (t.setGq n v).wake = t.wake := rfl
@[simp] theorem Thread.setGq_missing (t : Thread) (n : BitVec 7) (v : BitVec 128) : (t.setGq n v).missing = t.missing := rfl
@[simp] theorem Thread.setGq_parkedAt (t : Thread) (n : BitVec 7) (v : BitVec 128) : (t.setGq n v).parkedAt = t.parkedAt := rfl
@[simp] theorem Thread.setGq_misses (t : Thread) (n : BitVec 7) (v : BitVec 128) : (t.setGq n v).misses = t.misses := rfl
@[simp] theorem Thread.setGq_watch (t : Thread) (n : BitVec 7) (v : BitVec 128) : (t.setGq n v).watch = t.watch := rfl
@[simp] theorem Thread.setGq_trigBy (t : Thread) (n : BitVec 7) (v : BitVec 128) : (t.setGq n v).trigBy = t.trigBy := rfl
@[simp] theorem Thread.setGq_spilled (t : Thread) (n : BitVec 7) (v : BitVec 128) : (t.setGq n v).spilled = t.spilled := rfl
@[simp] theorem Thread.setGq_badSpills (t : Thread) (n : BitVec 7) (v : BitVec 128) : (t.setGq n v).badSpills = t.badSpills := rfl
@[simp] theorem Thread.setGq_tags (t : Thread) (n : BitVec 7) (v : BitVec 128) : (t.setGq n v).tags = t.tags := rfl
@[simp] theorem Thread.setGq_moved (t : Thread) (n : BitVec 7) (v : BitVec 128) : (t.setGq n v).moved = t.moved := rfl
@[simp] theorem Thread.setGq_pendPreds (t : Thread) (n : BitVec 7) (v : BitVec 128) : (t.setGq n v).pendPreds = t.pendPreds := rfl
@[simp] theorem Thread.setGq_pendRefs (t : Thread) (n : BitVec 7) (v : BitVec 128) : (t.setGq n v).pendRefs = t.pendRefs := rfl
@[simp] theorem Thread.setGq_yielded (t : Thread) (n : BitVec 7) (v : BitVec 128) : (t.setGq n v).yielded = t.yielded := rfl
@[simp] theorem Thread.setGq_walked (t : Thread) (n : BitVec 7) (v : BitVec 128) : (t.setGq n v).walked = t.walked := rfl
@[simp] theorem Thread.setGq_fetching (t : Thread) (n : BitVec 7) (v : BitVec 128) : (t.setGq n v).fetching = t.fetching := rfl
@[simp] theorem Thread.setP_pc (t : Thread) (n : BitVec 3) (v : Bool) : (t.setP n v).pc = t.pc := rfl
@[simp] theorem Thread.setP_lastPc (t : Thread) (n : BitVec 3) (v : Bool) : (t.setP n v).lastPc = t.lastPc := rfl
@[simp] theorem Thread.setP_wb (t : Thread) (n : BitVec 3) (v : Bool) : (t.setP n v).wb = t.wb := rfl
@[simp] theorem Thread.setP_stack (t : Thread) (n : BitVec 3) (v : Bool) : (t.setP n v).stack = t.stack := rfl
@[simp] theorem Thread.setP_refs (t : Thread) (n : BitVec 3) (v : Bool) : (t.setP n v).refs = t.refs := rfl
@[simp] theorem Thread.setP_fpflags (t : Thread) (n : BitVec 3) (v : Bool) : (t.setP n v).fpflags = t.fpflags := rfl
@[simp] theorem Thread.setP_resm (t : Thread) (n : BitVec 3) (v : Bool) : (t.setP n v).resm = t.resm := rfl
@[simp] theorem Thread.setP_trapcause (t : Thread) (n : BitVec 3) (v : Bool) : (t.setP n v).trapcause = t.trapcause := rfl
@[simp] theorem Thread.setP_trappc (t : Thread) (n : BitVec 3) (v : Bool) : (t.setP n v).trappc = t.trappc := rfl
@[simp] theorem Thread.setP_trapaddr (t : Thread) (n : BitVec 3) (v : Bool) : (t.setP n v).trapaddr = t.trapaddr := rfl
@[simp] theorem Thread.setP_trapvec (t : Thread) (n : BitVec 3) (v : Bool) : (t.setP n v).trapvec = t.trapvec := rfl
@[simp] theorem Thread.setP_handler (t : Thread) (n : BitVec 3) (v : Bool) : (t.setP n v).handler = t.handler := rfl
@[simp] theorem Thread.setP_cntLd (t : Thread) (n : BitVec 3) (v : Bool) : (t.setP n v).cntLd = t.cntLd := rfl
@[simp] theorem Thread.setP_cntSt (t : Thread) (n : BitVec 3) (v : Bool) : (t.setP n v).cntSt = t.cntSt := rfl
@[simp] theorem Thread.setP_cntCp (t : Thread) (n : BitVec 3) (v : Bool) : (t.setP n v).cntCp = t.cntCp := rfl
@[simp] theorem Thread.setP_cntTl (t : Thread) (n : BitVec 3) (v : Bool) : (t.setP n v).cntTl = t.cntTl := rfl
@[simp] theorem Thread.setP_status (t : Thread) (n : BitVec 3) (v : Bool) : (t.setP n v).status = t.status := rfl
@[simp] theorem Thread.setP_bundle (t : Thread) (n : BitVec 3) (v : Bool) : (t.setP n v).bundle = t.bundle := rfl
@[simp] theorem Thread.setP_wake (t : Thread) (n : BitVec 3) (v : Bool) : (t.setP n v).wake = t.wake := rfl
@[simp] theorem Thread.setP_missing (t : Thread) (n : BitVec 3) (v : Bool) : (t.setP n v).missing = t.missing := rfl
@[simp] theorem Thread.setP_parkedAt (t : Thread) (n : BitVec 3) (v : Bool) : (t.setP n v).parkedAt = t.parkedAt := rfl
@[simp] theorem Thread.setP_misses (t : Thread) (n : BitVec 3) (v : Bool) : (t.setP n v).misses = t.misses := rfl
@[simp] theorem Thread.setP_watch (t : Thread) (n : BitVec 3) (v : Bool) : (t.setP n v).watch = t.watch := rfl
@[simp] theorem Thread.setP_trigBy (t : Thread) (n : BitVec 3) (v : Bool) : (t.setP n v).trigBy = t.trigBy := rfl
@[simp] theorem Thread.setP_slabs (t : Thread) (n : BitVec 3) (v : Bool) : (t.setP n v).slabs = t.slabs := rfl
@[simp] theorem Thread.setP_spilled (t : Thread) (n : BitVec 3) (v : Bool) : (t.setP n v).spilled = t.spilled := rfl
@[simp] theorem Thread.setP_badSpills (t : Thread) (n : BitVec 3) (v : Bool) : (t.setP n v).badSpills = t.badSpills := rfl
@[simp] theorem Thread.setP_tags (t : Thread) (n : BitVec 3) (v : Bool) : (t.setP n v).tags = t.tags := rfl
@[simp] theorem Thread.setP_moved (t : Thread) (n : BitVec 3) (v : Bool) : (t.setP n v).moved = t.moved := rfl
@[simp] theorem Thread.setP_pendRegs (t : Thread) (n : BitVec 3) (v : Bool) : (t.setP n v).pendRegs = t.pendRegs := rfl
@[simp] theorem Thread.setP_pendRefs (t : Thread) (n : BitVec 3) (v : Bool) : (t.setP n v).pendRefs = t.pendRefs := rfl
@[simp] theorem Thread.setP_parity (t : Thread) (n : BitVec 3) (v : Bool) : (t.setP n v).parity = t.parity := rfl
@[simp] theorem Thread.setP_yielded (t : Thread) (n : BitVec 3) (v : Bool) : (t.setP n v).yielded = t.yielded := rfl
@[simp] theorem Thread.setP_walked (t : Thread) (n : BitVec 3) (v : Bool) : (t.setP n v).walked = t.walked := rfl
@[simp] theorem Thread.setP_fetching (t : Thread) (n : BitVec 3) (v : Bool) : (t.setP n v).fetching = t.fetching := rfl
@[simp] theorem Thread.setRef_pc (t : Thread) (n : BitVec 4) (v : DWord) : (t.setRef n v).pc = t.pc := rfl
@[simp] theorem Thread.setRef_lastPc (t : Thread) (n : BitVec 4) (v : DWord) : (t.setRef n v).lastPc = t.lastPc := rfl
@[simp] theorem Thread.setRef_wb (t : Thread) (n : BitVec 4) (v : DWord) : (t.setRef n v).wb = t.wb := rfl
@[simp] theorem Thread.setRef_stack (t : Thread) (n : BitVec 4) (v : DWord) : (t.setRef n v).stack = t.stack := rfl
@[simp] theorem Thread.setRef_preds (t : Thread) (n : BitVec 4) (v : DWord) : (t.setRef n v).preds = t.preds := rfl
@[simp] theorem Thread.setRef_fpflags (t : Thread) (n : BitVec 4) (v : DWord) : (t.setRef n v).fpflags = t.fpflags := rfl
@[simp] theorem Thread.setRef_resm (t : Thread) (n : BitVec 4) (v : DWord) : (t.setRef n v).resm = t.resm := rfl
@[simp] theorem Thread.setRef_trapcause (t : Thread) (n : BitVec 4) (v : DWord) : (t.setRef n v).trapcause = t.trapcause := rfl
@[simp] theorem Thread.setRef_trappc (t : Thread) (n : BitVec 4) (v : DWord) : (t.setRef n v).trappc = t.trappc := rfl
@[simp] theorem Thread.setRef_trapaddr (t : Thread) (n : BitVec 4) (v : DWord) : (t.setRef n v).trapaddr = t.trapaddr := rfl
@[simp] theorem Thread.setRef_trapvec (t : Thread) (n : BitVec 4) (v : DWord) : (t.setRef n v).trapvec = t.trapvec := rfl
@[simp] theorem Thread.setRef_handler (t : Thread) (n : BitVec 4) (v : DWord) : (t.setRef n v).handler = t.handler := rfl
@[simp] theorem Thread.setRef_cntLd (t : Thread) (n : BitVec 4) (v : DWord) : (t.setRef n v).cntLd = t.cntLd := rfl
@[simp] theorem Thread.setRef_cntSt (t : Thread) (n : BitVec 4) (v : DWord) : (t.setRef n v).cntSt = t.cntSt := rfl
@[simp] theorem Thread.setRef_cntCp (t : Thread) (n : BitVec 4) (v : DWord) : (t.setRef n v).cntCp = t.cntCp := rfl
@[simp] theorem Thread.setRef_cntTl (t : Thread) (n : BitVec 4) (v : DWord) : (t.setRef n v).cntTl = t.cntTl := rfl
@[simp] theorem Thread.setRef_status (t : Thread) (n : BitVec 4) (v : DWord) : (t.setRef n v).status = t.status := rfl
@[simp] theorem Thread.setRef_bundle (t : Thread) (n : BitVec 4) (v : DWord) : (t.setRef n v).bundle = t.bundle := rfl
@[simp] theorem Thread.setRef_wake (t : Thread) (n : BitVec 4) (v : DWord) : (t.setRef n v).wake = t.wake := rfl
@[simp] theorem Thread.setRef_missing (t : Thread) (n : BitVec 4) (v : DWord) : (t.setRef n v).missing = t.missing := rfl
@[simp] theorem Thread.setRef_parkedAt (t : Thread) (n : BitVec 4) (v : DWord) : (t.setRef n v).parkedAt = t.parkedAt := rfl
@[simp] theorem Thread.setRef_misses (t : Thread) (n : BitVec 4) (v : DWord) : (t.setRef n v).misses = t.misses := rfl
@[simp] theorem Thread.setRef_watch (t : Thread) (n : BitVec 4) (v : DWord) : (t.setRef n v).watch = t.watch := rfl
@[simp] theorem Thread.setRef_trigBy (t : Thread) (n : BitVec 4) (v : DWord) : (t.setRef n v).trigBy = t.trigBy := rfl
@[simp] theorem Thread.setRef_slabs (t : Thread) (n : BitVec 4) (v : DWord) : (t.setRef n v).slabs = t.slabs := rfl
@[simp] theorem Thread.setRef_spilled (t : Thread) (n : BitVec 4) (v : DWord) : (t.setRef n v).spilled = t.spilled := rfl
@[simp] theorem Thread.setRef_badSpills (t : Thread) (n : BitVec 4) (v : DWord) : (t.setRef n v).badSpills = t.badSpills := rfl
@[simp] theorem Thread.setRef_tags (t : Thread) (n : BitVec 4) (v : DWord) : (t.setRef n v).tags = t.tags := rfl
@[simp] theorem Thread.setRef_moved (t : Thread) (n : BitVec 4) (v : DWord) : (t.setRef n v).moved = t.moved := rfl
@[simp] theorem Thread.setRef_pendRegs (t : Thread) (n : BitVec 4) (v : DWord) : (t.setRef n v).pendRegs = t.pendRegs := rfl
@[simp] theorem Thread.setRef_pendPreds (t : Thread) (n : BitVec 4) (v : DWord) : (t.setRef n v).pendPreds = t.pendPreds := rfl
@[simp] theorem Thread.setRef_parity (t : Thread) (n : BitVec 4) (v : DWord) : (t.setRef n v).parity = t.parity := rfl
@[simp] theorem Thread.setRef_yielded (t : Thread) (n : BitVec 4) (v : DWord) : (t.setRef n v).yielded = t.yielded := rfl
@[simp] theorem Thread.setRef_walked (t : Thread) (n : BitVec 4) (v : DWord) : (t.setRef n v).walked = t.walked := rfl
@[simp] theorem Thread.setRef_fetching (t : Thread) (n : BitVec 4) (v : DWord) : (t.setRef n v).fetching = t.fetching := rfl
@[simp] theorem Thread.wait_pc (t : Thread) (w : Wait) : (t.wait w).pc = t.pc := rfl
@[simp] theorem Thread.wait_lastPc (t : Thread) (w : Wait) : (t.wait w).lastPc = t.lastPc := rfl
@[simp] theorem Thread.wait_wb (t : Thread) (w : Wait) : (t.wait w).wb = t.wb := rfl
@[simp] theorem Thread.wait_stack (t : Thread) (w : Wait) : (t.wait w).stack = t.stack := rfl
@[simp] theorem Thread.wait_preds (t : Thread) (w : Wait) : (t.wait w).preds = t.preds := rfl
@[simp] theorem Thread.wait_refs (t : Thread) (w : Wait) : (t.wait w).refs = t.refs := rfl
@[simp] theorem Thread.wait_fpflags (t : Thread) (w : Wait) : (t.wait w).fpflags = t.fpflags := rfl
@[simp] theorem Thread.wait_resm (t : Thread) (w : Wait) : (t.wait w).resm = t.resm := rfl
@[simp] theorem Thread.wait_trapcause (t : Thread) (w : Wait) : (t.wait w).trapcause = t.trapcause := rfl
@[simp] theorem Thread.wait_trappc (t : Thread) (w : Wait) : (t.wait w).trappc = t.trappc := rfl
@[simp] theorem Thread.wait_trapaddr (t : Thread) (w : Wait) : (t.wait w).trapaddr = t.trapaddr := rfl
@[simp] theorem Thread.wait_trapvec (t : Thread) (w : Wait) : (t.wait w).trapvec = t.trapvec := rfl
@[simp] theorem Thread.wait_handler (t : Thread) (w : Wait) : (t.wait w).handler = t.handler := rfl
@[simp] theorem Thread.wait_cntLd (t : Thread) (w : Wait) : (t.wait w).cntLd = t.cntLd := rfl
@[simp] theorem Thread.wait_cntSt (t : Thread) (w : Wait) : (t.wait w).cntSt = t.cntSt := rfl
@[simp] theorem Thread.wait_cntCp (t : Thread) (w : Wait) : (t.wait w).cntCp = t.cntCp := rfl
@[simp] theorem Thread.wait_cntTl (t : Thread) (w : Wait) : (t.wait w).cntTl = t.cntTl := rfl
@[simp] theorem Thread.wait_wake (t : Thread) (w : Wait) : (t.wait w).wake = t.wake := rfl
@[simp] theorem Thread.wait_missing (t : Thread) (w : Wait) : (t.wait w).missing = t.missing := rfl
@[simp] theorem Thread.wait_parkedAt (t : Thread) (w : Wait) : (t.wait w).parkedAt = t.parkedAt := rfl
@[simp] theorem Thread.wait_misses (t : Thread) (w : Wait) : (t.wait w).misses = t.misses := rfl
@[simp] theorem Thread.wait_watch (t : Thread) (w : Wait) : (t.wait w).watch = t.watch := rfl
@[simp] theorem Thread.wait_trigBy (t : Thread) (w : Wait) : (t.wait w).trigBy = t.trigBy := rfl
@[simp] theorem Thread.wait_slabs (t : Thread) (w : Wait) : (t.wait w).slabs = t.slabs := rfl
@[simp] theorem Thread.wait_spilled (t : Thread) (w : Wait) : (t.wait w).spilled = t.spilled := rfl
@[simp] theorem Thread.wait_badSpills (t : Thread) (w : Wait) : (t.wait w).badSpills = t.badSpills := rfl
@[simp] theorem Thread.wait_tags (t : Thread) (w : Wait) : (t.wait w).tags = t.tags := rfl
@[simp] theorem Thread.wait_moved (t : Thread) (w : Wait) : (t.wait w).moved = t.moved := rfl
@[simp] theorem Thread.wait_pendRegs (t : Thread) (w : Wait) : (t.wait w).pendRegs = t.pendRegs := rfl
@[simp] theorem Thread.wait_pendPreds (t : Thread) (w : Wait) : (t.wait w).pendPreds = t.pendPreds := rfl
@[simp] theorem Thread.wait_pendRefs (t : Thread) (w : Wait) : (t.wait w).pendRefs = t.pendRefs := rfl
@[simp] theorem Thread.wait_parity (t : Thread) (w : Wait) : (t.wait w).parity = t.parity := rfl
@[simp] theorem Thread.wait_yielded (t : Thread) (w : Wait) : (t.wait w).yielded = t.yielded := rfl
@[simp] theorem Thread.wait_walked (t : Thread) (w : Wait) : (t.wait w).walked = t.walked := rfl
@[simp] theorem Thread.wait_fetching (t : Thread) (w : Wait) : (t.wait w).fetching = t.fetching := rfl
@[simp] theorem Thread.recordTrap_pc (t : Thread) (c : BitVec 8) (x : BitVec 18) (p a : DWord) : (t.recordTrap c x p a).pc = t.pc := rfl
@[simp] theorem Thread.recordTrap_lastPc (t : Thread) (c : BitVec 8) (x : BitVec 18) (p a : DWord) : (t.recordTrap c x p a).lastPc = t.lastPc := rfl
@[simp] theorem Thread.recordTrap_wb (t : Thread) (c : BitVec 8) (x : BitVec 18) (p a : DWord) : (t.recordTrap c x p a).wb = t.wb := rfl
@[simp] theorem Thread.recordTrap_stack (t : Thread) (c : BitVec 8) (x : BitVec 18) (p a : DWord) : (t.recordTrap c x p a).stack = t.stack := rfl
@[simp] theorem Thread.recordTrap_preds (t : Thread) (c : BitVec 8) (x : BitVec 18) (p a : DWord) : (t.recordTrap c x p a).preds = t.preds := rfl
@[simp] theorem Thread.recordTrap_refs (t : Thread) (c : BitVec 8) (x : BitVec 18) (p a : DWord) : (t.recordTrap c x p a).refs = t.refs := rfl
@[simp] theorem Thread.recordTrap_fpflags (t : Thread) (c : BitVec 8) (x : BitVec 18) (p a : DWord) : (t.recordTrap c x p a).fpflags = t.fpflags := rfl
@[simp] theorem Thread.recordTrap_resm (t : Thread) (c : BitVec 8) (x : BitVec 18) (p a : DWord) : (t.recordTrap c x p a).resm = t.resm := rfl
@[simp] theorem Thread.recordTrap_trapvec (t : Thread) (c : BitVec 8) (x : BitVec 18) (p a : DWord) : (t.recordTrap c x p a).trapvec = t.trapvec := rfl
@[simp] theorem Thread.recordTrap_handler (t : Thread) (c : BitVec 8) (x : BitVec 18) (p a : DWord) : (t.recordTrap c x p a).handler = t.handler := rfl
@[simp] theorem Thread.recordTrap_cntLd (t : Thread) (c : BitVec 8) (x : BitVec 18) (p a : DWord) : (t.recordTrap c x p a).cntLd = t.cntLd := rfl
@[simp] theorem Thread.recordTrap_cntSt (t : Thread) (c : BitVec 8) (x : BitVec 18) (p a : DWord) : (t.recordTrap c x p a).cntSt = t.cntSt := rfl
@[simp] theorem Thread.recordTrap_cntCp (t : Thread) (c : BitVec 8) (x : BitVec 18) (p a : DWord) : (t.recordTrap c x p a).cntCp = t.cntCp := rfl
@[simp] theorem Thread.recordTrap_cntTl (t : Thread) (c : BitVec 8) (x : BitVec 18) (p a : DWord) : (t.recordTrap c x p a).cntTl = t.cntTl := rfl
@[simp] theorem Thread.recordTrap_status (t : Thread) (c : BitVec 8) (x : BitVec 18) (p a : DWord) : (t.recordTrap c x p a).status = t.status := rfl
@[simp] theorem Thread.recordTrap_bundle (t : Thread) (c : BitVec 8) (x : BitVec 18) (p a : DWord) : (t.recordTrap c x p a).bundle = t.bundle := rfl
@[simp] theorem Thread.recordTrap_wake (t : Thread) (c : BitVec 8) (x : BitVec 18) (p a : DWord) : (t.recordTrap c x p a).wake = t.wake := rfl
@[simp] theorem Thread.recordTrap_missing (t : Thread) (c : BitVec 8) (x : BitVec 18) (p a : DWord) : (t.recordTrap c x p a).missing = t.missing := rfl
@[simp] theorem Thread.recordTrap_parkedAt (t : Thread) (c : BitVec 8) (x : BitVec 18) (p a : DWord) : (t.recordTrap c x p a).parkedAt = t.parkedAt := rfl
@[simp] theorem Thread.recordTrap_misses (t : Thread) (c : BitVec 8) (x : BitVec 18) (p a : DWord) : (t.recordTrap c x p a).misses = t.misses := rfl
@[simp] theorem Thread.recordTrap_watch (t : Thread) (c : BitVec 8) (x : BitVec 18) (p a : DWord) : (t.recordTrap c x p a).watch = t.watch := rfl
@[simp] theorem Thread.recordTrap_trigBy (t : Thread) (c : BitVec 8) (x : BitVec 18) (p a : DWord) : (t.recordTrap c x p a).trigBy = t.trigBy := rfl
@[simp] theorem Thread.recordTrap_slabs (t : Thread) (c : BitVec 8) (x : BitVec 18) (p a : DWord) : (t.recordTrap c x p a).slabs = t.slabs := rfl
@[simp] theorem Thread.recordTrap_spilled (t : Thread) (c : BitVec 8) (x : BitVec 18) (p a : DWord) : (t.recordTrap c x p a).spilled = t.spilled := rfl
@[simp] theorem Thread.recordTrap_badSpills (t : Thread) (c : BitVec 8) (x : BitVec 18) (p a : DWord) : (t.recordTrap c x p a).badSpills = t.badSpills := rfl
@[simp] theorem Thread.recordTrap_tags (t : Thread) (c : BitVec 8) (x : BitVec 18) (p a : DWord) : (t.recordTrap c x p a).tags = t.tags := rfl
@[simp] theorem Thread.recordTrap_moved (t : Thread) (c : BitVec 8) (x : BitVec 18) (p a : DWord) : (t.recordTrap c x p a).moved = t.moved := rfl
@[simp] theorem Thread.recordTrap_pendRegs (t : Thread) (c : BitVec 8) (x : BitVec 18) (p a : DWord) : (t.recordTrap c x p a).pendRegs = t.pendRegs := rfl
@[simp] theorem Thread.recordTrap_pendPreds (t : Thread) (c : BitVec 8) (x : BitVec 18) (p a : DWord) : (t.recordTrap c x p a).pendPreds = t.pendPreds := rfl
@[simp] theorem Thread.recordTrap_pendRefs (t : Thread) (c : BitVec 8) (x : BitVec 18) (p a : DWord) : (t.recordTrap c x p a).pendRefs = t.pendRefs := rfl
@[simp] theorem Thread.recordTrap_parity (t : Thread) (c : BitVec 8) (x : BitVec 18) (p a : DWord) : (t.recordTrap c x p a).parity = t.parity := rfl
@[simp] theorem Thread.recordTrap_yielded (t : Thread) (c : BitVec 8) (x : BitVec 18) (p a : DWord) : (t.recordTrap c x p a).yielded = t.yielded := rfl
@[simp] theorem Thread.recordTrap_walked (t : Thread) (c : BitVec 8) (x : BitVec 18) (p a : DWord) : (t.recordTrap c x p a).walked = t.walked := rfl
@[simp] theorem Thread.recordTrap_fetching (t : Thread) (c : BitVec 8) (x : BitVec 18) (p a : DWord) : (t.recordTrap c x p a).fetching = t.fetching := rfl
@[simp] theorem Thread.enterHandler_lastPc (t : Thread) : t.enterHandler.lastPc = t.lastPc := rfl
@[simp] theorem Thread.enterHandler_wb (t : Thread) : t.enterHandler.wb = t.wb := rfl
@[simp] theorem Thread.enterHandler_stack (t : Thread) : t.enterHandler.stack = t.stack := rfl
@[simp] theorem Thread.enterHandler_preds (t : Thread) : t.enterHandler.preds = t.preds := rfl
@[simp] theorem Thread.enterHandler_refs (t : Thread) : t.enterHandler.refs = t.refs := rfl
@[simp] theorem Thread.enterHandler_fpflags (t : Thread) : t.enterHandler.fpflags = t.fpflags := rfl
@[simp] theorem Thread.enterHandler_resm (t : Thread) : t.enterHandler.resm = t.resm := rfl
@[simp] theorem Thread.enterHandler_trapcause (t : Thread) : t.enterHandler.trapcause = t.trapcause := rfl
@[simp] theorem Thread.enterHandler_trappc (t : Thread) : t.enterHandler.trappc = t.trappc := rfl
@[simp] theorem Thread.enterHandler_trapaddr (t : Thread) : t.enterHandler.trapaddr = t.trapaddr := rfl
@[simp] theorem Thread.enterHandler_trapvec (t : Thread) : t.enterHandler.trapvec = t.trapvec := rfl
@[simp] theorem Thread.enterHandler_cntLd (t : Thread) : t.enterHandler.cntLd = t.cntLd := rfl
@[simp] theorem Thread.enterHandler_cntSt (t : Thread) : t.enterHandler.cntSt = t.cntSt := rfl
@[simp] theorem Thread.enterHandler_cntCp (t : Thread) : t.enterHandler.cntCp = t.cntCp := rfl
@[simp] theorem Thread.enterHandler_cntTl (t : Thread) : t.enterHandler.cntTl = t.cntTl := rfl
@[simp] theorem Thread.enterHandler_bundle (t : Thread) : t.enterHandler.bundle = t.bundle := rfl
@[simp] theorem Thread.enterHandler_wake (t : Thread) : t.enterHandler.wake = t.wake := rfl
@[simp] theorem Thread.enterHandler_missing (t : Thread) : t.enterHandler.missing = t.missing := rfl
@[simp] theorem Thread.enterHandler_parkedAt (t : Thread) : t.enterHandler.parkedAt = t.parkedAt := rfl
@[simp] theorem Thread.enterHandler_misses (t : Thread) : t.enterHandler.misses = t.misses := rfl
@[simp] theorem Thread.enterHandler_watch (t : Thread) : t.enterHandler.watch = t.watch := rfl
@[simp] theorem Thread.enterHandler_trigBy (t : Thread) : t.enterHandler.trigBy = t.trigBy := rfl
@[simp] theorem Thread.enterHandler_slabs (t : Thread) : t.enterHandler.slabs = t.slabs := rfl
@[simp] theorem Thread.enterHandler_spilled (t : Thread) : t.enterHandler.spilled = t.spilled := rfl
@[simp] theorem Thread.enterHandler_badSpills (t : Thread) : t.enterHandler.badSpills = t.badSpills := rfl
@[simp] theorem Thread.enterHandler_tags (t : Thread) : t.enterHandler.tags = t.tags := rfl
@[simp] theorem Thread.enterHandler_moved (t : Thread) : t.enterHandler.moved = t.moved := rfl
@[simp] theorem Thread.enterHandler_pendRegs (t : Thread) : t.enterHandler.pendRegs = t.pendRegs := rfl
@[simp] theorem Thread.enterHandler_pendPreds (t : Thread) : t.enterHandler.pendPreds = t.pendPreds := rfl
@[simp] theorem Thread.enterHandler_pendRefs (t : Thread) : t.enterHandler.pendRefs = t.pendRefs := rfl
@[simp] theorem Thread.enterHandler_parity (t : Thread) : t.enterHandler.parity = t.parity := rfl
@[simp] theorem Thread.enterHandler_yielded (t : Thread) : t.enterHandler.yielded = t.yielded := rfl
@[simp] theorem Thread.enterHandler_walked (t : Thread) : t.enterHandler.walked = t.walked := rfl
@[simp] theorem Thread.enterHandler_fetching (t : Thread) : t.enterHandler.fetching = t.fetching := rfl
@[simp] theorem Thread.returnFromTrap_lastPc (t : Thread) : t.returnFromTrap.lastPc = t.lastPc := rfl
@[simp] theorem Thread.returnFromTrap_wb (t : Thread) : t.returnFromTrap.wb = t.wb := rfl
@[simp] theorem Thread.returnFromTrap_stack (t : Thread) : t.returnFromTrap.stack = t.stack := rfl
@[simp] theorem Thread.returnFromTrap_preds (t : Thread) : t.returnFromTrap.preds = t.preds := rfl
@[simp] theorem Thread.returnFromTrap_refs (t : Thread) : t.returnFromTrap.refs = t.refs := rfl
@[simp] theorem Thread.returnFromTrap_fpflags (t : Thread) : t.returnFromTrap.fpflags = t.fpflags := rfl
@[simp] theorem Thread.returnFromTrap_resm (t : Thread) : t.returnFromTrap.resm = t.resm := rfl
@[simp] theorem Thread.returnFromTrap_trapcause (t : Thread) : t.returnFromTrap.trapcause = t.trapcause := rfl
@[simp] theorem Thread.returnFromTrap_trappc (t : Thread) : t.returnFromTrap.trappc = t.trappc := rfl
@[simp] theorem Thread.returnFromTrap_trapaddr (t : Thread) : t.returnFromTrap.trapaddr = t.trapaddr := rfl
@[simp] theorem Thread.returnFromTrap_trapvec (t : Thread) : t.returnFromTrap.trapvec = t.trapvec := rfl
@[simp] theorem Thread.returnFromTrap_cntLd (t : Thread) : t.returnFromTrap.cntLd = t.cntLd := rfl
@[simp] theorem Thread.returnFromTrap_cntSt (t : Thread) : t.returnFromTrap.cntSt = t.cntSt := rfl
@[simp] theorem Thread.returnFromTrap_cntCp (t : Thread) : t.returnFromTrap.cntCp = t.cntCp := rfl
@[simp] theorem Thread.returnFromTrap_cntTl (t : Thread) : t.returnFromTrap.cntTl = t.cntTl := rfl
@[simp] theorem Thread.returnFromTrap_status (t : Thread) : t.returnFromTrap.status = t.status := rfl
@[simp] theorem Thread.returnFromTrap_bundle (t : Thread) : t.returnFromTrap.bundle = t.bundle := rfl
@[simp] theorem Thread.returnFromTrap_wake (t : Thread) : t.returnFromTrap.wake = t.wake := rfl
@[simp] theorem Thread.returnFromTrap_missing (t : Thread) : t.returnFromTrap.missing = t.missing := rfl
@[simp] theorem Thread.returnFromTrap_parkedAt (t : Thread) : t.returnFromTrap.parkedAt = t.parkedAt := rfl
@[simp] theorem Thread.returnFromTrap_misses (t : Thread) : t.returnFromTrap.misses = t.misses := rfl
@[simp] theorem Thread.returnFromTrap_watch (t : Thread) : t.returnFromTrap.watch = t.watch := rfl
@[simp] theorem Thread.returnFromTrap_trigBy (t : Thread) : t.returnFromTrap.trigBy = t.trigBy := rfl
@[simp] theorem Thread.returnFromTrap_slabs (t : Thread) : t.returnFromTrap.slabs = t.slabs := rfl
@[simp] theorem Thread.returnFromTrap_spilled (t : Thread) : t.returnFromTrap.spilled = t.spilled := rfl
@[simp] theorem Thread.returnFromTrap_badSpills (t : Thread) : t.returnFromTrap.badSpills = t.badSpills := rfl
@[simp] theorem Thread.returnFromTrap_tags (t : Thread) : t.returnFromTrap.tags = t.tags := rfl
@[simp] theorem Thread.returnFromTrap_moved (t : Thread) : t.returnFromTrap.moved = t.moved := rfl
@[simp] theorem Thread.returnFromTrap_pendRegs (t : Thread) : t.returnFromTrap.pendRegs = t.pendRegs := rfl
@[simp] theorem Thread.returnFromTrap_pendPreds (t : Thread) : t.returnFromTrap.pendPreds = t.pendPreds := rfl
@[simp] theorem Thread.returnFromTrap_pendRefs (t : Thread) : t.returnFromTrap.pendRefs = t.pendRefs := rfl
@[simp] theorem Thread.returnFromTrap_parity (t : Thread) : t.returnFromTrap.parity = t.parity := rfl
@[simp] theorem Thread.returnFromTrap_yielded (t : Thread) : t.returnFromTrap.yielded = t.yielded := rfl
@[simp] theorem Thread.returnFromTrap_walked (t : Thread) : t.returnFromTrap.walked = t.walked := rfl
@[simp] theorem Thread.returnFromTrap_fetching (t : Thread) : t.returnFromTrap.fetching = t.fetching := rfl
@[simp] theorem Thread.next_pc (t : Thread) : t.next.pc = t.pc + 4 := rfl

/-! ## A thread of a team -/

@[simp] theorem Team.modThread_ctx (T : Team) (i : Nat) (f : Thread → Thread) : (T.modThread i f).ctx = T.ctx := rfl
@[simp] theorem Team.modThread_gid (T : Team) (i : Nat) (f : Thread → Thread) : (T.modThread i f).gid = T.gid := rfl
@[simp] theorem Team.modThread_index (T : Team) (i : Nat) (f : Thread → Thread) : (T.modThread i f).index = T.index := rfl
@[simp] theorem Team.modThread_size (T : Team) (i : Nat) (f : Thread → Thread) : (T.modThread i f).size = T.size := rfl
@[simp] theorem Team.modThread_phase (T : Team) (i : Nat) (f : Thread → Thread) : (T.modThread i f).phase = T.phase := rfl
@[simp] theorem Team.modThread_core (T : Team) (i : Nat) (f : Thread → Thread) : (T.modThread i f).core = T.core := rfl
@[simp] theorem Team.modThread_slot (T : Team) (i : Nat) (f : Thread → Thread) : (T.modThread i f).slot = T.slot := rfl
@[simp] theorem Team.modThread_placedAt (T : Team) (i : Nat) (f : Thread → Thread) : (T.modThread i f).placedAt = T.placedAt := rfl
@[simp] theorem Team.modThread_killed (T : Team) (i : Nat) (f : Thread → Thread) : (T.modThread i f).killed = T.killed := rfl
@[simp] theorem Team.modThread_mirrored (T : Team) (i : Nat) (f : Thread → Thread) : (T.modThread i f).mirrored = T.mirrored := rfl
@[simp] theorem Team.modThread_accBase (T : Team) (i : Nat) (f : Thread → Thread) : (T.modThread i f).accBase = T.accBase := rfl
@[simp] theorem Team.modThread_accs (T : Team) (i : Nat) (f : Thread → Thread) : (T.modThread i f).accs = T.accs := rfl
@[simp] theorem Team.modThread_abufBase (T : Team) (i : Nat) (f : Thread → Thread) : (T.modThread i f).abufBase = T.abufBase := rfl
@[simp] theorem Team.modThread_abufs (T : Team) (i : Nat) (f : Thread → Thread) : (T.modThread i f).abufs = T.abufs := rfl
@[simp] theorem Team.modThread_bslotBase (T : Team) (i : Nat) (f : Thread → Thread) : (T.modThread i f).bslotBase = T.bslotBase := rfl
@[simp] theorem Team.modThread_bslots (T : Team) (i : Nat) (f : Thread → Thread) : (T.modThread i f).bslots = T.bslots := rfl
@[simp] theorem Team.modThread_slabs (T : Team) (i : Nat) (f : Thread → Thread) : (T.modThread i f).slabs = T.slabs := rfl
@[simp] theorem Team.modThread_slabOps (T : Team) (i : Nat) (f : Thread → Thread) : (T.modThread i f).slabOps = T.slabOps := rfl
@[simp] theorem Team.modThread_stash (T : Team) (i : Nat) (f : Thread → Thread) : (T.modThread i f).stash = T.stash := rfl
@[simp] theorem Team.modThread_ringOff (T : Team) (i : Nat) (f : Thread → Thread) : (T.modThread i f).ringOff = T.ringOff := rfl
@[simp] theorem Team.modThread_ringLen (T : Team) (i : Nat) (f : Thread → Thread) : (T.modThread i f).ringLen = T.ringLen := rfl
@[simp] theorem Team.modThread_ring (T : Team) (i : Nat) (f : Thread → Thread) : (T.modThread i f).ring = T.ring := rfl
@[simp] theorem Team.modThread_kicks (T : Team) (i : Nat) (f : Thread → Thread) : (T.modThread i f).kicks = T.kicks := rfl
@[simp] theorem Team.modThread_maps (T : Team) (i : Nat) (f : Thread → Thread) : (T.modThread i f).maps = T.maps := rfl
@[simp] theorem Team.modThread_lines (T : Team) (i : Nat) (f : Thread → Thread) : (T.modThread i f).lines = T.lines := rfl
@[simp] theorem Team.modThread_scratchBase (T : Team) (i : Nat) (f : Thread → Thread) : (T.modThread i f).scratchBase = T.scratchBase := rfl
@[simp] theorem Team.modThread_scratchLen (T : Team) (i : Nat) (f : Thread → Thread) : (T.modThread i f).scratchLen = T.scratchLen := rfl
@[simp] theorem Team.modThread_tnv (T : Team) (i : Nat) (f : Thread → Thread) : (T.modThread i f).tnv = T.tnv := rfl
@[simp] theorem Team.modThread_tof (T : Team) (i : Nat) (f : Thread → Thread) : (T.modThread i f).tof = T.tof := rfl
@[simp] theorem Team.modThread_tuf (T : Team) (i : Nat) (f : Thread → Thread) : (T.modThread i f).tuf = T.tuf := rfl
@[simp] theorem Team.modThread_bars (T : Team) (i : Nat) (f : Thread → Thread) : (T.modThread i f).bars = T.bars := rfl
@[simp] theorem Team.modThread_cc (T : Team) (i : Nat) (f : Thread → Thread) : (T.modThread i f).cc = T.cc := rfl
@[simp] theorem Team.modThread_pins (T : Team) (i : Nat) (f : Thread → Thread) : (T.modThread i f).pins = T.pins := rfl
@[simp] theorem Team.modThread_timers (T : Team) (i : Nat) (f : Thread → Thread) : (T.modThread i f).timers = T.timers := rfl
@[simp] theorem Team.modThread_stampBase (T : Team) (i : Nat) (f : Thread → Thread) : (T.modThread i f).stampBase = T.stampBase := rfl
@[simp] theorem Team.modThread_stampSeq (T : Team) (i : Nat) (f : Thread → Thread) : (T.modThread i f).stampSeq = T.stampSeq := rfl
@[simp] theorem Team.modThread_stamps (T : Team) (i : Nat) (f : Thread → Thread) : (T.modThread i f).stamps = T.stamps := rfl
@[simp] theorem Team.modThread_reqs (T : Team) (i : Nat) (f : Thread → Thread) : (T.modThread i f).reqs = T.reqs := rfl
@[simp] theorem Team.modThread_stopped (T : Team) (i : Nat) (f : Thread → Thread) : (T.modThread i f).stopped = T.stopped := rfl

end Sys2Proof.Machine
end

