-- ==== Sys2Proof/Laws/Tables.lean ====
section
/-! SUPPORT. Tables: what a read finds after a write, and that writes keep keys rising and sparse lists canonical. -/

namespace Sys2Proof.Machine

variable {α : Type}

@[simp] theorem tget?_tput_same (k : Nat) (v : α) (l : List (Nat × α)) : tget? k (tput k v l) = some v := by
  induction l with
  | nil => simp [tput, tget?]
  | cons x r ih =>
    obtain ⟨j, u⟩ := x
    simp only [tput]
    split
    · simp [tget?]
    · split
      · simp [tget?]
      · next h => simp [tget?, h, ih]

theorem tget?_tput_other {k n : Nat} (h : n ≠ k) (v : α) (l : List (Nat × α)) :
    tget? n (tput k v l) = tget? n l := by
  induction l with
  | nil => simp [tput, tget?, Ne.symm h]
  | cons x r ih =>
    obtain ⟨j, u⟩ := x
    simp only [tput]
    split
    · simp [tget?, Ne.symm h]
    · split
      · next h1 => subst h1; simp [tget?, Ne.symm h]
      · simp only [tget?, ih]

theorem tget?_tput (k n : Nat) (v : α) (l : List (Nat × α)) :
    tget? n (tput k v l) = if n = k then some v else tget? n l := by
  split
  · next h => subst h; simp
  · next h => exact tget?_tput_other h v l

@[simp] theorem tget_tput_same (d : α) (k : Nat) (v : α) (l : List (Nat × α)) : tget d k (tput k v l) = v := by
  simp [tget]

theorem tget_tput_other (d : α) {k n : Nat} (h : n ≠ k) (v : α) (l : List (Nat × α)) :
    tget d n (tput k v l) = tget d n l := by
  simp [tget, tget?_tput_other h]

theorem tget?_tdel (k n : Nat) (l : List (Nat × α)) : tget? n (tdel k l) = if n = k then none else tget? n l := by
  induction l with
  | nil => simp [tdel, tget?]
  | cons x r ih =>
    obtain ⟨j, u⟩ := x
    by_cases hj : j = k
    · subst hj
      simp only [tdel, List.filter_cons, bne_self_eq_false, Bool.false_eq_true, if_false, tget?] at ih ⊢
      by_cases hn : n = j
      · simpa [hn] using ih
      · simpa [hn, Ne.symm hn] using ih
    · simp only [tdel, List.filter_cons, bne_iff_ne, ne_eq, hj, not_false_eq_true, if_true, tget?] at ih ⊢
      by_cases hn : n = k
      · subst hn; simpa [hj] using ih
      · simp [ih, hn]

@[simp] theorem sget_sput_same {w : Nat} (k : Nat) (v : BitVec w) (l : List (Nat × BitVec w)) :
    sget k (sput k v l) = v := by
  unfold sput sget
  split
  · next h => simp [tget, tget?_tdel, h]
  · simp

theorem sget_sput_other {w k n : Nat} (h : n ≠ k) (v : BitVec w) (l : List (Nat × BitVec w)) :
    sget n (sput k v l) = sget n l := by
  unfold sput sget
  split
  · simp [tget, tget?_tdel, h]
  · exact tget_tput_other 0 h v l

theorem sget_sput {w : Nat} (k n : Nat) (v : BitVec w) (l : List (Nat × BitVec w)) :
    sget n (sput k v l) = if n = k then v else sget n l := by
  split
  · next h => subst h; simp
  · next h => exact sget_sput_other h v l

/-! ## Rising keys -/

/-- Every key of a list lies above a number. -/
def keysAbove (n : Nat) (l : List (Nat × α)) : Prop := ∀ x ∈ l, n < x.1

theorem rising_cons (x : Nat × α) (l : List (Nat × α)) :
    rising (x :: l) = true ↔ keysAbove x.1 l ∧ rising l = true := by
  induction l generalizing x with
  | nil => simp [rising, keysAbove]
  | cons y r ih =>
    obtain ⟨j, u⟩ := x
    obtain ⟨k, v⟩ := y
    simp only [rising, Bool.and_eq_true, decide_eq_true_eq]
    rw [ih]
    simp only [keysAbove, List.forall_mem_cons]
    constructor
    · rintro ⟨h1, h2, h3⟩
      exact ⟨⟨h1, fun y hy => by have := h2 y hy; omega⟩, h2, h3⟩
    · rintro ⟨⟨h1, -⟩, h2, h3⟩
      exact ⟨h1, h2, h3⟩

theorem keysAbove_tput {n k : Nat} (h : n < k) (v : α) {l : List (Nat × α)} (hl : keysAbove n l) :
    keysAbove n (tput k v l) := by
  induction l with
  | nil => simpa [tput, keysAbove] using h
  | cons x r ih =>
    obtain ⟨j, u⟩ := x
    have hj : n < j := hl (j, u) (by simp)
    have hr : keysAbove n r := fun y hy => hl y (by simp [hy])
    simp only [tput]
    split
    · intro y hy; simp only [List.mem_cons] at hy; rcases hy with rfl | rfl | hy
      · exact h
      · exact hj
      · exact hr y hy
    · split
      · intro y hy; simp only [List.mem_cons] at hy; rcases hy with rfl | hy
        · exact h
        · exact hr y hy
      · intro y hy; simp only [List.mem_cons] at hy; rcases hy with rfl | hy
        · exact hj
        · exact ih hr y hy

theorem rising_tput (k : Nat) (v : α) {l : List (Nat × α)} (hl : rising l = true) : rising (tput k v l) = true := by
  induction l with
  | nil => simp [tput, rising]
  | cons x r ih =>
    obtain ⟨j, u⟩ := x
    have h := (rising_cons (j, u) r).1 hl
    simp only [tput]
    split
    · next hk =>
      refine (rising_cons _ _).2 ⟨?_, hl⟩
      intro y hy; simp only [List.mem_cons] at hy; rcases hy with rfl | hy
      · exact hk
      · have := h.1 y hy; simp only at this ⊢; omega
    · split
      · next hk => exact (rising_cons _ _).2 ⟨by simpa [← hk] using h.1, h.2⟩
      · exact (rising_cons _ _).2 ⟨keysAbove_tput (by simp only; omega) v h.1, ih h.2⟩

theorem keysAbove_filter {n : Nat} (p : Nat × α → Bool) {l : List (Nat × α)} (h : keysAbove n l) :
    keysAbove n (l.filter p) := fun y hy => h y (List.mem_filter.1 hy).1

theorem rising_filter (p : Nat × α → Bool) {l : List (Nat × α)} (hl : rising l = true) :
    rising (l.filter p) = true := by
  induction l with
  | nil => simp [rising]
  | cons x r ih =>
    have h := (rising_cons x r).1 hl
    simp only [List.filter_cons]
    split
    · exact (rising_cons _ _).2 ⟨keysAbove_filter p h.1, ih h.2⟩
    · exact ih h.2

theorem rising_tdel (k : Nat) {l : List (Nat × α)} (hl : rising l = true) : rising (tdel k l) = true :=
  rising_filter _ hl

theorem rising_map {β : Type} (f : Nat × α → β) {l : List (Nat × α)} (hl : rising l = true) :
    rising (l.map fun x => (x.1, f x)) = true := by
  induction l with
  | nil => simp [rising]
  | cons x r ih =>
    have h := (rising_cons x r).1 hl
    simp only [List.map_cons]
    refine (rising_cons _ _).2 ⟨?_, ih h.2⟩
    intro y hy
    obtain ⟨z, hz, rfl⟩ := List.mem_map.1 hy
    exact h.1 z hz

/-! ## Canonical sparse lists -/

theorem mem_tput {k : Nat} {v : α} {l : List (Nat × α)} {x : Nat × α} (h : x ∈ tput k v l) : x = (k, v) ∨ x ∈ l := by
  induction l with
  | nil => left; simpa [tput] using h
  | cons y r ih =>
    obtain ⟨j, u⟩ := y
    simp only [tput] at h
    split at h
    · simpa using h
    · split at h
      · rcases List.mem_cons.1 h with h | h
        · exact .inl h
        · exact .inr (List.mem_cons_of_mem _ h)
      · rcases List.mem_cons.1 h with rfl | h
        · exact .inr List.mem_cons_self
        · exact (ih h).imp_right (List.mem_cons_of_mem _)

theorem Sparse.wf_sput {w : Nat} (k : Nat) (v : BitVec w) {l : List (Nat × BitVec w)} (hl : Sparse.wf l = true) :
    Sparse.wf (sput k v l) = true := by
  simp only [Sparse.wf, Bool.and_eq_true, List.all_eq_true, bne_iff_ne, ne_eq] at hl ⊢
  unfold sput
  split
  · exact ⟨rising_tdel k hl.1, fun x hx => hl.2 x (List.mem_filter.1 hx).1⟩
  · next h =>
    refine ⟨rising_tput k v hl.1, fun x hx => ?_⟩
    rcases mem_tput hx with rfl | hx
    · exact h
    · exact hl.2 x hx

end Sys2Proof.Machine
end

