-- ==== Sys2Proof/Laws/Lanes.lean ====
section
/-! SUPPORT. The lanes of a bundle: what an instruction that acts in each lane on its own thread leaves. -/

namespace Sys2Proof.Machine

/-! ## Reads of teams and threads after their updates -/

theorem State.team?_setTeam (s : State) (k n : Nat) (T : Team) :
    (s.setTeam k T).team? n = if n = k then some T else s.team? n := tget?_tput k n T s.teams

theorem State.team?_modTeam (s : State) (k n : Nat) (f : Team → Team) :
    (s.modTeam k f).team? n = if n = k then (s.team? k).map f else s.team? n := by
  unfold State.modTeam
  split
  · next T h => rw [State.team?_setTeam, h]; rfl
  · next h => split <;> simp_all

theorem State.thread?_modTeam (s : State) (k n j : Nat) (f : Team → Team) :
    (s.modTeam k f).thread? n j = if n = k then (s.team? k).bind fun T => (f T).threads[j]? else s.thread? n j := by
  simp only [State.thread?, State.team?_modTeam]
  split
  · cases s.team? k <;> rfl
  · rfl

theorem State.thread?_modThread (s : State) (k i n j : Nat) (f : Thread → Thread) :
    (s.modThread k i f).thread? n j = if n = k ∧ j = i then (s.thread? k i).map f else s.thread? n j := by
  rw [State.modThread, State.thread?_modTeam]
  by_cases hn : n = k
  · subst hn
    simp only [Team.modThread, State.thread?, List.getElem?_modify, true_and, if_true]
    cases s.team? n with
    | none => by_cases hj : i = j <;> simp
    | some T =>
      by_cases hj : i = j
      · subst hj; simp
      · simp [hj, Ne.symm hj]
  · simp [hn]

/-! ## OnlyLanes -/

theorem OnlyLanes.refl (s : State) : OnlyLanes s s :=
  ⟨rfl, fun _ _ => rfl, fun T h => ⟨T.threads, rfl, h⟩, fun h => h, fun _ _ => rfl⟩

theorem OnlyLanes.trans {s t u : State} (h : OnlyLanes s t) (h' : OnlyLanes t u) : OnlyLanes s u := by
  have hi : t.issue = s.issue := by rw [h.rest]
  refine ⟨?_, ?_, ?_, ?_, ?_⟩
  · have a := h'.rest; rw [h.rest] at a; exact a
  · intro k hk; rw [h'.others k (by rw [hi]; exact hk), h.others k hk]
  · intro T hT
    obtain ⟨l, hl, hT'⟩ := h.team T hT
    obtain ⟨m, hm, hT''⟩ := h'.team _ (by rw [hi]; exact hT')
    exact ⟨m, by rw [hm, ← hl], by rw [hi] at hT''; exact hT''⟩
  · intro hT; have := h'.noTeam (by rw [hi]; exact h.noTeam hT); rwa [hi] at this
  · intro j hj
    have := h'.idle j (by rw [hi]; exact hj)
    rw [hi] at this
    rw [this, h.idle j hj]

theorem OnlyLanes.modThread {s t : State} (h : OnlyLanes s t) {i : Nat} (hi : i ∈ s.issue.tids) (f : Thread → Thread) :
    OnlyLanes s (t.modThread s.issue.team i f) := by
  refine h.trans ?_
  have e : t.issue = s.issue := by rw [h.rest]
  rw [← e] at hi ⊢
  refine ⟨?_, ?_, ?_, ?_, ?_⟩
  · unfold State.modThread State.modTeam; split <;> rfl
  · intro k hk; simp [State.modThread, State.team?_modTeam, hk]
  · intro T hT
    refine ⟨T.threads.modify i f, by simp, ?_⟩
    simp [State.modThread, State.team?_modTeam, hT, Team.modThread]
  · intro hT; simp [State.modThread, State.team?_modTeam, hT]
  · intro j hj
    rw [State.thread?_modThread, if_neg]
    rintro ⟨-, rfl⟩; exact hj hi

/-! ## onLanes -/

theorem State.mem_lanes {s : State} {x : Nat × Thread} :
    x ∈ s.lanes ↔ x.1 ∈ s.issue.tids ∧ s.thread? s.issue.team x.1 = some x.2 := by
  obtain ⟨i, t⟩ := x
  simp only [State.lanes, List.mem_filterMap, Option.map_eq_some_iff, Prod.mk.injEq]
  constructor
  · rintro ⟨j, hj, u, hu, rfl, rfl⟩; exact ⟨hj, hu⟩
  · rintro ⟨h1, h2⟩; exact ⟨i, h1, t, h2, rfl, rfl⟩

/-- What a lane that does not trap makes of its thread. -/
def LaneOut.applied (o : LaneOut) (t : Thread) : Thread :=
  match o with
  | .done u => u
  | .wait w => t.wait w
  | .trap _ => t

theorem State.thread?_putLane (s : State) (k : Nat) (x : Nat × LaneOut) (h : ∀ r, x.2 ≠ .trap r) (j : Nat) :
    (s.putLane k x).thread? k j = if j = x.1 then (s.thread? k j).map x.2.applied else s.thread? k j := by
  obtain ⟨i, o⟩ := x
  cases o with
  | done u =>
    simp only [State.putLane, State.thread?_modThread, true_and]
    by_cases hj : j = i
    · subst hj; rw [if_pos rfl, if_pos rfl]; rfl
    · simp [hj]
  | wait w =>
    simp only [State.putLane, State.thread?_modThread, true_and]
    by_cases hj : j = i
    · subst hj; rw [if_pos rfl, if_pos rfl]; rfl
    · simp [hj]
  | trap r => exact absurd rfl (h r)

theorem LaneOut.applied_twice (o : LaneOut) (t : Thread) : o.applied (o.applied t) = o.applied t := by
  cases o <;> rfl

theorem OnlyLanes.putLane {s t : State} (h : OnlyLanes s t) {x : Nat × LaneOut} (hi : x.1 ∈ s.issue.tids) :
    OnlyLanes s (t.putLane s.issue.team x) := by
  obtain ⟨i, o⟩ := x
  cases o
  · exact h.modThread hi _
  · exact h
  · exact h.modThread hi _

/-- The writes of the lanes, one after another. -/
theorem State.putLanes {s0 : State} {F : Nat → Thread → LaneOut} (L : List (Nat × Thread))
    (hL : ∀ x ∈ L, x.1 ∈ s0.issue.tids ∧ s0.thread? s0.issue.team x.1 = some x.2)
    (hno : ∀ x ∈ L, ∀ r, F x.1 x.2 ≠ .trap r) (s : State) (h : OnlyLanes s0 s)
    (hs : ∀ j, s.thread? s0.issue.team j = s0.thread? s0.issue.team j ∨
      s.thread? s0.issue.team j = (s0.thread? s0.issue.team j).map fun t => (F j t).applied t) :
    OnlyLanes s0 ((L.map fun x => (x.1, F x.1 x.2)).foldl (fun s x => s.putLane s.issue.team x) s) ∧
      ∀ j, ((L.map fun x => (x.1, F x.1 x.2)).foldl (fun s x => s.putLane s.issue.team x) s).thread? s0.issue.team j =
        if j ∈ L.map (fun x => x.1) then (s0.thread? s0.issue.team j).map fun t => (F j t).applied t
        else s.thread? s0.issue.team j := by
  induction L generalizing s with
  | nil => exact ⟨h, fun j => by simp⟩
  | cons x r ih =>
    have hx := hL x List.mem_cons_self
    have hn := hno x List.mem_cons_self
    have key : ∀ j, (s.putLane s0.issue.team (x.1, F x.1 x.2)).thread? s0.issue.team j =
        if j = x.1 then (s0.thread? s0.issue.team j).map fun t => (F j t).applied t else s.thread? s0.issue.team j := by
      intro j
      rw [State.thread?_putLane _ _ _ hn]
      by_cases hj : j = x.1
      · subst hj
        rw [if_pos rfl, if_pos rfl, hx.2]
        rcases hs x.1 with e | e <;> rw [e, hx.2] <;> simp [LaneOut.applied_twice]
      · simp [hj]
    have hk : s.issue.team = s0.issue.team := by rw [h.rest]
    have := ih (fun y hy => hL y (List.mem_cons_of_mem _ hy)) (fun y hy => hno y (List.mem_cons_of_mem _ hy))
      (s.putLane s0.issue.team (x.1, F x.1 x.2)) (h.putLane hx.1) (fun j => by
        rw [key j]; split
        · exact .inr rfl
        · exact hs j)
    refine ⟨by rw [List.map_cons, List.foldl_cons, hk]; exact this.1, fun j => ?_⟩
    rw [List.map_cons, List.foldl_cons, hk, this.2 j, key j]
    by_cases h1 : j ∈ r.map fun x => x.1
    · rw [if_pos h1, if_pos (by simpa using Or.inr (by simpa using h1))]
    · by_cases h2 : j = x.1
      · rw [if_neg h1, if_pos h2, if_pos (by simp [h2])]
      · rw [if_neg h1, if_neg h2, if_neg]
        simp only [List.map_cons, List.mem_cons, not_or]
        exact ⟨h2, h1⟩

theorem State.trapLanes_none (L : List (Nat × LaneOut)) (hno : ∀ x ∈ L, ∀ r, x.2 ≠ .trap r) (s : State) :
    L.foldl (fun s x => s.trapLane s.issue.team x) s = s := by
  induction L with
  | nil => rfl
  | cons x r ih =>
    have : s.trapLane s.issue.team x = s := by
      cases e : x.2 with
      | trap q => exact absurd e (hno x List.mem_cons_self q)
      | done t => simp [State.trapLane, e]
      | wait w => simp [State.trapLane, e]
    rw [List.foldl_cons, this]
    exact ih fun y hy => hno y (List.mem_cons_of_mem _ hy)

/-- An instruction no lane of which traps: each thread of the bundle becomes what its lane makes of it, and nothing else
changes. -/
theorem State.onLanes_spec (s : State) (f : List (Nat × Thread) → Nat → Thread → LaneOut)
    (hno : ∀ j t, j ∈ s.issue.tids → s.thread? s.issue.team j = some t → ∀ r, f s.lanes j t ≠ .trap r) :
    OnlyLanes s (s.onLanes f) ∧
      ∀ j t, j ∈ s.issue.tids → s.thread? s.issue.team j = some t →
        (s.onLanes f).thread? s.issue.team j = some ((f s.lanes j t).applied t) := by
  have hL : ∀ x ∈ s.lanes, x.1 ∈ s.issue.tids ∧ s.thread? s.issue.team x.1 = some x.2 := fun x hx => State.mem_lanes.1 hx
  have hn : ∀ x ∈ s.lanes, ∀ r, f s.lanes x.1 x.2 ≠ .trap r := fun x hx => hno x.1 x.2 (hL x hx).1 (hL x hx).2
  have main := State.putLanes (F := f s.lanes) s.lanes hL hn s (OnlyLanes.refl s) fun j => .inl rfl
  have e : s.onLanes f =
      (s.lanes.map fun x => (x.1, f s.lanes x.1 x.2)).foldl (fun u x => u.putLane u.issue.team x) s := by
    unfold State.onLanes
    simp only
    rw [State.trapLanes_none]
    · intro x hx r
      obtain ⟨y, hy, rfl⟩ := List.mem_map.1 hx
      exact hn y hy r
  rw [e]
  refine ⟨main.1, fun j t hj ht => ?_⟩
  rw [main.2 j, if_pos (List.mem_map.2 ⟨(j, t), State.mem_lanes.2 ⟨hj, ht⟩, rfl⟩), ht]
  rfl

end Sys2Proof.Machine
end

