-- ==== Sys2Proof/Laws/Memory.lean ====
section
/-! SUPPORT. Memory: what a write leaves at every address, and that every operation keeps the canonical form. -/

namespace Sys2Proof.Machine

/-! ## The list of bytes -/

theorem sget_putBytes (d : List Byte) : ∀ (a n : Nat) (c : List Host.Cell),
    sget n (putBytes a d c) = if a ≤ n ∧ n < a + d.length then d.getD (n - a) 0 else sget n c := by
  induction d with
  | nil => intro a n c; simp only [putBytes, List.length_nil]; rw [if_neg (by omega)]
  | cons b r ih =>
    intro a n c
    rw [putBytes, ih (a + 1) n, List.length_cons, sget_sput]
    by_cases h : n = a
    · subst h
      rw [if_neg (by omega), if_pos rfl, if_pos (by omega), Nat.sub_self, List.getD_cons_zero]
    · by_cases g : a + 1 ≤ n ∧ n < a + 1 + r.length
      · rw [if_pos g, if_pos (by omega), show n - a = (n - (a + 1)) + 1 by omega, List.getD_cons_succ]
      · rw [if_neg g, if_neg h, if_neg (by omega)]

theorem Sparse.wf_putBytes (d : List Byte) : ∀ (a : Nat) {c : List Host.Cell}, Sparse.wf c = true →
    Sparse.wf (putBytes a d c) = true := by
  induction d with
  | nil => exact fun _ _ h => h
  | cons b r ih => exact fun a _ h => ih (a + 1) (Sparse.wf_sput a b h)

theorem Sparse.wf_filter {w : Nat} (p : Nat × BitVec w → Bool) {l : List (Nat × BitVec w)} (h : Sparse.wf l = true) :
    Sparse.wf (l.filter p) = true := by
  simp only [Sparse.wf, Bool.and_eq_true, List.all_eq_true] at h ⊢
  exact ⟨rising_filter p h.1, fun x hx => h.2 x (List.mem_filter.1 hx).1⟩

/-! ## What the operations on memory leave of what every die sees -/

@[simp] theorem Mem.arrive_cells (m : Mem) (ids : List Nat) (d : Nat) : (m.arrive ids d).cells = m.cells := rfl

theorem Mem.arrives_cells (ids : List Nat) (l : List Nat) : ∀ m : Mem,
    (l.foldl (fun m d => m.arrive ids d) m).cells = m.cells := by
  induction l with
  | nil => exact fun _ => rfl
  | cons d r ih => exact fun m => ih (m.arrive ids d)

@[simp] theorem Mem.store_cells (m : Mem) (id die a : Nat) (d : List Byte) (rel : Bool) (now : Nat) :
    (m.store id die a d rel now).cells = m.cells := rfl

theorem settle_wf (l : List Flight) : ∀ {c : List Host.Cell}, Sparse.wf c = true → Sparse.wf (settle l c).2 = true := by
  induction l with
  | nil => exact fun h => h
  | cons f r ih =>
    intro c h
    rw [settle]
    split
    · exact ih (Sparse.wf_putBytes f.data f.addr h)
    · exact h

/-! ## The bytes after a store -/

theorem Mem.withDeps_nil (m : Mem) : m.withDeps [] = [] := by
  unfold Mem.withDeps
  induction m.flights with
  | nil => rfl
  | cons f r ih => simpa using ih

theorem Mem.arrive_nil (m : Mem) (d : Nat) : m.arrive [] d = m := by
  simp [Mem.arrive, Mem.withDeps_nil]

/-- A store of bytes that no store on its way touches: its die has them at once, every other byte is as it was, and the
other dies still see the old ones (R199). -/
theorem Mem.byte_store (m : Mem) (id die a : Nat) (d : List Byte) (rel : Bool) (now e n : Nat)
    (h : ∀ f ∈ m.flights, f.touches a d.length = false) :
    (m.store id die a d rel now).byte e n = if e = die ∧ a ≤ n ∧ n < a + d.length then d.getD (n - a) 0 else m.byte e n := by
  have hn : (m.flights.filter fun f => f.touches a d.length) = [] := by simpa using h
  simp only [Mem.store, hn, List.map_nil, Mem.arrive_nil, Mem.byte, List.reverse_append, List.reverse_cons, List.reverse_nil,
    List.nil_append, List.singleton_append, List.find?_cons]
  by_cases he : e = die
  · subst he
    by_cases hr : a ≤ n ∧ n < a + d.length
    · have hb : d[n - a]? = some d[n - a] := List.getElem?_eq_getElem (by omega)
      have hc : e = e ∧ a ≤ n ∧ n < a + d.length := ⟨rfl, hr⟩
      rw [if_pos hc, List.getD_eq_getElem?_getD, hb]
      simp only [List.contains_cons, BEq.rfl, Bool.true_or, Flight.byte?, hr.1, if_true, hb, Option.isSome_some, Bool.and_true,
        Option.getD_some]
    · have hc : ¬(e = e ∧ a ≤ n ∧ n < a + d.length) := fun g => hr g.2
      rw [if_neg hc]
      have hb : a ≤ n → d[n - a]? = none := fun g => List.getElem?_eq_none (by omega)
      by_cases g : a ≤ n
      · simp only [Flight.byte?, g, if_true, hb g, Option.isSome_none, Bool.and_false]
      · simp only [Flight.byte?, g, if_false, Option.isSome_none, Bool.and_false]
  · simp [he]

/-! ## Every operation keeps the canonical form -/

theorem Mem.arrive_wf (m : Mem) (ids : List Nat) (d : Nat) : (m.arrive ids d).wf = m.wf := rfl
theorem Mem.store_wf (m : Mem) (id die a : Nat) (d : List Byte) (rel : Bool) (now : Nat) :
    (m.store id die a d rel now).wf = m.wf := rfl
theorem Mem.settled_wf {m : Mem} (h : m.wf = true) : m.settled.wf = true := settle_wf m.flights h

theorem Mem.arrives_wf (ids l : List Nat) {m : Mem} (h : m.wf = true) :
    (l.foldl (fun m d => m.arrive ids d) m).settled.wf = true :=
  Mem.settled_wf (by rw [Mem.wf, Mem.arrives_cells]; exact h)

theorem Mem.flushFrom_wf (die : Nat) {m : Mem} (h : m.wf = true) : (m.flushFrom die).wf = true := Mem.arrives_wf _ _ h
theorem Mem.flushAll_wf {m : Mem} (h : m.wf = true) : m.flushAll.wf = true := Mem.arrives_wf _ _ h
theorem Mem.arriveAll_wf (ids : List Nat) {m : Mem} (h : m.wf = true) : (m.arriveAll ids).wf = true := Mem.arrives_wf _ _ h

theorem Mem.publish_wf (a : Nat) (d : List Byte) {m : Mem} (h : m.wf = true) : (m.publish a d).wf = true := by
  have hf := Mem.flushFrom_wf (homeDie a) (m := m.arrive ((m.flights.filter fun f => f.touches a d.length).map fun f => f.id)
    (homeDie a)) h
  unfold Mem.publish
  simp only []
  split
  · exact Sparse.wf_putBytes d a hf
  · exact hf

theorem reset_mem_wf : State.reset.mem.wf = true := by decide

/-! ## The same for the state -/

@[simp] theorem State.wakeLine_mem (s : State) (l : Nat) : (s.wakeLine l).mem = s.mem := by
  unfold State.wakeLine; first | rfl | (repeat' split) <;> rfl

theorem State.storeAt_wf (s : State) (die a : Nat) (d : List Byte) (rel : Bool) (h : s.mem.wf = true) :
    (s.storeAt die a d rel).1.mem.wf = true := by
  unfold State.storeAt
  simp only [State.wakeLine_mem]
  split <;> exact h

theorem wakeLines_mem (l : List Nat) (f : Nat → Nat) : ∀ s : State, (l.foldl (fun s i => s.wakeLine (f i)) s).mem = s.mem := by
  induction l with
  | nil => exact fun _ => rfl
  | cons n r ih => intro s; rw [List.foldl_cons, ih, State.wakeLine_mem]

theorem State.reportFrame_wf (s : State) (f : Nat) (h : s.mem.wf = true) : (s.reportFrame f).mem.wf = true := by
  unfold State.reportFrame
  split
  · rw [State.wakeLine_mem]; exact Mem.publish_wf _ _ h
  · exact h

theorem State.markData_wf (s : State) (b : Nat) (h : s.mem.wf = true) : (s.markData b).mem.wf = true := by
  unfold State.markData
  split
  · exact State.reportFrame_wf _ _ h
  · exact h

theorem State.wroteBack_wf (s : State) (l : Nat) (h : s.mem.wf = true) : (s.wroteBack l).mem.wf = true := by
  unfold State.wroteBack
  split
  · exact State.markData_wf _ _ h
  · exact h

theorem State.recall_wf (s : State) (l : Nat) (but : Option Nat) (all : Bool) (h : s.mem.wf = true) : (s.recall l but all).mem.wf = true := by
  unfold State.recall
  simp only []
  split
  · split
    · exact State.wroteBack_wf _ _ h
    · exact h
  · exact h

theorem State.recallRange_wf (s : State) (pa n : Nat) (h : s.mem.wf = true) : (s.recallRange pa n).mem.wf = true := by
  unfold State.recallRange
  split
  · exact h
  · generalize List.range _ = l
    induction l generalizing s with
    | nil => exact h
    | cons i r ih => rw [List.foldl_cons]; exact ih _ (State.recall_wf _ _ _ _ h)

theorem State.report_wf (s : State) (a : Nat) (d : List Byte) (h : s.mem.wf = true) : (s.report a d).mem.wf = true := by
  unfold State.report
  rw [wakeLines_mem]
  exact Mem.publish_wf a d (State.recallRange_wf s a _ h)

theorem State.fillLine_wf (s : State) (l : Nat) (ok : Bool) (b : List Byte) (h : s.mem.wf = true) :
    (s.fillLine l ok b).mem.wf = true := by
  unfold State.fillLine
  simp only []
  split
  · exact h
  · split
    · exact h
    · exact Sparse.wf_putBytes _ _ h

end Sys2Proof.Machine
end

