-- ==== Sys2Proof/Laws/PerInstr.lean ====
section
/-! SUPPORT. For every instruction: its word decodes to it, with every operand (R55, R64 to R67, R409). -/

namespace Sys2Proof.Laws.Encoding

/-- A well-formed instruction's word decodes to it. -/
def Statement (i : Instr) : Prop :=
  ∀ w, encode i = some w → i.wf = true → if isFilter i then decodeFilter w = some i else decodeWord w = .ok i

/-- An event of the part has no word. -/
theorem of_none {i : Instr} (h : encode i = none) : Statement i := fun w hw => by rw [h] at hw; cases hw

/-- A core instruction, from the fields of its word. -/
theorem of_core {i : Instr} {v : Word} {op : BitVec 7} (he : encode i = some v) (hf : isFilter i = false) (ho : fOp v = op)
    (hr : (reservedColumns (op.extractLsb' 4 3)).contains (op.extractLsb' 0 4) = false) (hd : decodeFields v = some i) :
    Statement i := by
  intro w hw hi
  rw [he] at hw
  cases hw
  rw [hf]
  exact decodeWord_of ho hr hd hi

/-- A filter instruction. -/
theorem of_filter {i : Instr} {v : Word} (he : encode i = some v) (hf : isFilter i = true)
    (hd : i.wf = true → decodeFilter v = some i) : Statement i := by
  intro w hw hi
  rw [he] at hw
  cases hw
  rw [hf]
  exact hd hi

theorem nop : Statement (.nop) :=
  of_core rfl rfl (fOp_fmtC ..) rfl (by rw [fields_01 (fOp_fmtC ..)]; simp [decBare, onlyIf])
theorem bra (off : BitVec 21) : Statement (.bra off) :=
  of_core rfl rfl (fOp_fmtJ ..) rfl (by rw [fields_02 (fOp_fmtJ ..)]; simp [decBra, onlyIf])
theorem brc (neg : Bool) (p : BitVec 3) (off : BitVec 21) : Statement (.brc neg p off) :=
  of_core rfl rfl (fOp_fmtJ ..) rfl (by rw [fields_03 (fOp_fmtJ ..)]; simp [decBrc, onlyIf])
theorem call (slide : BitVec 7) (off : BitVec 18) : Statement (.call slide off) :=
  of_core rfl rfl (fOp_fmtC ..) rfl (by rw [fields_04 (fOp_fmtC ..)]; simp [decCall, onlyIf])
theorem callr (a : BitVec 7) (slide : BitVec 7) : Statement (.callr a slide) :=
  of_core rfl rfl (fOp_fmtA ..) rfl (by rw [fields_05 (fOp_fmtA ..)]; simp [decCallr, onlyIf])
theorem ret : Statement (.ret) :=
  of_core rfl rfl (fOp_fmtC ..) rfl (by rw [fields_06 (fOp_fmtC ..)]; simp [decBare, onlyIf])
theorem jmpr (a : BitVec 7) : Statement (.jmpr a) :=
  of_core rfl rfl (fOp_fmtA ..) rfl (by rw [fields_07 (fOp_fmtA ..)]; simp [decJmpr, onlyIf])
theorem exit : Statement (.exit) :=
  of_core rfl rfl (fOp_fmtC ..) rfl (by rw [fields_08 (fOp_fmtC ..)]; simp [decBare, onlyIf])
theorem reform : Statement (.reform) :=
  of_core rfl rfl (fOp_fmtC ..) rfl (by rw [fields_09 (fOp_fmtC ..)]; simp [decBare, onlyIf])
theorem winbase (n : BitVec 18) : Statement (.winbase n) :=
  of_core rfl rfl (fOp_fmtC ..) rfl (by rw [fields_0A (fOp_fmtC ..)]; simp [decWinbase, onlyIf])
theorem trap (code : BitVec 18) : Statement (.trap code) :=
  of_core rfl rfl (fOp_fmtC ..) rfl (by rw [fields_0B (fOp_fmtC ..)]; simp [decTrap, onlyIf])
theorem rft : Statement (.rft) :=
  of_core rfl rfl (fOp_fmtC ..) rfl (by rw [fields_0C (fOp_fmtC ..)]; simp [decBare, onlyIf])
theorem srd (d : BitVec 7) (sr : BitVec 7) : Statement (.srd d sr) :=
  of_core rfl rfl (fOp_fmtA ..) rfl (by rw [fields_0D (fOp_fmtA ..)]; simp [decSys, onlyIf])
theorem swr (sr : BitVec 7) (a : BitVec 7) : Statement (.swr sr a) :=
  of_core rfl rfl (fOp_fmtA ..) rfl (by rw [fields_0D (fOp_fmtA ..)]; simp [decSys, onlyIf])
theorem rdcnt (d : BitVec 7) (n : BitVec 7) : Statement (.rdcnt d n) :=
  of_core rfl rfl (fOp_fmtA ..) rfl (by rw [fields_0D (fOp_fmtA ..)]; simp [decSys, onlyIf])
theorem tmark (code : BitVec 7) (a : BitVec 7) : Statement (.tmark code a) :=
  of_core rfl rfl (fOp_fmtA ..) rfl (by rw [fields_0D (fOp_fmtA ..)]; simp [decSys, onlyIf])
theorem yield : Statement (.yield) :=
  of_core rfl rfl (fOp_fmtA ..) rfl (by rw [fields_0D (fOp_fmtA ..)]; simp [decSys, onlyIf])
theorem sleep (a : BitVec 7) : Statement (.sleep a) :=
  of_core rfl rfl (fOp_fmtA ..) rfl (by rw [fields_0D (fOp_fmtA ..)]; simp [decSys, onlyIf])
theorem brk : Statement (.brk) :=
  of_core rfl rfl (fOp_fmtA ..) rfl (by rw [fields_0D (fOp_fmtA ..)]; simp [decSys, onlyIf])
theorem launch (d : BitVec 7) (a : BitVec 7) (b : BitVec 7) : Statement (.launch d a b) :=
  of_core rfl rfl (fOp_fmtA ..) rfl (by rw [fields_0E (fOp_fmtA ..)]; simp [decLaunch, onlyIf])
theorem gwait (d : BitVec 7) (a : BitVec 7) : Statement (.gwait d a) :=
  of_core rfl rfl (fOp_fmtA ..) rfl (by rw [fields_0F (fOp_fmtA ..)]; simp [decGwait, onlyIf])
theorem elect (d : BitVec 7) (p : BitVec 3) : Statement (.elect d p) :=
  of_core rfl rfl (fOp_fmtA ..) rfl (by rw [fields_10 (fOp_fmtA ..)]; simp [decElect, onlyIf])
theorem electS (d : BitVec 7) (p : BitVec 3) (q : BitVec 3) : Statement (.electS d p q) :=
  of_core rfl rfl (fOp_fmtA ..) rfl (by rw [fields_10 (fOp_fmtA ..)]; simp [decElect, onlyIf])
theorem wakel (d : BitVec 7) (a : BitVec 7) : Statement (.wakel d a) :=
  of_core rfl rfl (fOp_fmtA ..) rfl (by rw [fields_10 (fOp_fmtA ..)]; simp [decElect, onlyIf])
theorem matchW (d : BitVec 7) (a : BitVec 7) : Statement (.matchW d a) :=
  of_core rfl rfl (fOp_fmtA ..) rfl (by rw [fields_11 (fOp_fmtA ..)]; simp [decMatch, onlyIf])
theorem matchX (d : BitVec 7) (a : BitVec 7) : Statement (.matchX d a) :=
  of_core rfl rfl (fOp_fmtA ..) rfl (by rw [fields_11 (fOp_fmtA ..)]; simp [decMatch, onlyIf])
theorem voteAny (d : BitVec 3) (a : BitVec 3) : Statement (.voteAny d a) :=
  of_core rfl rfl (fOp_fmtA ..) rfl (by rw [fields_11 (fOp_fmtA ..)]; simp [decMatch, onlyIf])
theorem voteAll (d : BitVec 3) (a : BitVec 3) : Statement (.voteAll d a) :=
  of_core rfl rfl (fOp_fmtA ..) rfl (by rw [fields_11 (fOp_fmtA ..)]; simp [decMatch, onlyIf])
theorem voteBal (d : BitVec 7) (p : BitVec 3) : Statement (.voteBal d p) :=
  of_core rfl rfl (fOp_fmtA ..) rfl (by rw [fields_11 (fOp_fmtA ..)]; simp [decMatch, onlyIf])
theorem actmask (d : BitVec 7) : Statement (.actmask d) :=
  of_core rfl rfl (fOp_fmtA ..) rfl (by rw [fields_11 (fOp_fmtA ..)]; simp [decMatch, onlyIf])
theorem shflIdx (d : BitVec 7) (a : BitVec 7) (b : BitVec 7) : Statement (.shflIdx d a b) :=
  of_core rfl rfl (fOp_fmtA ..) rfl (by rw [fields_12 (fOp_fmtA ..)]; simp [decShfl, decRegs, onlyIf])
theorem shflUp (d : BitVec 7) (a : BitVec 7) (b : BitVec 7) : Statement (.shflUp d a b) :=
  of_core rfl rfl (fOp_fmtA ..) rfl (by rw [fields_12 (fOp_fmtA ..)]; simp [decShfl, decRegs, onlyIf])
theorem shflDown (d : BitVec 7) (a : BitVec 7) (b : BitVec 7) : Statement (.shflDown d a b) :=
  of_core rfl rfl (fOp_fmtA ..) rfl (by rw [fields_12 (fOp_fmtA ..)]; simp [decShfl, decRegs, onlyIf])
theorem shflXor (d : BitVec 7) (a : BitVec 7) (b : BitVec 7) : Statement (.shflXor d a b) :=
  of_core rfl rfl (fOp_fmtA ..) rfl (by rw [fields_12 (fOp_fmtA ..)]; simp [decShfl, decRegs, onlyIf])
theorem pand (d : BitVec 3) (a : BitVec 3) (b : BitVec 3) : Statement (.pand d a b) :=
  of_core rfl rfl (fOp_fmtA ..) rfl (by rw [fields_13 (fOp_fmtA ..)]; simp [decPlog, onlyIf])
theorem por (d : BitVec 3) (a : BitVec 3) (b : BitVec 3) : Statement (.por d a b) :=
  of_core rfl rfl (fOp_fmtA ..) rfl (by rw [fields_13 (fOp_fmtA ..)]; simp [decPlog, onlyIf])
theorem pxor (d : BitVec 3) (a : BitVec 3) (b : BitVec 3) : Statement (.pxor d a b) :=
  of_core rfl rfl (fOp_fmtA ..) rfl (by rw [fields_13 (fOp_fmtA ..)]; simp [decPlog, onlyIf])
theorem pandn (d : BitVec 3) (a : BitVec 3) (b : BitVec 3) : Statement (.pandn d a b) :=
  of_core rfl rfl (fOp_fmtA ..) rfl (by rw [fields_13 (fOp_fmtA ..)]; simp [decPlog, onlyIf])
theorem pnot (d : BitVec 3) (a : BitVec 3) : Statement (.pnot d a) :=
  of_core rfl rfl (fOp_fmtA ..) rfl (by rw [fields_13 (fOp_fmtA ..)]; simp [decPlog, onlyIf])
theorem pmov (d : BitVec 3) (a : BitVec 3) : Statement (.pmov d a) :=
  of_core rfl rfl (fOp_fmtA ..) rfl (by rw [fields_13 (fOp_fmtA ..)]; simp [decPlog, onlyIf])
theorem pget (d : BitVec 7) : Statement (.pget d) :=
  of_core rfl rfl (fOp_fmtA ..) rfl (by rw [fields_13 (fOp_fmtA ..)]; simp [decPlog, onlyIf])
theorem psetm (a : BitVec 7) (b : BitVec 7) : Statement (.psetm a b) :=
  of_core rfl rfl (fOp_fmtA ..) rfl (by rw [fields_13 (fOp_fmtA ..)]; simp [decPlog, onlyIf])
theorem add (d : BitVec 7) (a : BitVec 7) (b : BitVec 7) : Statement (.add d a b) :=
  of_core rfl rfl (fOp_fmtA ..) rfl (by rw [fields_14 (fOp_fmtA ..)]; simp [decIalu, decRegs, onlyIf])
theorem sub (d : BitVec 7) (a : BitVec 7) (b : BitVec 7) : Statement (.sub d a b) :=
  of_core rfl rfl (fOp_fmtA ..) rfl (by rw [fields_14 (fOp_fmtA ..)]; simp [decIalu, decRegs, onlyIf])
theorem and (d : BitVec 7) (a : BitVec 7) (b : BitVec 7) : Statement (.and d a b) :=
  of_core rfl rfl (fOp_fmtA ..) rfl (by rw [fields_14 (fOp_fmtA ..)]; simp [decIalu, decRegs, onlyIf])
theorem or (d : BitVec 7) (a : BitVec 7) (b : BitVec 7) : Statement (.or d a b) :=
  of_core rfl rfl (fOp_fmtA ..) rfl (by rw [fields_14 (fOp_fmtA ..)]; simp [decIalu, decRegs, onlyIf])
theorem xor (d : BitVec 7) (a : BitVec 7) (b : BitVec 7) : Statement (.xor d a b) :=
  of_core rfl rfl (fOp_fmtA ..) rfl (by rw [fields_14 (fOp_fmtA ..)]; simp [decIalu, decRegs, onlyIf])
theorem andn (d : BitVec 7) (a : BitVec 7) (b : BitVec 7) : Statement (.andn d a b) :=
  of_core rfl rfl (fOp_fmtA ..) rfl (by rw [fields_14 (fOp_fmtA ..)]; simp [decIalu, decRegs, onlyIf])
theorem shl (d : BitVec 7) (a : BitVec 7) (b : BitVec 7) : Statement (.shl d a b) :=
  of_core rfl rfl (fOp_fmtA ..) rfl (by rw [fields_14 (fOp_fmtA ..)]; simp [decIalu, decRegs, onlyIf])
theorem shr (d : BitVec 7) (a : BitVec 7) (b : BitVec 7) : Statement (.shr d a b) :=
  of_core rfl rfl (fOp_fmtA ..) rfl (by rw [fields_14 (fOp_fmtA ..)]; simp [decIalu, decRegs, onlyIf])
theorem sar (d : BitVec 7) (a : BitVec 7) (b : BitVec 7) : Statement (.sar d a b) :=
  of_core rfl rfl (fOp_fmtA ..) rfl (by rw [fields_14 (fOp_fmtA ..)]; simp [decIalu, decRegs, onlyIf])
theorem minS (d : BitVec 7) (a : BitVec 7) (b : BitVec 7) : Statement (.minS d a b) :=
  of_core rfl rfl (fOp_fmtA ..) rfl (by rw [fields_14 (fOp_fmtA ..)]; simp [decIalu, decRegs, onlyIf])
theorem minU (d : BitVec 7) (a : BitVec 7) (b : BitVec 7) : Statement (.minU d a b) :=
  of_core rfl rfl (fOp_fmtA ..) rfl (by rw [fields_14 (fOp_fmtA ..)]; simp [decIalu, decRegs, onlyIf])
theorem maxS (d : BitVec 7) (a : BitVec 7) (b : BitVec 7) : Statement (.maxS d a b) :=
  of_core rfl rfl (fOp_fmtA ..) rfl (by rw [fields_14 (fOp_fmtA ..)]; simp [decIalu, decRegs, onlyIf])
theorem maxU (d : BitVec 7) (a : BitVec 7) (b : BitVec 7) : Statement (.maxU d a b) :=
  of_core rfl rfl (fOp_fmtA ..) rfl (by rw [fields_14 (fOp_fmtA ..)]; simp [decIalu, decRegs, onlyIf])
theorem mul (d : BitVec 7) (a : BitVec 7) (b : BitVec 7) : Statement (.mul d a b) :=
  of_core rfl rfl (fOp_fmtA ..) rfl (by rw [fields_14 (fOp_fmtA ..)]; simp [decIalu, decRegs, onlyIf])
theorem mulhiS (d : BitVec 7) (a : BitVec 7) (b : BitVec 7) : Statement (.mulhiS d a b) :=
  of_core rfl rfl (fOp_fmtA ..) rfl (by rw [fields_14 (fOp_fmtA ..)]; simp [decIalu, decRegs, onlyIf])
theorem mulhiU (d : BitVec 7) (a : BitVec 7) (b : BitVec 7) : Statement (.mulhiU d a b) :=
  of_core rfl rfl (fOp_fmtA ..) rfl (by rw [fields_14 (fOp_fmtA ..)]; simp [decIalu, decRegs, onlyIf])
theorem mad (d : BitVec 7) (a : BitVec 7) (b : BitVec 7) : Statement (.mad d a b) :=
  of_core rfl rfl (fOp_fmtA ..) rfl (by rw [fields_15 (fOp_fmtA ..)]; simp [decIalu2, onlyIf])
theorem mulwS (d : BitVec 7) (a : BitVec 7) (b : BitVec 7) : Statement (.mulwS d a b) :=
  of_core rfl rfl (fOp_fmtA ..) rfl (by rw [fields_15 (fOp_fmtA ..)]; simp [decIalu2, onlyIf])
theorem mulwU (d : BitVec 7) (a : BitVec 7) (b : BitVec 7) : Statement (.mulwU d a b) :=
  of_core rfl rfl (fOp_fmtA ..) rfl (by rw [fields_15 (fOp_fmtA ..)]; simp [decIalu2, onlyIf])
theorem abs (d : BitVec 7) (a : BitVec 7) : Statement (.abs d a) :=
  of_core rfl rfl (fOp_fmtA ..) rfl (by rw [fields_15 (fOp_fmtA ..)]; simp [decIalu2, onlyIf])
theorem clz (d : BitVec 7) (a : BitVec 7) : Statement (.clz d a) :=
  of_core rfl rfl (fOp_fmtA ..) rfl (by rw [fields_15 (fOp_fmtA ..)]; simp [decIalu2, onlyIf])
theorem popc (d : BitVec 7) (a : BitVec 7) : Statement (.popc d a) :=
  of_core rfl rfl (fOp_fmtA ..) rfl (by rw [fields_15 (fOp_fmtA ..)]; simp [decIalu2, onlyIf])
theorem brev (d : BitVec 7) (a : BitVec 7) : Statement (.brev d a) :=
  of_core rfl rfl (fOp_fmtA ..) rfl (by rw [fields_15 (fOp_fmtA ..)]; simp [decIalu2, onlyIf])
theorem bfeS (d : BitVec 7) (a : BitVec 7) (b : BitVec 7) : Statement (.bfeS d a b) :=
  of_core rfl rfl (fOp_fmtA ..) rfl (by rw [fields_15 (fOp_fmtA ..)]; simp [decIalu2, onlyIf])
theorem bfeU (d : BitVec 7) (a : BitVec 7) (b : BitVec 7) : Statement (.bfeU d a b) :=
  of_core rfl rfl (fOp_fmtA ..) rfl (by rw [fields_15 (fOp_fmtA ..)]; simp [decIalu2, onlyIf])
theorem bfi (d : BitVec 7) (a : BitVec 7) (b : BitVec 7) : Statement (.bfi d a b) :=
  of_core rfl rfl (fOp_fmtA ..) rfl (by rw [fields_15 (fOp_fmtA ..)]; simp [decIalu2, onlyIf])
theorem mov (d : BitVec 7) (a : BitVec 7) : Statement (.mov d a) :=
  of_core rfl rfl (fOp_fmtA ..) rfl (by rw [fields_15 (fOp_fmtA ..)]; simp [decIalu2, onlyIf])
theorem extS (d : BitVec 7) (a : BitVec 7) (n : BitVec 5) : Statement (.extS d a n) :=
  of_core rfl rfl (fOp_fmtA ..) rfl (by rw [fields_15 (fOp_fmtA ..)]; simp [decIalu2, onlyIf])
theorem extU (d : BitVec 7) (a : BitVec 7) (n : BitVec 5) : Statement (.extU d a n) :=
  of_core rfl rfl (fOp_fmtA ..) rfl (by rw [fields_15 (fOp_fmtA ..)]; simp [decIalu2, onlyIf])
theorem sel (d : BitVec 7) (a : BitVec 7) (b : BitVec 7) (inv : Bool) (p : BitVec 3) : Statement (.sel d a b inv p) :=
  of_core rfl rfl (fOp_fmtA ..) rfl (by rw [fields_16 (fOp_fmtA ..)]; simp [decSel, onlyIf])
theorem iset (c : Cond) (p : BitVec 3) (a : BitVec 7) (b : BitVec 7) : Statement (.iset c p a b) :=
  of_core rfl rfl (fOp_fmtA ..) rfl (by rw [fields_17 (fOp_fmtA ..)]; simp [decIset, onlyIf])
theorem isetX (c : Cond) (p : BitVec 3) (a : BitVec 7) (b : BitVec 7) : Statement (.isetX c p a b) :=
  of_core rfl rfl (fOp_fmtA ..) rfl (by rw [fields_17 (fOp_fmtA ..)]; simp [decIset, onlyIf])
theorem iseti (c : Cond) (p : BitVec 3) (a : BitVec 7) (imm : BitVec 11) : Statement (.iseti c p a imm) :=
  of_core rfl rfl (fOp_fmtB ..) rfl (by rw [fields_18 (fOp_fmtB ..)]; simp [decIseti, onlyIf])
theorem addi (d : BitVec 7) (a : BitVec 7) (imm : BitVec 11) : Statement (.addi d a imm) :=
  of_core rfl rfl (fOp_fmtB ..) rfl (by rw [fields_19 (fOp_fmtB ..)]; simp [decImm, onlyIf])
theorem andi (d : BitVec 7) (a : BitVec 7) (imm : BitVec 11) : Statement (.andi d a imm) :=
  of_core rfl rfl (fOp_fmtB ..) rfl (by rw [fields_1A (fOp_fmtB ..)]; simp [decImm, onlyIf])
theorem ori (d : BitVec 7) (a : BitVec 7) (imm : BitVec 11) : Statement (.ori d a imm) :=
  of_core rfl rfl (fOp_fmtB ..) rfl (by rw [fields_1B (fOp_fmtB ..)]; simp [decImm, onlyIf])
theorem xori (d : BitVec 7) (a : BitVec 7) (imm : BitVec 11) : Statement (.xori d a imm) :=
  of_core rfl rfl (fOp_fmtB ..) rfl (by rw [fields_1C (fOp_fmtB ..)]; simp [decImm, onlyIf])
theorem shli (d : BitVec 7) (a : BitVec 7) (n : BitVec 5) : Statement (.shli d a n) :=
  of_core rfl rfl (fOp_fmtB ..) rfl (by rw [fields_1D (fOp_fmtB ..)]; simp [decShi, onlyIf])
theorem shri (d : BitVec 7) (a : BitVec 7) (n : BitVec 5) : Statement (.shri d a n) :=
  of_core rfl rfl (fOp_fmtB ..) rfl (by rw [fields_1D (fOp_fmtB ..)]; simp [decShi, onlyIf])
theorem sari (d : BitVec 7) (a : BitVec 7) (n : BitVec 5) : Statement (.sari d a n) :=
  of_core rfl rfl (fOp_fmtB ..) rfl (by rw [fields_1D (fOp_fmtB ..)]; simp [decShi, onlyIf])
theorem roli (d : BitVec 7) (a : BitVec 7) (n : BitVec 5) : Statement (.roli d a n) :=
  of_core rfl rfl (fOp_fmtB ..) rfl (by rw [fields_1D (fOp_fmtB ..)]; simp [decShi, onlyIf])
theorem muli (d : BitVec 7) (a : BitVec 7) (imm : BitVec 11) : Statement (.muli d a imm) :=
  of_core rfl rfl (fOp_fmtB ..) rfl (by rw [fields_1E (fOp_fmtB ..)]; simp [decImm, onlyIf])
theorem movi (d : BitVec 7) (imm : BitVec 18) : Statement (.movi d imm) :=
  of_core rfl rfl (fOp_fmtC ..) rfl (by rw [fields_1F (fOp_fmtC ..)]; simp [decMovi, onlyIf])
theorem addX (d : BitVec 7) (a : BitVec 7) (b : BitVec 7) : Statement (.addX d a b) :=
  of_core rfl rfl (fOp_fmtA ..) rfl (by rw [fields_20 (fOp_fmtA ..)]; simp [decIalu64, onlyIf])
theorem subX (d : BitVec 7) (a : BitVec 7) (b : BitVec 7) : Statement (.subX d a b) :=
  of_core rfl rfl (fOp_fmtA ..) rfl (by rw [fields_20 (fOp_fmtA ..)]; simp [decIalu64, onlyIf])
theorem shlX (d : BitVec 7) (a : BitVec 7) (b : BitVec 7) : Statement (.shlX d a b) :=
  of_core rfl rfl (fOp_fmtA ..) rfl (by rw [fields_20 (fOp_fmtA ..)]; simp [decIalu64, onlyIf])
theorem shrX (d : BitVec 7) (a : BitVec 7) (b : BitVec 7) : Statement (.shrX d a b) :=
  of_core rfl rfl (fOp_fmtA ..) rfl (by rw [fields_20 (fOp_fmtA ..)]; simp [decIalu64, onlyIf])
theorem sarX (d : BitVec 7) (a : BitVec 7) (b : BitVec 7) : Statement (.sarX d a b) :=
  of_core rfl rfl (fOp_fmtA ..) rfl (by rw [fields_20 (fOp_fmtA ..)]; simp [decIalu64, onlyIf])
theorem movX (d : BitVec 7) (a : BitVec 7) : Statement (.movX d a) :=
  of_core rfl rfl (fOp_fmtA ..) rfl (by rw [fields_20 (fOp_fmtA ..)]; simp [decIalu64, onlyIf])
theorem lea (d : BitVec 7) (a : BitVec 7) (b : BitVec 7) (k : BitVec 3) : Statement (.lea d a b k) :=
  of_core rfl rfl (fOp_fmtA ..) rfl (by rw [fields_20 (fOp_fmtA ..)]; simp [decIalu64, onlyIf])
theorem addiX (d : BitVec 7) (a : BitVec 7) (imm : BitVec 11) : Statement (.addiX d a imm) :=
  of_core rfl rfl (fOp_fmtB ..) rfl (by rw [fields_21 (fOp_fmtB ..)]; simp [decImm, onlyIf])
theorem fadd (d : BitVec 7) (a : BitVec 7) (b : BitVec 7) (abs : Bool) (neg : Bool) (rm : RMode) : Statement (.fadd d a b abs neg rm) :=
  of_core rfl rfl (fOp_fmtA ..) rfl (by rw [fields_28 (fOp_fmtA ..)]; simp [decFarith, onlyIf])
theorem fsub (d : BitVec 7) (a : BitVec 7) (b : BitVec 7) (abs : Bool) (neg : Bool) (rm : RMode) : Statement (.fsub d a b abs neg rm) :=
  of_core rfl rfl (fOp_fmtA ..) rfl (by rw [fields_29 (fOp_fmtA ..)]; simp [decFarith, onlyIf])
theorem fmul (d : BitVec 7) (a : BitVec 7) (b : BitVec 7) (abs : Bool) (neg : Bool) (rm : RMode) : Statement (.fmul d a b abs neg rm) :=
  of_core rfl rfl (fOp_fmtA ..) rfl (by rw [fields_2A (fOp_fmtA ..)]; simp [decFarith, onlyIf])
theorem ffma (d : BitVec 7) (a : BitVec 7) (b : BitVec 7) (abs : Bool) (neg : Bool) (rm : RMode) : Statement (.ffma d a b abs neg rm) :=
  of_core rfl rfl (fOp_fmtA ..) rfl (by rw [fields_2B (fOp_fmtA ..)]; simp [decFarith, onlyIf])
theorem fmin (d : BitVec 7) (a : BitVec 7) (b : BitVec 7) : Statement (.fmin d a b) :=
  of_core rfl rfl (fOp_fmtA ..) rfl (by rw [fields_2C (fOp_fmtA ..)]; simp [decFmin, onlyIf])
theorem fmax (d : BitVec 7) (a : BitVec 7) (b : BitVec 7) : Statement (.fmax d a b) :=
  of_core rfl rfl (fOp_fmtA ..) rfl (by rw [fields_2D (fOp_fmtA ..)]; simp [decFmax, onlyIf])
theorem fset (c : FCond) (p : BitVec 3) (a : BitVec 7) (b : BitVec 7) : Statement (.fset c p a b) :=
  of_core rfl rfl (fOp_fmtA ..) rfl (by rw [fields_2E (fOp_fmtA ..)]; simp [decFset, onlyIf])
theorem rcp (d : BitVec 7) (a : BitVec 7) : Statement (.rcp d a) :=
  of_core rfl rfl (fOp_fmtA ..) rfl (by rw [fields_2F (fOp_fmtA ..)]; simp [decFsfu, onlyIf])
theorem rsq (d : BitVec 7) (a : BitVec 7) : Statement (.rsq d a) :=
  of_core rfl rfl (fOp_fmtA ..) rfl (by rw [fields_2F (fOp_fmtA ..)]; simp [decFsfu, onlyIf])
theorem sqrt (d : BitVec 7) (a : BitVec 7) : Statement (.sqrt d a) :=
  of_core rfl rfl (fOp_fmtA ..) rfl (by rw [fields_2F (fOp_fmtA ..)]; simp [decFsfu, onlyIf])
theorem exp2 (d : BitVec 7) (a : BitVec 7) : Statement (.exp2 d a) :=
  of_core rfl rfl (fOp_fmtA ..) rfl (by rw [fields_2F (fOp_fmtA ..)]; simp [decFsfu, onlyIf])
theorem log2 (d : BitVec 7) (a : BitVec 7) : Statement (.log2 d a) :=
  of_core rfl rfl (fOp_fmtA ..) rfl (by rw [fields_2F (fOp_fmtA ..)]; simp [decFsfu, onlyIf])
theorem sinpi (d : BitVec 7) (a : BitVec 7) : Statement (.sinpi d a) :=
  of_core rfl rfl (fOp_fmtA ..) rfl (by rw [fields_2F (fOp_fmtA ..)]; simp [decFsfu, onlyIf])
theorem cospi (d : BitVec 7) (a : BitVec 7) : Statement (.cospi d a) :=
  of_core rfl rfl (fOp_fmtA ..) rfl (by rw [fields_2F (fOp_fmtA ..)]; simp [decFsfu, onlyIf])
theorem rndn (d : BitVec 7) (a : BitVec 7) : Statement (.rndn d a) :=
  of_core rfl rfl (fOp_fmtA ..) rfl (by rw [fields_2F (fOp_fmtA ..)]; simp [decFsfu, onlyIf])
theorem rndz (d : BitVec 7) (a : BitVec 7) : Statement (.rndz d a) :=
  of_core rfl rfl (fOp_fmtA ..) rfl (by rw [fields_2F (fOp_fmtA ..)]; simp [decFsfu, onlyIf])
theorem rndd (d : BitVec 7) (a : BitVec 7) : Statement (.rndd d a) :=
  of_core rfl rfl (fOp_fmtA ..) rfl (by rw [fields_2F (fOp_fmtA ..)]; simp [decFsfu, onlyIf])
theorem rndu (d : BitVec 7) (a : BitVec 7) : Statement (.rndu d a) :=
  of_core rfl rfl (fOp_fmtA ..) rfl (by rw [fields_2F (fOp_fmtA ..)]; simp [decFsfu, onlyIf])
theorem fcvtF32I32 (d : BitVec 7) (a : BitVec 7) (rm : RMode) : Statement (.fcvtF32I32 d a rm) :=
  of_core rfl rfl (fOp_fmtA ..) rfl (by rw [fields_30 (fOp_fmtA ..)]; simp [decFcvt, onlyIf])
theorem fcvtF32Ui32 (d : BitVec 7) (a : BitVec 7) (rm : RMode) : Statement (.fcvtF32Ui32 d a rm) :=
  of_core rfl rfl (fOp_fmtA ..) rfl (by rw [fields_30 (fOp_fmtA ..)]; simp [decFcvt, onlyIf])
theorem fcvtI32F32 (d : BitVec 7) (a : BitVec 7) (rm : RMode) : Statement (.fcvtI32F32 d a rm) :=
  of_core rfl rfl (fOp_fmtA ..) rfl (by rw [fields_30 (fOp_fmtA ..)]; simp [decFcvt, onlyIf])
theorem fcvtUi32F32 (d : BitVec 7) (a : BitVec 7) (rm : RMode) : Statement (.fcvtUi32F32 d a rm) :=
  of_core rfl rfl (fOp_fmtA ..) rfl (by rw [fields_30 (fOp_fmtA ..)]; simp [decFcvt, onlyIf])
theorem fcvtF32I64 (d : BitVec 7) (a : BitVec 7) (rm : RMode) : Statement (.fcvtF32I64 d a rm) :=
  of_core rfl rfl (fOp_fmtA ..) rfl (by rw [fields_30 (fOp_fmtA ..)]; simp [decFcvt, onlyIf])
theorem fcvtI64F32 (d : BitVec 7) (a : BitVec 7) (rm : RMode) : Statement (.fcvtI64F32 d a rm) :=
  of_core rfl rfl (fOp_fmtA ..) rfl (by rw [fields_30 (fOp_fmtA ..)]; simp [decFcvt, onlyIf])
theorem fcvtF16F32 (d : BitVec 7) (a : BitVec 7) (rm : RMode) : Statement (.fcvtF16F32 d a rm) :=
  of_core rfl rfl (fOp_fmtA ..) rfl (by rw [fields_30 (fOp_fmtA ..)]; simp [decFcvt, onlyIf])
theorem fcvtBf16F32 (d : BitVec 7) (a : BitVec 7) (rm : RMode) : Statement (.fcvtBf16F32 d a rm) :=
  of_core rfl rfl (fOp_fmtA ..) rfl (by rw [fields_30 (fOp_fmtA ..)]; simp [decFcvt, onlyIf])
theorem fcvtF16hF32 (d : BitVec 7) (a : BitVec 7) (rm : RMode) : Statement (.fcvtF16hF32 d a rm) :=
  of_core rfl rfl (fOp_fmtA ..) rfl (by rw [fields_30 (fOp_fmtA ..)]; simp [decFcvt, onlyIf])
theorem fcvtBf16hF32 (d : BitVec 7) (a : BitVec 7) (rm : RMode) : Statement (.fcvtBf16hF32 d a rm) :=
  of_core rfl rfl (fOp_fmtA ..) rfl (by rw [fields_30 (fOp_fmtA ..)]; simp [decFcvt, onlyIf])
theorem fcvtF32F16 (d : BitVec 7) (a : BitVec 7) : Statement (.fcvtF32F16 d a) :=
  of_core rfl rfl (fOp_fmtA ..) rfl (by rw [fields_30 (fOp_fmtA ..)]; simp [decFcvt, onlyIf])
theorem fcvtF32Bf16 (d : BitVec 7) (a : BitVec 7) : Statement (.fcvtF32Bf16 d a) :=
  of_core rfl rfl (fOp_fmtA ..) rfl (by rw [fields_30 (fOp_fmtA ..)]; simp [decFcvt, onlyIf])
theorem fcvtF32F16h (d : BitVec 7) (a : BitVec 7) : Statement (.fcvtF32F16h d a) :=
  of_core rfl rfl (fOp_fmtA ..) rfl (by rw [fields_30 (fOp_fmtA ..)]; simp [decFcvt, onlyIf])
theorem fcvtF32Bf16h (d : BitVec 7) (a : BitVec 7) : Statement (.fcvtF32Bf16h d a) :=
  of_core rfl rfl (fOp_fmtA ..) rfl (by rw [fields_30 (fOp_fmtA ..)]; simp [decFcvt, onlyIf])
theorem fcvtF32Ui64 (d : BitVec 7) (a : BitVec 7) (rm : RMode) : Statement (.fcvtF32Ui64 d a rm) :=
  of_core rfl rfl (fOp_fmtA ..) rfl (by rw [fields_30 (fOp_fmtA ..)]; simp [decFcvt, onlyIf])
theorem fcvtUi64F32 (d : BitVec 7) (a : BitVec 7) (rm : RMode) : Statement (.fcvtUi64F32 d a rm) :=
  of_core rfl rfl (fOp_fmtA ..) rfl (by rw [fields_30 (fOp_fmtA ..)]; simp [decFcvt, onlyIf])
theorem pk8 (d : BitVec 7) (a : BitVec 7) (rm : RMode) (f : F8) : Statement (.pk8 d a rm f) :=
  of_core rfl rfl (fOp_fmtA ..) rfl (by rw [fields_31 (fOp_fmtA ..)]; simp [decPk8, onlyIf])
theorem upk8 (d : BitVec 7) (a : BitVec 7) (f : F8) : Statement (.upk8 d a f) :=
  of_core rfl rfl (fOp_fmtA ..) rfl (by rw [fields_32 (fOp_fmtA ..)]; simp [decUpk8, onlyIf])
theorem pk6 (d : BitVec 7) (a : BitVec 7) (rm : RMode) (f : F6) : Statement (.pk6 d a rm f) :=
  of_core rfl rfl (fOp_fmtA ..) rfl (by rw [fields_33 (fOp_fmtA ..)]; simp [decPk6, onlyIf])
theorem upk6 (d : BitVec 7) (a : BitVec 7) (f : F6) : Statement (.upk6 d a f) :=
  of_core rfl rfl (fOp_fmtA ..) rfl (by rw [fields_34 (fOp_fmtA ..)]; simp [decUpk6, onlyIf])
theorem hadd2Bf16 (d : BitVec 7) (a : BitVec 7) (b : BitVec 7) : Statement (.hadd2Bf16 d a b) :=
  of_core rfl rfl (fOp_fmtA ..) rfl (by rw [fields_35 (fOp_fmtA ..)]; simp [decHop2, decRegs, onlyIf])
theorem hmul2Bf16 (d : BitVec 7) (a : BitVec 7) (b : BitVec 7) : Statement (.hmul2Bf16 d a b) :=
  of_core rfl rfl (fOp_fmtA ..) rfl (by rw [fields_35 (fOp_fmtA ..)]; simp [decHop2, decRegs, onlyIf])
theorem hfma2Bf16 (d : BitVec 7) (a : BitVec 7) (b : BitVec 7) : Statement (.hfma2Bf16 d a b) :=
  of_core rfl rfl (fOp_fmtA ..) rfl (by rw [fields_35 (fOp_fmtA ..)]; simp [decHop2, decRegs, onlyIf])
theorem hadd2F16 (d : BitVec 7) (a : BitVec 7) (b : BitVec 7) : Statement (.hadd2F16 d a b) :=
  of_core rfl rfl (fOp_fmtA ..) rfl (by rw [fields_35 (fOp_fmtA ..)]; simp [decHop2, decRegs, onlyIf])
theorem hmul2F16 (d : BitVec 7) (a : BitVec 7) (b : BitVec 7) : Statement (.hmul2F16 d a b) :=
  of_core rfl rfl (fOp_fmtA ..) rfl (by rw [fields_35 (fOp_fmtA ..)]; simp [decHop2, decRegs, onlyIf])
theorem hfma2F16 (d : BitVec 7) (a : BitVec 7) (b : BitVec 7) : Statement (.hfma2F16 d a b) :=
  of_core rfl rfl (fOp_fmtA ..) rfl (by rw [fields_35 (fOp_fmtA ..)]; simp [decHop2, decRegs, onlyIf])
theorem hmin2 (d : BitVec 7) (a : BitVec 7) (b : BitVec 7) : Statement (.hmin2 d a b) :=
  of_core rfl rfl (fOp_fmtA ..) rfl (by rw [fields_35 (fOp_fmtA ..)]; simp [decHop2, decRegs, onlyIf])
theorem hmax2 (d : BitVec 7) (a : BitVec 7) (b : BitVec 7) : Statement (.hmax2 d a b) :=
  of_core rfl rfl (fOp_fmtA ..) rfl (by rw [fields_35 (fOp_fmtA ..)]; simp [decHop2, decRegs, onlyIf])
theorem scx (d : BitVec 7) (a : BitVec 7) (t : ScaleT) : Statement (.scx d a t) :=
  of_core rfl rfl (fOp_fmtA ..) rfl (by rw [fields_36 (fOp_fmtA ..)]; simp [decXsc, onlyIf])
theorem sca (d : BitVec 7) (a : BitVec 7) (b : BitVec 7) : Statement (.sca d a b) :=
  of_core rfl rfl (fOp_fmtA ..) rfl (by rw [fields_36 (fOp_fmtA ..)]; simp [decXsc, onlyIf])
theorem scm (d : BitVec 7) (a : BitVec 7) (t : ScaleT) : Statement (.scm d a t) :=
  of_core rfl rfl (fOp_fmtA ..) rfl (by rw [fields_36 (fOp_fmtA ..)]; simp [decXsc, onlyIf])
theorem ldB (d : BitVec 7) (a : BitVec 7) (imm : BitVec 11) : Statement (.ldB d a imm) :=
  of_core rfl rfl (fOp_fmtB ..) rfl (by rw [fields_38 (fOp_fmtB ..)]; simp [decImm, onlyIf])
theorem ldBs (d : BitVec 7) (a : BitVec 7) (imm : BitVec 11) : Statement (.ldBs d a imm) :=
  of_core rfl rfl (fOp_fmtB ..) rfl (by rw [fields_39 (fOp_fmtB ..)]; simp [decImm, onlyIf])
theorem ldH (d : BitVec 7) (a : BitVec 7) (imm : BitVec 11) : Statement (.ldH d a imm) :=
  of_core rfl rfl (fOp_fmtB ..) rfl (by rw [fields_3A (fOp_fmtB ..)]; simp [decImm, onlyIf])
theorem ldHs (d : BitVec 7) (a : BitVec 7) (imm : BitVec 11) : Statement (.ldHs d a imm) :=
  of_core rfl rfl (fOp_fmtB ..) rfl (by rw [fields_3B (fOp_fmtB ..)]; simp [decImm, onlyIf])
theorem ldW (d : BitVec 7) (a : BitVec 7) (imm : BitVec 11) : Statement (.ldW d a imm) :=
  of_core rfl rfl (fOp_fmtB ..) rfl (by rw [fields_3C (fOp_fmtB ..)]; simp [decImm, onlyIf])
theorem ldX (d : BitVec 7) (a : BitVec 7) (imm : BitVec 11) : Statement (.ldX d a imm) :=
  of_core rfl rfl (fOp_fmtB ..) rfl (by rw [fields_3D (fOp_fmtB ..)]; simp [decImm, onlyIf])
theorem ldQ (d : BitVec 7) (a : BitVec 7) (imm : BitVec 11) : Statement (.ldQ d a imm) :=
  of_core rfl rfl (fOp_fmtB ..) rfl (by rw [fields_3E (fOp_fmtB ..)]; simp [decImm, onlyIf])
theorem stB (d : BitVec 7) (a : BitVec 7) (imm : BitVec 11) : Statement (.stB d a imm) :=
  of_core rfl rfl (fOp_fmtB ..) rfl (by rw [fields_3F (fOp_fmtB ..)]; simp [decImm, onlyIf])
theorem stH (d : BitVec 7) (a : BitVec 7) (imm : BitVec 11) : Statement (.stH d a imm) :=
  of_core rfl rfl (fOp_fmtB ..) rfl (by rw [fields_40 (fOp_fmtB ..)]; simp [decImm, onlyIf])
theorem stW (d : BitVec 7) (a : BitVec 7) (imm : BitVec 11) : Statement (.stW d a imm) :=
  of_core rfl rfl (fOp_fmtB ..) rfl (by rw [fields_41 (fOp_fmtB ..)]; simp [decImm, onlyIf])
theorem stX (d : BitVec 7) (a : BitVec 7) (imm : BitVec 11) : Statement (.stX d a imm) :=
  of_core rfl rfl (fOp_fmtB ..) rfl (by rw [fields_42 (fOp_fmtB ..)]; simp [decImm, onlyIf])
theorem stQ (d : BitVec 7) (a : BitVec 7) (imm : BitVec 11) : Statement (.stQ d a imm) :=
  of_core rfl rfl (fOp_fmtB ..) rfl (by rw [fields_43 (fOp_fmtB ..)]; simp [decImm, onlyIf])
theorem ldm (d : BitVec 7) (a : BitVec 7) (sem : Sem) (sc : Scope) (w : Width) (hint : BitVec 3) : Statement (.ldm d a sem sc w hint) :=
  of_core rfl rfl (fOp_fmtM ..) rfl (by rw [fields_44 (fOp_fmtM ..)]; simp [decM, onlyIf])
theorem stm (d : BitVec 7) (a : BitVec 7) (sem : Sem) (sc : Scope) (w : Width) (hint : BitVec 3) : Statement (.stm d a sem sc w hint) :=
  of_core rfl rfl (fOp_fmtM ..) rfl (by rw [fields_45 (fOp_fmtM ..)]; simp [decM, onlyIf])
theorem prefLlc (a : BitVec 7) (imm : BitVec 11) : Statement (.prefLlc a imm) :=
  of_core rfl rfl (fOp_fmtB ..) rfl (by rw [fields_46 (fOp_fmtB ..)]; simp [decPref, onlyIf])
theorem prefStash (a : BitVec 7) (imm : BitVec 11) : Statement (.prefStash a imm) :=
  of_core rfl rfl (fOp_fmtB ..) rfl (by rw [fields_46 (fOp_fmtB ..)]; simp [decPref, onlyIf])
theorem pgreq (d : BitVec 7) (a : BitVec 7) (b : BitVec 7) : Statement (.pgreq d a b) :=
  of_core rfl rfl (fOp_fmtA ..) rfl (by rw [fields_47 (fOp_fmtA ..)]; simp [decPgreq, decRegs, onlyIf])
theorem pgreqNp (d : BitVec 7) (a : BitVec 7) (b : BitVec 7) : Statement (.pgreqNp d a b) :=
  of_core rfl rfl (fOp_fmtA ..) rfl (by rw [fields_47 (fOp_fmtA ..)]; simp [decPgreq, decRegs, onlyIf])
theorem atomT (d : BitVec 7) (a : BitVec 7) (b : BitVec 7) (op : AOp) : Statement (.atomT d a b op) :=
  of_core rfl rfl (fOp_fmtA ..) rfl (by rw [fields_48 (fOp_fmtA ..)]; simp [decAtom, onlyIf])
theorem atomC (d : BitVec 7) (a : BitVec 7) (b : BitVec 7) (op : AOp) : Statement (.atomC d a b op) :=
  of_core rfl rfl (fOp_fmtA ..) rfl (by rw [fields_49 (fOp_fmtA ..)]; simp [decAtom, onlyIf])
theorem atomD (d : BitVec 7) (a : BitVec 7) (b : BitVec 7) (op : AOp) : Statement (.atomD d a b op) :=
  of_core rfl rfl (fOp_fmtA ..) rfl (by rw [fields_4A (fOp_fmtA ..)]; simp [decAtom, onlyIf])
theorem atomP (d : BitVec 7) (a : BitVec 7) (b : BitVec 7) (op : AOp) : Statement (.atomP d a b op) :=
  of_core rfl rfl (fOp_fmtA ..) rfl (by rw [fields_4B (fOp_fmtA ..)]; simp [decAtom, onlyIf])
theorem atomS (d : BitVec 7) (a : BitVec 7) (b : BitVec 7) (op : AOp) : Statement (.atomS d a b op) :=
  of_core rfl rfl (fOp_fmtA ..) rfl (by rw [fields_4C (fOp_fmtA ..)]; simp [decAtom, onlyIf])
theorem redD (a : BitVec 7) (b : BitVec 7) (op : AOp) : Statement (.redD a b op) :=
  of_core rfl rfl (fOp_fmtA ..) rfl (by rw [fields_4D (fOp_fmtA ..)]; simp [decRed, onlyIf])
theorem redP (a : BitVec 7) (b : BitVec 7) (op : AOp) : Statement (.redP a b op) :=
  of_core rfl rfl (fOp_fmtA ..) rfl (by rw [fields_4E (fOp_fmtA ..)]; simp [decRed, onlyIf])
theorem redS (a : BitVec 7) (b : BitVec 7) (op : AOp) : Statement (.redS a b op) :=
  of_core rfl rfl (fOp_fmtA ..) rfl (by rw [fields_4F (fOp_fmtA ..)]; simp [decRed, onlyIf])
theorem stfl (d : BitVec 7) (a : BitVec 7) (b : BitVec 7) (wide : Bool) (sc : Scope) : Statement (.stfl d a b wide sc) :=
  of_core rfl rfl (fOp_fmtA ..) rfl (by rw [fields_50 (fOp_fmtA ..)]; simp [decStfl, onlyIf])
theorem redn (d : BitVec 7) (a : BitVec 7) (b : BitVec 7) (op : RedOp) : Statement (.redn d a b op) :=
  of_core rfl rfl (fOp_fmtA ..) rfl (by rw [fields_51 (fOp_fmtA ..)]; simp [decRedn, onlyIf])
theorem smap (d : BitVec 7) (a : BitVec 7) (b : BitVec 7) : Statement (.smap d a b) :=
  of_core rfl rfl (fOp_fmtA ..) rfl (by rw [fields_52 (fOp_fmtA ..)]; simp [decSctl, onlyIf])
theorem sunmap (d : BitVec 7) (a : BitVec 7) : Statement (.sunmap d a) :=
  of_core rfl rfl (fOp_fmtA ..) rfl (by rw [fields_52 (fOp_fmtA ..)]; simp [decSctl, onlyIf])
theorem sflush (a : BitVec 7) (b : BitVec 7) : Statement (.sflush a b) :=
  of_core rfl rfl (fOp_fmtA ..) rfl (by rw [fields_52 (fOp_fmtA ..)]; simp [decSctl, onlyIf])
theorem sinv (a : BitVec 7) (b : BitVec 7) : Statement (.sinv a b) :=
  of_core rfl rfl (fOp_fmtA ..) rfl (by rw [fields_52 (fOp_fmtA ..)]; simp [decSctl, onlyIf])
theorem pub (d : BitVec 7) (a : BitVec 7) (b : BitVec 7) : Statement (.pub d a b) :=
  of_core rfl rfl (fOp_fmtA ..) rfl (by rw [fields_53 (fOp_fmtA ..)]; simp [decPub, onlyIf])
theorem mwatch (d : BitVec 7) (a : BitVec 7) : Statement (.mwatch d a) :=
  of_core rfl rfl (fOp_fmtA ..) rfl (by rw [fields_54 (fOp_fmtA ..)]; simp [decMwatch, onlyIf])
theorem mwait (d : BitVec 7) (b : BitVec 7) : Statement (.mwait d b) :=
  of_core rfl rfl (fOp_fmtA ..) rfl (by rw [fields_55 (fOp_fmtA ..)]; simp [decMwait, onlyIf])
theorem fence (sc : Bool) (tile : Bool) (eng : Bool) (st : Bool) (ld : Bool) (scope : Scope) : Statement (.fence sc tile eng st ld scope) :=
  of_core rfl rfl (fOp_fmtC ..) rfl (by rw [fields_56 (fOp_fmtC ..)]; simp [decFence, part0_of_fence, part1_of_fence, part2_of_fence, part3_of_fence, part4_of_fence, part5_of_fence, part6_of_fence, onlyIf])
theorem barSync (n : BitVec 4) : Statement (.barSync n) :=
  of_core rfl rfl (fOp_fmtA ..) rfl (by rw [fields_58 (fOp_fmtA ..)]; simp [decBar, onlyIf])
theorem barArrive (n : BitVec 4) (a : BitVec 7) : Statement (.barArrive n a) :=
  of_core rfl rfl (fOp_fmtA ..) rfl (by rw [fields_58 (fOp_fmtA ..)]; simp [decBar, onlyIf])
theorem barWait (n : BitVec 4) (a : BitVec 7) : Statement (.barWait n a) :=
  of_core rfl rfl (fOp_fmtA ..) rfl (by rw [fields_58 (fOp_fmtA ..)]; simp [decBar, onlyIf])
theorem tbinit (a : BitVec 7) (b : BitVec 7) : Statement (.tbinit a b) :=
  of_core rfl rfl (fOp_fmtA ..) rfl (by rw [fields_59 (fOp_fmtA ..)]; simp [decTbar, onlyIf])
theorem tbexp (a : BitVec 7) (b : BitVec 7) : Statement (.tbexp a b) :=
  of_core rfl rfl (fOp_fmtA ..) rfl (by rw [fields_59 (fOp_fmtA ..)]; simp [decTbar, onlyIf])
theorem tbarr (d : BitVec 7) (a : BitVec 7) : Statement (.tbarr d a) :=
  of_core rfl rfl (fOp_fmtA ..) rfl (by rw [fields_59 (fOp_fmtA ..)]; simp [decTbar, onlyIf])
theorem tbwait (d : BitVec 7) (a : BitVec 7) (b : BitVec 7) : Statement (.tbwait d a b) :=
  of_core rfl rfl (fOp_fmtA ..) rfl (by rw [fields_59 (fOp_fmtA ..)]; simp [decTbar, onlyIf])
theorem tbtest (d : BitVec 7) (a : BitVec 7) (b : BitVec 7) : Statement (.tbtest d a b) :=
  of_core rfl rfl (fOp_fmtA ..) rfl (by rw [fields_59 (fOp_fmtA ..)]; simp [decTbar, onlyIf])
theorem tberr (d : BitVec 7) (a : BitVec 7) : Statement (.tberr d a) :=
  of_core rfl rfl (fOp_fmtA ..) rfl (by rw [fields_59 (fOp_fmtA ..)]; simp [decTbar, onlyIf])
theorem waitc (ld : BitVec 5) (st : BitVec 5) (cp : BitVec 5) (tl : BitVec 5) : Statement (.waitc ld st cp tl) :=
  of_core rfl rfl (fOp_fmtW ..) rfl (by rw [fields_5A (fOp_fmtW ..)]; simp [decWaitc, onlyIf])
theorem waitb (n : BitVec 3) (imm : BitVec 11) : Statement (.waitb n imm) :=
  of_core rfl rfl (fOp_fmtB ..) rfl (by rw [fields_5B (fOp_fmtB ..)]; simp [decWaitb, onlyIf])
theorem ccset (n : BitVec 3) (a : BitVec 7) : Statement (.ccset n a) :=
  of_core rfl rfl (fOp_fmtA ..) rfl (by rw [fields_5C (fOp_fmtA ..)]; simp [decCcop, onlyIf])
theorem ccadd (n : BitVec 3) (a : BitVec 7) : Statement (.ccadd n a) :=
  of_core rfl rfl (fOp_fmtA ..) rfl (by rw [fields_5C (fOp_fmtA ..)]; simp [decCcop, onlyIf])
theorem ccrd (d : BitVec 7) (n : BitVec 3) : Statement (.ccrd d n) :=
  of_core rfl rfl (fOp_fmtA ..) rfl (by rw [fields_5C (fOp_fmtA ..)]; simp [decCcop, onlyIf])
theorem mxacq (d : BitVec 7) : Statement (.mxacq d) :=
  of_core rfl rfl (fOp_fmtA ..) rfl (by rw [fields_60 (fOp_fmtA ..)]; simp [decMx, onlyIf])
theorem mxrel (d : BitVec 7) : Statement (.mxrel d) :=
  of_core rfl rfl (fOp_fmtA ..) rfl (by rw [fields_61 (fOp_fmtA ..)]; simp [decMx, onlyIf])
theorem tmma (acc : BitVec 6) (abuf : BitVec 3) (bslot : BitVec 9) (f : TFmt) (free : Bool) (zero : Bool) (all : Bool) : Statement (.tmma acc abuf bslot f free zero all) :=
  of_core rfl rfl (fOp_fmtT ..) rfl (by rw [fields_62 (fOp_fmtT ..)]; simp [decTmma, onlyIf])
theorem tmmai (acc : BitVec 6) (abuf : BitVec 3) (bslot : BitVec 9) (f : TIFmt) (free : Bool) (zero : Bool) (all : Bool) : Statement (.tmmai acc abuf bslot f free zero all) :=
  of_core rfl rfl (fOp_fmtT ..) rfl (by rw [fields_63 (fOp_fmtT ..)]; simp [decTmmai, onlyIf])
theorem tzero (acc : BitVec 6) (all : Bool) : Statement (.tzero acc all) :=
  of_core rfl rfl (fOp_fmtT ..) rfl (by rw [fields_64 (fOp_fmtT ..)]; simp [decTzero, onlyIf])
theorem trd (d : BitVec 7) (acc : BitVec 6) (b : BitVec 7) : Statement (.trd d acc b) :=
  of_core rfl rfl (fOp_fmtA ..) rfl (by rw [fields_65 (fOp_fmtA ..)]; simp [decTacc, onlyIf])
theorem twr (d : BitVec 7) (acc : BitVec 6) (b : BitVec 7) : Statement (.twr d acc b) :=
  of_core rfl rfl (fOp_fmtA ..) rfl (by rw [fields_65 (fOp_fmtA ..)]; simp [decTacc, onlyIf])
theorem trowsum (d : BitVec 7) (acc : BitVec 6) : Statement (.trowsum d acc) :=
  of_core rfl rfl (fOp_fmtA ..) rfl (by rw [fields_65 (fOp_fmtA ..)]; simp [decTacc, onlyIf])
theorem trowssq (d : BitVec 7) (acc : BitVec 6) : Statement (.trowssq d acc) :=
  of_core rfl rfl (fOp_fmtA ..) rfl (by rw [fields_65 (fOp_fmtA ..)]; simp [decTacc, onlyIf])
theorem trowmax (d : BitVec 7) (acc : BitVec 6) : Statement (.trowmax d acc) :=
  of_core rfl rfl (fOp_fmtA ..) rfl (by rw [fields_65 (fOp_fmtA ..)]; simp [decTacc, onlyIf])
theorem trowmul (acc : BitVec 6) (b : BitVec 7) : Statement (.trowmul acc b) :=
  of_core rfl rfl (fOp_fmtA ..) rfl (by rw [fields_65 (fOp_fmtA ..)]; simp [decTacc, onlyIf])
theorem trowadd (acc : BitVec 6) (b : BitVec 7) : Statement (.trowadd acc b) :=
  of_core rfl rfl (fOp_fmtA ..) rfl (by rw [fields_65 (fOp_fmtA ..)]; simp [decTacc, onlyIf])
theorem tcvt (acc : BitVec 6) (abuf : BitVec 3) (q : BitVec 2) (f : TFmt) (all : Bool) : Statement (.tcvt acc abuf q f all) :=
  of_core rfl rfl (fOp_fmtT ..) rfl (by rw [fields_66 (fOp_fmtT ..)]; simp [decTcvt, onlyIf])
theorem tscale (accD : BitVec 6) (accS : BitVec 6) (b : BitVec 7) : Statement (.tscale accD accS b) :=
  of_core rfl rfl (fOp_fmtA ..) rfl (by rw [fields_67 (fOp_fmtA ..)]; simp [decTscale, onlyIf])
theorem tlda (a : BitVec 7) (b : BitVec 7) : Statement (.tlda a b) :=
  of_core rfl rfl (fOp_fmtA ..) rfl (by rw [fields_68 (fOp_fmtA ..)]; simp [decTlda, onlyIf])
theorem tstate (d : BitVec 7) (a : BitVec 7) : Statement (.tstate d a) :=
  of_core rfl rfl (fOp_fmtA ..) rfl (by rw [fields_69 (fOp_fmtA ..)]; simp [decTstate, onlyIf])
theorem trel (a : BitVec 7) : Statement (.trel a) :=
  of_core rfl rfl (fOp_fmtA ..) rfl (by rw [fields_6A (fOp_fmtA ..)]; simp [decTrel, onlyIf])
theorem cbld (cb : BitVec 3) (a : BitVec 7) : Statement (.cbld cb a) :=
  of_core rfl rfl (fOp_fmtA ..) rfl (by rw [fields_6B (fOp_fmtA ..)]; simp [decCbld, onlyIf])
theorem rldW (d : BitVec 7) (r : BitVec 4) (imm : BitVec 11) : Statement (.rldW d r imm) :=
  of_core rfl rfl (fOp_fmtB ..) rfl (by rw [fields_70 (fOp_fmtB ..)]; simp [decRef, onlyIf])
theorem rldX (d : BitVec 7) (r : BitVec 4) (imm : BitVec 11) : Statement (.rldX d r imm) :=
  of_core rfl rfl (fOp_fmtB ..) rfl (by rw [fields_71 (fOp_fmtB ..)]; simp [decRef, onlyIf])
theorem rstW (d : BitVec 7) (r : BitVec 4) (imm : BitVec 11) : Statement (.rstW d r imm) :=
  of_core rfl rfl (fOp_fmtB ..) rfl (by rw [fields_72 (fOp_fmtB ..)]; simp [decRef, onlyIf])
theorem rstX (d : BitVec 7) (r : BitVec 4) (imm : BitVec 11) : Statement (.rstX d r imm) :=
  of_core rfl rfl (fOp_fmtB ..) rfl (by rw [fields_73 (fOp_fmtB ..)]; simp [decRef, onlyIf])
theorem rldr (d : BitVec 4) (r : BitVec 4) (b : BitVec 7) : Statement (.rldr d r b) :=
  of_core rfl rfl (fOp_fmtA ..) rfl (by rw [fields_74 (fOp_fmtA ..)]; simp [decRefr, onlyIf])
theorem rstr (d : BitVec 4) (r : BitVec 4) (b : BitVec 7) : Statement (.rstr d r b) :=
  of_core rfl rfl (fOp_fmtA ..) rfl (by rw [fields_75 (fOp_fmtA ..)]; simp [decRefr, onlyIf])
theorem pin (d : BitVec 7) (r : BitVec 4) : Statement (.pin d r) :=
  of_core rfl rfl (fOp_fmtA ..) rfl (by rw [fields_76 (fOp_fmtA ..)]; simp [decRefop, onlyIf])
theorem unpin (d : BitVec 7) (r : BitVec 4) : Statement (.unpin d r) :=
  of_core rfl rfl (fOp_fmtA ..) rfl (by rw [fields_76 (fOp_fmtA ..)]; simp [decRefop, onlyIf])
theorem refeq (p : BitVec 3) (r : BitVec 4) (q : BitVec 4) : Statement (.refeq p r q) :=
  of_core rfl rfl (fOp_fmtA ..) rfl (by rw [fields_76 (fOp_fmtA ..)]; simp [decRefop, onlyIf])
theorem rget (d : BitVec 7) (r : BitVec 4) : Statement (.rget d r) :=
  of_core rfl rfl (fOp_fmtA ..) rfl (by rw [fields_76 (fOp_fmtA ..)]; simp [decRefop, onlyIf])
theorem rput (r : BitVec 4) (a : BitVec 7) : Statement (.rput r a) :=
  of_core rfl rfl (fOp_fmtA ..) rfl (by rw [fields_76 (fOp_fmtA ..)]; simp [decRefop, onlyIf])
theorem rchk (d : BitVec 7) (r : BitVec 4) : Statement (.rchk d r) :=
  of_core rfl rfl (fOp_fmtA ..) rfl (by rw [fields_76 (fOp_fmtA ..)]; simp [decRefop, onlyIf])
theorem rnull (r : BitVec 4) : Statement (.rnull r) :=
  of_core rfl rfl (fOp_fmtA ..) rfl (by rw [fields_76 (fOp_fmtA ..)]; simp [decRefop, onlyIf])
theorem lit (p : BitVec 25) : Statement (.lit p) := of_core rfl rfl (fOp_lit _) rfl (by rw [fields_7F (fOp_lit _), fPayload_lit])
theorem yadd (d : BitVec 4) (a : BitVec 4) (b : BitVec 4) : Statement (.yadd d a b) := of_filter rfl rfl fun h => by
  simp [decodeFilter, onlyIf, h]
theorem ysub (d : BitVec 4) (a : BitVec 4) (b : BitVec 4) : Statement (.ysub d a b) := of_filter rfl rfl fun h => by
  simp [decodeFilter, onlyIf, h]
theorem yand (d : BitVec 4) (a : BitVec 4) (b : BitVec 4) : Statement (.yand d a b) := of_filter rfl rfl fun h => by
  simp [decodeFilter, onlyIf, h]
theorem yor (d : BitVec 4) (a : BitVec 4) (b : BitVec 4) : Statement (.yor d a b) := of_filter rfl rfl fun h => by
  simp [decodeFilter, onlyIf, h]
theorem yxor (d : BitVec 4) (a : BitVec 4) (b : BitVec 4) : Statement (.yxor d a b) := of_filter rfl rfl fun h => by
  simp [decodeFilter, onlyIf, h]
theorem yshl (d : BitVec 4) (a : BitVec 4) (b : BitVec 4) : Statement (.yshl d a b) := of_filter rfl rfl fun h => by
  simp [decodeFilter, onlyIf, h]
theorem yshr (d : BitVec 4) (a : BitVec 4) (b : BitVec 4) : Statement (.yshr d a b) := of_filter rfl rfl fun h => by
  simp [decodeFilter, onlyIf, h]
theorem yminu (d : BitVec 4) (a : BitVec 4) (b : BitVec 4) : Statement (.yminu d a b) := of_filter rfl rfl fun h => by
  simp [decodeFilter, onlyIf, h]
theorem ymaxu (d : BitVec 4) (a : BitVec 4) (b : BitVec 4) : Statement (.ymaxu d a b) := of_filter rfl rfl fun h => by
  simp [decodeFilter, onlyIf, h]
theorem yaddi (d : BitVec 4) (a : BitVec 4) (imm : BitVec 15) : Statement (.yaddi d a imm) := of_filter rfl rfl fun h => by
  simp [decodeFilter, onlyIf, h]
theorem yandi (d : BitVec 4) (a : BitVec 4) (imm : BitVec 15) : Statement (.yandi d a imm) := of_filter rfl rfl fun h => by
  simp [decodeFilter, onlyIf, h]
theorem yshi (d : BitVec 4) (a : BitVec 4) (k : ShKind) (n : BitVec 5) : Statement (.yshi d a k n) := of_filter rfl rfl fun h => by
  simp [decodeFilter, onlyIf, h]
theorem ymovi (d : BitVec 4) (imm : BitVec 15) : Statement (.ymovi d imm) := of_filter rfl rfl fun h => by
  simp [decodeFilter, onlyIf, h]
theorem yins (d : BitVec 4) (imm : BitVec 15) : Statement (.yins d imm) := of_filter rfl rfl fun h => by
  simp [decodeFilter, onlyIf, h]
theorem yclz (d : BitVec 4) (a : BitVec 4) : Statement (.yclz d a) := of_filter rfl rfl fun h => by
  simp [decodeFilter, onlyIf, h]
theorem yhash (d : BitVec 4) (a : BitVec 4) (r : BitVec 2) : Statement (.yhash d a r) := of_filter rfl rfl fun h => by
  simp [decodeFilter, onlyIf, h]
theorem ybr (c : YCond) (a : BitVec 4) (b : BitVec 4) (imm : BitVec 15) : Statement (.ybr c a b imm) := of_filter rfl rfl fun h => by
  simp [decodeFilter, onlyIf, h]
theorem yhist (n : BitVec 2) (a : BitVec 4) (b : BitVec 4) : Statement (.yhist n a b) := of_filter rfl rfl fun h => by
  simp [decodeFilter, onlyIf, h]
theorem ycms (n : BitVec 1) (a : BitVec 4) (b : BitVec 4) : Statement (.ycms n a b) := of_filter rfl rfl fun h => by
  simp [decodeFilter, onlyIf, h]
theorem ycmq (d : BitVec 4) (n : BitVec 1) (a : BitVec 4) : Statement (.ycmq d n a) := of_filter rfl rfl fun h => by
  simp [decodeFilter, onlyIf, h]
theorem yldb (d : BitVec 4) (n : BitVec 2) (a : BitVec 4) : Statement (.yldb d n a) := of_filter rfl rfl fun h => by
  simp [decodeFilter, onlyIf, h]
theorem ytrigRecord : Statement (.ytrigRecord) := of_filter rfl rfl fun h => by
  simp [decodeFilter, onlyIf, h]
theorem ytrigInterrupt : Statement (.ytrigInterrupt) := of_filter rfl rfl fun h => by
  simp [decodeFilter, onlyIf, h]
theorem ytrigFreeze : Statement (.ytrigFreeze) := of_filter rfl rfl fun h => by
  simp [decodeFilter, onlyIf, h]
theorem ytrigArm (a : BitVec 4) : Statement (.ytrigArm a) := of_filter rfl rfl fun h => by
  simp [decodeFilter, onlyIf, h]
theorem yrds (d : BitVec 4) (n : BitVec 15) : Statement (.yrds d n) := of_filter rfl rfl fun h => by
  simp [decodeFilter, onlyIf, h]
theorem yend : Statement (.yend) := of_filter rfl rfl fun h => by
  simp [decodeFilter, onlyIf, h]
theorem regWrite (pf : Bool) (off : Nat) (v : BitVec 64) : Statement (.regWrite pf off v) := of_none rfl
theorem modeCfgWrite (pf : Bool) (v : BitVec 32) : Statement (.modeCfgWrite pf v) := of_none rfl
theorem powerCapApply : Statement (.powerCapApply) := of_none rfl
theorem mirrorRelease : Statement (.mirrorRelease) := of_none rfl
theorem leaseChangeSettle : Statement (.leaseChangeSettle) := of_none rfl
theorem railOvercurrent (die : Nat) : Statement (.railOvercurrent die) := of_none rfl
theorem ctxBind (x : BitVec 12) : Statement (.ctxBind x) := of_none rfl
theorem ctxSuspend (x : BitVec 12) : Statement (.ctxSuspend x) := of_none rfl
theorem ctxResume (x : BitVec 12) : Statement (.ctxResume x) := of_none rfl
theorem ctxClearf (x : BitVec 12) : Statement (.ctxClearf x) := of_none rfl
theorem ctxFence (x : BitVec 12) : Statement (.ctxFence x) := of_none rfl
theorem ctxDestroy (x : BitVec 12) : Statement (.ctxDestroy x) := of_none rfl
theorem sliceLengthExpiry (c : Nat) : Statement (.sliceLengthExpiry c) := of_none rfl
theorem sliceSwitch (c : Nat) : Statement (.sliceSwitch c) := of_none rfl
theorem tileOwnershipTransfer (c : Nat) (x : BitVec 12) : Statement (.tileOwnershipTransfer c x) := of_none rfl
theorem debugResume (k : Nat) : Statement (.debugResume k) := of_none rfl
theorem sleepEnd (k : Nat) (i : Nat) : Statement (.sleepEnd k i) := of_none rfl
theorem yieldTimeout (k : Nat) (i : Nat) : Statement (.yieldTimeout k i) := of_none rfl
theorem tholdPropagation (x : BitVec 12) (c : Nat) : Statement (.tholdPropagation x c) := of_none rfl
theorem threadWaitEnd (k : Nat) (i : Nat) : Statement (.threadWaitEnd k i) := of_none rfl
theorem qBind (slot : BitVec 8) : Statement (.qBind slot) := of_none rfl
theorem qStart (slot : BitVec 8) : Statement (.qStart slot) := of_none rfl
theorem qDrain (slot : BitVec 8) : Statement (.qDrain slot) := of_none rfl
theorem qClear (slot : BitVec 8) : Statement (.qClear slot) := of_none rfl
theorem qDestroy (slot : BitVec 8) : Statement (.qDestroy slot) := of_none rfl
theorem qQuery (slot : BitVec 8) : Statement (.qQuery slot) := of_none rfl
theorem queueWatchFire (slot : BitVec 8) : Statement (.queueWatchFire slot) := of_none rfl
theorem queueRecordNop (slot : BitVec 8) : Statement (.queueRecordNop slot) := of_none rfl
theorem queueRecordLaunch (slot : BitVec 8) : Statement (.queueRecordLaunch slot) := of_none rfl
theorem queueRecordWait (slot : BitVec 8) : Statement (.queueRecordWait slot) := of_none rfl
theorem queueRecordSignal (slot : BitVec 8) : Statement (.queueRecordSignal slot) := of_none rfl
theorem queueUnblock (slot : BitVec 8) : Statement (.queueUnblock slot) := of_none rfl
theorem queueAgePromote (slot : BitVec 8) : Statement (.queueAgePromote slot) := of_none rfl
theorem gridDescriptorRead (x : BitVec 12) (g : BitVec 32) : Statement (.gridDescriptorRead x g) := of_none rfl
theorem gridTranslate (x : BitVec 12) (g : BitVec 32) : Statement (.gridTranslate x g) := of_none rfl
theorem teamPlace (k : Nat) : Statement (.teamPlace k) := of_none rfl
theorem placementReserve (k : Nat) : Statement (.placementReserve k) := of_none rfl
theorem teamDone (k : Nat) : Statement (.teamDone k) := of_none rfl
theorem slabSpill (k : Nat) (i : Nat) (slab : Nat) : Statement (.slabSpill k i slab) := of_none rfl
theorem slabFill (k : Nat) (i : Nat) (slab : Nat) : Statement (.slabFill k i slab) := of_none rfl
theorem binDraw (c : Nat) (n : Nat) : Statement (.binDraw c n) := of_none rfl
theorem storeArrival (id : Nat) (die : Nat) : Statement (.storeArrival id die) := of_none rfl
theorem requestEnqueue (r : Nat) : Statement (.requestEnqueue r) := of_none rfl
theorem requestAdvance (cluster : Nat) : Statement (.requestAdvance cluster) := of_none rfl
theorem requestHoldTimeout (r : Nat) : Statement (.requestHoldTimeout r) := of_none rfl
theorem requestBackoffExpiry (r : Nat) : Statement (.requestBackoffExpiry r) := of_none rfl
theorem requestReissue (r : Nat) : Statement (.requestReissue r) := of_none rfl
theorem loadCommit (r : Nat) : Statement (.loadCommit r) := of_none rfl
theorem walkComplete (w : Nat) : Statement (.walkComplete w) := of_none rfl
theorem instructionFetch (k : Nat) (i : Nat) : Statement (.instructionFetch k i) := of_none rfl
theorem runAheadFetch (c : Nat) (x : BitVec 12) (va : BitVec 64) : Statement (.runAheadFetch c x va) := of_none rfl
theorem frmTblWrite (pf : Bool) (v : BitVec 64) : Statement (.frmTblWrite pf v) := of_none rfl
theorem pgInval (x : BitVec 12) : Statement (.pgInval x) := of_none rfl
theorem pgReside (x : BitVec 12) : Statement (.pgReside x) := of_none rfl
theorem pgMigpub (x : BitVec 12) : Statement (.pgMigpub x) := of_none rfl
theorem pgAssign (x : BitVec 12) : Statement (.pgAssign x) := of_none rfl
theorem pgShare (x : BitVec 12) : Statement (.pgShare x) := of_none rfl
theorem pgFree (x : BitVec 12) : Statement (.pgFree x) := of_none rfl
theorem pgUnpoison (x : BitVec 12) : Statement (.pgUnpoison x) := of_none rfl
theorem prqRidxWrite (pf : Bool) (v : BitVec 64) : Statement (.prqRidxWrite pf v) := of_none rfl
theorem mwaitWake (k : Nat) (i : Nat) : Statement (.mwaitWake k i) := of_none rfl
theorem mwaitTimeout (k : Nat) (i : Nat) : Statement (.mwaitTimeout k i) := of_none rfl
theorem hostWatchExpiry (k : Nat) (i : Nat) : Statement (.hostWatchExpiry k i) := of_none rfl
theorem tileOpStart (c : Nat) : Statement (.tileOpStart c) := of_none rfl
theorem tileOpComplete (c : Nat) : Statement (.tileOpComplete c) := of_none rfl
theorem tileFillComplete (id : Nat) : Statement (.tileFillComplete id) := of_none rfl
theorem selftestInject (c : Nat) (sub : Nat) (ok : Bool) : Statement (.selftestInject c sub ok) := of_none rfl
theorem selftestForced (c : Nat) (sub : Nat) (ok : Bool) : Statement (.selftestForced c sub ok) := of_none rfl
theorem requestEngineTake (k : Nat) : Statement (.requestEngineTake k) := of_none rfl
theorem cmdNop (id : Nat) : Statement (.cmdNop id) := of_none rfl
theorem cmdCpy (id : Nat) : Statement (.cmdCpy id) := of_none rfl
theorem cmdCpy2d (id : Nat) : Statement (.cmdCpy2d id) := of_none rfl
theorem cmdCpyt (id : Nat) : Statement (.cmdCpyt id) := of_none rfl
theorem cmdCpyp (id : Nat) : Statement (.cmdCpyp id) := of_none rfl
theorem cmdCpyr (id : Nat) : Statement (.cmdCpyr id) := of_none rfl
theorem cmdFill (id : Nat) : Statement (.cmdFill id) := of_none rfl
theorem cmdComplete (id : Nat) : Statement (.cmdComplete id) := of_none rfl
theorem mhDefine (x : BitVec 12) (region : BitVec 4) : Statement (.mhDefine x region) := of_none rfl
theorem mhBegin (x : BitVec 12) (region : BitVec 4) : Statement (.mhBegin x region) := of_none rfl
theorem mhEnd (x : BitVec 12) (region : BitVec 4) : Statement (.mhEnd x region) := of_none rfl
theorem mhUndefine (x : BitVec 12) (region : BitVec 4) : Statement (.mhUndefine x region) := of_none rfl
theorem teaselTake (x : BitVec 12) (region : BitVec 4) : Statement (.teaselTake x region) := of_none rfl
theorem teaselRetry (x : BitVec 12) (region : BitVec 4) : Statement (.teaselRetry x region) := of_none rfl
theorem hostWrite (pa : Nat) (bytes : List (BitVec 8)) : Statement (.hostWrite pa bytes) := of_none rfl
theorem hostRead (pa : Nat) (len : Nat) : Statement (.hostRead pa len) := of_none rfl
theorem hostAtomicop (pa : Nat) (op : PcieOp) (wide : Bool) (v : BitVec 64) (cmp : BitVec 64) : Statement (.hostAtomicop pa op wide v cmp) := of_none rfl
theorem vfAccess (vf : Nat) (off : Nat) (write_ : Bool) (len : Nat) (bytes : List (BitVec 8)) : Statement (.vfAccess vf off write_ len bytes) := of_none rfl
theorem hostConfigRequest (off : Nat) : Statement (.hostConfigRequest off) := of_none rfl
theorem hostCompletion (line : Nat) (bytes : List (BitVec 8)) : Statement (.hostCompletion line bytes) := of_none rfl
theorem vfBindWrite (pf : Bool) (vf : Nat) (v : BitVec 64) : Statement (.vfBindWrite pf vf v) := of_none rfl
theorem doeDiscovery (index : Nat) : Statement (.doeDiscovery index) := of_none rfl
theorem spdmRequest (secured : Bool) (msg : List (BitVec 8)) : Statement (.spdmRequest secured msg) := of_none rfl
theorem ideKmMessage (stream : Nat) (vf : Nat) : Statement (.ideKmMessage stream vf) := of_none rfl
theorem tdispLockInterface (vf : Nat) : Statement (.tdispLockInterface vf) := of_none rfl
theorem tdispStartInterface (vf : Nat) : Statement (.tdispStartInterface vf) := of_none rfl
theorem tdispStopInterface (vf : Nat) : Statement (.tdispStopInterface vf) := of_none rfl
theorem ideIntegrityFailure (vf : Nat) : Statement (.ideIntegrityFailure vf) := of_none rfl
theorem portSignalDetect (p : Nat) : Statement (.portSignalDetect p) := of_none rfl
theorem portTrainingResult (p : Nat) (lanes : BitVec 8) (node : BitVec 12) : Statement (.portTrainingResult p lanes node) := of_none rfl
theorem portLinkLoss (p : Nat) : Statement (.portLinkLoss p) := of_none rfl
theorem bamlosResponse (line : Nat) (tagOk : Bool) (bytes : List (BitVec 8)) : Statement (.bamlosResponse line tagOk bytes) := of_none rfl
theorem nodeTrigger (line : Nat) : Statement (.nodeTrigger line) := of_none rfl
theorem bamlosMgmt (x : BitVec 12) (node : BitVec 12) (msg : List (BitVec 8)) : Statement (.bamlosMgmt x node msg) := of_none rfl
theorem nodeAttest (x : BitVec 12) (node : BitVec 12) : Statement (.nodeAttest x node) := of_none rfl
theorem attestResult (x : BitVec 12) (node : BitVec 12) (result : BitVec 3) (digest : List (BitVec 8)) : Statement (.attestResult x node result digest) := of_none rfl
theorem nodeRevoke (x : BitVec 12) (node : BitVec 12) : Statement (.nodeRevoke x node) := of_none rfl
theorem nodeFence (x : BitVec 12) (node : BitVec 12) : Statement (.nodeFence x node) := of_none rfl
theorem nodeUnfence (x : BitVec 12) (node : BitVec 12) : Statement (.nodeUnfence x node) := of_none rfl
theorem nodeRetrain (x : BitVec 12) (node : BitVec 12) : Statement (.nodeRetrain x node) := of_none rfl
theorem reduceRoundComplete (id : Nat) : Statement (.reduceRoundComplete id) := of_none rfl
theorem ywLoad (die : Nat) (slot : BitVec 4) : Statement (.ywLoad die slot) := of_none rfl
theorem ywUnload (die : Nat) (slot : BitVec 4) : Statement (.ywUnload die slot) := of_none rfl
theorem ywDump (die : Nat) (slot : BitVec 4) (bank : BitVec 4) : Statement (.ywDump die slot bank) := of_none rfl
theorem ywClear (die : Nat) (slot : BitVec 4) (bank : BitVec 4) : Statement (.ywClear die slot bank) := of_none rfl
theorem ywBudget (die : Nat) (x : BitVec 12) : Statement (.ywBudget die x) := of_none rfl
theorem ywSample (die : Nat) (pos : BitVec 5) (x : BitVec 12) : Statement (.ywSample die pos x) := of_none rfl
theorem yarrowRun (die : Nat) : Statement (.yarrowRun die) := of_none rfl
theorem yarrowWindow (die : Nat) : Statement (.yarrowWindow die) := of_none rfl
theorem yarrowTimerEvent (die : Nat) : Statement (.yarrowTimerEvent die) := of_none rfl
theorem samplerTick (c : Nat) : Statement (.samplerTick c) := of_none rfl
theorem scanRotationStart : Statement (.scanRotationStart) := of_none rfl
theorem coreScan (c : Nat) (ok : Bool) : Statement (.coreScan c ok) := of_none rfl
theorem scanDrainTimeout (c : Nat) : Statement (.scanDrainTimeout c) := of_none rfl
theorem partReset (fail : BitVec 8) (badCores : List Nat) : Statement (.partReset fail badCores) := of_none rfl
theorem partFatal : Statement (.partFatal) := of_none rfl
theorem illegalOpcode (w : BitVec 32) (cause : WordCause) : Statement (.illegalOpcode w cause) := of_none rfl
theorem leaseExpiry (kind : LeaseKind) (holder : Nat) (line : Nat) : Statement (.leaseExpiry kind holder line) := of_none rfl
theorem caplimWindow : Statement (.caplimWindow) := of_none rfl
theorem flowControlStopGo (p : Nat) (vc : Nat) (go : Bool) : Statement (.flowControlStopGo p vc go) := of_none rfl

end Sys2Proof.Laws.Encoding
end

