-- ==== Sys2Proof/Laws/Registers.lean ====
section
/-! SUPPORT. Registers and predicates of a thread after their writes, and the instructions that write one result in each lane. -/

namespace Sys2Proof.Machine

theorem Thread.at_putAt (t : Thread) (p q : Nat) (v : Word) : (t.putAt p v).at q = if q = p then v else t.at q :=
  sget_sput p q v t.stack

theorem Thread.putAt_keeps (t : Thread) (p : Nat) (v : Word) : t.sameButRegs (t.putAt p v) := rfl

theorem Thread.at_next (t : Thread) (p : Nat) : t.next.at p = t.at p := rfl

theorem Thread.at_putList (t : Thread) (p : Nat) (l : List Word) (q : Nat) :
    (t.putList p l).at q = if p ≤ q ∧ q < p + l.length then l.getD (q - p) 0 else t.at q := by
  induction l generalizing t p with
  | nil => rw [if_neg]; · rfl
           · simp only [List.length_nil]; omega
  | cons v r ih =>
    rw [Thread.putList, ih, Thread.at_putAt]
    simp only [List.length_cons]
    by_cases h1 : p + 1 ≤ q ∧ q < p + 1 + r.length
    · rw [if_pos h1, if_pos (by omega)]
      have : q - p = (q - (p + 1)) + 1 := by omega
      rw [this, List.getD_cons_succ]
    · rw [if_neg h1]
      by_cases h2 : q = p
      · subst h2; rw [if_pos rfl, if_pos (by omega)]; simp
      · rw [if_neg h2, if_neg (by omega)]

theorem Thread.sameButRegs.trans {a b c : Thread} (h : a.sameButRegs b) (h' : b.sameButRegs c) : a.sameButRegs c := by
  unfold Thread.sameButRegs at *; rw [h', h]

theorem Thread.putList_keeps (t : Thread) (p : Nat) (l : List Word) : t.sameButRegs (t.putList p l) := by
  induction l generalizing t p with
  | nil => rfl
  | cons v r ih => exact (Thread.putAt_keeps t p v).trans (ih _ _)

theorem Thread.p_setP (t : Thread) (n q : BitVec 3) (v : Bool) : (t.setP n v).p q = if q = n then v else t.p q := by
  have h1 := n.isLt
  have h2 := q.isLt
  have e : (q = n) ↔ q.toNat = n.toNat := by rw [BitVec.toNat_inj]
  simp only [Thread.p, Thread.setP, e]
  by_cases h : q.toNat = n.toNat
  · cases v <;> simp [h] <;> omega
  · cases v <;> simp [h] <;> omega

/-! ## One result in each lane -/

theorem writesReg_setG (t : Thread) (d : BitVec 7) (v : Word) : WritesReg d v t (t.setG d v).next := by
  refine ⟨?_, ?_, rfl, rfl⟩
  · show (t.putAt (t.pos d) v).at (t.pos d) = v
    rw [Thread.at_putAt, if_pos rfl]
  · intro p hp; simp [Thread.at_next, Thread.setG, Thread.at_putAt, hp]

theorem halves_append (v : DWord) : v.extractLsb' 32 32 ++ v.extractLsb' 0 32 = v := by
  apply BitVec.eq_of_getLsbD_eq
  intro i hi
  rw [BitVec.getLsbD_append]
  simp only [BitVec.getLsbD_extractLsb']
  by_cases h : i < 32
  · simp [h]
  · simp [h, show i - 32 < 32 by omega, show 32 + (i - 32) = i by omega]

theorem writesPair_setGx (t : Thread) (d : BitVec 7) (v : DWord) : WritesPair d v t (t.setGx d v).next := by
  have h0 : (t.setGx d v).at (t.pos d) = v.extractLsb' 0 32 := by
    simp only [Thread.setGx, Thread.at_putAt]; rw [if_neg (by omega), if_pos trivial]
  have h1 : (t.setGx d v).at (t.pos d + 1) = v.extractLsb' 32 32 := by
    simp only [Thread.setGx, Thread.at_putAt, if_true]
  refine ⟨?_, ?_, rfl, rfl⟩
  · show (t.setGx d v).at (t.pos d + 1) ++ (t.setGx d v).at (t.pos d) = v
    rw [h0, h1]
    exact halves_append v
  · intro p h0 h1
    show (t.setGx d v).at p = t.at p
    simp only [Thread.setGx, Thread.at_putAt]
    rw [if_neg h1, if_neg h0]

theorem writesPred_setP (t : Thread) (p : BitVec 3) (v : Bool) : WritesPred p v t (t.setP p v).next := by
  refine ⟨?_, ?_, rfl, rfl⟩
  · show (t.setP p v).p p = v
    rw [Thread.p_setP, if_pos rfl]
  · intro q hq
    show (t.setP p v).p q = t.p q
    rw [Thread.p_setP, if_neg hq]

/-- Words from a register on, then flags. -/
theorem writesWords_putList (t : Thread) (d : BitVec 7) (l : List Word) (f : Flags) :
    WritesWords d l f t ((t.putList (t.pos d) l).addFlags f).next := by
  have keep := Thread.putList_keeps t (t.pos d) l
  refine ⟨?_, ?_, ?_, ?_, ?_⟩
  · intro n hn
    show (t.putList (t.pos d) l).at (t.pos d + n) = _
    rw [Thread.at_putList, if_pos (by omega), Nat.add_sub_cancel_left]
  · intro p hp
    show (t.putList (t.pos d) l).at p = _
    rw [Thread.at_putList, if_neg (by omega)]
  · show (t.putList (t.pos d) l).fpflags ||| f = _
    rw [keep]
  · show (t.putList (t.pos d) l).pc + 4 = _
    have : (t.putList (t.pos d) l).pc = t.pc := by
      clear keep
      generalize t.pos d = p
      induction l generalizing t p with
      | nil => rfl
      | cons v r ih => exact (ih (t.putAt p v) (p + 1)).trans rfl
    rw [this]
  · show Thread.sameButRegs _ _
    unfold Thread.sameButRegs at keep ⊢
    simp only [Thread.addFlags, Thread.next]
    rw [keep]

theorem Lanes.of_onLanes {i : Instr} {s : State} {f : List (Nat × Thread) → Nat → Thread → LaneOut}
    {R : Nat → Thread → Thread → Prop} (h : exec i s = .next (s.onLanes f))
    (hR : ∀ j t, j ∈ s.issue.tids → s.thread? s.issue.team j = some t → ∃ u, f s.lanes j t = .done u ∧ R j t u) : Lanes i s R := by
  have hno : ∀ j t, j ∈ s.issue.tids → s.thread? s.issue.team j = some t → ∀ r, f s.lanes j t ≠ .trap r := by
    intro j t hj ht r e
    obtain ⟨u, hu, -⟩ := hR j t hj ht
    rw [hu] at e; cases e
  have sp := State.onLanes_spec s f hno
  refine ⟨_, h, sp.1, fun j hj T hT => ?_⟩
  obtain ⟨u, hu, hr⟩ := hR j T hj hT
  exact ⟨u, by rw [sp.2 j T hj hT, hu]; rfl, hr⟩

theorem Lanes.of_mapG {i : Instr} {s : State} {d : BitVec 7} {f : Thread → Word} (h : exec i s = .next (s.mapG d f)) :
    Lanes i s fun _ T => WritesReg d (f T) T :=
  Lanes.of_onLanes h fun _ t _ _ => ⟨_, rfl, writesReg_setG t d (f t)⟩

theorem Lanes.of_mapGx {i : Instr} {s : State} {d : BitVec 7} {f : Thread → DWord} (h : exec i s = .next (s.mapGx d f)) :
    Lanes i s fun _ T => WritesPair d (f T) T :=
  Lanes.of_onLanes h fun _ t _ _ => ⟨_, rfl, writesPair_setGx t d (f t)⟩

theorem Lanes.of_mapP {i : Instr} {s : State} {p : BitVec 3} {f : Thread → Bool} (h : exec i s = .next (s.mapP p f)) :
    Lanes i s fun _ T => WritesPred p (f T) T :=
  Lanes.of_onLanes h fun _ t _ _ => ⟨_, rfl, writesPred_setP t p (f t)⟩

theorem Lanes.of_mapF {i : Instr} {s : State} {d : BitVec 7} {f : Thread → FRes} (h : exec i s = .next (s.mapF d f)) :
    Lanes i s fun _ T => WritesFloat d (f T) T :=
  Lanes.of_onLanes h fun _ t _ _ => ⟨_, rfl, writesWords_putList t d [(f t).1] (f t).2⟩

end Sys2Proof.Machine
end

