-- ==== Sys2Proof/Tests/Slice0.lean ====
section
/-! SUPPORT. Tests: words written out from the encodings, the spec's own examples, ill-formed instructions, and for every
obligation with hypotheses a state that meets them. -/

namespace Sys2Proof.Tests

open Sys2Proof.Machine

set_option Elab.async false

/-! ## Words of every instruction, written out from its encoding (R55, R64 to R67, R409) -/

theorem test_words_control :
    decodeWord 0b00000010000000000000000000000000#32 = .ok .nop ∧
    decodeWord 0b00000100000_111111111111111110111#32 = .ok (.bra 2097143) ∧
    decodeWord 0b0000011_1101_111111111111111110111#32 = .ok (.brc true 5 2097143) ∧
    decodeWord 0b0000100_0101000_101010101111001101#32 = .ok (.call 40 175053) ∧
    decodeWord 0b00001010000000_0010000_0101000_0000#32 = .ok (.callr 16 40) ∧
    decodeWord 0b00001100000000000000000000000000#32 = .ok .ret ∧
    decodeWord 0b00001110000000_0010000_00000000000#32 = .ok (.jmpr 16) ∧
    decodeWord 0b00010000000000000000000000000000#32 = .ok .exit ∧
    decodeWord 0b00010010000000000000000000000000#32 = .ok .reform ∧
    decodeWord 0b00010100000000_101010101111001101#32 = .ok (.winbase 175053) ∧
    decodeWord 0b00010110000000_101010101111001101#32 = .ok (.trap 175053) ∧
    decodeWord 0b00011000000000000000000000000000#32 = .ok .rft := by and_intros <;> rfl

theorem test_words_services :
    decodeWord 0b0001101_0001000_0001100_00000000000#32 = .ok (.srd 8 12) ∧
    decodeWord 0b0001101_0001100_0010000_00000000001#32 = .ok (.swr 12 16) ∧
    decodeWord 0b0001101_0001000_0001001_00000000010#32 = .ok (.rdcnt 8 9) ∧
    decodeWord 0b0001101_0101000_0010000_00000000011#32 = .ok (.tmark 40 16) ∧
    decodeWord 0b00011010000000000000000000000100#32 = .ok .yield ∧
    decodeWord 0b00011010000000_0010000_00000000101#32 = .ok (.sleep 16) ∧
    decodeWord 0b00011010000000000000000000000110#32 = .ok .brk ∧
    decodeWord 0b0001110_0001000_0010000_0011000_0000#32 = .ok (.launch 8 16 24) ∧
    decodeWord 0b0001111_0001000_0010000_00000000000#32 = .ok (.gwait 8 16) := by and_intros <;> rfl

theorem test_words_group1 :
    decodeWord 0b0010000_0001000_0000_101_00000000000#32 = .ok (.elect 8 5) ∧
    decodeWord 0b0010000_0001000_0000_101_0000_101_0001#32 = .ok (.electS 8 5 5) ∧
    decodeWord 0b0010000_0001000_0010000_00000000010#32 = .ok (.wakel 8 16) ∧
    decodeWord 0b0010001_0001000_0010000_00000000000#32 = .ok (.matchW 8 16) ∧
    decodeWord 0b0010001_0001000_0010000_00000010000#32 = .ok (.matchX 8 16) ∧
    decodeWord 0b00100010000_101_0000_101_00000000001#32 = .ok (.voteAny 5 5) ∧
    decodeWord 0b00100010000_101_0000_101_00000000010#32 = .ok (.voteAll 5 5) ∧
    decodeWord 0b0010001_0001000_0000_101_00000000011#32 = .ok (.voteBal 8 5) ∧
    decodeWord 0b0010001_0001000_000000000000000100#32 = .ok (.actmask 8) ∧
    decodeWord 0b0010010_0001000_0010000_0011000_0000#32 = .ok (.shflIdx 8 16 24) ∧
    decodeWord 0b0010010_0001000_0010000_0011000_0001#32 = .ok (.shflUp 8 16 24) ∧
    decodeWord 0b0010010_0001000_0010000_0011000_0010#32 = .ok (.shflDown 8 16 24) := by and_intros <;> rfl

theorem test_words_group2 :
    decodeWord 0b0010010_0001000_0010000_0011000_0011#32 = .ok (.shflXor 8 16 24) := by and_intros <;> rfl

theorem test_words_logic :
    decodeWord 0b00100110000_101_0000_101_0000_101_0000#32 = .ok (.pand 5 5 5) ∧
    decodeWord 0b00100110000_101_0000_101_0000_101_0001#32 = .ok (.por 5 5 5) ∧
    decodeWord 0b00100110000_101_0000_101_0000_101_0010#32 = .ok (.pxor 5 5 5) ∧
    decodeWord 0b00100110000_101_0000_101_0000_101_0011#32 = .ok (.pandn 5 5 5) ∧
    decodeWord 0b00100110000_101_0000_101_00000000100#32 = .ok (.pnot 5 5) ∧
    decodeWord 0b00100110000_101_0000_101_00000000101#32 = .ok (.pmov 5 5) ∧
    decodeWord 0b0010011_0001000_000000000000000110#32 = .ok (.pget 8) ∧
    decodeWord 0b00100110000000_0010000_0011000_0111#32 = .ok (.psetm 16 24) := by and_intros <;> rfl

theorem test_words_integer1 :
    decodeWord 0b0010100_0001000_0010000_0011000_0000#32 = .ok (.add 8 16 24) ∧
    decodeWord 0b0010100_0001000_0010000_0011000_0001#32 = .ok (.sub 8 16 24) ∧
    decodeWord 0b0010100_0001000_0010000_0011000_0010#32 = .ok (.and 8 16 24) ∧
    decodeWord 0b0010100_0001000_0010000_0011000_0011#32 = .ok (.or 8 16 24) ∧
    decodeWord 0b0010100_0001000_0010000_0011000_0100#32 = .ok (.xor 8 16 24) ∧
    decodeWord 0b0010100_0001000_0010000_0011000_0101#32 = .ok (.andn 8 16 24) ∧
    decodeWord 0b0010100_0001000_0010000_0011000_0110#32 = .ok (.shl 8 16 24) ∧
    decodeWord 0b0010100_0001000_0010000_0011000_0111#32 = .ok (.shr 8 16 24) ∧
    decodeWord 0b0010100_0001000_0010000_0011000_1000#32 = .ok (.sar 8 16 24) ∧
    decodeWord 0b0010100_0001000_0010000_0011000_1001#32 = .ok (.minS 8 16 24) ∧
    decodeWord 0b0010100_0001000_0010000_0011000_1010#32 = .ok (.minU 8 16 24) ∧
    decodeWord 0b0010100_0001000_0010000_0011000_1011#32 = .ok (.maxS 8 16 24) := by and_intros <;> rfl

theorem test_words_integer2 :
    decodeWord 0b0010100_0001000_0010000_0011000_1100#32 = .ok (.maxU 8 16 24) ∧
    decodeWord 0b0010100_0001000_0010000_0011000_1101#32 = .ok (.mul 8 16 24) ∧
    decodeWord 0b0010100_0001000_0010000_0011000_1110#32 = .ok (.mulhiS 8 16 24) ∧
    decodeWord 0b0010100_0001000_0010000_0011000_1111#32 = .ok (.mulhiU 8 16 24) ∧
    decodeWord 0b0010101_0001000_0010000_0011000_0000#32 = .ok (.mad 8 16 24) ∧
    decodeWord 0b0010101_0001000_0010000_0011000_0001#32 = .ok (.mulwS 8 16 24) ∧
    decodeWord 0b0010101_0001000_0010000_0011000_0010#32 = .ok (.mulwU 8 16 24) ∧
    decodeWord 0b0010101_0001000_0010000_00000000011#32 = .ok (.abs 8 16) ∧
    decodeWord 0b0010101_0001000_0010000_00000000100#32 = .ok (.clz 8 16) ∧
    decodeWord 0b0010101_0001000_0010000_00000000101#32 = .ok (.popc 8 16) ∧
    decodeWord 0b0010101_0001000_0010000_00000000110#32 = .ok (.brev 8 16) ∧
    decodeWord 0b0010101_0001000_0010000_0011000_0111#32 = .ok (.bfeS 8 16 24) := by and_intros <;> rfl

theorem test_words_integer3 :
    decodeWord 0b0010101_0001000_0010000_0011000_1000#32 = .ok (.bfeU 8 16 24) ∧
    decodeWord 0b0010101_0001000_0010000_0011000_1001#32 = .ok (.bfi 8 16 24) ∧
    decodeWord 0b0010101_0001000_0010000_00000001010#32 = .ok (.mov 8 16) ∧
    decodeWord 0b0010101_0001000_0010000_00_10011_1011#32 = .ok (.extS 8 16 19) ∧
    decodeWord 0b0010101_0001000_0010000_00_10011_1100#32 = .ok (.extU 8 16 19) := by and_intros <;> rfl

theorem test_words_immediate1 :
    decodeWord 0b0010110_0001000_0010000_0011000_1_101#32 = .ok (.sel 8 16 24 true 5) ∧
    decodeWord 0b0010111_0110_101_0010000_0011000_0000#32 = .ok (.iset .ltu 5 16 24) ∧
    decodeWord 0b0010111_0110_101_0010000_0011000_0001#32 = .ok (.isetX .ltu 5 16 24) ∧
    decodeWord 0b0011000_0110_101_0010000_10110100011#32 = .ok (.iseti .ltu 5 16 1443) ∧
    decodeWord 0b0011001_0001000_0010000_10110100011#32 = .ok (.addi 8 16 1443) ∧
    decodeWord 0b0011010_0001000_0010000_10110100011#32 = .ok (.andi 8 16 1443) ∧
    decodeWord 0b0011011_0001000_0010000_10110100011#32 = .ok (.ori 8 16 1443) ∧
    decodeWord 0b0011100_0001000_0010000_10110100011#32 = .ok (.xori 8 16 1443) ∧
    decodeWord 0b0011101_0001000_0010000_000000_10011#32 = .ok (.shli 8 16 19) ∧
    decodeWord 0b0011101_0001000_0010000_010000_10011#32 = .ok (.shri 8 16 19) ∧
    decodeWord 0b0011101_0001000_0010000_100000_10011#32 = .ok (.sari 8 16 19) ∧
    decodeWord 0b0011101_0001000_0010000_110000_10011#32 = .ok (.roli 8 16 19) := by and_intros <;> rfl

theorem test_words_immediate2 :
    decodeWord 0b0011110_0001000_0010000_10110100011#32 = .ok (.muli 8 16 1443) ∧
    decodeWord 0b0011111_0001000_101010101111001101#32 = .ok (.movi 8 175053) := by and_intros <;> rfl

theorem test_words_wide :
    decodeWord 0b0100000_0001000_0010000_0011000_0000#32 = .ok (.addX 8 16 24) ∧
    decodeWord 0b0100000_0001000_0010000_0011000_0001#32 = .ok (.subX 8 16 24) ∧
    decodeWord 0b0100000_0001000_0010000_0011000_0010#32 = .ok (.shlX 8 16 24) ∧
    decodeWord 0b0100000_0001000_0010000_0011000_0011#32 = .ok (.shrX 8 16 24) ∧
    decodeWord 0b0100000_0001000_0010000_0011000_0100#32 = .ok (.sarX 8 16 24) ∧
    decodeWord 0b0100000_0001000_0010000_00000000101#32 = .ok (.movX 8 16) ∧
    decodeWord 0b0100000_0001000_0010000_0011000_1_011#32 = .ok (.lea 8 16 24 3) ∧
    decodeWord 0b0100001_0001000_0010000_10110100011#32 = .ok (.addiX 8 16 1443) := by and_intros <;> rfl

theorem test_words_float1 :
    decodeWord 0b0101000_0001000_0010000_0011000_1_1_10#32 = .ok (.fadd 8 16 24 true true .rd) ∧
    decodeWord 0b0101001_0001000_0010000_0011000_1_1_10#32 = .ok (.fsub 8 16 24 true true .rd) ∧
    decodeWord 0b0101010_0001000_0010000_0011000_1_1_10#32 = .ok (.fmul 8 16 24 true true .rd) ∧
    decodeWord 0b0101011_0001000_0010000_0011000_1_1_10#32 = .ok (.ffma 8 16 24 true true .rd) ∧
    decodeWord 0b0101100_0001000_0010000_0011000_0000#32 = .ok (.fmin 8 16 24) ∧
    decodeWord 0b0101101_0001000_0010000_0011000_0000#32 = .ok (.fmax 8 16 24) ∧
    decodeWord 0b01011100000_101_0010000_0011000_0111#32 = .ok (.fset .un 5 16 24) ∧
    decodeWord 0b0101111_0001000_0010000_00000000000#32 = .ok (.rcp 8 16) ∧
    decodeWord 0b0101111_0001000_0010000_00000000001#32 = .ok (.rsq 8 16) ∧
    decodeWord 0b0101111_0001000_0010000_00000000010#32 = .ok (.sqrt 8 16) ∧
    decodeWord 0b0101111_0001000_0010000_00000000011#32 = .ok (.exp2 8 16) ∧
    decodeWord 0b0101111_0001000_0010000_00000000100#32 = .ok (.log2 8 16) := by and_intros <;> rfl

theorem test_words_float2 :
    decodeWord 0b0101111_0001000_0010000_00000000101#32 = .ok (.sinpi 8 16) ∧
    decodeWord 0b0101111_0001000_0010000_00000000110#32 = .ok (.cospi 8 16) ∧
    decodeWord 0b0101111_0001000_0010000_00000001000#32 = .ok (.rndn 8 16) ∧
    decodeWord 0b0101111_0001000_0010000_00000001001#32 = .ok (.rndz 8 16) ∧
    decodeWord 0b0101111_0001000_0010000_00000001010#32 = .ok (.rndd 8 16) ∧
    decodeWord 0b0101111_0001000_0010000_00000001011#32 = .ok (.rndu 8 16) := by and_intros <;> rfl

theorem test_words_convert1 :
    decodeWord 0b0110000_0001000_0010000_00000_10_0000#32 = .ok (.fcvtF32I32 8 16 .rd) ∧
    decodeWord 0b0110000_0001000_0010000_00000_10_0001#32 = .ok (.fcvtF32Ui32 8 16 .rd) ∧
    decodeWord 0b0110000_0001000_0010000_00000_10_0010#32 = .ok (.fcvtI32F32 8 16 .rd) ∧
    decodeWord 0b0110000_0001000_0010000_00000_10_0011#32 = .ok (.fcvtUi32F32 8 16 .rd) ∧
    decodeWord 0b0110000_0001000_0010000_00000_10_0100#32 = .ok (.fcvtF32I64 8 16 .rd) ∧
    decodeWord 0b0110000_0001000_0010000_00000_10_0101#32 = .ok (.fcvtI64F32 8 16 .rd) ∧
    decodeWord 0b0110000_0001000_0010000_00000_10_0110#32 = .ok (.fcvtF16F32 8 16 .rd) ∧
    decodeWord 0b0110000_0001000_0010000_00000_10_0111#32 = .ok (.fcvtBf16F32 8 16 .rd) ∧
    decodeWord 0b0110000_0001000_0010000_00000_10_1000#32 = .ok (.fcvtF16hF32 8 16 .rd) ∧
    decodeWord 0b0110000_0001000_0010000_00000_10_1001#32 = .ok (.fcvtBf16hF32 8 16 .rd) ∧
    decodeWord 0b0110000_0001000_0010000_00000001010#32 = .ok (.fcvtF32F16 8 16) ∧
    decodeWord 0b0110000_0001000_0010000_00000001011#32 = .ok (.fcvtF32Bf16 8 16) := by and_intros <;> rfl

theorem test_words_convert2 :
    decodeWord 0b0110000_0001000_0010000_00000001100#32 = .ok (.fcvtF32F16h 8 16) ∧
    decodeWord 0b0110000_0001000_0010000_00000001101#32 = .ok (.fcvtF32Bf16h 8 16) ∧
    decodeWord 0b0110000_0001000_0010000_00000_10_1110#32 = .ok (.fcvtF32Ui64 8 16 .rd) ∧
    decodeWord 0b0110000_0001000_0010000_00000_10_1111#32 = .ok (.fcvtUi64F32 8 16 .rd) ∧
    decodeWord 0b0110001_0001000_0010000_0000_10_1_0000#32 = .ok (.pk8 8 16 .rd .e5m2) ∧
    decodeWord 0b0110010_0001000_0010000_000000_1_0000#32 = .ok (.upk8 8 16 .e5m2) ∧
    decodeWord 0b0110011_0001000_0010000_0000_10_1_0000#32 = .ok (.pk6 8 16 .rd .e2m3) ∧
    decodeWord 0b0110100_0001000_0010000_000000_1_0000#32 = .ok (.upk6 8 16 .e2m3) := by and_intros <;> rfl

theorem test_words_halves :
    decodeWord 0b0110101_0001000_0010000_0011000_0000#32 = .ok (.hadd2Bf16 8 16 24) ∧
    decodeWord 0b0110101_0001000_0010000_0011000_0001#32 = .ok (.hmul2Bf16 8 16 24) ∧
    decodeWord 0b0110101_0001000_0010000_0011000_0010#32 = .ok (.hfma2Bf16 8 16 24) ∧
    decodeWord 0b0110101_0001000_0010000_0011000_0011#32 = .ok (.hadd2F16 8 16 24) ∧
    decodeWord 0b0110101_0001000_0010000_0011000_0100#32 = .ok (.hmul2F16 8 16 24) ∧
    decodeWord 0b0110101_0001000_0010000_0011000_0101#32 = .ok (.hfma2F16 8 16 24) ∧
    decodeWord 0b0110101_0001000_0010000_0011000_0110#32 = .ok (.hmin2 8 16 24) ∧
    decodeWord 0b0110101_0001000_0010000_0011000_0111#32 = .ok (.hmax2 8 16 24) ∧
    decodeWord 0b0110110_0001000_0010000_0000_001_0000#32 = .ok (.scx 8 16 .e5m2) ∧
    decodeWord 0b0110110_0001000_0010000_0011000_0001#32 = .ok (.sca 8 16 24) ∧
    decodeWord 0b0110110_0001000_0010000_0000_001_0010#32 = .ok (.scm 8 16 .e5m2) := by and_intros <;> rfl

theorem test_words_memory1 :
    decodeWord 0b0111000_0001000_0010000_10110100011#32 = .ok (.ldB 8 16 1443) ∧
    decodeWord 0b0111001_0001000_0010000_10110100011#32 = .ok (.ldBs 8 16 1443) ∧
    decodeWord 0b0111010_0001000_0010000_10110100011#32 = .ok (.ldH 8 16 1443) ∧
    decodeWord 0b0111011_0001000_0010000_10110100011#32 = .ok (.ldHs 8 16 1443) ∧
    decodeWord 0b0111100_0001000_0010000_10110100011#32 = .ok (.ldW 8 16 1443) ∧
    decodeWord 0b0111101_0001000_0010000_10110100011#32 = .ok (.ldX 8 16 1443) ∧
    decodeWord 0b0111110_0001000_0010000_10110100011#32 = .ok (.ldQ 8 16 1443) ∧
    decodeWord 0b0111111_0001000_0010000_10110100011#32 = .ok (.stB 8 16 1443) ∧
    decodeWord 0b1000000_0001000_0010000_10110100011#32 = .ok (.stH 8 16 1443) ∧
    decodeWord 0b1000001_0001000_0010000_10110100011#32 = .ok (.stW 8 16 1443) ∧
    decodeWord 0b1000010_0001000_0010000_10110100011#32 = .ok (.stX 8 16 1443) ∧
    decodeWord 0b1000011_0001000_0010000_10110100011#32 = .ok (.stQ 8 16 1443) := by and_intros <;> rfl

theorem test_words_memory2 :
    decodeWord 0b1000100_0001000_0010000_01_100_101_101#32 = .ok (.ldm 8 16 .acq .pkg .x 5) ∧
    decodeWord 0b1000101_0001000_0010000_10_100_101_101#32 = .ok (.stm 8 16 .rel .pkg .x 5) ∧
    decodeWord 0b10001100000000_0010000_10110100011#32 = .ok (.prefLlc 16 1443) ∧
    decodeWord 0b10001100000001_0010000_10110100011#32 = .ok (.prefStash 16 1443) ∧
    decodeWord 0b1000111_0001000_0010000_0011000_0000#32 = .ok (.pgreq 8 16 24) ∧
    decodeWord 0b1000111_0001000_0010000_0011000_0001#32 = .ok (.pgreqNp 8 16 24) := by and_intros <;> rfl

theorem test_words_atomic :
    decodeWord 0b1001000_0001000_0010000_0011000_1100#32 = .ok (.atomT 8 16 24 .fadd) ∧
    decodeWord 0b1001001_0001000_0010000_0011000_1100#32 = .ok (.atomC 8 16 24 .fadd) ∧
    decodeWord 0b1001010_0001000_0010000_0011000_1100#32 = .ok (.atomD 8 16 24 .fadd) ∧
    decodeWord 0b1001011_0001000_0010000_0011000_1100#32 = .ok (.atomP 8 16 24 .fadd) ∧
    decodeWord 0b1001100_0001000_0010000_0011000_1100#32 = .ok (.atomS 8 16 24 .fadd) ∧
    decodeWord 0b10011010000000_0010000_0011000_1100#32 = .ok (.redD 16 24 .fadd) ∧
    decodeWord 0b10011100000000_0010000_0011000_1100#32 = .ok (.redP 16 24 .fadd) ∧
    decodeWord 0b10011110000000_0010000_0011000_1100#32 = .ok (.redS 16 24 .fadd) ∧
    decodeWord 0b1010000_0001000_0010000_0011000_1_100#32 = .ok (.stfl 8 16 24 true .pkg) ∧
    decodeWord 0b1010001_0001000_0010000_0011000_0010#32 = .ok (.redn 8 16 24 .fmax) := by and_intros <;> rfl

theorem test_words_stash :
    decodeWord 0b1010010_0001000_0010000_0011000_0000#32 = .ok (.smap 8 16 24) ∧
    decodeWord 0b1010010_0001000_0010000_00000000001#32 = .ok (.sunmap 8 16) ∧
    decodeWord 0b10100100000000_0010000_0011000_0010#32 = .ok (.sflush 16 24) ∧
    decodeWord 0b10100100000000_0010000_0011000_0011#32 = .ok (.sinv 16 24) ∧
    decodeWord 0b1010011_0001000_0010000_0011000_0000#32 = .ok (.pub 8 16 24) ∧
    decodeWord 0b1010100_0001000_0010000_00000000000#32 = .ok (.mwatch 8 16) ∧
    decodeWord 0b1010101_0001000_0000000_0011000_0000#32 = .ok (.mwait 8 24) := by and_intros <;> rfl

theorem test_words_barrier1 :
    decodeWord 0b101011000000000000000000_1_1111_100#32 = .ok (.fence true true true true true .pkg) ∧
    decodeWord 0b1011000000_1001_000000000000000000#32 = .ok (.barSync 9) ∧
    decodeWord 0b1011000000_1001_0010000_00000000001#32 = .ok (.barArrive 9 16) ∧
    decodeWord 0b1011000000_1001_0010000_00000000010#32 = .ok (.barWait 9 16) ∧
    decodeWord 0b10110010000000_0010000_0011000_0000#32 = .ok (.tbinit 16 24) ∧
    decodeWord 0b10110010000000_0010000_0011000_0001#32 = .ok (.tbexp 16 24) ∧
    decodeWord 0b1011001_0001000_0010000_00000000010#32 = .ok (.tbarr 8 16) ∧
    decodeWord 0b1011001_0001000_0010000_0011000_0011#32 = .ok (.tbwait 8 16 24) ∧
    decodeWord 0b1011001_0001000_0010000_0011000_0100#32 = .ok (.tbtest 8 16 24) ∧
    decodeWord 0b1011001_0001000_0010000_00000000101#32 = .ok (.tberr 8 16) ∧
    decodeWord 0b1011010_10011_10011_10011_10011_00000#32 = .ok (.waitc 19 19 19 19) ∧
    decodeWord 0b10110110000_101_0000000_10110100011#32 = .ok (.waitb 5 1443) := by and_intros <;> rfl

theorem test_words_barrier2 :
    decodeWord 0b10111000000000_0010000_0000_101_0000#32 = .ok (.ccset 5 16) ∧
    decodeWord 0b10111000000000_0010000_0000_101_0001#32 = .ok (.ccadd 5 16) ∧
    decodeWord 0b1011100_0001000_00000000000_101_0010#32 = .ok (.ccrd 8 5) := by and_intros <;> rfl

theorem test_words_tile1 :
    decodeWord 0b1100000_0001000_000000000000000000#32 = .ok (.mxacq 8) ∧
    decodeWord 0b1100001_0001000_000000000000000000#32 = .ok (.mxrel 8) ∧
    decodeWord 0b1100010_100001_101_100100011_0011_111#32 = .ok (.tmma 33 5 291 .e4m3e5m2 true true true) ∧
    decodeWord 0b1100011_100001_101_100100011_0001_111#32 = .ok (.tmmai 33 5 291 .s8u8 true true true) ∧
    decodeWord 0b1100100_100001_000000000000000000_1#32 = .ok (.tzero 33 true) ∧
    decodeWord 0b1100101_0001000_0_100001_0011000_0000#32 = .ok (.trd 8 33 24) ∧
    decodeWord 0b1100101_0001000_0_100001_0011000_0001#32 = .ok (.twr 8 33 24) ∧
    decodeWord 0b1100101_0001000_0_100001_00000000010#32 = .ok (.trowsum 8 33) ∧
    decodeWord 0b1100101_0001000_0_100001_00000000011#32 = .ok (.trowssq 8 33) ∧
    decodeWord 0b1100101_0001000_0_100001_00000000100#32 = .ok (.trowmax 8 33) ∧
    decodeWord 0b110010100000000_100001_0011000_0101#32 = .ok (.trowmul 33 24) ∧
    decodeWord 0b110010100000000_100001_0011000_0110#32 = .ok (.trowadd 33 24) := by and_intros <;> rfl

theorem test_words_tile2 :
    decodeWord 0b1100110_100001_101_10_0000000_0011_00_1#32 = .ok (.tcvt 33 5 2 .e4m3e5m2 true) ∧
    decodeWord 0b11001110_100001_0_100001_0011000_0000#32 = .ok (.tscale 33 33 24) ∧
    decodeWord 0b11010000000000_0010000_0011000_0000#32 = .ok (.tlda 16 24) ∧
    decodeWord 0b1101001_0001000_0010000_00000000000#32 = .ok (.tstate 8 16) ∧
    decodeWord 0b11010100000000_0010000_00000000000#32 = .ok (.trel 16) ∧
    decodeWord 0b11010110000_101_0010000_00000000000#32 = .ok (.cbld 5 16) := by and_intros <;> rfl

theorem test_words_reference1 :
    decodeWord 0b1110000_0001000_000_1001_10110100011#32 = .ok (.rldW 8 9 1443) ∧
    decodeWord 0b1110001_0001000_000_1001_10110100011#32 = .ok (.rldX 8 9 1443) ∧
    decodeWord 0b1110010_0001000_000_1001_10110100011#32 = .ok (.rstW 8 9 1443) ∧
    decodeWord 0b1110011_0001000_000_1001_10110100011#32 = .ok (.rstX 8 9 1443) ∧
    decodeWord 0b1110100000_1001_000_1001_0011000_0000#32 = .ok (.rldr 9 9 24) ∧
    decodeWord 0b1110101000_1001_000_1001_0011000_0000#32 = .ok (.rstr 9 9 24) ∧
    decodeWord 0b1110110_0001000_000_1001_00000000000#32 = .ok (.pin 8 9) ∧
    decodeWord 0b1110110_0001000_000_1001_00000000001#32 = .ok (.unpin 8 9) ∧
    decodeWord 0b11101100000_101_000_1001_000_1001_0010#32 = .ok (.refeq 5 9 9) ∧
    decodeWord 0b1110110_0001000_000_1001_00000000011#32 = .ok (.rget 8 9) ∧
    decodeWord 0b1110110000_1001_0010000_00000000100#32 = .ok (.rput 9 16) ∧
    decodeWord 0b1110110_0001000_000_1001_00000000101#32 = .ok (.rchk 8 9) := by and_intros <;> rfl

theorem test_words_reference2 :
    decodeWord 0b1110110000_1001_000000000000000110#32 = .ok (.rnull 9) := by and_intros <;> rfl

theorem test_words_lit :
    decodeWord 0b1111111_1001000110100010101100111#32 = .ok (.lit 19088743) := by and_intros <;> rfl

theorem test_words_filter1 :
    decodeFilter 0b00000_1001_1001_1001_000000000000000#32 = some (.yadd 9 9 9) ∧
    decodeFilter 0b00001_1001_1001_1001_000000000000000#32 = some (.ysub 9 9 9) ∧
    decodeFilter 0b00010_1001_1001_1001_000000000000000#32 = some (.yand 9 9 9) ∧
    decodeFilter 0b00011_1001_1001_1001_000000000000000#32 = some (.yor 9 9 9) ∧
    decodeFilter 0b00100_1001_1001_1001_000000000000000#32 = some (.yxor 9 9 9) ∧
    decodeFilter 0b00101_1001_1001_1001_000000000000000#32 = some (.yshl 9 9 9) ∧
    decodeFilter 0b00110_1001_1001_1001_000000000000000#32 = some (.yshr 9 9 9) ∧
    decodeFilter 0b00111_1001_1001_1001_000000000000000#32 = some (.yminu 9 9 9) ∧
    decodeFilter 0b01000_1001_1001_1001_000000000000000#32 = some (.ymaxu 9 9 9) ∧
    decodeFilter 0b01001_1001_1001_0000_101101010111100#32 = some (.yaddi 9 9 23228) ∧
    decodeFilter 0b01010_1001_1001_0000_101101010111100#32 = some (.yandi 9 9 23228) ∧
    decodeFilter 0b01011_1001_1001_0000_10_00000000_10011#32 = some (.yshi 9 9 .sar 19) := by and_intros <;> rfl

theorem test_words_filter2 :
    decodeFilter 0b01100_1001_00000000_101101010111100#32 = some (.ymovi 9 23228) ∧
    decodeFilter 0b01101_1001_00000000_101101010111100#32 = some (.yins 9 23228) ∧
    decodeFilter 0b01110_1001_1001_0000000000000000000#32 = some (.yclz 9 9) ∧
    decodeFilter 0b01111_1001_1001_00000000000000000_10#32 = some (.yhash 9 9 2) ∧
    decodeFilter 0b10000_0101_1001_1001_000000000001001#32 = some (.ybr .ge 9 9 9) ∧
    decodeFilter 0b100010000_1001_1001_0000000000000_10#32 = some (.yhist 2 9 9) ∧
    decodeFilter 0b100100000_1001_1001_00000000000000_1#32 = some (.ycms 1 9 9) ∧
    decodeFilter 0b10011_1001_1001_000000000000000000_1#32 = some (.ycmq 9 1 9) ∧
    decodeFilter 0b10100_1001_1001_00000000000000000_10#32 = some (.yldb 9 2 9) ∧
    decodeFilter 0b10101000000000000000000000000000#32 = some .ytrigRecord ∧
    decodeFilter 0b10101000000000000000000000000001#32 = some .ytrigInterrupt ∧
    decodeFilter 0b10101000000000000000000000000010#32 = some .ytrigFreeze := by and_intros <;> rfl

theorem test_words_filter3 :
    decodeFilter 0b101010000_1001_0000000000000000011#32 = some (.ytrigArm 9) ∧
    decodeFilter 0b10110_1001_00000000_000000000000011#32 = some (.yrds 9 3) ∧
    decodeFilter 0b10111000000000000000000000000000#32 = some .yend := by and_intros <;> rfl

/-! ## A small part

Context 1 runs a team of one thread on core 0; its page at 65,536 is RESIDENT and its translation cached. -/

/-- A thread at the start of the page, with values in registers. -/
def thread1 (regs : Sparse 32) : Thread :=
  { pc := 65536, trapvec := 0x20000, bundle := some 0, slabs := [(0, true)], stack := regs }

def team1 (t : Thread) : Team := { fetchTeam with threads := [t], phase := .running }

/-- The part around a team, which issues its threads. -/
def partOf (T : Team) (tids : List Nat) : State :=
  { clock := 5000, regs := { bootReady := true }
    contexts := [(1, { state := .running
                       desc := { priv := true, tiles := true, slice := 10000, bsbase := 0x40000000, bslimit := 0x110000 } })]
    grids := [fetchGrid], teams := [(1, T)]
    cores := [(0, { slice := some 1, accown := 1, tlb := [codeEntry] })]
    issue := { team := 1, tids := tids }, fresh := 2 }

/-- The thread issues alone. -/
def part1 (t : Thread) : State := partOf (team1 t) [0]


/-- A register pair that addresses the page. -/
def addr1 : Thread := thread1 [(4, 65536)]

theorem alone1 (t : Thread) (h : t.status ≠ .exited) : Alone (part1 t) 0 (team1 t) t := ⟨rfl, rfl, rfl, h⟩

theorem free1 (t : Thread) (h : t.status ≠ .exited) (hl : t.cntLd < 30) (hs : t.cntSt < 30) :
    Free (part1 t) 0 (team1 t) t := ⟨alone1 t h, rfl, Nat.zero_lt_one, hl, hs, (fun _ hq => nomatch hq), rfl⟩

/-- The one thread of a team. -/
theorem only {t x : Thread} {i : Nat} (h : [t][i]? = some x) : i = 0 ∧ x = t := by
  match i, h with
  | 0, h => exact ⟨rfl, (Option.some.inj h).symm⟩

/-- Accesses of up to 16 bytes at the page's start pass their check there. -/
theorem reaches1 (n : Nat) (need : Need) (h : n ∈ [1, 2, 4, 8, 16, 32]) (hn : need ∈ [.load, .store, .atomic, .red]) :
    Reaches (part1 addr1) (team1 addr1) 65536 n need 65536 := by
  simp only [List.mem_cons, List.not_mem_nil, or_false] at h hn
  obtain rfl | rfl | rfl | rfl | rfl | rfl := h <;> obtain rfl | rfl | rfl | rfl := hn <;>
    exact ⟨by decide, by decide, by decide, by decide +kernel, by decide +kernel,
      ⟨codeEntry, by decide +kernel, by decide +kernel, by decide +kernel, by decide +kernel⟩, by decide, by decide +kernel, rfl⟩

/-- Where no word of memory is bad, no stash owns a line with one. -/
theorem clean {s : State} (h : s.badWords = []) : s.ownsClean := fun _ _ _ _ _ => by rw [h]; rfl

theorem calm1 (n : Nat) : Calm (part1 addr1) 65536 n := ⟨(fun _ h => nomatch h), by decide +kernel⟩

/-- Page tables in frame 48: a leaf at 2 MiB that is ABSENT, and one at 0x20000 that is MIGRATING, in frame 80. -/
def tabled (s : State) : State :=
  { s.modCtx 1 fun C => { C with desc := { C.desc with ptroot := 0x300000 } } with
    frames := [(48, .assigned 0), (80, .assigned 1)]
    mem := { cells := [(0x300000, 1), (0x300001, 0x10), (0x300002, 0x30), (0x301000, 1), (0x301001, 0x20), (0x301002, 0x30),
                       (0x302000, 1), (0x302001, 0x30), (0x302002, 0x30), (0x303000, 1), (0x303001, 0x40), (0x303002, 0x30),
                       (0x303008, 0x1F), (0x304010, 0x1F), (0x304012, 0x50), (0x304017, 0x20)] } }

/-! ## Witnesses: control flow, traps and services -/

theorem test_jump_targets : ∀ x ∈ (part1 addr1).lanes, (x.2.gx 4).toNat % 4 = 0 ∧ canonical (x.2.gx 4) = true := by decide +kernel

/-- CALL to the highest window base, CALLR there, WINBASE to both ends. -/
theorem test_calls :
    (∀ x ∈ (part1 { addr1 with wb := 8062 }).lanes, x.2.wb + (2#7).toNat ≤ 8064) ∧ 2 ≤ (2#7).toNat ∧
    (∀ x ∈ (part1 addr1).lanes, x.2.wb + (126#7).toNat ≤ 8064 ∧ (x.2.gx 4).toNat % 4 = 0 ∧ canonical (x.2.gx 4) = true) ∧
    (∀ x ∈ (part1 { addr1 with wb := 16 }).lanes, 0 ≤ (x.2.wb : Int) + (0x3FFF0#18).toInt ∧ (x.2.wb : Int) + (0x3FFF0#18).toInt ≤ 8064) ∧
    (∀ x ∈ (part1 addr1).lanes, 0 ≤ (x.2.wb : Int) + (8064#18).toInt ∧ (x.2.wb : Int) + (8064#18).toInt ≤ 8064) := by decide +kernel

/-- A link word of slide 2 below a window at 2. -/
theorem test_returns : ∀ x ∈ (part1 { thread1 [(0, 65536), (1, 0x04000000)] with wb := 2 }).lanes,
    2 ≤ x.2.wb ∧ x.2.linkSlide ≠ 0 ∧ x.2.linkSlide % 2 = 0 ∧ x.2.linkSlide ≤ x.2.wb ∧ x.2.linkPc.toNat % 4 = 0 := by decide +kernel

theorem test_call_and_return :
    2 ≤ (2#7).toNat ∧ (2#7).toNat % 2 = 0 ∧
    (∀ x ∈ (part1 addr1).lanes, x.2.wb + (2#7).toNat ≤ 8064 ∧ x.2.pendRegs = [] ∧ x.2.pc.toNat % 4 = 0 ∧ canonical (x.2.pc + 4) = true) ∧
    ∃ t, exec (.call 2 8) (part1 addr1) = .next t := ⟨by decide, by decide, by decide +kernel, _, rfl⟩

/-- A thread that may trap, and each cause of a trap. -/
theorem test_traps :
    Alone (part1 addr1) 0 (team1 addr1) addr1 ∧ addr1.handler = false ∧ addr1.trapvec ≠ 0 ∧ addr1.status = .ready ∧
    ((part1 addr1).ctx 1).desc.dbg = false ∧ addr1.wb < 2 ∧
    ((addr1.wb : Int) + (0x3FFFF#18).toInt < 0) ∧ 8064 < (addr1.wb : Int) + (8065#18).toInt ∧
    8064 < ({ addr1 with wb := 8063 } : Thread).wb + (2#7).toNat ∧
    ((thread1 [(4, 65538)]).gx 4).toNat % 4 ≠ 0 ∧
    (((thread1 [(5, 0x02000000)]).gx 4).toNat % 4 = 0 ∧ canonical ((thread1 [(5, 0x02000000)]).gx 4) = false) ∧
    (((part1 addr1).modCtx 1 fun C => { C with desc := {} }).ctx 1).desc.priv = false ∧ (13#7) ∈ [13#7, 14, 16, 18] :=
  ⟨alone1 _ (by decide), by decide +kernel⟩

/-- A handler of an unprivileged context, and a privileged context. -/
theorem test_handler_ends :
    (∀ x ∈ (part1 { addr1 with handler := true }).lanes, (part1 addr1).issueCtx.desc.priv = true ∨ x.2.handler = true) ∧
    ∀ x ∈ ((part1 { addr1 with handler := true }).modCtx 1 fun C => { C with desc := {} }).lanes,
      ((part1 addr1).modCtx 1 fun C => { C with desc := {} }).issueCtx.desc.priv = true ∨ x.2.handler = true := by decide +kernel

theorem test_unhandled :
    (addr1.trapvec = 0 ∨ ({ addr1 with handler := true } : Thread).handler = true) ∧ ((part1 addr1).ctx 1).state = .running ∧
    (team1 addr1).phase.isResident = true ∧ (part1 addr1).grid? 1 1 = some fetchGrid ∧ fetchGrid.state.ended = false ∧
    fetchGrid.queue = none ∧ (part1 addr1).lits.payloads = [] := by decide +kernel

theorem test_special_registers : (part1 addr1).team? (part1 addr1).issue.team = some (team1 addr1) ∧
    (part1 addr1).grid? (team1 addr1).ctx (team1 addr1).gid = some fetchGrid ∧ (15#7).toNat = (15 : Fin 16).val := by decide +kernel

/-- A team with one operation in the sequencer, whose flags an SWR clears; and a thread in its handler. -/
theorem test_special_writes :
    (part1 addr1).teamOps 1 (team1 addr1) = [] ∧ ((thread1 [(4, 0x700)]).g 4).extractLsb' 8 3 = 7#3 ∧
    (addr1.g 4).extractLsb' 8 3 ≠ 7#3 ∧
    ((part1 addr1).modCore 0 fun C => { C with seq := [{ id := 7, team := 1, tids := [0], rows := [], op := .zero }] }).teamOps 1 (team1 addr1) ≠ [] ∧
    (((part1 addr1).ctx 1).desc.priv = true ∨ addr1.handler = true) := by decide +kernel

/-- WAKEL of a sleeper, of a thread that does not sleep, of one that has exited, of all. -/
theorem test_wakes :
    (let v : Thread := { addr1 with status := .sleeping 9000, bundle := none }
     let T := { team1 addr1 with threads := [thread1 [(4, 1)], v] }
     (partOf T [0]).team? 1 = some T ∧ T.threads[((thread1 [(4, 1)]).g 4).toNat]? = some v ∧ v.asleep = true ∧ v.missing = []) ∧
    (team1 addr1).threads[((thread1 []).g 4).toNat]? = some addr1 ∧ addr1.asleep = false ∧ addr1.status ≠ .exited ∧
    (thread1 []).g 4 ≠ 0xFFFFFFFF ∧ (team1 (thread1 [(4, 1)])).threads[((thread1 [(4, 1)]).g 4).toNat]? = none ∧
    (thread1 [(4, 0xFFFFFFFF)]).g 4 = 0xFFFFFFFF := by decide +kernel

/-- REFORM with a free bin, and with the 64 bins of the core in use. -/
theorem test_bins :
    ((part1 addr1).core 0).bins.length < 64 ∧
    (let C := ((part1 addr1).modCore 0 fun C => { C with bins := List.replicate 64 { team := 2, pc := 0, tids := [] } }).core 0
     64 ≤ C.bins.length ∧ ∀ b ∈ C.bins, b.team = 1 → b.pc ≠ addr1.pc + 4) := by decide +kernel

/-- Grids that a thread may wait for: an ended child, a running one, one that is no child; and the depths and counts of LAUNCH. -/
theorem test_launches :
    let G : Grid := { fetchGrid with gid := 2, parent := some 1, state := .retired, depth := 1 }
    (part1 addr1).grid? 1 1 = some fetchGrid ∧ fetchGrid.depth < 10 ∧ fetchGrid.depth ≠ 9 ∧ (part1 addr1).childCount 1 < 4096 ∧
    ({ fetchGrid with depth := 9 } : Grid).depth = 9 ∧
    4096 ≤ ({ part1 addr1 with grids := fetchGrid :: List.replicate 4096 { G with state := .queued } } : State).childCount 1 ∧
    (({ part1 addr1 with grids := [fetchGrid, G] } : State).grid? 1 ((thread1 [(4, 2)]).g 4) = some G ∧ G.parent = some fetchGrid.gid ∧
      G.state.ended = true) ∧
    ({ G with state := .running } : Grid).state.ended = false ∧ (part1 addr1).grid? 1 ((thread1 [(4, 2)]).g 4) = none := by decide +kernel

/-! ## Witnesses: memory -/

/-- The first and the last accesses of the page. -/
theorem test_addresses : ∀ n ∈ [1, 2, 4, 8, 16], (part1 addr1).addressOf addr1 4 0 n = 65536 ∧
    (65536 : DWord).toNat + 65536 - n = ((thread1 [(4, BitVec.ofNat 32 (131072 - n))]).gx 4).toNat := by decide +kernel

theorem test_reaches_page_end :
    let t := thread1 [(4, 131056)]
    Reaches (part1 t) (team1 t) (t.gx 4) 16 .load 131056 :=
  ⟨by decide +kernel, by decide +kernel, by decide +kernel, by decide +kernel, by decide +kernel,
    ⟨codeEntry, by decide +kernel, by decide +kernel, by decide +kernel, by decide +kernel⟩, by decide, by decide +kernel, rfl⟩

theorem test_loads : Free (part1 addr1) 0 (team1 addr1) addr1 ∧ Reaches (part1 addr1) (team1 addr1) (addr1.gx 4) 16 .load 65536 ∧
    (∀ f ∈ (part1 addr1).mem.flights, f.outside = false) ∧ (part1 addr1).inOrderOn (dieOf (team1 addr1).core) :=
  ⟨free1 _ (by decide) (by decide) (by decide), reaches1 16 .load (by decide) (by decide), (fun _ h => nomatch h),
    by decide, fun _ h => nomatch h⟩

/-- The ABSENT page of those tables. -/
def absentEntry : TlbEntry := { ctx := 1, va := 0x200000, size := 2 ^ 21, pa := 0, pte := 0x1F, path := [768, 769, 770, 771] }

/-- A list of announcements of 65,536 that wait, of another context. -/
def announcing (s : State) : State :=
  { s with regs := { s.regs with prqBase := 0x300000 }
           prqList := List.replicate 65536 { ctx := 2, kind := 0, addr := 0, write := false, denied := false, clock := 0 } }

/-- Loads and stores of the ABSENT page, with room in the list of announcements and with none. -/
theorem test_absent (need : Need) (n : Nat) (h : n ∈ [1, 2, 4, 8, 16]) (hn : need ∈ [.load, .store, .atomic, .red]) :
    let t := thread1 [(4, 0x200000)]
    let s := tabled (part1 t)
    Free s 0 (team1 t) t ∧ t.status = .ready ∧ FindsAbsent s (team1 t) (t.gx 4) n need absentEntry ∧
      s.announceFull 1 (BitVec.ofNat 64 (pageBase (swapVa (s.ctx 1).swaps (t.gx 4).toNat) absentEntry.size)) true false = false := by
  simp only [List.mem_cons, List.not_mem_nil, or_false] at h hn
  obtain rfl | rfl | rfl | rfl | rfl := h <;> obtain rfl | rfl | rfl | rfl := hn <;>
    exact ⟨⟨⟨rfl, rfl, rfl, by decide⟩, rfl, by decide, by decide, by decide, (fun _ hq => nomatch hq), rfl⟩, rfl,
      ⟨by decide, by decide, by decide, by decide +kernel, by decide +kernel, by decide +kernel, rfl, by decide +kernel, by decide, by decide⟩,
      by decide +kernel⟩

theorem test_absent_full :
    let t := thread1 [(4, 0x200000)]
    let s := announcing (tabled (part1 t))
    Free s 0 (team1 t) t ∧ FindsAbsent s (team1 t) (t.gx 4) 4 .store absentEntry ∧
      s.announceFull 1 (BitVec.ofNat 64 (pageBase (swapVa (s.ctx 1).swaps (t.gx 4).toNat) absentEntry.size)) true false = true :=
  ⟨⟨⟨rfl, rfl, rfl, by decide⟩, rfl, by decide, by decide, by decide, (fun _ hq => nomatch hq), rfl⟩,
    ⟨by decide, by decide, by decide, by decide +kernel, by decide +kernel, by decide +kernel, rfl, by decide +kernel, by decide, by decide⟩,
    by decide +kernel⟩

/-- A store to a MIGRATING page, and an STFL whose flag's page is ABSENT. -/
theorem test_moving_store :
    (let e := { codeEntry with pte := 0x200000000001001F }
     let s := (part1 addr1).modCore 0 fun C => { C with tlb := [e] }
     Free s 0 (team1 addr1) addr1 ∧ FindsMoving s (team1 addr1) (addr1.gx 4) 4 .store) ∧
    (let t := thread1 [(4, 65536), (6, 0x200000)]
     let s := tabled (part1 t)
     Reaches s (team1 t) (t.gx 4) 8 .store 65536 ∧ FindsAbsent s (team1 t) (t.gx 6) 4 .store absentEntry ∧
       s.announceFull 1 (BitVec.ofNat 64 (pageBase (swapVa (s.ctx 1).swaps (t.gx 6).toNat) absentEntry.size)) true false = false) :=
  ⟨⟨⟨⟨rfl, rfl, rfl, by decide⟩, rfl, by decide, by decide, by decide, (fun _ hq => nomatch hq), rfl⟩,
      ⟨by decide, by decide, by decide, by decide +kernel, by decide +kernel, { codeEntry with pte := 0x200000000001001F }, by decide +kernel⟩⟩,
    ⟨by decide +kernel, by decide +kernel, by decide +kernel, by decide +kernel, by decide +kernel,
      ⟨codeEntry, by decide +kernel, by decide +kernel, by decide +kernel, by decide +kernel⟩, by decide, by decide +kernel, rfl⟩,
    ⟨by decide, by decide, by decide, by decide +kernel, by decide +kernel, by decide +kernel, rfl, by decide +kernel, by decide, by decide⟩,
    by decide +kernel⟩

theorem test_stores : Free (part1 addr1) 0 (team1 addr1) addr1 ∧ Reaches (part1 addr1) (team1 addr1) (addr1.gx 4) 1 .store 65536 ∧
    Reaches (part1 addr1) (team1 addr1) (addr1.gx 4) 16 .store 65536 ∧ Calm (part1 addr1) 65536 16 ∧
    Reaches (part1 addr1) (team1 addr1) (addr1.gx 4) 8 .atomic 65536 ∧ (if AOp.addX = .addX then 8 else 4) = 8 :=
  ⟨free1 _ (by decide) (by decide) (by decide), reaches1 1 .store (by decide) (by decide), reaches1 16 .store (by decide) (by decide),
    calm1 16, reaches1 8 .atomic (by decide) (by decide), rfl⟩

/-- STFL with its flag right behind its data. -/
theorem test_flag_store :
    let t := thread1 [(4, 65536), (6, 65544)]
    Free (part1 t) 0 (team1 t) t ∧ Reaches (part1 t) (team1 t) (t.gx 4) 8 .store 65536 ∧ Reaches (part1 t) (team1 t) (t.gx 6) 4 .store 65544 ∧
      (part1 t).mem.flights = [] ∧ (part1 t).isWatched (lineOf 65536) = false ∧ (part1 t).isWatched (lineOf 65544) = false ∧ 65536 + 8 ≤ 65544 :=
  ⟨free1 _ (by decide) (by decide) (by decide),
    ⟨by decide +kernel, by decide +kernel, by decide +kernel, by decide +kernel, by decide +kernel,
      ⟨codeEntry, by decide +kernel, by decide +kernel, by decide +kernel, by decide +kernel⟩, by decide, by decide +kernel, rfl⟩,
    ⟨by decide +kernel, by decide +kernel, by decide +kernel, by decide +kernel, by decide +kernel,
      ⟨codeEntry, by decide +kernel, by decide +kernel, by decide +kernel, by decide +kernel⟩, by decide, by decide +kernel, rfl⟩,
    by decide +kernel⟩

/-- Misaligned, not canonical, and a page that permits nothing; a partition without room. -/
theorem test_access_traps :
    (part1 (thread1 [(4, 65537)])).addressOf (thread1 [(4, 65537)]) 4 0 4 % 4 ≠ 0 ∧
    ((thread1 [(4, 65537)]).gx 4).toNat % widthBytes .h ≠ 0 ∧ ((thread1 [(4, 65537)]).gx 4).toNat % 4 ≠ 0 ∧
    ((thread1 [(4, 65540)]).gx 4).toNat % 8 ≠ 0 ∧
    (((thread1 [(5, 0x02000000)]).gx 4).toNat % widthBytes .q = 0 ∧ canonical ((thread1 [(5, 0x02000000)]).gx 4) = false ∧
      inWindow ((thread1 [(5, 0x02000000)]).gx 4) = false) ∧
    (let e := { codeEntry with pte := 0x1000000000010011 }
     let s := (part1 addr1).modCore 0 fun C => { C with tlb := [e] }
     s.cached? 0 1 (swapVa (s.ctx 1).swaps (addr1.gx 4).toNat) = some e ∧ pteR e.pte = false ∧ pteW e.pte = false ∧
       s.extent? (team1 addr1) (addr1.gx 4).toNat false = none ∧ s.extent? (team1 addr1) (addr1.gx 4).toNat true = none ∧
       ((s.ctx 1).managed? e (addr1.gx 4).toNat = none ∨ pteSt e.pte ≠ 3)) ∧
    (team1 addr1).size < (List.replicate 1 ({ id := 9, tid := 0, va := 0, op := .watch, counter := 1, stage := .behind } : Req)).length +
      (part1 addr1).issue.tids.length := by decide +kernel

/-- Tables that map nothing at 0x400000; that stand in a marked block; that hold a bad word; and an EVAC page of no region. -/
theorem test_walk_traps :
    (let t := thread1 [(4, 0x400000)]
     let s := tabled (part1 t)
     let p : State := { s with poison := [0x303] }
     let q : State := { s with badWords := [0x303010 / 8] }
     (t.gx 4).toNat % 16 = 0 ∧ inWindow (t.gx 4) = false ∧ canonical (t.gx 4) = true ∧ s.extent? (team1 t) (t.gx 4).toNat false = none ∧
       s.cached? 0 1 (swapVa (s.ctx 1).swaps (t.gx 4).toNat) = none ∧ s.slowWalk (team1 t) (t.gx 4) = false ∧
       s.walkIn 0 1 (swapVa (s.ctx 1).swaps (t.gx 4).toNat) = .refused 0x07 ∧
       p.walkIn 0 1 (swapVa (p.ctx 1).swaps (t.gx 4).toNat) = .poisoned 0x303 false ∧
       q.walkIn 0 1 (swapVa (q.ctx 1).swaps (t.gx 4).toNat) = .poisoned 0x303 true ∧
       p.slowWalk (team1 t) (t.gx 4) = false ∧ q.slowWalk (team1 t) (t.gx 4) = false) ∧
    (let e := { codeEntry with pte := 0x330000000001001F }
     let s := (part1 addr1).modCore 0 fun C => { C with tlb := [e] }
     s.cached? 0 1 (swapVa (s.ctx 1).swaps (addr1.gx 4).toNat) = some e ∧ Need.red.allowed e.pte = true ∧ pteSt e.pte = 3 ∧ pteMreg e.pte ≠ 0 ∧
       (s.ctx 1).managed? e (addr1.gx 4).toNat = none ∧ (s.ctx 1).desc.inBacking (addr1.gx 4).toNat = false) ∧
    (let t := thread1 [(5, 0xFF800000)]
     inWindow (t.gx 4) = true ∧ (team1 t).ringLen = 0) := by decide +kernel

/-- A node window of context 1's node 0 and its staging: a unit and its control line. -/
theorem test_reduction_starts :
    let t := thread1 [(4, 65536), (6, 131072)]
    let r : TlbEntry := { ctx := 1, va := 65536, size := 65536, pa := 2 ^ 50, pte := 0x100400000000001F }
    let c : TlbEntry := { ctx := 1, va := 131072, size := 65536, pa := 2 ^ 50 + 2 ^ 37, pte := 0x100400200000001F }
    let s := { ((part1 t).modCtx 1 fun C => { C with jobKey := some [] }).modCore 0 fun C => { C with tlb := [r, c] } with
               nodes := [(0, { en := true, mask := 1 })], ports := [(0, { state := .up, lanes := 0xFF, node := 0 })] }
    Free s 0 (team1 t) t ∧ (t.gx 4).toNat % 16 = 0 ∧ (t.gx 6).toNat % 128 = 0 ∧
      s.check (team1 t) (t.gx 4) 16 .store false true = (s, .ok (2 ^ 50) false) ∧
      s.checkControl (team1 t) (t.gx 6) = (s, .ok (2 ^ 50 + 2 ^ 37) false) ∧ inNode (2 ^ 50) = true ∧ inNode (2 ^ 50 + 2 ^ 37) = true ∧
      nodeOf (2 ^ 50) = nodeOf (2 ^ 50 + 2 ^ 37) ∧ 2 ^ 50 % 2 ^ 38 < 2 ^ 37 ∧ 2 ^ 37 ≤ (2 ^ 50 + 2 ^ 37) % 2 ^ 38 ∧
      s.unreachable (2 ^ 50) = false ∧ s.mem.flights = [] ∧ s.slowWalk (team1 t) (t.gx 4) = false ∧ s.slowWalk (team1 t) (t.gx 6) = false :=
  ⟨⟨⟨rfl, rfl, rfl, by decide⟩, rfl, by decide, by decide, by decide, (fun _ hq => nomatch hq), rfl⟩, by decide +kernel⟩

/-- Node 0 behind port 0. -/
def noded (s : State) : State :=
  { s with nodes := [(0, { en := true, mask := 1, watches := [2 ^ 43] })], ports := [(0, { state := .up, lanes := 0xFF, node := 0 })] }

/-- A round with an error, and one without, of a context whose contributions are taken in order. -/
theorem test_reduction_ends :
    let r : Round := { id := 5, ctx := 1, core := 0, cl := 2 ^ 50 + 2 ^ 37, op := .fadd }
    let s := { noded (part1 addr1) with rounds := [r] }
    let u := { s.modCtx 1 fun C => { C with desc := { C.desc with redpol := 1 } } with
               mem := { cells := [(r.cl, 2), (r.cl + 4, 16)] } }
    let w := { s with mem := { cells := [(r.cl + 14, 1)] } }
    s.rounds.find? (fun q => q.id == r.id) = some r ∧ s.mem.flights = [] ∧ 2 ^ 37 ≤ r.cl ∧ s.unreachable r.cl = false ∧
      (∀ c ∈ s.contexts, ∀ p ∈ c.2.pairs, p.leaving = false) ∧ { part1 addr1 with rounds := [r] }.unreachable r.cl = true ∧
      u.roundReady r = true ∧ w.roundReady r = true ∧ r.asked = false ∧ w.roundLines r = [] ∧ u.roundLines r ≠ [] ∧ { r with asked := true }.asked = true ∧
      { u with rounds := [{ r with asked := true }] }.roundReady { r with asked := true } = true ∧
      { part1 addr1 with rounds := [r] }.roundReady r = false ∧
      ofBytes (w.homeRead (r.cl + 14) 2) % 2 = 1 ∧ ofBytes (u.homeRead (r.cl + 14) 2) % 2 = 0 ∧ u.badWords = [] ∧ u.poison = [] ∧
      u.hostPoison = [] ∧ (u.ctx r.ctx).desc.redpol = 1 ∧ 0 < ofBytes (u.homeRead r.cl 4) ∧ 3 < ofBytes (u.homeRead (r.cl + 4) 4) / 4 := by decide +kernel

/-- PGREQ over the page, none of it absent, and over the ABSENT page. -/
theorem test_page_requests :
    (let t := thread1 [(4, 65536), (6, 65536)]
     (part1 t).announcesFull 1 [] = false ∧ (part1 t).badWords = [] ∧ (part1 t).examine (team1 t) t 64 (t.gx 4).toNat ((t.gx 4).toNat + (t.g 6).toNat) = (part1 t, .absent [])) ∧
    (let t := thread1 [(4, 0x200000), (6, 0x200000)]
     let e : TlbEntry := { ctx := 1, va := 0x200000, size := 2 ^ 21, pa := 0, pte := 0x1F, path := [768, 769, 770, 771] }
     let s := (part1 t).modCore 0 fun C => { C with tlb := [e] }
     s.examine (team1 t) t 64 (t.gx 4).toNat ((t.gx 4).toNat + (t.g 6).toNat) = (s, .absent [0x200000]) ∧
       s.announcesFull 1 [0x200000] = false) := by decide +kernel

/-- Stash mappings: none, the scratch mapping, and one of the thread's. -/
theorem test_mappings :
    let m : StashMap := { base := 65536, offset := 0, len := 4096 }
    (team1 addr1).mapped? (addr1.gx 4).toNat = none ∧
    ({ team1 addr1 with maps := [{ m with scratch := true }] } : Team).mapped? (addr1.gx 4).toNat = some { m with scratch := true } ∧
    ({ team1 addr1 with maps := [m] } : Team).mapped? (addr1.gx 4).toNat = some m ∧ m.scratch = false := by decide +kernel

/-- A range that cannot be published, and one that can. -/
theorem test_publishes :
    (let t := thread1 [(4, 65536), (8, 65537), (10, 4096)]
     let w := (part1 t).publishWalks (team1 t) (t.gx 4).toNat ((t.gq 8).setWidth 64).toNat (t.at (t.pos 8 + 2)).toNat
     (w.publishStatus 0 1 (t.gx 4).toNat ((t.gq 8).setWidth 64).toNat (t.at (t.pos 8 + 2)).toNat).1 ≠ 0) ∧
    (let t := thread1 [(4, 65536), (8, 131072), (10, 65536)]
     let e := { codeEntry with va := 131072, pa := 131072, pte := 0x100000000002001F }
     let s := (part1 t).modCore 0 fun C => { C with tlb := [codeEntry, e] }
     (s.publishStatus 0 1 (t.gx 4).toNat ((t.gq 8).setWidth 64).toNat (t.at (t.pos 8 + 2)).toNat).1 = 0 ∧
       s.publishWalks (team1 t) (t.gx 4).toNat ((t.gq 8).setWidth 64).toNat (t.at (t.pos 8 + 2)).toNat = s) := by decide +kernel

/-- A thread's watch in each of its states. -/
theorem test_watches : ((part1 addr1).die (homeDie 65536)).watches = [] ∧ addr1.watch = .idle ∧
    ({ addr1 with watch := .triggered } : Thread).watch = .triggered ∧ ({ addr1 with watch := .armed 512 true } : Thread).watch = .armed 512 true ∧
    ({ addr1 with watch := .armed 512 false } : Thread).watch = .armed 512 false := by decide +kernel

/-! ## Witnesses: fences, barriers and counters -/

/-- FENCE with nothing before it, and with a store before it; WAITC at its bound; a completion counter below a threshold and at it. -/
theorem test_fences :
    (let T := team1 addr1
     T.reqs = [] ∧ T.kicksOf 0 = [] ∧ (part1 addr1).tileOpsOf 1 0 T = [] ∧ (part1 addr1).mem.flights = [] ∧
       dieOf T.core < 8 ∧ T.cc[0].toNat < (1#11).toNat ∧ (0#11).toNat ≤ T.cc[0].toNat) ∧
    (let r : Req := { id := 9, tid := 0, va := 65536, op := .store [1] .unscoped false, counter := 2, stage := .behind }
     r.tid = 0 ∧ r.fenced (kindsOf false false true false) = true) := by decide +kernel

/-- The only arrival is the last; with a second thread it is not. -/
theorem test_barriers :
    (team1 addr1).reqsOf 0 = [] ∧
    (let r : Req := { id := 9, tid := 0, va := 65536, op := .store [1] .unscoped false, counter := 2, stage := .onPublish }
     ({ team1 addr1 with reqs := [r] } : Team).reqsOf 0 ≠ [] ∧ 0 ∉ (team1 addr1).bars[0].arrived) ∧
    (∀ i x, (team1 addr1).threads[i]? = some x → i ≠ 0 → x.status = .exited ∨ i ∈ (team1 addr1).bars[0].arrived) ∧
    (let T := { team1 addr1 with threads := [addr1, addr1] }
     (∃ i x, T.threads[i]? = some x ∧ i ≠ 0 ∧ x.status ≠ .exited ∧ i ∉ T.bars[0].arrived) ∧ 0 ∉ T.bars[0].arrived) ∧
    addr1.status = .ready ∧ addr1.missing = [] ∧
    ((0 : Nat) ∈ ({ team1 addr1 with bars := (team1 addr1).bars.set 0 { arrived := [0] } } : Team).bars[0].arrived) ∧
    (thread1 [(6, 0xFFFFFFFF)]).g 6 = (team1 addr1).bars[0].gen - 1 ∧ (thread1 []).g 6 = (team1 addr1).bars[0].gen ∧
    (0 < ((team1 addr1).bars[0].gen - (thread1 [(6, 0x80000001)]).g 6).toInt ∧ ((thread1 [(6, 0x80000001)]).g 6 - (team1 addr1).bars[0].gen).toInt ≤ 0) ∧
    (0 < ((thread1 [(6, 0x7FFFFFFF)]).g 6 - (team1 addr1).bars[0].gen).toInt) ∧
    ((thread1 [(6, 0x80000000)]).g 6 ≠ (team1 addr1).bars[0].gen ∧ ((team1 addr1).bars[0].gen - (thread1 [(6, 0x80000000)]).g 6).toInt ≤ 0 ∧
      ((thread1 [(6, 0x80000000)]).g 6 - (team1 addr1).bars[0].gen).toInt ≤ 0) ∧
    (thread1 [(6, 1)]).g 6 = (team1 addr1).bars[0].gen + 1 :=
  ⟨by decide +kernel, by decide +kernel, fun _ _ h hn => absurd (only h).1 hn, ⟨⟨1, addr1, rfl, by decide, by decide, by decide⟩, by decide⟩, by decide +kernel⟩

/-- A team whose page stands in a stash mapping, around an object with the bytes given. -/
def counted (b : List Byte) (t : Thread) : State :=
  { partOf { team1 t with maps := [{ base := 65536, offset := 0, len := 4096 }] } [0] with
    mem := { cells := putBytes 65536 b [] } }

/-- The object: phase 5, pending of expected, an error. -/
def object (pending expected error : Nat) : List Byte := [5, 0, 0, 0, 0, 0, 0, 0, BitVec.ofNat 8 pending, 0, BitVec.ofNat 8 expected, 0, BitVec.ofNat 8 error, 0, 1, 0]

theorem test_counters_reached :
    let t := thread1 [(4, 65536), (6, 1)]
    let T := { team1 t with maps := [{ base := 65536, offset := 0, len := 4096 }] }
    Alone (counted (object 2 2 0) t) 0 T t ∧ Reaches (counted (object 2 2 0) t) T (t.gx 4) 32 .atomic 65536 ∧
      Calm (counted (object 2 2 0) t) 65536 32 ∧ T.reqsOf 0 = [] ∧ (T.mapped? (t.gx 4).toNat).isSome = true ∧
      (team1 t).mapped? (t.gx 4).toNat = none :=
  ⟨⟨rfl, rfl, rfl, by decide⟩,
    ⟨by decide +kernel, by decide +kernel, by decide +kernel, by decide +kernel, by decide +kernel,
      ⟨codeEntry, by decide +kernel, by decide +kernel, by decide +kernel, by decide +kernel⟩, by decide, by decide +kernel, rfl⟩,
    ⟨(fun _ h => nomatch h), by decide +kernel⟩, by decide +kernel⟩

/-- Counts at both ends of their range and outside it; an object with phases to come and past, with and without an error, and none. -/
theorem test_counters :
    (1 ≤ ((thread1 [(6, 1)]).g 6).toNat ∧ ((thread1 [(6, 65535)]).g 6).toNat ≤ 65535 ∧ ((thread1 []).g 6).toNat = 0 ∧
      65535 < ((thread1 [(6, 65536)]).g 6).toNat) ∧
    (let o := Tbar.of ((counted (object 2 2 0) addr1).bytesFor 0 65536 32)
     o.flags = 1 ∧ o.pending ≤ o.expected ∧ o.pending ≠ 0 ∧ o.error = 0 ∧ 0 < (o.gen - (thread1 [(6, 4)]).g 6).toInt ∧
       (o.gen - (thread1 [(6, 5)]).g 6).toInt ≤ 0) ∧
    (let o := Tbar.of ((counted (object 0 2 7) addr1).bytesFor 0 65536 32)
     o.flags = 1 ∧ o.pending ≤ o.expected ∧ o.pending = 0 ∧ o.error ≠ 0 ∧ (o.gen - (thread1 [(6, 5)]).g 6).toInt ≤ 0) ∧
    (let o := Tbar.of ((counted (object 3 2 0) addr1).bytesFor 0 65536 32)
     o.expected < o.pending) ∧
    (Tbar.of ((counted [] addr1).bytesFor 0 65536 32)).flags ≠ 1 := by decide +kernel

/-- A TBWAIT whose phase has passed, alone in its group. -/
theorem test_phase_wait :
    let t := { addr1 with status := .waiting (.phase 65536 4 8), bundle := none }
    let T := { team1 t with maps := [{ base := 65536, offset := 0, len := 4096 }] }
    let s := counted (object 2 2 0) t
    s.team? 1 = some T ∧ T.threads[0]? = some t ∧ s.phaseCode T 65536 4 ≠ 2 ∧ T.groupOf 0 t = [(0, t)] := by decide +kernel

/-! ## Witnesses: tiles -/

/-- Without TILES; with another owner; with an engine owned, free and busy; with a queue shorter than thirteen, and full; and a transfer. -/
theorem test_tile_ownership :
    (((part1 addr1).modCtx 1 fun C => { C with desc := {} }).ctx 1).desc.tiles = false ∧
    (((part1 addr1).ctx 1).desc.tiles = true ∧ (((part1 addr1).modCore 0 fun C => { C with accown := 2 }).core 0).accown ≠ 1) ∧
    (let T := { team1 addr1 with accs := 0, abufs := 0, bslots := 0 }
     T.accs = 0 ∧ T.abufs = 0 ∧ T.bslots = 0) ∧
    (0 < (team1 addr1).accs + (team1 addr1).abufs + (team1 addr1).bslots ∧ ((part1 addr1).core 0).accown = 1 ∧
      ((part1 addr1).core 0).owner = none ∧ ((part1 addr1).core 0).ownerQueue = []) ∧
    (let C := ((part1 addr1).modCore 0 fun C => { C with owner := some 1 }).core 0
     C.owner = some 1) ∧
    (let C := ((part1 addr1).modCore 0 fun C => { C with owner := some 2, ownerQueue := List.replicate 12 (3, 0) }).core 0
     C.owner ≠ none ∧ C.owner ≠ some 1 ∧ (∀ e ∈ C.ownerQueue, e.1 ≠ 1) ∧ C.ownerQueue.length < 13) ∧
    (let C := ((part1 addr1).modCore 0 fun C => { C with owner := some 2, ownerQueue := List.replicate 13 (3, 0) }).core 0
     C.owner ≠ none ∧ C.owner ≠ some 1 ∧ (∀ e ∈ C.ownerQueue, e.1 ≠ 1) ∧ 13 ≤ C.ownerQueue.length) ∧
    (let C := ((part1 addr1).modCore 0 fun C => { C with owner := some 2, ownerQueue := [(1, 0)] }).core 0
     C.owner ≠ some 1 ∧ ∃ e ∈ C.ownerQueue, e.1 = 1) ∧
    ((part1 addr1).modCore 0 fun C => { C with accown := 0, wants := some 1 }).transferReady 0 (BitVec.toNat 1#12) = true := by decide +kernel

/-- Core 0 with the engine owned by the team, and tiles as given. -/
def tiled (t : Thread) (tiles : Table Tile) (seq : List SeqOp) : State :=
  (part1 t).modCore 0 fun C => { C with owner := some 1, tiles := tiles, seq := seq }

theorem tileReady1 (t : Thread) (h : t.cntTl < 30) (seq : List SeqOp) (hs : seq.length < 8) :
    TileReady (tiled t [] seq) (team1 t) :=
  ⟨rfl, rfl, rfl, hs, fun x hx => by
    have h1 : x ∈ [(0, t)] := hx
    rw [List.mem_singleton.mp h1]; exact h, fun _ => rfl⟩

/-- The accumulator, A buffer and B slot of a product READY, and bound for CB4; EMPTY; POISONED. -/
theorem test_tile_operands :
    (let C := (tiled addr1 [(0, { state := .ready }), (64, { state := .ready, cb := some 1 }), (72, { state := .ready, cb := some 2 })] []).core 0
     C.owner = some 1 ∧ (0#6).toNat < (team1 addr1).accs ∧ (0#3).toNat < (team1 addr1).abufs ∧ (0#9).toNat < (team1 addr1).bslots ∧
       (C.tile 0).state = .ready ∧ (C.tile 64).state = .ready ∧ (C.tile 72).state = .ready ∧ (C.tile 64).cb = some 1 ∧ (C.tile 72).cb = some 2) ∧
    leader? (tiled addr1 [] []).lanes = some (0, addr1) ∧
    (let s := tiled addr1 [] []
     ((s.core 0).tile 0).state = .empty ∧ s.fillPending 1 (team1 addr1) 0 = false) ∧
    (((tiled addr1 [(0, { state := .poisoned })] []).core 0).tile 0).state = .poisoned ∧
    ((part1 addr1).core 0).owner ≠ some 1 ∧ (team1 addr1).accs ≤ (4#6).toNat := by decide +kernel

theorem test_tile_ready : TileReady (tiled { addr1 with cntTl := 29 } [] []) (team1 { addr1 with cntTl := 29 }) :=
  tileReady1 _ (by decide) _ (by decide)

/-- Operations as the sequencer holds them: one not started, and each kind that completes. -/
theorem test_sequencer :
    let s := tiled addr1 [(0, { state := .ready })] [{ id := 7, team := 1, tids := [0], rows := [0], op := .mma .f16 true, acc := some 0, abuf := some 64, bslot := some 72 }]
    let t := { addr1 with pendRegs := [(8, 7), (9, 7), (10, 7), (11, 7)], cntTl := 1 }
    let u := tiled t [(0, { state := .ready })] [{ id := 7, team := 1, tids := [0], rows := [0], op := .rowsum, acc := some 0, dest := [(0, 8)], startedAt := some 4900 }]
    let v := tiled t [(0, { state := .ready })] [{ id := 7, team := 1, tids := [0], rows := [0], op := .trd [(0, 7)], acc := some 0, dest := [(0, 8)], startedAt := some 4900 }]
    ((s.core 0).seq = [{ id := 7, team := 1, tids := [0], rows := [0], op := .mma .f16 true, acc := some 0, abuf := some 64, bslot := some 72 }] ∧
      s.team? 1 = some (team1 addr1)) ∧
    (u.team? 1 = some (team1 t) ∧ (∀ x ∈ (u.core 0).tiles, x.2.bad = false ∧ x.2.state ≠ .draining) ∧ (team1 t).threads[0]? = some t ∧
      tget? 8 t.pendRegs = some 7) ∧
    (v.core 0).seq.map (fun o => o.op) = [TileOp.trd [(laneOf 0, 7)]] ∧ ∀ m, m < 4 → tget? (8 + m) t.pendRegs = some 7 := by decide +kernel

/-- A TLDA fill of acc 0, all of whose blocks are resident. -/
def filling : State :=
  (part1 { addr1 with cntTl := 1 }).modCore 0 fun C => { C with
    owner := some 1, tiles := [(0, { state := .filling, fill := some 9 })]
    fills := [{ id := 9, team := 1, tid := 0, core := 0, tile := 0, src := 65536, cb := none, blocks := List.replicate 16 true }] }

theorem test_fill_ready :
    ∃ f, filling.fill? 9 = some (0, f) ∧ filling.team? f.team = some (team1 { addr1 with cntTl := 1 }) ∧ filling.fillReady 0 f = true ∧
      (∀ m ∈ filling.cmds, m.id ≠ f.id) ∧ (∀ p ∈ piecesOf f.source, filling.engineNeeds 0 1 p.1 = false) ∧ filling.asking f.id = false ∧ filling.farLines 0 1 f.source = [] ∧ ∀ n, n < tileSize f.tile / 256 → f.blocks.getD n true = true ∧
        filling.engineAt 0 1 (f.src.toNat + 256 * n) false = .at_ (65536 + 256 * n) ∧ filling.unreachable (65536 + 256 * n) = false ∧
        filling.badBlock? (65536 + 256 * n) 256 = none :=
  ⟨{ id := 9, team := 1, tid := 0, core := 0, tile := 0, src := 65536, cb := none, blocks := List.replicate 16 true },
    by decide +kernel, by decide +kernel, by decide +kernel, by decide +kernel, by decide +kernel, by decide +kernel, by decide +kernel,
    fun n hn => by revert n; decide +kernel⟩

/-- Selectors: of acc 3, and of one that the team does not hold; tiles in each state. -/
theorem test_selectors :
    (team1 addr1).selected? ((thread1 [(6, 3)]).g 6) = some 3 ∧ (team1 addr1).selected? ((thread1 [(6, 4)]).g 6) = none ∧
    (∀ o ∈ ((tiled addr1 [(3, { state := .poisoned })] []).core 0).seq, 3 ∉ o.tiles) ∧
    (((tiled addr1 [(3, { state := .poisoned })] []).core 0).tile 3).state = .poisoned ∧
    (((tiled addr1 [(3, { state := .filling })] []).core 0).tile 3).state = .filling ∧
    (((tiled addr1 [] []).core 0).tile 3).state = .empty ∧ (tiled addr1 [] []).fillPending 1 (team1 addr1) 3 = false ∧
    (addr1.gx 4).toNat % 256 = 0 ∧ (team1 addr1).reqsOf 0 = [] := by decide +kernel

theorem test_blocks_reached : ∀ m, m < tileSize 3 / 256 → ∃ pa, Reaches (tiled addr1 [] []) (team1 addr1) (addr1.gx 4 + BitVec.ofNat 64 (256 * m)) 256 .load pa := by
  intro m hm
  refine ⟨65536 + 256 * m, ?_, ?_, ?_, ?_, ?_, ⟨codeEntry, ?_, by decide, by decide, ?_⟩, ?_, ?_, ?_⟩ <;> revert m <;> decide +kernel


/-! ## Witnesses: references -/

/-- The page at 65,536 is a region of colour 2, with its hold table on the page after it; an object of 32 bytes stands at its start. -/
def managedEntry : TlbEntry := { codeEntry with pte := 0x130000000001001F }
def holdEntry : TlbEntry := { codeEntry with va := 131072, pa := 131072, pte := 0x100000000002001F }
def heaped (t : Thread) (pins : List Pin) (colour : BitVec 4) : State :=
  { (((partOf { team1 t with pins := pins } [0]).modCtx 1 fun C => { C with
      regions := [(3, { state := .idle, base := 65536, size := 65536, hold := 131072, colour := colour })] }).modCore 0 fun C => { C with
      tlb := [managedEntry, holdEntry] }) with
    mem := { cells := [(65536, 32)] } }

/-- r1 and r2 refer to the object in colour 2; r0 is null; g6 holds an offset. -/
def holder : Thread := { thread1 [(6, 8)] with refs := #v[0, 0x3200000000010000, 0x3200000000010000, 0, 0, 0, 0, 0, 0, 0, 0, 0, 0, 0, 0, 0] }

theorem test_references :
    (let s := heaped holder [] 2
     Free s 0 (team1 holder) holder ∧ Resolves s (team1 holder) (holder.ref 1)) ∧
    refNull (holder.ref 0) = true ∧ holder.handler = false ∧ holder.trapvec ≠ 0 ∧ holder.status = .ready :=
  ⟨⟨⟨⟨rfl, rfl, rfl, by decide⟩, rfl, by decide, by decide, by decide, (fun _ hq => nomatch hq), rfl⟩,
    ⟨by decide +kernel, by decide +kernel, by decide +kernel, by decide +kernel, by decide +kernel⟩⟩, by decide +kernel⟩

/-- The object's bytes and its header are in the region and are reached, with every need. -/
theorem test_objects_reached (n : Nat) (need : Need) (h : n ∈ [4, 8]) (hn : need ∈ [.load, .store]) :
    let s := heaped holder [] 2
    let va := BitVec.ofNat 64 (refObj (holder.ref 1)) + (holder.g 6).signExtend 64
    InRegion s (team1 holder) 3 va ∧ Reaches s (team1 holder) va n need 65544 ∧ Calm s 65544 n := by
  simp only [List.mem_cons, List.not_mem_nil, or_false] at h hn
  obtain rfl | rfl := h <;> obtain rfl | rfl := hn <;>
    exact ⟨⟨by decide +kernel, by decide +kernel, fun e he => by
        have h1 : some e = some managedEntry := he.symm.trans (by decide +kernel)
        rw [Option.some.inj h1]; decide⟩,
      ⟨by decide +kernel, by decide +kernel, by decide +kernel, by decide +kernel, by decide +kernel,
        ⟨managedEntry, by decide +kernel, by decide, by decide, by decide +kernel⟩, by decide, by decide +kernel, rfl⟩,
      ⟨(fun _ h => nomatch h), by decide +kernel⟩⟩

/-- A reference through which an access falls below its region. -/
theorem test_reference_bounds :
    let s := heaped holder [] 2
    let ea := BitVec.ofNat 64 (refObj (holder.ref 1)) + s.immX 0x7FF#11 * BitVec.ofNat 64 4
    ea.toNat < ((s.ctx 1).region 3).base ∧ ∃ e, s.cached? 0 1 (swapVa (s.ctx 1).swaps 65532) = none ∧
      (s.modCore 0 fun C => { C with tlb := e :: C.tlb }).cached? 0 1 (swapVa (s.ctx 1).swaps 65532) = some e :=
  ⟨by decide +kernel, { codeEntry with va := 0, pa := 0, pte := 0x100000000000001F }, by decide +kernel, by decide +kernel⟩

/-- A colour to heal; a header to pin; a pin to drop, and none. -/
theorem test_pins :
    (let s := heaped holder [] 5
     refNull (holder.ref 1) = false ∧ (holder.ref 1).extractLsb' 52 4 = 0 ∧ ((s.ctx 1).region 3).state ≠ .undefined ∧
       refColour (holder.ref 1) ≠ ((s.ctx 1).region 3).colour ∧ (wordAt (s.bytesFor 0 65540 4) 0).toNat % 65536 ≠ 0xFFFF) ∧
    Reaches (heaped holder [] 5) (team1 holder) (BitVec.ofNat 64 (refObj (holder.ref 1) + 4)) 4 .load 65540 ∧
    Reaches (heaped holder [] 2) (team1 holder) (BitVec.ofNat 64 (refObj (holder.ref 1) + 4)) 4 .load 65540 ∧
    Calm (heaped holder [] 2) 65540 4 ∧
    (let s := heaped holder [] 2
     let size := ofBytes (s.peek 0 1 65536 4)
     (wordAt (s.bytesFor 0 65540 4) 0).toNat % 65536 < 0xFFFE ∧ s.badWords = [] ∧
       s.badPin? 0 1 65536 (((s.ctx 1).region 3).holdEntries 65536 size) = none ∧ s.headerMigrates 0 1 65536 = false ∧ 0 < size ∧ size % 16 = 0 ∧ 65536 + size ≤ 65536 + 65536 ∧ (team1 holder).pins.length < 64 ∧
       ∀ va ∈ ((s.ctx 1).region 3).holdEntries 65536 size, ofBytes (s.peek 0 1 va 2) < 0xFFFF ∧
         s.cached? 0 1 (swapVa (s.ctx 1).swaps va) = some holdEntry ∧ pteSt holdEntry.pte = 1 ∧ 65544 ≤ holdEntry.phys (s.ctx 1).swaps va) ∧
    (let x : Pin := { region := 3, obj := 65536, size := 32, holds := [131072] }
     (x.region = refRegion (holder.ref 1) ∧ x.obj.toNat = refObj (holder.ref 1)) ∧ [x] = [] ++ x :: [] ∧
       (heaped holder [x] 2).badPin? 0 1 65536 x.holds = none ∧ (heaped holder [x] 2).headerMigrates 0 1 65536 = false) :=
  ⟨by decide +kernel,
    ⟨by decide +kernel, by decide +kernel, by decide +kernel, by decide +kernel, by decide +kernel,
      ⟨managedEntry, by decide +kernel, by decide, by decide, by decide +kernel⟩, by decide, by decide +kernel, rfl⟩,
    ⟨by decide +kernel, by decide +kernel, by decide +kernel, by decide +kernel, by decide +kernel,
      ⟨managedEntry, by decide +kernel, by decide, by decide, by decide +kernel⟩, by decide, by decide +kernel, rfl⟩,
    ⟨(fun _ h => nomatch h), by decide +kernel⟩, by decide +kernel, by decide +kernel⟩

/-- Page and hold table as above, the page in evacuation; the object's header has PINS as given. -/
def evacuating (pins : List Byte) : State :=
  { (heaped holder [] 2).modCore 0 fun C => { C with tlb := [{ codeEntry with pte := 0x330000000001001F }, holdEntry] } with
    mem := { cells := putBytes 65536 ([32, 0, 0, 0] ++ pins) [] } }

/-- A store to an object in evacuation with the fewest pins, and with one more than the most that a store may add to. -/
theorem test_evacuation (pins : List Byte) (h : pins ∈ [[0, 0], [0xFD, 0xFF], [0xFE, 0xFF]]) (n : Nat) (hn : n ∈ [4, 8]) :
    let s := evacuating pins
    let ea := BitVec.ofNat 64 65536 + s.immX (if n = 4 then 4#11 else 2) * BitVec.ofNat 64 n
    Free s 0 (team1 holder) holder ∧ s.inEvac 0 1 (refObj (holder.ref 1)) = true ∧ ReachesHeader s (team1 holder) 65536 65540 ∧
      s.isWatched (lineOf 65540) = false ∧ InRegion s (team1 holder) 3 ea ∧ ReachesEvac s (team1 holder) ea n .store 65552 ∧
      ((wordAt (s.bytesFor 0 65540 4) 0).toNat % 65536 < 0xFFFE ∨ (wordAt (s.bytesFor 0 65540 4) 0).toNat % 65536 = 0xFFFE) := by
  simp only [List.mem_cons, List.not_mem_nil, or_false] at h hn
  obtain rfl | rfl | rfl := h <;> obtain rfl | rfl := hn <;>
    exact ⟨⟨⟨rfl, rfl, rfl, by decide⟩, rfl, by decide, by decide, by decide, (fun _ hq => nomatch hq), rfl⟩, by decide +kernel,
      .inr ⟨by decide +kernel, by decide +kernel, by decide +kernel, by decide +kernel, by decide +kernel,
        ⟨{ codeEntry with pte := 0x330000000001001F }, by decide +kernel, by decide, by decide, by decide +kernel, by decide +kernel⟩,
        by decide, by decide +kernel, rfl⟩, by decide +kernel,
      ⟨by decide +kernel, by decide +kernel, fun e he => by
        have h1 : some e = some { codeEntry with pte := 0x330000000001001F } := he.symm.trans (by decide +kernel)
        rw [Option.some.inj h1]; decide⟩,
      ⟨by decide +kernel, by decide +kernel, by decide +kernel, by decide +kernel, by decide +kernel,
        ⟨{ codeEntry with pte := 0x330000000001001F }, by decide +kernel, by decide, by decide, by decide +kernel, by decide +kernel⟩,
        by decide, by decide +kernel, rfl⟩, by decide +kernel⟩

/-- The object has moved from 65,536 to 65,792, as the first slot of its forwarding table says. -/
def forwarded : State :=
  let s := (heaped holder [] 5).modCtx 1 fun C => { C with
    regions := [(3, { state := .idle, base := 65536, size := 65536, ftab := 139264, ftlog2 := 4, hold := 131072, colour := 5 })] }
  let R := (s.ctx 1).region 3
  { s with mem := { cells := putBytes (R.slotAddr 65536 0) (toBytes 8 65537 ++ toBytes 8 65792)
                               (putBytes 65792 [32] (putBytes 65536 [32, 0, 0, 0, 0xFF, 0xFF] [])) } }

theorem test_forwarded :
    let R := (forwarded.ctx 1).region 3
    refNull (holder.ref 1) = false ∧ (team1 holder).reqsOf 0 = [] ∧ forwarded.mem.flights = [] ∧ R.state ≠ .undefined ∧ 16 ≤ R.size ∧
      refColour (holder.ref 1) ≠ R.colour ∧ ReachesHeader forwarded (team1 holder) 65536 65540 ∧
      (wordAt (forwarded.bytesFor 0 65540 4) 0).toNat % 65536 = 0xFFFF ∧ forwarded.badLookup? 0 1 R 65536 = none ∧
      forwarded.lookup 0 1 R 65536 = some 65792 ∧ ReachesHeader forwarded (team1 holder) 65792 65796 ∧
      (wordAt (forwarded.bytesFor 0 65796 4) 0).toNat % 65536 ≠ 0xFFFF :=
  ⟨by decide +kernel, by decide +kernel, by decide +kernel, by decide +kernel, by decide +kernel, by decide +kernel,
    .inl ⟨by decide +kernel, by decide +kernel, by decide +kernel, by decide +kernel, by decide +kernel,
      ⟨managedEntry, by decide +kernel, by decide, by decide, by decide +kernel⟩, by decide, by decide +kernel, rfl⟩,
    by decide +kernel, by decide +kernel, by decide +kernel,
    .inl ⟨by decide +kernel, by decide +kernel, by decide +kernel, by decide +kernel, by decide +kernel,
      ⟨managedEntry, by decide +kernel, by decide, by decide, by decide +kernel⟩, by decide, by decide +kernel, rfl⟩,
    by decide +kernel⟩

theorem test_reference_writers : ∀ x ∈ (part1 addr1).lanes, (part1 addr1).issueCtx.desc.priv = true ∨ x.2.handler = true := by decide +kernel

/-! ## Witnesses: Yarrow -/

/-- A program of context 0 on die 0, whose ring is in a frame of the host; of two words; with every bank. -/
def program : YProg :=
  { owner := 0, words := [0, 0], ringlog2 := 6, hbins := [16, 0, 16, 16], nsketch := 2, vector := 3, sources := 0, ring := 0x300000 }

/-- It runs for an event of core c. -/
def yRunning (c : Nat) (regs : Vector Word 16) (p : YProg) : State :=
  { part1 addr1 with
    frames := [(48, .assigned 0)]
    dies := [(0, { yarrow := { progs := [(2, p)], run := some { slot := 2, pc := 0, event := { source := 0, ctx := 0, core := c, clock := 0 }, regs := regs } } })] }

/-- An instruction within a program; YTRIG.ARM on a core and without one, at the ends of its range; INTERRUPT with and without a function;
RECORD and FREEZE with a ring and without one. -/
theorem test_filters :
    (let s := yRunning 0 (Vector.replicate 16 (0x00060000#32)) program
     ∃ z, s.yAt? = some z ∧ z.r.pc + 1 < z.p.words.length ∧ z.r.pc + (1#15).toNat < z.p.words.length ∧ z.r.event.core ≠ noCore ∧
       6 ≤ (z.r.y 8).toNat / 2 ^ 16 % 32 ∧ (z.r.y 8).toNat / 2 ^ 16 % 32 ≤ 20 ∧ z.y.todo = [] ∧ z.die = 0 ∧
       s.ownerFn? z.p.owner = some 0 ∧ z.p.vector ≠ 0xFFFF ∧ tget? z.r.slot z.y.intrs ≠ some z.y.window ∧
       s.ringAddr? z 0 = some 0x300000 ∧ z.y.widx 0x300000 (ofBytes (s.homeRead 0x300000 4)) = 0 ∧
       s.ringAddr? z (128 + 32 * (0 % 2 ^ z.p.ringlog2)) = some 0x300080 ∧
       ofBytes (s.homeRead (0x300000 + 12) 4) % 2 = 0 ∧ z.y.outs.length < 64 ∧ s.viaQueues = false ∧
       ({ s with viaQueues := true } : State).yAt? = some z ∧ (0 + 2 ^ 32 - ofBytes (s.homeRead (0x300000 + 4) 4)) % 2 ^ 32 ≠ 2 ^ z.p.ringlog2 ∧
       z.y.written + 32 ≤ 16384 ∧ s.ringAddr? z 12 = some 0x30000C) ∧
    (let s := yRunning noCore (Vector.replicate 16 0) { program with ringlog2 := 0, vector := 0xFFFF, owner := 5 }
     ∃ z, s.yAt? = some z ∧ z.r.event.core = noCore ∧ (z.r.y 8).toNat / 2 ^ 16 % 32 < 6 ∧ s.ownerFn? z.p.owner = none ∧
       z.p.vector = 0xFFFF ∧ s.ringAddr? z 0 = none) :=
  ⟨⟨{ die := 0, y := ((yRunning 0 (Vector.replicate 16 (0x00060000#32)) program).die 0).yarrow, p := program
      r := { slot := 2, pc := 0, event := { source := 0, ctx := 0, core := 0, clock := 0 }, regs := Vector.replicate 16 (0x00060000#32) } },
      by decide +kernel⟩,
    ⟨{ die := 0, y := ((yRunning noCore (Vector.replicate 16 0) { program with ringlog2 := 0, vector := 0xFFFF, owner := 5 }).die 0).yarrow
       p := { program with ringlog2 := 0, vector := 0xFFFF, owner := 5 }
       r := { slot := 2, pc := 0, event := { source := 0, ctx := 0, core := noCore, clock := 0 }, regs := Vector.replicate 16 0 } },
      by decide +kernel⟩⟩

/-- A copy at the head of the FIFO with a program attached, whose budget covers it and does not; a window, a timer and a sampler that are
due. -/
theorem test_yarrow_events :
    (let p := { program with sources := 1 }
     let e : YEvent := { source := 0, ctx := 0, core := 0, clock := 0 }
     let y : Yarrow := { progs := [(2, p)], fifo := [(0, e)], budgets := [(0, 2)] }
     y.run = none ∧ y.fifo = (0, e) :: [] ∧ y.attached 0 e = 2 :: [] ∧ tget? 2 y.progs = some p ∧
       ([2].map fun m => ((tget? m y.progs).map fun q => q.words.length).getD 0).sum ≤ y.left 0 ∧
       ({ y with budgets := [] } : Yarrow).left 0 < ([2].map fun m => ((tget? m y.progs).map fun q => q.words.length).getD 0).sum) ∧
    ((part1 addr1).die 0).yarrow.window < (part1 addr1).clock / 1024 ∧
    ((part1 addr1).die 0).yarrow.timer < ({ part1 addr1 with clock := 65536 } : State).clock / 65536 ∧
    (let s := (part1 addr1).modCore 0 fun C => { C with sampler := { count := 1, log2 := 6, ctx := 1, next := 5000 } }
     (s.core 0).sampler.count ≠ 0 ∧ (s.core 0).sampler.next ≤ s.clock ∧ s.sampledOn 0 1 ≠ []) := by decide +kernel

/-- A slot in use with a bank and without one, with a run in progress and without, and a DUMP that waits; a free slot and a descriptor of one YEND; budgets and intervals at the ends of their ranges. -/
theorem test_yarrow_commands :
    (let r := yRunning 0 (Vector.replicate 16 0) program
     let s := r.modYarrow 0 fun y => { y with run := none }
     let p : YwPend := { op := 3, die := 0, slot := 2, bank := 5, addr := 0x300000, rest := [1, 2] }
     r.ywPend = none ∧ (r.die 0).yarrow.runs (2#4).toNat = true ∧ (s.die 0).yarrow.runs (2#4).toNat = false ∧
       (s.die 0).yarrow.outs.length < 64 ∧ { p with rest := [] } = ({ op := 3, die := 0, slot := 2, bank := 5, addr := 0x300000, rest := [] } : YwPend) ∧
       p = { ({ op := 3, die := 0, slot := 2, bank := 5 } : YwPend) with addr := p.addr, rest := p.rest } ∧
       p.rest.length ≤ 16384 - (s.die 0).yarrow.written ∧ p.slot ≠ (3#4).toNat ∧
       16384 - 16380 < program.bankSize (5#4).toNat ∧
       s.regs.bootReady = true ∧ tget? (2#4).toNat (s.die 0).yarrow.progs = some program ∧ (5#4).toNat ≤ 5 ∧
       program.bankSize (5#4).toNat ≠ 0 ∧ program.bankSize (1#4).toNat = 0 ∧ tget? (3#4).toNat (s.die 0).yarrow.progs = none ∧
       s.hostReserved 0x300000 = true ∧ s.hostReserved (0x300000 + program.bankSize 0 - 1) = true ∧ 0x300000 % 4096 = 0) ∧
    (let s := { part1 addr1 with
       frames := [(48, .assigned 0)]
       regs := { bootReady := true, ywArg := 0x300000 }
       mem := { cells := [(0x300002, 1), (0x300018, 0x40), (0x30001A, 0x30), (0x300043, 0xB8)] } }
     let d := s.homeRead s.regs.ywArg.toNat 64
     s.regs.ywArg.toNat % 64 = 0 ∧ s.hostReserved s.regs.ywArg.toNat = true ∧ s.loadFieldsOk d (loadProg d) = true ∧ field d 2 1 = 1 ∧
       (loadProg d).wordOk (field d 2 1) 0 (BitVec.ofNat 32 (ofBytes (s.homeRead (field d 24 8) 4))) = true ∧
       (loadProg d).storage ≤ 262144) ∧
    1024 < (1025#64).toNat ∧ (1024#64).toNat ≤ 1024 ∧ 6 ≤ (0x60000#64).toNat / 2 ^ 16 % 32 ∧ (0x140000#64).toNat / 2 ^ 16 % 32 ≤ 20 := by decide +kernel

/-- A bank that is none; a descriptor whose fields are not in range, one with a word that LOAD refuses, and one for which no storage is
left; a sampler without a budget. -/
theorem test_yarrow_refusals :
    5 < (6#4).toNat ∧
    (let d := List.replicate 64 0
     (part1 addr1).loadFieldsOk d (loadProg d) = false) ∧
    program.wordOk 1 0 0xFFFFFFFF = false ∧
    (let p := { program with hbins := [4096, 4096, 4096, 4096] }
     262144 < ((List.replicate 3 (2, p)).map fun q => q.2.storage).sum + p.storage) ∧
    1024 < (([(1, 1000)].filter fun q => q.1 ≠ (0#12).toNat).map fun q => q.2).sum + 25 ∧ (0x50000#64).toNat / 2 ^ 16 % 32 < 6 := by decide +kernel

/-! ## Witnesses: the host -/

/-- Context 1 in a state, and memory from an address on. -/
def ctxIn (st : CState) : State := (part1 addr1).modCtx 1 fun C => { C with state := st }
def holding (s : State) (a : Nat) (b : List Byte) : State := { s with mem := { s.mem with cells := putBytes a b s.mem.cells } }

theorem test_host_registers : State.reset.regs.bootReady = false ∧ (part1 addr1).regs.bootReady = true ∧ (4095 < 4096) ∧
    (part1 addr1).prqList = [] ∧ (part1 addr1).prqOwed = [] ∧ (part1 addr1).pgPend = none ∧ ((part1 addr1).vf 63).state = .unlocked ∧
    (({ part1 addr1 with vfs := [(1, { state := .run })] } : State).vf 1).state ≠ .unlocked := by decide +kernel

/-- Values of MODE_CFG that are taken and not; a mirror to release, a lease length to settle, a rotation in progress and none. -/
theorem test_modes :
    (let v : Word := 0x100
     v.extractLsb' 8 24 ≠ 0 ∨ 2 ≤ (v.extractLsb' 6 2).toNat ∨ v.extractLsb' 4 2 = 3 ∨ v.extractLsb' 2 2 = 3 ∨ v.extractLsb' 0 2 = 3) ∧
    (let v : Word := 0x6A
     ¬(v.extractLsb' 8 24 ≠ 0 ∨ 2 ≤ (v.extractLsb' 6 2).toNat ∨ v.extractLsb' 4 2 = 3 ∨ v.extractLsb' 2 2 = 3 ∨ v.extractLsb' 0 2 = 3) ∧
       v.extractLsb' 6 2 ≠ (part1 addr1).regs.lease) ∧
    (part1 addr1).scan.at_ = none ∧ ({ part1 addr1 with scan := { at_ := some 0 } } : State).scan.at_ ≠ none ∧
    (let g : HostRegs := { cfgMirror := 0, lpend := true }
     g.cfgMirror = 0 ∧ g.mirror ≠ 0 ∧ g.lpend = true ∧ (part1 addr1).otherLeases (part1 addr1).regs.leaseLen = false) ∧
    (part1 addr1).team? 1 = some (team1 addr1) ∧ 7 < 8 ∧ (part1 addr1).clock / 1750000 ≤ (part1 addr1).capWindow ∧
    ({ part1 addr1 with clock := 1750000 } : State).capWindow < 1750000 / 1750000 := by decide +kernel

/-- A context descriptor: flags 0, slice 10, T_hold 128, its trust table and fault record in the host's frame. -/
def ctxBytes : List Byte :=
  [1, 0, 0, 0, 10, 0, 0, 0] ++ List.replicate 52 0 ++ [128, 0, 0, 0, 0, 0x20, 0x30, 0, 0, 0, 0, 0, 0, 0x10, 0x30] ++ List.replicate 53 0

theorem test_context_commands :
    (let s := holding ({ part1 addr1 with contexts := [], frames := [(48, .assigned 0)], regs := { bootReady := true, ctxTbl := 0x300000 } } : State) 0x300080 ctxBytes
     let b := s.physRead (s.regs.ctxTbl.toNat / 4096 * 4096 + 128 * (1#12).toNat) 128
     (s.ctx 1).state = .created ∧ ctxDescOk 1 b (ctxDescOf b) = true ∧ s.areasOk (ctxDescOf b) = true) ∧
    ctxDescOk 1 ((part1 addr1).physRead 128 128) (ctxDescOf ((part1 addr1).physRead 128 128)) = false ∧
    (part1 addr1).areasOk (ctxDescOf ctxBytes) = false ∧ (∀ c ∈ [0, 255], (part1 addr1).inTransfer c = false) ∧
    (∀ st ∈ [CState.created, .bound, .running, .preempted, .faulted, .fenced, .destroyed], ((ctxIn st).ctx 1).state = st ∧ rising (ctxIn st).teams = true) ∧
    ((ctxIn .preempted).ctx 1).held = none ∧
    (let f : FaultRec := { cause := 0x15, core := 0, gid := 1, team := 0, thread := 0, trappc := 0, trapaddr := 0, trapcause := 0, clock := 0 }
     (((ctxIn .preempted).modCtx 1 fun C => { C with held := some f }).ctx 1).held = some f) ∧ (1#12) ≠ 0 := by decide +kernel

/-- A context to destroy, with a request that its home has accepted and without; and one whose DESTROY waits, and may complete. -/
theorem test_context_destroy :
    let r : Req := { id := 9, tid := 0, va := 65536, op := .load 4 false false .unscoped, counter := 1, stage := .outside (2 ^ 50) }
    let T := { team1 addr1 with phase := .exiting, killed := true, reqs := [r] }
    let s := { ctxIn .preempted with regs := { bootReady := true } }
    let t := { s with ctxPend := some 1, teams := [(1, T)] }
    s.ctxPend = none ∧ (∀ kt ∈ s.teams, kt.2.ctx = 1 → kt.2.reqs = []) ∧ t.team? 1 = some T ∧ T.phase ≠ .pending ∧ T.phase ≠ .done ∧
      r.stage.accepted = true ∧ t.teamsOver 1 = false ∧ { s with ctxPend := some 1 }.teamsOver 1 = true ∧
      (∀ c ∈ [0, 255], t.inTransfer c = false) ∧ (∀ r ∈ s.rounds, r.ctx ≠ 1) ∧ (∀ p ∈ (s.ctx 1).pairs, p.leaving = false) ∧
      (let v := { (noded s).modCtx 1 fun C => { C with pairs := [{ node := 0, state := 2 }] } with
                  rounds := [{ id := 5, ctx := 1, core := 0, cl := 2 ^ 50 + 2 ^ 37, op := .fadd }] }
       ((v.ctx 1).pair? 0).map (fun p => p.state) = some 2 ∧ toNode 0 (2 ^ 50 + 2 ^ 37) = true ∧ (v.ctx 1).desc.redpol ≠ 1 ∧
         v.reachable 0 = true ∧ (v.ctx 1).state = .preempted ∧ ∃ r ∈ v.rounds, r.ctx = 1) := by decide +kernel

/-- Slices: none, one that goes on, one that has reached its length with another context waiting and with none. -/
theorem test_slices :
    let s := part1 addr1
    let free := s.modCore 0 fun C => { C with slice := none }
    let late := { s with clock := 17500000 }
    let two := { late with contexts := late.contexts ++ [(2, ({ state := .runnable } : Context))], teams := late.teams ++ [(3, ({ team1 addr1 with ctx := 2, phase := .resident } : Team))] }
    let ended := (two.modTeam 1 fun T => { T with phase := .exiting })
    let last := two.modCore 0 fun C => { C with slice := none, lastCtx := 1, freeSince := 1000 }
    ((free.core 0).slice = none ∧ free.stoodIdle 0 = true ∧ free.firstAsking 0 (free.candidates 0) = some 1) ∧
    ((last.core 0).slice = none ∧ (last.stoodIdle 0 = true → last.firstAsking 0 (last.candidates 0) = none) ∧
      nextAfter (last.core 0).lastCtx (last.candidates 0) = some 2) ∧
    ((ended.core 0).slice = some 1 ∧ ended.inTransfer 0 = false ∧ ended.wantsSlice 0 1 = false ∧
      nextAfter 1 ((ended.endSlice 0).candidates 0) = some 2) ∧
    ((s.core 0).slice = some 1 ∧ s.wantsSlice 0 1 = true ∧ s.clock < (s.core 0).sliceAt + (s.ctx 1).desc.slice * 1750) ∧
    ((late.core 0).slice = some 1 ∧ late.inTransfer 0 = false ∧ (late.core 0).sliceAt + (late.ctx 1).desc.slice * 1750 ≤ late.clock ∧
      ∀ z ∈ late.candidates 0, z = 1) ∧
    ((two.core 0).slice = some 1 ∧ two.inTransfer 0 = false ∧ (two.core 0).sliceAt + (two.ctx 1).desc.slice * 1750 ≤ two.clock ∧
      (∃ z ∈ two.candidates 0, z ≠ 1) ∧ nextAfter 1 ((two.endSlice 0).candidates 0) = some 2) ∧
    ({ team1 addr1 with stopped := some 0 } : Team).threads[0]? = some addr1 := by decide +kernel

/-- Slot 5 in a state, with the record that it holds; its ring stands in the page. -/
def slot5 (st : QState) (kept : Option (List Byte)) : State :=
  { part1 addr1 with queues := [(5, { state := st, ctx := 1, maxinfl := 1, size := 16, base := 65536, widxA := 69632, ridxA := 69760, kept := kept })] }

/-- A queue descriptor: context 1, one grid in flight, 16 records, the ring in the page. -/
def queueBytes : List Byte := [1, 0, 0, 1, 16, 0, 0, 0, 0, 0, 1, 0, 0, 0, 0, 0, 0, 0x10, 1, 0, 0, 0, 0, 0, 0x80, 0x10, 1] ++ List.replicate 37 0

theorem test_queue_commands :
    (∀ st ∈ [QState.unbound, .bound, .watching, .active, .blocked, .faulted, .draining, .destroyed], ((slot5 st none).queue (5#8).toNat).state = st) ∧
    (let s := holding ({ slot5 .unbound none with regs := { bootReady := true, qDesc := 0x300000 } } : State) 0x300000 queueBytes
     let b := s.physRead (s.regs.qDesc.toNat / 64 * 64) 64
     s.queueOk b (queueDesc b) = true ∧ s.residentPage (field b 0 2) (field b 16 8) = true ∧
       s.frontRead (field b 0 2) (field b 16 8) 8 = some [0, 0, 0, 0, 0, 0, 0, 0] ∧
       s.front? (field b 0 2) (field b 24 8) true = some 69760) ∧
    (slot5 .unbound none).queueOk ((slot5 .unbound none).physRead 0 64) (queueDesc ((slot5 .unbound none).physRead 0 64)) = false := by decide +kernel

/-- A record of a kind and flags whose two operands are an address and a value. -/
def recordOf (kind flags : Byte) (value : Byte) : List Byte :=
  [kind, flags, 0, 0, 0, 0, 0, 0, 0, 0x20, 1, 0, 0, 0, 0, 0, value] ++ List.replicate 47 0

/-- The turn of slot 5 with a record of each kind: one that starts, a WAIT whose word is short of its value, one that waits for the grids
before it; no record, an index out of range, and an empty ring. -/
theorem test_queue_records :
    (∀ b ∈ [recordOf 0 0 0, recordOf 1 0 0, recordOf 2 0 0, recordOf 2 0 9, recordOf 3 0 9, recordOf 0 1 0],
      (slot5 .active (some b)).nextQueue? = some (5#8).toNat ∧ ((slot5 .active (some b)).queue 5).kept = some b ∧
      ((slot5 .active (some b)).queue 5).state = .active ∧ (slot5 .active (some b)).inFlight 5 = [] ∧
      ((slot5 .active (some b)).inFlight 5).length < ((slot5 .active (some b)).queue 5).maxinfl ∧
      (slot5 .active (some b)).frontRead 1 (field b 8 8) 8 = if field b 8 8 = 73728 then some [0, 0, 0, 0, 0, 0, 0, 0] else none) ∧
    [recKind (recordOf 0 0 0), recKind (recordOf 1 0 0), recKind (recordOf 2 0 0), recKind (recordOf 3 0 9)] = [0, 1, 2, 3] ∧
    recFlag (recordOf 0 0 0) 0 = false ∧ recFlag (recordOf 0 1 0) 0 = true ∧ field (recordOf 2 0 9) 16 8 = 9 ∧
    (slot5 .active (some (recordOf 3 0 9))).front? 1 (field (recordOf 3 0 9) 8 8) true = some 73728 ∧
    (slot5 .active (some (recordOf 3 0 9))).unackedOn 0 = [] ∧ (slot5 .active none).badWords = [] ∧
    (let f : Flight := { id := 9, die := 0, addr := 2 ^ 50, data := [1], at_ := [0], deps := [], outside := true }
     ({ slot5 .active (some (recordOf 3 0 9)) with mem := { flights := [f] } } : State).unackedOn 0 ≠ []) ∧
    ({ slot5 .active (some (recordOf 0 1 0)) with grids := [{ fetchGrid with queue := some 5 }] } : State).inFlight 5 ≠ [] ∧
    ((slot5 .active none).turnKind 5 = 0 ∧ (slot5 .active none).acquireSys.readRecord ((slot5 .active none).queue 5) = .empty) ∧
    (let s := holding (slot5 .active none) 69632 [17]
     s.turnKind 5 = 0 ∧ s.acquireSys.readRecord (s.queue 5) = .fault 2) ∧
    (let s := holding (slot5 .active none) 69632 [1]
     s.turnKind 5 = 0 ∧ s.acquireSys.readRecord (s.queue 5) = .record (List.replicate 64 0) none ∧ recKind (List.replicate 64 0) = 0 ∧
       s.acquireSys.front? 1 (s.queue 5).ridxA.toNat true = some 69760) := by decide +kernel

/-- A watching slot whose index is in range, out of it, and cannot be read; one that unblocks; one that ages. -/
theorem test_queue_events :
    (let Q : Queue := { state := .watching, fired := true, ctx := 1, size := 16, widxA := 69632 }
     Q.state = .watching ∧ Q.fired = true ∧ (part1 addr1).frontRead Q.ctx Q.widxA.toNat 8 = some [0, 0, 0, 0, 0, 0, 0, 0] ∧
       Q.ridx ≤ ofBytes [0, 0, 0, 0, 0, 0, 0, 0] ∧ (holding (part1 addr1) 69632 [17]).frontRead 1 69632 8 = some [17, 0, 0, 0, 0, 0, 0, 0] ∧
       Q.size < ofBytes [17, 0, 0, 0, 0, 0, 0, 0] - Q.ridx ∧ (part1 addr1).frontRead 1 0 8 = none) ∧
    (slot5 .blocked (some (recordOf 0 0 0))).startable 5 (recordOf 0 0 0) ≠ .blocked ∧
    (let Q : Queue := { state := .active, waiting := 0 }
     Q.aged = false ∧ Q.waiting + 112000 ≤ 112000) := by decide +kernel

/-! ## Witnesses: pages and frames -/

/-- A range on no page boundary, one that is, a MIGRATING leaf with a frame to go to and one not assigned, and one that is not MIGRATING. -/
theorem test_page_commands :
    let s := tabled { part1 addr1 with regs := { bootReady := true, pgArg0 := 0x20000, pgArg1 := 0x510000 } }
    let t := { s with frames := s.frames ++ [(81, FState.assigned 1)] }
    ((s.ctx 1).state ≠ .created ∧ (s.ctx 1).state ≠ .destroyed ∧ ((ctxIn .created).ctx 1).state = .created) ∧
    (65537 % 65536 ≠ 0 ∧ rangeOk 65536 65536 = true ∧ rangeOk 0 0 = true) ∧
    (match t.walk 1 0x20000 with
      | .leaf e => pteSt e.pte == 2 && 0x20000 % e.size == 0 && 0x510000 % e.size == 0 && t.assignedTo 1 0x510000 e.size &&
          !s.assignedTo 1 0x510000 e.size
      | _ => false) = true ∧
    (match s.walk 1 0x200000 with
      | .leaf e => pteSt e.pte != 2
      | _ => false) = true ∧
    (s.leafAddr? (0x20000 % 2 ^ 57) levels (s.ctx 1).desc.ptroot.toNat).isSome = true ∧
    (s.leafAddr? (0x200000 % 2 ^ 57) levels (s.ctx 1).desc.ptroot.toNat).isSome = true ∧ canonical 0x20000 = true := by decide +kernel

/-- A command in progress, whose store is acknowledged and is not; nothing to wait for; a page that its waiting load is served on, and one
that it is not. -/
theorem test_page_waits :
    let f : Flight := { id := 9, die := 0, addr := 2 ^ 50, data := [1], at_ := [0], deps := [], outside := true }
    let p : PgPend := { op := 1, ctx := 1, a := 65536, n := 65536, reqs := [], stores := [9], since := 0 }
    let s := { part1 addr1 with mem := { flights := [f] }, pgPend := some p }
    let w : Thread := { addr1 with status := .parked, missing := [0x20000], misses := [(0x20000, { load := some 0x20000 })], bundle := none }
    let v := tabled (partOf (team1 w) [])
    s.pgPend = some p ∧ s.pgOver p = false ∧ (part1 addr1).pgOver p = true ∧ (∃ g ∈ s.mem.flights, g.outside = true) ∧
      rangeOk 65536 65536 = true ∧ (part1 addr1).invalAwaits 1 65536 65536 = ([], []) ∧ (part1 addr1).badWords = [] ∧
      (part1 addr1).pgPend = none ∧ (∀ r ∈ ((part1 addr1).ctx 1).regions, r.2.owes = false) ∧
      (v.waitersOf 1 0x20000 = [(0x20000, .load)] ∧ w.status = .parked ∧ w.missing ≠ [] ∧ v.inRange 1 0x20000 65536 0x20000 = true) ∧
      (match v.walk 1 (swapVa (v.ctx 1).swaps 0x20000) with
        | .leaf e => pteSt e.pte != 0 && Need.load.allowed e.pte
        | _ => false) = true ∧
      v.prqList.length + (v.missingIn 1 0x20000 65536).length < 65536 := by decide +kernel

/-- Frames that are all free, and not; those that may be freed. -/
theorem test_frame_commands :
    let s := { part1 addr1 with frames := [(48, .assigned 1), (49, .freeClean)], regs := { bootReady := true, pgArg0 := 0x310000, pgArg1 := 1 } }
    (0x310000 % 65536 = 0 ∧ 1 ≤ 1 ∧ 0x310000 + 1 * 65536 ≤ 2 ^ 40) ∧
    (∀ f, 0x310000 / 65536 ≤ f → f < 0x310000 / 65536 + 1 → s.frame f = .freeClean) ∧
    (s.frame 48 ≠ .freeClean ∧ s.frame 48 ≠ .scrubbing) ∧ s.regs.frmSet = false ∧
    ({ s with regs := { s.regs with frmTbl := 0x300000, frmSet := true } } : State).regs.frmSet = true ∧ s.mem.flights = [] ∧ s.cmds = [] ∧ inHbm 0x310000 = true ∧ inHost (2 ^ 51) = true := by
  refine ⟨by decide, fun f h1 h2 => ?_, by decide +kernel⟩
  have h : f = 49 := by omega
  subst h; decide +kernel

/-! ## Witnesses: the managed heap -/

/-- A region in each state, with its ring's control line and the entries after it in the page after its own. -/
def regioned (st : RState) (job : Option Job) (b : List Byte) : State :=
  holding ((heaped holder [] 2).modCtx 1 fun C => { C with
    regions := [(3, { state := st, base := 65536, size := 65536, hold := 131072, ring := 135168, colour := 2, kicked := true, job := job })] }) 135168 b

/-- A region descriptor: base 65,536, size 65,536, a forwarding table of 16 entries and a hold table on the page after it. -/
def regionBytes : List Byte :=
  [0, 0, 1, 0, 0, 0, 0, 0, 0, 0, 1, 0, 0, 0, 0, 0, 0, 0x20, 2, 0, 0, 0, 0, 0, 4, 0, 0, 0, 0, 0, 0, 0, 0, 0x40, 2, 0, 0, 0, 0, 0, 0, 0x50, 2] ++ List.replicate 21 0

theorem test_region_commands :
    (let s := { holding (part1 addr1) 131072 regionBytes with regs := { bootReady := true, mhArg := 131072 } }
     let s := s.modCore 0 fun C => { C with tlb := [codeEntry, holdEntry] }
     ((s.ctx 1).region 3).state = .undefined ∧ s.regs.mhArg.toNat % 64 = 0 ∧ s.regs.mhBusy = false ∧
       s.frontRead 1 s.regs.mhArg.toNat 64 = some regionBytes ∧ s.regionOk 1 3 regionBytes (regionOf s.regs.mhArg regionBytes) = true ∧
       s.regionOk 1 3 (List.replicate 64 0) (regionOf 131072 (List.replicate 64 0)) = false) ∧
    ((3#4) ≠ 0 ∧ ((regioned .idle none []).ctx 1).state = .running) ∧
    (let s := regioned .idle none []
     let p : MhPend := { op := 2, ctx := 1, region := 3, reqs := [], stores := [9] }
     let f : Flight := { id := 9, die := 0, addr := 2 ^ 50, data := [1], at_ := [0], deps := [], outside := true }
     let t : State := { s with mem := { s.mem with flights := [f] } }
     s.mhPend = none ∧ s.regs.mhBusy = false ∧ s.regionAwaits 1 ((s.ctx 1).region 3) = ([], []) ∧ s.mhOver p = true ∧ t.mhOver p = false ∧
       t.mhPend = none ∧ (∃ f ∈ t.mem.flights, f.outside = true) ∧ (s.front? 1 (((s.ctx 1).region 3).desc.toNat + 48) true).isSome = false ∧
       ((s.modCtx 1 fun C => { C with regions := [(3, { state := .idle, desc := 139264 })] }).front? 1 (139264 + 48) true).isSome = true) ∧
    (∀ st ∈ [RState.undefined, .idle, .relocating], (((regioned st none []).ctx 1).region 3).state = st ∧ (((regioned st none []).ctx 1).region 3).job = none) ∧
    (regioned .relocating none []).ringIndices 1 (((regioned .relocating none []).ctx 1).region 3) = some (0, 0) ∧ ahead (0, 0) = 0 ∧
    (regioned .relocating none [64]).ringIndices 1 (((regioned .relocating none [64]).ctx 1).region 3) = some (64, 0) ∧ ahead (64, 0) = 64 ∧
    (regioned .relocating none [65]).ringIndices 1 (((regioned .relocating none [65]).ctx 1).region 3) = some (65, 0) ∧ 64 < ahead (65, 0) := by decide +kernel

/-- An entry of one pair, good and not; a pair that moves, one out of range, one whose object is pinned, and one that cannot be read. -/
def entryBytes (n : Byte) : List Byte := [0, 0x60, 2, 0, 0, 0, 0, 0, n] ++ List.replicate 23 0
def pairBytes (a n : Byte) : List Byte := [0, 0, a, 0, 0, 0, 0, 0, 0, 0, n, 0, 0, 0, 0, 0]
/-- A region of two pages, the first in evacuation; the pair's list is at 155,648. -/
def moving (pins : Byte) (list : DWord) : State :=
  let s := (heaped holder [] 2).modCtx 1 fun C => { C with
    regions := [(3, { state := .relocating, base := 0x100000, size := 0x20000, ftab := 139264, ftlog2 := 4, hold := 131072, ring := 135168
                      job := some { list := list, count := 1, done := 0 } })] }
  let s := s.modCore 0 fun C => { C with tlb := [
    { codeEntry with va := 0x100000, pa := 0x100000, pte := 0x330000000010001F },
    { codeEntry with va := 0x110000, pa := 0x110000, pte := 0x130000000011001F }, holdEntry] }
  { s with mem := { cells := putBytes 155648 (pairBytes 0x10 0x11) (putBytes 0x100000 [32, 0, 0, 0, pins] []) } }

theorem test_teasel :
    (let s := regioned .relocating none [1]
     let R := (s.ctx 1).region 3
     R.state ≠ .undefined ∧ R.job = none ∧ R.kicked = true ∧ R.ending = false ∧ s.ringIndices 1 R = some (1, 0) ∧ 0 < ahead (1, 0) ∧ ahead (1, 0) ≤ 64) ∧
    (let s := holding (regioned .relocating none [1]) 135296 (entryBytes 1)
     let R := (s.ctx 1).region 3
     s.acquireSys.frontRead 1 (R.ring.toNat + 128 + 32 * (0 % 64)) 32 = some (entryBytes 1) ∧
     let t := s.acquireSys.poke (s.teaselCore 1 R) 1 (R.ring.toNat + 4) (toBytes 4 ((0 + 1) % 2 ^ 32)) true
     let b := entryBytes 1
     R.state = .relocating ∧ field b 0 8 % 16 = 0 ∧ field b 8 4 = 1 ∧ field b 12 4 = 0 ∧ field b 16 8 % 8 = 0 ∧ field b 24 8 = 0 ∧
       (∀ p ∈ pieces (1 / 4096 + 2) (field b 0 8) (16 * 1), (t.front? 1 p.1 false).isSome = true) ∧ field (entryBytes 0) 8 4 = 0) ∧
    (let s := moving 0 155648
     let R := (s.ctx 1).region 3
     let core := s.teaselCore 1 R
     s.frontRead 1 155648 16 = some (pairBytes 0x10 0x11) ∧ s.mem.flights = [] ∧ R.base ≤ 0x100000 ∧ 0x110000 + 16 ≤ R.base + R.size ∧
       s.pageIs core 1 0x110000 3 1 = true ∧ s.pageIs core 1 0x100000 3 3 = true ∧ ofBytes (s.peek core 1 0x100000 4) = 32 ∧
       s.headerState core 1 0x100000 % 65536 = 0 ∧ (s.objBytes core 1 0x100000 32).isSome = true ∧
       (s.objBytes core 1 0x110000 32).isSome = true ∧ (s.freeSlotOf core 1 R 0x100000).isSome = true) ∧
    (let s := moving 1 155648
     let R := (s.ctx 1).region 3
     let w := s.headerState (s.teaselCore 1 R) 1 0x100000
     w % 65536 ≠ 0 ∧ w % 65536 ≠ 0xFFFF ∧ ({ list := 0, count := 1, done := 0 } : Job).attempt < 5) ∧
    (moving 0 0).frontRead 1 (0 + 16 * 0) 16 = none ∧
    (let b := pairBytes 0x0F 0x11
     field b 0 8 < 0x100000) ∧ (({ list := 0, count := 1, done := 0, attempt := 5 } : Job).after ≤ 5000) := by decide +kernel

/-- The job of that region, which has taken its pair at an attempt, or claimed a slot at it. -/
def pairJob (attempt : Nat) (claimed : Option (Nat × Nat)) : Job :=
  { list := 155648, count := 1, done := 0, attempt := attempt, pair := some (0x100000, 0x110000), claimed := claimed }
def pairing (j : Job) (header : List Byte) : State :=
  let s := (moving 0 155648).modCtx 1 fun C => { C with
    regions := [(3, { (C.region 3) with job := some j })] }
  { s with mem := { cells := putBytes 0x100000 header [] } }

theorem holds1 (va n pa : Nat) (h : (va, n, pa) ∈ [(0x100000, 32, 0x100000), (0x110000, 32, 0x110000), (0x100004, 4, 0x100004)])
    (j : Job) (hj : j ∈ [pairJob 1 none, pairJob 1 (some (0, 139264))]) : (pairing j [32]).holdsPage 0 1 va n pa := by
  simp only [List.mem_cons, Prod.mk.injEq, List.not_mem_nil, or_false] at h hj
  obtain ⟨rfl, rfl, rfl⟩ | ⟨rfl, rfl, rfl⟩ | ⟨rfl, rfl, rfl⟩ := h <;> obtain rfl | rfl := hj
  · exact ⟨by decide, by decide, by decide, { codeEntry with va := 0x100000, pa := 0x100000, pte := 0x330000000010001F }, by decide +kernel, by decide, by decide +kernel⟩
  · exact ⟨by decide, by decide, by decide, { codeEntry with va := 0x100000, pa := 0x100000, pte := 0x330000000010001F }, by decide +kernel, by decide, by decide +kernel⟩
  · exact ⟨by decide, by decide, by decide, { codeEntry with va := 0x110000, pa := 0x110000, pte := 0x130000000011001F }, by decide +kernel, by decide, by decide +kernel⟩
  · exact ⟨by decide, by decide, by decide, { codeEntry with va := 0x110000, pa := 0x110000, pte := 0x130000000011001F }, by decide +kernel, by decide, by decide +kernel⟩
  · exact ⟨by decide, by decide, by decide, { codeEntry with va := 0x100000, pa := 0x100000, pte := 0x330000000010001F }, by decide +kernel, by decide, by decide +kernel⟩
  · exact ⟨by decide, by decide, by decide, { codeEntry with va := 0x100000, pa := 0x100000, pte := 0x330000000010001F }, by decide +kernel, by decide, by decide +kernel⟩

/-- A pair taken: of size zero, FORWARDED, pinned, one that moves, and one for which no slot is free. -/
theorem test_teasel_attempts :
    (∀ j ∈ [pairJob 1 none, pairJob 2 none, pairJob 5 none], ((pairing j []).ctx 1).region 3 = { ((moving 0 155648).ctx 1).region 3 with job := some j } ∧
      j.next < j.count ∧ j.after ≤ (pairing j []).clock ∧ (j.attempt = 1 ∨ 1 < j.attempt) ∧ (pairing j []).teaselCore 1 (((pairing j []).ctx 1).region 3) = 0) ∧
    (let s := pairing (pairJob 1 none) []
     ofBytes (s.acquireSys.peek 0 1 0x100000 4) = 0) ∧
    (let s := pairing (pairJob 1 none) [32, 0, 0, 0, 0xFF, 0xFF]
     ofBytes (s.acquireSys.peek 0 1 0x100000 4) = 32 ∧ s.acquireSys.headerState 0 1 0x100000 % 65536 = 0xFFFF) ∧
    (let s := pairing (pairJob 5 none) [32, 0, 0, 0, 1]
     s.acquireSys.headerState 0 1 0x100000 % 65536 = 1) ∧
    (let s := pairing (pairJob 1 none) [32]
     let R := (s.ctx 1).region 3
     s.acquireSys.headerState 0 1 0x100000 % 65536 = 0 ∧ (s.acquireSys.objBytes 0 1 0x100000 32).isSome = true ∧
       (s.acquireSys.objBytes 0 1 0x110000 32).isSome = true ∧ s.badWords = [] ∧ s.mem.flights = [] ∧
       (match s.acquireSys.freeSlotOf 0 1 R 0x100000 with
         | some slot => pieces (16 / 2 ^ 16 + 2) slot 16 == [(slot, 16)] && s.cached? 0 1 (swapVa (s.ctx 1).swaps slot) == some holdEntry &&
             decide (holdEntry.phys (s.ctx 1).swaps slot + 16 ≤ 0x110000 ∨ 0x110000 + 32 ≤ holdEntry.phys (s.ctx 1).swaps slot)
         | none => false) = true) ∧
    (let s := (moving 0 155648).modCtx 1 fun C => { C with regions := [(3, { (C.region 3) with job := some (pairJob 1 none) })] }
     let R := (s.ctx 1).region 3
     let s := { s with mem := { cells := (List.range 16).foldl (fun m i => putBytes (R.slotAddr 0x100000 i) [1] m) (putBytes 0x100000 [32] []) } }
     s.acquireSys.headerState 0 1 0x100000 % 65536 = 0 ∧ s.acquireSys.freeSlotOf 0 1 R 0x100000 = none) := by decide +kernel

/-- A slot claimed, where the state word is as it was read, and is not; the end of an entry, with its words on no MIGRATING page and on one. -/
theorem test_teasel_ends :
    (let s := pairing (pairJob 1 (some (0, 139264))) [32]
     (pairJob 1 (some (0, 139264))).claimed.isSome = true ∧ s.headerState 0 1 0x100000 = 0 ∧ s.badWords = [] ∧
       s.cached? 0 1 (swapVa (s.ctx 1).swaps 139264) = some holdEntry) ∧
    (let s := pairing (pairJob 1 (some (0, 139264))) [32, 0, 0, 0, 1]
     s.headerState 0 1 0x100000 ≠ 0) ∧
    (let j : Job := { list := 155648, count := 1, done := 147456, next := 1 }
     let s := (pairing j [32]).modCtx 1 fun C => { C with regions := [(3, { (C.region 3) with desc := 143360 })] }
     let R := (s.ctx 1).region 3
     let t := s.modCore 0 fun C => { C with tlb := [{ holdEntry with pte := 0x200000000002001F }] }
     j.count ≤ j.next ∧ R.job = some j ∧ s.doneWaits 1 R = false ∧ t.doneWaits 1 R = true ∧ pieces 2 147456 8 = [(147456, 8)] ∧
       s.front? 1 147456 true = some 147456 ∧ s.front? 1 (143360 + 48) true = some 143408 ∧ s.badWords = [] ∧ s.mem.flights = [] ∧
       (s.cached? 0 1 (swapVa (s.ctx 1).swaps 147456)).isSome = true ∧ (s.cached? 0 1 (swapVa (s.ctx 1).swaps 143408)).isSome = true) := by decide +kernel

/-! ## Witnesses: links, the host port and trust -/

theorem test_ports :
    ((part1 addr1).port 23).state = .down ∧ (noded (part1 addr1)).port 0 = { state := .up, lanes := 0xFF, node := 0 } ∧
    (({ part1 addr1 with ports := [(0, { state := .training })] } : State).port 0).state = .training ∧
    laneCount 0xFF = 8 ∧ laneCount 0x0F = 4 ∧ laneCount 0x03 ≠ 8 ∧ laneCount 0x03 ≠ 4 ∧
    (let f : Flight := { id := 9, die := 0, addr := 2 ^ 50, data := [1], at_ := [0], deps := [], outside := true }
     let s := { noded (part1 addr1) with mem := { flights := [f] } }
     inNode (2 ^ 43 * 128) = true ∧ s.unreachable (2 ^ 43 * 128) = false ∧ nodeOf (2 ^ 43 * 128) < 4096 ∧
       s.unreachable (nodeBase (nodeOf (2 ^ 43 * 128))) = false ∧
       s.mem.flights.find? (fun g => g.outside && lineOf g.addr == 2 ^ 43) = some f ∧ (∀ G ∈ s.grids, G.acks = []) ∧
       ∀ c ∈ s.contexts, ∀ p ∈ c.2.pairs, p.leaving = false) ∧
    (let t := { addr1 with watch := .armed (2 ^ 43) true }
     2 ^ 43 ∈ ((noded (part1 t)).node (nodeOf (2 ^ 43 * 128))).watches ∧ (noded (part1 t)).thread? 1 0 = some t) := by decide +kernel

/-- Nothing of a context is in use; an argument that is none, and one of port 255; a pair in each state; 64 pairs; a node FENCED. -/
theorem test_node_commands :
    (let s := part1 addr1
     s.regs.bootReady = true ∧ s.regs.nodeBusy = false ∧ s.reachable 5 = false ∧ s.attestArg = none ∧ (s.ctx 7).state = .created ∧
       (s.ctx 1).pair? 0 = none ∧ (1#12) ≠ 0) ∧
    (let s := holding (noded { part1 addr1 with frames := [(48, .assigned 0)], regs := { bootReady := true, nodeArg := 0x300000 } }) 0x300020 [255]
     s.attestArg = some (List.replicate 32 0, 255) ∧ s.reachable 0 = true ∧ (s.node 0).fenced = false ∧ (s.ctx 1).pairs.length < 64) ∧
    (let s := (part1 addr1).modCtx 1 fun C => { C with pairs := List.replicate 64 { node := 9 } }
     64 ≤ (s.ctx 1).pairs.length ∧ (s.ctx 1).pair? 0 = none) ∧
    (∀ n ∈ [0, 1, 2], ((((part1 addr1).modCtx 1 fun C => { C with pairs := [{ node := 5, state := n }] }).ctx 1).pair? 5).map (fun q => q.state) = some n) ∧
    (({ part1 addr1 with nodes := [(5, { fenced := true })] } : State).node 5).fenced = true ∧
    ({ part1 addr1 with regs := { bootReady := true, nodeBusy := true } } : State).nodePend = none ∧
    24 ≤ (24#12).toNat % 32 ∧ (23#12).toNat % 32 < 24 := by decide +kernel

/-- An attestation under way: what the node's digest is compared with, and whether the context has a job key to deliver. -/
theorem test_attestation :
    (let s := (noded (part1 addr1)).modCtx 1 fun C => { C with pairs := [{ node := 0, state := 1, ref := [7] }] }
     ((s.ctx 1).pair? 0).map (fun q => (q.state, q.ref)) = some (1, [7]) ∧ [8] ≠ [(7 : Byte)] ∧ (s.ctx 1).jobKey = none ∧
       ((s.modCtx 1 fun C => { C with jobKey := some [1] }).ctx 1).jobKey.isSome = true ∧ s.reachable 0 = true) ∧
    ((part1 addr1).reachable 0 = false ∨ (part1 addr1).atomicsAt 1 0 = false) := by decide +kernel

/-- Device memory open to the host, and closed to it; a VF whose window stands on the page, on a MIGRATING page and nowhere. -/
theorem test_host_port :
    (let s := { part1 addr1 with vfs := [(1, { vbase := 1, ctx := 1 }), (2, { vbase := 2, ctx := 1 }), (3, { vbase := 9, ctx := 1 })] }
     let s := tabled s
     s.closedTo 65536 8 = false ∧ s.anyBad 65536 8 = false ∧ s.badBlock? 65536 8 = none ∧ s.isWatched (lineOf 65536) = false ∧
       s.vfOpen 1 0 8 = true ∧ s.vfOpen 0 0 8 = false ∧ s.vfAt 1 65536 true = .at_ 65536 ∧ s.vfAt 1 65536 false = .at_ 65536 ∧
       s.vfAt 1 131072 true = .wait ∧ s.vfAt 1 (9 * 65536) true = .unsupported) ∧
    (let s := (part1 addr1).modCtx 1 fun C => { C with pairs := [] }
     ({ s with frames := [(1, .assigned 1)], vfs := [(1, { ctx := 1, state := .run })] } : State).closedTo 65536 8 = true) ∧
    (let f : Flight := { id := 9, die := 0, addr := 2 ^ 50, data := [1], at_ := [0], deps := [], outside := true }
     f.outside = true ∧ f.touches (2 ^ 50) 8 = true) ∧
    (let s := { part1 addr1 with badWords := [8192] }
     s.closedTo 65536 8 = false ∧ s.anyBad 65536 8 = true) ∧
    (let e := { codeEntry with pa := 2 ^ 51, pte := 0x100800000000001F }
     let s := { tabled (part1 addr1) with vfs := [(1, { vbase := 1, ctx := 1 })] }
     let s := s.modCore 0 fun C => { C with tlb := [e] }
     s.vfOpen 1 0 8 = true ∧ s.vfAt 1 65536 false = .at_ (2 ^ 51) ∧ s.lineBusy (2 ^ 51) = false ∧ s.farLines 0 1 (s.vfPieces 1 0 8) ≠ []) ∧
    ((tabled (part1 addr1)).farLines 0 1 ({ tabled (part1 addr1) with vfs := [(1, { vbase := 1, ctx := 1 })] }.vfPieces 1 0 8) = []) ∧
    (let q : VfWait := { vf := 1, off := 8, write := true, len := 8, data := [1] }
     q.vf = 1 ∧ q.write = true ∧ q.same { q with off := 0 } = false) := by decide +kernel

theorem test_host_completion :
    let r : Req := { id := 9, tid := 0, va := 65536, op := .load 4 false false .unscoped, dest := .reg 8 1, counter := 1, stage := .outside (2 ^ 51) }
    let t := { addr1 with cntLd := 1, pendRegs := [(8, 9)], pendPreds := [(7, 9)] }
    let T := { team1 t with reqs := [r] }
    let s := { partOf T [0] with outside := [{ line := 2 ^ 44, req := 9, team := 1 }] }
    OneLoad s 1 T t r 8 ∧ T.killed = false ∧ inHost (2 ^ 44 * 128) = true ∧ (∀ o ∈ s.outside, o.line ≠ 2 ^ 44 + 1) ∧ lineOf (2 ^ 51) = 2 ^ 44 ∧ 2 ^ 51 % 4 = 0 ∧ s.badBlock? (2 ^ 51) 4 = none ∧
      s.mem.flights = [] ∧ (List.replicate 128 (0#8)).length = 128 :=
  ⟨⟨rfl, by decide +kernel, rfl, rfl, rfl, rfl, rfl, rfl, rfl, rfl, rfl⟩, by decide +kernel⟩

theorem test_interfaces :
    (({ part1 addr1 with vfs := [(63, { state := .locked, stream := some 3 })], ideStreams := [3] } : State).vf 63).state = .locked ∧
    ({ part1 addr1 with vfs := [(63, { state := .locked, stream := some 3 })], ideStreams := [3] } : State).hasStream 63 = true ∧
    (part1 addr1).hasStream 63 = false ∧ ((part1 addr1).vf 1).state = .unlocked ∧
    (({ part1 addr1 with vfs := [(1, { ctx := 1, state := .run, stream := some 0 })] } : State).vf 1).ctx ≠ 0 := by decide +kernel

/-! ## Witnesses: grids and engines -/

/-- A kernel of 32 threads at the page's start. -/
def kernel32 : Kernel := { fetchKernel with tx := 32, regs := 16, nacc := 1, nabuf := 0, nbslot := 0 }

/-- Grid 1 in a state, with no team. -/
def grid1 (st : GridState) (k : Option Kernel) : Grid := { fetchGrid with state := st, kernel := k, nextTeam := 0 }
def noTeams (G : Grid) (t : Table Team) : State := { part1 addr1 with grids := [G], teams := t, issue := {} }

theorem test_grids :
    (let P := { fetchGrid with state := .faulted }
     let G := { grid1 .queued none with gid := 2, parent := some 1, depth := 1 }
     let s := { ctxIn .faulted with grids := [P, G], teams := [] }
     s.grid? 1 2 = some G ∧ s.frozen G = true) ∧
    (let G := { grid1 .queued (some kernel32) with queue := some 5 }
     (noTeams G []).grid? 1 1 = some G ∧ (noTeams G []).launchReady G = true ∧ (noTeams G []).frozen G = false ∧
       (noTeams G []).mem.flights = [] ∧ (noTeams G []).badWords = []) ∧
    (let G := { grid1 .queued (some kernel32) with args := 8 }
     G.operandsOk = true) ∧
    (let G := grid1 .queued none
     (noTeams G []).readKernel G.ctx G.kaddr = none ∧ (noTeams G []).grid? 1 1 = some G) ∧
    (noTeams (grid1 .translating (some kernel32)) []).grid? 1 1 = some (grid1 .translating (some kernel32)) ∧
    (noTeams (grid1 .placing (some kernel32)) []).fresh = 2 := by decide +kernel

theorem test_placement :
    let T : Team := { ctx := 1, gid := 1, index := 0, size := 32 }
    let G := grid1 .placing (some kernel32)
    let s := noTeams G [(1, T)]
    1 < s.fresh ∧ s.waiting? 1 = some (T, G, kernel32) ∧ (s.bestCore 1 1 kernel32).map (fun x => x.1) = some 0 ∧
      ({ s with clock := oneMs } : State).mayReserve 1 T = true ∧ s.reserveCore 1 1 kernel32 = some 0 := by decide +kernel

theorem test_team_end :
    let T := { team1 addr1 with phase := .exiting }
    let s := { partOf T [] with grids := [fetchGrid] }
    s.team? 1 = some T ∧ s.mayEnd 1 T = true ∧ (∀ kt ∈ s.teams, kt.1 = 1) ∧ (s.ctx 1).state = .running ∧
      s.grid? 1 1 = some fetchGrid ∧ s.frozen fetchGrid = false ∧ fetchGrid.state = .running ∧ fetchGrid.x * fetchGrid.y * fetchGrid.z ≤ fetchGrid.nextTeam ∧
      s.liveChildren 1 1 = [] ∧ fetchGrid.queue = none ∧ fetchGrid.parent = none ∧ s.mem.flights = [] ∧ s.cmds = [] ∧ T.pins = [] := by decide +kernel

/-- A ring of four entries with one posted. -/
theorem test_ring : ({ team1 addr1 with ringLen := 4, ring := [(128, 1)], kicks := [(0, 1, 0)] } : Team).takable = true := by decide +kernel

/-- A command of a kind on the page, of 64 bytes; with copy engine 0; and the part that holds it. -/
def move (k : Nat) (aux : DWord) : Cmd :=
  { id := 9, team := 1, core := 0, index := 0, kind := k, flags := 0, tbar := 0, chunk0 := 0, count := 64, src := 65536, dst := 66560
    aux := aux, engine := some 0 }
def moves (m : Cmd) : State := { part1 addr1 with cmds := [m] }

/-- A command that has its engine, one that finds one free, one that finds none, and one of a killed team. -/
theorem test_engines_taken :
    (∀ k ∈ [0, 1, 4, 5, 6], (moves (move k 255)).unmoved (move k 255) = true ∧ (moves (move k 255)).cmd? 9 = some (move k 255) ∧
      (moves (move k 255)).asking 9 = false ∧ (move k 255).engine.isSome = true) ∧ (team1 addr1).killed = false ∧
    (let m := { move 0 0 with engine := none }
     (moves m).freeEngine? 0 = some 0 ∧ (moves m).nextCmd? (dieOf m.core) = some m ∧ (moves m).unmoved m = true) ∧
    (let l := (List.range 6).map fun e => { move 1 0 with id := 10 + e, engine := some e }
     ({ part1 addr1 with cmds := { move 0 0 with engine := none } :: l } : State).freeEngine? 0 = none) ∧
    ({ team1 addr1 with killed := true } : Team).killed = true := by decide +kernel

/-- The pieces of each kind, a destination that fails, and one that waits. -/
theorem test_engine_spans :
    (∀ k ∈ [1, 5, 6], (moves (move k 255)).spanState 0 1 (move k 255) = .ready ∧ piecesOf (move k 255).targets = [(66560, 64)] ∧
      (k ≠ 6 → piecesOf (move k 255).sources = [(65536, 64)])) ∧
    (piecesOf (move 2 (2 ^ 48)).targets = [(66560, 64)] ∧ piecesOf (move 2 (2 ^ 48)).sources = [(65536, 64)]) ∧
    (piecesOf (move 4 66560).targets = [(66560, 64)] ∧ (move 4 66560).pub = false) ∧
    (moves (move 1 0)).engineAt 0 1 66560 true = .at_ 66560 ∧ (moves (move 1 0)).engineAt 0 1 65536 false = .at_ 65536 ∧
    8 * ((move 1 0).count / 8) = 64 ∧
    (match (moves (move 1 0)).spanState 0 1 { move 1 0 with src := 0 } with
      | .fails c _ => c != 3
      | .ready | .later => false) = true ∧
    (tabled (moves (move 1 0))).spanState 0 1 { move 1 0 with dst := 0x20000 } = .later := by decide +kernel

/-- An entry whose checks wait for a slot of its cluster's walker, and one whose pages are cached; a command that stalls for a slot, one
that asks for lines outside the package, and one that waits for their answer. -/
theorem test_engine_waits :
    (let m : Cmd := { move 1 0 with unchecked := some (List.replicate 32 0) }
     let s := { (moves m).modCore 0 fun C => { C with tlb := [] } with walkDelay := 40, walks := List.replicate 16 { id := 3, cluster := 0, core := 0, ctx := 1, va := 0 } }
     s.unchecked? 1 = some (m, List.replicate 32 0) ∧ m.fieldError (team1 addr1) (List.replicate 32 0) = none ∧
       s.walksWait? 0 1 m.fetched m.pages = some .slot ∧ (moves m).walksWait? 0 1 m.fetched m.pages = none ∧
       (∀ va ∈ m.pages, (moves m).engineNeeds 0 1 va = false) ∧ (moves (move 1 0)).unchecked? 1 = none) ∧
    (let m := { move 1 0 with src := 131072 }
     let e := { codeEntry with va := 131072, pa := 2 ^ 51, pte := 0x100800000000001F }
     let s := (moves m).modCore 0 fun C => { C with tlb := [codeEntry, e] }
     s.spanState 0 1 m = .ready ∧ s.asking 9 = false ∧ m.asked = false ∧ s.farLines 0 1 m.sources = [lineOf (2 ^ 51)] ∧
       s.egressBlocked (lineOf (2 ^ 51) * 128) = false ∧ (∀ va ∈ m.pages, s.engineNeeds 0 1 va = false) ∧
       ({ s with outside := [{ line := lineOf (2 ^ 51), req := 9, team := 1 }] } : State).asking 9 = true) ∧
    (let m := { move 3 0 with tile := some 3, engine := none }
     (((moves m).core 0).tile 3).state = .empty ∧
       ((((moves m).modCore 0 fun C => { C with tiles := [(3, { state := .ready })] }).core 0).tile 3).state ≠ .empty) := by decide +kernel

theorem test_engine_watches : ∀ l, lineOf 66560 ≤ l → l ≤ lineOf (66560 + 64) → (moves (move 1 0)).isWatched l = false := by
  intro l h1 h2
  have h : l = 520 := Nat.le_antisymm h2 h1
  subst h; decide +kernel

/-- A CPYR to no port, CPYT with the tiles and without, and commands that are over. -/
theorem test_engine_ends :
    ((moves (move 5 3)).port ((3#64).toNat % 256)).state ≠ .up ∧
    (let m := { move 3 0 with tile := some 3, engine := none }
     (moves m).fill? 9 = none ∧ ((moves m).core 0).accown = 1 ∧ (((moves m).modCore 0 fun C => { C with accown := 2 }).core 0).accown ≠ 1 ∧
       m.err = none ∧ m.moved = false ∧ m.parked = false) ∧
    (moves (move 1 0)).cmdOver { move 1 0 with moved := true } (team1 addr1) = true ∧ ({ move 1 0 with flags := 8 } : Cmd).cce = true ∧
    (moves (move 1 0)).cmdOver { move 1 0 with err := some (2, 0) } (team1 addr1) = true ∧ (move 1 0).tbe = false := by decide +kernel

/-! ## Witnesses: requests -/

/-- A load of four bytes of the page by thread 0 of team 1, at a stage. -/
def load9 (st : Stage) : Req := { id := 9, tid := 0, va := 65536, op := .load 4 false false .unscoped, dest := .reg 8 1, counter := 1, stage := st }
def loading : Thread := { addr1 with cntLd := 1, pendRegs := [(8, 9)], pendPreds := [(7, 9)] }
def loaded (l : List Req) : State := partOf { team1 loading with reqs := l } [0]

theorem oneLoad (st : Stage) : OneLoad (loaded [load9 st]) 1 { team1 loading with reqs := [load9 st] } loading (load9 st) 8 :=
  ⟨rfl, rfl, rfl, rfl, rfl, rfl, rfl, rfl, rfl, rfl, rfl⟩

theorem test_requests :
    (let s := (loaded [load9 (.translated 65536)]).modCore 0 fun C => { C with tlb := [] }
     s.cached? 0 1 (swapVa (s.ctx 1).swaps 65536) = none ∧ (s.queueOf (clusterOf 0)).length + (s.doorOf (clusterOf 0)).length < 64) ∧
    (let r := { load9 (.translated 65536) with op := .store [1] .unscoped false }
     let p := { codeEntry with pte := 0x200000000001001F }
     let s := (loaded [r]).modCore 0 fun C => { C with tlb := [p] }
     s.req? 9 = some (1, { team1 loading with reqs := [r] }, r) ∧ s.cached? 0 1 (swapVa (s.ctx 1).swaps 65536) = some p ∧ pteSt p.pte = 2 ∧
       r.op.need.writes = true) ∧
    4000 + 1000 ≤ 5000 ∧
    inHbm 65536 = true ∧ (loaded []).badBlock? 65536 4 = none ∧
    (let w : Walk := { id := 3, cluster := 0, core := 0, ctx := 1, va := 65536 }
     let s := { loaded [load9 (.walking 3 4000 1000)] with walks := [w], fresh := 10 }
     s.walks.find? (fun v => v.id == w.id) = some w ∧ w.stale = false ∧ w.id < s.fresh ∧ s.walkNeeds? w = none ∧
       (s.outside.any fun o => o.req == w.id) = false ∧ (({ s with outside := [{ line := 0, req := 3, team := 0 }] } : State).outside.any fun o => o.req == w.id) = true ∧ s.teams = [(1, { team1 loading with reqs := [load9 (.walking 3 4000 1000)] })]) := by decide +kernel

/-- A walk of tables in host memory has to read the line of its entry. -/
theorem test_walk_reads :
    let w : Walk := { id := 3, cluster := 0, core := 0, ctx := 1, va := 65536 }
    let s := { loaded [] with walks := [w] }.modCtx 1 fun C => { C with desc := { C.desc with ptroot := 0x8000000000000 } }
    (s.walkNeeds? w).isSome = true ∧ (s.outside.any fun o => o.req == w.id) = false := by decide +kernel

theorem test_reissues : Reaches (loaded [load9 (.backoff 5000)]) { team1 loading with reqs := [load9 (.backoff 5000)] } (load9 .behind).va 4 .load 65536 :=
  ⟨by decide +kernel, by decide +kernel, by decide +kernel, by decide +kernel, by decide +kernel,
    ⟨codeEntry, by decide +kernel, by decide +kernel, by decide +kernel, by decide +kernel⟩, by decide, by decide +kernel, rfl⟩

/-- A request in its cluster's queue whose turn it is; one whose last queue is the home slice, behind an older one and alone; and a full
queue that displaces nothing. -/
theorem test_queue_turns :
    (let q := load9 (.queued 0 65536 4000 1000)
     let s := loaded [q]
     s.nextMember 0 = some { owner := 1, id := 9, since := 4000, hold := 1000 } ∧ s.nextQueue { team1 loading with reqs := [q] } q 0 65536 = some 74 ∧
       (s.queueOf 74).length + (s.doorOf 74).length = 0) ∧
    (let q := load9 (.queued 74 65536 4000 1000)
     let o := { q with id := 8, stage := .onPublish }
     let s := { loaded [o, q] with llc := [(2, [{ line := 512 }])] }
     s.nextQueue { team1 loading with reqs := [o, q] } q 74 65536 = none ∧ ({ team1 loading with reqs := [o, q] } : Team).mayPerform q = false ∧
       ({ team1 loading with reqs := [q] } : Team).mayPerform q = true ∧ inHbm 65536 = true) ∧
    (let T := { team1 loading with reqs := (List.range 64).map fun n => { load9 (.queued 0 65536 4000 1000) with id := 100 + n } }
     ((partOf T [0]).queueOf 0).length = 64 ∧ displaced? 64 ((partOf T [0]).queueOf 0) 1 = none) := by decide +kernel

/-! ## Witnesses: threads -/

theorem test_waits :
    addr1.missing = [] ∧ (part1 addr1).waitOver 1 0 (team1 addr1) addr1 (.operand [8] [] []) = true ∧
    (∀ r a b c d e f, Wait.operand [8] [] [] = .fence r a b c d e f → r = []) :=
  ⟨rfl, by decide +kernel, fun _ _ _ _ _ _ _ h => Wait.noConfusion h⟩

theorem test_thread_events :
    ({ addr1 with yielded := some (4744, []) } : Thread).yielded = some (4744, []) ∧ 4744 + 256 ≤ (part1 addr1).clock ∧
    tget? 0 addr1.slabs = some true ∧ addr1.pinned 0 = false ∧
    (let s := (part1 addr1).modCtx 1 fun C => { C with desc := { C.desc with bslimit := 0x110000 } }
     (s.ctx 1).blocks < (s.ctx 1).desc.blockLimit) ∧
    tget? 0 ({ addr1 with slabs := [(0, false)] } : Thread).slabs = some false ∧ tget? 511 addr1.slabs = none ∧ 511 < 512 ∧
    addr1.slabs.length < (team1 addr1).slabs ∧ 511 ∉ addr1.badSpills ∧ (team1 addr1).phase.isResident = true ∧
    (let t : Thread := { addr1 with spilled := [511], badSpills := [511] }
     511 ∈ t.badSpills ∧ 511 ∈ t.spilled) ∧ (part1 addr1).lits.payloads = [] ∧ (team1 addr1).bundleOf 0 = [0] ∧
    canonical addr1.pc = true ∧ inWindow addr1.pc = false ∧ ((part1 addr1).ctx 1).desc.inBacking addr1.pc.toNat = false ∧
    (part1 addr1).cached? 0 1 (swapVa ((part1 addr1).ctx 1).swaps addr1.pc.toNat) = some codeEntry ∧ pteX codeEntry.pte = true ∧
    pteSt codeEntry.pte ≠ 0 ∧ inHbm (codeEntry.phys ((part1 addr1).ctx 1).swaps addr1.pc.toNat) = true ∧ (part1 addr1).badBlock? 65536 4 = none := by decide +kernel

/-- A thread at an ABSENT page. -/
theorem test_absent_fetch :
    let t := { addr1 with pc := 0x200000 }
    let s := tabled (part1 t)
    s.cached? 0 1 (swapVa (s.ctx 1).swaps t.pc.toNat) = none ∧ s.prqList = [] ∧ s.announceFull 1 (BitVec.ofNat 64 0x200000) false false = false ∧ s.wouldIssue (team1 t) 0 = true ∧
      s.slowWalk (team1 t) t.pc = false ∧ (s.ctx 1).desc.inBacking t.pc.toNat = false ∧
      (match s.walkIn 0 1 (swapVa (s.ctx 1).swaps t.pc.toNat) with
        | .leaf e => pteX e.pte && pteSt e.pte == 0
        | _ => false) = true := by decide +kernel

/-- A fetch whose translation is not cached, where a walk takes time: with a slot of the walker, and with none. -/
theorem test_fetch_walks :
    let s := { (part1 addr1).modCore 0 fun C => { C with tlb := [] } with walkDelay := 40 }
    s.wouldIssue (team1 addr1) 0 = true ∧ s.wouldIssue (team1 addr1) 1 = false ∧ s.fetchWalks (team1 addr1) addr1 = true ∧ s.walksIn 0 < 16 ∧
      16 ≤ ({ s with walks := List.replicate 16 { id := 3, cluster := 0, core := 0, ctx := 1, va := 0 } } : State).walksIn 0 := by decide +kernel

theorem test_bin :
    let b : Bin := { team := 1, pc := 65536, tids := [(0, 4936)] }
    let s := (part1 { addr1 with bundle := none }).modCore 0 fun C => { C with bins := [b] }
    (s.core 0).bins[0]? = some b ∧ s.drawable 0 b ≠ none ∧ s.team? b.team = some (team1 { addr1 with bundle := none }) ∧ b.tids ≠ [] := by decide +kernel

/-! ## Witnesses: containment -/

theorem test_containment :
    ((part1 addr1).core 255).fenced = false ∧ 15 ∉ ((part1 addr1).core 255).fencedSub ∧ ((part1 addr1).core 255).canStart = false ∧
    2 ≤ ({ fencedSub := [0, 1] } : Core).fencedSub.length ∧
    (let s := { part1 addr1 with clock := 64 * 1000 * 1750 }
     s.scanDue = true ∧ s.scanFrom 0 = some 0 ∧ s.inTransfer 0 = false) ∧
    (let s := { (part1 addr1).modCore 0 fun C => { C with drainAt := some 5000 } with scan := { at_ := some 0 }, clock := 2000000 }
     s.scan.at_ = some 0 ∧ (s.core 0).drainAt = some 5000 ∧ (s.core 0).scanAt = none ∧ s.drained 0 = true) ∧
    (let s := { (part1 addr1).modCore 0 fun C => { C with drainAt := some 5000, scanAt := some 6000 } with scan := { at_ := some 0 }, clock := 2000000 }
     s.scan.at_ = some 0 ∧ (s.core 0).drainAt = some 5000 ∧ (s.core 0).scanAt = some 6000 ∧ 6000 + 48 * 1750 ≤ s.clock) ∧
    (let s := { (part1 addr1).modCore 0 fun C => { C with drainAt := some 5000, seq := [{ id := 7, team := 1, tids := [], rows := [], op := .zero }] } with scan := { at_ := some 0 }, clock := 2000000 }
     (s.core 0).scanAt = none ∧ s.drained 0 = false ∧ 5000 + 1750000 ≤ s.clock) ∧
    (((part1 addr1).fenceSubs [256]).failedCores [256]).length ≤ 16 ∧ (((part1 addr1).fenceSubs (List.range 16)).failedCores (List.range 16)).length ≤ 16 ∧ 1 ≤ (1#8).toNat ∧ (4#8).toNat ≤ 4 := by decide +kernel

/-! ## Witnesses: words and steps -/

theorem test_words : (∃ w, encode (.add 3 1 2) = some w) ∧ (∃ i, decodeWord 0x28181040#32 = .ok i) ∧ (∃ i, decodeFilter 0x49880005#32 = some i) :=
  ⟨⟨_, rfl⟩, ⟨_, rfl⟩, ⟨_, rfl⟩⟩

theorem test_memory_invariant : State.reset.memOk ∧ ∃ t, step State.reset = .next t := ⟨by unfold State.memOk; decide +kernel, _, rfl⟩

/-- A bundle that issues the word at its page's start. -/
def issuing1 (w : Word) : State := (holding (part1 { addr1 with pc := 65536, lastPc := 0 }) 65536 (toBytes 4 w.toNat))

theorem test_step (w : Word) (h : w ∈ [0x28181040, 0x00000000]) :
    Quiet (issuing1 w) ∧ TakesSlot (issuing1 w) 1 0 (team1 addr1) 65536 ∧ Fetches (issuing1 w) (team1 addr1) 65536 w := by
  simp only [List.mem_cons, List.not_mem_nil, or_false] at h
  obtain rfl | rfl := h <;>
    exact ⟨⟨rfl, rfl, rfl, by decide +kernel, by decide +kernel⟩,
      ⟨by decide +kernel, rfl, ⟨0, addr1, by decide +kernel, rfl, rfl, rfl⟩, by decide +kernel, .inl rfl⟩,
      ⟨by decide +kernel, by decide +kernel, by decide +kernel, codeEntry, by decide +kernel, by decide, by decide, by decide +kernel,
        by decide +kernel, by decide +kernel⟩⟩

/-- The instruction or event answers a next state of which p holds. -/
def answers (r : Host.Outcome State Fault Refusal) (p : State → Bool) : Bool :=
  match r with
  | .next x => p x
  | .fault _ | .refused _ => false

theorem answers_next {r : Host.Outcome State Fault Refusal} {p : State → Bool} (h : answers r p = true) : ∃ x, r = .next x ∧ p x = true := by
  match r, h with
  | .next x, h => exact ⟨x, rfl, h⟩

/-- No die has anything to run where none has been touched. -/
theorem noRuns_of_dies {s : State} (h : (s.dies.isEmpty) = true) : s.noRuns := fun d => by
  have h1 : s.dies = [] := List.isEmpty_iff.mp h
  rw [State.die, h1]; rfl

/-- A bundle goes on with its instruction, with a trap of its illegal word; nothing is to do in an empty part. -/
theorem test_step_goes_on :
    (let s := (issuing1 0x28181040).issuing 1 0
     (s.gate (Instr.uses (.add 3 1 2))).2 = ([0], []) ∧
       ∃ x, exec (.add 3 1 2) ((s.gate (Instr.uses (.add 3 1 2))).1.issuedBy 1 [0]) = .next x ∧ x.noRuns) ∧
    (∃ x, exec (.illegalOpcode 0 .opcode) (((issuing1 0).issuing 1 0).issuedBy 1 ((team1 addr1).membersOf 0)) = .next x ∧ x.noRuns) ∧
    (let s : State := { noTeams (grid1 .retired none) [] with cores := [] }
     Quiet s ∧ s.lits.payloads = [] ∧ s.nextBundle? = none ∧ s.noRuns) := by
  refine ⟨⟨by decide +kernel, ?_⟩, ?_, ⟨rfl, rfl, rfl, by decide +kernel, by decide +kernel⟩, by decide +kernel, by decide +kernel, noRuns_of_dies rfl⟩
  · obtain ⟨x, h, hx⟩ := answers_next (p := fun x => x.dies.isEmpty)
      (r := exec (.add 3 1 2) (((issuing1 0x28181040).issuing 1 0 |>.gate (Instr.uses (.add 3 1 2))).1.issuedBy 1 [0])) (by decide +kernel)
    exact ⟨x, h, noRuns_of_dies hx⟩
  · obtain ⟨x, h, hx⟩ := answers_next (p := fun x => x.dies.isEmpty)
      (r := exec (.illegalOpcode 0 .opcode) (((issuing1 0).issuing 1 0).issuedBy 1 ((team1 addr1).membersOf 0))) (by decide +kernel)
    exact ⟨x, h, noRuns_of_dies hx⟩

/-- A part in which a filter run of die 0 has the word ymovi y3, 5 at hand, and nothing else is to do. -/
def filtering : State :=
  let r := (yRunning noCore (Vector.replicate 16 0) { program with words := [0x61800005, 0] }).modYarrow 0 fun y => { y with window := 4 }
  { noTeams (grid1 .retired none) [] with cores := [], dies := r.dies }

theorem test_step_filters :
    Quiet filtering ∧ filtering.lits.payloads = [] ∧ filtering.nextBundle? = none ∧ (∀ c, (filtering.core c).sampler.count = 0) ∧
    (∃ a x, { filtering with filterDie := 0 }.yAt? = some a ∧ decodeFilter (a.p.words.getD a.r.pc 0) = some (.ymovi 3 5) ∧
      exec (.ymovi 3 5) { filtering with filterDie := 0 } = .next x ∧
      ∀ e, e ≠ 0 → (filtering.die e).yarrow.run = none ∧ (filtering.die e).yarrow.fifo = [] ∧ (x.die e).yarrow.run = none) := by
  refine ⟨⟨rfl, rfl, rfl, by decide +kernel, by decide +kernel⟩, by decide +kernel, by decide +kernel, fun _ => rfl, _, _, rfl, rfl, rfl, ?_⟩
  intro e he
  have h : ∀ D : Die, tget ({} : Die) e [(0, D)] = {} := fun D => by simp [tget, tget?, he.symm]
  refine ⟨congrArg (fun D => D.yarrow.run) (h _), congrArg (fun D => D.yarrow.fifo) (h _), congrArg (fun D => D.yarrow.run) (h _)⟩

/-- A part whose bring-up has failed, to which the host makes a read; one that has met a part-class error, one right after part reset; and
an event from outside. -/
theorem test_step_ends :
    State.reset.agenda = [] ∧ State.reset.regs.bootReady = false ∧ State.reset.regs.bootFail = 0 ∧ State.reset.regs.bootFatal = false ∧
    State.reset.lits.payloads = [] ∧ (part1 addr1).regs.bootReady = true ∧
    (let s : State := { State.reset with regs := { bootFail := 3 }, agenda := [.hostRead 65536 4] }
     s.regs.bootFail ≠ 0 ∧ s.regs.bootReady = false ∧ isPartReset (.hostRead 65536 4) = false ∧
       runEvent (.hostRead 65536 4) { s with agenda := [] } = .next ({ s with agenda := [] }.emit .unsupported)) ∧
    ({ part1 addr1 with regs := { bootReady := true, bootFatal := true } } : State).regs.bootFatal = true ∧
    (part1 addr1).dueOnTime = [] ∧ (part1 addr1).viaQueues = false ∧ isPartReset (.storeArrival 9 1) = false ∧
    ∃ x, runEvent (.storeArrival 9 1) ((part1 addr1).walked (.storeArrival 9 1)) = .next x ∧ x.noRuns := by
  refine ⟨rfl, rfl, rfl, rfl, rfl, rfl, ⟨by decide, rfl, rfl, rfl⟩, rfl, by decide +kernel, rfl, rfl, ?_⟩
  obtain ⟨x, h, hx⟩ := answers_next (p := fun x => x.dies.isEmpty)
    (r := runEvent (.storeArrival 9 1) ((part1 addr1).walked (.storeArrival 9 1))) (by decide +kernel)
  exact ⟨x, h, noRuns_of_dies hx⟩

/-! ## The spec's own examples -/

/-- Words that the instruction sections give (R133 to R163). -/
theorem test_example_words1 :
    decodeWord 0x280C0820#32 = .ok (.add 3 1 2) ∧ decodeWord 0x28142817#32 = .ok (.shr 5 5 1) ∧
    decodeWord 0x281C409F#32 = .ok (.mulhiU 7 8 9) ∧ decodeWord 0x2A103072#32 = .ok (.mulwU 4 6 7) ∧
    decodeWord 0x2A0C207B#32 = .ok (.extS 3 4 7) ∧ decodeWord 0x402020AB#32 = .ok (.lea 8 4 10 3) ∧
    decodeWord 0x2C0C205A#32 = .ok (.sel 3 4 5 true 2) ∧ decodeWord 0x2F282061#32 = .ok (.isetX .geu 2 4 6) ∧
    decodeWord 0x30A42000#32 = .ok (.iseti .ge 1 4 0) ∧ decodeWord 0x26041030#32 = .ok (.pand 1 2 3) ∧
    decodeWord 0x56182055#32 = .ok (.ffma 6 4 5 false true .rz) ∧ decodeWord 0x5C041842#32 = .ok (.fset .lt 1 3 4) := by and_intros <;> rfl

theorem test_example_words2 :
    decodeWord 0x5E0C180A#32 = .ok (.rndd 3 3) ∧ decodeWord 0x60102812#32 = .ok (.fcvtI32F32 4 5 .rz) ∧
    decodeWord 0x60183809#32 = .ok (.fcvtBf16hF32 6 7 .rn) ∧ decodeWord 0x62304000#32 = .ok (.pk8 12 8 .rn .e4m3) ∧
    decodeWord 0x66504030#32 = .ok (.pk6 20 8 .rz .e2m3) ∧ decodeWord 0x6860A000#32 = .ok (.upk6 24 20 .e3m2) ∧
    decodeWord 0x6A0C2055#32 = .ok (.hfma2F16 3 4 5) ∧ decodeWord 0x6C143010#32 = .ok (.scx 5 6 .e5m2) ∧
    decodeWord 0x720C47FF#32 = .ok (.ldBs 3 8 0x7FF) ∧ decodeWord 0x86404002#32 = .ok (.stQ 16 8 2) ∧
    decodeWord 0x88103320#32 = .ok (.ldm 4 6 .acq .pkg .w 0) ∧ decodeWord 0x8A080568#32 = .ok (.stm 2 0 .rel .sys .x 0) := by and_intros <;> rfl

theorem test_example_words3 :
    decodeWord 0x96103089#32 = .ok (.atomP 4 6 8 .cas) ∧ decodeWord 0x9A003050#32 = .ok (.redD 6 5 .add) ∧
    decodeWord 0xA40C3080#32 = .ok (.smap 3 6 8) ∧ decodeWord 0x8E0C3051#32 = .ok (.pgreqNp 3 6 5) ∧
    decodeWord 0xB0083802#32 = .ok (.barWait 2 7) ∧ decodeWord 0xB2103034#32 = .ok (.tbtest 4 6 3) ∧
    decodeWord 0xB5F003E0#32 = .ok (.waitc 31 0 0 31) ∧ decodeWord 0xB6080003#32 = .ok (.waitb 2 3) ∧
    decodeWord 0xAA140070#32 = .ok (.mwait 5 7) ∧ decodeWord 0xC4180187#32 = .ok (.tmma 3 0 3 .bf16 true true true) ∧
    decodeWord 0xCA301850#32 = .ok (.trd 12 3 5) ∧ decodeWord 0xD00040A0#32 = .ok (.tlda 8 10) := by and_intros <;> rfl

/-- `movi g13, 0xFF800000` and `ld.w g4, [g0.x + 8192]`, each with its LIT (R59). -/
theorem test_example_literals :
    decodeWord 0xFFFFFFE0#32 = .ok (.lit 0x1FFFFE0) ∧ decodeWord 0x3E340000#32 = .ok (.movi 13 0) ∧
    (widened [0x1FFFFE0#25] 0#18 true).setWidth 32 = 0xFF800000#32 ∧ decodeWord 0xFE000001#32 = .ok (.lit 1) ∧
    decodeWord 0x78100000#32 = .ok (.ldW 4 0 0) ∧ widened [1#25] 0#11 true * 4 = 8192 := by
  refine ⟨rfl, rfl, ?_, rfl, rfl, ?_⟩ <;> decide +kernel

/-- Thread 0 of team 1 after an instruction that it issues alone. -/
def after (i : Instr) (t : Thread) : Option Thread :=
  match exec i (part1 t) with
  | .next u => u.thread? 1 0
  | .fault _ | .refused _ => none

/-- The bit fields of R139, ABS of the most negative number, shifts by 32, the division by ten of R144's section. -/
theorem test_integer_examples :
    (after (.bfeU 8 4 5) (thread1 [(4, 0x00ABCD00), (5, 0x0808)])).map (fun t => t.g 8) = some 0xCD ∧
    (after (.bfeS 8 4 5) (thread1 [(4, 0x00ABCD00), (5, 0x0808)])).map (fun t => t.g 8) = some 0xFFFFFFCD ∧
    (after (.bfi 8 4 5) (thread1 [(4, 0x12), (5, 0x0808), (8, 0xFFFFFFFF)])).map (fun t => t.g 8) = some 0xFFFF12FF ∧
    (after (.abs 8 4) (thread1 [(4, 0x80000000)])).map (fun t => t.g 8) = some 0x80000000 ∧
    (after (.shl 4 4 5) (thread1 [(4, 1), (5, 32)])).map (fun t => t.g 4) = some 0 ∧
    (after (.sar 4 4 5) (thread1 [(4, 0x80000000), (5, 32)])).map (fun t => t.g 4) = some 0xFFFFFFFF ∧
    (after (.mulhiU 8 4 5) (thread1 [(4, 1000), (5, 0xCCCCCCCD)])).map (fun t => t.g 8) = some 800 := by decide +kernel

/-- The CALL of the division program, from the word before 0x10_0000_0010: its link word stands below the callee's window. -/
theorem test_call_example :
    (after (.call 4 4) { thread1 [] with pc := 0x100000000C }).map (fun t => (t.wb, t.pc, t.at 2, t.at 3)) =
      some (4, 0x100000001C, 0x00000010, 0x08000010) := by decide +kernel

/-- The conversions of R160's section: 500.0, −1.5, 0.05 and 125.0 to E4M3; −0.7 to an unsigned integer under RZ and RN; 3.0 × 10^9. -/
theorem test_conversion_examples :
    (after (.pk8 12 8 .rn .e4m3) (thread1 [(8, 0x43FA0000), (9, 0xBFC00000), (10, 0x3D4CCCCD), (11, 0x42FA0000)])).map
      (fun t => (t.g 12, t.fpflags)) = some (0x7015BC7E, flagOF ||| flagNX) ∧
    (after (.fcvtUi32F32 8 4 .rz) (thread1 [(4, 0xBF333333)])).map (fun t => (t.g 8, t.fpflags)) = some (0, flagNX) ∧
    (after (.fcvtUi32F32 8 4 .rn) (thread1 [(4, 0xBF333333)])).map (fun t => (t.g 8, t.fpflags)) = some (0, flagNV) ∧
    (after (.fcvtI32F32 8 4 .rn) (thread1 [(4, 0x4F32D05E)])).map (fun t => (t.g 8, t.fpflags)) = some (0x7FFFFFFF, flagNV) ∧
    (after (.sca 8 4 5) (thread1 [(4, 0x447A0000), (5, 126)])).map (fun t => (t.g 8, t.fpflags)) = some (0x43FA0000, 0) := by decide +kernel

/-- The row results of R322, and R51's scaled addition. -/
theorem test_row_examples :
    rowSsq (List.replicate 32 0x40400000) = (0x43900000, 0) ∧ rowSum (List.replicate 32 0x40400000) = (0x42C00000, 0) ∧
    rowSum (0x4B800000 :: List.replicate 31 0x3F800000) = (0x4B800000, flagNX) ∧
    tscaleElement 0x3F800000 0x40400000 129 122 = (0x3FB00000, {}) := by decide +kernel

/-- The bundle of the group example: lanes 0, 1, 2, 3, 5 and 7, with keys in g4 and p1 in lanes 3 and 7. -/
def group8 : State :=
  let t (k : Word) (p : BitVec 8) : Thread := { thread1 [(4, k), (5, 1)] with preds := p }
  partOf { team1 addr1 with threads := [t 10 0, t 20 0, t 10 0, t 30 2, t 40 0, t 10 0, t 40 0, t 20 2] } [0, 1, 2, 3, 5, 7]

def inLanes (i : Instr) (f : Thread → Word) : List (Option Word) :=
  match exec i group8 with
  | .next u => [0, 1, 2, 3, 5, 7].map fun j => (u.thread? 1 j).map f
  | .fault _ | .refused _ => []

theorem test_group_example :
    inLanes (.actmask 6) (fun t => t.g 6) = List.replicate 6 (some 0xAF) ∧
    inLanes (.voteBal 9 1) (fun t => t.g 9) = List.replicate 6 (some 0x88) ∧
    inLanes (.electS 3 2 1) (fun t => t.g 3 + if t.p 2 then 100 else 0) = [some 3, some 3, some 3, some 103, some 3, some 3] ∧
    inLanes (.matchW 8 4) (fun t => t.g 8) = [some 0x25, some 0x82, some 0x25, some 0x08, some 0x25, some 0x82] ∧
    inLanes (.shflXor 7 4 5) (fun t => t.g 7) = [some 20, some 10, some 30, some 10, some 10, some 20] := by decide +kernel

/-- withFetchWord stands for the load of a program: the first step from reset runs its word (log 8). -/
theorem test_first_word :
    (match step (State.reset.withFetchWord 32 0x3E50C350) with
      | .next t => (t.thread? 2 0).map (fun t => (t.g 20, t.pc.toNat % 65536))
      | .fault _ | .refused _ => none) = some (0xC350, 4) := by decide +kernel

/-! ## Well-formed instructions: what each check refuses -/

theorem test_ill_formed1 :
    Instr.wf (.call 0 8) = false ∧ Instr.wf (.call 3 8) = false ∧ Instr.wf (.callr 5 2) = false ∧ Instr.wf (.jmpr 5) = false ∧
    Instr.wf (.srd 4 11) = false ∧ Instr.wf (.srd 5 14) = false ∧ Instr.wf (.swr 0 4) = false ∧ Instr.wf (.rdcnt 4 16) = false ∧
    Instr.wf (.launch 4 6 6) = false ∧ Instr.wf (.mulwS 5 1 2) = false ∧ Instr.wf (.isetX .eq 1 5 4) = false ∧
    Instr.wf (.lea 4 6 1 5) = false ∧ Instr.wf (.pk8 4 6 .rn .e4m3) = false ∧ Instr.wf (.upk8 6 4 .e4m3) = false ∧
    Instr.wf (.pk6 4 12 .rn .e3m2) = false ∧ Instr.wf (.upk6 4 6 .e3m2) = false := by decide

theorem test_ill_formed2 :
    Instr.wf (.ldX 5 4 0) = false ∧ Instr.wf (.ldQ 6 4 0) = false ∧ Instr.wf (.stW 4 5 0) = false ∧
    Instr.wf (.ldm 4 6 .rel .sys .w 0) = false ∧ Instr.wf (.ldm 4 6 .acq .unscoped .w 0) = false ∧
    Instr.wf (.stm 4 6 .acq .sys .w 0) = false ∧ Instr.wf (.stm 4 6 .plain .unscoped .bs 0) = false ∧
    Instr.wf (.atomD 4 6 5 .cas) = false ∧ Instr.wf (.atomD 5 6 4 .addX) = false ∧ Instr.wf (.redD 6 4 .xchg) = false ∧
    Instr.wf (.stfl 5 4 6 true .die) = false ∧ Instr.wf (.stfl 4 4 6 true .unscoped) = false ∧ Instr.wf (.redn 6 4 2 .fadd) = false ∧
    Instr.wf (.pub 4 6 6) = false ∧ Instr.wf (.fence false false false false false .sys) = false ∧
    Instr.wf (.fence true false false true false .sys) = false ∧ Instr.wf (.fence false false false true false .unscoped) = false := by decide

theorem test_ill_formed3 :
    Instr.wf (.tberr 6 4) = false ∧ Instr.wf (.waitb 0 0) = false ∧ Instr.wf (.trd 6 0 4) = false ∧ Instr.wf (.tcvt 0 0 0 .cb4 false) = false ∧
    Instr.wf (.tscale 0 1 12) = false ∧ Instr.wf (.tscale 0 1 120) = false ∧ Instr.wf (.cbld 0 12) = false ∧ Instr.wf (.rldX 5 0 0) = false ∧
    Instr.wf (.pin 5 0) = false ∧ Instr.wf (.rput 0 5) = false ∧ Instr.wf (.ybr .eq 0 0 0) = false ∧ Instr.wf (.ybr .eq 0 0 64) = false ∧
    Instr.wf (.ybr .al 1 0 1) = false ∧ Instr.wf (.yrds 0 5) = false := by decide

end Sys2Proof.Tests
end

section
/-! SUPPORT. The value of each integer operation of the model in closed form: shifts, order, products, bits and fields (R135 to R143),
and immediates after LIT words (R59). -/

namespace Sys2Proof.Machine

/-! ## Shifts whose amount is not masked (R135, R139) -/

theorem shlBy_eq_shiftLeft {w : Nat} (x : BitVec w) (n : Nat) : shlBy x n = x <<< n := by
  unfold shlBy
  split
  · next h => exact (BitVec.shiftLeft_eq_zero h).symm
  · rfl

theorem shrBy_eq_ushiftRight {w : Nat} (x : BitVec w) (n : Nat) : shrBy x n = x >>> n := by
  unfold shrBy
  split
  · next h => exact (BitVec.ushiftRight_eq_zero h).symm
  · rfl

theorem sarBy_eq_sshiftRight {w : Nat} (x : BitVec w) (n : Nat) : sarBy x n = x.sshiftRight n := by
  unfold sarBy
  split
  · next h =>
    apply BitVec.eq_of_getLsbD_eq
    intro i _
    simp only [BitVec.getLsbD_sshiftRight]
    rw [if_neg (by omega), if_neg (by omega)]
  · rfl

theorem shlBy_eq_ofNat {w : Nat} (x : BitVec w) (n : Nat) : shlBy x n = BitVec.ofNat w (x.toNat * 2 ^ n) := by
  apply BitVec.eq_of_toNat_eq
  rw [shlBy_eq_shiftLeft, BitVec.toNat_shiftLeft, BitVec.toNat_ofNat, Nat.shiftLeft_eq]

theorem shrBy_eq_ofNat {w : Nat} (x : BitVec w) (n : Nat) : shrBy x n = BitVec.ofNat w (x.toNat / 2 ^ n) := by
  apply BitVec.eq_of_toNat_eq
  rw [shrBy_eq_ushiftRight, BitVec.toNat_ushiftRight, BitVec.toNat_ofNat, Nat.shiftRight_eq_div_pow,
    Nat.mod_eq_of_lt (Nat.lt_of_le_of_lt (Nat.div_le_self _ _) x.isLt)]

theorem sarBy_eq_ofInt {w : Nat} (x : BitVec w) (n : Nat) : sarBy x n = BitVec.ofInt w (x.toInt / 2 ^ n) := by
  rw [sarBy_eq_sshiftRight, BitVec.sshiftRight, Int.shiftRight_eq_div_pow, Int.natCast_pow]
  rfl

theorem rolBy_eq_rotateLeft {x : Word} {n : Nat} (h : n < 32) : rolBy x n = x.rotateLeft n := by
  rw [BitVec.rotateLeft_def, Nat.mod_eq_of_lt h, rolBy, shlBy_eq_shiftLeft, shrBy_eq_ushiftRight]
  split
  · next h0 => rw [h0, BitVec.shiftLeft_zero, BitVec.ushiftRight_eq_zero (Nat.le_refl 32), BitVec.or_zero]
  · rfl

/-! ## Order and sign (R135, R137) -/

theorem ite_sle_eq_ofInt_min {w : Nat} (x y : BitVec w) :
    (if x.sle y then x else y) = BitVec.ofInt w (min x.toInt y.toInt) := by
  split
  · next h => rw [Int.min_eq_left (BitVec.sle_iff_toInt_le.1 h), BitVec.ofInt_toInt]
  · next h => rw [Int.min_eq_right (Int.le_of_not_le fun o => h (BitVec.sle_iff_toInt_le.2 o)), BitVec.ofInt_toInt]

theorem ite_sle_eq_ofInt_max {w : Nat} (x y : BitVec w) :
    (if y.sle x then x else y) = BitVec.ofInt w (max x.toInt y.toInt) := by
  split
  · next h => rw [Int.max_eq_left (BitVec.sle_iff_toInt_le.1 h), BitVec.ofInt_toInt]
  · next h => rw [Int.max_eq_right (Int.le_of_not_le fun o => h (BitVec.sle_iff_toInt_le.2 o)), BitVec.ofInt_toInt]

theorem ite_ule_eq_ofNat_min {w : Nat} (x y : BitVec w) :
    (if x.ule y then x else y) = BitVec.ofNat w (min x.toNat y.toNat) := by
  split
  · next h => rw [Nat.min_eq_left (BitVec.ule_iff_toNat_le.1 h), BitVec.ofNat_toNat, BitVec.setWidth_eq]
  · next h => rw [Nat.min_eq_right (Nat.le_of_not_le fun o => h (BitVec.ule_iff_toNat_le.2 o)), BitVec.ofNat_toNat, BitVec.setWidth_eq]

theorem ite_ule_eq_ofNat_max {w : Nat} (x y : BitVec w) :
    (if y.ule x then x else y) = BitVec.ofNat w (max x.toNat y.toNat) := by
  split
  · next h => rw [Nat.max_eq_left (BitVec.ule_iff_toNat_le.1 h), BitVec.ofNat_toNat, BitVec.setWidth_eq]
  · next h => rw [Nat.max_eq_right (Nat.le_of_not_le fun o => h (BitVec.ule_iff_toNat_le.2 o)), BitVec.ofNat_toNat, BitVec.setWidth_eq]

theorem ite_msb_neg_eq_ofInt_natAbs {w : Nat} (x : BitVec w) :
    (if x.msb then -x else x) = BitVec.ofInt w x.toInt.natAbs := by
  cases h : x.msb with
  | true =>
    have : (x.toInt.natAbs : Int) = -x.toInt := Int.ofNat_natAbs_of_nonpos (Int.le_of_lt (BitVec.toInt_neg_of_msb_true h))
    rw [this, BitVec.ofInt_neg, BitVec.ofInt_toInt, if_pos rfl]
  | false =>
    have : (x.toInt.natAbs : Int) = x.toInt := Int.natAbs_of_nonneg (BitVec.toInt_nonneg_of_msb_false h)
    rw [this, BitVec.ofInt_toInt, if_neg (by decide)]

/-! ## Products -/

theorem signExtend_mul_signExtend {w : Nat} (v : Nat) (x y : BitVec w) :
    x.signExtend v * y.signExtend v = BitVec.ofInt v (x.toInt * y.toInt) := (BitVec.ofInt_mul _ _).symm

theorem setWidth_mul_setWidth {w : Nat} (v : Nat) (x y : BitVec w) :
    x.setWidth v * y.setWidth v = BitVec.ofNat v (x.toNat * y.toNat) := by
  rw [BitVec.ofNat_mul, BitVec.ofNat_toNat, BitVec.ofNat_toNat]

theorem ofInt_two_pow (w k : Nat) : BitVec.ofInt w (2 ^ k) = BitVec.twoPow w k := by
  have cast : (2 ^ k : Int) = (2 ^ k : Nat) := (Int.natCast_pow 2 k).symm
  apply BitVec.eq_of_toNat_eq
  rw [cast, BitVec.ofInt_natCast, BitVec.toNat_ofNat, BitVec.toNat_twoPow]

/-- The address of LEA: the index is signed before it is scaled. -/
theorem add_signExtend_shiftLeft {w v : Nat} (x : BitVec v) (y : BitVec w) (k : Nat) :
    x + (y.signExtend v <<< k) = BitVec.ofInt v (x.toInt + y.toInt * 2 ^ k) := by
  rw [BitVec.ofInt_add, BitVec.ofInt_mul, BitVec.ofInt_toInt, BitVec.shiftLeft_eq_mul_twoPow, ofInt_two_pow, BitVec.signExtend]

/-! ## Bits (R137) -/

theorem clz32_eq_clz (x : Word) : clz32 x = x.clz := by
  unfold clz32
  split
  · next h => exact (BitVec.clz_eq_iff_eq_zero.2 h).symm
  · next h =>
    have lower : 2 ^ (31 - x.clz.toNat) ≤ x.toNat := BitVec.two_pow_sub_clz_le_toNat_of_ne_zero (by decide) h
    have small : x.clz.toNat < 32 := BitVec.clz_lt_iff_ne_zero.2 h
    have upper : x.toNat < 2 ^ (31 - x.clz.toNat + 1) := by
      rw [show 31 - x.clz.toNat + 1 = 32 - x.clz.toNat by omega]
      exact x.toNat_lt_two_pow_sub_clz
    have log : x.toNat.log2 = 31 - x.clz.toNat :=
      (Nat.log2_eq_iff (Nat.ne_of_gt (Nat.lt_of_lt_of_le (Nat.two_pow_pos _) lower))).2 ⟨lower, upper⟩
    rw [log, show 31 - (31 - x.clz.toNat) = x.clz.toNat by omega, BitVec.ofNat_toNat, BitVec.setWidth_eq]

theorem popc32_eq_countP (x : Word) : popc32 x = BitVec.ofNat 32 ((List.range 32).countP fun k => x.getLsbD k) := by
  rw [popc32, List.countP_eq_length_filter]

/-- BREV after its first n rounds: the n low bits of x, in reverse order. -/
def brevFirst (x : Word) (n : Nat) : Word :=
  (List.range n).foldl (fun r k => (r <<< 1) ||| (if x.getLsbD k then 1 else 0)) 0

theorem brevFirst_succ (x : Word) (n : Nat) :
    brevFirst x (n + 1) = (brevFirst x n <<< 1) ||| (if x.getLsbD n then 1 else 0) := by
  simp only [brevFirst, List.range_succ, List.foldl_append, List.foldl_cons, List.foldl_nil]

theorem getLsbD_ite_one (b : Bool) (k : Nat) : (if b then 1 else 0 : Word).getLsbD k = (decide (k = 0) && b) := by
  cases b with
  | true => rw [if_pos rfl, Bool.and_true]; exact BitVec.getLsbD_one
  | false => rw [if_neg Bool.false_ne_true, Bool.and_false]; exact BitVec.getLsbD_zero

theorem getLsbD_brevFirst (x : Word) (n k : Nat) (hk : k < 32) :
    (brevFirst x n).getLsbD k = (decide (k < n) && x.getLsbD (n - 1 - k)) := by
  induction n generalizing k with
  | zero => exact BitVec.getLsbD_zero
  | succ n ih =>
    rw [brevFirst_succ, BitVec.getLsbD_or, BitVec.getLsbD_shiftLeft, getLsbD_ite_one]
    cases k with
    | zero => rfl
    | succ k =>
      rw [Nat.add_sub_cancel, ih k (by omega), show n - 1 - k = n + 1 - 1 - (k + 1) by omega]
      simp only [hk, show ¬ k + 1 < 1 by omega, Nat.add_lt_add_iff_right, Nat.succ_ne_zero, decide_true, decide_false, Bool.not_false,
        Bool.true_and, Bool.false_and, Bool.or_false]

theorem brev32_eq_reverse (x : Word) : brev32 x = x.reverse := by
  apply BitVec.eq_of_getLsbD_eq
  intro k hk
  rw [BitVec.getLsbD_reverse, BitVec.getMsbD_eq_getLsbD]
  exact getLsbD_brevFirst x 32 k hk

/-! ## Extensions and bit fields (R136, R138) -/

theorem extBits_signed {x : Word} {n : Nat} (h0 : 0 < n) (h : n ≤ 32) :
    extBits x n true = (x.setWidth n).signExtend 32 := by
  apply BitVec.eq_of_getLsbD_eq
  intro i hi
  rw [BitVec.getLsbD_signExtend, BitVec.msb_eq_getLsbD_last]
  simp only [extBits, if_true, BitVec.getLsbD_sshiftRight, BitVec.msb_eq_getLsbD_last, BitVec.getLsbD_shiftLeft,
    BitVec.getLsbD_setWidth]
  by_cases hn : i < n
  · rw [if_pos hn, if_pos (by omega), show 32 - n + i - (32 - n) = i by omega]
    simp only [hi, hn, show ¬ 32 ≤ i by omega, show 32 - n + i < 32 by omega, show ¬ 32 - n + i < 32 - n by omega, decide_true,
      decide_false, Bool.not_false, Bool.true_and]
  · rw [if_neg hn, if_neg (by omega), show 32 - 1 - (32 - n) = n - 1 by omega]
    simp only [hi, show ¬ 32 ≤ i by omega, show 32 - 1 < 32 by omega, show ¬ 32 - 1 < 32 - n by omega,
      show n - 1 < n by omega, decide_true, decide_false, Bool.not_false, Bool.true_and]

theorem extBits_unsigned {x : Word} {n : Nat} (h : n ≤ 32) : extBits x n false = (x.setWidth n).setWidth 32 := by
  apply BitVec.eq_of_getLsbD_eq
  intro i hi
  simp only [extBits, Bool.false_eq_true, if_false, BitVec.getLsbD_ushiftRight, BitVec.getLsbD_shiftLeft, BitVec.getLsbD_setWidth,
    show 32 - n + i - (32 - n) = i by omega]
  by_cases hn : i < n
  · simp only [hi, hn, show 32 - n + i < 32 by omega, show ¬ 32 - n + i < 32 - n by omega, decide_true, decide_false, Bool.not_false,
      Bool.true_and]
  · simp only [hn, show ¬ 32 - n + i < 32 by omega, decide_false, Bool.false_and, Bool.and_false]

theorem bfLen_le (y : Word) : bfLen y ≤ 32 := Nat.le_trans (Nat.min_le_right _ _) (Nat.sub_le _ _)

theorem bitExtract_signed (x y : Word) :
    bitExtract x y true = ((x >>> bfPos y).setWidth (bfLen y)).signExtend 32 := by
  unfold bitExtract
  split
  · next h => rw [h, BitVec.eq_nil (BitVec.setWidth 0 _)]; rfl
  · next h => exact extBits_signed (Nat.pos_of_ne_zero h) (bfLen_le y)

theorem bitExtract_unsigned (x y : Word) :
    bitExtract x y false = ((x >>> bfPos y).setWidth (bfLen y)).setWidth 32 := by
  unfold bitExtract
  split
  · next h => rw [h, BitVec.eq_nil (BitVec.setWidth 0 _)]; rfl
  · exact extBits_unsigned (bfLen_le y)

theorem getLsbD_bitInsert (z x y : Word) {k : Nat} (hk : k < 32) : (bitInsert z x y).getLsbD k =
    if bfPos y ≤ k ∧ k < bfPos y + bfLen y then x.getLsbD (k - bfPos y) else z.getLsbD k := by
  unfold bitInsert
  split
  · next h => rw [if_neg (by omega)]
  · simp only [BitVec.getLsbD_or, BitVec.getLsbD_and, BitVec.getLsbD_not, BitVec.getLsbD_shiftLeft, BitVec.getLsbD_ofNat,
      Nat.testBit_two_pow_sub_one]
    by_cases h1 : k < bfPos y
    · rw [if_neg (by omega)]
      simp only [h1, hk, decide_true, Bool.not_true, Bool.not_false, Bool.and_false, Bool.false_and, Bool.and_true, Bool.or_false]
    · by_cases h2 : k < bfPos y + bfLen y
      · rw [if_pos (by omega)]
        simp only [h1, hk, show k - bfPos y < 32 by omega, show k - bfPos y < bfLen y by omega, decide_true, decide_false,
          Bool.not_true, Bool.not_false, Bool.and_false, Bool.false_or, Bool.true_and, Bool.and_true]
      · rw [if_neg (by omega)]
        simp only [h1, hk, show ¬ k - bfPos y < bfLen y by omega, decide_true, decide_false, Bool.not_false, Bool.and_false,
          Bool.true_and, Bool.and_true, Bool.or_false]

/-! ## Immediates (R59) -/

theorem ofInt_immValue {n : Nat} (l : List (BitVec 25)) (f : BitVec n) (signed : Bool) :
    BitVec.ofInt 64 (immValue l f signed) = widened l f signed := by
  match l with
  | [] =>
    cases signed with
    | true => rfl
    | false => exact (BitVec.ofInt_natCast 64 f.toNat).trans (BitVec.ofNat_toNat 64 f)
  | [p] =>
    rw [widened, BitVec.signExtend, BitVec.toInt_append, immValue, if_neg (by decide), Int.mul_comm]
  | p :: q :: r =>
    have value : p.toInt * 2 ^ (25 + n) + q.toNat * 2 ^ n + f.toNat = 2 ^ n * (2 ^ 25 * p.toInt + q.toNat) + f.toNat := by
      rw [Int.pow_add, Int.mul_add, ← Int.mul_assoc, Int.mul_comm (2 ^ n) q.toNat, Int.mul_comm (2 ^ n), Int.mul_comm p.toInt]
    rw [widened, BitVec.signExtend, BitVec.toInt_append, BitVec.toInt_append, immValue, if_neg (by decide), if_neg (by decide), value]

theorem setWidth_ofInt {v w : Nat} (h : v ≤ w) (z : Int) : (BitVec.ofInt w z).setWidth v = BitVec.ofInt v z := by
  apply BitVec.eq_of_toInt_eq
  rw [← BitVec.signExtend_eq_setWidth_of_le _ h, BitVec.signExtend, BitVec.toInt_ofInt, BitVec.toInt_ofInt, BitVec.toInt_ofInt,
    Int.bmod_bmod_of_dvd (Nat.pow_dvd_pow 2 h)]

theorem State.imm64_eq_immX (s : State) {n : Nat} (f : BitVec n) : s.imm64 f = s.immX f := ofInt_immValue _ _ _

theorem State.imm32_eq_immW (s : State) {n : Nat} (f : BitVec n) (signed : Bool) : s.imm32 f signed = s.immW f signed := by
  rw [State.immW, ← ofInt_immValue, setWidth_ofInt (by decide), State.imm32]

end Sys2Proof.Machine
end

section
/-! SUPPORT. The integer instructions in every lane, with their values in closed form: the statements of R134 to R143. -/

namespace Sys2Proof.Machine

/-- The value of a one-register instruction may be given by any equal function of the thread. -/
theorem Lanes.writesReg {i : Instr} {s : State} {d : BitVec 7} {f v : Thread → Word} (h : exec i s = .next (s.mapG d f))
    (hv : ∀ T, f T = v T) : Lanes i s fun _ T => WritesReg d (v T) T :=
  funext hv ▸ Lanes.of_mapG h

theorem Lanes.writesPair {i : Instr} {s : State} {d : BitVec 7} {f v : Thread → DWord} (h : exec i s = .next (s.mapGx d f))
    (hv : ∀ T, f T = v T) : Lanes i s fun _ T => WritesPair d (v T) T :=
  funext hv ▸ Lanes.of_mapGx h

theorem Lanes.imp {i : Instr} {s : State} {R Q : Nat → Thread → Thread → Prop} (h : Lanes i s R)
    (hq : ∀ j T T', R j T T' → Q j T T') : Lanes i s Q := by
  obtain ⟨t, ht, only, each⟩ := h
  refine ⟨t, ht, only, fun j hj T hT => ?_⟩
  obtain ⟨T', hT', r⟩ := each j hj T hT
  exact ⟨T', hT', hq j T T' r⟩

/-- BFI (R138): the field of g(d) that g(b) names comes from g(a), and the other bits of g(d) stay. -/
theorem lanes_bfi (s : State) (d a b : BitVec 7) :
    Lanes (.bfi d a b) s (fun _ T T' => WritesReg d (T'.g d) T T' ∧ ∀ k, k < 32 → (T'.g d).getLsbD k =
      if bfPos (T.g b) ≤ k ∧ k < bfPos (T.g b) + bfLen (T.g b) then (T.g a).getLsbD (k - bfPos (T.g b)) else (T.g d).getLsbD k) := by
  have h : Lanes (.bfi d a b) s fun _ T => WritesReg d (bitInsert (T.g d) (T.g a) (T.g b)) T := Lanes.of_mapG rfl
  refine h.imp fun _ T T' hw => ?_
  have value : T'.g d = bitInsert (T.g d) (T.g a) (T.g b) := hw.1
  rw [value]
  exact ⟨hw, fun k hk => getLsbD_bitInsert _ _ _ hk⟩

/-- SEL (R140): where the predicate, inverted or not, holds, the first source. -/
theorem ite_xor_eq_ite_ne (p inv : Bool) (x y : Word) :
    (if Bool.xor p inv then x else y) = if p ≠ inv then x else y := by
  cases p <;> cases inv <;> rfl

/-- Settles O1: each operation writes one register or pair in each lane, and its value is the closed form of the table. -/
theorem integerResults : Obligations.IntegerResults := by
  intro s d a b n
  exact ⟨
    Lanes.of_mapG rfl, Lanes.of_mapG rfl, Lanes.of_mapG rfl, Lanes.of_mapG rfl, Lanes.of_mapG rfl, Lanes.of_mapG rfl,
    Lanes.writesReg rfl fun _ => shlBy_eq_ofNat _ _,
    Lanes.writesReg rfl fun _ => shrBy_eq_ofNat _ _,
    Lanes.writesReg rfl fun _ => sarBy_eq_ofInt _ _,
    Lanes.writesReg rfl fun _ => ite_sle_eq_ofInt_min _ _,
    Lanes.writesReg rfl fun _ => ite_ule_eq_ofNat_min _ _,
    Lanes.writesReg rfl fun _ => ite_sle_eq_ofInt_max _ _,
    Lanes.writesReg rfl fun _ => ite_ule_eq_ofNat_max _ _,
    Lanes.of_mapG rfl, Lanes.of_mapG rfl, Lanes.of_mapG rfl, Lanes.of_mapG rfl,
    Lanes.writesPair rfl fun _ => signExtend_mul_signExtend 64 _ _,
    Lanes.writesPair rfl fun _ => setWidth_mul_setWidth 64 _ _,
    Lanes.writesReg rfl fun _ => ite_msb_neg_eq_ofInt_natAbs _,
    Lanes.writesReg rfl fun _ => clz32_eq_clz _,
    Lanes.writesReg rfl fun _ => popc32_eq_countP _,
    Lanes.writesReg rfl fun _ => brev32_eq_reverse _,
    Lanes.writesReg rfl fun _ => bitExtract_signed _ _,
    Lanes.writesReg rfl fun _ => bitExtract_unsigned _ _,
    lanes_bfi s d a b,
    Lanes.of_mapG rfl,
    Lanes.writesReg rfl fun _ => extBits_signed (Nat.succ_pos _) n.isLt,
    Lanes.writesReg rfl fun _ => extBits_unsigned n.isLt⟩

/-- Settles O2: an immediate is the field as the LIT words before it have widened it, and the 64-bit values are the closed forms of R139. -/
theorem immediateResults : Obligations.ImmediateResults := by
  refine ⟨fun s d a b imm n imm18 p inv => ?_, fun s d a b k => ?_⟩
  · exact ⟨
      Lanes.writesReg rfl fun _ => ite_xor_eq_ite_ne _ _ _ _,
      Lanes.writesReg rfl fun _ => s.imm32_eq_immW imm18 true,
      Lanes.writesReg rfl fun _ => congrArg _ (s.imm32_eq_immW imm true),
      Lanes.writesReg rfl fun _ => congrArg _ (s.imm32_eq_immW imm true),
      Lanes.writesReg rfl fun _ => congrArg _ (s.imm32_eq_immW imm false),
      Lanes.writesReg rfl fun _ => congrArg _ (s.imm32_eq_immW imm false),
      Lanes.writesReg rfl fun _ => congrArg _ (s.imm32_eq_immW imm false),
      Lanes.writesReg rfl fun _ => shlBy_eq_shiftLeft _ _,
      Lanes.writesReg rfl fun _ => shrBy_eq_ushiftRight _ _,
      Lanes.writesReg rfl fun _ => sarBy_eq_sshiftRight _ _,
      Lanes.writesReg rfl fun _ => rolBy_eq_rotateLeft n.isLt,
      Lanes.writesPair rfl fun _ => congrArg _ (s.imm64_eq_immX imm)⟩
  · exact ⟨
      Lanes.of_mapGx rfl, Lanes.of_mapGx rfl,
      Lanes.writesPair rfl fun _ => shlBy_eq_ofNat _ _,
      Lanes.writesPair rfl fun _ => shrBy_eq_ofNat _ _,
      Lanes.writesPair rfl fun _ => sarBy_eq_ofInt _ _,
      Lanes.of_mapGx rfl,
      Lanes.writesPair rfl fun _ => add_signExtend_shiftLeft _ _ _⟩

end Sys2Proof.Machine
end

section
/-! SUPPORT. The instructions that read across the lanes of a bundle: masks, the lowest lane and the source of a shuffle, as every lane
stood before any wrote (R70), and the statements of R191, R195 and R196. -/

namespace Sys2Proof.Machine

/-! ## Masks of lanes (R195) -/

theorem laneOf_lt (tid : Nat) : laneOf tid < 32 := Nat.mod_lt tid (by decide)

theorem getLsbD_foldl_or_lane (ls : List (Nat × Thread)) (m : Word) (k : Nat) :
    (ls.foldl (fun m x => m ||| (1#32 <<< laneOf x.1)) m).getLsbD k = (m.getLsbD k || ls.any fun x => laneOf x.1 == k) := by
  induction ls generalizing m with
  | nil => exact (Bool.or_false _).symm
  | cons x r ih =>
    have bit : (1#32 <<< laneOf x.1).getLsbD k = (laneOf x.1 == k) := by
      rw [← BitVec.twoPow_eq, BitVec.getLsbD_twoPow, decide_eq_true (laneOf_lt x.1), Bool.true_and]
      rfl
    rw [List.foldl_cons, ih, BitVec.getLsbD_or, bit, List.any_cons, Bool.or_assoc]

theorem getLsbD_maskOf (ls : List (Nat × Thread)) (k : Nat) :
    (maskOf ls).getLsbD k = ls.any fun x => laneOf x.1 == k := by
  rw [maskOf, getLsbD_foldl_or_lane, BitVec.ofNat_eq_ofNat, BitVec.getLsbD_zero, Bool.false_or]

theorem State.masks_maskWhere (s : State) (P : Thread → Bool) : s.masks (maskWhere s.lanes P) P := by
  intro k _
  simp only [maskWhere, getLsbD_maskOf, List.any_eq_true, List.mem_filter, beq_iff_eq]
  exact exists_congr fun x => and_assoc.trans (and_congr_right' and_comm)

theorem filter_every_lane (ls : List (Nat × Thread)) : (ls.filter fun _ => true) = ls :=
  List.filter_eq_self.2 fun _ _ => rfl

theorem maskWhere_true (ls : List (Nat × Thread)) : (maskWhere ls fun _ => true) = maskOf ls := by
  rw [maskWhere, filter_every_lane]

/-- The test may depend on the reading thread, as in MATCH. -/
theorem Lanes.of_maskWhere {i : Instr} {s : State} {d : BitVec 7} {P : Thread → Thread → Bool}
    (h : exec i s = .next (s.onLanes fun ls _ t => .done (t.setG d (maskWhere ls (P t))).next)) :
    Lanes i s fun _ T T' => WritesReg d (T'.g d) T T' ∧ s.masks (T'.g d) (P T) := by
  refine Lanes.of_onLanes h fun _ t _ _ => ⟨_, rfl, ?_⟩
  have hw := writesReg_setG t d (maskWhere s.lanes (P t))
  rw [hw.1]
  exact ⟨hw, s.masks_maskWhere (P t)⟩

/-! ## The elected lane (R191) -/

/-- A fold that keeps the thread of the lower lane finds the minimum of the lanes. -/
theorem leader?_cons_lane (ls : List (Nat × Thread)) (y : Nat × Thread) :
    ∃ z, leader? (y :: ls) = some z ∧ laneOf z.1 = (ls.map fun x => laneOf x.1).foldl min (laneOf y.1) := by
  induction ls generalizing y with
  | nil => exact ⟨y, rfl, rfl⟩
  | cons x r ih =>
    rw [List.map_cons, List.foldl_cons]
    by_cases h : laneOf x.1 < laneOf y.1
    · obtain ⟨z, hz, e⟩ := ih x
      refine ⟨z, ?_, by rw [e, Nat.min_eq_right (Nat.le_of_lt h)]⟩
      rw [← hz]
      simp only [leader?, List.foldl_cons, if_pos h]
    · obtain ⟨z, hz, e⟩ := ih y
      refine ⟨z, ?_, by rw [e, Nat.min_eq_left (Nat.le_of_not_lt h)]⟩
      rw [← hz]
      simp only [leader?, List.foldl_cons, if_neg h]

theorem lowestLane_eq_min? (ls : List (Nat × Thread)) :
    lowestLane ls = ((ls.map fun x => laneOf x.1).min?).getD 32 := by
  cases ls with
  | nil => rfl
  | cons y r =>
    obtain ⟨z, hz, e⟩ := leader?_cons_lane r y
    rw [List.map_cons, List.min?_cons', Option.getD_some, ← e, lowestLane, hz]

theorem State.lowestLane_filter (s : State) (P : Thread → Bool) :
    lowestLane (s.lanes.filter fun x => P x.2) = s.leastLane P := lowestLane_eq_min? _

theorem State.lowestLane_lanes (s : State) : lowestLane s.lanes = s.leastLane fun _ => true := by
  rw [← State.lowestLane_filter, filter_every_lane]

theorem Lanes.of_electLane {i : Instr} {s : State} {d : BitVec 7} {p : BitVec 3} {pick : List (Nat × Thread) → Nat} {L : Nat}
    (h : exec i s = .next (s.electLane d p pick)) (hL : pick s.lanes = L) :
    Lanes i s fun j T T' => T'.g d = BitVec.ofNat 32 L ∧ T'.p p = decide (j % 32 = L) ∧ (∀ n, n ≠ T.pos d → T'.at n = T.at n) ∧
      (∀ n, n ≠ p → T'.p n = T.p n) ∧ T'.pc = T.pc + 4 ∧
      ({ T with preds := T'.preds, pendPreds := T'.pendPreds } : Thread).sameButRegs T' := by
  subst hL
  refine Lanes.of_onLanes h fun j t _ _ => ⟨_, rfl, ?_⟩
  obtain ⟨value, others, -, -⟩ := writesReg_setG t d (BitVec.ofNat 32 (pick s.lanes))
  obtain ⟨mark, marks, -, -⟩ := writesPred_setP (t.setG d (BitVec.ofNat 32 (pick s.lanes))) p (laneOf j == pick s.lanes)
  exact ⟨value, mark, others, marks, rfl, rfl⟩

/-! ## The source of a shuffle (R196) -/

/-- A shuffle may be read with any equal function of the reader's lane and of its register b as its source. -/
theorem Lanes.of_shuffle {i : Instr} {s : State} {d a b : BitVec 7} {source reads : Nat → Word → Option Nat}
    (h : exec i s = .next (s.shuffle d a b source)) (hs : ∀ l y, source l y = reads l y) :
    Lanes i s fun j T => WritesReg d (s.fromLane T a (reads (j % 32) (T.g b))) T := by
  refine Lanes.of_onLanes h fun j t _ _ => ⟨_, rfl, ?_⟩
  rw [hs, laneOf, State.fromLane]
  cases reads (j % 32) (t.g b) with
  | none => exact writesReg_setG t d _
  | some l =>
    dsimp only [Option.bind_some]
    cases s.lanes.find? fun x => laneOf x.1 == l with
    | none => exact writesReg_setG t d _
    | some x => exact writesReg_setG t d _

theorem ite_lt_eq_ite_le {α : Type} (m n : Nat) (x y : α) : (if m < n then x else y) = if n ≤ m then y else x := by
  by_cases h : n ≤ m
  · rw [if_pos h, if_neg (Nat.not_lt.2 h)]
  · rw [if_neg h, if_pos (Nat.lt_of_not_le h)]

/-! ## The statement of R191, R195 and R196 -/

/-- Settles O6: each instruction writes, in every lane, one value that is a function of the lanes as they stood at its issue. -/
theorem laneResults : Obligations.LaneResults := by
  intro s d a b p q r
  have actmask : exec (.actmask d) s = .next (s.onLanes fun ls _ t => .done (t.setG d (maskWhere ls fun _ => true)).next) := by
    simp only [maskWhere_true]; rfl
  exact ⟨
    Lanes.of_electLane rfl s.lowestLane_lanes,
    Lanes.of_electLane rfl (s.lowestLane_filter fun u => u.p q),
    Lanes.of_onLanes rfl fun _ t _ _ => ⟨_, rfl, writesPred_setP t p _⟩,
    Lanes.of_onLanes rfl fun _ t _ _ => ⟨_, rfl, writesPred_setP t p _⟩,
    Lanes.of_maskWhere rfl,
    Lanes.of_maskWhere actmask,
    Lanes.of_maskWhere (P := fun t u => u.g a == t.g a) rfl,
    Lanes.of_maskWhere (P := fun t u => u.gx a == t.gx a) rfl,
    Lanes.of_shuffle (reads := fun _ y => some (y.toNat % 32)) rfl fun _ _ => rfl,
    Lanes.of_shuffle (reads := fun l y => if y.toNat ≤ l then some (l - y.toNat) else none) rfl
      fun _ _ => ite_lt_eq_ite_le _ _ _ _,
    Lanes.of_shuffle (reads := fun l y => if l + y.toNat < 32 then some (l + y.toNat) else none) rfl
      fun _ _ => (ite_lt_eq_ite_le _ _ _ _).symm,
    Lanes.of_shuffle (reads := fun l y => some (l ^^^ (y.toNat % 32))) rfl fun _ _ => rfl⟩

end Sys2Proof.Machine
end
